-- ==== Sys2Proof/Word.lean ====
section
/-! DEFINITION. The word types and the plainest arithmetic on them. -/

namespace Sys2Proof

/-- A register, an instruction word, a byte offset from a kernel header (R168, R253). -/
abbrev Word := BitVec 32

/-- One byte of any memory (R5). -/
abbrev Byte := BitVec 8

/-- A finite map from numbers to values: a list of pairs with strictly rising keys. -/
abbrev Table (α : Type) := List (Nat × α)

/-- Least multiple of `m` at or above `x` (R266). -/
def roundUp (x m : Nat) : Nat := (x + m - 1) / m * m

/-- `sext` of R266 to 32 bits. -/
def sext32 {n : Nat} (x : BitVec n) : Word := x.signExtend 32

/-- `sext` of R266 to 64 bits. -/
def sext64 {n : Nat} (x : BitVec n) : BitVec 64 := x.signExtend 64

/-- Two registers as one 64-bit value, the first the low word (R233). -/
def join64 (lo hi : Word) : BitVec 64 := hi ++ lo

/-- Bits [31:0] of a 64-bit value. -/
def lo32 (x : BitVec 64) : Word := x.setWidth 32

/-- Bits [63:32] of a 64-bit value. -/
def hi32 (x : BitVec 64) : Word := (x >>> 32).setWidth 32

/-- Ceiling division. -/
def ceilDiv (x m : Nat) : Nat := (x + m - 1) / m

end Sys2Proof
end

