-- ==== Sys2Proof/Syntax.lean ====
section
/-! DEFINITION. The abstract syntax of the machine's steps: one constructor of `Instr` for each row of the
opcode table (200 instruction words of HXI, R268 to R286, and 114 steps of the device and its hosts). -/

namespace Sys2Proof

/-- R271: the field values, in code order. -/
inductive Tgt where
  | abs | rel
  deriving DecidableEq, Repr

/-- R270 RND: the field values, in code order. -/
inductive Rnd where
  | rn | rz | ru | rd
  deriving DecidableEq, Repr

/-- R270 ARI: the field values, in code order. -/
inductive Ari where
  | i32 | i32sat | n32sat | i64
  deriving DecidableEq, Repr

/-- R270 INT4: the field values, in code order. -/
inductive Int4 where
  | i32 | n32 | i64 | n64
  deriving DecidableEq, Repr

/-- R270 UN3: the field values, in code order. -/
inductive Un3 where
  | i32 | i32sat | i64
  deriving DecidableEq, Repr

/-- R270 W2: the field values, in code order. -/
inductive W2 where
  | b32 | b64
  deriving DecidableEq, Repr

/-- R272: the field values, in code order. -/
inductive CmpM where
  | lt | le | ltn | len
  deriving DecidableEq, Repr

/-- R272: the field values, in code order. -/
inductive CmpeM where
  | eq | ne | eq64 | ne64
  deriving DecidableEq, Repr

/-- R272: the field values, in code order. -/
inductive Scale where
  | x1 | x4 | x8 | x16
  deriving DecidableEq, Repr

/-- R272: the field values, in code order. -/
inductive MulwM where
  | i64 | n64 | hiI | hiN
  deriving DecidableEq, Repr

/-- R272, R281: the field values, in code order. -/
inductive Sgn32 where
  | i32 | n32
  deriving DecidableEq, Repr

/-- R273: the field values, in code order. -/
inductive RotM where
  | l32 | r32 | l64 | r64
  deriving DecidableEq, Repr

/-- R273: the field values, in code order. -/
inductive ExtfM where
  | n32 | i32
  deriving DecidableEq, Repr

/-- R274: the field values, in code order. -/
inductive MovM where
  | b32 | b64 | b128
  deriving DecidableEq, Repr

/-- R274, R275: the field values, in code order. -/
inductive DimM where
  | d2 | d3
  deriving DecidableEq, Repr

/-- R275: the field values, in code order. -/
inductive RedM where
  | add | mini | maxi | or
  deriving DecidableEq, Repr

/-- R275: the field values, in code order. -/
inductive RedfM where
  | add | min | max
  deriving DecidableEq, Repr

/-- R275: the field values, in code order. -/
inductive FillM where
  | z | seed
  deriving DecidableEq, Repr

/-- R275: the field values, in code order. -/
inductive PollM where
  | each | some | bits | same
  deriving DecidableEq, Repr

/-- R275: the field values, in code order. -/
inductive QswpM where
  | x | y | d | b0
  deriving DecidableEq, Repr

/-- R275: the field values, in code order. -/
inductive QredM where
  | fadd | fmin | fmax | add
  deriving DecidableEq, Repr

/-- R275: the field values, in code order. -/
inductive TmaskM where
  | act | live
  deriving DecidableEq, Repr

/-- R275: the field values, in code order. -/
inductive TposM where
  | ex | inc
  deriving DecidableEq, Repr

/-- R270 FCC: the field values, in code order. -/
inductive Fcc where
  | eq | lt | le | un
  deriving DecidableEq, Repr

/-- R276: the field values, in code order. -/
inductive FsgnM where
  | copy | xor
  deriving DecidableEq, Repr

/-- R276: the field values, in code order. -/
inductive PkM where
  | f16rn | bf16rn | f16rz | bf16rz
  deriving DecidableEq, Repr

/-- R277, R281: the field values, in code order. -/
inductive MinMax where
  | min | max
  deriving DecidableEq, Repr

/-- R278: the field values, in code order. -/
inductive HalfM where
  | lo | hi
  deriving DecidableEq, Repr

/-- R278: the field values, in code order. -/
inductive UnpkM where
  | e0 | e1 | e0s | e1s
  deriving DecidableEq, Repr

/-- R278: the field values, in code order. -/
inductive Pk8M where
  | e4m3 | e4m3sat | e5m2 | e5m2sat
  deriving DecidableEq, Repr

/-- R278: the field values, in code order. -/
inductive F8 where
  | e4m3 | e5m2
  deriving DecidableEq, Repr

/-- R270 WID: the field values, in code order. -/
inductive Wid where
  | b32 | b64 | b128 | n16
  deriving DecidableEq, Repr

/-- R280: the field values, in code order. -/
inductive BlkW where
  | b64 | b128
  deriving DecidableEq, Repr

/-- R280: the field values, in code order. -/
inductive HwM where
  | b32 | b64 | n8 | n16
  deriving DecidableEq, Repr

/-- R270 SPC: the field values, in code order. -/
inductive Spc where
  | scr | lay
  deriving DecidableEq, Repr

/-- R281: the field values, in code order. -/
inductive AtI where
  | i32 | i64
  deriving DecidableEq, Repr

/-- R281: the field values, in code order. -/
inductive AtN where
  | n32 | n64
  deriving DecidableEq, Repr

/-- R281: the field values, in code order. -/
inductive AfaddM where
  | f32 | f16x2 | bf16x2
  deriving DecidableEq, Repr

/-- R281: the field values, in code order. -/
inductive IncM where
  | inc | dec
  deriving DecidableEq, Repr

/-- R281: the field values, in code order. -/
inductive AsaddM where
  | i32 | f32
  deriving DecidableEq, Repr

/-- R218, R283: the field values, in code order. -/
inductive Scope where
  | thr | quad | grp | blk | core | trp | clu | die | dev | host | fab
  deriving DecidableEq, Repr

/-- R282: the field values, in code order. -/
inductive EngC where
  | copy | gath | coll | prom
  deriving DecidableEq, Repr

/-- R284: the field values, in code order. -/
inductive MmaM where
  | bf16 | f16 | f32 | i8
  deriving DecidableEq, Repr

/-- R270 F8P: the field values, in code order. -/
inductive F8P where
  | e4e4 | e4e5 | e5e4 | e5e5
  deriving DecidableEq, Repr

/-- R284: the field values, in code order. -/
inductive CollM where
  | ar | rs | ag | bc
  deriving DecidableEq, Repr

/-- R285: the field values, in code order. -/
inductive QstatM where
  | occ | put | free
  deriving DecidableEq, Repr

/-- R286: the field values, in code order. -/
inductive AssayM where
  | q | off
  deriving DecidableEq, Repr

/-- R286: the field values, in code order. -/
inductive DbgmM where
  | post | halt
  deriving DecidableEq, Repr

/-- R286: the field values, in code order. -/
inductive WatchM where
  | r | w | rw | clr
  deriving DecidableEq, Repr

/-- R261, R408: the field values, in code order. -/
inductive TClass where
  | q | n | s | l
  deriving DecidableEq, Repr

/-- R332 CVT, CVTZ: the field values, in code order. -/
inductive FmtF where
  | f32 | f16 | bf16 | e4m3 | e5m2 | i32 | n32
  deriving DecidableEq, Repr

/-- R332 CVTU: the field values, in code order. -/
inductive FmtU where
  | i8 | n8 | i16 | n16 | i32 | n32
  deriving DecidableEq, Repr

/-- R332 CVTD: the field values, in code order. -/
inductive FmtD where
  | f32 | f64 | i32 | n32 | i64 | n64
  deriving DecidableEq, Repr

/-- A scope that a publishing barrier may name: codes 3 to 10 (R364 refuses codes 0 to 2). -/
inductive PubScope where
  | blk | core | trp | clu | die | dev | host | fab
  deriving DecidableEq, Repr

/-- A source operand field (R256). Codes 118 and 119 are no source and do not decode. -/
inductive Src where
  | v (i : Fin 80) | s (i : Fin 32) | z | tix | prv | gix | bix | phx | b (k : Fin 8)
  deriving DecidableEq, Repr

/-- A destination operand field (R257): a register, or discard (code 112). -/
inductive Dst where
  | v (i : Fin 80) | s (i : Fin 32) | discard
  deriving DecidableEq, Repr

/-- The two host ports (R77). -/
inductive HPort where
  | A | B
  deriving DecidableEq, Repr

/-- One host access through BAR B (R81): a read of so many bytes, or a write of the given bytes. -/
inductive HostAcc where
  | read (n : Nat) | write (data : List Byte)
  deriving DecidableEq, Repr

/-- A PCI Express AtomicOp (R212): FetchAdd, Swap and CAS, of 32 (`wide = false`) or 64 bits. -/
inductive HostAtom where
  | fetchAdd (wide : Bool) (v : BitVec 64) | swap (wide : Bool) (v : BitVec 64)
  | cas (wide : Bool) (cmp v : BitVec 64)
  deriving DecidableEq, Repr

/-- The argument fields of a DBGCMD write (R405). -/
structure DbgArg where
  thread : Fin 32
  group : Fin 32
  reg : BitVec 9
  skip : Bool
  block : Word
  deriving DecidableEq, Repr

/-- Every row of the opcode table is one constructor: the 200 instruction words, then the events. -/
inductive Instr where
  /-- NOP (R303). -/
  | nop
  /-- BRA (R303). -/
  | bra (p : BitVec 24)
  /-- CALL (R304). -/
  | call (n : Bool) (d : Dst) (a : Src) (m : Tgt)
  /-- RET (R304). -/
  | ret (a : Src)
  /-- JMPR (R304). -/
  | jmpr (a : Src) (m : Tgt)
  /-- BRZ (R304). -/
  | brz (h : Bool) (a : Src) (p : BitVec 16)
  /-- BRNZ (R304). -/
  | brnz (h : Bool) (a : Src) (p : BitVec 16)
  /-- BRLT (R304). -/
  | brlt (h : Bool) (a : Src) (p : BitVec 16)
  /-- BRGE (R304). -/
  | brge (h : Bool) (a : Src) (p : BitVec 16)
  /-- MEET (R305). -/
  | meet (p : BitVec 16)
  /-- REPACK (R307). -/
  | repack (a : Src) (p : BitVec 16)
  /-- LOOP (R306). -/
  | loop (a : Src) (p : BitVec 16)
  /-- EXIT (R308). -/
  | exit
  /-- WINB (R309). -/
  | winb (vq : Fin 28) (sq : Fin 6)
  /-- ADD (R310). -/
  | add (n : Bool) (d : Dst) (a : Src) (b : Src) (m : Ari)
  /-- SUB (R310). -/
  | sub (n : Bool) (d : Dst) (a : Src) (b : Src) (m : Ari)
  /-- MUL (R310). -/
  | mul (n : Bool) (d : Dst) (a : Src) (b : Src) (m : Ari)
  /-- MAD (R310). -/
  | mad (n : Bool) (d : Dst) (a : Src) (b : Src) (m : Ari)
  /-- DIV (R312). -/
  | div (n : Bool) (d : Dst) (a : Src) (b : Src) (m : Int4)
  /-- REM (R312). -/
  | rem (n : Bool) (d : Dst) (a : Src) (b : Src) (m : Int4)
  /-- MIN (R310). -/
  | min (n : Bool) (d : Dst) (a : Src) (b : Src) (m : Int4)
  /-- MAX (R310). -/
  | max (n : Bool) (d : Dst) (a : Src) (b : Src) (m : Int4)
  /-- ABS (R310). -/
  | abs (n : Bool) (d : Dst) (a : Src) (m : Un3)
  /-- NEG (R310). -/
  | neg (n : Bool) (d : Dst) (a : Src) (m : Un3)
  /-- CMP (R310). -/
  | cmp (n : Bool) (d : Dst) (a : Src) (b : Src) (m : CmpM)
  /-- CMPE (R310). -/
  | cmpe (n : Bool) (d : Dst) (a : Src) (b : Src) (m : CmpeM)
  /-- SEL (R310). -/
  | sel (n : Bool) (d : Dst) (a : Src) (b : Src) (m : W2)
  /-- LEA (R310). -/
  | lea (n : Bool) (d : Dst) (a : Src) (b : Src) (m : Scale)
  /-- MULW (R310). -/
  | mulw (n : Bool) (d : Dst) (a : Src) (b : Src) (m : MulwM)
  /-- CLAMP (R310). -/
  | clamp (n : Bool) (d : Dst) (a : Src) (b : Src) (m : Sgn32)
  /-- AND (R313). -/
  | and (n : Bool) (d : Dst) (a : Src) (b : Src) (m : W2)
  /-- OR (R313). -/
  | or (n : Bool) (d : Dst) (a : Src) (b : Src) (m : W2)
  /-- XOR (R313). -/
  | xor (n : Bool) (d : Dst) (a : Src) (b : Src) (m : W2)
  /-- ANDN (R313). -/
  | andn (n : Bool) (d : Dst) (a : Src) (b : Src) (m : W2)
  /-- ORN (R313). -/
  | orn (n : Bool) (d : Dst) (a : Src) (b : Src) (m : W2)
  /-- XNOR (R313). -/
  | xnor (n : Bool) (d : Dst) (a : Src) (b : Src) (m : W2)
  /-- SHL (R313). -/
  | shl (n : Bool) (d : Dst) (a : Src) (b : Src) (m : W2)
  /-- SHR (R313). -/
  | shr (n : Bool) (d : Dst) (a : Src) (b : Src) (m : W2)
  /-- SAR (R313). -/
  | sar (n : Bool) (d : Dst) (a : Src) (b : Src) (m : W2)
  /-- ROT (R313). -/
  | rot (n : Bool) (d : Dst) (a : Src) (b : Src) (m : RotM)
  /-- EXTF (R314). -/
  | extf (n : Bool) (d : Dst) (a : Src) (b : Src) (m : ExtfM)
  /-- DEPF (R314). -/
  | depf (n : Bool) (d : Dst) (a : Src) (b : Src)
  /-- POPC (R315). -/
  | popc (n : Bool) (d : Dst) (a : Src) (m : W2)
  /-- CLZ (R315). -/
  | clz (n : Bool) (d : Dst) (a : Src) (m : W2)
  /-- CTZ (R315). -/
  | ctz (n : Bool) (d : Dst) (a : Src) (m : W2)
  /-- BREV (R315). -/
  | brev (n : Bool) (d : Dst) (a : Src) (m : W2)
  /-- ADDI (R316). -/
  | addi (n : Bool) (d : Dst) (a : Src) (i : BitVec 9)
  /-- MULI (R316). -/
  | muli (n : Bool) (d : Dst) (a : Src) (i : BitVec 9)
  /-- ANDI (R316). -/
  | andi (n : Bool) (d : Dst) (a : Src) (i : BitVec 9)
  /-- ORI (R316). -/
  | ori (n : Bool) (d : Dst) (a : Src) (i : BitVec 9)
  /-- XORI (R316). -/
  | xori (n : Bool) (d : Dst) (a : Src) (i : BitVec 9)
  /-- SHLI (R316). -/
  | shli (n : Bool) (d : Dst) (a : Src) (i : BitVec 9)
  /-- SHRI (R316). -/
  | shri (n : Bool) (d : Dst) (a : Src) (i : BitVec 9)
  /-- SARI (R316). -/
  | sari (n : Bool) (d : Dst) (a : Src) (i : BitVec 9)
  /-- CMPIEQ (R316). -/
  | cmpieq (n : Bool) (d : Dst) (a : Src) (i : BitVec 9)
  /-- CMPILT (R316). -/
  | cmpilt (n : Bool) (d : Dst) (a : Src) (i : BitVec 9)
  /-- CMPILTN (R316). -/
  | cmpiltn (n : Bool) (d : Dst) (a : Src) (i : BitVec 9)
  /-- MINI (R316). -/
  | mini (n : Bool) (d : Dst) (a : Src) (i : BitVec 9)
  /-- LDK (R317). -/
  | ldk (n : Bool) (d : Dst) (i : BitVec 16)
  /-- LDKH (R317). -/
  | ldkh (n : Bool) (d : Dst) (i : BitVec 16)
  /-- MOV (R317). -/
  | mov (n : Bool) (d : Dst) (a : Src) (m : MovM)
  /-- MORT (R318). -/
  | mort (n : Bool) (d : Dst) (a : Src) (b : Src) (m : DimM)
  /-- SEEDC (R341). -/
  | seedc (a : Src)
  /-- RDTAIL (R341). -/
  | rdtail (n : Bool) (d : Dst)
  /-- RED (R342). -/
  | red (n : Bool) (d : Dst) (a : Src) (m : RedM)
  /-- REDF (R342). -/
  | redf (n : Bool) (d : Dst) (a : Src) (m : RedfM)
  /-- TSHB (R344). -/
  | tshb (n : Bool) (d : Dst) (a : Src) (b : Src) (m : FillM)
  /-- TSHF (R344). -/
  | tshf (n : Bool) (d : Dst) (a : Src) (b : Src) (m : FillM)
  /-- TBCST (R345). -/
  | tbcst (n : Bool) (d : Dst) (a : Src) (b : Src)
  /-- POLL (R343). -/
  | poll (n : Bool) (d : Dst) (a : Src) (m : PollM)
  /-- QSWP (R347). -/
  | qswp (n : Bool) (d : Dst) (a : Src) (m : QswpM)
  /-- QRED (R347). -/
  | qred (n : Bool) (d : Dst) (a : Src) (m : QredM)
  /-- HELP (R348). -/
  | help (n : Bool) (d : Dst)
  /-- CELLH (R349). -/
  | cellh (n : Bool) (d : Dst) (a : Src) (b : Src) (m : DimM)
  /-- TMASK (R341). -/
  | tmask (n : Bool) (d : Dst) (m : TmaskM)
  /-- TPOS (R346). -/
  | tpos (n : Bool) (d : Dst) (a : Src) (m : TposM)
  /-- FADD (R322). -/
  | fadd (n : Bool) (d : Dst) (a : Src) (b : Src) (m : Rnd)
  /-- FSUB (R322). -/
  | fsub (n : Bool) (d : Dst) (a : Src) (b : Src) (m : Rnd)
  /-- FMUL (R322). -/
  | fmul (n : Bool) (d : Dst) (a : Src) (b : Src) (m : Rnd)
  /-- FFMA (R322). -/
  | ffma (n : Bool) (d : Dst) (a : Src) (b : Src) (m : Rnd)
  /-- FMIN (R324). -/
  | fmin (n : Bool) (d : Dst) (a : Src) (b : Src)
  /-- FMAX (R324). -/
  | fmax (n : Bool) (d : Dst) (a : Src) (b : Src)
  /-- FCMP (R325). -/
  | fcmp (n : Bool) (d : Dst) (a : Src) (b : Src) (m : Fcc)
  /-- FSGN (R326). -/
  | fsgn (n : Bool) (d : Dst) (a : Src) (b : Src) (m : FsgnM)
  /-- PKADD (R328). -/
  | pkadd (n : Bool) (d : Dst) (a : Src) (b : Src) (m : PkM)
  /-- PKMUL (R328). -/
  | pkmul (n : Bool) (d : Dst) (a : Src) (b : Src) (m : PkM)
  /-- PKFMA (R328). -/
  | pkfma (n : Bool) (d : Dst) (a : Src) (b : Src) (m : PkM)
  /-- FDIV (R322). -/
  | fdiv (n : Bool) (d : Dst) (a : Src) (b : Src) (m : Rnd)
  /-- FSQRT (R322). -/
  | fsqrt (n : Bool) (d : Dst) (a : Src) (m : Rnd)
  /-- FRND (R322). -/
  | frnd (n : Bool) (d : Dst) (a : Src) (m : Rnd)
  /-- FCLASS (R327). -/
  | fclass (n : Bool) (d : Dst) (a : Src)
  /-- FSCL (R322). -/
  | fscl (n : Bool) (d : Dst) (a : Src) (b : Src) (m : Rnd)
  /-- FRCP (R329). -/
  | frcp (n : Bool) (d : Dst) (a : Src)
  /-- FRSQ (R329). -/
  | frsq (n : Bool) (d : Dst) (a : Src)
  /-- FEX2 (R329). -/
  | fex2 (n : Bool) (d : Dst) (a : Src)
  /-- FLG2 (R329). -/
  | flg2 (n : Bool) (d : Dst) (a : Src)
  /-- FSIN (R329). -/
  | fsin (n : Bool) (d : Dst) (a : Src)
  /-- FTANH (R329). -/
  | ftanh (n : Bool) (d : Dst) (a : Src)
  /-- DADD (R331). -/
  | dadd (n : Bool) (d : Dst) (a : Src) (b : Src) (m : Rnd)
  /-- DSUB (R331). -/
  | dsub (n : Bool) (d : Dst) (a : Src) (b : Src) (m : Rnd)
  /-- DMUL (R331). -/
  | dmul (n : Bool) (d : Dst) (a : Src) (b : Src) (m : Rnd)
  /-- DFMA (R331). -/
  | dfma (n : Bool) (d : Dst) (a : Src) (b : Src) (m : Rnd)
  /-- DDIV (R331). -/
  | ddiv (n : Bool) (d : Dst) (a : Src) (b : Src) (m : Rnd)
  /-- DSQRT (R331). -/
  | dsqrt (n : Bool) (d : Dst) (a : Src) (m : Rnd)
  /-- DMIN (R331). -/
  | dmin (n : Bool) (d : Dst) (a : Src) (b : Src) (m : MinMax)
  /-- DCMP (R331). -/
  | dcmp (n : Bool) (d : Dst) (a : Src) (b : Src) (m : Fcc)
  /-- CVT (R333). -/
  | cvt (n : Bool) (d : Dst) (a : Src) (k : Rnd) (t : Bool) (j : FmtF) (f : FmtF)
  /-- CVTZ (R333). -/
  | cvtz (n : Bool) (d : Dst) (a : Src) (t : Bool) (j : FmtF) (f : FmtF)
  /-- CVTU (R334). -/
  | cvtu (n : Bool) (d : Dst) (a : Src) (t : Bool) (j : FmtU) (f : FmtU)
  /-- CVTD (R335). -/
  | cvtd (n : Bool) (d : Dst) (a : Src) (k : Rnd) (t : Bool) (j : FmtD) (f : FmtD)
  /-- PACK (R336). -/
  | pack (n : Bool) (d : Dst) (a : Src) (b : Src) (m : HalfM)
  /-- UNPK (R336). -/
  | unpk (n : Bool) (d : Dst) (a : Src) (m : UnpkM)
  /-- PK8 (R337). -/
  | pk8 (n : Bool) (d : Dst) (a : Src) (b : Src) (m : Pk8M)
  /-- UPK8 (R337). -/
  | upk8 (n : Bool) (d : Dst) (a : Src) (b : Src) (m : F8)
  /-- LDB (R353). -/
  | ldb (d : Dst) (a : Src) (i : BitVec 9)
  /-- LDBS (R353). -/
  | ldbs (d : Dst) (a : Src) (i : BitVec 9)
  /-- LDH (R353). -/
  | ldh (d : Dst) (a : Src) (i : BitVec 9)
  /-- LDHS (R353). -/
  | ldhs (d : Dst) (a : Src) (i : BitVec 9)
  /-- LDW (R353). -/
  | ldw (d : Dst) (a : Src) (i : BitVec 9)
  /-- LDD (R353). -/
  | ldd (d : Dst) (a : Src) (i : BitVec 9)
  /-- LDQ (R353). -/
  | ldq (d : Dst) (a : Src) (i : BitVec 9)
  /-- STB (R353). -/
  | stb (e : Src) (a : Src) (i : BitVec 9)
  /-- STH (R353). -/
  | sth (e : Src) (a : Src) (i : BitVec 9)
  /-- STW (R353). -/
  | stw (e : Src) (a : Src) (i : BitVec 9)
  /-- STD (R353). -/
  | std (e : Src) (a : Src) (i : BitVec 9)
  /-- STQ (R353). -/
  | stq (e : Src) (a : Src) (i : BitVec 9)
  /-- LDX (R353). -/
  | ldx (d : Dst) (a : Src) (b : Src) (m : Wid)
  /-- STX (R353). -/
  | stx (e : Src) (a : Src) (b : Src) (m : Wid)
  /-- LDU (R354). -/
  | ldu (d : Dst) (a : Src) (i : BitVec 9)
  /-- PREF (R355). -/
  | pref (a : Src) (b : Src)
  /-- LDS (R356). -/
  | lds (d : Dst) (a : Src) (i : BitVec 9)
  /-- STS (R356). -/
  | sts (e : Src) (a : Src) (i : BitVec 9)
  /-- LDSX (R356). -/
  | ldsx (d : Dst) (a : Src) (b : Src) (m : Wid)
  /-- STSX (R356). -/
  | stsx (e : Src) (a : Src) (b : Src) (m : Wid)
  /-- LDL (R356). -/
  | ldl (d : Dst) (a : Src) (i : BitVec 9)
  /-- STL (R356). -/
  | stl (e : Src) (a : Src) (i : BitVec 9)
  /-- LDLB (R356). -/
  | ldlb (d : Dst) (a : Src) (b : Src) (m : BlkW)
  /-- STLB (R356). -/
  | stlb (e : Src) (a : Src) (b : Src) (m : BlkW)
  /-- LDHW (R356). -/
  | ldhw (d : Dst) (a : Src) (b : Src) (m : HwM)
  /-- STHW (R356). -/
  | sthw (e : Src) (a : Src) (b : Src) (m : HwM)
  /-- ALLOC (R357). -/
  | alloc (a : Src) (b : Src) (m : Spc)
  /-- FREE (R357). -/
  | free (a : Src) (b : Src) (m : Spc)
  /-- LIFE (R357). -/
  | life (a : Src) (b : Src) (m : Spc)
  /-- EXPQ (R359). -/
  | expq (d : Dst) (a : Src) (m : Spc)
  /-- AADD (R361). -/
  | aadd (d : Dst) (a : Src) (b : Src) (m : W2)
  /-- AMIN (R361). -/
  | amin (d : Dst) (a : Src) (b : Src) (m : AtI)
  /-- AMINN (R361). -/
  | aminn (d : Dst) (a : Src) (b : Src) (m : AtN)
  /-- AMAX (R361). -/
  | amax (d : Dst) (a : Src) (b : Src) (m : AtI)
  /-- AMAXN (R361). -/
  | amaxn (d : Dst) (a : Src) (b : Src) (m : AtN)
  /-- AAND (R361). -/
  | aand (d : Dst) (a : Src) (b : Src) (m : W2)
  /-- AOR (R361). -/
  | aor (d : Dst) (a : Src) (b : Src) (m : W2)
  /-- AXOR (R361). -/
  | axor (d : Dst) (a : Src) (b : Src) (m : W2)
  /-- AXCH (R361). -/
  | axch (d : Dst) (a : Src) (b : Src) (m : W2)
  /-- ACAS (R361). -/
  | acas (d : Dst) (a : Src) (b : Src) (m : W2)
  /-- AFADD (R361). -/
  | afadd (d : Dst) (a : Src) (b : Src) (m : AfaddM)
  /-- AFMIN (R361). -/
  | afmin (d : Dst) (a : Src) (b : Src) (m : MinMax)
  /-- AINC (R361). -/
  | ainc (d : Dst) (a : Src) (b : Src) (m : IncM)
  /-- ASADD (R361). -/
  | asadd (d : Dst) (a : Src) (b : Src) (m : AsaddM)
  /-- ASMIN (R361). -/
  | asmin (d : Dst) (a : Src) (b : Src) (m : Sgn32)
  /-- ASCAS (R361). -/
  | ascas (d : Dst) (a : Src) (b : Src) (m : W2)
  /-- PUB (R220). -/
  | pub (sc : Scope)
  /-- ACQ (R221). -/
  | acq (sc : Scope)
  /-- FENCE (R227). -/
  | fence
  /-- BAR (R364). -/
  | bar (pub : Option PubScope) (id : Fin 16)
  /-- BARA (R364). -/
  | bara (pub : Option PubScope) (id : Fin 16)
  /-- BARW (R364). -/
  | barw (pub : Option PubScope) (id : Fin 16)
  /-- PHASE (R365). -/
  | phase (sc : Scope)
  /-- WAIT (R366). -/
  | wait (k : EngC) (th : BitVec 8)
  /-- MMA (R372). -/
  | mma (d : Dst) (a : Src) (b : Src) (m : MmaM)
  /-- MMAS (R372). -/
  | mmas (d : Dst) (a : Src) (b : Src) (m : F8P)
  /-- MMAF (R372). -/
  | mmaf (d : Dst) (a : Src) (b : Src) (m : F8P)
  /-- GANG (R369). -/
  | gang (a : Src) (b : Src)
  /-- GATH (R251). -/
  | gath (d : Dst) (a : Src)
  /-- CPY (R248). -/
  | cpy (d : Dst) (a : Src)
  /-- CPYT (R250). -/
  | cpyt (d : Dst) (a : Src)
  /-- COLL (R378). -/
  | coll (d : Dst) (a : Src) (m : CollM)
  /-- ACCZ (R375). -/
  | accz
  /-- MMAQ (R376). -/
  | mmaq (d : Dst)
  /-- QPUT (R381). -/
  | qput (a : Src) (b : Src)
  /-- QTAKE_Q (R382). -/
  | qtakeQ (d : Dst) (a : Src)
  /-- QTAKE_STAGE (R382). -/
  | qtakeStage (d : Dst)
  /-- QMPUT (R381). -/
  | qmput (e : Src) (a : Src) (b : Src)
  /-- QREL (R383). -/
  | qrel (a : Src)
  /-- SPAWN (R385). -/
  | spawn (a : Src)
  /-- JOIN (R385). -/
  | join (a : Src) (sc : Scope)
  /-- QSTAT (R384). -/
  | qstat (d : Dst) (a : Src) (m : QstatM)
  /-- YIELD (R386). -/
  | yieldI
  /-- TRAP (R388). -/
  | trap (a : Src)
  /-- TRAP_RET (R389). -/
  | trapRet
  /-- TRAP_NEXT (R389). -/
  | trapNext
  /-- LIVE (R391). -/
  | live (i : BitVec 16)
  /-- REGION (R392). -/
  | region (i : BitVec 16)
  /-- ASSAY (R393). -/
  | assay (d : Dst) (m : AssayM)
  /-- RDSR (R395). -/
  | rdsr (n : Bool) (d : Dst) (i : BitVec 16)
  /-- WRSR (R395). -/
  | wrsr (e : Src) (i : BitVec 16)
  /-- BKPT (R399). -/
  | bkpt (i : BitVec 16)
  /-- DBGM (R402). -/
  | dbgm (a : Src) (m : DbgmM)
  /-- WATCH (R400). -/
  | watch (a : Src) (b : Src) (m : WatchM)
  /-- SLEEP (R407). -/
  | sleep (a : Src)
  /-- CLASS (R408). -/
  | clas (c : TClass)
  /-- RESERVED_ENCODING (R264). -/
  | reservedEncoding (w : Word)
  /-- BRING_UP (R23). -/
  | bringUp
  /-- THERMAL_HOT (R22). -/
  | thermalHot (die : Fin 8)
  /-- THERMAL_SHUTDOWN (R22). -/
  | thermalShutdown (die : Fin 8) (temp : BitVec 16)
  /-- RAIL_SHUTDOWN (R28). -/
  | railShutdown (x : Fin 4)
  /-- RAIL_LOSS_RESUME (R28). -/
  | railLossResume (blk : Nat)
  /-- BALLAST_INJECTION (R30). -/
  | ballastInjection (x : Fin 4)
  /-- UNDERVOLT_INTERVAL (R33). -/
  | undervoltInterval (x : Fin 4)
  /-- ENERGY_METER (R43). -/
  | energyMeter
  /-- PATROL_SCRUB (R65). -/
  | patrolScrub (sector : Nat)
  /-- REFRESH (R192). -/
  | refresh (granule : Nat)
  /-- ASSAY_REPLAY (R74). -/
  | assayReplay (job : Nat)
  /-- ASSAY_COMPARE (R75). -/
  | assayCompare (job : Nat)
  /-- ASSAY_THIRD_RUN (R75). -/
  | assayThirdRun (job : Nat)
  /-- ASSAY_BOUND_EXPIRY (R74). -/
  | assayBoundExpiry (job : Nat)
  /-- QUARANTINE_RELOCATION_TIMEOUT (R75). -/
  | quarantineTimeout (core : Nat)
  /-- FLIT_RECEIVE (R48). -/
  | flitReceive (p : Fin 12) (flit : List Byte)
  /-- FLIT_SEND (R50). -/
  | flitSend (p : Fin 12)
  /-- ACK_TIMEOUT (R48). -/
  | ackTimeout (p : Fin 12)
  /-- RETRAIN_TIMEOUT (R49). -/
  | retrainTimeout (p : Fin 12)
  /-- CREDIT_STALL (R51). -/
  | creditStall (p : Fin 12) (vc : Fin 4)
  /-- PORT_TRAIN (R53). -/
  | portTrain (hp : HPort) (p : Fin 12)
  /-- DEVID_WRITE (R53). -/
  | devidWrite (hp : HPort) (v : Word)
  /-- COLLECTIVE_COMPLETE (R58). -/
  | collectiveComplete (cid : Nat) (peers : List (List Byte)) (bad : List (List Nat))
  /-- COLLECTIVE_ABORT (R59). -/
  | collectiveAbort (cid : Nat) (cause : BitVec 4)
  /-- COLLECTIVE_TIMEOUT (R59). -/
  | collectiveTimeout (cid : Nat)
  /-- READ_LATCH_LOAD (R78): a read of BAR A of so many bytes. -/
  | readLatchLoad (hp : HPort) (off : BitVec 26) (size : Nat)
  /-- HOST_WINDOW_ACCESS (R81). -/
  | hostWindowAccess (hp : HPort) (off : BitVec 22) (acc : HostAcc)
  /-- HOST_RAW_READ (R82). -/
  | hostRawRead (hp : HPort) (fn1 : Bool) (off : BitVec 42) (len : Nat)
  /-- HOST_RAW_WRITE (R82). -/
  | hostRawWrite (hp : HPort) (fn1 : Bool) (off : BitVec 42) (data : List Byte)
  /-- HOST_ATOMICOP (R212). -/
  | hostAtomicOp (hp : HPort) (fn1 : Bool) (off : BitVec 42) (op : HostAtom)
  /-- TRIGGER_LAUNCH (R94). -/
  | triggerLaunch (hp : HPort) (sseq : Word) (patch order : Bool) (graph : BitVec 10) (ploff : BitVec 18)
  /-- TRIGGER_LOAD (R97). -/
  | triggerLoad (hp : HPort) (sseq : Word) (graph : BitVec 10) (ploff : BitVec 18)
  /-- TRIGGER_UNLOAD (R97). -/
  | triggerUnload (hp : HPort) (sseq : Word) (graph : BitVec 10)
  /-- TRIGGER_BADOP (R94). -/
  | triggerBadop (hp : HPort) (sseq : Word) (graph : BitVec 10)
  /-- FLUSH_DEVICE_TO_HOST (R85). -/
  | flushDeviceToHost (hp : HPort) (order : Bool) (len : Word)
  /-- FLUSH_HOST_TO_DEVICE (R85). -/
  | flushHostToDevice (hp : HPort) (order : Bool) (len : Word)
  /-- FLUSH_BAD_DIR (R85). -/
  | flushBadDir (hp : HPort) (dir : BitVec 8) (order : Bool) (len : Word)
  /-- FLUSH_COMPLETE (R85). -/
  | flushComplete (hp : HPort)
  /-- SUBSEQ_WRITE (R84). -/
  | subseqWrite (hp : HPort) (v : Word)
  /-- CRREPLAY (R84). -/
  | crReplay (hp : HPort) (v : Word)
  /-- COMPLETION_RECORD_WRITE (R84). -/
  | completionRecordWrite (hp : HPort)
  /-- CTXNEW (R91). -/
  | ctxNew (hp : HPort) (tag : Word) (len : BitVec 13)
  /-- CTXEND (R91). -/
  | ctxEnd (hp : HPort) (tag : Word) (len : BitVec 13)
  /-- SETCLU (R109). -/
  | setClu (hp : HPort) (tag : Word) (len : BitVec 13)
  /-- GETCLU (R90). -/
  | getClu (hp : HPort) (tag : Word) (len : BitVec 13)
  /-- SETRAIL (R26). -/
  | setRail (hp : HPort) (tag : Word) (len : BitVec 13)
  /-- RAILON (R28). -/
  | railOn (hp : HPort) (tag : Word) (len : BitVec 13)
  /-- SETSLOPE (R31). -/
  | setSlope (hp : HPort) (tag : Word) (len : BitVec 13)
  /-- CLRACCT (R42). -/
  | clrAcct (hp : HPort) (tag : Word) (len : BitVec 13)
  /-- DEBUG (R90). -/
  | debugCmd (hp : HPort) (tag : Word) (len : BitVec 13)
  /-- COMMSET (R90). -/
  | commSet (hp : HPort) (tag : Word) (len : BitVec 13)
  /-- COMMCLR (R90). -/
  | commClr (hp : HPort) (tag : Word) (len : BitVec 13)
  /-- IDENT (R87). -/
  | identCmd (hp : HPort) (tag : Word) (len : BitVec 13)
  /-- ATTEST (R87). -/
  | attest (hp : HPort) (tag : Word) (len : BitVec 13)
  /-- IMGBEGIN (R90). -/
  | imgBegin (hp : HPort) (tag : Word) (len : BitVec 13)
  /-- IMGDATA (R90). -/
  | imgData (hp : HPort) (tag : Word) (len : BitVec 13)
  /-- IMGEND (R92). -/
  | imgEnd (hp : HPort) (tag : Word) (len : BitVec 13)
  /-- COMMIT (R86). -/
  | commitCmd (hp : HPort) (tag : Word) (len : BitVec 13)
  /-- MAILBOX_BADOP (R89). -/
  | mailboxBadop (hp : HPort) (tag : Word) (len : BitVec 13) (op : BitVec 8)
  /-- TENANT_WRITE (R88). -/
  | tenantWrite (hp : HPort) (k : Fin 16) (v : Word)
  /-- WINOWN_WRITE (R88). -/
  | winownWrite (hp : HPort) (f : Fin 128) (v : Word)
  /-- MIGPOOL_WRITE (R213). -/
  | migpoolWrite (hp : HPort) (k : Fin 16) (v : BitVec 64)
  /-- UVCTL_WRITE (R33). -/
  | uvctlWrite (hp : HPort) (x : Fin 4) (v : Word)
  /-- INVALIDATE_ALL (R209). -/
  | invalidateAll (hp : HPort)
  /-- INVALIDATE_PAGE (R209). -/
  | invalidatePage (hp : HPort) (va : BitVec 57)
  /-- INVALIDATE_COMPLETE (R209). -/
  | invalidateComplete (hp : HPort)
  /-- REPLAY_BY_TOKEN (R154). -/
  | replayByToken (hp : HPort) (token : Word)
  /-- REPLAY_BY_PAGE (R154). -/
  | replayByPage (hp : HPort) (va : BitVec 57)
  /-- CTXKILL (R165). -/
  | ctxKill (hp : HPort) (ctx : Word)
  /-- PREEMPT_REQUEST (R162). -/
  | preemptRequest (hp : HPort) (ctx : Word)
  /-- TRRIX_WRITE (R158). -/
  | trrixWrite (hp : HPort) (v : Word)
  /-- TRAP_ENTRY_WRITE (R158). -/
  | trapEntryWrite (hp : HPort)
  /-- PREEMPT_TIMEOUT (R165). -/
  | preemptTimeout (ctx : Word)
  /-- DBGCTX_WRITE (R403). -/
  | dbgctxWrite (hp : HPort) (v : Word)
  /-- DBGPOP (R403). -/
  | dbgPop (hp : HPort)
  /-- DBG_HALT (R405). -/
  | dbgHalt (hp : HPort) (cmd : DbgArg)
  /-- DBG_RESUME (R405). -/
  | dbgResume (hp : HPort) (cmd : DbgArg)
  /-- DBG_STEP (R405). -/
  | dbgStep (hp : HPort) (cmd : DbgArg)
  /-- DBG_RDV (R405). -/
  | dbgRdv (hp : HPort) (cmd : DbgArg)
  /-- DBG_WRV (R405). -/
  | dbgWrv (hp : HPort) (cmd : DbgArg)
  /-- DBG_RDS (R405). -/
  | dbgRds (hp : HPort) (cmd : DbgArg)
  /-- DBG_WRS (R405). -/
  | dbgWrs (hp : HPort) (cmd : DbgArg)
  /-- DBG_BADOP (R405). -/
  | dbgBadop (hp : HPort) (op : BitVec 4)
  /-- REGISTER_WRITE (R7). -/
  | registerWrite (hp : HPort) (off : BitVec 26) (size : Nat) (v : BitVec 64)
  /-- INSTANCE_START (R98). -/
  | instStart (inst : Nat)
  /-- NODE_DISPATCH (R98). -/
  | nodeDispatch (inst : Nat) (node : Nat)
  /-- TROUPE_PLACE (R110). -/
  | troupePlace (cluster : Fin 96)
  /-- GROUP_RESTORE (R155). -/
  | groupRestore (blk grp : Nat)
  /-- BLOCK_SAVE (R164). -/
  | blockSave (blk : Nat)
  /-- BLOCK_RESTORE (R164). -/
  | blockRestore (blk : Nat)
  /-- BLOCK_RELOCATE (R118). -/
  | blockRelocate (blk : Nat) (core : Nat)
  /-- ACTIVE_READY_BOUND (R136). -/
  | activeReadyBound (blk grp : Nat)
  /-- PENDING_READY_BOUND (R136). -/
  | pendingReadyBound (blk grp : Nat)
  /-- CLASS_WINDOW_END (R137). -/
  | classWindowEnd (core : Nat)
  /-- SLEEP_WAKE (R143). -/
  | sleepWake (core : Nat)
  /-- LOGGED_ACCESS_REISSUE (R143). -/
  | loggedReissue (blk grp : Nat)
  /-- MEMORY_RETURN (R132). -/
  | memoryReturn (blk grp : Nat)
  /-- MMA_COMPLETE (R372). -/
  | mmaComplete (blk grp : Nat)
  /-- MATRIX_UNIT_RESET (R166). -/
  | matrixUnitReset (core : Nat) (part : Fin 4)
  /-- COPY_COMPLETE (R249). -/
  | copyComplete (blk grp : Nat)
  /-- GATHER_COMPLETE (R377). -/
  | gatherComplete (blk grp : Nat)
  /-- MIGRATION_PROMOTE (R214). -/
  | migrationPromote (ctx : Word) (va : BitVec 64)
  /-- PAGE_SWITCH (R215). -/
  | pageSwitch (idx : Nat)
  /-- PREF_DEADLINE (R216). -/
  | prefDeadline (blk grp : Nat)
  /-- BARRIER_WATCHDOG (R161). -/
  | barrierWatchdog (blk : Nat) (bar : Nat)
  /-- RENDEZVOUS_WATCHDOG (R161). -/
  | rendezvousWatchdog (blk grp : Nat)
  /-- FOREMAN_EVALUATE (R126). -/
  | foremanEvaluate (cluster : Fin 96)
  /-- QUEUE_WINDOW_REFILL (R382). -/
  | queueWindowRefill (core : Nat) (q : Fin 16)
  /-- CONTINUATION_ENQUEUE (R128). -/
  | continuationEnqueue (cluster : Fin 96) (q : Fin 16)
  /-- BANK_DRAIN_COMPLETE (R197). -/
  | bankDrainComplete (cluster : Fin 96) (bank : Fin 16)
  /-- PORT_TRAINED (R53). -/
  | portTrained (p : Fin 12)
  /-- THERMAL_COOL (R22). -/
  | thermalCool (die : Fin 8)
  /-- IN_FIELD_TEST (R67). -/
  | inFieldTest (core : Nat) (lane : Fin 64) (fails : Bool)
  deriving DecidableEq, Repr

end Sys2Proof
end

