-- ==== Sys2Proof/Machine/Shape.lean ====
section
/-! DEFINITION. What each instruction's operand fields may hold (R170, R256 to R260, R338, R367, R387): its shape; its
opcode, timing class and execution class. -/

namespace Sys2Proof

/-- Registers a value of a format set occupies (R258). -/
def Ari.words : Ari → Nat | .i64 => 2 | _ => 1
def Int4.words : Int4 → Nat | .i64 => 2 | .n64 => 2 | _ => 1
def Un3.words : Un3 → Nat | .i64 => 2 | _ => 1
def W2.words : W2 → Nat | .b64 => 2 | .b32 => 1
def CmpeM.words : CmpeM → Nat | .eq64 => 2 | .ne64 => 2 | _ => 1
def MulwM.words : MulwM → Nat | .i64 => 2 | .n64 => 2 | _ => 1
def RotM.words : RotM → Nat | .l64 => 2 | .r64 => 2 | _ => 1
def MovM.words : MovM → Nat | .b32 => 1 | .b64 => 2 | .b128 => 4
def FmtD.words : FmtD → Nat | .f64 => 2 | .i64 => 2 | .n64 => 2 | _ => 1
def Wid.words : Wid → Nat | .b64 => 2 | .b128 => 4 | _ => 1
def BlkW.words : BlkW → Nat | .b64 => 2 | .b128 => 4
def HwM.words : HwM → Nat | .b64 => 2 | _ => 1
def AtI.words : AtI → Nat | .i64 => 2 | .i32 => 1
def AtN.words : AtN → Nat | .n64 => 2 | .n32 => 1

/-- R170: a source that is per-thread. -/
def Src.perThread : Src → Bool
  | .v _ => true | .tix => true | .prv => true | .b _ => true | _ => false

/-- R338: "vector" sources of block 0x4_, which exclude `prv`. -/
def Src.isVec : Src → Bool
  | .v _ => true | .tix => true | .b _ => true | _ => false

def Src.isScalar (x : Src) : Bool := !x.perThread
def Src.anyOk : Src → Bool := fun _ => true

/-- R258: a wide source names a register or `z`. -/
def Src.wide (words : Nat) (x : Src) : Bool :=
  words == 1 || match x with | .v _ => true | .s _ => true | .z => true | _ => false

def Src.isSReg : Src → Bool | .s _ => true | _ => false
def Src.isSRegZ : Src → Bool | .s _ => true | .z => true | _ => false
def Src.isReg : Src → Bool | .s _ => true | .v _ => true | _ => false
def Src.wideScalar : Src → Bool | .s _ => true | .z => true | _ => false
def Dst.anyOk : Dst → Bool := fun _ => true
def Dst.notScalar : Dst → Bool | .s _ => false | _ => true
def Dst.notVector : Dst → Bool | .v _ => false | _ => true
def Dst.isVReg : Dst → Bool | .v _ => true | _ => false

/-- A source field: the operand, the registers it spans, the alignment of its physical index, what it may hold. -/
structure SrcF where
  src : Src
  span : Nat
  align : Nat
  need : Src → Bool

/-- A destination field; `reads` marks D* (R253, R301). -/
structure DstF where
  dst : Dst
  span : Nat
  align : Nat
  reads : Bool
  need : Dst → Bool

/-- How the execution class is decided: R170; the table of R338; uniform (once per path); a put (R381); once for each
active thread whatever the class of A (R382, R383). -/
inductive Rule where
  | std | thru | uni | path | each
  deriving DecidableEq, Repr

/-- The operand fields of an instruction. `e` is a D field that is only read. -/
structure Shape where
  rule : Rule := .uni
  d : Option DstF := none
  e : Option SrcF := none
  a : Option SrcF := none
  b : Option SrcF := none

/-- The shape of each instruction (R271 to R286 and the instruction descriptions). Events have none. -/
def shape : Instr → Shape
  | .nop => { rule := .uni }
  | .bra _ => { rule := .uni }
  | .call _ d a _ => { rule := .std, d := some ⟨d, 1, 1, false, Dst.anyOk⟩, a := some ⟨a, 1, 1, Src.anyOk⟩ }
  | .ret a => { rule := .std, a := some ⟨a, 1, 1, Src.anyOk⟩ }
  | .jmpr a _ => { rule := .std, a := some ⟨a, 1, 1, Src.anyOk⟩ }
  | .brz _ a _ => { rule := .std, a := some ⟨a, 1, 1, Src.anyOk⟩ }
  | .brnz _ a _ => { rule := .std, a := some ⟨a, 1, 1, Src.anyOk⟩ }
  | .brlt _ a _ => { rule := .std, a := some ⟨a, 1, 1, Src.anyOk⟩ }
  | .brge _ a _ => { rule := .std, a := some ⟨a, 1, 1, Src.anyOk⟩ }
  | .meet _ => { rule := .uni }
  | .repack a _ => { rule := .std, a := some ⟨a, 1, 1, Src.anyOk⟩ }
  | .loop a _ => { rule := .std, a := some ⟨a, 1, 1, Src.isReg⟩ }
  | .exit => { rule := .uni }
  | .winb _ _ => { rule := .uni }
  | .add _ d a b m => { rule := .std, d := some ⟨d, m.words, m.words, false, Dst.anyOk⟩, a := some ⟨a, m.words, m.words, (Src.wide m.words)⟩, b := some ⟨b, m.words, m.words, (Src.wide m.words)⟩ }
  | .sub _ d a b m => { rule := .std, d := some ⟨d, m.words, m.words, false, Dst.anyOk⟩, a := some ⟨a, m.words, m.words, (Src.wide m.words)⟩, b := some ⟨b, m.words, m.words, (Src.wide m.words)⟩ }
  | .mul _ d a b m => { rule := .std, d := some ⟨d, m.words, m.words, false, Dst.anyOk⟩, a := some ⟨a, m.words, m.words, (Src.wide m.words)⟩, b := some ⟨b, m.words, m.words, (Src.wide m.words)⟩ }
  | .mad _ d a b m => { rule := .std, d := some ⟨d, m.words, m.words, true, Dst.anyOk⟩, a := some ⟨a, m.words, m.words, (Src.wide m.words)⟩, b := some ⟨b, m.words, m.words, (Src.wide m.words)⟩ }
  | .div _ d a b m => { rule := .std, d := some ⟨d, m.words, m.words, false, Dst.anyOk⟩, a := some ⟨a, m.words, m.words, (Src.wide m.words)⟩, b := some ⟨b, m.words, m.words, (Src.wide m.words)⟩ }
  | .rem _ d a b m => { rule := .std, d := some ⟨d, m.words, m.words, false, Dst.anyOk⟩, a := some ⟨a, m.words, m.words, (Src.wide m.words)⟩, b := some ⟨b, m.words, m.words, (Src.wide m.words)⟩ }
  | .min _ d a b m => { rule := .std, d := some ⟨d, m.words, m.words, false, Dst.anyOk⟩, a := some ⟨a, m.words, m.words, (Src.wide m.words)⟩, b := some ⟨b, m.words, m.words, (Src.wide m.words)⟩ }
  | .max _ d a b m => { rule := .std, d := some ⟨d, m.words, m.words, false, Dst.anyOk⟩, a := some ⟨a, m.words, m.words, (Src.wide m.words)⟩, b := some ⟨b, m.words, m.words, (Src.wide m.words)⟩ }
  | .abs _ d a m => { rule := .std, d := some ⟨d, m.words, m.words, false, Dst.anyOk⟩, a := some ⟨a, m.words, m.words, (Src.wide m.words)⟩ }
  | .neg _ d a m => { rule := .std, d := some ⟨d, m.words, m.words, false, Dst.anyOk⟩, a := some ⟨a, m.words, m.words, (Src.wide m.words)⟩ }
  | .cmp _ d a b _ => { rule := .std, d := some ⟨d, 1, 1, false, Dst.anyOk⟩, a := some ⟨a, 1, 1, Src.anyOk⟩, b := some ⟨b, 1, 1, Src.anyOk⟩ }
  | .cmpe _ d a b m => { rule := .std, d := some ⟨d, 1, 1, false, Dst.anyOk⟩, a := some ⟨a, m.words, m.words, (Src.wide m.words)⟩, b := some ⟨b, m.words, m.words, (Src.wide m.words)⟩ }
  | .sel _ d a b m => { rule := .std, d := some ⟨d, m.words, m.words, true, Dst.anyOk⟩, a := some ⟨a, m.words, m.words, (Src.wide m.words)⟩, b := some ⟨b, m.words, m.words, (Src.wide m.words)⟩ }
  | .lea _ d a b _ => { rule := .std, d := some ⟨d, 2, 2, false, Dst.anyOk⟩, a := some ⟨a, 2, 2, (Src.wide 2)⟩, b := some ⟨b, 1, 1, Src.anyOk⟩ }
  | .mulw _ d a b m => { rule := .std, d := some ⟨d, m.words, m.words, false, Dst.anyOk⟩, a := some ⟨a, 1, 1, Src.anyOk⟩, b := some ⟨b, 1, 1, Src.anyOk⟩ }
  | .clamp _ d a b _ => { rule := .std, d := some ⟨d, 1, 1, true, Dst.anyOk⟩, a := some ⟨a, 1, 1, Src.anyOk⟩, b := some ⟨b, 1, 1, Src.anyOk⟩ }
  | .and _ d a b m => { rule := .std, d := some ⟨d, m.words, m.words, false, Dst.anyOk⟩, a := some ⟨a, m.words, m.words, (Src.wide m.words)⟩, b := some ⟨b, m.words, m.words, (Src.wide m.words)⟩ }
  | .or _ d a b m => { rule := .std, d := some ⟨d, m.words, m.words, false, Dst.anyOk⟩, a := some ⟨a, m.words, m.words, (Src.wide m.words)⟩, b := some ⟨b, m.words, m.words, (Src.wide m.words)⟩ }
  | .xor _ d a b m => { rule := .std, d := some ⟨d, m.words, m.words, false, Dst.anyOk⟩, a := some ⟨a, m.words, m.words, (Src.wide m.words)⟩, b := some ⟨b, m.words, m.words, (Src.wide m.words)⟩ }
  | .andn _ d a b m => { rule := .std, d := some ⟨d, m.words, m.words, false, Dst.anyOk⟩, a := some ⟨a, m.words, m.words, (Src.wide m.words)⟩, b := some ⟨b, m.words, m.words, (Src.wide m.words)⟩ }
  | .orn _ d a b m => { rule := .std, d := some ⟨d, m.words, m.words, false, Dst.anyOk⟩, a := some ⟨a, m.words, m.words, (Src.wide m.words)⟩, b := some ⟨b, m.words, m.words, (Src.wide m.words)⟩ }
  | .xnor _ d a b m => { rule := .std, d := some ⟨d, m.words, m.words, false, Dst.anyOk⟩, a := some ⟨a, m.words, m.words, (Src.wide m.words)⟩, b := some ⟨b, m.words, m.words, (Src.wide m.words)⟩ }
  | .shl _ d a b m => { rule := .std, d := some ⟨d, m.words, m.words, false, Dst.anyOk⟩, a := some ⟨a, m.words, m.words, (Src.wide m.words)⟩, b := some ⟨b, 1, 1, Src.anyOk⟩ }
  | .shr _ d a b m => { rule := .std, d := some ⟨d, m.words, m.words, false, Dst.anyOk⟩, a := some ⟨a, m.words, m.words, (Src.wide m.words)⟩, b := some ⟨b, 1, 1, Src.anyOk⟩ }
  | .sar _ d a b m => { rule := .std, d := some ⟨d, m.words, m.words, false, Dst.anyOk⟩, a := some ⟨a, m.words, m.words, (Src.wide m.words)⟩, b := some ⟨b, 1, 1, Src.anyOk⟩ }
  | .rot _ d a b m => { rule := .std, d := some ⟨d, m.words, m.words, false, Dst.anyOk⟩, a := some ⟨a, m.words, m.words, (Src.wide m.words)⟩, b := some ⟨b, 1, 1, Src.anyOk⟩ }
  | .extf _ d a b _ => { rule := .std, d := some ⟨d, 1, 1, false, Dst.anyOk⟩, a := some ⟨a, 1, 1, Src.anyOk⟩, b := some ⟨b, 1, 1, Src.anyOk⟩ }
  | .depf _ d a b => { rule := .std, d := some ⟨d, 1, 1, true, Dst.anyOk⟩, a := some ⟨a, 1, 1, Src.anyOk⟩, b := some ⟨b, 1, 1, Src.anyOk⟩ }
  | .popc _ d a m => { rule := .std, d := some ⟨d, 1, 1, false, Dst.anyOk⟩, a := some ⟨a, m.words, m.words, (Src.wide m.words)⟩ }
  | .clz _ d a m => { rule := .std, d := some ⟨d, 1, 1, false, Dst.anyOk⟩, a := some ⟨a, m.words, m.words, (Src.wide m.words)⟩ }
  | .ctz _ d a m => { rule := .std, d := some ⟨d, 1, 1, false, Dst.anyOk⟩, a := some ⟨a, m.words, m.words, (Src.wide m.words)⟩ }
  | .brev _ d a m => { rule := .std, d := some ⟨d, m.words, m.words, false, Dst.anyOk⟩, a := some ⟨a, m.words, m.words, (Src.wide m.words)⟩ }
  | .addi _ d a _ => { rule := .std, d := some ⟨d, 1, 1, false, Dst.anyOk⟩, a := some ⟨a, 1, 1, Src.anyOk⟩ }
  | .muli _ d a _ => { rule := .std, d := some ⟨d, 1, 1, false, Dst.anyOk⟩, a := some ⟨a, 1, 1, Src.anyOk⟩ }
  | .andi _ d a _ => { rule := .std, d := some ⟨d, 1, 1, false, Dst.anyOk⟩, a := some ⟨a, 1, 1, Src.anyOk⟩ }
  | .ori _ d a _ => { rule := .std, d := some ⟨d, 1, 1, false, Dst.anyOk⟩, a := some ⟨a, 1, 1, Src.anyOk⟩ }
  | .xori _ d a _ => { rule := .std, d := some ⟨d, 1, 1, false, Dst.anyOk⟩, a := some ⟨a, 1, 1, Src.anyOk⟩ }
  | .shli _ d a _ => { rule := .std, d := some ⟨d, 1, 1, false, Dst.anyOk⟩, a := some ⟨a, 1, 1, Src.anyOk⟩ }
  | .shri _ d a _ => { rule := .std, d := some ⟨d, 1, 1, false, Dst.anyOk⟩, a := some ⟨a, 1, 1, Src.anyOk⟩ }
  | .sari _ d a _ => { rule := .std, d := some ⟨d, 1, 1, false, Dst.anyOk⟩, a := some ⟨a, 1, 1, Src.anyOk⟩ }
  | .cmpieq _ d a _ => { rule := .std, d := some ⟨d, 1, 1, false, Dst.anyOk⟩, a := some ⟨a, 1, 1, Src.anyOk⟩ }
  | .cmpilt _ d a _ => { rule := .std, d := some ⟨d, 1, 1, false, Dst.anyOk⟩, a := some ⟨a, 1, 1, Src.anyOk⟩ }
  | .cmpiltn _ d a _ => { rule := .std, d := some ⟨d, 1, 1, false, Dst.anyOk⟩, a := some ⟨a, 1, 1, Src.anyOk⟩ }
  | .mini _ d a _ => { rule := .std, d := some ⟨d, 1, 1, false, Dst.anyOk⟩, a := some ⟨a, 1, 1, Src.anyOk⟩ }
  | .ldk _ d _ => { rule := .std, d := some ⟨d, 1, 1, false, Dst.anyOk⟩ }
  | .ldkh _ d _ => { rule := .std, d := some ⟨d, 1, 1, true, Dst.anyOk⟩ }
  | .mov _ d a m => { rule := .std, d := some ⟨d, m.words, m.words, false, Dst.anyOk⟩, a := some ⟨a, m.words, m.words, (Src.wide m.words)⟩ }
  | .mort _ d a b m => { rule := .std, d := some ⟨d, 1, 1, (m == .d3), Dst.anyOk⟩, a := some ⟨a, 1, 1, Src.anyOk⟩, b := some ⟨b, 1, 1, Src.anyOk⟩ }
  | .seedc a => { rule := .thru, a := some ⟨a, 1, 1, Src.isScalar⟩ }
  | .rdtail _ d => { rule := .thru, d := some ⟨d, 1, 1, false, Dst.anyOk⟩ }
  | .red _ d a _ => { rule := .thru, d := some ⟨d, 1, 1, false, Dst.anyOk⟩, a := some ⟨a, 1, 1, Src.isVec⟩ }
  | .redf _ d a _ => { rule := .thru, d := some ⟨d, 1, 1, false, Dst.anyOk⟩, a := some ⟨a, 1, 1, Src.isVec⟩ }
  | .tshb _ d a b _ => { rule := .thru, d := some ⟨d, 1, 1, false, Dst.notScalar⟩, a := some ⟨a, 1, 1, Src.isVec⟩, b := some ⟨b, 1, 1, Src.isScalar⟩ }
  | .tshf _ d a b _ => { rule := .thru, d := some ⟨d, 1, 1, false, Dst.notScalar⟩, a := some ⟨a, 1, 1, Src.isVec⟩, b := some ⟨b, 1, 1, Src.isScalar⟩ }
  | .tbcst _ d a b => { rule := .thru, d := some ⟨d, 1, 1, false, Dst.notScalar⟩, a := some ⟨a, 1, 1, Src.isVec⟩, b := some ⟨b, 1, 1, Src.isScalar⟩ }
  | .poll _ d a _ => { rule := .thru, d := some ⟨d, 1, 1, false, Dst.anyOk⟩, a := some ⟨a, 1, 1, Src.isVec⟩ }
  | .qswp _ d a _ => { rule := .thru, d := some ⟨d, 1, 1, false, Dst.notScalar⟩, a := some ⟨a, 1, 1, Src.isVec⟩ }
  | .qred _ d a _ => { rule := .thru, d := some ⟨d, 1, 1, false, Dst.notScalar⟩, a := some ⟨a, 1, 1, Src.isVec⟩ }
  | .help _ d => { rule := .thru, d := some ⟨d, 1, 1, false, Dst.notScalar⟩ }
  | .cellh _ d a b _ => { rule := .std, d := some ⟨d, 1, 1, false, Dst.anyOk⟩, a := some ⟨a, 1, 1, Src.anyOk⟩, b := some ⟨b, 1, 1, Src.anyOk⟩ }
  | .tmask _ d _ => { rule := .thru, d := some ⟨d, 1, 1, false, Dst.anyOk⟩ }
  | .tpos _ d a _ => { rule := .thru, d := some ⟨d, 1, 1, false, Dst.notScalar⟩, a := some ⟨a, 1, 1, Src.isVec⟩ }
  | .fadd _ d a b _ => { rule := .std, d := some ⟨d, 1, 1, false, Dst.anyOk⟩, a := some ⟨a, 1, 1, Src.anyOk⟩, b := some ⟨b, 1, 1, Src.anyOk⟩ }
  | .fsub _ d a b _ => { rule := .std, d := some ⟨d, 1, 1, false, Dst.anyOk⟩, a := some ⟨a, 1, 1, Src.anyOk⟩, b := some ⟨b, 1, 1, Src.anyOk⟩ }
  | .fmul _ d a b _ => { rule := .std, d := some ⟨d, 1, 1, false, Dst.anyOk⟩, a := some ⟨a, 1, 1, Src.anyOk⟩, b := some ⟨b, 1, 1, Src.anyOk⟩ }
  | .ffma _ d a b _ => { rule := .std, d := some ⟨d, 1, 1, true, Dst.anyOk⟩, a := some ⟨a, 1, 1, Src.anyOk⟩, b := some ⟨b, 1, 1, Src.anyOk⟩ }
  | .fmin _ d a b => { rule := .std, d := some ⟨d, 1, 1, false, Dst.anyOk⟩, a := some ⟨a, 1, 1, Src.anyOk⟩, b := some ⟨b, 1, 1, Src.anyOk⟩ }
  | .fmax _ d a b => { rule := .std, d := some ⟨d, 1, 1, false, Dst.anyOk⟩, a := some ⟨a, 1, 1, Src.anyOk⟩, b := some ⟨b, 1, 1, Src.anyOk⟩ }
  | .fcmp _ d a b _ => { rule := .std, d := some ⟨d, 1, 1, false, Dst.anyOk⟩, a := some ⟨a, 1, 1, Src.anyOk⟩, b := some ⟨b, 1, 1, Src.anyOk⟩ }
  | .fsgn _ d a b _ => { rule := .std, d := some ⟨d, 1, 1, false, Dst.anyOk⟩, a := some ⟨a, 1, 1, Src.anyOk⟩, b := some ⟨b, 1, 1, Src.anyOk⟩ }
  | .pkadd _ d a b _ => { rule := .std, d := some ⟨d, 1, 1, false, Dst.anyOk⟩, a := some ⟨a, 1, 1, Src.anyOk⟩, b := some ⟨b, 1, 1, Src.anyOk⟩ }
  | .pkmul _ d a b _ => { rule := .std, d := some ⟨d, 1, 1, false, Dst.anyOk⟩, a := some ⟨a, 1, 1, Src.anyOk⟩, b := some ⟨b, 1, 1, Src.anyOk⟩ }
  | .pkfma _ d a b _ => { rule := .std, d := some ⟨d, 1, 1, true, Dst.anyOk⟩, a := some ⟨a, 1, 1, Src.anyOk⟩, b := some ⟨b, 1, 1, Src.anyOk⟩ }
  | .fdiv _ d a b _ => { rule := .std, d := some ⟨d, 1, 1, false, Dst.anyOk⟩, a := some ⟨a, 1, 1, Src.anyOk⟩, b := some ⟨b, 1, 1, Src.anyOk⟩ }
  | .fsqrt _ d a _ => { rule := .std, d := some ⟨d, 1, 1, false, Dst.anyOk⟩, a := some ⟨a, 1, 1, Src.anyOk⟩ }
  | .frnd _ d a _ => { rule := .std, d := some ⟨d, 1, 1, false, Dst.anyOk⟩, a := some ⟨a, 1, 1, Src.anyOk⟩ }
  | .fclass _ d a => { rule := .std, d := some ⟨d, 1, 1, false, Dst.anyOk⟩, a := some ⟨a, 1, 1, Src.anyOk⟩ }
  | .fscl _ d a b _ => { rule := .std, d := some ⟨d, 1, 1, false, Dst.anyOk⟩, a := some ⟨a, 1, 1, Src.anyOk⟩, b := some ⟨b, 1, 1, Src.anyOk⟩ }
  | .frcp _ d a => { rule := .std, d := some ⟨d, 1, 1, false, Dst.anyOk⟩, a := some ⟨a, 1, 1, Src.anyOk⟩ }
  | .frsq _ d a => { rule := .std, d := some ⟨d, 1, 1, false, Dst.anyOk⟩, a := some ⟨a, 1, 1, Src.anyOk⟩ }
  | .fex2 _ d a => { rule := .std, d := some ⟨d, 1, 1, false, Dst.anyOk⟩, a := some ⟨a, 1, 1, Src.anyOk⟩ }
  | .flg2 _ d a => { rule := .std, d := some ⟨d, 1, 1, false, Dst.anyOk⟩, a := some ⟨a, 1, 1, Src.anyOk⟩ }
  | .fsin _ d a => { rule := .std, d := some ⟨d, 1, 1, false, Dst.anyOk⟩, a := some ⟨a, 1, 1, Src.anyOk⟩ }
  | .ftanh _ d a => { rule := .std, d := some ⟨d, 1, 1, false, Dst.anyOk⟩, a := some ⟨a, 1, 1, Src.anyOk⟩ }
  | .dadd _ d a b _ => { rule := .std, d := some ⟨d, 2, 2, false, Dst.anyOk⟩, a := some ⟨a, 2, 2, (Src.wide 2)⟩, b := some ⟨b, 2, 2, (Src.wide 2)⟩ }
  | .dsub _ d a b _ => { rule := .std, d := some ⟨d, 2, 2, false, Dst.anyOk⟩, a := some ⟨a, 2, 2, (Src.wide 2)⟩, b := some ⟨b, 2, 2, (Src.wide 2)⟩ }
  | .dmul _ d a b _ => { rule := .std, d := some ⟨d, 2, 2, false, Dst.anyOk⟩, a := some ⟨a, 2, 2, (Src.wide 2)⟩, b := some ⟨b, 2, 2, (Src.wide 2)⟩ }
  | .dfma _ d a b _ => { rule := .std, d := some ⟨d, 2, 2, true, Dst.anyOk⟩, a := some ⟨a, 2, 2, (Src.wide 2)⟩, b := some ⟨b, 2, 2, (Src.wide 2)⟩ }
  | .ddiv _ d a b _ => { rule := .std, d := some ⟨d, 2, 2, false, Dst.anyOk⟩, a := some ⟨a, 2, 2, (Src.wide 2)⟩, b := some ⟨b, 2, 2, (Src.wide 2)⟩ }
  | .dsqrt _ d a _ => { rule := .std, d := some ⟨d, 2, 2, false, Dst.anyOk⟩, a := some ⟨a, 2, 2, (Src.wide 2)⟩ }
  | .dmin _ d a b _ => { rule := .std, d := some ⟨d, 2, 2, false, Dst.anyOk⟩, a := some ⟨a, 2, 2, (Src.wide 2)⟩, b := some ⟨b, 2, 2, (Src.wide 2)⟩ }
  | .dcmp _ d a b _ => { rule := .std, d := some ⟨d, 1, 1, false, Dst.anyOk⟩, a := some ⟨a, 2, 2, (Src.wide 2)⟩, b := some ⟨b, 2, 2, (Src.wide 2)⟩ }
  | .cvt _ d a _ _ _ _ => { rule := .std, d := some ⟨d, 1, 1, false, Dst.anyOk⟩, a := some ⟨a, 1, 1, Src.anyOk⟩ }
  | .cvtz _ d a _ _ _ => { rule := .std, d := some ⟨d, 1, 1, false, Dst.anyOk⟩, a := some ⟨a, 1, 1, Src.anyOk⟩ }
  | .cvtu _ d a _ _ _ => { rule := .std, d := some ⟨d, 1, 1, false, Dst.anyOk⟩, a := some ⟨a, 1, 1, Src.anyOk⟩ }
  | .cvtd _ d a _ _ j f => { rule := .std, d := some ⟨d, j.words, j.words, false, Dst.anyOk⟩, a := some ⟨a, f.words, f.words, (Src.wide f.words)⟩ }
  | .pack _ d a b _ => { rule := .std, d := some ⟨d, 1, 1, false, Dst.anyOk⟩, a := some ⟨a, 1, 1, Src.anyOk⟩, b := some ⟨b, 1, 1, Src.anyOk⟩ }
  | .unpk _ d a _ => { rule := .std, d := some ⟨d, 1, 1, false, Dst.anyOk⟩, a := some ⟨a, 1, 1, Src.anyOk⟩ }
  | .pk8 _ d a b _ => { rule := .std, d := some ⟨d, 1, 1, true, Dst.anyOk⟩, a := some ⟨a, 1, 1, Src.anyOk⟩, b := some ⟨b, 1, 1, Src.anyOk⟩ }
  | .upk8 _ d a b _ => { rule := .std, d := some ⟨d, 1, 1, false, Dst.anyOk⟩, a := some ⟨a, 1, 1, Src.anyOk⟩, b := some ⟨b, 1, 1, Src.anyOk⟩ }
  | .ldb d a _ => { rule := .std, d := some ⟨d, 1, 1, false, Dst.anyOk⟩, a := some ⟨a, 2, 2, (Src.wide 2)⟩ }
  | .ldbs d a _ => { rule := .std, d := some ⟨d, 1, 1, false, Dst.anyOk⟩, a := some ⟨a, 2, 2, (Src.wide 2)⟩ }
  | .ldh d a _ => { rule := .std, d := some ⟨d, 1, 1, false, Dst.anyOk⟩, a := some ⟨a, 2, 2, (Src.wide 2)⟩ }
  | .ldhs d a _ => { rule := .std, d := some ⟨d, 1, 1, false, Dst.anyOk⟩, a := some ⟨a, 2, 2, (Src.wide 2)⟩ }
  | .ldw d a _ => { rule := .std, d := some ⟨d, 1, 1, false, Dst.anyOk⟩, a := some ⟨a, 2, 2, (Src.wide 2)⟩ }
  | .ldd d a _ => { rule := .std, d := some ⟨d, 2, 2, false, Dst.anyOk⟩, a := some ⟨a, 2, 2, (Src.wide 2)⟩ }
  | .ldq d a _ => { rule := .std, d := some ⟨d, 4, 4, false, Dst.anyOk⟩, a := some ⟨a, 2, 2, (Src.wide 2)⟩ }
  | .stb e a _ => { rule := .std, e := some ⟨e, 1, 1, Src.anyOk⟩, a := some ⟨a, 2, 2, (Src.wide 2)⟩ }
  | .sth e a _ => { rule := .std, e := some ⟨e, 1, 1, Src.anyOk⟩, a := some ⟨a, 2, 2, (Src.wide 2)⟩ }
  | .stw e a _ => { rule := .std, e := some ⟨e, 1, 1, Src.anyOk⟩, a := some ⟨a, 2, 2, (Src.wide 2)⟩ }
  | .std e a _ => { rule := .std, e := some ⟨e, 2, 2, (Src.wide 2)⟩, a := some ⟨a, 2, 2, (Src.wide 2)⟩ }
  | .stq e a _ => { rule := .std, e := some ⟨e, 4, 4, (Src.wide 4)⟩, a := some ⟨a, 2, 2, (Src.wide 2)⟩ }
  | .ldx d a b m => { rule := .std, d := some ⟨d, m.words, m.words, false, Dst.anyOk⟩, a := some ⟨a, 2, 2, (Src.wide 2)⟩, b := some ⟨b, 1, 1, Src.anyOk⟩ }
  | .stx e a b m => { rule := .std, e := some ⟨e, m.words, m.words, (Src.wide m.words)⟩, a := some ⟨a, 2, 2, (Src.wide 2)⟩, b := some ⟨b, 1, 1, Src.anyOk⟩ }
  | .ldu d a _ => { rule := .std, d := some ⟨d, 1, 1, false, Dst.anyOk⟩, a := some ⟨a, 2, 2, (Src.wide 2)⟩ }
  | .pref a b => { rule := .std, a := some ⟨a, 2, 2, (Src.wide 2)⟩, b := some ⟨b, 1, 1, Src.anyOk⟩ }
  | .lds d a _ => { rule := .std, d := some ⟨d, 1, 1, false, Dst.anyOk⟩, a := some ⟨a, 1, 1, Src.anyOk⟩ }
  | .sts e a _ => { rule := .std, e := some ⟨e, 1, 1, Src.anyOk⟩, a := some ⟨a, 1, 1, Src.anyOk⟩ }
  | .ldsx d a b m => { rule := .std, d := some ⟨d, m.words, m.words, false, Dst.anyOk⟩, a := some ⟨a, 1, 1, Src.anyOk⟩, b := some ⟨b, 1, 1, Src.anyOk⟩ }
  | .stsx e a b m => { rule := .std, e := some ⟨e, m.words, m.words, (Src.wide m.words)⟩, a := some ⟨a, 1, 1, Src.anyOk⟩, b := some ⟨b, 1, 1, Src.anyOk⟩ }
  | .ldl d a _ => { rule := .std, d := some ⟨d, 1, 1, false, Dst.anyOk⟩, a := some ⟨a, 1, 1, Src.anyOk⟩ }
  | .stl e a _ => { rule := .std, e := some ⟨e, 1, 1, Src.anyOk⟩, a := some ⟨a, 1, 1, Src.anyOk⟩ }
  | .ldlb d a b m => { rule := .std, d := some ⟨d, m.words, m.words, false, Dst.anyOk⟩, a := some ⟨a, 1, 1, Src.anyOk⟩, b := some ⟨b, 1, 1, Src.anyOk⟩ }
  | .stlb e a b m => { rule := .std, e := some ⟨e, m.words, m.words, (Src.wide m.words)⟩, a := some ⟨a, 1, 1, Src.anyOk⟩, b := some ⟨b, 1, 1, Src.anyOk⟩ }
  | .ldhw d a b m => { rule := .std, d := some ⟨d, m.words, m.words, false, Dst.anyOk⟩, a := some ⟨a, 1, 1, Src.anyOk⟩, b := some ⟨b, 1, 1, Src.anyOk⟩ }
  | .sthw e a b m => { rule := .std, e := some ⟨e, m.words, m.words, (Src.wide m.words)⟩, a := some ⟨a, 1, 1, Src.anyOk⟩, b := some ⟨b, 1, 1, Src.anyOk⟩ }
  | .alloc a b _ => { rule := .uni, a := some ⟨a, 1, 1, Src.isScalar⟩, b := some ⟨b, 2, 2, Src.wideScalar⟩ }
  | .free a b _ => { rule := .uni, a := some ⟨a, 1, 1, Src.isScalar⟩, b := some ⟨b, 2, 2, Src.wideScalar⟩ }
  | .life a b _ => { rule := .uni, a := some ⟨a, 1, 1, Src.isScalar⟩, b := some ⟨b, 2, 2, Src.wideScalar⟩ }
  | .expq d a _ => { rule := .std, d := some ⟨d, 1, 1, false, Dst.anyOk⟩, a := some ⟨a, 1, 1, Src.anyOk⟩ }
  | .aadd d a b m => { rule := .std, d := some ⟨d, m.words, m.words, false, Dst.anyOk⟩, a := some ⟨a, 2, 2, (Src.wide 2)⟩, b := some ⟨b, m.words, m.words, (Src.wide m.words)⟩ }
  | .amin d a b m => { rule := .std, d := some ⟨d, m.words, m.words, false, Dst.anyOk⟩, a := some ⟨a, 2, 2, (Src.wide 2)⟩, b := some ⟨b, m.words, m.words, (Src.wide m.words)⟩ }
  | .aminn d a b m => { rule := .std, d := some ⟨d, m.words, m.words, false, Dst.anyOk⟩, a := some ⟨a, 2, 2, (Src.wide 2)⟩, b := some ⟨b, m.words, m.words, (Src.wide m.words)⟩ }
  | .amax d a b m => { rule := .std, d := some ⟨d, m.words, m.words, false, Dst.anyOk⟩, a := some ⟨a, 2, 2, (Src.wide 2)⟩, b := some ⟨b, m.words, m.words, (Src.wide m.words)⟩ }
  | .amaxn d a b m => { rule := .std, d := some ⟨d, m.words, m.words, false, Dst.anyOk⟩, a := some ⟨a, 2, 2, (Src.wide 2)⟩, b := some ⟨b, m.words, m.words, (Src.wide m.words)⟩ }
  | .aand d a b m => { rule := .std, d := some ⟨d, m.words, m.words, false, Dst.anyOk⟩, a := some ⟨a, 2, 2, (Src.wide 2)⟩, b := some ⟨b, m.words, m.words, (Src.wide m.words)⟩ }
  | .aor d a b m => { rule := .std, d := some ⟨d, m.words, m.words, false, Dst.anyOk⟩, a := some ⟨a, 2, 2, (Src.wide 2)⟩, b := some ⟨b, m.words, m.words, (Src.wide m.words)⟩ }
  | .axor d a b m => { rule := .std, d := some ⟨d, m.words, m.words, false, Dst.anyOk⟩, a := some ⟨a, 2, 2, (Src.wide 2)⟩, b := some ⟨b, m.words, m.words, (Src.wide m.words)⟩ }
  | .axch d a b m => { rule := .std, d := some ⟨d, m.words, m.words, false, Dst.anyOk⟩, a := some ⟨a, 2, 2, (Src.wide 2)⟩, b := some ⟨b, m.words, m.words, (Src.wide m.words)⟩ }
  | .acas d a b m => { rule := .std, d := some ⟨d, m.words, m.words, true, Dst.anyOk⟩, a := some ⟨a, 2, 2, (Src.wide 2)⟩, b := some ⟨b, m.words, m.words, (Src.wide m.words)⟩ }
  | .afadd d a b _ => { rule := .std, d := some ⟨d, 1, 1, false, Dst.anyOk⟩, a := some ⟨a, 2, 2, (Src.wide 2)⟩, b := some ⟨b, 1, 1, Src.anyOk⟩ }
  | .afmin d a b _ => { rule := .std, d := some ⟨d, 1, 1, false, Dst.anyOk⟩, a := some ⟨a, 2, 2, (Src.wide 2)⟩, b := some ⟨b, 1, 1, Src.anyOk⟩ }
  | .ainc d a b _ => { rule := .std, d := some ⟨d, 1, 1, false, Dst.anyOk⟩, a := some ⟨a, 2, 2, (Src.wide 2)⟩, b := some ⟨b, 1, 1, Src.anyOk⟩ }
  | .asadd d a b _ => { rule := .std, d := some ⟨d, 1, 1, false, Dst.anyOk⟩, a := some ⟨a, 1, 1, Src.anyOk⟩, b := some ⟨b, 1, 1, Src.anyOk⟩ }
  | .asmin d a b _ => { rule := .std, d := some ⟨d, 1, 1, false, Dst.anyOk⟩, a := some ⟨a, 1, 1, Src.anyOk⟩, b := some ⟨b, 1, 1, Src.anyOk⟩ }
  | .ascas d a b m => { rule := .std, d := some ⟨d, m.words, m.words, true, Dst.anyOk⟩, a := some ⟨a, 1, 1, Src.anyOk⟩, b := some ⟨b, m.words, m.words, (Src.wide m.words)⟩ }
  | .pub _ => { rule := .uni }
  | .acq _ => { rule := .uni }
  | .fence => { rule := .uni }
  | .bar _ _ => { rule := .uni }
  | .bara _ _ => { rule := .uni }
  | .barw _ _ => { rule := .uni }
  | .phase _ => { rule := .uni }
  | .wait _ _ => { rule := .uni }
  | .mma d a b _ => { rule := .uni, d := some ⟨d, 1, 1, false, Dst.notVector⟩, a := some ⟨a, 2, 2, Src.isSReg⟩, b := some ⟨b, 2, 2, Src.isSReg⟩ }
  | .mmas d a b _ => { rule := .uni, d := some ⟨d, 1, 1, false, Dst.notVector⟩, a := some ⟨a, 2, 2, Src.isSReg⟩, b := some ⟨b, 4, 4, Src.isSReg⟩ }
  | .mmaf d a b _ => { rule := .uni, d := some ⟨d, 1, 1, false, Dst.notVector⟩, a := some ⟨a, 2, 2, Src.isSReg⟩, b := some ⟨b, 2, 2, Src.isSReg⟩ }
  | .gang a b => { rule := .uni, a := some ⟨a, 2, 2, Src.isSReg⟩, b := some ⟨b, 1, 2, Src.isSReg⟩ }
  | .gath d a => { rule := .uni, d := some ⟨d, 1, 1, false, Dst.notVector⟩, a := some ⟨a, 5, 2, Src.isSReg⟩ }
  | .cpy d a => { rule := .uni, d := some ⟨d, 1, 1, false, Dst.notVector⟩, a := some ⟨a, 6, 2, Src.isSReg⟩ }
  | .cpyt d a => { rule := .uni, d := some ⟨d, 1, 1, false, Dst.notVector⟩, a := some ⟨a, 8, 2, Src.isSReg⟩ }
  | .coll d a _ => { rule := .uni, d := some ⟨d, 1, 1, false, Dst.notVector⟩, a := some ⟨a, 6, 2, Src.isSReg⟩ }
  | .accz => { rule := .uni }
  | .mmaq d => { rule := .uni, d := some ⟨d, 1, 1, false, Dst.anyOk⟩ }
  | .qput a b => { rule := .path, a := some ⟨a, 1, 1, Src.isSRegZ⟩, b := some ⟨b, 16, 16, Src.isReg⟩ }
  | .qtakeQ d a => { rule := .each, d := some ⟨d, 16, 16, false, Dst.isVReg⟩, a := some ⟨a, 1, 1, Src.isSRegZ⟩ }
  | .qtakeStage d => { rule := .each, d := some ⟨d, 16, 16, false, Dst.isVReg⟩ }
  | .qmput e a b => { rule := .path, e := some ⟨e, 1, 1, Src.anyOk⟩, a := some ⟨a, 1, 1, Src.isSRegZ⟩, b := some ⟨b, 16, 16, Src.isReg⟩ }
  | .qrel a => { rule := .each, a := some ⟨a, 1, 1, Src.isSRegZ⟩ }
  | .spawn a => { rule := .std, a := some ⟨a, 2, 2, (Src.wide 2)⟩ }
  | .join a _ => { rule := .std, a := some ⟨a, 2, 2, (Src.wide 2)⟩ }
  | .qstat d a _ => { rule := .uni, d := some ⟨d, 1, 1, false, Dst.anyOk⟩, a := some ⟨a, 1, 1, Src.isSRegZ⟩ }
  | .yieldI => { rule := .uni }
  | .trap a => { rule := .uni, a := some ⟨a, 1, 1, Src.isScalar⟩ }
  | .trapRet => { rule := .uni }
  | .trapNext => { rule := .uni }
  | .live _ => { rule := .uni }
  | .region _ => { rule := .uni }
  | .assay d _ => { rule := .uni, d := some ⟨d, 1, 1, false, Dst.anyOk⟩ }
  | .rdsr _ d _ => { rule := .uni, d := some ⟨d, 1, 1, false, Dst.anyOk⟩ }
  | .wrsr e _ => { rule := .uni, e := some ⟨e, 1, 1, Src.isScalar⟩ }
  | .bkpt _ => { rule := .uni }
  | .dbgm a _ => { rule := .uni, a := some ⟨a, 1, 1, Src.isScalar⟩ }
  | .watch a b _ => { rule := .uni, a := some ⟨a, 2, 2, Src.wideScalar⟩, b := some ⟨b, 1, 1, Src.isScalar⟩ }
  | .sleep a => { rule := .uni, a := some ⟨a, 1, 1, Src.isScalar⟩ }
  | .clas _ => { rule := .uni }
  | _ => {}

/-- The major opcode (R268); 256 for an event, and the word's own for a reserved encoding. -/
def opcode : Instr → Nat
  | .nop => 0x00
  | .bra _ => 0x01
  | .call _ _ _ _ => 0x02
  | .ret _ => 0x03
  | .jmpr _ _ => 0x04
  | .brz _ _ _ => 0x05
  | .brnz _ _ _ => 0x06
  | .brlt _ _ _ => 0x07
  | .brge _ _ _ => 0x08
  | .meet _ => 0x09
  | .repack _ _ => 0x0A
  | .loop _ _ => 0x0B
  | .exit => 0x0C
  | .winb _ _ => 0x0D
  | .add _ _ _ _ _ => 0x10
  | .sub _ _ _ _ _ => 0x11
  | .mul _ _ _ _ _ => 0x12
  | .mad _ _ _ _ _ => 0x13
  | .div _ _ _ _ _ => 0x14
  | .rem _ _ _ _ _ => 0x15
  | .min _ _ _ _ _ => 0x16
  | .max _ _ _ _ _ => 0x17
  | .abs _ _ _ _ => 0x18
  | .neg _ _ _ _ => 0x19
  | .cmp _ _ _ _ _ => 0x1A
  | .cmpe _ _ _ _ _ => 0x1B
  | .sel _ _ _ _ _ => 0x1C
  | .lea _ _ _ _ _ => 0x1D
  | .mulw _ _ _ _ _ => 0x1E
  | .clamp _ _ _ _ _ => 0x1F
  | .and _ _ _ _ _ => 0x20
  | .or _ _ _ _ _ => 0x21
  | .xor _ _ _ _ _ => 0x22
  | .andn _ _ _ _ _ => 0x23
  | .orn _ _ _ _ _ => 0x24
  | .xnor _ _ _ _ _ => 0x25
  | .shl _ _ _ _ _ => 0x26
  | .shr _ _ _ _ _ => 0x27
  | .sar _ _ _ _ _ => 0x28
  | .rot _ _ _ _ _ => 0x29
  | .extf _ _ _ _ _ => 0x2A
  | .depf _ _ _ _ => 0x2B
  | .popc _ _ _ _ => 0x2C
  | .clz _ _ _ _ => 0x2D
  | .ctz _ _ _ _ => 0x2E
  | .brev _ _ _ _ => 0x2F
  | .addi _ _ _ _ => 0x30
  | .muli _ _ _ _ => 0x31
  | .andi _ _ _ _ => 0x32
  | .ori _ _ _ _ => 0x33
  | .xori _ _ _ _ => 0x34
  | .shli _ _ _ _ => 0x35
  | .shri _ _ _ _ => 0x36
  | .sari _ _ _ _ => 0x37
  | .cmpieq _ _ _ _ => 0x38
  | .cmpilt _ _ _ _ => 0x39
  | .cmpiltn _ _ _ _ => 0x3A
  | .mini _ _ _ _ => 0x3B
  | .ldk _ _ _ => 0x3C
  | .ldkh _ _ _ => 0x3D
  | .mov _ _ _ _ => 0x3E
  | .mort _ _ _ _ _ => 0x3F
  | .seedc _ => 0x40
  | .rdtail _ _ => 0x41
  | .red _ _ _ _ => 0x42
  | .redf _ _ _ _ => 0x43
  | .tshb _ _ _ _ _ => 0x44
  | .tshf _ _ _ _ _ => 0x45
  | .tbcst _ _ _ _ => 0x46
  | .poll _ _ _ _ => 0x47
  | .qswp _ _ _ _ => 0x48
  | .qred _ _ _ _ => 0x49
  | .help _ _ => 0x4A
  | .cellh _ _ _ _ _ => 0x4B
  | .tmask _ _ _ => 0x4C
  | .tpos _ _ _ _ => 0x4D
  | .fadd _ _ _ _ _ => 0x50
  | .fsub _ _ _ _ _ => 0x51
  | .fmul _ _ _ _ _ => 0x52
  | .ffma _ _ _ _ _ => 0x53
  | .fmin _ _ _ _ => 0x54
  | .fmax _ _ _ _ => 0x55
  | .fcmp _ _ _ _ _ => 0x56
  | .fsgn _ _ _ _ _ => 0x57
  | .pkadd _ _ _ _ _ => 0x58
  | .pkmul _ _ _ _ _ => 0x59
  | .pkfma _ _ _ _ _ => 0x5A
  | .fdiv _ _ _ _ _ => 0x5B
  | .fsqrt _ _ _ _ => 0x5C
  | .frnd _ _ _ _ => 0x5D
  | .fclass _ _ _ => 0x5E
  | .fscl _ _ _ _ _ => 0x5F
  | .frcp _ _ _ => 0x60
  | .frsq _ _ _ => 0x61
  | .fex2 _ _ _ => 0x62
  | .flg2 _ _ _ => 0x63
  | .fsin _ _ _ => 0x64
  | .ftanh _ _ _ => 0x65
  | .dadd _ _ _ _ _ => 0x66
  | .dsub _ _ _ _ _ => 0x67
  | .dmul _ _ _ _ _ => 0x68
  | .dfma _ _ _ _ _ => 0x69
  | .ddiv _ _ _ _ _ => 0x6A
  | .dsqrt _ _ _ _ => 0x6B
  | .dmin _ _ _ _ _ => 0x6C
  | .dcmp _ _ _ _ _ => 0x6D
  | .cvt _ _ _ _ _ _ _ => 0x70
  | .cvtz _ _ _ _ _ _ => 0x71
  | .cvtu _ _ _ _ _ _ => 0x72
  | .cvtd _ _ _ _ _ _ _ => 0x73
  | .pack _ _ _ _ _ => 0x74
  | .unpk _ _ _ _ => 0x75
  | .pk8 _ _ _ _ _ => 0x76
  | .upk8 _ _ _ _ _ => 0x77
  | .ldb _ _ _ => 0x80
  | .ldbs _ _ _ => 0x81
  | .ldh _ _ _ => 0x82
  | .ldhs _ _ _ => 0x83
  | .ldw _ _ _ => 0x84
  | .ldd _ _ _ => 0x85
  | .ldq _ _ _ => 0x86
  | .stb _ _ _ => 0x87
  | .sth _ _ _ => 0x88
  | .stw _ _ _ => 0x89
  | .std _ _ _ => 0x8A
  | .stq _ _ _ => 0x8B
  | .ldx _ _ _ _ => 0x8C
  | .stx _ _ _ _ => 0x8D
  | .ldu _ _ _ => 0x8E
  | .pref _ _ => 0x8F
  | .lds _ _ _ => 0x90
  | .sts _ _ _ => 0x91
  | .ldsx _ _ _ _ => 0x92
  | .stsx _ _ _ _ => 0x93
  | .ldl _ _ _ => 0x94
  | .stl _ _ _ => 0x95
  | .ldlb _ _ _ _ => 0x96
  | .stlb _ _ _ _ => 0x97
  | .ldhw _ _ _ _ => 0x98
  | .sthw _ _ _ _ => 0x99
  | .alloc _ _ _ => 0x9A
  | .free _ _ _ => 0x9B
  | .life _ _ _ => 0x9C
  | .expq _ _ _ => 0x9D
  | .aadd _ _ _ _ => 0xA0
  | .amin _ _ _ _ => 0xA1
  | .aminn _ _ _ _ => 0xA2
  | .amax _ _ _ _ => 0xA3
  | .amaxn _ _ _ _ => 0xA4
  | .aand _ _ _ _ => 0xA5
  | .aor _ _ _ _ => 0xA6
  | .axor _ _ _ _ => 0xA7
  | .axch _ _ _ _ => 0xA8
  | .acas _ _ _ _ => 0xA9
  | .afadd _ _ _ _ => 0xAA
  | .afmin _ _ _ _ => 0xAB
  | .ainc _ _ _ _ => 0xAC
  | .asadd _ _ _ _ => 0xAD
  | .asmin _ _ _ _ => 0xAE
  | .ascas _ _ _ _ => 0xAF
  | .pub _ => 0xB0
  | .acq _ => 0xB1
  | .fence => 0xB2
  | .bar _ _ => 0xB3
  | .bara _ _ => 0xB4
  | .barw _ _ => 0xB5
  | .phase _ => 0xB6
  | .wait _ _ => 0xB7
  | .mma _ _ _ _ => 0xC0
  | .mmas _ _ _ _ => 0xC1
  | .mmaf _ _ _ _ => 0xC2
  | .gang _ _ => 0xC3
  | .gath _ _ => 0xC4
  | .cpy _ _ => 0xC5
  | .cpyt _ _ => 0xC6
  | .coll _ _ _ => 0xC7
  | .accz => 0xC8
  | .mmaq _ => 0xC9
  | .qput _ _ => 0xD0
  | .qtakeQ _ _ => 0xD1
  | .qtakeStage _ => 0xD1
  | .qmput _ _ _ => 0xD2
  | .qrel _ => 0xD3
  | .spawn _ => 0xD4
  | .join _ _ => 0xD5
  | .qstat _ _ _ => 0xD6
  | .yieldI => 0xD7
  | .trap _ => 0xE0
  | .trapRet => 0xE0
  | .trapNext => 0xE0
  | .live _ => 0xE1
  | .region _ => 0xE2
  | .assay _ _ => 0xE3
  | .rdsr _ _ _ => 0xE4
  | .wrsr _ _ => 0xE5
  | .bkpt _ => 0xE6
  | .dbgm _ _ => 0xE7
  | .watch _ _ _ => 0xE8
  | .sleep _ => 0xE9
  | .clas _ => 0xEA
  | .reservedEncoding w => w.toNat / 2 ^ 24
  | _ => 256

/-- R259: the N bit of an instruction. -/
def Instr.noWrite : Instr → Bool
  | .call n _ _ _ => n
  | .add n _ _ _ _ => n
  | .sub n _ _ _ _ => n
  | .mul n _ _ _ _ => n
  | .mad n _ _ _ _ => n
  | .div n _ _ _ _ => n
  | .rem n _ _ _ _ => n
  | .min n _ _ _ _ => n
  | .max n _ _ _ _ => n
  | .abs n _ _ _ => n
  | .neg n _ _ _ => n
  | .cmp n _ _ _ _ => n
  | .cmpe n _ _ _ _ => n
  | .sel n _ _ _ _ => n
  | .lea n _ _ _ _ => n
  | .mulw n _ _ _ _ => n
  | .clamp n _ _ _ _ => n
  | .and n _ _ _ _ => n
  | .or n _ _ _ _ => n
  | .xor n _ _ _ _ => n
  | .andn n _ _ _ _ => n
  | .orn n _ _ _ _ => n
  | .xnor n _ _ _ _ => n
  | .shl n _ _ _ _ => n
  | .shr n _ _ _ _ => n
  | .sar n _ _ _ _ => n
  | .rot n _ _ _ _ => n
  | .extf n _ _ _ _ => n
  | .depf n _ _ _ => n
  | .popc n _ _ _ => n
  | .clz n _ _ _ => n
  | .ctz n _ _ _ => n
  | .brev n _ _ _ => n
  | .addi n _ _ _ => n
  | .muli n _ _ _ => n
  | .andi n _ _ _ => n
  | .ori n _ _ _ => n
  | .xori n _ _ _ => n
  | .shli n _ _ _ => n
  | .shri n _ _ _ => n
  | .sari n _ _ _ => n
  | .cmpieq n _ _ _ => n
  | .cmpilt n _ _ _ => n
  | .cmpiltn n _ _ _ => n
  | .mini n _ _ _ => n
  | .ldk n _ _ => n
  | .ldkh n _ _ => n
  | .mov n _ _ _ => n
  | .mort n _ _ _ _ => n
  | .rdtail n _ => n
  | .red n _ _ _ => n
  | .redf n _ _ _ => n
  | .tshb n _ _ _ _ => n
  | .tshf n _ _ _ _ => n
  | .tbcst n _ _ _ => n
  | .poll n _ _ _ => n
  | .qswp n _ _ _ => n
  | .qred n _ _ _ => n
  | .help n _ => n
  | .cellh n _ _ _ _ => n
  | .tmask n _ _ => n
  | .tpos n _ _ _ => n
  | .fadd n _ _ _ _ => n
  | .fsub n _ _ _ _ => n
  | .fmul n _ _ _ _ => n
  | .ffma n _ _ _ _ => n
  | .fmin n _ _ _ => n
  | .fmax n _ _ _ => n
  | .fcmp n _ _ _ _ => n
  | .fsgn n _ _ _ _ => n
  | .pkadd n _ _ _ _ => n
  | .pkmul n _ _ _ _ => n
  | .pkfma n _ _ _ _ => n
  | .fdiv n _ _ _ _ => n
  | .fsqrt n _ _ _ => n
  | .frnd n _ _ _ => n
  | .fclass n _ _ => n
  | .fscl n _ _ _ _ => n
  | .frcp n _ _ => n
  | .frsq n _ _ => n
  | .fex2 n _ _ => n
  | .flg2 n _ _ => n
  | .fsin n _ _ => n
  | .ftanh n _ _ => n
  | .dadd n _ _ _ _ => n
  | .dsub n _ _ _ _ => n
  | .dmul n _ _ _ _ => n
  | .dfma n _ _ _ _ => n
  | .ddiv n _ _ _ _ => n
  | .dsqrt n _ _ _ => n
  | .dmin n _ _ _ _ => n
  | .dcmp n _ _ _ _ => n
  | .cvt n _ _ _ _ _ _ => n
  | .cvtz n _ _ _ _ _ => n
  | .cvtu n _ _ _ _ _ => n
  | .cvtd n _ _ _ _ _ _ => n
  | .pack n _ _ _ _ => n
  | .unpk n _ _ _ => n
  | .pk8 n _ _ _ _ => n
  | .upk8 n _ _ _ _ => n
  | .rdsr n _ _ => n
  | _ => false

/-- R268: the assigned opcode values. -/
def opAssigned (k : Nat) : Bool :=
  k % 16 < (match k / 16 with
    | 0 => 14 | 1 => 16 | 2 => 16 | 3 => 16 | 4 => 14 | 5 => 16 | 6 => 14 | 7 => 8 | 8 => 16 | 9 => 14 | 10 => 16
    | 11 => 8 | 12 => 10 | 13 => 8 | 14 => 11 | _ => 0)

/-- R262: switch-capable opcodes. -/
def opSwitch (k : Nat) : Bool :=
  opAssigned k && (k == 0x0A || k == 0x0C || (0x80 ≤ k && k ≤ 0xEA && k != 0xE4 && k != 0xE5 && k != 0xEA))

/-- R261, R271 to R286: the timing class of an opcode; a reserved opcode has class Q. -/
def opClass (k : Nat) : TClass :=
  if !opAssigned k then .q
  else match k / 16 with
    | 1 => if k == 0x12 || k == 0x13 || k == 0x1E then .n else if k == 0x14 || k == 0x15 then .s else .q
    | 3 => if k == 0x31 then .n else .q
    | 4 => if k == 0x43 || k == 0x49 || k == 0x4B then .n else .q
    | 5 => if k == 0x5B || k == 0x5C then .s else .n
    | 6 => if k == 0x6A || k == 0x6B then .l else .s
    | 7 => .n | 8 => .n | 9 => .n | 10 => .n | 11 => .n | 12 => .n | 13 => .n
    | _ => .q

/-- Registers D counts among the sources of the class decision (R301), with the read-only D field. -/
def Shape.regSources (x : Shape) : List Src :=
  (match x.a with | some f => [f.src] | none => []) ++ (match x.b with | some f => [f.src] | none => []) ++
  (match x.e with | some f => [f.src] | none => []) ++
  (match x.d with
    | some f => if f.reads then (match f.dst with | .v i => [.v i] | .s i => [.s i] | .discard => [.z]) else []
    | none => [])

/-- True where a source is per-thread (R170). -/
def Shape.anyThread (x : Shape) : Bool := x.regSources.any Src.perThread

/-- True where the D field names a scalar register. -/
def Shape.dScalar (x : Shape) : Bool := match x.d with | some f => (match f.dst with | .s _ => true | _ => false) | none => false

/-- True where the D field names a vector register. -/
def Shape.dVector (x : Shape) : Bool := match x.d with | some f => (match f.dst with | .v _ => true | _ => false) | none => false

/-- Every field holds a class its description allows. -/
def Shape.fieldsOk (x : Shape) : Bool :=
  (match x.a with | some f => f.need f.src | none => true) && (match x.b with | some f => f.need f.src | none => true) &&
  (match x.e with | some f => f.need f.src | none => true) && (match x.d with | some f => f.need f.dst | none => true)

/-- R258: a wide destination names a register or discard, which `Dst` grants; R170: no scalar destination with a
per-thread source. -/
def Shape.classOk (x : Shape) : Bool :=
  match x.rule with | .std => !(x.dScalar && x.anyThread) | _ => true

/-- R172: `prv` is legal only in an instruction with a register result that is not switch-capable (R338 refuses it in
block 0x4_ as well). -/
def Shape.prvOk (x : Shape) (op : Nat) : Bool :=
  !(x.regSources.contains .prv) || (x.d.isSome && !opSwitch op && op / 16 != 4)

/-- How often an instruction executes: once per path (uniform or broadcast), once per active thread, or as a whole path. -/
inductive XClass where
  | uniform | perThread | whole
  deriving DecidableEq, Repr

/-- R170, R338, R340, R367, R381 to R383, R387. -/
def Instr.xclass (i : Instr) : XClass :=
  match (shape i).rule with
  | .std => if (shape i).anyThread then .perThread else .uniform
  | .uni => .uniform
  | .path => .whole
  | .each => .perThread
  | .thru =>
    match opcode i with
    | 0x40 => .uniform | 0x41 => .uniform | 0x4C => .uniform | _ => .whole

/-- A row of the opcode table that is an instruction word. -/
def Instr.isWord (i : Instr) : Bool := opcode i < 256

end Sys2Proof
end

