-- ==== Sys2Proof/Decode.lean ====
section
/-! DEFINITION. The decoder of the 200 instruction words (R253 to R264, R268 to R286), total on every word and rejecting by
name, and after it the encoder written from the same tables. -/

namespace Sys2Proof

/-- Why a word is no instruction (R264). -/
inductive Reject where
  | reservedOpcode | unusedField | badSource | badDest | reservedM | badN | badH | reservedField
  deriving DecidableEq, Repr

/-- Bits [lo+len-1:lo] of a word given as a number. -/
def fld (w lo len : Nat) : Nat := w / 2 ^ lo % 2 ^ len

/-- R256: source codes. -/
def decSrc (c : Nat) : Except Reject Src :=
  if h : c < 80 then .ok (.v ⟨c, h⟩)
  else if h2 : c < 112 then .ok (.s ⟨c - 80, by omega⟩)
  else if c = 112 then .ok .z else if c = 113 then .ok .tix else if c = 114 then .ok .prv
  else if c = 115 then .ok .gix else if c = 116 then .ok .bix else if c = 117 then .ok .phx
  else if h3 : 120 ≤ c ∧ c < 128 then .ok (.b ⟨c - 120, by omega⟩)
  else .error .badSource

/-- R257: destination codes. -/
def decDst (c : Nat) : Except Reject Dst :=
  if h : c < 80 then .ok (.v ⟨c, h⟩)
  else if h2 : c < 112 then .ok (.s ⟨c - 80, by omega⟩)
  else if c = 112 then .ok .discard
  else .error .badDest

/-- R271: LOOP's A names a register. -/
def decReg (c : Nat) : Except Reject Src :=
  if c < 112 then decSrc c else .error .badSource

/-- R254: an unused operand field holds 112. -/
def unusedOp (c : Nat) : Except Reject Unit := if c = 112 then .ok () else .error .unusedField

/-- R254: any other unused field holds zero. -/
def unusedZ (x : Nat) : Except Reject Unit := if x = 0 then .ok () else .error .unusedField

/-- R260: M values the opcode map marks reserved. -/
def needM (x : Nat) (k : Nat) : Except Reject Unit := if x < k then .ok () else .error .reservedM

/-- R259: N where it may be 1, and where it must be 0. -/
def nBit (w : Nat) : Bool := fld w 23 1 == 1
def nZero (w : Nat) : Except Reject Unit := if fld w 23 1 = 0 then .ok () else .error .badN

/-- R254: H where it has no meaning. -/
def hZero (w : Nat) : Except Reject Unit := if fld w 23 1 = 0 then .ok () else .error .badH

/-- A condition on a field that the instruction defines. -/
def needF (b : Bool) : Except Reject Unit := if b then .ok () else .error .reservedField

/-- R271. -/
def decTgt (x : Nat) : Except Reject Tgt :=
  match x with
  | 0 => .ok .abs | 1 => .ok .rel | _ => .error .reservedM

def encTgt : Tgt → Nat
  | .abs => 0 | .rel => 1

/-- R270 RND. -/
def decRnd (x : Nat) : Except Reject Rnd :=
  match x with
  | 0 => .ok .rn | 1 => .ok .rz | 2 => .ok .ru | 3 => .ok .rd | _ => .error .reservedM

def encRnd : Rnd → Nat
  | .rn => 0 | .rz => 1 | .ru => 2 | .rd => 3

/-- R270 ARI. -/
def decAri (x : Nat) : Except Reject Ari :=
  match x with
  | 0 => .ok .i32 | 1 => .ok .i32sat | 2 => .ok .n32sat | 3 => .ok .i64 | _ => .error .reservedM

def encAri : Ari → Nat
  | .i32 => 0 | .i32sat => 1 | .n32sat => 2 | .i64 => 3

/-- R270 INT4. -/
def decInt4 (x : Nat) : Except Reject Int4 :=
  match x with
  | 0 => .ok .i32 | 1 => .ok .n32 | 2 => .ok .i64 | 3 => .ok .n64 | _ => .error .reservedM

def encInt4 : Int4 → Nat
  | .i32 => 0 | .n32 => 1 | .i64 => 2 | .n64 => 3

/-- R270 UN3. -/
def decUn3 (x : Nat) : Except Reject Un3 :=
  match x with
  | 0 => .ok .i32 | 1 => .ok .i32sat | 2 => .ok .i64 | _ => .error .reservedM

def encUn3 : Un3 → Nat
  | .i32 => 0 | .i32sat => 1 | .i64 => 2

/-- R270 W2. -/
def decW2 (x : Nat) : Except Reject W2 :=
  match x with
  | 0 => .ok .b32 | 1 => .ok .b64 | _ => .error .reservedM

def encW2 : W2 → Nat
  | .b32 => 0 | .b64 => 1

/-- R272. -/
def decCmpM (x : Nat) : Except Reject CmpM :=
  match x with
  | 0 => .ok .lt | 1 => .ok .le | 2 => .ok .ltn | 3 => .ok .len | _ => .error .reservedM

def encCmpM : CmpM → Nat
  | .lt => 0 | .le => 1 | .ltn => 2 | .len => 3

/-- R272. -/
def decCmpeM (x : Nat) : Except Reject CmpeM :=
  match x with
  | 0 => .ok .eq | 1 => .ok .ne | 2 => .ok .eq64 | 3 => .ok .ne64 | _ => .error .reservedM

def encCmpeM : CmpeM → Nat
  | .eq => 0 | .ne => 1 | .eq64 => 2 | .ne64 => 3

/-- R272. -/
def decScale (x : Nat) : Except Reject Scale :=
  match x with
  | 0 => .ok .x1 | 1 => .ok .x4 | 2 => .ok .x8 | 3 => .ok .x16 | _ => .error .reservedM

def encScale : Scale → Nat
  | .x1 => 0 | .x4 => 1 | .x8 => 2 | .x16 => 3

/-- R272. -/
def decMulwM (x : Nat) : Except Reject MulwM :=
  match x with
  | 0 => .ok .i64 | 1 => .ok .n64 | 2 => .ok .hiI | 3 => .ok .hiN | _ => .error .reservedM

def encMulwM : MulwM → Nat
  | .i64 => 0 | .n64 => 1 | .hiI => 2 | .hiN => 3

/-- R272, R281. -/
def decSgn32 (x : Nat) : Except Reject Sgn32 :=
  match x with
  | 0 => .ok .i32 | 1 => .ok .n32 | _ => .error .reservedM

def encSgn32 : Sgn32 → Nat
  | .i32 => 0 | .n32 => 1

/-- R273. -/
def decRotM (x : Nat) : Except Reject RotM :=
  match x with
  | 0 => .ok .l32 | 1 => .ok .r32 | 2 => .ok .l64 | 3 => .ok .r64 | _ => .error .reservedM

def encRotM : RotM → Nat
  | .l32 => 0 | .r32 => 1 | .l64 => 2 | .r64 => 3

/-- R273. -/
def decExtfM (x : Nat) : Except Reject ExtfM :=
  match x with
  | 0 => .ok .n32 | 1 => .ok .i32 | _ => .error .reservedM

def encExtfM : ExtfM → Nat
  | .n32 => 0 | .i32 => 1

/-- R274. -/
def decMovM (x : Nat) : Except Reject MovM :=
  match x with
  | 0 => .ok .b32 | 1 => .ok .b64 | 2 => .ok .b128 | _ => .error .reservedM

def encMovM : MovM → Nat
  | .b32 => 0 | .b64 => 1 | .b128 => 2

/-- R274, R275. -/
def decDimM (x : Nat) : Except Reject DimM :=
  match x with
  | 0 => .ok .d2 | 1 => .ok .d3 | _ => .error .reservedM

def encDimM : DimM → Nat
  | .d2 => 0 | .d3 => 1

/-- R275. -/
def decRedM (x : Nat) : Except Reject RedM :=
  match x with
  | 0 => .ok .add | 1 => .ok .mini | 2 => .ok .maxi | 3 => .ok .or | _ => .error .reservedM

def encRedM : RedM → Nat
  | .add => 0 | .mini => 1 | .maxi => 2 | .or => 3

/-- R275. -/
def decRedfM (x : Nat) : Except Reject RedfM :=
  match x with
  | 0 => .ok .add | 1 => .ok .min | 2 => .ok .max | _ => .error .reservedM

def encRedfM : RedfM → Nat
  | .add => 0 | .min => 1 | .max => 2

/-- R275. -/
def decFillM (x : Nat) : Except Reject FillM :=
  match x with
  | 0 => .ok .z | 1 => .ok .seed | _ => .error .reservedM

def encFillM : FillM → Nat
  | .z => 0 | .seed => 1

/-- R275. -/
def decPollM (x : Nat) : Except Reject PollM :=
  match x with
  | 0 => .ok .each | 1 => .ok .some | 2 => .ok .bits | 3 => .ok .same | _ => .error .reservedM

def encPollM : PollM → Nat
  | .each => 0 | .some => 1 | .bits => 2 | .same => 3

/-- R275. -/
def decQswpM (x : Nat) : Except Reject QswpM :=
  match x with
  | 0 => .ok .x | 1 => .ok .y | 2 => .ok .d | 3 => .ok .b0 | _ => .error .reservedM

def encQswpM : QswpM → Nat
  | .x => 0 | .y => 1 | .d => 2 | .b0 => 3

/-- R275. -/
def decQredM (x : Nat) : Except Reject QredM :=
  match x with
  | 0 => .ok .fadd | 1 => .ok .fmin | 2 => .ok .fmax | 3 => .ok .add | _ => .error .reservedM

def encQredM : QredM → Nat
  | .fadd => 0 | .fmin => 1 | .fmax => 2 | .add => 3

/-- R275. -/
def decTmaskM (x : Nat) : Except Reject TmaskM :=
  match x with
  | 0 => .ok .act | 1 => .ok .live | _ => .error .reservedM

def encTmaskM : TmaskM → Nat
  | .act => 0 | .live => 1

/-- R275. -/
def decTposM (x : Nat) : Except Reject TposM :=
  match x with
  | 0 => .ok .ex | 1 => .ok .inc | _ => .error .reservedM

def encTposM : TposM → Nat
  | .ex => 0 | .inc => 1

/-- R270 FCC. -/
def decFcc (x : Nat) : Except Reject Fcc :=
  match x with
  | 0 => .ok .eq | 1 => .ok .lt | 2 => .ok .le | 3 => .ok .un | _ => .error .reservedM

def encFcc : Fcc → Nat
  | .eq => 0 | .lt => 1 | .le => 2 | .un => 3

/-- R276. -/
def decFsgnM (x : Nat) : Except Reject FsgnM :=
  match x with
  | 0 => .ok .copy | 1 => .ok .xor | _ => .error .reservedM

def encFsgnM : FsgnM → Nat
  | .copy => 0 | .xor => 1

/-- R276. -/
def decPkM (x : Nat) : Except Reject PkM :=
  match x with
  | 0 => .ok .f16rn | 1 => .ok .bf16rn | 2 => .ok .f16rz | 3 => .ok .bf16rz | _ => .error .reservedM

def encPkM : PkM → Nat
  | .f16rn => 0 | .bf16rn => 1 | .f16rz => 2 | .bf16rz => 3

/-- R277, R281. -/
def decMinMax (x : Nat) : Except Reject MinMax :=
  match x with
  | 0 => .ok .min | 1 => .ok .max | _ => .error .reservedM

def encMinMax : MinMax → Nat
  | .min => 0 | .max => 1

/-- R278. -/
def decHalfM (x : Nat) : Except Reject HalfM :=
  match x with
  | 0 => .ok .lo | 1 => .ok .hi | _ => .error .reservedM

def encHalfM : HalfM → Nat
  | .lo => 0 | .hi => 1

/-- R278. -/
def decUnpkM (x : Nat) : Except Reject UnpkM :=
  match x with
  | 0 => .ok .e0 | 1 => .ok .e1 | 2 => .ok .e0s | 3 => .ok .e1s | _ => .error .reservedM

def encUnpkM : UnpkM → Nat
  | .e0 => 0 | .e1 => 1 | .e0s => 2 | .e1s => 3

/-- R278. -/
def decPk8M (x : Nat) : Except Reject Pk8M :=
  match x with
  | 0 => .ok .e4m3 | 1 => .ok .e4m3sat | 2 => .ok .e5m2 | 3 => .ok .e5m2sat | _ => .error .reservedM

def encPk8M : Pk8M → Nat
  | .e4m3 => 0 | .e4m3sat => 1 | .e5m2 => 2 | .e5m2sat => 3

/-- R278. -/
def decF8 (x : Nat) : Except Reject F8 :=
  match x with
  | 0 => .ok .e4m3 | 1 => .ok .e5m2 | _ => .error .reservedM

def encF8 : F8 → Nat
  | .e4m3 => 0 | .e5m2 => 1

/-- R270 WID. -/
def decWid (x : Nat) : Except Reject Wid :=
  match x with
  | 0 => .ok .b32 | 1 => .ok .b64 | 2 => .ok .b128 | 3 => .ok .n16 | _ => .error .reservedM

def encWid : Wid → Nat
  | .b32 => 0 | .b64 => 1 | .b128 => 2 | .n16 => 3

/-- R280. -/
def decBlkW (x : Nat) : Except Reject BlkW :=
  match x with
  | 0 => .ok .b64 | 1 => .ok .b128 | _ => .error .reservedM

def encBlkW : BlkW → Nat
  | .b64 => 0 | .b128 => 1

/-- R280. -/
def decHwM (x : Nat) : Except Reject HwM :=
  match x with
  | 0 => .ok .b32 | 1 => .ok .b64 | 2 => .ok .n8 | 3 => .ok .n16 | _ => .error .reservedM

def encHwM : HwM → Nat
  | .b32 => 0 | .b64 => 1 | .n8 => 2 | .n16 => 3

/-- R270 SPC. -/
def decSpc (x : Nat) : Except Reject Spc :=
  match x with
  | 0 => .ok .scr | 1 => .ok .lay | _ => .error .reservedM

def encSpc : Spc → Nat
  | .scr => 0 | .lay => 1

/-- R281. -/
def decAtI (x : Nat) : Except Reject AtI :=
  match x with
  | 0 => .ok .i32 | 1 => .ok .i64 | _ => .error .reservedM

def encAtI : AtI → Nat
  | .i32 => 0 | .i64 => 1

/-- R281. -/
def decAtN (x : Nat) : Except Reject AtN :=
  match x with
  | 0 => .ok .n32 | 1 => .ok .n64 | _ => .error .reservedM

def encAtN : AtN → Nat
  | .n32 => 0 | .n64 => 1

/-- R281. -/
def decAfaddM (x : Nat) : Except Reject AfaddM :=
  match x with
  | 0 => .ok .f32 | 1 => .ok .f16x2 | 2 => .ok .bf16x2 | _ => .error .reservedM

def encAfaddM : AfaddM → Nat
  | .f32 => 0 | .f16x2 => 1 | .bf16x2 => 2

/-- R281. -/
def decIncM (x : Nat) : Except Reject IncM :=
  match x with
  | 0 => .ok .inc | 1 => .ok .dec | _ => .error .reservedM

def encIncM : IncM → Nat
  | .inc => 0 | .dec => 1

/-- R281. -/
def decAsaddM (x : Nat) : Except Reject AsaddM :=
  match x with
  | 0 => .ok .i32 | 1 => .ok .f32 | _ => .error .reservedM

def encAsaddM : AsaddM → Nat
  | .i32 => 0 | .f32 => 1

/-- R218, R283. -/
def decScope (x : Nat) : Except Reject Scope :=
  match x with
  | 0 => .ok .thr | 1 => .ok .quad | 2 => .ok .grp | 3 => .ok .blk | 4 => .ok .core | 5 => .ok .trp | 6 => .ok .clu | 7 => .ok .die | 8 => .ok .dev | 9 => .ok .host | 10 => .ok .fab | _ => .error .reservedField

def encScope : Scope → Nat
  | .thr => 0 | .quad => 1 | .grp => 2 | .blk => 3 | .core => 4 | .trp => 5 | .clu => 6 | .die => 7 | .dev => 8 | .host => 9 | .fab => 10

/-- R282. -/
def decEngC (x : Nat) : Except Reject EngC :=
  match x with
  | 0 => .ok .copy | 1 => .ok .gath | 2 => .ok .coll | 3 => .ok .prom | _ => .error .reservedM

def encEngC : EngC → Nat
  | .copy => 0 | .gath => 1 | .coll => 2 | .prom => 3

/-- R284. -/
def decMmaM (x : Nat) : Except Reject MmaM :=
  match x with
  | 0 => .ok .bf16 | 1 => .ok .f16 | 2 => .ok .f32 | 3 => .ok .i8 | _ => .error .reservedM

def encMmaM : MmaM → Nat
  | .bf16 => 0 | .f16 => 1 | .f32 => 2 | .i8 => 3

/-- R270 F8P. -/
def decF8P (x : Nat) : Except Reject F8P :=
  match x with
  | 0 => .ok .e4e4 | 1 => .ok .e4e5 | 2 => .ok .e5e4 | 3 => .ok .e5e5 | _ => .error .reservedM

def encF8P : F8P → Nat
  | .e4e4 => 0 | .e4e5 => 1 | .e5e4 => 2 | .e5e5 => 3

/-- R284. -/
def decCollM (x : Nat) : Except Reject CollM :=
  match x with
  | 0 => .ok .ar | 1 => .ok .rs | 2 => .ok .ag | 3 => .ok .bc | _ => .error .reservedM

def encCollM : CollM → Nat
  | .ar => 0 | .rs => 1 | .ag => 2 | .bc => 3

/-- R285. -/
def decQstatM (x : Nat) : Except Reject QstatM :=
  match x with
  | 0 => .ok .occ | 1 => .ok .put | 2 => .ok .free | _ => .error .reservedM

def encQstatM : QstatM → Nat
  | .occ => 0 | .put => 1 | .free => 2

/-- R286. -/
def decAssayM (x : Nat) : Except Reject AssayM :=
  match x with
  | 0 => .ok .q | 1 => .ok .off | _ => .error .reservedM

def encAssayM : AssayM → Nat
  | .q => 0 | .off => 1

/-- R286. -/
def decDbgmM (x : Nat) : Except Reject DbgmM :=
  match x with
  | 0 => .ok .post | 1 => .ok .halt | _ => .error .reservedM

def encDbgmM : DbgmM → Nat
  | .post => 0 | .halt => 1

/-- R286. -/
def decWatchM (x : Nat) : Except Reject WatchM :=
  match x with
  | 0 => .ok .r | 1 => .ok .w | 2 => .ok .rw | 3 => .ok .clr | _ => .error .reservedM

def encWatchM : WatchM → Nat
  | .r => 0 | .w => 1 | .rw => 2 | .clr => 3

/-- R261, R408. -/
def decTClass (x : Nat) : Except Reject TClass :=
  match x with
  | 0 => .ok .q | 1 => .ok .n | 2 => .ok .s | 3 => .ok .l | _ => .error .reservedM

def encTClass : TClass → Nat
  | .q => 0 | .n => 1 | .s => 2 | .l => 3

/-- R332 CVT, CVTZ. -/
def decFmtF (x : Nat) : Except Reject FmtF :=
  match x with
  | 0 => .ok .f32 | 1 => .ok .f16 | 2 => .ok .bf16 | 3 => .ok .e4m3 | 4 => .ok .e5m2 | 5 => .ok .i32 | 6 => .ok .n32 | _ => .error .reservedField

def encFmtF : FmtF → Nat
  | .f32 => 0 | .f16 => 1 | .bf16 => 2 | .e4m3 => 3 | .e5m2 => 4 | .i32 => 5 | .n32 => 6

/-- R332 CVTU. -/
def decFmtU (x : Nat) : Except Reject FmtU :=
  match x with
  | 0 => .ok .i8 | 1 => .ok .n8 | 2 => .ok .i16 | 3 => .ok .n16 | 4 => .ok .i32 | 5 => .ok .n32 | _ => .error .reservedField

def encFmtU : FmtU → Nat
  | .i8 => 0 | .n8 => 1 | .i16 => 2 | .n16 => 3 | .i32 => 4 | .n32 => 5

/-- R332 CVTD. -/
def decFmtD (x : Nat) : Except Reject FmtD :=
  match x with
  | 0 => .ok .f32 | 1 => .ok .f64 | 2 => .ok .i32 | 3 => .ok .n32 | 4 => .ok .i64 | 5 => .ok .n64 | _ => .error .reservedField

def encFmtD : FmtD → Nat
  | .f32 => 0 | .f64 => 1 | .i32 => 2 | .n32 => 3 | .i64 => 4 | .n64 => 5

/-- R283, R364: the scope and P bits of a barrier: P = 1 allows codes 3 to 10, P = 0 zero only. -/
def decPub (p s : Nat) : Except Reject (Option PubScope) :=
  if p = 0 then (if s = 0 then .ok none else .error .reservedField)
  else match s with
    | 3 => .ok (some .blk) | 4 => .ok (some .core) | 5 => .ok (some .trp) | 6 => .ok (some .clu) | 7 => .ok (some .die)
    | 8 => .ok (some .dev) | 9 => .ok (some .host) | 10 => .ok (some .fab) | _ => .error .reservedField

/-- Scope code of a publishing barrier. -/
def encPub : PubScope → Nat
  | .blk => 3 | .core => 4 | .trp => 5 | .clu => 6 | .die => 7 | .dev => 8 | .host => 9 | .fab => 10

/-- Block 0x0_ of the opcode map: the low nibble and the word. -/
def decBlock0 (k w : Nat) : Except Reject Instr :=
  match k with
  | 0 =>
    unusedZ (fld w 0 24) >>= fun _ =>
    .ok .nop
  | 1 =>
    .ok (.bra (BitVec.ofNat 24 (fld w 0 24)))
  | 2 =>
    decDst (fld w 16 7) >>= fun d =>
    decSrc (fld w 9 7) >>= fun a =>
    unusedOp (fld w 2 7) >>= fun _ =>
    decTgt (fld w 0 2) >>= fun m =>
    .ok (.call (nBit w) d a m)
  | 3 =>
    nZero w >>= fun _ =>
    unusedOp (fld w 16 7) >>= fun _ =>
    decSrc (fld w 9 7) >>= fun a =>
    unusedOp (fld w 2 7) >>= fun _ =>
    needM (fld w 0 2) 1 >>= fun _ =>
    .ok (.ret a)
  | 4 =>
    nZero w >>= fun _ =>
    unusedOp (fld w 16 7) >>= fun _ =>
    decSrc (fld w 9 7) >>= fun a =>
    unusedOp (fld w 2 7) >>= fun _ =>
    decTgt (fld w 0 2) >>= fun m =>
    .ok (.jmpr a m)
  | 5 =>
    decSrc (fld w 16 7) >>= fun a =>
    .ok (.brz (nBit w) a (BitVec.ofNat 16 (fld w 0 16)))
  | 6 =>
    decSrc (fld w 16 7) >>= fun a =>
    .ok (.brnz (nBit w) a (BitVec.ofNat 16 (fld w 0 16)))
  | 7 =>
    decSrc (fld w 16 7) >>= fun a =>
    .ok (.brlt (nBit w) a (BitVec.ofNat 16 (fld w 0 16)))
  | 8 =>
    decSrc (fld w 16 7) >>= fun a =>
    .ok (.brge (nBit w) a (BitVec.ofNat 16 (fld w 0 16)))
  | 9 =>
    hZero w >>= fun _ =>
    unusedOp (fld w 16 7) >>= fun _ =>
    .ok (.meet (BitVec.ofNat 16 (fld w 0 16)))
  | 10 =>
    hZero w >>= fun _ =>
    decSrc (fld w 16 7) >>= fun a =>
    .ok (.repack a (BitVec.ofNat 16 (fld w 0 16)))
  | 11 =>
    hZero w >>= fun _ =>
    decReg (fld w 16 7) >>= fun a =>
    .ok (.loop a (BitVec.ofNat 16 (fld w 0 16)))
  | 12 =>
    unusedZ (fld w 0 24) >>= fun _ =>
    .ok .exit
  | 13 =>
    nZero w >>= fun _ =>
    unusedOp (fld w 16 7) >>= fun _ =>
    needF (fld w 13 3 == 0 && fld w 3 5 == 0) >>= fun _ =>
    if h : fld w 8 5 < 28 ∧ fld w 0 3 < 6 then .ok (.winb ⟨fld w 8 5, h.1⟩ ⟨fld w 0 3, h.2⟩) else .error .reservedField
  | _ => .error .reservedOpcode

/-- Block 0x1_ of the opcode map: the low nibble and the word. -/
def decBlock1 (k w : Nat) : Except Reject Instr :=
  match k with
  | 0 =>
    decDst (fld w 16 7) >>= fun d =>
    decSrc (fld w 9 7) >>= fun a =>
    decSrc (fld w 2 7) >>= fun b =>
    decAri (fld w 0 2) >>= fun m =>
    .ok (.add (nBit w) d a b m)
  | 1 =>
    decDst (fld w 16 7) >>= fun d =>
    decSrc (fld w 9 7) >>= fun a =>
    decSrc (fld w 2 7) >>= fun b =>
    decAri (fld w 0 2) >>= fun m =>
    .ok (.sub (nBit w) d a b m)
  | 2 =>
    decDst (fld w 16 7) >>= fun d =>
    decSrc (fld w 9 7) >>= fun a =>
    decSrc (fld w 2 7) >>= fun b =>
    decAri (fld w 0 2) >>= fun m =>
    .ok (.mul (nBit w) d a b m)
  | 3 =>
    decDst (fld w 16 7) >>= fun d =>
    decSrc (fld w 9 7) >>= fun a =>
    decSrc (fld w 2 7) >>= fun b =>
    decAri (fld w 0 2) >>= fun m =>
    .ok (.mad (nBit w) d a b m)
  | 4 =>
    decDst (fld w 16 7) >>= fun d =>
    decSrc (fld w 9 7) >>= fun a =>
    decSrc (fld w 2 7) >>= fun b =>
    decInt4 (fld w 0 2) >>= fun m =>
    .ok (.div (nBit w) d a b m)
  | 5 =>
    decDst (fld w 16 7) >>= fun d =>
    decSrc (fld w 9 7) >>= fun a =>
    decSrc (fld w 2 7) >>= fun b =>
    decInt4 (fld w 0 2) >>= fun m =>
    .ok (.rem (nBit w) d a b m)
  | 6 =>
    decDst (fld w 16 7) >>= fun d =>
    decSrc (fld w 9 7) >>= fun a =>
    decSrc (fld w 2 7) >>= fun b =>
    decInt4 (fld w 0 2) >>= fun m =>
    .ok (.min (nBit w) d a b m)
  | 7 =>
    decDst (fld w 16 7) >>= fun d =>
    decSrc (fld w 9 7) >>= fun a =>
    decSrc (fld w 2 7) >>= fun b =>
    decInt4 (fld w 0 2) >>= fun m =>
    .ok (.max (nBit w) d a b m)
  | 8 =>
    decDst (fld w 16 7) >>= fun d =>
    decSrc (fld w 9 7) >>= fun a =>
    unusedOp (fld w 2 7) >>= fun _ =>
    decUn3 (fld w 0 2) >>= fun m =>
    .ok (.abs (nBit w) d a m)
  | 9 =>
    decDst (fld w 16 7) >>= fun d =>
    decSrc (fld w 9 7) >>= fun a =>
    unusedOp (fld w 2 7) >>= fun _ =>
    decUn3 (fld w 0 2) >>= fun m =>
    .ok (.neg (nBit w) d a m)
  | 10 =>
    decDst (fld w 16 7) >>= fun d =>
    decSrc (fld w 9 7) >>= fun a =>
    decSrc (fld w 2 7) >>= fun b =>
    decCmpM (fld w 0 2) >>= fun m =>
    .ok (.cmp (nBit w) d a b m)
  | 11 =>
    decDst (fld w 16 7) >>= fun d =>
    decSrc (fld w 9 7) >>= fun a =>
    decSrc (fld w 2 7) >>= fun b =>
    decCmpeM (fld w 0 2) >>= fun m =>
    .ok (.cmpe (nBit w) d a b m)
  | 12 =>
    decDst (fld w 16 7) >>= fun d =>
    decSrc (fld w 9 7) >>= fun a =>
    decSrc (fld w 2 7) >>= fun b =>
    decW2 (fld w 0 2) >>= fun m =>
    .ok (.sel (nBit w) d a b m)
  | 13 =>
    decDst (fld w 16 7) >>= fun d =>
    decSrc (fld w 9 7) >>= fun a =>
    decSrc (fld w 2 7) >>= fun b =>
    decScale (fld w 0 2) >>= fun m =>
    .ok (.lea (nBit w) d a b m)
  | 14 =>
    decDst (fld w 16 7) >>= fun d =>
    decSrc (fld w 9 7) >>= fun a =>
    decSrc (fld w 2 7) >>= fun b =>
    decMulwM (fld w 0 2) >>= fun m =>
    .ok (.mulw (nBit w) d a b m)
  | 15 =>
    decDst (fld w 16 7) >>= fun d =>
    decSrc (fld w 9 7) >>= fun a =>
    decSrc (fld w 2 7) >>= fun b =>
    decSgn32 (fld w 0 2) >>= fun m =>
    .ok (.clamp (nBit w) d a b m)
  | _ => .error .reservedOpcode

/-- Block 0x2_ of the opcode map: the low nibble and the word. -/
def decBlock2 (k w : Nat) : Except Reject Instr :=
  match k with
  | 0 =>
    decDst (fld w 16 7) >>= fun d =>
    decSrc (fld w 9 7) >>= fun a =>
    decSrc (fld w 2 7) >>= fun b =>
    decW2 (fld w 0 2) >>= fun m =>
    .ok (.and (nBit w) d a b m)
  | 1 =>
    decDst (fld w 16 7) >>= fun d =>
    decSrc (fld w 9 7) >>= fun a =>
    decSrc (fld w 2 7) >>= fun b =>
    decW2 (fld w 0 2) >>= fun m =>
    .ok (.or (nBit w) d a b m)
  | 2 =>
    decDst (fld w 16 7) >>= fun d =>
    decSrc (fld w 9 7) >>= fun a =>
    decSrc (fld w 2 7) >>= fun b =>
    decW2 (fld w 0 2) >>= fun m =>
    .ok (.xor (nBit w) d a b m)
  | 3 =>
    decDst (fld w 16 7) >>= fun d =>
    decSrc (fld w 9 7) >>= fun a =>
    decSrc (fld w 2 7) >>= fun b =>
    decW2 (fld w 0 2) >>= fun m =>
    .ok (.andn (nBit w) d a b m)
  | 4 =>
    decDst (fld w 16 7) >>= fun d =>
    decSrc (fld w 9 7) >>= fun a =>
    decSrc (fld w 2 7) >>= fun b =>
    decW2 (fld w 0 2) >>= fun m =>
    .ok (.orn (nBit w) d a b m)
  | 5 =>
    decDst (fld w 16 7) >>= fun d =>
    decSrc (fld w 9 7) >>= fun a =>
    decSrc (fld w 2 7) >>= fun b =>
    decW2 (fld w 0 2) >>= fun m =>
    .ok (.xnor (nBit w) d a b m)
  | 6 =>
    decDst (fld w 16 7) >>= fun d =>
    decSrc (fld w 9 7) >>= fun a =>
    decSrc (fld w 2 7) >>= fun b =>
    decW2 (fld w 0 2) >>= fun m =>
    .ok (.shl (nBit w) d a b m)
  | 7 =>
    decDst (fld w 16 7) >>= fun d =>
    decSrc (fld w 9 7) >>= fun a =>
    decSrc (fld w 2 7) >>= fun b =>
    decW2 (fld w 0 2) >>= fun m =>
    .ok (.shr (nBit w) d a b m)
  | 8 =>
    decDst (fld w 16 7) >>= fun d =>
    decSrc (fld w 9 7) >>= fun a =>
    decSrc (fld w 2 7) >>= fun b =>
    decW2 (fld w 0 2) >>= fun m =>
    .ok (.sar (nBit w) d a b m)
  | 9 =>
    decDst (fld w 16 7) >>= fun d =>
    decSrc (fld w 9 7) >>= fun a =>
    decSrc (fld w 2 7) >>= fun b =>
    decRotM (fld w 0 2) >>= fun m =>
    .ok (.rot (nBit w) d a b m)
  | 10 =>
    decDst (fld w 16 7) >>= fun d =>
    decSrc (fld w 9 7) >>= fun a =>
    decSrc (fld w 2 7) >>= fun b =>
    decExtfM (fld w 0 2) >>= fun m =>
    .ok (.extf (nBit w) d a b m)
  | 11 =>
    decDst (fld w 16 7) >>= fun d =>
    decSrc (fld w 9 7) >>= fun a =>
    decSrc (fld w 2 7) >>= fun b =>
    needM (fld w 0 2) 1 >>= fun _ =>
    .ok (.depf (nBit w) d a b)
  | 12 =>
    decDst (fld w 16 7) >>= fun d =>
    decSrc (fld w 9 7) >>= fun a =>
    unusedOp (fld w 2 7) >>= fun _ =>
    decW2 (fld w 0 2) >>= fun m =>
    .ok (.popc (nBit w) d a m)
  | 13 =>
    decDst (fld w 16 7) >>= fun d =>
    decSrc (fld w 9 7) >>= fun a =>
    unusedOp (fld w 2 7) >>= fun _ =>
    decW2 (fld w 0 2) >>= fun m =>
    .ok (.clz (nBit w) d a m)
  | 14 =>
    decDst (fld w 16 7) >>= fun d =>
    decSrc (fld w 9 7) >>= fun a =>
    unusedOp (fld w 2 7) >>= fun _ =>
    decW2 (fld w 0 2) >>= fun m =>
    .ok (.ctz (nBit w) d a m)
  | 15 =>
    decDst (fld w 16 7) >>= fun d =>
    decSrc (fld w 9 7) >>= fun a =>
    unusedOp (fld w 2 7) >>= fun _ =>
    decW2 (fld w 0 2) >>= fun m =>
    .ok (.brev (nBit w) d a m)
  | _ => .error .reservedOpcode

/-- Block 0x3_ of the opcode map: the low nibble and the word. -/
def decBlock3 (k w : Nat) : Except Reject Instr :=
  match k with
  | 0 =>
    decDst (fld w 16 7) >>= fun d =>
    decSrc (fld w 9 7) >>= fun a =>
    .ok (.addi (nBit w) d a (BitVec.ofNat 9 (fld w 0 9)))
  | 1 =>
    decDst (fld w 16 7) >>= fun d =>
    decSrc (fld w 9 7) >>= fun a =>
    .ok (.muli (nBit w) d a (BitVec.ofNat 9 (fld w 0 9)))
  | 2 =>
    decDst (fld w 16 7) >>= fun d =>
    decSrc (fld w 9 7) >>= fun a =>
    .ok (.andi (nBit w) d a (BitVec.ofNat 9 (fld w 0 9)))
  | 3 =>
    decDst (fld w 16 7) >>= fun d =>
    decSrc (fld w 9 7) >>= fun a =>
    .ok (.ori (nBit w) d a (BitVec.ofNat 9 (fld w 0 9)))
  | 4 =>
    decDst (fld w 16 7) >>= fun d =>
    decSrc (fld w 9 7) >>= fun a =>
    .ok (.xori (nBit w) d a (BitVec.ofNat 9 (fld w 0 9)))
  | 5 =>
    decDst (fld w 16 7) >>= fun d =>
    decSrc (fld w 9 7) >>= fun a =>
    .ok (.shli (nBit w) d a (BitVec.ofNat 9 (fld w 0 9)))
  | 6 =>
    decDst (fld w 16 7) >>= fun d =>
    decSrc (fld w 9 7) >>= fun a =>
    .ok (.shri (nBit w) d a (BitVec.ofNat 9 (fld w 0 9)))
  | 7 =>
    decDst (fld w 16 7) >>= fun d =>
    decSrc (fld w 9 7) >>= fun a =>
    .ok (.sari (nBit w) d a (BitVec.ofNat 9 (fld w 0 9)))
  | 8 =>
    decDst (fld w 16 7) >>= fun d =>
    decSrc (fld w 9 7) >>= fun a =>
    .ok (.cmpieq (nBit w) d a (BitVec.ofNat 9 (fld w 0 9)))
  | 9 =>
    decDst (fld w 16 7) >>= fun d =>
    decSrc (fld w 9 7) >>= fun a =>
    .ok (.cmpilt (nBit w) d a (BitVec.ofNat 9 (fld w 0 9)))
  | 10 =>
    decDst (fld w 16 7) >>= fun d =>
    decSrc (fld w 9 7) >>= fun a =>
    .ok (.cmpiltn (nBit w) d a (BitVec.ofNat 9 (fld w 0 9)))
  | 11 =>
    decDst (fld w 16 7) >>= fun d =>
    decSrc (fld w 9 7) >>= fun a =>
    .ok (.mini (nBit w) d a (BitVec.ofNat 9 (fld w 0 9)))
  | 12 =>
    decDst (fld w 16 7) >>= fun d =>
    .ok (.ldk (nBit w) d (BitVec.ofNat 16 (fld w 0 16)))
  | 13 =>
    decDst (fld w 16 7) >>= fun d =>
    .ok (.ldkh (nBit w) d (BitVec.ofNat 16 (fld w 0 16)))
  | 14 =>
    decDst (fld w 16 7) >>= fun d =>
    decSrc (fld w 9 7) >>= fun a =>
    unusedOp (fld w 2 7) >>= fun _ =>
    decMovM (fld w 0 2) >>= fun m =>
    .ok (.mov (nBit w) d a m)
  | 15 =>
    decDst (fld w 16 7) >>= fun d =>
    decSrc (fld w 9 7) >>= fun a =>
    decSrc (fld w 2 7) >>= fun b =>
    decDimM (fld w 0 2) >>= fun m =>
    .ok (.mort (nBit w) d a b m)
  | _ => .error .reservedOpcode

/-- Block 0x4_ of the opcode map: the low nibble and the word. -/
def decBlock4 (k w : Nat) : Except Reject Instr :=
  match k with
  | 0 =>
    nZero w >>= fun _ =>
    unusedOp (fld w 16 7) >>= fun _ =>
    decSrc (fld w 9 7) >>= fun a =>
    unusedOp (fld w 2 7) >>= fun _ =>
    needM (fld w 0 2) 1 >>= fun _ =>
    .ok (.seedc a)
  | 1 =>
    decDst (fld w 16 7) >>= fun d =>
    unusedOp (fld w 9 7) >>= fun _ =>
    unusedOp (fld w 2 7) >>= fun _ =>
    needM (fld w 0 2) 1 >>= fun _ =>
    .ok (.rdtail (nBit w) d)
  | 2 =>
    decDst (fld w 16 7) >>= fun d =>
    decSrc (fld w 9 7) >>= fun a =>
    unusedOp (fld w 2 7) >>= fun _ =>
    decRedM (fld w 0 2) >>= fun m =>
    .ok (.red (nBit w) d a m)
  | 3 =>
    decDst (fld w 16 7) >>= fun d =>
    decSrc (fld w 9 7) >>= fun a =>
    unusedOp (fld w 2 7) >>= fun _ =>
    decRedfM (fld w 0 2) >>= fun m =>
    .ok (.redf (nBit w) d a m)
  | 4 =>
    decDst (fld w 16 7) >>= fun d =>
    decSrc (fld w 9 7) >>= fun a =>
    decSrc (fld w 2 7) >>= fun b =>
    decFillM (fld w 0 2) >>= fun m =>
    .ok (.tshb (nBit w) d a b m)
  | 5 =>
    decDst (fld w 16 7) >>= fun d =>
    decSrc (fld w 9 7) >>= fun a =>
    decSrc (fld w 2 7) >>= fun b =>
    decFillM (fld w 0 2) >>= fun m =>
    .ok (.tshf (nBit w) d a b m)
  | 6 =>
    decDst (fld w 16 7) >>= fun d =>
    decSrc (fld w 9 7) >>= fun a =>
    decSrc (fld w 2 7) >>= fun b =>
    needM (fld w 0 2) 1 >>= fun _ =>
    .ok (.tbcst (nBit w) d a b)
  | 7 =>
    decDst (fld w 16 7) >>= fun d =>
    decSrc (fld w 9 7) >>= fun a =>
    unusedOp (fld w 2 7) >>= fun _ =>
    decPollM (fld w 0 2) >>= fun m =>
    .ok (.poll (nBit w) d a m)
  | 8 =>
    decDst (fld w 16 7) >>= fun d =>
    decSrc (fld w 9 7) >>= fun a =>
    unusedOp (fld w 2 7) >>= fun _ =>
    decQswpM (fld w 0 2) >>= fun m =>
    .ok (.qswp (nBit w) d a m)
  | 9 =>
    decDst (fld w 16 7) >>= fun d =>
    decSrc (fld w 9 7) >>= fun a =>
    unusedOp (fld w 2 7) >>= fun _ =>
    decQredM (fld w 0 2) >>= fun m =>
    .ok (.qred (nBit w) d a m)
  | 10 =>
    decDst (fld w 16 7) >>= fun d =>
    unusedOp (fld w 9 7) >>= fun _ =>
    unusedOp (fld w 2 7) >>= fun _ =>
    needM (fld w 0 2) 1 >>= fun _ =>
    .ok (.help (nBit w) d)
  | 11 =>
    decDst (fld w 16 7) >>= fun d =>
    decSrc (fld w 9 7) >>= fun a =>
    decSrc (fld w 2 7) >>= fun b =>
    decDimM (fld w 0 2) >>= fun m =>
    .ok (.cellh (nBit w) d a b m)
  | 12 =>
    decDst (fld w 16 7) >>= fun d =>
    unusedOp (fld w 9 7) >>= fun _ =>
    unusedOp (fld w 2 7) >>= fun _ =>
    decTmaskM (fld w 0 2) >>= fun m =>
    .ok (.tmask (nBit w) d m)
  | 13 =>
    decDst (fld w 16 7) >>= fun d =>
    decSrc (fld w 9 7) >>= fun a =>
    unusedOp (fld w 2 7) >>= fun _ =>
    decTposM (fld w 0 2) >>= fun m =>
    .ok (.tpos (nBit w) d a m)
  | _ => .error .reservedOpcode

/-- Block 0x5_ of the opcode map: the low nibble and the word. -/
def decBlock5 (k w : Nat) : Except Reject Instr :=
  match k with
  | 0 =>
    decDst (fld w 16 7) >>= fun d =>
    decSrc (fld w 9 7) >>= fun a =>
    decSrc (fld w 2 7) >>= fun b =>
    decRnd (fld w 0 2) >>= fun m =>
    .ok (.fadd (nBit w) d a b m)
  | 1 =>
    decDst (fld w 16 7) >>= fun d =>
    decSrc (fld w 9 7) >>= fun a =>
    decSrc (fld w 2 7) >>= fun b =>
    decRnd (fld w 0 2) >>= fun m =>
    .ok (.fsub (nBit w) d a b m)
  | 2 =>
    decDst (fld w 16 7) >>= fun d =>
    decSrc (fld w 9 7) >>= fun a =>
    decSrc (fld w 2 7) >>= fun b =>
    decRnd (fld w 0 2) >>= fun m =>
    .ok (.fmul (nBit w) d a b m)
  | 3 =>
    decDst (fld w 16 7) >>= fun d =>
    decSrc (fld w 9 7) >>= fun a =>
    decSrc (fld w 2 7) >>= fun b =>
    decRnd (fld w 0 2) >>= fun m =>
    .ok (.ffma (nBit w) d a b m)
  | 4 =>
    decDst (fld w 16 7) >>= fun d =>
    decSrc (fld w 9 7) >>= fun a =>
    decSrc (fld w 2 7) >>= fun b =>
    needM (fld w 0 2) 1 >>= fun _ =>
    .ok (.fmin (nBit w) d a b)
  | 5 =>
    decDst (fld w 16 7) >>= fun d =>
    decSrc (fld w 9 7) >>= fun a =>
    decSrc (fld w 2 7) >>= fun b =>
    needM (fld w 0 2) 1 >>= fun _ =>
    .ok (.fmax (nBit w) d a b)
  | 6 =>
    decDst (fld w 16 7) >>= fun d =>
    decSrc (fld w 9 7) >>= fun a =>
    decSrc (fld w 2 7) >>= fun b =>
    decFcc (fld w 0 2) >>= fun m =>
    .ok (.fcmp (nBit w) d a b m)
  | 7 =>
    decDst (fld w 16 7) >>= fun d =>
    decSrc (fld w 9 7) >>= fun a =>
    decSrc (fld w 2 7) >>= fun b =>
    decFsgnM (fld w 0 2) >>= fun m =>
    .ok (.fsgn (nBit w) d a b m)
  | 8 =>
    decDst (fld w 16 7) >>= fun d =>
    decSrc (fld w 9 7) >>= fun a =>
    decSrc (fld w 2 7) >>= fun b =>
    decPkM (fld w 0 2) >>= fun m =>
    .ok (.pkadd (nBit w) d a b m)
  | 9 =>
    decDst (fld w 16 7) >>= fun d =>
    decSrc (fld w 9 7) >>= fun a =>
    decSrc (fld w 2 7) >>= fun b =>
    decPkM (fld w 0 2) >>= fun m =>
    .ok (.pkmul (nBit w) d a b m)
  | 10 =>
    decDst (fld w 16 7) >>= fun d =>
    decSrc (fld w 9 7) >>= fun a =>
    decSrc (fld w 2 7) >>= fun b =>
    decPkM (fld w 0 2) >>= fun m =>
    .ok (.pkfma (nBit w) d a b m)
  | 11 =>
    decDst (fld w 16 7) >>= fun d =>
    decSrc (fld w 9 7) >>= fun a =>
    decSrc (fld w 2 7) >>= fun b =>
    decRnd (fld w 0 2) >>= fun m =>
    .ok (.fdiv (nBit w) d a b m)
  | 12 =>
    decDst (fld w 16 7) >>= fun d =>
    decSrc (fld w 9 7) >>= fun a =>
    unusedOp (fld w 2 7) >>= fun _ =>
    decRnd (fld w 0 2) >>= fun m =>
    .ok (.fsqrt (nBit w) d a m)
  | 13 =>
    decDst (fld w 16 7) >>= fun d =>
    decSrc (fld w 9 7) >>= fun a =>
    unusedOp (fld w 2 7) >>= fun _ =>
    decRnd (fld w 0 2) >>= fun m =>
    .ok (.frnd (nBit w) d a m)
  | 14 =>
    decDst (fld w 16 7) >>= fun d =>
    decSrc (fld w 9 7) >>= fun a =>
    unusedOp (fld w 2 7) >>= fun _ =>
    needM (fld w 0 2) 1 >>= fun _ =>
    .ok (.fclass (nBit w) d a)
  | 15 =>
    decDst (fld w 16 7) >>= fun d =>
    decSrc (fld w 9 7) >>= fun a =>
    decSrc (fld w 2 7) >>= fun b =>
    decRnd (fld w 0 2) >>= fun m =>
    .ok (.fscl (nBit w) d a b m)
  | _ => .error .reservedOpcode

/-- Block 0x6_ of the opcode map: the low nibble and the word. -/
def decBlock6 (k w : Nat) : Except Reject Instr :=
  match k with
  | 0 =>
    decDst (fld w 16 7) >>= fun d =>
    decSrc (fld w 9 7) >>= fun a =>
    unusedOp (fld w 2 7) >>= fun _ =>
    needM (fld w 0 2) 1 >>= fun _ =>
    .ok (.frcp (nBit w) d a)
  | 1 =>
    decDst (fld w 16 7) >>= fun d =>
    decSrc (fld w 9 7) >>= fun a =>
    unusedOp (fld w 2 7) >>= fun _ =>
    needM (fld w 0 2) 1 >>= fun _ =>
    .ok (.frsq (nBit w) d a)
  | 2 =>
    decDst (fld w 16 7) >>= fun d =>
    decSrc (fld w 9 7) >>= fun a =>
    unusedOp (fld w 2 7) >>= fun _ =>
    needM (fld w 0 2) 1 >>= fun _ =>
    .ok (.fex2 (nBit w) d a)
  | 3 =>
    decDst (fld w 16 7) >>= fun d =>
    decSrc (fld w 9 7) >>= fun a =>
    unusedOp (fld w 2 7) >>= fun _ =>
    needM (fld w 0 2) 1 >>= fun _ =>
    .ok (.flg2 (nBit w) d a)
  | 4 =>
    decDst (fld w 16 7) >>= fun d =>
    decSrc (fld w 9 7) >>= fun a =>
    unusedOp (fld w 2 7) >>= fun _ =>
    needM (fld w 0 2) 1 >>= fun _ =>
    .ok (.fsin (nBit w) d a)
  | 5 =>
    decDst (fld w 16 7) >>= fun d =>
    decSrc (fld w 9 7) >>= fun a =>
    unusedOp (fld w 2 7) >>= fun _ =>
    needM (fld w 0 2) 1 >>= fun _ =>
    .ok (.ftanh (nBit w) d a)
  | 6 =>
    decDst (fld w 16 7) >>= fun d =>
    decSrc (fld w 9 7) >>= fun a =>
    decSrc (fld w 2 7) >>= fun b =>
    decRnd (fld w 0 2) >>= fun m =>
    .ok (.dadd (nBit w) d a b m)
  | 7 =>
    decDst (fld w 16 7) >>= fun d =>
    decSrc (fld w 9 7) >>= fun a =>
    decSrc (fld w 2 7) >>= fun b =>
    decRnd (fld w 0 2) >>= fun m =>
    .ok (.dsub (nBit w) d a b m)
  | 8 =>
    decDst (fld w 16 7) >>= fun d =>
    decSrc (fld w 9 7) >>= fun a =>
    decSrc (fld w 2 7) >>= fun b =>
    decRnd (fld w 0 2) >>= fun m =>
    .ok (.dmul (nBit w) d a b m)
  | 9 =>
    decDst (fld w 16 7) >>= fun d =>
    decSrc (fld w 9 7) >>= fun a =>
    decSrc (fld w 2 7) >>= fun b =>
    decRnd (fld w 0 2) >>= fun m =>
    .ok (.dfma (nBit w) d a b m)
  | 10 =>
    decDst (fld w 16 7) >>= fun d =>
    decSrc (fld w 9 7) >>= fun a =>
    decSrc (fld w 2 7) >>= fun b =>
    decRnd (fld w 0 2) >>= fun m =>
    .ok (.ddiv (nBit w) d a b m)
  | 11 =>
    decDst (fld w 16 7) >>= fun d =>
    decSrc (fld w 9 7) >>= fun a =>
    unusedOp (fld w 2 7) >>= fun _ =>
    decRnd (fld w 0 2) >>= fun m =>
    .ok (.dsqrt (nBit w) d a m)
  | 12 =>
    decDst (fld w 16 7) >>= fun d =>
    decSrc (fld w 9 7) >>= fun a =>
    decSrc (fld w 2 7) >>= fun b =>
    decMinMax (fld w 0 2) >>= fun m =>
    .ok (.dmin (nBit w) d a b m)
  | 13 =>
    decDst (fld w 16 7) >>= fun d =>
    decSrc (fld w 9 7) >>= fun a =>
    decSrc (fld w 2 7) >>= fun b =>
    decFcc (fld w 0 2) >>= fun m =>
    .ok (.dcmp (nBit w) d a b m)
  | _ => .error .reservedOpcode

/-- Block 0x7_ of the opcode map: the low nibble and the word. -/
def decBlock7 (k w : Nat) : Except Reject Instr :=
  match k with
  | 0 =>
    decDst (fld w 16 7) >>= fun d =>
    decSrc (fld w 9 7) >>= fun a =>
    decRnd (fld w 7 2) >>= fun k =>
    decFmtF (fld w 3 3) >>= fun j =>
    decFmtF (fld w 0 3) >>= fun f =>
    .ok (.cvt (nBit w) d a k (fld w 6 1 == 1) j f)
  | 1 =>
    decDst (fld w 16 7) >>= fun d =>
    decSrc (fld w 9 7) >>= fun a =>
    needF (fld w 7 2 == 0) >>= fun _ =>
    decFmtF (fld w 3 3) >>= fun j =>
    decFmtF (fld w 0 3) >>= fun f =>
    .ok (.cvtz (nBit w) d a (fld w 6 1 == 1) j f)
  | 2 =>
    decDst (fld w 16 7) >>= fun d =>
    decSrc (fld w 9 7) >>= fun a =>
    needF (fld w 7 2 == 0) >>= fun _ =>
    decFmtU (fld w 3 3) >>= fun j =>
    decFmtU (fld w 0 3) >>= fun f =>
    .ok (.cvtu (nBit w) d a (fld w 6 1 == 1) j f)
  | 3 =>
    decDst (fld w 16 7) >>= fun d =>
    decSrc (fld w 9 7) >>= fun a =>
    decRnd (fld w 7 2) >>= fun k =>
    decFmtD (fld w 3 3) >>= fun j =>
    decFmtD (fld w 0 3) >>= fun f =>
    .ok (.cvtd (nBit w) d a k (fld w 6 1 == 1) j f)
  | 4 =>
    decDst (fld w 16 7) >>= fun d =>
    decSrc (fld w 9 7) >>= fun a =>
    decSrc (fld w 2 7) >>= fun b =>
    decHalfM (fld w 0 2) >>= fun m =>
    .ok (.pack (nBit w) d a b m)
  | 5 =>
    decDst (fld w 16 7) >>= fun d =>
    decSrc (fld w 9 7) >>= fun a =>
    unusedOp (fld w 2 7) >>= fun _ =>
    decUnpkM (fld w 0 2) >>= fun m =>
    .ok (.unpk (nBit w) d a m)
  | 6 =>
    decDst (fld w 16 7) >>= fun d =>
    decSrc (fld w 9 7) >>= fun a =>
    decSrc (fld w 2 7) >>= fun b =>
    decPk8M (fld w 0 2) >>= fun m =>
    .ok (.pk8 (nBit w) d a b m)
  | 7 =>
    decDst (fld w 16 7) >>= fun d =>
    decSrc (fld w 9 7) >>= fun a =>
    decSrc (fld w 2 7) >>= fun b =>
    decF8 (fld w 0 2) >>= fun m =>
    .ok (.upk8 (nBit w) d a b m)
  | _ => .error .reservedOpcode

/-- Block 0x8_ of the opcode map: the low nibble and the word. -/
def decBlock8 (k w : Nat) : Except Reject Instr :=
  match k with
  | 0 =>
    nZero w >>= fun _ =>
    decDst (fld w 16 7) >>= fun d =>
    decSrc (fld w 9 7) >>= fun a =>
    .ok (.ldb d a (BitVec.ofNat 9 (fld w 0 9)))
  | 1 =>
    nZero w >>= fun _ =>
    decDst (fld w 16 7) >>= fun d =>
    decSrc (fld w 9 7) >>= fun a =>
    .ok (.ldbs d a (BitVec.ofNat 9 (fld w 0 9)))
  | 2 =>
    nZero w >>= fun _ =>
    decDst (fld w 16 7) >>= fun d =>
    decSrc (fld w 9 7) >>= fun a =>
    .ok (.ldh d a (BitVec.ofNat 9 (fld w 0 9)))
  | 3 =>
    nZero w >>= fun _ =>
    decDst (fld w 16 7) >>= fun d =>
    decSrc (fld w 9 7) >>= fun a =>
    .ok (.ldhs d a (BitVec.ofNat 9 (fld w 0 9)))
  | 4 =>
    nZero w >>= fun _ =>
    decDst (fld w 16 7) >>= fun d =>
    decSrc (fld w 9 7) >>= fun a =>
    .ok (.ldw d a (BitVec.ofNat 9 (fld w 0 9)))
  | 5 =>
    nZero w >>= fun _ =>
    decDst (fld w 16 7) >>= fun d =>
    decSrc (fld w 9 7) >>= fun a =>
    .ok (.ldd d a (BitVec.ofNat 9 (fld w 0 9)))
  | 6 =>
    nZero w >>= fun _ =>
    decDst (fld w 16 7) >>= fun d =>
    decSrc (fld w 9 7) >>= fun a =>
    .ok (.ldq d a (BitVec.ofNat 9 (fld w 0 9)))
  | 7 =>
    nZero w >>= fun _ =>
    decSrc (fld w 16 7) >>= fun e =>
    decSrc (fld w 9 7) >>= fun a =>
    .ok (.stb e a (BitVec.ofNat 9 (fld w 0 9)))
  | 8 =>
    nZero w >>= fun _ =>
    decSrc (fld w 16 7) >>= fun e =>
    decSrc (fld w 9 7) >>= fun a =>
    .ok (.sth e a (BitVec.ofNat 9 (fld w 0 9)))
  | 9 =>
    nZero w >>= fun _ =>
    decSrc (fld w 16 7) >>= fun e =>
    decSrc (fld w 9 7) >>= fun a =>
    .ok (.stw e a (BitVec.ofNat 9 (fld w 0 9)))
  | 10 =>
    nZero w >>= fun _ =>
    decSrc (fld w 16 7) >>= fun e =>
    decSrc (fld w 9 7) >>= fun a =>
    .ok (.std e a (BitVec.ofNat 9 (fld w 0 9)))
  | 11 =>
    nZero w >>= fun _ =>
    decSrc (fld w 16 7) >>= fun e =>
    decSrc (fld w 9 7) >>= fun a =>
    .ok (.stq e a (BitVec.ofNat 9 (fld w 0 9)))
  | 12 =>
    nZero w >>= fun _ =>
    decDst (fld w 16 7) >>= fun d =>
    decSrc (fld w 9 7) >>= fun a =>
    decSrc (fld w 2 7) >>= fun b =>
    decWid (fld w 0 2) >>= fun m =>
    .ok (.ldx d a b m)
  | 13 =>
    nZero w >>= fun _ =>
    decSrc (fld w 16 7) >>= fun e =>
    decSrc (fld w 9 7) >>= fun a =>
    decSrc (fld w 2 7) >>= fun b =>
    decWid (fld w 0 2) >>= fun m =>
    .ok (.stx e a b m)
  | 14 =>
    nZero w >>= fun _ =>
    decDst (fld w 16 7) >>= fun d =>
    decSrc (fld w 9 7) >>= fun a =>
    .ok (.ldu d a (BitVec.ofNat 9 (fld w 0 9)))
  | 15 =>
    nZero w >>= fun _ =>
    unusedOp (fld w 16 7) >>= fun _ =>
    decSrc (fld w 9 7) >>= fun a =>
    decSrc (fld w 2 7) >>= fun b =>
    needM (fld w 0 2) 1 >>= fun _ =>
    .ok (.pref a b)
  | _ => .error .reservedOpcode

/-- Block 0x9_ of the opcode map: the low nibble and the word. -/
def decBlock9 (k w : Nat) : Except Reject Instr :=
  match k with
  | 0 =>
    nZero w >>= fun _ =>
    decDst (fld w 16 7) >>= fun d =>
    decSrc (fld w 9 7) >>= fun a =>
    .ok (.lds d a (BitVec.ofNat 9 (fld w 0 9)))
  | 1 =>
    nZero w >>= fun _ =>
    decSrc (fld w 16 7) >>= fun e =>
    decSrc (fld w 9 7) >>= fun a =>
    .ok (.sts e a (BitVec.ofNat 9 (fld w 0 9)))
  | 2 =>
    nZero w >>= fun _ =>
    decDst (fld w 16 7) >>= fun d =>
    decSrc (fld w 9 7) >>= fun a =>
    decSrc (fld w 2 7) >>= fun b =>
    decWid (fld w 0 2) >>= fun m =>
    .ok (.ldsx d a b m)
  | 3 =>
    nZero w >>= fun _ =>
    decSrc (fld w 16 7) >>= fun e =>
    decSrc (fld w 9 7) >>= fun a =>
    decSrc (fld w 2 7) >>= fun b =>
    decWid (fld w 0 2) >>= fun m =>
    .ok (.stsx e a b m)
  | 4 =>
    nZero w >>= fun _ =>
    decDst (fld w 16 7) >>= fun d =>
    decSrc (fld w 9 7) >>= fun a =>
    .ok (.ldl d a (BitVec.ofNat 9 (fld w 0 9)))
  | 5 =>
    nZero w >>= fun _ =>
    decSrc (fld w 16 7) >>= fun e =>
    decSrc (fld w 9 7) >>= fun a =>
    .ok (.stl e a (BitVec.ofNat 9 (fld w 0 9)))
  | 6 =>
    nZero w >>= fun _ =>
    decDst (fld w 16 7) >>= fun d =>
    decSrc (fld w 9 7) >>= fun a =>
    decSrc (fld w 2 7) >>= fun b =>
    decBlkW (fld w 0 2) >>= fun m =>
    .ok (.ldlb d a b m)
  | 7 =>
    nZero w >>= fun _ =>
    decSrc (fld w 16 7) >>= fun e =>
    decSrc (fld w 9 7) >>= fun a =>
    decSrc (fld w 2 7) >>= fun b =>
    decBlkW (fld w 0 2) >>= fun m =>
    .ok (.stlb e a b m)
  | 8 =>
    nZero w >>= fun _ =>
    decDst (fld w 16 7) >>= fun d =>
    decSrc (fld w 9 7) >>= fun a =>
    decSrc (fld w 2 7) >>= fun b =>
    decHwM (fld w 0 2) >>= fun m =>
    .ok (.ldhw d a b m)
  | 9 =>
    nZero w >>= fun _ =>
    decSrc (fld w 16 7) >>= fun e =>
    decSrc (fld w 9 7) >>= fun a =>
    decSrc (fld w 2 7) >>= fun b =>
    decHwM (fld w 0 2) >>= fun m =>
    .ok (.sthw e a b m)
  | 10 =>
    nZero w >>= fun _ =>
    unusedOp (fld w 16 7) >>= fun _ =>
    decSrc (fld w 9 7) >>= fun a =>
    decSrc (fld w 2 7) >>= fun b =>
    decSpc (fld w 0 2) >>= fun m =>
    .ok (.alloc a b m)
  | 11 =>
    nZero w >>= fun _ =>
    unusedOp (fld w 16 7) >>= fun _ =>
    decSrc (fld w 9 7) >>= fun a =>
    decSrc (fld w 2 7) >>= fun b =>
    decSpc (fld w 0 2) >>= fun m =>
    .ok (.free a b m)
  | 12 =>
    nZero w >>= fun _ =>
    unusedOp (fld w 16 7) >>= fun _ =>
    decSrc (fld w 9 7) >>= fun a =>
    decSrc (fld w 2 7) >>= fun b =>
    decSpc (fld w 0 2) >>= fun m =>
    .ok (.life a b m)
  | 13 =>
    nZero w >>= fun _ =>
    decDst (fld w 16 7) >>= fun d =>
    decSrc (fld w 9 7) >>= fun a =>
    unusedOp (fld w 2 7) >>= fun _ =>
    decSpc (fld w 0 2) >>= fun m =>
    .ok (.expq d a m)
  | _ => .error .reservedOpcode

/-- Block 0xA_ of the opcode map: the low nibble and the word. -/
def decBlockA (k w : Nat) : Except Reject Instr :=
  match k with
  | 0 =>
    nZero w >>= fun _ =>
    decDst (fld w 16 7) >>= fun d =>
    decSrc (fld w 9 7) >>= fun a =>
    decSrc (fld w 2 7) >>= fun b =>
    decW2 (fld w 0 2) >>= fun m =>
    .ok (.aadd d a b m)
  | 1 =>
    nZero w >>= fun _ =>
    decDst (fld w 16 7) >>= fun d =>
    decSrc (fld w 9 7) >>= fun a =>
    decSrc (fld w 2 7) >>= fun b =>
    decAtI (fld w 0 2) >>= fun m =>
    .ok (.amin d a b m)
  | 2 =>
    nZero w >>= fun _ =>
    decDst (fld w 16 7) >>= fun d =>
    decSrc (fld w 9 7) >>= fun a =>
    decSrc (fld w 2 7) >>= fun b =>
    decAtN (fld w 0 2) >>= fun m =>
    .ok (.aminn d a b m)
  | 3 =>
    nZero w >>= fun _ =>
    decDst (fld w 16 7) >>= fun d =>
    decSrc (fld w 9 7) >>= fun a =>
    decSrc (fld w 2 7) >>= fun b =>
    decAtI (fld w 0 2) >>= fun m =>
    .ok (.amax d a b m)
  | 4 =>
    nZero w >>= fun _ =>
    decDst (fld w 16 7) >>= fun d =>
    decSrc (fld w 9 7) >>= fun a =>
    decSrc (fld w 2 7) >>= fun b =>
    decAtN (fld w 0 2) >>= fun m =>
    .ok (.amaxn d a b m)
  | 5 =>
    nZero w >>= fun _ =>
    decDst (fld w 16 7) >>= fun d =>
    decSrc (fld w 9 7) >>= fun a =>
    decSrc (fld w 2 7) >>= fun b =>
    decW2 (fld w 0 2) >>= fun m =>
    .ok (.aand d a b m)
  | 6 =>
    nZero w >>= fun _ =>
    decDst (fld w 16 7) >>= fun d =>
    decSrc (fld w 9 7) >>= fun a =>
    decSrc (fld w 2 7) >>= fun b =>
    decW2 (fld w 0 2) >>= fun m =>
    .ok (.aor d a b m)
  | 7 =>
    nZero w >>= fun _ =>
    decDst (fld w 16 7) >>= fun d =>
    decSrc (fld w 9 7) >>= fun a =>
    decSrc (fld w 2 7) >>= fun b =>
    decW2 (fld w 0 2) >>= fun m =>
    .ok (.axor d a b m)
  | 8 =>
    nZero w >>= fun _ =>
    decDst (fld w 16 7) >>= fun d =>
    decSrc (fld w 9 7) >>= fun a =>
    decSrc (fld w 2 7) >>= fun b =>
    decW2 (fld w 0 2) >>= fun m =>
    .ok (.axch d a b m)
  | 9 =>
    nZero w >>= fun _ =>
    decDst (fld w 16 7) >>= fun d =>
    decSrc (fld w 9 7) >>= fun a =>
    decSrc (fld w 2 7) >>= fun b =>
    decW2 (fld w 0 2) >>= fun m =>
    .ok (.acas d a b m)
  | 10 =>
    nZero w >>= fun _ =>
    decDst (fld w 16 7) >>= fun d =>
    decSrc (fld w 9 7) >>= fun a =>
    decSrc (fld w 2 7) >>= fun b =>
    decAfaddM (fld w 0 2) >>= fun m =>
    .ok (.afadd d a b m)
  | 11 =>
    nZero w >>= fun _ =>
    decDst (fld w 16 7) >>= fun d =>
    decSrc (fld w 9 7) >>= fun a =>
    decSrc (fld w 2 7) >>= fun b =>
    decMinMax (fld w 0 2) >>= fun m =>
    .ok (.afmin d a b m)
  | 12 =>
    nZero w >>= fun _ =>
    decDst (fld w 16 7) >>= fun d =>
    decSrc (fld w 9 7) >>= fun a =>
    decSrc (fld w 2 7) >>= fun b =>
    decIncM (fld w 0 2) >>= fun m =>
    .ok (.ainc d a b m)
  | 13 =>
    nZero w >>= fun _ =>
    decDst (fld w 16 7) >>= fun d =>
    decSrc (fld w 9 7) >>= fun a =>
    decSrc (fld w 2 7) >>= fun b =>
    decAsaddM (fld w 0 2) >>= fun m =>
    .ok (.asadd d a b m)
  | 14 =>
    nZero w >>= fun _ =>
    decDst (fld w 16 7) >>= fun d =>
    decSrc (fld w 9 7) >>= fun a =>
    decSrc (fld w 2 7) >>= fun b =>
    decSgn32 (fld w 0 2) >>= fun m =>
    .ok (.asmin d a b m)
  | 15 =>
    nZero w >>= fun _ =>
    decDst (fld w 16 7) >>= fun d =>
    decSrc (fld w 9 7) >>= fun a =>
    decSrc (fld w 2 7) >>= fun b =>
    decW2 (fld w 0 2) >>= fun m =>
    .ok (.ascas d a b m)
  | _ => .error .reservedOpcode

/-- Block 0xB_ of the opcode map: the low nibble and the word. -/
def decBlockB (k w : Nat) : Except Reject Instr :=
  match k with
  | 0 =>
    nZero w >>= fun _ =>
    unusedOp (fld w 16 7) >>= fun _ =>
    needF (fld w 4 12 == 0) >>= fun _ =>
    decScope (fld w 0 4) >>= fun sc =>
    .ok (.pub sc)
  | 1 =>
    nZero w >>= fun _ =>
    unusedOp (fld w 16 7) >>= fun _ =>
    needF (fld w 4 12 == 0) >>= fun _ =>
    decScope (fld w 0 4) >>= fun sc =>
    .ok (.acq sc)
  | 2 =>
    nZero w >>= fun _ =>
    unusedOp (fld w 16 7) >>= fun _ =>
    needF (fld w 0 16 == 0) >>= fun _ =>
    .ok .fence
  | 3 =>
    nZero w >>= fun _ =>
    unusedOp (fld w 16 7) >>= fun _ =>
    needF (fld w 9 7 == 0) >>= fun _ =>
    decPub (fld w 4 1) (fld w 5 4) >>= fun pub =>
    .ok (.bar pub ⟨fld w 0 4, Nat.mod_lt _ (by decide)⟩)
  | 4 =>
    nZero w >>= fun _ =>
    unusedOp (fld w 16 7) >>= fun _ =>
    needF (fld w 9 7 == 0) >>= fun _ =>
    decPub (fld w 4 1) (fld w 5 4) >>= fun pub =>
    .ok (.bara pub ⟨fld w 0 4, Nat.mod_lt _ (by decide)⟩)
  | 5 =>
    nZero w >>= fun _ =>
    unusedOp (fld w 16 7) >>= fun _ =>
    needF (fld w 9 7 == 0) >>= fun _ =>
    decPub (fld w 4 1) (fld w 5 4) >>= fun pub =>
    .ok (.barw pub ⟨fld w 0 4, Nat.mod_lt _ (by decide)⟩)
  | 6 =>
    nZero w >>= fun _ =>
    unusedOp (fld w 16 7) >>= fun _ =>
    needF (fld w 4 12 == 0) >>= fun _ =>
    decScope (fld w 0 4) >>= fun sc =>
    .ok (.phase sc)
  | 7 =>
    nZero w >>= fun _ =>
    unusedOp (fld w 16 7) >>= fun _ =>
    needF (fld w 10 6 == 0) >>= fun _ =>
    decEngC (fld w 8 2) >>= fun k =>
    .ok (.wait k (BitVec.ofNat 8 (fld w 0 8)))
  | _ => .error .reservedOpcode

/-- Block 0xC_ of the opcode map: the low nibble and the word. -/
def decBlockC (k w : Nat) : Except Reject Instr :=
  match k with
  | 0 =>
    nZero w >>= fun _ =>
    decDst (fld w 16 7) >>= fun d =>
    decSrc (fld w 9 7) >>= fun a =>
    decSrc (fld w 2 7) >>= fun b =>
    decMmaM (fld w 0 2) >>= fun m =>
    .ok (.mma d a b m)
  | 1 =>
    nZero w >>= fun _ =>
    decDst (fld w 16 7) >>= fun d =>
    decSrc (fld w 9 7) >>= fun a =>
    decSrc (fld w 2 7) >>= fun b =>
    decF8P (fld w 0 2) >>= fun m =>
    .ok (.mmas d a b m)
  | 2 =>
    nZero w >>= fun _ =>
    decDst (fld w 16 7) >>= fun d =>
    decSrc (fld w 9 7) >>= fun a =>
    decSrc (fld w 2 7) >>= fun b =>
    decF8P (fld w 0 2) >>= fun m =>
    .ok (.mmaf d a b m)
  | 3 =>
    nZero w >>= fun _ =>
    unusedOp (fld w 16 7) >>= fun _ =>
    decSrc (fld w 9 7) >>= fun a =>
    decSrc (fld w 2 7) >>= fun b =>
    needM (fld w 0 2) 1 >>= fun _ =>
    .ok (.gang a b)
  | 4 =>
    nZero w >>= fun _ =>
    decDst (fld w 16 7) >>= fun d =>
    decSrc (fld w 9 7) >>= fun a =>
    unusedOp (fld w 2 7) >>= fun _ =>
    needM (fld w 0 2) 1 >>= fun _ =>
    .ok (.gath d a)
  | 5 =>
    nZero w >>= fun _ =>
    decDst (fld w 16 7) >>= fun d =>
    decSrc (fld w 9 7) >>= fun a =>
    unusedOp (fld w 2 7) >>= fun _ =>
    needM (fld w 0 2) 1 >>= fun _ =>
    .ok (.cpy d a)
  | 6 =>
    nZero w >>= fun _ =>
    decDst (fld w 16 7) >>= fun d =>
    decSrc (fld w 9 7) >>= fun a =>
    unusedOp (fld w 2 7) >>= fun _ =>
    needM (fld w 0 2) 1 >>= fun _ =>
    .ok (.cpyt d a)
  | 7 =>
    nZero w >>= fun _ =>
    decDst (fld w 16 7) >>= fun d =>
    decSrc (fld w 9 7) >>= fun a =>
    unusedOp (fld w 2 7) >>= fun _ =>
    decCollM (fld w 0 2) >>= fun m =>
    .ok (.coll d a m)
  | 8 =>
    nZero w >>= fun _ =>
    unusedOp (fld w 16 7) >>= fun _ =>
    unusedOp (fld w 9 7) >>= fun _ =>
    unusedOp (fld w 2 7) >>= fun _ =>
    needM (fld w 0 2) 1 >>= fun _ =>
    .ok .accz
  | 9 =>
    nZero w >>= fun _ =>
    decDst (fld w 16 7) >>= fun d =>
    unusedOp (fld w 9 7) >>= fun _ =>
    unusedOp (fld w 2 7) >>= fun _ =>
    needM (fld w 0 2) 1 >>= fun _ =>
    .ok (.mmaq d)
  | _ => .error .reservedOpcode

/-- Block 0xD_ of the opcode map: the low nibble and the word. -/
def decBlockD (k w : Nat) : Except Reject Instr :=
  match k with
  | 0 =>
    nZero w >>= fun _ =>
    unusedOp (fld w 16 7) >>= fun _ =>
    decSrc (fld w 9 7) >>= fun a =>
    decSrc (fld w 2 7) >>= fun b =>
    needM (fld w 0 2) 1 >>= fun _ =>
    .ok (.qput a b)
  | 1 =>
    match fld w 0 2 with
    | 0 =>
      nZero w >>= fun _ =>
      decDst (fld w 16 7) >>= fun d =>
      decSrc (fld w 9 7) >>= fun a =>
      unusedOp (fld w 2 7) >>= fun _ =>
      .ok (.qtakeQ d a)
    | 1 =>
      nZero w >>= fun _ =>
      decDst (fld w 16 7) >>= fun d =>
      unusedOp (fld w 9 7) >>= fun _ =>
      unusedOp (fld w 2 7) >>= fun _ =>
      .ok (.qtakeStage d)
    | _ => .error .reservedM
  | 2 =>
    nZero w >>= fun _ =>
    decSrc (fld w 16 7) >>= fun e =>
    decSrc (fld w 9 7) >>= fun a =>
    decSrc (fld w 2 7) >>= fun b =>
    needM (fld w 0 2) 1 >>= fun _ =>
    .ok (.qmput e a b)
  | 3 =>
    nZero w >>= fun _ =>
    unusedOp (fld w 16 7) >>= fun _ =>
    decSrc (fld w 9 7) >>= fun a =>
    unusedOp (fld w 2 7) >>= fun _ =>
    needM (fld w 0 2) 1 >>= fun _ =>
    .ok (.qrel a)
  | 4 =>
    nZero w >>= fun _ =>
    unusedOp (fld w 16 7) >>= fun _ =>
    decSrc (fld w 9 7) >>= fun a =>
    unusedOp (fld w 2 7) >>= fun _ =>
    needM (fld w 0 2) 1 >>= fun _ =>
    .ok (.spawn a)
  | 5 =>
    nZero w >>= fun _ =>
    unusedOp (fld w 16 7) >>= fun _ =>
    decSrc (fld w 9 7) >>= fun a =>
    needF (fld w 4 5 == 0) >>= fun _ =>
    decScope (fld w 0 4) >>= fun sc =>
    .ok (.join a sc)
  | 6 =>
    nZero w >>= fun _ =>
    decDst (fld w 16 7) >>= fun d =>
    decSrc (fld w 9 7) >>= fun a =>
    unusedOp (fld w 2 7) >>= fun _ =>
    decQstatM (fld w 0 2) >>= fun m =>
    .ok (.qstat d a m)
  | 7 =>
    nZero w >>= fun _ =>
    unusedOp (fld w 16 7) >>= fun _ =>
    unusedOp (fld w 9 7) >>= fun _ =>
    unusedOp (fld w 2 7) >>= fun _ =>
    needM (fld w 0 2) 1 >>= fun _ =>
    .ok .yieldI
  | _ => .error .reservedOpcode

/-- Block 0xE_ of the opcode map: the low nibble and the word. -/
def decBlockE (k w : Nat) : Except Reject Instr :=
  match k with
  | 0 =>
    match fld w 0 2 with
    | 0 =>
      nZero w >>= fun _ =>
      unusedOp (fld w 16 7) >>= fun _ =>
      decSrc (fld w 9 7) >>= fun a =>
      unusedOp (fld w 2 7) >>= fun _ =>
      .ok (.trap a)
    | 1 =>
      nZero w >>= fun _ =>
      unusedOp (fld w 16 7) >>= fun _ =>
      unusedOp (fld w 9 7) >>= fun _ =>
      unusedOp (fld w 2 7) >>= fun _ =>
      .ok .trapRet
    | 2 =>
      nZero w >>= fun _ =>
      unusedOp (fld w 16 7) >>= fun _ =>
      unusedOp (fld w 9 7) >>= fun _ =>
      unusedOp (fld w 2 7) >>= fun _ =>
      .ok .trapNext
    | _ => .error .reservedM
  | 1 =>
    nZero w >>= fun _ =>
    unusedOp (fld w 16 7) >>= fun _ =>
    .ok (.live (BitVec.ofNat 16 (fld w 0 16)))
  | 2 =>
    nZero w >>= fun _ =>
    unusedOp (fld w 16 7) >>= fun _ =>
    .ok (.region (BitVec.ofNat 16 (fld w 0 16)))
  | 3 =>
    nZero w >>= fun _ =>
    decDst (fld w 16 7) >>= fun d =>
    unusedOp (fld w 9 7) >>= fun _ =>
    unusedOp (fld w 2 7) >>= fun _ =>
    decAssayM (fld w 0 2) >>= fun m =>
    .ok (.assay d m)
  | 4 =>
    decDst (fld w 16 7) >>= fun d =>
    .ok (.rdsr (nBit w) d (BitVec.ofNat 16 (fld w 0 16)))
  | 5 =>
    nZero w >>= fun _ =>
    decSrc (fld w 16 7) >>= fun e =>
    .ok (.wrsr e (BitVec.ofNat 16 (fld w 0 16)))
  | 6 =>
    nZero w >>= fun _ =>
    unusedOp (fld w 16 7) >>= fun _ =>
    .ok (.bkpt (BitVec.ofNat 16 (fld w 0 16)))
  | 7 =>
    nZero w >>= fun _ =>
    unusedOp (fld w 16 7) >>= fun _ =>
    decSrc (fld w 9 7) >>= fun a =>
    unusedOp (fld w 2 7) >>= fun _ =>
    decDbgmM (fld w 0 2) >>= fun m =>
    .ok (.dbgm a m)
  | 8 =>
    nZero w >>= fun _ =>
    unusedOp (fld w 16 7) >>= fun _ =>
    decSrc (fld w 9 7) >>= fun a =>
    decSrc (fld w 2 7) >>= fun b =>
    decWatchM (fld w 0 2) >>= fun m =>
    .ok (.watch a b m)
  | 9 =>
    nZero w >>= fun _ =>
    unusedOp (fld w 16 7) >>= fun _ =>
    decSrc (fld w 9 7) >>= fun a =>
    unusedOp (fld w 2 7) >>= fun _ =>
    needM (fld w 0 2) 1 >>= fun _ =>
    .ok (.sleep a)
  | 10 =>
    nZero w >>= fun _ =>
    unusedOp (fld w 16 7) >>= fun _ =>
    needF (fld w 2 14 == 0) >>= fun _ =>
    decTClass (fld w 0 2) >>= fun c =>
    .ok (.clas c)
  | _ => .error .reservedOpcode

/-- The decoder, on the word as a number: major opcode, then fields (R253, R268). -/
def decodeNat (w : Nat) : Except Reject Instr :=
  match fld w 28 4 with
  | 0 => decBlock0 (fld w 24 4) w
  | 1 => decBlock1 (fld w 24 4) w
  | 2 => decBlock2 (fld w 24 4) w
  | 3 => decBlock3 (fld w 24 4) w
  | 4 => decBlock4 (fld w 24 4) w
  | 5 => decBlock5 (fld w 24 4) w
  | 6 => decBlock6 (fld w 24 4) w
  | 7 => decBlock7 (fld w 24 4) w
  | 8 => decBlock8 (fld w 24 4) w
  | 9 => decBlock9 (fld w 24 4) w
  | 10 => decBlockA (fld w 24 4) w
  | 11 => decBlockB (fld w 24 4) w
  | 12 => decBlockC (fld w 24 4) w
  | 13 => decBlockD (fld w 24 4) w
  | 14 => decBlockE (fld w 24 4) w
  | _ => .error .reservedOpcode

/-- The decoder. -/
def decode (w : Word) : Except Reject Instr := decodeNat w.toNat

/-- R264, R265: what the fetched word executes as: a word that is no instruction executes as RESERVED_ENCODING. -/
def fetched (w : Word) : Instr :=
  match decode w with
  | .ok i => i
  | .error _ => .reservedEncoding w

/-- The word of four bytes, lowest address first (R5). -/
def wordOfBytes (b0 b1 b2 b3 : Byte) : Word := b3 ++ b2 ++ b1 ++ b0

/-- R256. -/
def encSrc : Src → Nat
  | .v i => i.val | .s i => 80 + i.val | .z => 112 | .tix => 113 | .prv => 114 | .gix => 115 | .bix => 116 | .phx => 117
  | .b k => 120 + k.val

/-- R257. -/
def encDst : Dst → Nat
  | .v i => i.val | .s i => 80 + i.val | .discard => 112

def bit (b : Bool) : Nat := if b then 1 else 0

/-- The five formats of R253. -/
def wT (op n d a b m : Nat) : Nat := op * 2 ^ 24 + n * 2 ^ 23 + d * 2 ^ 16 + a * 2 ^ 9 + b * 2 ^ 2 + m
def wI (op n d a i : Nat) : Nat := op * 2 ^ 24 + n * 2 ^ 23 + d * 2 ^ 16 + a * 2 ^ 9 + i
def wK (op n d i : Nat) : Nat := op * 2 ^ 24 + n * 2 ^ 23 + d * 2 ^ 16 + i
def wC (op h a p : Nat) : Nat := op * 2 ^ 24 + h * 2 ^ 23 + a * 2 ^ 16 + p
def wJ (op p : Nat) : Nat := op * 2 ^ 24 + p

/-- The word of an instruction as a number; events have none (0). -/
def encodeNat : Instr → Nat
  | .nop => wJ 0x00 0
  | .bra p => wJ 0x01 p.toNat
  | .call n d a m => wT 0x02 (bit n) (encDst d) (encSrc a) 112 (encTgt m)
  | .ret a => wT 0x03 0 112 (encSrc a) 112 0
  | .jmpr a m => wT 0x04 0 112 (encSrc a) 112 (encTgt m)
  | .brz h a p => wC 0x05 (bit h) (encSrc a) p.toNat
  | .brnz h a p => wC 0x06 (bit h) (encSrc a) p.toNat
  | .brlt h a p => wC 0x07 (bit h) (encSrc a) p.toNat
  | .brge h a p => wC 0x08 (bit h) (encSrc a) p.toNat
  | .meet p => wC 0x09 0 112 p.toNat
  | .repack a p => wC 0x0A 0 (encSrc a) p.toNat
  | .loop a p => wC 0x0B 0 (encSrc a) p.toNat
  | .exit => wJ 0x0C 0
  | .winb vq sq => wK 0x0D 0 112 (vq.val * 2 ^ 8 + sq.val)
  | .add n d a b m => wT 0x10 (bit n) (encDst d) (encSrc a) (encSrc b) (encAri m)
  | .sub n d a b m => wT 0x11 (bit n) (encDst d) (encSrc a) (encSrc b) (encAri m)
  | .mul n d a b m => wT 0x12 (bit n) (encDst d) (encSrc a) (encSrc b) (encAri m)
  | .mad n d a b m => wT 0x13 (bit n) (encDst d) (encSrc a) (encSrc b) (encAri m)
  | .div n d a b m => wT 0x14 (bit n) (encDst d) (encSrc a) (encSrc b) (encInt4 m)
  | .rem n d a b m => wT 0x15 (bit n) (encDst d) (encSrc a) (encSrc b) (encInt4 m)
  | .min n d a b m => wT 0x16 (bit n) (encDst d) (encSrc a) (encSrc b) (encInt4 m)
  | .max n d a b m => wT 0x17 (bit n) (encDst d) (encSrc a) (encSrc b) (encInt4 m)
  | .abs n d a m => wT 0x18 (bit n) (encDst d) (encSrc a) 112 (encUn3 m)
  | .neg n d a m => wT 0x19 (bit n) (encDst d) (encSrc a) 112 (encUn3 m)
  | .cmp n d a b m => wT 0x1A (bit n) (encDst d) (encSrc a) (encSrc b) (encCmpM m)
  | .cmpe n d a b m => wT 0x1B (bit n) (encDst d) (encSrc a) (encSrc b) (encCmpeM m)
  | .sel n d a b m => wT 0x1C (bit n) (encDst d) (encSrc a) (encSrc b) (encW2 m)
  | .lea n d a b m => wT 0x1D (bit n) (encDst d) (encSrc a) (encSrc b) (encScale m)
  | .mulw n d a b m => wT 0x1E (bit n) (encDst d) (encSrc a) (encSrc b) (encMulwM m)
  | .clamp n d a b m => wT 0x1F (bit n) (encDst d) (encSrc a) (encSrc b) (encSgn32 m)
  | .and n d a b m => wT 0x20 (bit n) (encDst d) (encSrc a) (encSrc b) (encW2 m)
  | .or n d a b m => wT 0x21 (bit n) (encDst d) (encSrc a) (encSrc b) (encW2 m)
  | .xor n d a b m => wT 0x22 (bit n) (encDst d) (encSrc a) (encSrc b) (encW2 m)
  | .andn n d a b m => wT 0x23 (bit n) (encDst d) (encSrc a) (encSrc b) (encW2 m)
  | .orn n d a b m => wT 0x24 (bit n) (encDst d) (encSrc a) (encSrc b) (encW2 m)
  | .xnor n d a b m => wT 0x25 (bit n) (encDst d) (encSrc a) (encSrc b) (encW2 m)
  | .shl n d a b m => wT 0x26 (bit n) (encDst d) (encSrc a) (encSrc b) (encW2 m)
  | .shr n d a b m => wT 0x27 (bit n) (encDst d) (encSrc a) (encSrc b) (encW2 m)
  | .sar n d a b m => wT 0x28 (bit n) (encDst d) (encSrc a) (encSrc b) (encW2 m)
  | .rot n d a b m => wT 0x29 (bit n) (encDst d) (encSrc a) (encSrc b) (encRotM m)
  | .extf n d a b m => wT 0x2A (bit n) (encDst d) (encSrc a) (encSrc b) (encExtfM m)
  | .depf n d a b => wT 0x2B (bit n) (encDst d) (encSrc a) (encSrc b) 0
  | .popc n d a m => wT 0x2C (bit n) (encDst d) (encSrc a) 112 (encW2 m)
  | .clz n d a m => wT 0x2D (bit n) (encDst d) (encSrc a) 112 (encW2 m)
  | .ctz n d a m => wT 0x2E (bit n) (encDst d) (encSrc a) 112 (encW2 m)
  | .brev n d a m => wT 0x2F (bit n) (encDst d) (encSrc a) 112 (encW2 m)
  | .addi n d a i => wI 0x30 (bit n) (encDst d) (encSrc a) i.toNat
  | .muli n d a i => wI 0x31 (bit n) (encDst d) (encSrc a) i.toNat
  | .andi n d a i => wI 0x32 (bit n) (encDst d) (encSrc a) i.toNat
  | .ori n d a i => wI 0x33 (bit n) (encDst d) (encSrc a) i.toNat
  | .xori n d a i => wI 0x34 (bit n) (encDst d) (encSrc a) i.toNat
  | .shli n d a i => wI 0x35 (bit n) (encDst d) (encSrc a) i.toNat
  | .shri n d a i => wI 0x36 (bit n) (encDst d) (encSrc a) i.toNat
  | .sari n d a i => wI 0x37 (bit n) (encDst d) (encSrc a) i.toNat
  | .cmpieq n d a i => wI 0x38 (bit n) (encDst d) (encSrc a) i.toNat
  | .cmpilt n d a i => wI 0x39 (bit n) (encDst d) (encSrc a) i.toNat
  | .cmpiltn n d a i => wI 0x3A (bit n) (encDst d) (encSrc a) i.toNat
  | .mini n d a i => wI 0x3B (bit n) (encDst d) (encSrc a) i.toNat
  | .ldk n d i => wK 0x3C (bit n) (encDst d) i.toNat
  | .ldkh n d i => wK 0x3D (bit n) (encDst d) i.toNat
  | .mov n d a m => wT 0x3E (bit n) (encDst d) (encSrc a) 112 (encMovM m)
  | .mort n d a b m => wT 0x3F (bit n) (encDst d) (encSrc a) (encSrc b) (encDimM m)
  | .seedc a => wT 0x40 0 112 (encSrc a) 112 0
  | .rdtail n d => wT 0x41 (bit n) (encDst d) 112 112 0
  | .red n d a m => wT 0x42 (bit n) (encDst d) (encSrc a) 112 (encRedM m)
  | .redf n d a m => wT 0x43 (bit n) (encDst d) (encSrc a) 112 (encRedfM m)
  | .tshb n d a b m => wT 0x44 (bit n) (encDst d) (encSrc a) (encSrc b) (encFillM m)
  | .tshf n d a b m => wT 0x45 (bit n) (encDst d) (encSrc a) (encSrc b) (encFillM m)
  | .tbcst n d a b => wT 0x46 (bit n) (encDst d) (encSrc a) (encSrc b) 0
  | .poll n d a m => wT 0x47 (bit n) (encDst d) (encSrc a) 112 (encPollM m)
  | .qswp n d a m => wT 0x48 (bit n) (encDst d) (encSrc a) 112 (encQswpM m)
  | .qred n d a m => wT 0x49 (bit n) (encDst d) (encSrc a) 112 (encQredM m)
  | .help n d => wT 0x4A (bit n) (encDst d) 112 112 0
  | .cellh n d a b m => wT 0x4B (bit n) (encDst d) (encSrc a) (encSrc b) (encDimM m)
  | .tmask n d m => wT 0x4C (bit n) (encDst d) 112 112 (encTmaskM m)
  | .tpos n d a m => wT 0x4D (bit n) (encDst d) (encSrc a) 112 (encTposM m)
  | .fadd n d a b m => wT 0x50 (bit n) (encDst d) (encSrc a) (encSrc b) (encRnd m)
  | .fsub n d a b m => wT 0x51 (bit n) (encDst d) (encSrc a) (encSrc b) (encRnd m)
  | .fmul n d a b m => wT 0x52 (bit n) (encDst d) (encSrc a) (encSrc b) (encRnd m)
  | .ffma n d a b m => wT 0x53 (bit n) (encDst d) (encSrc a) (encSrc b) (encRnd m)
  | .fmin n d a b => wT 0x54 (bit n) (encDst d) (encSrc a) (encSrc b) 0
  | .fmax n d a b => wT 0x55 (bit n) (encDst d) (encSrc a) (encSrc b) 0
  | .fcmp n d a b m => wT 0x56 (bit n) (encDst d) (encSrc a) (encSrc b) (encFcc m)
  | .fsgn n d a b m => wT 0x57 (bit n) (encDst d) (encSrc a) (encSrc b) (encFsgnM m)
  | .pkadd n d a b m => wT 0x58 (bit n) (encDst d) (encSrc a) (encSrc b) (encPkM m)
  | .pkmul n d a b m => wT 0x59 (bit n) (encDst d) (encSrc a) (encSrc b) (encPkM m)
  | .pkfma n d a b m => wT 0x5A (bit n) (encDst d) (encSrc a) (encSrc b) (encPkM m)
  | .fdiv n d a b m => wT 0x5B (bit n) (encDst d) (encSrc a) (encSrc b) (encRnd m)
  | .fsqrt n d a m => wT 0x5C (bit n) (encDst d) (encSrc a) 112 (encRnd m)
  | .frnd n d a m => wT 0x5D (bit n) (encDst d) (encSrc a) 112 (encRnd m)
  | .fclass n d a => wT 0x5E (bit n) (encDst d) (encSrc a) 112 0
  | .fscl n d a b m => wT 0x5F (bit n) (encDst d) (encSrc a) (encSrc b) (encRnd m)
  | .frcp n d a => wT 0x60 (bit n) (encDst d) (encSrc a) 112 0
  | .frsq n d a => wT 0x61 (bit n) (encDst d) (encSrc a) 112 0
  | .fex2 n d a => wT 0x62 (bit n) (encDst d) (encSrc a) 112 0
  | .flg2 n d a => wT 0x63 (bit n) (encDst d) (encSrc a) 112 0
  | .fsin n d a => wT 0x64 (bit n) (encDst d) (encSrc a) 112 0
  | .ftanh n d a => wT 0x65 (bit n) (encDst d) (encSrc a) 112 0
  | .dadd n d a b m => wT 0x66 (bit n) (encDst d) (encSrc a) (encSrc b) (encRnd m)
  | .dsub n d a b m => wT 0x67 (bit n) (encDst d) (encSrc a) (encSrc b) (encRnd m)
  | .dmul n d a b m => wT 0x68 (bit n) (encDst d) (encSrc a) (encSrc b) (encRnd m)
  | .dfma n d a b m => wT 0x69 (bit n) (encDst d) (encSrc a) (encSrc b) (encRnd m)
  | .ddiv n d a b m => wT 0x6A (bit n) (encDst d) (encSrc a) (encSrc b) (encRnd m)
  | .dsqrt n d a m => wT 0x6B (bit n) (encDst d) (encSrc a) 112 (encRnd m)
  | .dmin n d a b m => wT 0x6C (bit n) (encDst d) (encSrc a) (encSrc b) (encMinMax m)
  | .dcmp n d a b m => wT 0x6D (bit n) (encDst d) (encSrc a) (encSrc b) (encFcc m)
  | .cvt n d a k t j f => wI 0x70 (bit n) (encDst d) (encSrc a) (encRnd k * 2 ^ 7 + bit t * 2 ^ 6 + encFmtF j * 2 ^ 3 + encFmtF f)
  | .cvtz n d a t j f => wI 0x71 (bit n) (encDst d) (encSrc a) (bit t * 2 ^ 6 + encFmtF j * 2 ^ 3 + encFmtF f)
  | .cvtu n d a t j f => wI 0x72 (bit n) (encDst d) (encSrc a) (bit t * 2 ^ 6 + encFmtU j * 2 ^ 3 + encFmtU f)
  | .cvtd n d a k t j f => wI 0x73 (bit n) (encDst d) (encSrc a) (encRnd k * 2 ^ 7 + bit t * 2 ^ 6 + encFmtD j * 2 ^ 3 + encFmtD f)
  | .pack n d a b m => wT 0x74 (bit n) (encDst d) (encSrc a) (encSrc b) (encHalfM m)
  | .unpk n d a m => wT 0x75 (bit n) (encDst d) (encSrc a) 112 (encUnpkM m)
  | .pk8 n d a b m => wT 0x76 (bit n) (encDst d) (encSrc a) (encSrc b) (encPk8M m)
  | .upk8 n d a b m => wT 0x77 (bit n) (encDst d) (encSrc a) (encSrc b) (encF8 m)
  | .ldb d a i => wI 0x80 0 (encDst d) (encSrc a) i.toNat
  | .ldbs d a i => wI 0x81 0 (encDst d) (encSrc a) i.toNat
  | .ldh d a i => wI 0x82 0 (encDst d) (encSrc a) i.toNat
  | .ldhs d a i => wI 0x83 0 (encDst d) (encSrc a) i.toNat
  | .ldw d a i => wI 0x84 0 (encDst d) (encSrc a) i.toNat
  | .ldd d a i => wI 0x85 0 (encDst d) (encSrc a) i.toNat
  | .ldq d a i => wI 0x86 0 (encDst d) (encSrc a) i.toNat
  | .stb e a i => wI 0x87 0 (encSrc e) (encSrc a) i.toNat
  | .sth e a i => wI 0x88 0 (encSrc e) (encSrc a) i.toNat
  | .stw e a i => wI 0x89 0 (encSrc e) (encSrc a) i.toNat
  | .std e a i => wI 0x8A 0 (encSrc e) (encSrc a) i.toNat
  | .stq e a i => wI 0x8B 0 (encSrc e) (encSrc a) i.toNat
  | .ldx d a b m => wT 0x8C 0 (encDst d) (encSrc a) (encSrc b) (encWid m)
  | .stx e a b m => wT 0x8D 0 (encSrc e) (encSrc a) (encSrc b) (encWid m)
  | .ldu d a i => wI 0x8E 0 (encDst d) (encSrc a) i.toNat
  | .pref a b => wT 0x8F 0 112 (encSrc a) (encSrc b) 0
  | .lds d a i => wI 0x90 0 (encDst d) (encSrc a) i.toNat
  | .sts e a i => wI 0x91 0 (encSrc e) (encSrc a) i.toNat
  | .ldsx d a b m => wT 0x92 0 (encDst d) (encSrc a) (encSrc b) (encWid m)
  | .stsx e a b m => wT 0x93 0 (encSrc e) (encSrc a) (encSrc b) (encWid m)
  | .ldl d a i => wI 0x94 0 (encDst d) (encSrc a) i.toNat
  | .stl e a i => wI 0x95 0 (encSrc e) (encSrc a) i.toNat
  | .ldlb d a b m => wT 0x96 0 (encDst d) (encSrc a) (encSrc b) (encBlkW m)
  | .stlb e a b m => wT 0x97 0 (encSrc e) (encSrc a) (encSrc b) (encBlkW m)
  | .ldhw d a b m => wT 0x98 0 (encDst d) (encSrc a) (encSrc b) (encHwM m)
  | .sthw e a b m => wT 0x99 0 (encSrc e) (encSrc a) (encSrc b) (encHwM m)
  | .alloc a b m => wT 0x9A 0 112 (encSrc a) (encSrc b) (encSpc m)
  | .free a b m => wT 0x9B 0 112 (encSrc a) (encSrc b) (encSpc m)
  | .life a b m => wT 0x9C 0 112 (encSrc a) (encSrc b) (encSpc m)
  | .expq d a m => wT 0x9D 0 (encDst d) (encSrc a) 112 (encSpc m)
  | .aadd d a b m => wT 0xA0 0 (encDst d) (encSrc a) (encSrc b) (encW2 m)
  | .amin d a b m => wT 0xA1 0 (encDst d) (encSrc a) (encSrc b) (encAtI m)
  | .aminn d a b m => wT 0xA2 0 (encDst d) (encSrc a) (encSrc b) (encAtN m)
  | .amax d a b m => wT 0xA3 0 (encDst d) (encSrc a) (encSrc b) (encAtI m)
  | .amaxn d a b m => wT 0xA4 0 (encDst d) (encSrc a) (encSrc b) (encAtN m)
  | .aand d a b m => wT 0xA5 0 (encDst d) (encSrc a) (encSrc b) (encW2 m)
  | .aor d a b m => wT 0xA6 0 (encDst d) (encSrc a) (encSrc b) (encW2 m)
  | .axor d a b m => wT 0xA7 0 (encDst d) (encSrc a) (encSrc b) (encW2 m)
  | .axch d a b m => wT 0xA8 0 (encDst d) (encSrc a) (encSrc b) (encW2 m)
  | .acas d a b m => wT 0xA9 0 (encDst d) (encSrc a) (encSrc b) (encW2 m)
  | .afadd d a b m => wT 0xAA 0 (encDst d) (encSrc a) (encSrc b) (encAfaddM m)
  | .afmin d a b m => wT 0xAB 0 (encDst d) (encSrc a) (encSrc b) (encMinMax m)
  | .ainc d a b m => wT 0xAC 0 (encDst d) (encSrc a) (encSrc b) (encIncM m)
  | .asadd d a b m => wT 0xAD 0 (encDst d) (encSrc a) (encSrc b) (encAsaddM m)
  | .asmin d a b m => wT 0xAE 0 (encDst d) (encSrc a) (encSrc b) (encSgn32 m)
  | .ascas d a b m => wT 0xAF 0 (encDst d) (encSrc a) (encSrc b) (encW2 m)
  | .pub sc => wK 0xB0 0 112 (encScope sc)
  | .acq sc => wK 0xB1 0 112 (encScope sc)
  | .fence => wK 0xB2 0 112 0
  | .bar pub id => wK 0xB3 0 112 ((match pub with | some s => encPub s * 2 ^ 5 + 2 ^ 4 | none => 0) + id.val)
  | .bara pub id => wK 0xB4 0 112 ((match pub with | some s => encPub s * 2 ^ 5 + 2 ^ 4 | none => 0) + id.val)
  | .barw pub id => wK 0xB5 0 112 ((match pub with | some s => encPub s * 2 ^ 5 + 2 ^ 4 | none => 0) + id.val)
  | .phase sc => wK 0xB6 0 112 (encScope sc)
  | .wait k th => wK 0xB7 0 112 (encEngC k * 2 ^ 8 + th.toNat)
  | .mma d a b m => wT 0xC0 0 (encDst d) (encSrc a) (encSrc b) (encMmaM m)
  | .mmas d a b m => wT 0xC1 0 (encDst d) (encSrc a) (encSrc b) (encF8P m)
  | .mmaf d a b m => wT 0xC2 0 (encDst d) (encSrc a) (encSrc b) (encF8P m)
  | .gang a b => wT 0xC3 0 112 (encSrc a) (encSrc b) 0
  | .gath d a => wT 0xC4 0 (encDst d) (encSrc a) 112 0
  | .cpy d a => wT 0xC5 0 (encDst d) (encSrc a) 112 0
  | .cpyt d a => wT 0xC6 0 (encDst d) (encSrc a) 112 0
  | .coll d a m => wT 0xC7 0 (encDst d) (encSrc a) 112 (encCollM m)
  | .accz => wT 0xC8 0 112 112 112 0
  | .mmaq d => wT 0xC9 0 (encDst d) 112 112 0
  | .qput a b => wT 0xD0 0 112 (encSrc a) (encSrc b) 0
  | .qtakeQ d a => wT 0xD1 0 (encDst d) (encSrc a) 112 0
  | .qtakeStage d => wT 0xD1 0 (encDst d) 112 112 1
  | .qmput e a b => wT 0xD2 0 (encSrc e) (encSrc a) (encSrc b) 0
  | .qrel a => wT 0xD3 0 112 (encSrc a) 112 0
  | .spawn a => wT 0xD4 0 112 (encSrc a) 112 0
  | .join a sc => wI 0xD5 0 112 (encSrc a) (encScope sc)
  | .qstat d a m => wT 0xD6 0 (encDst d) (encSrc a) 112 (encQstatM m)
  | .yieldI => wT 0xD7 0 112 112 112 0
  | .trap a => wT 0xE0 0 112 (encSrc a) 112 0
  | .trapRet => wT 0xE0 0 112 112 112 1
  | .trapNext => wT 0xE0 0 112 112 112 2
  | .live i => wK 0xE1 0 112 i.toNat
  | .region i => wK 0xE2 0 112 i.toNat
  | .assay d m => wT 0xE3 0 (encDst d) 112 112 (encAssayM m)
  | .rdsr n d i => wK 0xE4 (bit n) (encDst d) i.toNat
  | .wrsr e i => wK 0xE5 0 (encSrc e) i.toNat
  | .bkpt i => wK 0xE6 0 112 i.toNat
  | .dbgm a m => wT 0xE7 0 112 (encSrc a) 112 (encDbgmM m)
  | .watch a b m => wT 0xE8 0 112 (encSrc a) (encSrc b) (encWatchM m)
  | .sleep a => wT 0xE9 0 112 (encSrc a) 112 0
  | .clas c => wK 0xEA 0 112 (encTClass c)
  | .reservedEncoding w => w.toNat
  | _ => 0

/-- The encoder. -/
def encode (i : Instr) : Word := BitVec.ofNat 32 (encodeNat i)

/-- The instruction the decoder reads from a word of the opcode table: only 32-bit words are instructions (R253). -/
def decodeTableWord (nbits w : Nat) : Option Instr :=
  if nbits = 32 then (match decode (BitVec.ofNat 32 w) with | .ok i => some i | .error _ => none) else none

end Sys2Proof
end

