-- ==== Sys2Proof/Config.lean ====
section
/-! DEFINITION. What one part fixes and the spec leaves open: free values without a body. Nothing in Lean can evaluate them. -/

namespace Sys2Proof.Config

/-- Free choices among the outcomes that R4 calls unspecified: the value of the k-th choice (log entry 7). -/
opaque choice : Nat → Nat

/-- R86: fused minimum security versions of the Ussor firmware and of the command-processor image (log entry 6). -/
opaque fuseUsMin : Word
opaque fuseCpMin : Word

/-- R86: the SHA-512 digest of the signing key in fuses (log entry 6). -/
opaque fuseKey : List Byte

/-- R87: the boot count before this power-on (log entry 6). -/
opaque bootCount : BitVec 64

/-- R87: the device serial number, 16 bytes (log entry 6). -/
opaque serial : List Byte

/-- R87: Tirulaina's certificate of the identity key, and the salt of the k-th signature (log entry 6). -/
opaque idCert : List Byte
opaque salt : Nat → List Byte

/-- R87: the lower 2,046 bits of the two primes of the identity key (log entry 6). -/
opaque idPrimeBits : Bool → Nat

/-- R77: whether a module strap bifurcates port A (false) or B (true), Tirulaina's vendor identifier, and the words of a function's
configuration space that the spec does not give (log entry 46). -/
opaque bifurcated : Bool → Bool
opaque vendor : BitVec 16
opaque cfgWord : Bool → Bool → Nat → BitVec 32

/-- R23, R86: the firmware and command-processor images stored at the first power-on (log entry 6). -/
opaque usImage : List Byte
opaque cpImage : List Byte

/-- R15: silicon revision and good reserve cores of each die, from fuses (log entry 6). -/
opaque srev : Nat → BitVec 8
opaque reserve : Nat → Fin 5

/-- R24, R35: nominal rail voltage of a regulator above 420 mV, from fuses (log entry 6). -/
opaque nomv : Nat → Fin 281

/-- R43: energy in microjoules that one metering at a device time finds for a kind of use (log entry 6). -/
opaque energy : Nat → Nat → Nat

/-- R115, R164: bytes of a block frame whose content the spec leaves open: the k-th save, byte by byte (log entry 30). -/
opaque frameByte : Nat → Nat → Byte

end Sys2Proof.Config
end

