-- ==== Sys2Proof/Machine/State.lean ====
section
/-! DEFINITION. The state of the whole device as plain data, the reasons a step can stop, and the state at power-on.
Docstrings cite the rule of spec/ that names each piece. Fields marked MODEL are the model's own bookkeeping. -/

namespace Sys2Proof.Machine

/-- R156, R392: a thread's region entry, with the end offset of the region table entry, if one set it. -/
structure Region where
  pc : Word
  meet : Option Word
  vw : Nat
  sw : Nat
  endOff : Option Word
  /-- Device time at which it was set (R71). -/
  tick : Nat
  deriving DecidableEq, Repr

/-- R168: the state one thread owns, apart from its slots of the vector registers. -/
structure Thread where
  pc : Word
  live : Bool
  meet : Option Word
  region : Region
  /-- R141: passes of the group that left this thread out. -/
  skip : Nat
  /-- R200: latch stack, newest first. -/
  latch : List Word
  /-- R152: why the stack was last emptied (`true` is EVENT). -/
  event : Bool
  /-- R307: the continuing address a REPACK recorded. -/
  cont : Option Word
  deriving DecidableEq, Repr

/-- A register named by its physical index: vector (with every thread's slot) or scalar. -/
inductive PReg where
  | v (p : Nat) | s (p : Nat)
  deriving DecidableEq, Repr

/-- R153: one unfinished thread of a logged access: home group and index, address and operands. -/
structure LogThr where
  g : Nat
  t : Nat
  addr : BitVec 64
  data : List Word
  cmp : List Word
  /-- R71: the places of its journal entry and of its value there, in issue order. -/
  jat : Option (Nat × Nat)
  deriving DecidableEq, Repr

/-- R153: an operand-log entry: the instruction, its address, its token and its unfinished threads. -/
structure LogEntry where
  i : Instr
  pc : Word
  token : Word
  /-- Access code of the page-fault entry (R159): 0 read, 1 write, 2 atomic, 3 gather. -/
  acc : Nat
  page : BitVec 64
  dst : Option PReg
  /-- True once the access may be re-issued (R143). -/
  woken : Bool
  thr : List LogThr
  /-- Home (group, thread) pairs that receive the result of the one access of a broadcast (R170). -/
  also : List (Nat × Nat)
  deriving DecidableEq, Repr

/-- R229, R246 to R251, R378: an engine operation a group has issued and that has not completed. -/
structure EngOp where
  i : Instr
  desc : List Word
  dst : Option PReg
  /-- Sectors written so far and the place the transfer goes on from (R248). -/
  sect : Nat
  pos : Nat
  poisoned : Bool
  /-- GATH: the bytes read before it committed (R251). -/
  data : List Byte
  /-- COLL: the collective it started (R57). MODEL: GATH: its place in issue order (R229). -/
  cid : Nat
  /-- Token of the page fault that suspends it (R248). -/
  susp : Option Word
  /-- R247: a descriptor error; it completes with CAUSE DESC. -/
  bad : Bool
  /-- The transfer has ended with this CAUSE; its completion is still to come (R230). -/
  fin : Option Nat
  /-- R71: the place of its token in the journal. -/
  jat : Option Nat
  /-- R250: pieces of the row at `pos` already written. -/
  part : Nat
  deriving DecidableEq, Repr

/-- R216: a pending PREF: the page and the ETM deadline. `counted` is cleared by a phase boundary (R114). -/
structure Pref where
  page : BitVec 64
  deadline : Nat
  counted : Bool
  /-- R216: the group's next pass waits for the switch or the deadline; so does its oldest copy. -/
  waited : Bool
  copyWaited : Bool
  deriving DecidableEq, Repr

/-- R369: the gang register: members (troupe-relative block, group), accumulator base, rows quarter, columns. -/
structure Gang where
  members : List (Nat × Nat)
  accb : Nat
  rq : Nat
  cm : Nat
  deriving DecidableEq, Repr

/-- R372, R374: an MMA in flight: the accumulator values to be written at completion and the status. -/
structure MmaFly where
  dst : Option PReg
  res : List (Nat × Word)
  status : Word
  /-- The CYC of its last cycle's end, and the cycles of its run. -/
  endAt : Nat
  cycles : Nat
  /-- R43: the k-steps of its run. -/
  steps : Nat
  /-- R166: the ETM since which its unit has made no progress, if it has stopped. -/
  stuck : Option Nat
  pc : Word
  /-- R179: accumulator slots that a repack has moved since: the group that issues their threads now, slot and value. -/
  away : List (Nat × Nat × Word)
  /-- R166, R374: the members of the operation (block, group), and the device time of its rendezvous. -/
  mates : List (Nat × Nat)
  metAt : Nat
  deriving DecidableEq, Repr

/-- R181: an MMA waiting in the rendezvous latch. -/
structure MmaWait where
  i : Instr
  pc : Word
  since : Nat
  deriving DecidableEq, Repr

/-- R173: one chain-resume entry. -/
structure Resume where
  pc : Word
  val : Word
  /-- MODEL: recorded by the fault being taken. -/
  fresh : Bool
  deriving DecidableEq, Repr

/-- R150, R389: handler state: the threads that run the handler, PCOFF, and the returns already reached. -/
structure Handler where
  mask : BitVec 32
  pcoff : Word
  /-- R389: handler threads held at a return, with its form (`true` is `.next`). -/
  rets : List (Nat × Bool)
  deriving DecidableEq, Repr

/-- R400: an armed watchpoint slot. -/
structure Watch where
  addr : BitVec 64
  size : Nat
  onR : Bool
  onW : Bool
  deriving DecidableEq, Repr

/-- R142: what a parked group waits for. -/
inductive ParkKey where
  | page (token : Word) | queue (q : Nat) | sleep (deadline : Nat) | entry (port : HPort) (num : Nat) | rail | bank (b : Nat)
  deriving DecidableEq, Repr

/-- R144: the group states. Ready or waiting is computed from the scoreboard and the meeting points. -/
inductive Status where
  | held | active | pending | exited
  /-- R162: at a LIVE point, with the bytes of its liveness entry, or at a phase boundary. -/
  | stopped (entry : Option (List Byte))
  | parked (key : ParkKey) (overflow : Bool)
  | halted (wasActive : Bool)
  deriving DecidableEq, Repr

/-- R222 to R224: what the model records of a group's view of memory (MODEL). -/
structure Cons where
  /-- R224: bytes whose value is stable until a store or an ACQ. -/
  stable : List Host.Cell
  /-- R224: per location, the earliest write of the coherence order that may still be returned. -/
  floor : Table Nat
  /-- Stamp of the last ACQ. -/
  acq : Nat
  /-- R222: writes of group `k` up to stamp `hb[k]` happen before the group's next access, in every space. -/
  hb : Table Nat
  /-- R226: the same for scratch only. -/
  hbScr : Table Nat
  /-- R222: writes the group has observed since: (writer, stamp). -/
  obs : List (Nat × Nat)
  /-- R224: floor entries of the group's atomics, joined at the next ACQ. -/
  seen : Table Nat
  deriving DecidableEq, Repr

/-- R70 to R73: the Assayer's state of a group. -/
structure AssayG where
  selected : Bool
  /-- Journaled bytes, digest stream and reads of immutable pages (virtual address, bytes), and the lengths at the cut point, with the
  device time at which it was set (R71, R74). -/
  journal : List Byte
  stream : List Byte
  imm : List (Nat × List Byte)
  cutJ : Nat
  cutS : Nat
  cutI : Nat
  cutAt : Nat
  /-- R74: the phase's starting record. -/
  record : List Byte
  unassayable : Bool
  /-- R62: an error that nothing detects has struck the phase. -/
  struck : Bool
  /-- R71: MODEL: what a pass of two paths has returned so far to its threads, one by one: upper path or not, the thread, the bytes, and
  whether they are still to come. -/
  both : Option (List (Bool × Nat × List Byte × Bool))
  deriving DecidableEq, Repr

/-- R168, R187, R172, R173: the register side of a group. Vector slot (p, t) is key `32 * p + t`; absent is 0. -/
structure GRegs where
  v : Table Word
  s : Table Word
  vw : Nat
  sw : Nat
  seed : Word
  tail : Word
  /-- R172: true from a phase boundary until an instruction reads `prv`. -/
  tailOpen : Bool
  resume : List Resume
  /-- R397 STICKY: bit 0 DIVZ to bit 8 MODECFG. -/
  sticky : BitVec 9
  tcode : Word
  /-- R148: the fault frame as eight words. -/
  frame : List Word
  phx : Word
  /-- R395: read latch and write latch. -/
  rlatch : Word
  wlatch : Option (Nat × Word)
  deriving DecidableEq, Repr

/-- R124: a record that a thread of the group took from a queue, by index, and whether it is to be delivered again. -/
structure Take where
  t : Nat
  q : Nat
  ix : Nat
  data : List Byte
  again : Bool
  /-- It was taken by QTAKE.stage, whose queue CSTAGE names (R382). -/
  stage : Bool
  deriving DecidableEq, Repr

/-- R229, R369, R374: the engine side of a group. -/
structure GEng where
  copy : Nat
  gath : Nat
  coll : Nat
  prom : Nat
  ops : List EngOp
  prefs : List Pref
  gang : Option Gang
  mmaWait : Option MmaWait
  mma : Option MmaFly
  /-- R132: pending vector slots and scalar registers. -/
  vpend : List Nat
  spend : List Nat
  /-- MODEL: destinations whose memory data has not yet returned, oldest first (MEMORY_RETURN). -/
  returns : List (List Nat × List Nat)
  /-- R124: records taken since the thread's region entry, oldest first; a re-executed QTAKE receives them again. -/
  takes : List Take
  deriving DecidableEq, Repr

/-- R132: the CYC at which results of the group entered the pipeline: by vector slot, by scalar register, and by the latches of
each thread, newest first. -/
structure Pipe where
  v : Table Nat
  s : Table Nat
  b : Table (List Nat)
  deriving DecidableEq, Repr

/-- R134 to R136, R142, R144: the scheduling side of a group. -/
structure GSched where
  status : Status
  lane : Nat
  age : Nat
  /-- R136: CYC since which it is ready without issuing or entering the active set. -/
  ready : Option Nat
  forced : Bool
  /-- R386: passed over once at the next switch point. -/
  passed : Bool
  /-- R156: a rollback waits for the group's engine operations. -/
  rollback : Bool
  /-- R408. -/
  hint : Option TClass
  pipe : Pipe
  /-- R145: the same on the partner lane. -/
  pipe2 : Pipe
  deriving DecidableEq, Repr

/-- R400, R405: watchpoints and debug flags. -/
structure GDbg where
  w0 : Option Watch
  w1 : Option Watch
  haltReq : Bool
  step : Bool
  /-- R405: the instruction that executes once without its condition, and the one at which the group halted. -/
  skip : Option Word
  haltPc : Word
  deriving DecidableEq, Repr

/-- A group (R1). `uid` is the MODEL's own identity, never used twice. -/
structure Group where
  uid : Nat
  thr : List Thread
  r : GRegs
  handler : Option Handler
  log : List LogEntry
  e : GEng
  q : GSched
  d : GDbg
  c : Cons
  a : AssayG
  deriving DecidableEq, Repr

/-- R190, R359: an operand-store or layer granule that carries a state of its own. -/
structure Gran where
  cls : Nat
  start : Int
  spanEnd : Int
  expiry : Int
  written : Bool
  freed : Bool
  deriving DecidableEq, Repr

/-- R222, R226: what an arrival carries to the members released with it: the group, whether its form publishes, its publish
instance, and the clocks of its accesses before the arrival, in every space and in scratch. -/
structure ArrLink where
  uid : Nat
  pub : Bool
  members : Option (List Nat)
  clock : Table Nat
  scr : Table Nat
  deriving DecidableEq, Repr

/-- R364: a barrier: its generation, the home groups arrived and what their arrivals carry, the groups with threads held
at one of its instructions, and the device time since which R161 counts. Key 255 is REPACK (R177). -/
structure Barrier where
  gen : Nat
  arrived : List Nat
  links : List ArrLink
  hold : List Nat
  last : Nat
  deriving DecidableEq, Repr

/-- R364, R226: a home group that waits at a barrier, with the publish scope of its form; `whole` marks BAR, whose publishing
form is a phase boundary. -/
structure BarWait where
  id : Nat
  pub : Option PubScope
  whole : Bool
  deriving DecidableEq, Repr

/-- R364, R226: a group's last arrival at a barrier; once its generation is released, what the members' arrivals carry. -/
structure Arrival where
  released : Bool
  links : List ArrLink
  deriving DecidableEq, Repr

/-- R100: a kernel header, checked. -/
structure Header where
  vregs : Nat
  sregs : Nat
  barriers : Nat
  groups : Nat
  troupe : Nat
  sclass : Nat
  assay : Bool
  scratch : Nat
  life : Nat
  span : Nat
  entry : Word
  traph : Word
  livetab : Word
  regtab : Word
  carry : List Word
  /-- R390: the table counts read with the header. -/
  liveN : Nat
  regN : Nat
  deriving DecidableEq, Repr

/-- R96: grid options. -/
structure Opts where
  debug : Bool
  underv : Bool
  assay : Nat
  paired : Bool
  preempt : Bool
  tenant : Nat
  prio : Nat
  deriving DecidableEq, Repr

/-- R119; a killed block is no longer listed. -/
inductive BLife where
  | ready | resident | saved | retired
  deriving DecidableEq, Repr

/-- A block (R1, R119), by its number in `State.blocks`. -/
structure Block where
  ctx : Word
  inst : Nat
  node : Nat
  hdr : BitVec 64
  h : Header
  opts : Opts
  /-- Block index, troupe index, first block of the troupe and block count (R103). -/
  idx : Nat
  troupe : Nat
  count : Nat
  args : List Word
  life : BLife
  core : Nat
  /-- R113: placement order. -/
  placed : Nat
  /-- R115: byte address of the record-area slot. -/
  slot : Nat
  /-- R186: the granules of the operand store that hold its scratch, by scratch granule; then those of its record and groups. -/
  store : List Nat
  groups : List Group
  bars : Table Barrier
  bwait : Table BarWait
  /-- Keys 32 * barrier + home group. -/
  arr : Table Arrival
  /-- R178, R179: home (group, thread) of packed slot 32*k+t; empty while unpacked. -/
  map : List (Nat × Nat)
  grans : Table Gran
  dirty : List Nat
  /-- R117: the granules that the shadow holds. -/
  shadowed : List Nat
  start : Nat
  /-- R162: a pre-emption of this block is wanted; R155: groups saved whole. -/
  preempt : Bool
  /-- R43: the account that pays for the save. -/
  preBy : Nat
  wholeSaved : List Nat
  /-- R75: it is pre-empted at its next LIVE points and relocated; and the cluster from which its troupe is relocated to another. -/
  relocate : Bool
  avoid : Option Nat
  /-- R164 byte 9 of its last frame; 4 after a rail loss (R28). -/
  form : Nat
  /-- R222: what the launch and flush links join to the start of its groups. -/
  hb : Table Nat
  deriving DecidableEq, Repr

/-- R137: the class gate's window of a core. -/
structure Window where
  cls : TClass
  endAt : Nat
  deriving DecidableEq, Repr

/-- A core, number 8 * cluster + core (R130). The r-th reserve core that takes number c has key c + 768 r (R14); the core it
replaces keeps its key while blocks are still on it. -/
structure Core where
  /-- Device time at which its counters were zero, and CYC (R39). -/
  t0 : Nat
  cyc : Nat
  sync : Nat
  /-- R37: work in flight: its class, the CYC of its first cycle, and the CYC at which it has ended. -/
  tail : List (TClass × Nat × Nat)
  /-- R36, R37: a gather unit of the core works; its operations are class N (R261). -/
  gath : Bool
  /-- R131: the CYC from which a lane's issue slot is free. -/
  busy : Table Nat
  win : Option Window
  /-- R133: the group each lane issues (block, group), where it is between switch points. -/
  cur : Table (Nat × Nat)
  /-- R133: the group at which each lane took its last switch point. -/
  last : Table (Nat × Nat)
  ages : Nat
  /-- R70. -/
  lfsr : BitVec 16
  /-- R397 CSTAGE: bit 4 NONE, bits 3:0 STAGE. -/
  cstage : BitVec 5
  moved : Option Nat
  placed : Nat
  /-- R67: lanes replaced so far, and the last residue failure of each lane. -/
  spares : Table Nat
  resid : Table Nat
  /-- R166: times of the last resets of each matrix unit. -/
  mxResets : Table (List Nat)
  quar : Bool
  quarAt : Nat
  score : Nat
  passes : Nat
  /-- False for a core that has been replaced or disabled (R69). -/
  enabled : Bool
  reserve : Bool
  /-- R76: bytes of the core's ring in use. -/
  ring : Nat
  deriving DecidableEq, Repr

/-- R196: a cluster-tier bank. -/
structure Bank where
  mode : BitVec 2
  drain : Bool
  owner : Word
  /-- The mode and owner that an accepted switch brings (R197). -/
  nextMode : BitVec 2
  nextOwner : Word
  /-- MODEL: device time at which its drain began. -/
  drainAt : Nat
  deriving DecidableEq, Repr

/-- R121, R122: a queue slot. -/
structure Slot where
  data : List Byte
  mask : BitVec 8
  phase : Bool
  free : Bool
  /-- R222: MODEL: the put, or the JOINs of its continuation (R127): writer and stamp. -/
  writers : List (Nat × Nat)
  deriving DecidableEq, Repr

/-- R124, R382: a record in a core-local window: its index, and the (block, group, thread) it is bound to. -/
structure WinRec where
  ix : Nat
  data : List Byte
  bound : Option (Nat × Nat × Nat)
  /-- R222: as of its slot. -/
  writers : List (Nat × Nat)
  deriving DecidableEq, Repr

/-- R120: a stage queue: QDq, QIXq and its slots; windows by core; continuation enqueues that wait (R128). -/
structure Queue where
  en : Bool
  mode : Bool
  bank : Nat
  off : Nat
  size : Nat
  cmask : BitVec 8
  stage : Nat
  owner : Word
  putix : Word
  freeix : Word
  slots : Table Slot
  windows : Table (List WinRec)
  contq : List (List Byte × List (Nat × Nat))
  deriving DecidableEq, Repr

/-- A cluster (R13). -/
structure Cluster where
  banks : Table Bank
  grans : Table Gran
  queues : Table Queue
  /-- R125 FMCTL. -/
  fmEn : Bool
  fmHi : Nat
  fmLo : Nat
  fmHold : Nat
  /-- R25. -/
  rail : Nat
  lastTenant : Option Nat
  /-- MODEL: device time of the Foreman's last evaluation (R126). -/
  fmAt : Nat
  /-- R28, R40: device time at which its rail last returned. -/
  upAt : Nat
  deriving DecidableEq, Repr

/-- R24 to R35: a package regulator. -/
structure Regulator where
  /-- R26, R28: it delivers power; and its rail has been shut and not re-enabled. -/
  on : Bool
  shut : Bool
  slope : Nat
  uvEn : Bool
  shared : Bool
  step : Nat
  interval : BitVec 8
  celim : BitVec 8
  ceCount : Nat
  /-- MODEL: device time of the voltage controller's last step (R33). -/
  uvAt : Nat
  /-- R43: accounts with work on its clusters, and the one that departed last. -/
  here : List Nat
  gone : Nat
  deriving DecidableEq, Repr

/-- R84: a finished submission that waits to be reported, or a kept record. -/
structure CompRec where
  cseq : Word
  sseq : Word
  kind : Nat
  status : Nat
  graph : Nat
  bytes : Nat
  time : Nat
  /-- MODEL: the stamp up to which a flush it reports has written (R222). -/
  stamp : Nat
  deriving DecidableEq, Repr

/-- R85: an accepted flush command. -/
structure Flush where
  sseq : Word
  ctx : Word
  daddr : BitVec 64
  haddr : BitVec 64
  dir : Nat
  len : Nat
  order : Bool
  /-- MODEL: the stamp at acceptance. -/
  stamp : Nat
  deriving DecidableEq, Repr

/-- R96: one node record of a stored graph. -/
structure GNode where
  khdr : BitVec 64
  pred : BitVec 64
  blocks : BitVec 64
  opts : Opts
  args : List Word
  deriving DecidableEq, Repr

/-- R96, R97: a stored graph. -/
structure Graph where
  ctx : Word
  nodes : List GNode
  deriving DecidableEq, Repr

/-- R403: the Spasko registers of a port. -/
structure Dbg where
  en : Bool
  ctx : Word
  drops : Nat
  posts : List (List Byte)
  data : BitVec 64
  done : Bool
  status : Nat
  deriving DecidableEq, Repr

/-- R158: a trap-ring entry that waits for room; `own` tells whether a group originated it. -/
structure Held where
  own : Bool
  /-- Block, group of a KIND 0x01 entry: parked until the entry is consumed (R151). -/
  grp : Option (Nat × Nat)
  bytes : List Byte
  deriving DecidableEq, Repr

/-- R157: the trap ring of a port. -/
structure TrapRing where
  base : BitVec 64
  en : Bool
  size : BitVec 5
  wix : Word
  rix : Word
  ovf : Bool
  drop : Bool
  held : List Held
  /-- KIND 0x01 entries written and not yet consumed: entry number and (block, group). -/
  open1 : List (Word × Nat × Nat)
  rctx : Word
  rdvwd : BitVec 16
  barwd : BitVec 16
  deriving DecidableEq, Repr

/-- R84, R93, R95, R99: submissions and completions of a port. -/
structure Subm where
  subseq : Word
  crbase : BitVec 64
  crcfg : BitVec 4
  crd : Word
  cmpseq : Word
  lost : Bool
  kept : List CompRec
  waiting : List CompRec
  replaying : List CompRec
  fl0 : BitVec 64
  fl1 : BitVec 64
  fl2 : BitVec 64
  flushes : List Flush
  /-- Sseqs of accepted submissions that have not completed, oldest first (R85 ORDER, R98). -/
  open1 : List Word
  loadGraph : BitVec 10
  loadStat : BitVec 8
  /-- MODEL: the next flush finds that host memory fails after so many bytes (R85 HOSTERR). -/
  hosterr : Option Nat
  graphs : Table Graph
  deriving DecidableEq, Repr

/-- R80, R89: host status and mailbox of a port. -/
structure HostRegs where
  unbacked : Bool
  seqerr : Bool
  denied : Bool
  badacc : Bool
  bootfail : Bool
  apbase0 : BitVec 12
  apbase1 : BitVec 12
  /-- R78: the read latch: register offset and word. -/
  rlatch : Option (Nat × Word)
  /-- R89 USSSTAT. -/
  utag : Word
  urlen : Nat
  ustatus : Nat
  box : List Host.Cell
  /-- R77: interrupts raised per vector, and the bytes of the MSI-X table. -/
  msi0 : Nat
  msi1 : Nat
  msi2 : Nat
  msix : List Host.Cell
  /-- R79: the MSI-X pending bits. -/
  pend : BitVec 3
  /-- R82: the size 2^s GiB of BAR C of functions 0 and 1. -/
  barC0 : Nat
  barC1 : Nat
  /-- R61: errors that the port has recorded for dropped transactions. -/
  linkErrs : Nat
  /-- R209. -/
  invctx : Word
  invbusy : Bool
  /-- R209: the context of the invalidation in progress, and its page number unless it names every translation. -/
  invof : Word × Option Nat
  /-- MODEL: the bytes the last host read returned, and whether they were marked poisoned. -/
  resp : List Byte
  respPoison : Bool
  deriving DecidableEq, Repr

/-- A host port (R77). -/
structure Port where
  sub : Subm
  reg : HostRegs
  trap : TrapRing
  dbg : Dbg
  deriving DecidableEq, Repr

/-- R91: a context. -/
structure Context where
  tenant : Nat
  port : HPort
  root : BitVec 64
  cbase : BitVec 64
  recbase : Nat
  recsize : Nat
  killed : Bool
  unrecoverable : Bool
  /-- R162, R165: pending pre-emption requests: when each was made, and the blocks it names. -/
  preq : List (Nat × List Nat)
  /-- R104: the most recently accepted launch of the context on its port, while it runs, and what it has published. -/
  lastInst : Option Nat
  lastClock : Table Nat
  deriving DecidableEq, Repr

/-- R98: an instance of a graph. -/
structure Inst where
  port : HPort
  ctx : Word
  sseq : Word
  graph : Nat
  order : Bool
  nodes : List GNode
  patch : List (Nat × Word)
  seq : Nat
  started : Bool
  /-- Node states: dispatched, retired. -/
  disp : List Bool
  ret : List Bool
  status : Nat
  /-- R222 launch link: the publish clock of each retired node. -/
  clocks : Table (Table Nat)
  /-- R104: the launch before it of its context, while that runs, and then what it published. -/
  prev : Option Nat
  prevClock : Table Nat
  deriving DecidableEq, Repr

/-- R154: an outstanding page fault. -/
structure PFault where
  token : Word
  ctx : Word
  page : BitVec 64
  acc : Nat
  core : Nat
  lane : Nat
  deriving DecidableEq, Repr

/-- R214, R215: a promoted page or a page in transit. -/
structure Mig where
  tenant : Nat
  ctx : Word
  vpage : BitVec 64
  home : Nat
  frame : Nat
  transit : Bool
  used : Nat
  dirty : Bool
  held : List (Nat × Nat × LogEntry)
  deriving DecidableEq, Repr

/-- R44 to R53: a Rolzal port. -/
structure Link where
  en : Bool
  up : Bool
  stall : Bool
  noroute : Bool
  badtype : Bool
  replays : Nat
  /-- Next SEQ to send, last SEQ accepted, last ACK received. -/
  txSeq : BitVec 16
  rxSeq : BitVec 16
  ackd : BitVec 16
  replay : List (List Byte)
  /-- Flits that wait to be sent, with the port whose receive buffer a forwarded flit holds (R50). -/
  sendq : List (Option Nat × List Byte)
  credits : Table Nat
  owed : Table Nat
  naked : Bool
  noProg : Nat
  retrains : Nat
  training : Bool
  /-- R48, R49: since when the ACK has made no progress, and when the training attempt began. -/
  ackAt : Nat
  trainAt : Nat
  /-- R51: since when a flit of a virtual channel waits for a credit. -/
  starve : Table Nat
  /-- Flits delivered to this device, oldest first (R52). -/
  rx : List (List Byte)
  out : List (List Byte)
  deriving DecidableEq, Repr

/-- R54, R57: a registered communicator. -/
structure Comm where
  ids : List Nat
  seq : Word
  /-- R57, R59: control payloads of collectives that this device has not issued yet. -/
  heard : List (List Byte)
  deriving DecidableEq, Repr

/-- R57 to R60: a collective in flight. -/
structure Coll where
  comm : Nat
  seq : Word
  blk : Nat
  grp : Nat
  uid : Nat
  op : CollM
  root : Nat
  red : Nat
  fmt : Nat
  n : Nat
  src : BitVec 64
  dst : BitVec 64
  bad : Bool
  susp : Option Word
  /-- R59: when it started or a flit of it last arrived. -/
  since : Nat
  /-- R57: its control flits have been sent. -/
  told : Bool
  /-- R229: it has ended with this status, which waits for the group's older collectives. -/
  fin : Option Word
  deriving DecidableEq, Repr

/-- R74, R75: an assay job. -/
structure AJob where
  core : Nat
  tenant : Nat
  blkIdx : Nat
  grp : Nat
  phx : Word
  ctx : Word
  hdr : BitVec 64
  h : Header
  record : List Byte
  journal : List Byte
  /-- R71, R74: what the phase read from immutable pages, which a replay reads again. -/
  imm : List (Nat × List Byte)
  digest : List Byte
  /-- MODEL: the digest without undetected errors. -/
  truth : List Byte
  endAt : Nat
  replay : Option (Nat × List Byte)
  /-- R75: the digests differ, so that a third run is due. -/
  differs : Bool
  deriving DecidableEq, Repr

/-- R219, R225, R430: who wrote a byte. An engine operation of the group is 1 for its copy, 2 for its gather, 3 + k for collective k, and
0 for one that a rail loss has ended. -/
inductive WKind where
  | store | atomic | engine (op : Nat) | flush | barC
  deriving DecidableEq, Repr

/-- MODEL: one byte write of the coherence order. -/
structure WRec where
  stamp : Nat
  loc : Nat
  old : Byte
  new : Byte
  who : Nat
  kind : WKind
  /-- R230, R430: from when a PUB publishes it: an engine write from its operation's completion, any other at once. -/
  fin : Option Nat
  deriving DecidableEq, Repr

/-- MODEL: one publish (R220): its instance (`none` is every group) and the clock it carries. -/
structure PubRec where
  who : Nat
  stamp : Nat
  members : Option (List Nat)
  scope : Scope
  clock : Table Nat
  /-- R226: the clock for scratch; and it publishes scratch stores alone. -/
  scr : Table Nat
  scrOnly : Bool
  /-- R218, R222: where the group published: block, core, and troupe (instance, node, troupe). -/
  blk : Nat
  core : Nat
  troupe : Nat × Nat × Nat
  /-- R127: a JOIN made it. -/
  join : Bool
  deriving DecidableEq, Repr

/-- R86, R92: a staged or running firmware image. -/
structure Image where
  kind : Nat
  total : Nat
  bytes : List Host.Cell
  /-- Staged ranges: offset and length. -/
  filled : List (Nat × Nat)
  deriving DecidableEq, Repr

/-- R23, R86: bring-up and firmware. -/
structure Boot where
  done : Bool
  failed : Bool
  usVer : Word
  cpVer : Word
  usMin : Word
  cpMin : Word
  usHash : List Byte
  cpHash : List Byte
  staged : Option Image
  /-- R92: the stored images, with version and hash of one stored since power-on. -/
  usImg : List Byte
  cpImg : List Byte
  nextUs : Option (Word × List Byte)
  nextCp : Option (Word × List Byte)
  count : BitVec 64
  /-- Device time at which bring-up completed (R39). -/
  upAt : Nat
  deriving DecidableEq, Repr

/-- R54, R76, R88, R109, R42, R213: the shared registers. -/
structure Shared where
  mgr : HPort
  tenants : Table (BitVec 32)
  winown : Table (BitVec 4)
  cluset : Table (BitVec 96)
  migpool : Table (BitVec 64)
  enacct : Table (BitVec 64)
  devid : BitVec 12
  rtab : Table (BitVec 32)
  assayEn : Bool
  logmatch : Bool
  assayBase : BitVec 26
  assaySize : BitVec 4
  cntMismatch : BitVec 16
  cntUnassay : BitVec 16
  cntSkipped : BitVec 16
  cntMatch : BitVec 16
  /-- R15: DIEINFO.RESERVE of each die once latched. -/
  reserve : Table Nat
  hot : Table Bool
  corrected : Table Nat
  /-- R22, R28. -/
  railsOff : Bool
  /-- MODEL: device time of the last metering (R43), and of each die's last refresh (R192). -/
  energyAt : Nat
  refreshAt : Table Nat
  /-- R65: device time of the last round of patrol, for each rate. -/
  patrolAt : Table Nat
  /-- R89: mailbox commands accepted and not yet performed, of both ports, oldest first, each with the word written to USSCMD. -/
  mail : List (HPort × BitVec 64)
  deriving DecidableEq, Repr

/-- MODEL (log entry 2): the path of the pass that the next instruction executes for. -/
structure Sel where
  blk : Nat
  grp : Nat
  mask : BitVec 32
  /-- R148 PATH. -/
  upper : Bool
  /-- The group as it stood before the pass, where an earlier instruction of the pass has run (R301). -/
  pre : Option Group
  /-- Faults of the pass have been judged; and the pass is cut at thread j (R147). -/
  judged : Bool
  cut : Bool
  /-- R395: the cycle of the pass in which its slot enters. -/
  off : Nat := 0
  deriving DecidableEq, Repr

/-- MODEL (log entry 1): what reaches the device from outside, in order. -/
inductive Input where
  /-- The device takes a step of its own. -/
  | run
  /-- A row of the opcode table happens: a host request or an event. -/
  | event (i : Instr)
  /-- R64: the next pass of this group meets a residue failure, on its partner lane (R145) or its home lane. -/
  | residue (blk grp : Nat) (partner : Bool)
  /-- R64: a ballast filler operation on this lane meets a residue failure. -/
  | filler (core lane : Nat)
  /-- R68: the results of the next pass in paired-lane mode differ at some threads; `persistent`, and which lane the spare blames (0
  home, 1 partner, 2 both). -/
  | mismatch (blk grp : Nat) (threads : BitVec 32) (persistent : Bool) (blame : Nat)
  /-- R374: the two results of a group's slice in paired-lane mode differ. -/
  | mmaMismatch (blk grp : Nat) (persistent : Bool)
  /-- R61: an uncorrectable error lies in the sector at this location. -/
  | latent (loc : Nat)
  /-- R62: the next assayed run on this core meets an error that nothing detects. -/
  | silent (core : Nat)
  /-- R62: an error that nothing detects, on a lane or in the matrix array, gives a register of a group a wrong word; `found` unless it is a
  load whose address alone is wrong. -/
  | wrongReg (blk grp : Nat) (vector : Bool) (ix : Nat) (v : Word) (found : Bool)
  /-- R62: an error that nothing detects, in the copy engine's converter or on a parity hop, gives a byte of memory a wrong value, in the
  work of a group or of none. -/
  | wrongByte (loc : Nat) (v : Byte) (grp : Option (Nat × Nat))
  /-- R61: a host request at a port fails PCI Express's checks: the transaction is dropped, and the port records an error. -/
  | dropped (hp : HPort) (i : Instr)
  /-- R23, R77: a configuration read of a function of a port. -/
  | config (hp : HPort) (fn1 : Bool) (off : Nat)
  /-- R82: the host sets the size of a function's BAR C to 2^k GiB. -/
  | sizeBar (hp : HPort) (fn1 : Bool) (k : Nat)
  /-- R23, R69, R92: the module is powered off and on. -/
  | powerOn
  /-- R85: the next flush of the port finds that host memory fails after so many bytes. -/
  | hostErr (hp : HPort) (n : Nat)
  /-- R33: correctable errors counted on a die, in the operand stores and tiers of one of its clusters or elsewhere. -/
  | corrected (die n : Nat) (cluster : Option Nat)
  /-- R166: a matrix unit of a core stops making progress. -/
  | hang (core part : Nat)
  /-- R61: an uncorrectable error in scheduler memory, or in the miss-status entries of a core, that a context owns. -/
  | structFail (die : Nat) (core : Option Nat) (ctx : Word)
  /-- R61: a parity error of a hop of a die, in the `n` bytes written at a location for a context or for none, by an access of a core or
  by an engine. -/
  | parity (die loc n : Nat) (ctx : Option Word) (core : Option Nat)
  deriving DecidableEq, Repr

/-- The whole device. -/
structure State where
  now : Nat
  boot : Boot
  mem : List Host.Cell
  poison : List Nat
  latent : List Nat
  hist : List WRec
  pubs : List PubRec
  stamp : Nat
  flushed : Nat
  cores : Table Core
  clusters : Table Cluster
  regs : Table Regulator
  portA : Port
  portB : Port
  links : Table Link
  sh : Shared
  ctxs : Table Context
  insts : Table Inst
  blocks : Table Block
  comms : Table Comm
  colls : Table Coll
  pfaults : List PFault
  nextToken : Word
  migs : List Mig
  reported : List Nat
  silent : List Nat
  jobs : Table AJob
  nextBlk : Nat
  nextInst : Nat
  nextUid : Nat
  nextColl : Nat
  nextJob : Nat
  /-- R43: what each account has used since the last metering, by kind of use: keys 32 * kind + account. -/
  meter : Table Nat
  sel : Option Sel
  inputs : List Input
  free : Nat
  deriving DecidableEq, Repr

/-- Why the model stops with a fault. -/
inductive Fault where
  /-- Raised by every machine instruction while `sel` selects no thread of a resident group: the device issues no
  instruction then (R139). Safe: step never runs an instruction so. -/
  | noPass
  deriving DecidableEq, Repr

/-- Why the model refuses. -/
inductive Refusal where
  /-- Raised by the arms of `exec` without a meaning. Safe: nothing is proved of such an instruction. -/
  | notModelled (mnemonic : String)
  deriving DecidableEq, Repr

/-- The mailbox and submission registers at reset (R80, R84, R85, R89, R95). -/
def Subm.reset : Subm :=
  { subseq := 0, crbase := 0, crcfg := 8, crd := 0, cmpseq := 0xFFFFFFFF, lost := false, kept := [], waiting := [],
    replaying := [], fl0 := 0, fl1 := 0, fl2 := 0, flushes := [], open1 := [], loadGraph := 0, loadStat := 0, hosterr := none, graphs := [] }

/-- R77, R80, R89, R209. -/
def HostRegs.reset : HostRegs :=
  { unbacked := false, seqerr := false, denied := false, badacc := false, bootfail := false, apbase0 := 0, apbase1 := 0,
    rlatch := none, utag := 0, urlen := 0, ustatus := 0, box := [], msi0 := 0, msi1 := 0, msi2 := 0,
    msix := [(12, 1), (28, 1), (44, 1)], pend := 0, barC0 := 4, barC1 := 4, linkErrs := 0, invctx := 0, invbusy := false, invof := (0, none), resp := [], respPoison := false }

/-- R157: TRCFG.SIZE 8, TRWD RDVWD 10 and BARWD 100. -/
def TrapRing.reset : TrapRing :=
  { base := 0, en := false, size := 8, wix := 0, rix := 0, ovf := false, drop := false, held := [], open1 := [],
    rctx := 0, rdvwd := 10, barwd := 100 }

/-- R403: DBGCTX 0xFFFF_FFFF. -/
def Dbg.reset : Dbg :=
  { en := false, ctx := 0xFFFFFFFF, drops := 0, posts := [], data := 0, done := false, status := 0 }

/-- A port at reset. -/
def Port.reset : Port :=
  { sub := Subm.reset, reg := HostRegs.reset, trap := TrapRing.reset, dbg := Dbg.reset }

/-- R31, R35: a regulator at reset. -/
def Regulator.reset : Regulator :=
  { on := true, shut := false, slope := 250, uvEn := false, shared := false, step := 0, interval := 10, celim := 4, ceCount := 0, uvAt := 0,
    here := [], gone := 16 }

/-- R39, R70, R76, R397: core c at reset. -/
def Core.reset (c : Nat) : Core :=
  { t0 := 0, cyc := 0, sync := 0, tail := [], gath := false, busy := [], win := none, cur := [], last := [], ages := 0, lfsr := 0xACE1 ^^^ BitVec.ofNat 16 c,
    cstage := 0x10, moved := none, placed := 0, spares := [], resid := [], mxResets := [], quar := false, quarAt := 0,
    score := 0, passes := 0, enabled := true, reserve := false, ring := 0 }

/-- R196: a bank at reset. -/
def Bank.reset : Bank :=
  { mode := 0, drain := false, owner := 0xFFFFFFFF, nextMode := 0, nextOwner := 0xFFFFFFFF, drainAt := 0 }

/-- R120: a queue at reset. -/
def Queue.reset : Queue :=
  { en := false, mode := false, bank := 0, off := 0, size := 0, cmask := 0, stage := 0, owner := 0, putix := 0,
    freeix := 0, slots := [], windows := [], contq := [] }

/-- R25, R125: cluster k at reset: its regulator is A for the dies C0 and C1, B for C2 and C3, and so on. -/
def Cluster.reset (k : Nat) : Cluster :=
  { banks := [], grans := [], queues := [], fmEn := false, fmHi := 12, fmLo := 2, fmHold := 50, rail := k / 24,
    lastTenant := none, fmAt := 0, upAt := 0 }

/-- R53: a link at reset. -/
def Link.reset : Link :=
  { en := false, up := false, stall := false, noroute := false, badtype := false, replays := 0, txSeq := 0, rxSeq := 0xFFFF,
    ackd := 0xFFFF, replay := [], sendq := [], credits := [], owed := [], naked := false, noProg := 0, retrains := 0,
    training := false, ackAt := 0, trainAt := 0, starve := [], rx := [], out := [] }

/-- R42, R53, R76, R88, R109, R213. -/
def Shared.reset : Shared :=
  { mgr := .A, tenants := [], winown := [], cluset := [], migpool := [], enacct := [], devid := 0xFFF, rtab := [],
    assayEn := false, logmatch := false, assayBase := 0, assaySize := 4, cntMismatch := 0, cntUnassay := 0,
    cntSkipped := 0, cntMatch := 0, reserve := [], hot := [], corrected := [], railsOff := false, energyAt := 0, refreshAt := [], patrolAt := [], mail := [] }

/-- R86: the firmware state at power-on, with what the fuses and the stored images hold (log entry 6). -/
def Boot.reset : Boot :=
  { done := false, failed := false, usVer := 0, cpVer := 0, usMin := Config.fuseUsMin, cpMin := Config.fuseCpMin,
    usHash := [], cpHash := [], staged := none, usImg := Config.usImage, cpImg := Config.cpImage, nextUs := none, nextCp := none, count := Config.bootCount, upAt := 0 }

/-- The machine at power-on, before bring-up: every field at the value the spec states, nothing loaded. A table that
does not list a core, cluster, regulator or link holds it at its own reset value. -/
def State.reset : State :=
  { now := 0, boot := Boot.reset, mem := [], poison := [], latent := [], hist := [], pubs := [], stamp := 1, flushed := 0,
    cores := [], clusters := [], regs := [], portA := Port.reset, portB := Port.reset, links := [], sh := Shared.reset,
    ctxs := [], insts := [], blocks := [], comms := [], colls := [], pfaults := [], nextToken := 1, migs := [],
    reported := [], silent := [], jobs := [], nextBlk := 0, nextInst := 0, nextUid := 1, nextColl := 0, nextJob := 0, meter := [], sel := none,
    inputs := [], free := 0 }

end Sys2Proof.Machine
end

