-- ==== Sys2Proof/Machine/Table.lean ====
section
/-! DEFINITION. Operations on tables (lists of pairs with rising keys), on sparse memory, and on little-endian bytes. -/

namespace Sys2Proof.Machine

/-- The entry of key `i`. -/
def tget? {α : Type} : Table α → Nat → Option α
  | [], _ => none
  | (k, v) :: r, i => if i = k then some v else tget? r i

/-- The entry of key `i`, or `d`. -/
def tget {α : Type} (t : Table α) (i : Nat) (d : α) : α := (tget? t i).getD d

/-- Sets the entry of key `i`, keeping the keys rising. -/
def tset {α : Type} : Table α → Nat → α → Table α
  | [], i, v => [(i, v)]
  | (k, w) :: r, i, v => if i = k then (i, v) :: r else if i < k then (i, v) :: (k, w) :: r else (k, w) :: tset r i v

/-- Removes key `i`. -/
def tdel {α : Type} : Table α → Nat → Table α
  | [], _ => []
  | (k, w) :: r, i => if i = k then tdel r i else (k, w) :: tdel r i

/-- A register file entry: absent reads zero. -/
def wget (t : Table Word) (i : Nat) : Word := tget t i 0

/-- Writing zero removes the entry, so equal files are equal lists. -/
def wset (t : Table Word) (i : Nat) (v : Word) : Table Word := if v = 0 then tdel t i else tset t i v

/-- The keys of a table rise strictly. -/
def tsorted {α : Type} : Table α → Bool
  | [] => true
  | [_] => true
  | (i, _) :: (j, w) :: r => decide (i < j) && tsorted ((j, w) :: r)

/-- The larger entry at each key (clocks of R222). -/
def tmax : Table Nat → Table Nat → Table Nat
  | a, [] => a
  | a, (k, v) :: r => tmax (if tget a k 0 < v then tset a k v else a) r

/-- A byte of memory: unlisted locations read zero (R23 step 5). -/
def mget (m : List Host.Cell) (a : Nat) : Byte := tget m a 0

/-- Writes a byte; writing zero removes the entry. -/
def mset (m : List Host.Cell) (a : Nat) (v : Byte) : List Host.Cell := if v = 0 then tdel m a else tset m a v

/-- The canonical form of a memory: rising addresses, no zero byte listed. -/
def memOk (m : List Host.Cell) : Bool := tsorted m && m.all (fun c => c.2 != 0)

/-- Writes bytes from `a` upward. -/
def msetN (m : List Host.Cell) (a : Nat) : List Byte → List Host.Cell
  | [] => m
  | b :: r => msetN (mset m a b) (a + 1) r

/-- Reads `n` bytes from `a` upward. -/
def mgetN (m : List Host.Cell) (a : Nat) : Nat → List Byte
  | 0 => []
  | n + 1 => mget m a :: mgetN m (a + 1) n

/-- Zeroes `n` bytes from `a`. -/
def mzero (m : List Host.Cell) (a n : Nat) : List Host.Cell := m.filter (fun c => c.1 < a || a + n ≤ c.1)

/-- R5: the number that little-endian bytes spell. -/
def leNat : List Byte → Nat
  | [] => 0
  | b :: r => b.toNat + 256 * leNat r

/-- R5: a number as `n` little-endian bytes. -/
def leBytes : Nat → Nat → List Byte
  | 0, _ => []
  | n + 1, x => BitVec.ofNat 8 x :: leBytes n (x / 256)

/-- A little-endian field of a byte list. -/
def fieldN (l : List Byte) (o n : Nat) : Nat := leNat ((l.drop o).take n)

/-- Bytes as 32-bit words, four to a word; a last short word is zero-extended. -/
def bytesWords : List Byte → List Word
  | b0 :: b1 :: b2 :: b3 :: r => BitVec.ofNat 32 (leNat [b0, b1, b2, b3]) :: bytesWords r
  | [] => []
  | l => [BitVec.ofNat 32 (leNat l)]

/-- Words as bytes, lowest first (R5). -/
def wordsBytes : List Word → List Byte
  | [] => []
  | w :: r => leBytes 4 w.toNat ++ wordsBytes r

/-- The number that words spell, lowest first (R233, R258). -/
def wordsNat : List Word → Nat
  | [] => 0
  | w :: r => w.toNat + 2 ^ 32 * wordsNat r

/-- A number as `n` words, lowest first. -/
def natWords : Nat → Nat → List Word
  | 0, _ => []
  | n + 1, x => BitVec.ofNat 32 x :: natWords n (x / 2 ^ 32)

/-- Inserts into a rising list without repeats. -/
def insertNat (l : List Nat) (x : Nat) : List Nat :=
  match l with
  | [] => [x]
  | y :: r => if x = y then l else if x < y then x :: l else y :: insertNat r x

/-- Replaces the element at index `i`. -/
def lset {α : Type} (l : List α) (i : Nat) (x : α) : List α := l.set i x

/-- Applies `f` to the element at index `i`. -/
def lmod {α : Type} (l : List α) (i : Nat) (f : α → α) : List α :=
  match l, i with
  | [], _ => []
  | x :: r, 0 => f x :: r
  | x :: r, n + 1 => x :: lmod r n f

/-- Applies `f` to each element with its index, from `i`. -/
def lmapIx {α β : Type} (i : Nat) (f : Nat → α → β) : List α → List β
  | [] => []
  | x :: r => f i x :: lmapIx (i + 1) f r

/-- Runs `f` over a list, left to right. -/
def foldS {α σ : Type} (f : α → σ → σ) : List α → σ → σ
  | [], s => s
  | x :: r, s => foldS f r (f x s)

/-- Bits [lo+len-1:lo] of a number. -/
def bitsN (x lo len : Nat) : Nat := x / 2 ^ lo % 2 ^ len

/-- The thread indices of a mask, ascending. -/
def maskList (m : BitVec 32) : List Nat := (List.range 32).filter (fun t => m.getLsbD t)

/-- The mask of a list of thread indices. -/
def listMask : List Nat → BitVec 32
  | [] => 0
  | t :: r => (1#32 <<< t) ||| listMask r

end Sys2Proof.Machine
end

