-- ==== Sys2Proof/Machine/Flags.lean ====
section
/-! DEFINITION. The sticky flags of a group (R397) and the arithmetic that sets them (R234, R242). -/

namespace Sys2Proof.Machine

/-- The flags of STICKY, by bit number (R397). -/
inductive Sticky where
  | divz | iovf | scalex | lapsed | altused | joinerr | mxreset | qcfg | modecfg
  deriving DecidableEq, Repr

def stickyBit : Sticky → Nat
  | .divz => 0 | .iovf => 1 | .scalex => 2 | .lapsed => 3 | .altused => 4 | .joinerr => 5 | .mxreset => 6 | .qcfg => 7
  | .modecfg => 8

/-- `set_sticky` of R266. -/
def setSticky (f : Sticky) (g : Group) : Group :=
  { g with r := { g.r with sticky := g.r.sticky ||| (1#9 <<< stickyBit f) } }

/-- Sets a flag when the condition holds. -/
def setStickyIf (b : Bool) (f : Sticky) (g : Group) : Group := if b then setSticky f g else g

/-- R397: a write of ones clears (RW1C). -/
def clearSticky (w : Word) (g : Group) : Group :=
  { g with r := { g.r with sticky := g.r.sticky &&& ~~~ (w.setWidth 9) } }

/-- R234: quotient, remainder and DIVZ of a signed division of width `n`. -/
def divSigned (n : Nat) (x y : Int) : Int × Int × Bool :=
  if y = 0 then ((if 0 ≤ x then 2 ^ (n - 1) - 1 else -(2 ^ (n - 1))), x, true)
  else (Int.tdiv x y, Int.tmod x y, false)

/-- R234: quotient, remainder and DIVZ of an unsigned division of width `n`. -/
def divUnsigned (n x y : Nat) : Nat × Nat × Bool :=
  if y = 0 then (2 ^ n - 1, x, true) else (x / y, x % y, false)

/-- R242: one step of the INT8 accumulation: the wrapped sum and IOVF. -/
def iaccStep (acc : Int) (a b : Int) : Int × Bool :=
  let e := acc + a * b
  let w := e % 2 ^ 32
  ((if w < 2 ^ 31 then w else w - 2 ^ 32), decide (e < -(2 ^ 31) ∨ 2 ^ 31 - 1 < e))

end Sys2Proof.Machine
end

