-- ==== Sys2Proof/Machine/Access.lean ====
section
/-! DEFINITION. Reading and changing the parts of the device: cores, clusters, ports, contexts, blocks, groups; the free
choices; the clocks of a core; the flat location space of memory. -/

namespace Sys2Proof.Machine

abbrev Out := Host.Outcome State Fault Refusal

/-- R13: the die of a cluster and the cluster of a core number. -/
def clusterOf (c : Nat) : Nat := c % 768 / 8
def dieOf (c : Nat) : Nat := c % 768 / 96

def State.cluster (s : State) (k : Nat) : Cluster := tget s.clusters k (Cluster.reset k)

/-- R39, R28: the counters of a core count from bring-up, or from the return of its rail. -/
def coreUp (s : State) (c : Nat) : Nat := Nat.max s.boot.upAt (s.cluster (clusterOf c)).upAt
def State.core (s : State) (c : Nat) : Core := tget s.cores c { Core.reset c with t0 := coreUp s c, sync := coreUp s c }
def setCore (s : State) (c : Nat) (k : Core) : State := { s with cores := tset s.cores c k }
def modCore (s : State) (c : Nat) (f : Core → Core) : State := setCore s c (f (s.core c))

def setCluster (s : State) (k : Nat) (x : Cluster) : State := { s with clusters := tset s.clusters k x }
def modCluster (s : State) (k : Nat) (f : Cluster → Cluster) : State := setCluster s k (f (s.cluster k))

def Cluster.bank (x : Cluster) (b : Nat) : Bank := tget x.banks b Bank.reset
def Cluster.queue (x : Cluster) (q : Nat) : Queue := tget x.queues q Queue.reset
def modBank (s : State) (k b : Nat) (f : Bank → Bank) : State :=
  modCluster s k (fun x => { x with banks := tset x.banks b (f (x.bank b)) })
def modQueue (s : State) (k q : Nat) (f : Queue → Queue) : State :=
  modCluster s k (fun x => { x with queues := tset x.queues q (f (x.queue q)) })

def State.reg (s : State) (x : Nat) : Regulator := tget s.regs x Regulator.reset
def modReg (s : State) (x : Nat) (f : Regulator → Regulator) : State := { s with regs := tset s.regs x (f (s.reg x)) }

def State.link (s : State) (p : Nat) : Link := tget s.links p Link.reset
def modLink (s : State) (p : Nat) (f : Link → Link) : State := { s with links := tset s.links p (f (s.link p)) }

def State.port (s : State) (hp : HPort) : Port := match hp with | .A => s.portA | .B => s.portB
def setPort (s : State) (hp : HPort) (x : Port) : State := match hp with | .A => { s with portA := x } | .B => { s with portB := x }
def modPort (s : State) (hp : HPort) (f : Port → Port) : State := setPort s hp (f (s.port hp))
def modHost (s : State) (hp : HPort) (f : HostRegs → HostRegs) : State := modPort s hp (fun p => { p with reg := f p.reg })
def modSub (s : State) (hp : HPort) (f : Subm → Subm) : State := modPort s hp (fun p => { p with sub := f p.sub })
def modTrap (s : State) (hp : HPort) (f : TrapRing → TrapRing) : State := modPort s hp (fun p => { p with trap := f p.trap })
def modDbg (s : State) (hp : HPort) (f : Dbg → Dbg) : State := modPort s hp (fun p => { p with dbg := f p.dbg })
def modSh (s : State) (f : Shared → Shared) : State := { s with sh := f s.sh }

def State.ctx? (s : State) (c : Word) : Option Context := tget? s.ctxs c.toNat
def modCtx (s : State) (c : Word) (f : Context → Context) : State :=
  match s.ctx? c with | some x => { s with ctxs := tset s.ctxs c.toNat (f x) } | none => s

def State.blk? (s : State) (b : Nat) : Option Block := tget? s.blocks b
def setBlk (s : State) (b : Nat) (x : Block) : State := { s with blocks := tset s.blocks b x }
def modBlk (s : State) (b : Nat) (f : Block → Block) : State :=
  match s.blk? b with | some x => setBlk s b (f x) | none => s
def State.grp? (s : State) (b g : Nat) : Option Group := match s.blk? b with | some x => x.groups[g]? | none => none
def modGrp (s : State) (b g : Nat) (f : Group → Group) : State :=
  modBlk s b (fun x => { x with groups := lmod x.groups g f })
def modThr (t : Nat) (f : Thread → Thread) (x : Group) : Group := { x with thr := lmod x.thr t f }
def modAllThr (f : Thread → Thread) (x : Group) : Group := { x with thr := x.thr.map f }
def modInst (s : State) (n : Nat) (f : Inst → Inst) : State :=
  match tget? s.insts n with | some x => { s with insts := tset s.insts n (f x) } | none => s

/-- The groups of every block, with their places. -/
def allGroups (s : State) : List (Nat × Nat × Group) :=
  s.blocks.flatMap (fun (b, x) => lmapIx 0 (fun g y => (b, g, y)) x.groups)

/-- Resident groups with their blocks. -/
def residents (s : State) : List (Nat × Block) := s.blocks.filter (fun x => x.2.life == .resident)

/-- R4: one of `n` listed outcomes; which one is free (log entry 7). A single outcome takes no choice. -/
def choose (s : State) (n : Nat) : Nat × State :=
  match n with
  | 0 => (0, s)
  | 1 => (0, s)
  | _ => (Config.choice s.free % n, { s with free := s.free + 1 })

/-- R4: one element of a list; the only one if it has one. -/
def chooseFrom {α : Type} (s : State) (d : α) : List α → α × State
  | [] => (d, s)
  | [x] => (x, s)
  | x :: r => let k := choose s (r.length + 1); ((x :: r).getD k.1 d, k.2)

/-- R36: ticks of 160 ps in a cycle of each class. -/
def classTicks : TClass → Nat | .q => 4 | .n => 5 | .s => 7 | .l => 10

/-- R137: the slower of two classes. -/
def slower (x y : TClass) : TClass := if classTicks x < classTicks y then y else x

/-- R36: the length of the cycle that begins at a CYC value: the slowest class in flight, else class Q. -/
def cycleTicks (k : Core) (n : Nat) : Nat :=
  k.tail.foldl (fun m x => if x.2.1 ≤ n ∧ n < x.2.2 then Nat.max m (classTicks x.1) else m) (if k.gath then 5 else 4)

/-- R36: CYC, and the ticks into its cycle, `t` ticks after CYC was `n`; the second argument bounds the cycles of in-flight work. -/
def runClock (c : Core) : Nat → Nat → Nat → Nat × Nat
  | 0, n, t => let d := if c.gath then 5 else 4; (n + t / d, t % d)
  | k + 1, n, t => if t < cycleTicks c n then (n, t) else runClock c k (n + 1) (t - cycleTicks c n)

/-- R37: the CYC value at which the last work in flight ends. -/
def tailEnd (tail : List (TClass × Nat × Nat)) : Nat := tail.foldl (fun m x => Nat.max m x.2.2) 0

/-- R39: CYC of a core at a device time, and the ticks into its cycle. -/
def coreClock (k : Core) (now : Nat) : Nat × Nat := runClock k (tailEnd k.tail - k.cyc) k.cyc (now - k.sync)

/-- R39, R40: ETM and CYC of core c. A cycle advances both as it ends. Every core counts from its own start on one base without
drift (log entry 8). -/
def State.etm (s : State) (c : Nat) : Nat := s.now - (coreClock (s.core c) s.now).2 - (s.core c).t0
def State.cyc (s : State) (c : Nat) : Nat := (coreClock (s.core c) s.now).1

/-- R427: the device time of the start of a core's cycle, by which R161 counts. -/
def coreEdge (s : State) (c : Nat) : Nat := s.etm c + (s.core c).t0

/-- Brings a core's counter up to now, dropping the work that has left flight. -/
def syncCore (now : Nat) (k : Core) : Core :=
  let r := coreClock k now
  { k with cyc := r.1, sync := now - r.2, tail := k.tail.filter (fun x => r.1 < x.2.2) }

/-- R39: the core stands at the start of a cycle. -/
def atEdge (s : State) (c : Nat) : Bool := (coreClock (s.core c) s.now).2 == 0

/-- R37: works of a class, each from its first cycle to the cycle in which it has ended, counted from now. -/
def addWorks (now : Nat) (works : List (TClass × Nat × Nat)) (k : Core) : Core :=
  let k := syncCore now k
  { k with tail := k.tail ++ works.map (fun w => (w.1, k.cyc + w.2.1, k.cyc + w.2.2)) }

/-- R37: work of a class is in flight on the core for so many cycles more. -/
def addTail (now : Nat) (cls : TClass) (n : Nat) (k : Core) : Core := addWorks now [(cls, 0, n)] k

/-- R131: the issue slot of a lane is free in the cycle that begins now. -/
def issueFree (s : State) (c l : Nat) : Bool := decide (tget (s.core c).busy l 0 ≤ s.cyc c)

/-- R131, R36, R37: a pass takes `n` issue cycles of some lanes from now, and its works are in flight. -/
def occupy (c : Nat) (lanes : List Nat) (n : Nat) (works : List (TClass × Nat × Nat)) (s : State) : State :=
  modCore s c (fun k =>
    let k := addWorks s.now works k
    { k with busy := lanes.foldl (fun t l => tset t l (k.cyc + n)) (k.busy.filter (fun b => k.cyc < b.2)) })

/-- Ticks of 160 ps in a span given in ns, µs or ms, rounded up (R39, R407). -/
def nsTicks (n : Nat) : Nat := ceilDiv (n * 25) 4
def usTicks (n : Nat) : Nat := n * 6250

/-- R43: an account uses something: cluster k's lane cycles and k-steps (kinds 0 to 95), bytes moved in the uncore (96), saves for a
pre-emption (97), restores (98), assay replays (99), refresh (100), ballast (101). -/
def note (kind acct n : Nat) (s : State) : State :=
  if acct ≤ 16 then { s with meter := tset s.meter (32 * kind + acct) (tget s.meter (32 * kind + acct) 0 + n) } else s
def msTicks (n : Nat) : Nat := n * 6250000

/-- R14: the core that now has number c: the last of the reserve cores that took it, else the core built for it. -/
def holderFrom (s : State) (c : Nat) : Nat → Nat
  | 0 => c
  | r + 1 => if (tget? s.cores (c + 768 * (r + 1))).isSome then c + 768 * (r + 1) else holderFrom s c r
def holder (s : State) (c : Nat) : Nat := holderFrom s (c % 768) 5

/-- The flat location space: device physical memory lies at its own address (R19); after it the coherent window (R201),
the layer banks of each cluster (R199), the memory of the two hosts, and the scratch of each block (R186). -/
def winLoc (a : Nat) : Nat := 2 ^ 42 + a
def layLoc (k a : Nat) : Nat := 2 ^ 43 + k * 2 ^ 26 + a
def hostLoc (hp : HPort) (a : Nat) : Nat := 2 ^ 66 + (match hp with | .A => 0 | .B => 2 ^ 64) + a
def scrLoc (b o : Nat) : Nat := 2 ^ 68 + b * 2 ^ 23 + o

/-- R19. -/
def hbmEnd : Nat := 2 ^ 40
def backedEnd : Nat := 3 * 2 ^ 40

/-- The sector of a location (R63). -/
def sectorOf (a : Nat) : Nat := a / 16 * 16

/-- The sectors that `n` bytes from `a` touch. -/
def sectorsOf (a n : Nat) : List Nat :=
  if n = 0 then [] else (List.range ((sectorOf (a + n - 1) - sectorOf a) / 16 + 1)).map (fun k => sectorOf a + 16 * k)

/-- R63: some sector of the range is marked poison. -/
def poisoned (s : State) (a n : Nat) : Bool := (sectorsOf a n).any (fun x => s.poison.contains x)

/-- Marks sectors poison. -/
def setPoison (s : State) (l : List Nat) : State := { s with poison := l.foldl insertNat s.poison }

/-- R103: a region entry of a thread at an address. -/
def regionAt (pc : Word) (meet : Option Word) (vw sw tick : Nat) : Region :=
  { pc := pc, meet := meet, vw := vw, sw := sw, endOff := none, tick := tick }

/-- R168: threads of the group that are live, and whether a thread is unheld by a handler (R150). -/
def Group.liveT (g : Group) (t : Nat) : Bool := match g.thr[t]? with | some x => x.live | none => false
def Group.inHandler (g : Group) (t : Nat) : Bool := match g.handler with | some h => h.mask.getLsbD t | none => true
def Group.liveList (g : Group) : List Nat := (List.range 32).filter g.liveT
def Group.pcOf (g : Group) (t : Nat) : Word := match g.thr[t]? with | some x => x.pc | none => 0

/-- A thread that has exited. -/
def Thread.dead : Thread :=
  { pc := 0, live := false, meet := none, region := regionAt 0 none 0 0 0, skip := 0, latch := [], event := false, cont := none }

end Sys2Proof.Machine
end

