-- ==== Sys2Proof/Machine/Memory.lean ====
section
/-! DEFINITION. Memory and its consistency (chapter 13): performing writes, the coherence order, publishes, acquires and
the value a plain load returns. -/

namespace Sys2Proof.Machine

/-- R430: when a write of a kind counts towards a PUB of its group. -/
def finOf (stamp : Nat) : WKind → Option Nat | .engine _ => none | _ => some stamp

/-- One record per byte of a write (R219). -/
def wrecs (stamp who : Nat) (kind : WKind) (m : List Host.Cell) (a : Nat) : List Byte → List WRec
  | [] => []
  | b :: r => { stamp := stamp, loc := a, old := mget m a, new := b, who := who, kind := kind, fin := finOf stamp kind } :: wrecs stamp who kind m (a + 1) r

/-- Performs a write of one access: memory, coherence order, and the poison of sectors it covers whole (R63). -/
def writeLoc (s : State) (who : Nat) (kind : WKind) (a : Nat) (bs : List Byte) : State :=
  { s with
    mem := msetN s.mem a bs
    hist := wrecs s.stamp who kind s.mem a bs ++ s.hist
    stamp := s.stamp + 1
    poison := s.poison.filter (fun p => !(a ≤ p && p + 16 ≤ a + bs.length))
    latent := s.latent.filter (fun p => !(a ≤ p && p + 16 ≤ a + bs.length)) }

/-- Clears a range to zero with valid check bits and no history (R23, R28, R197). -/
def clearRange (s : State) (a n : Nat) : State :=
  { s with
    mem := mzero s.mem a n
    hist := s.hist.filter (fun w => w.loc < a || a + n ≤ w.loc)
    poison := s.poison.filter (fun p => p < a || a + n ≤ p)
    latent := s.latent.filter (fun p => p < a || a + n ≤ p) }

/-- R218: scopes at or wider than `.dev`. -/
def scopeDevWide : Scope → Bool | .dev => true | .host => true | .fab => true | _ => false

/-- R220: scopes that publish nothing beyond group order. -/
def scopeNarrow : Scope → Bool | .thr => true | .quad => true | .grp => true | _ => false

/-- The scope a publishing barrier names. -/
def pubScope : PubScope → Scope
  | .blk => .blk | .core => .core | .trp => .trp | .clu => .clu | .die => .die | .dev => .dev | .host => .host | .fab => .fab

/-- R218: the instance of a scope for a group: the identities of its groups, `none` for every group of the device. -/
def instanceOf (s : State) (b : Nat) (x : Block) (uid : Nat) (sc : Scope) : Option (List Nat) :=
  let pick (p : Nat → Block → Bool) : Option (List Nat) :=
    some (s.blocks.flatMap (fun (k, y) => if p k y then y.groups.map (·.uid) else []))
  let res (y : Block) : Bool := y.life == .resident
  match sc with
  | .thr => some [uid] | .quad => some [uid] | .grp => some [uid]
  | .blk => pick (fun k _ => k == b)
  | .core => pick (fun _ y => res y && y.core == x.core)
  | .trp => pick (fun _ y => y.inst == x.inst && y.node == x.node && y.troupe == x.troupe)
  | .clu => pick (fun _ y => res y && clusterOf y.core == clusterOf x.core)
  | .die => pick (fun _ y => res y && dieOf y.core == dieOf x.core)
  | .dev => none | .host => none | .fab => none

/-- Membership in an instance. -/
def inInst (m : Option (List Nat)) (uid : Nat) : Bool := match m with | none => true | some l => l.contains uid

/-- R222: what a publish of the group carries: all it acquired, and its own writes so far. -/
def clockOf (s : State) (g : Group) : Table Nat := tset (tmax g.c.hb [(g.uid, s.stamp)]) g.uid s.stamp

/-- R222, R226: the same for scratch, which other links also join. -/
def scrClockOf (s : State) (g : Group) : Table Nat := tmax g.c.hbScr (clockOf s g)

/-- R220: the record of a group's publish. -/
def pubOf (s : State) (b : Nat) (x : Block) (y : Group) (sc : Scope) (scrOnly : Bool) (join : Bool := false) : PubRec :=
  { who := y.uid, stamp := s.stamp, members := instanceOf s b x y.uid sc, scope := sc, clock := clockOf s y, scr := scrClockOf s y, scrOnly := scrOnly,
    blk := b, core := x.core, troupe := (x.inst, x.node, x.troupe), join := join }

/-- R220: the group publishes at a scope. Scopes up to `.grp` publish nothing. -/
def publish (s : State) (b g : Nat) (sc : Scope) (join : Bool := false) : State :=
  if scopeNarrow sc then s
  else match s.blk? b with
    | none => s
    | some x =>
      match x.groups[g]? with
      | none => s
      | some y => { s with pubs := pubOf s b x y sc false join :: s.pubs, stamp := s.stamp + 1 }

/-- R226: the group publishes its scratch stores at `.blk`. -/
def publishScratch (s : State) (b g : Nat) : State :=
  match s.blk? b with
  | none => s
  | some x =>
    match x.groups[g]? with
    | none => s
    | some y => { s with pubs := pubOf s b x y .blk true :: s.pubs, stamp := s.stamp + 1 }

/-- R218: a block lies with the party of a publish, where that party then was, in one instance of a scope. -/
def withParty (b : Nat) (x : Block) (p : PubRec) : Scope → Bool
  | .thr => false | .quad => false | .grp => false
  | .blk => p.blk == b
  | .core => p.core == x.core
  | .trp => p.troupe == (x.inst, x.node, x.troupe)
  | .clu => clusterOf p.core == clusterOf x.core
  | .die => dieOf p.core == dieOf x.core
  | .dev => true | .host => true | .fab => true

/-- R127: the publish of a JOIN stays joined to an ACQ of a consumer beside the child, though the child has left. -/
def joinedPub (b : Nat) (x : Block) (sc : Scope) (p : PubRec) : Bool := p.join && withParty b x p p.scope && withParty b x p sc

/-- R222: joins to the clocks, of every space and of scratch, the publishes that the group observed and that both instances allow. -/
def acqHb (c : Cons) (uid : Nat) (inst : Option (List Nat)) (near : PubRec → Bool) :
    List PubRec → Table Nat × Table Nat → Table Nat × Table Nat
  | [], z => z
  | p :: r, z =>
    acqHb c uid inst near r
      (if p.stamp < tget c.obs p.who 0 && (near p || (inInst p.members uid && inInst inst p.who)) then
        (if p.scrOnly then z.1 else tmax z.1 p.clock, tmax (tmax z.2 p.clock) p.scr) else z)

/-- R221, R224: the group acquires at a scope. -/
def acquire (s : State) (b g : Nat) (sc : Scope) : State :=
  match s.blk? b with
  | none => s
  | some x =>
    match x.groups[g]? with
    | none => s
    | some y =>
      let z := acqHb y.c y.uid (instanceOf s b x y.uid sc) (joinedPub b x sc) s.pubs (y.c.hb, y.c.hbScr)
      let hb := if scopeDevWide sc then tmax z.1 [(0, s.flushed)] else z.1
      let s := modGrp s b g (fun y =>
        { y with c := { y.c with stable := [], floor := tmax y.c.floor y.c.seen, seen := [], acq := s.stamp, hb := hb, hbScr := z.2 } })
      { s with stamp := s.stamp + 1 }

/-- R226: ACQ at `.blk` for scratch alone. -/
def acquireScratch (s : State) (b g : Nat) : State :=
  match s.blk? b with
  | none => s
  | some x =>
    match x.groups[g]? with
    | none => s
    | some y =>
      let z := acqHb y.c y.uid (instanceOf s b x y.uid .blk) (joinedPub b x .blk) s.pubs (y.c.hb, y.c.hbScr)
      modGrp s b g (fun y => { y with c := { y.c with stable := y.c.stable.filter (fun c => !(2 ^ 68 ≤ c.1)), hbScr := z.2 } })

/-- The spaces in which a bank holds one physical copy (R223): scratch and layer space. -/
def bankLoc (a : Nat) : Bool := 2 ^ 68 ≤ a || (2 ^ 43 ≤ a && a < 2 ^ 66)

/-- R226: scratch alone. -/
def scrSpace (a : Nat) : Bool := 2 ^ 68 ≤ a

/-- R220, R430: a publish covers the write. -/
def publishes (p : PubRec) (w : WRec) : Bool :=
  p.who == w.who && (match w.fin with | some f => decide (f ≤ p.stamp) | none => false) && (!p.scrOnly || scrSpace w.loc)

/-- R223, R430: the write is the group's own or is published to an instance of the group. -/
def visible (s : State) (g : Group) (w : WRec) : Bool :=
  let pub : Bool := s.pubs.any (fun p => publishes p w && inInst p.members g.uid)
  match w.kind with
  | .atomic => if bankLoc w.loc then w.who == g.uid || pub else w.stamp < g.c.acq
  | .store => w.who == g.uid || pub
  | .engine _ => w.who == g.uid || pub
  | .flush => true
  | .barC => true

/-- R222, R223: the write happens before the group's next load; an engine write only once its operation has completed (R230). -/
def happened (g : Group) (w : WRec) : Bool :=
  let hb := match w.fin with
    | some f => decide (f ≤ tget g.c.hb w.who 0) || (scrSpace w.loc && decide (f ≤ tget g.c.hbScr w.who 0))
    | none => false
  match w.kind with
  | .atomic => (w.who == g.uid && bankLoc w.loc) || (hb && (bankLoc w.loc || w.stamp < g.c.acq))
  | .barC => false
  | .flush => hb
  | .engine _ => (w.who == g.uid && w.fin.isSome) || hb
  | .store => w.who == g.uid || hb

/-- R223: the write may be returned to the group's plain loads. A store joined to the load by a chain of links supersedes older values, so
it is returned even where no one publish of the chain reaches the group (log entry 10). -/
def returnable (s : State) (g : Group) (w : WRec) : Bool := visible s g w || happened g w

/-- The writes to one location, newest first. -/
def writesAt (s : State) (a : Nat) : List WRec := s.hist.filter (fun w => w.loc == a)

/-- The least stamp a load of this byte may look back to (R219, R223, R224). -/
def loadFloor (s : State) (g : Group) (a : Nat) : Nat :=
  (writesAt s a).foldl (fun m w => if happened g w then max m w.stamp else m) (tget g.c.floor a 0)

/-- The value and the write (writer, stamp) of a byte at view time `T`: the newest returnable write up to `T`, else the byte
before every recorded write. -/
def valueAt (s : State) (g : Group) (T a : Nat) : Byte × Nat × Nat :=
  match (writesAt s a).find? (fun w => w.stamp ≤ T && returnable s g w) with
  | some w => (w.new, w.who, w.stamp)
  | none => match (writesAt s a).getLast? with
    | some w => (w.old, 0, 0)
    | none => (mget s.mem a, 0, 0)

/-- The byte a bank holds now, with its last write. -/
def bankValue (s : State) (a : Nat) : Byte × Nat × Nat :=
  match writesAt s a with
  | w :: _ => (mget s.mem a, w.who, w.stamp)
  | [] => (mget s.mem a, 0, 0)

/-- The locations of an access. -/
def locs (a n : Nat) : List Nat := (List.range n).map (a + ·)

/-- The view times a load of these bytes may take (R219 single-copy atomicity: one time for the whole access); `none`
is what the bank holds. -/
def viewTimes (s : State) (g : Group) (a n : Nat) : List (Option Nat) :=
  let lo := (locs a n).foldl (fun m x => max m (loadFloor s g x)) 0
  let ws := (locs a n).flatMap (fun x => (writesAt s x).filter (fun w => lo ≤ w.stamp && returnable s g w))
  let ts := (ws.map (·.stamp)).eraseDups
  -- a value of the bank that nobody has published is a floor too
  if bankLoc a then none :: ((ts.filter (fun T => (locs a n).all (fun x => decide (loadFloor s g x ≤ (valueAt s g T x).2.2)))).map some)
  else some lo :: ((ts.filter (fun x => x != lo)).map some)

/-- What a load of the bytes returns at a view time: location, byte, writer and stamp. A byte with a stable value keeps it (R224). -/
def gotAt (s : State) (y : Group) (a n : Nat) (T : Option Nat) : List (Nat × Byte × Nat × Nat) :=
  (locs a n).map (fun x =>
    match tget? y.c.stable x with
    | some v => (x, v, 0, tget y.c.floor x 0)
    | none => let r := match T with | some T => valueAt s y T x | none => bankValue s x
              (x, r.1, r.2.1, r.2.2))

/-- R219: some write is seen in one of the bytes and not in another that it also wrote. -/
def torn (s : State) (got : List (Nat × Byte × Nat × Nat)) : Bool :=
  got.any (fun e => got.any (fun z => z.2.2.2 < e.2.2.2 && (writesAt s z.1).any (fun w => w.stamp == e.2.2.2)))

/-- R219: the view times at which the load sees no part of a write; where the stable bytes leave none, all of them (log entry 10). -/
def wholeTimes (s : State) (y : Group) (a n : Nat) : List (Option Nat) :=
  let ts := viewTimes s y a n
  let ok := ts.filter (fun T => !torn s (gotAt s y a n T))
  if ok.isEmpty then ts else ok

/-- R222, R224: what a plain load returned joins the view of the group: the bytes are stable, and the floor and what it has observed follow. -/
def noteView (uid : Nat) (got : List (Nat × Byte × Nat × Nat)) (c : Cons) : Cons :=
  got.foldl (fun (c : Cons) (x : Nat × Byte × Nat × Nat) =>
    { c with
      stable := tset c.stable x.1 x.2.1
      floor := if tget c.floor x.1 0 < x.2.2.2 then tset c.floor x.1 x.2.2.2 else c.floor
      obs := if x.2.2.1 = 0 ∨ x.2.2.1 = uid then c.obs else tmax c.obs [(x.2.2.1, x.2.2.2)] }) c

/-- R223, R224: a plain load of `n` bytes at location `a` by a group: the bytes, and the group's new view. -/
def plainLoad (s : State) (b g : Nat) (a n : Nat) : List Byte × State :=
  match s.grp? b g with
  | none => ([], s)
  | some y =>
    let k := chooseFrom s none (wholeTimes s y a n)
    let got := gotAt s y a n k.1
    (got.map (fun x => x.2.1), modGrp k.2 b g (fun z => { z with c := noteView y.uid got y.c }))

/-- R224: a store of the group's own: the bytes are no longer stable and join the floor. -/
def ownWrite (s : State) (b g : Nat) (kind : WKind) (a : Nat) (bs : List Byte) : State :=
  match s.grp? b g with
  | none => s
  | some y =>
    let st := s.stamp
    let s := writeLoc s y.uid kind a bs
    modGrp s b g (fun y => { y with c := (locs a bs.length).foldl (fun (c : Cons) x =>
      { c with stable := tdel c.stable x, floor := tset c.floor x st }) y.c })

/-- R224: a gather's writes are no store for read stability and floor. -/
def opStores (op : Nat) : Bool := op != 2

/-- R230, R224: a write by an engine operation of the group, which has not completed: the bytes are no longer stable, and a load of them
returns the old or the new value. -/
def engWrite (s : State) (b g op : Nat) (a : Nat) (bs : List Byte) : State :=
  match s.grp? b g with
  | none => s
  | some y =>
    let s := writeLoc s y.uid (.engine op) a bs
    if opStores op then modGrp s b g (fun y => { y with c := { y.c with stable := (locs a bs.length).foldl tdel y.c.stable } }) else s

/-- A write of an operation that has not completed. -/
def openWrite (uid op : Nat) (w : WRec) : Bool := w.who == uid && w.kind == .engine op && w.fin.isNone

/-- R230, R430, R224: an engine operation completes: from now on its writes are the group's own and its PUBs publish them. -/
def finWrites (s : State) (b g op : Nat) : State :=
  match s.grp? b g with
  | none => s
  | some y =>
    let ws := s.hist.filter (openWrite y.uid op)
    if ws.isEmpty then s
    else
      let s := { s with hist := s.hist.map (fun w => if openWrite y.uid op w then { w with fin := some s.stamp } else w), stamp := s.stamp + 1 }
      if opStores op then modGrp s b g (fun y => { y with c := ws.foldl (fun (c : Cons) w =>
        { c with stable := tdel c.stable w.loc, floor := tmax c.floor [(w.loc, w.stamp)] }) y.c }) else s

/-- R28: the operations of a group end without completing. -/
def dropWrites (s : State) (uid : Nat) : State :=
  { s with hist := s.hist.map (fun w => match w.kind with
      | .engine _ => if w.who == uid && w.fin.isNone then { w with kind := .engine 0 } else w
      | _ => w) }

/-- R225, R360: an atomic at location `a`: reads, writes `new` of the old value where it writes, and records what the
group observed. In scratch it is a store for R224, even where it leaves the location as it is; in the device range its value joins the floor at the next ACQ. -/
def atomicAt (s : State) (b g : Nat) (a n : Nat) (f : Nat → Option Nat) : Nat × State :=
  match s.grp? b g with
  | none => (0, s)
  | some y =>
    let old := leNat (mgetN s.mem a n)
    let obs := (locs a n).foldl (fun o x => (writesAt s x).foldl (fun o w =>
      if w.who = 0 ∨ w.who = y.uid then o else tmax o [(w.who, w.stamp)]) o) y.c.obs
    let last := (locs a n).foldl (fun m x => match writesAt s x with | w :: _ => max m w.stamp | [] => m) 0
    let s1 := modGrp s b g (fun y => { y with c := { y.c with
      obs := obs
      seen := if bankLoc a then y.c.seen else (locs a n).foldl (fun t x => tmax t [(x, last)]) y.c.seen } })
    match f old with
    | none =>
      if bankLoc a then (old, modGrp s1 b g (fun y => { y with c := (locs a n).foldl (fun (c : Cons) x =>
        { c with stable := tdel c.stable x, floor := tmax c.floor [(x, (bankValue s x).2.2)] }) y.c }))
      else (old, s1)
    | some v =>
      if bankLoc a then (old, ownWrite s1 b g .atomic a (leBytes n v))
      else
        let st := s1.stamp
        let s2 := writeLoc s1 y.uid .atomic a (leBytes n v)
        (old, modGrp s2 b g (fun y => { y with c := { y.c with
          seen := (locs a n).foldl (fun t x => tmax t [(x, st)]) y.c.seen } }))

/-- R222: the view of a group that starts as just after an ACQ at `.host`, joined to the clock of the launch link. -/
def Cons.start (stamp : Nat) (hb : Table Nat) : Cons :=
  { stable := [], floor := [], acq := stamp, hb := hb, hbScr := [], obs := [], seen := [] }

/-- R232: a group resumes as after an ACQ at `.dev`. -/
def Cons.resume (stamp flushed : Nat) (c : Cons) : Cons :=
  { c with stable := [], floor := tmax c.floor c.seen, seen := [], acq := stamp, hb := tmax c.hb [(0, flushed)] }

end Sys2Proof.Machine
end

