-- ==== Sys2Proof/Machine/Xlate.lean ====
section
/-! DEFINITION. Translation (R202 to R207), migration (R214), and the checks of layer space and the coherent window (R199, R201). -/

namespace Sys2Proof.Machine

/-- R205: a leaf: the page, its size, and its attributes. -/
structure Leaf where
  pa : Nat
  size : Nat
  r : Bool
  w : Bool
  x : Bool
  imm : Bool
  apl : Nat
  tier : Nat
  alt : Option Nat
  deriving DecidableEq, Repr

/-- R206: how a walk ends. -/
inductive Walk where
  | notPresent | malformed | poisoned | leaf (l : Leaf)
  deriving DecidableEq, Repr

/-- R202: a canonical address. -/
def canonical (va : BitVec 64) : Bool := va.toNat / 2 ^ 56 == 0 || va.toNat / 2 ^ 56 == 0xFF

/-- R203: the two words of the entry at a physical address, read from HBM. -/
def entryAt (s : State) (a : Nat) : Nat × Nat := (leNat (mgetN s.mem a 8), leNat (mgetN s.mem (a + 8) 8))

/-- R205: reads a leaf entry that maps `size` bytes. DESIGN CHOICE: one that is malformed and names an unbacked page is malformed
(log entry 36). -/
def readLeaf (w0 w1 size : Nat) : Walk :=
  let pa := bitsN w0 16 26 * 2 ^ 16
  let alt := bitsN w1 16 26 * 2 ^ 16
  let altOn := bitsN w0 11 1 == 1
  if bitsN w0 42 22 != 0 || bitsN w0 14 2 != 0 || bitsN w0 5 3 != 0 || bitsN w0 12 2 == 3 || bitsN w0 8 2 == 3
      || pa % size != 0 || bitsN w1 42 22 != 0 || bitsN w1 0 16 != 0 || (!altOn && alt != 0)
      || (altOn && (alt % size != 0 || backedEnd ≤ alt)) then .malformed
  else if backedEnd ≤ pa then .notPresent
  else .leaf { pa := pa, size := size, r := bitsN w0 2 1 == 1, w := bitsN w0 3 1 == 1, x := bitsN w0 4 1 == 1,
               imm := bitsN w0 10 1 == 1, apl := bitsN w0 8 2, tier := bitsN w0 12 2, alt := if altOn then some alt else none }

/-- R204: the next table a pointer entry names; `none` where it is malformed. `align` is the size of that table. -/
def readPointer (w0 w1 align : Nat) : Option Nat :=
  let next := bitsN w0 9 33 * 2 ^ 9
  if bitsN w0 42 22 != 0 || bitsN w0 2 7 != 0 || w1 != 0 || hbmEnd < next + align || next % align != 0 then none else some next

/-- The levels of the walk from level `n - 1` down (R203): lowest address bit, entries, leaf size, size of the table below. -/
def walkFrom (s : State) (va : Nat) : Nat → Nat → Walk
  | 0, _ => .malformed
  | n + 1, table =>
    let shift := match n with | 0 => 16 | 1 => 21 | 2 => 30 | _ => 39
    let bits := match n with | 0 => 5 | 1 => 9 | 2 => 9 | _ => 18
    let a := table + 16 * bitsN va shift bits
    let e := entryAt s a
    if s.poison.contains (sectorOf a) then .poisoned
    else if e.1 % 2 = 0 then .notPresent
    else if n = 0 then readLeaf e.1 e.2 (2 ^ 16)
    else if bitsN e.1 1 1 = 1 then
      (if n = 1 then readLeaf e.1 e.2 (2 ^ 21) else if n = 2 then readLeaf e.1 e.2 (2 ^ 30) else .malformed)
    else match readPointer e.1 e.2 (if n = 1 then 512 else 8192) with
      | some t => walkFrom s va n t
      | none => .malformed

/-- R203, R206: the walk of a context for a canonical address. -/
def walk (s : State) (c : Context) (va : BitVec 64) : Walk :=
  let root := c.root.toNat
  if hbmEnd < root + 2 ^ 22 || root % 2 ^ 22 != 0 then .malformed else walkFrom s va.toNat 4 root

/-- The promoted page or page in transit whose home is this page (R214, R215). -/
def migOf (s : State) (home : Nat) : Option Mig := s.migs.find? (fun m => m.home == home)

/-- R214: a leaf that migrates: of 64 KiB, in the second tier, AUTO or ONPREF. -/
def migLeaf (l : Leaf) : Bool := l.size == 2 ^ 16 && hbmEnd ≤ l.pa && (l.tier == 1 || l.tier == 2)

/-- R214: the promotion or transit that an access through a leaf of the context meets. -/
def migFor (s : State) (c : Context) (l : Leaf) : Option Mig :=
  match migOf s l.pa with | some m => if migLeaf l && m.tenant == c.tenant then some m else none | none => none

/-- R207, R214: what an access meets at an address. -/
inductive Acc where
  /-- Physical address now used, its leaf, and the page's home address. -/
  | ok (pa : Nat) (l : Leaf)
  | perm | notPresent | poisoned
  deriving DecidableEq, Repr

/-- The kinds of permission an access needs (R207, R362). -/
inductive Need where
  | read | write | rw | fetch | flush
  deriving DecidableEq, Repr

/-- R207. -/
def permits (n : Need) (l : Leaf) : Bool :=
  match n with
  | .read => l.r
  | .write => l.w && !l.imm
  | .flush => l.w
  | .rw => l.r && l.w && !l.imm
  | .fetch => l.x

/-- R202, R206, R207, R214: translates an address for an access. -/
def access (s : State) (c : Context) (n : Need) (va : BitVec 64) : Acc :=
  if !canonical va then .perm
  else match walk s c va with
    | .notPresent => .notPresent
    | .malformed => .perm
    | .poisoned => .poisoned
    | .leaf l =>
      if !permits n l then .perm
      else
        let off := va.toNat % l.size
        match migFor s c l with
        | some m => if m.transit then .ok (l.pa + off) l else .ok (m.frame + off) l
        | none => .ok (l.pa + off) l

/-- The page address of a fault (R154): 64 KiB is the smallest page. -/
def pageOf (va : BitVec 64) : BitVec 64 := va &&& ~~~ (0xFFFF#64)

/-- R199: the layer access of a context at a bank; while an accepted switch into LAYER mode for it drains, it counts as
the owner. -/
def layerOk (s : State) (k : Nat) (ctx : Word) (a : Nat) : Bool :=
  let b := (s.cluster k).bank (bitsN a 22 4)
  a < 2 ^ 26 && ((!b.drain && b.mode == 1 && b.owner == ctx) || (b.drain && b.nextMode == 1 && b.nextOwner == ctx))

/-- R197: the bank of a layer address drains, so an access that passed its checks waits. -/
def layerDrains (s : State) (k a : Nat) : Bool := ((s.cluster k).bank (bitsN a 22 4)).drain

/-- R201: the window frame belongs to the tenant. -/
def windowOk (s : State) (tenant a : Nat) : Bool :=
  a < 2 ^ 23 && (tget s.sh.winown (bitsN a 16 7) 0).toNat == tenant

/-- R190: the granule of a scratch offset: the header's class from the block's start, unless ALLOC, FREE or LIFE set one. -/
def scrGran (x : Block) (o : Nat) : Gran :=
  tget x.grans (o / 4096)
    { cls := x.h.sclass, start := x.start,
      spanEnd := (x.start + (if x.h.sclass = 3 then msTicks x.h.span else 0) : Nat),
      expiry := (x.start + usTicks x.h.life + (if x.h.sclass = 3 then msTicks x.h.span else 0) : Nat),
      written := false, freed := false }

/-- R190, R197: the granule of a layer address: class H since the switch into LAYER mode. -/
def layGran (x : Cluster) (a : Nat) : Gran :=
  tget x.grans (a / 4096) { cls := 0, start := 0, spanEnd := 0, expiry := 0, written := false, freed := false }

/-- R190: expired at an ETM value. -/
def granExpired (g : Gran) (etm : Nat) : Bool := g.cls != 0 && decide (g.expiry ≤ (etm : Int))

/-- R191: the core whose ETM judges a layer granule: the core above which its bank lies. -/
def layCore (s : State) (k a : Nat) : Nat := holder s (8 * k + bitsN a 22 4 / 2)

/-- What an access to a scratch or layer granule meets (R190, R357, R431): `live`, precise EXPIRED, or a lapse (reads
zero, writes discarded). -/
inductive GranSt where
  | live | expired | lapsed
  deriving DecidableEq, Repr

def granSt (g : Gran) (etm : Nat) : GranSt :=
  if g.freed then .lapsed
  else if granExpired g etm then (if g.cls = 2 then .lapsed else .expired)
  else .live

/-- Marks a granule written (R359) and changed since the last boundary (R117). -/
def markScr (s : State) (b o : Nat) : State :=
  modBlk s b (fun x => { x with grans := tset x.grans (o / 4096) { scrGran x o with written := true }, dirty := insertNat x.dirty (o / 4096) })
def markLay (s : State) (k a : Nat) : State :=
  modCluster s k (fun x => { x with grans := tset x.grans (a / 4096) { layGran x a with written := true } })

end Sys2Proof.Machine
end

