-- ==== Sys2Proof/Machine/Ops.lean ====
section
/-! DEFINITION. The named operations of a group: trap-ring entries, parking and waking, latches, the Assayer's streams,
rollback, TAKING A PRECISE FAULT (R147 to R151) and returning from the handler (R389). -/

namespace Sys2Proof.Machine

/-- R66, R159: a 64-byte trap-ring entry. -/
def entryBytes (kind sev die unit cluster core lane owner addr time : Nat) (ctx aux : Word) (detail : List Byte) : List Byte :=
  ([kind, sev, die, unit, cluster, core, lane, owner].map (BitVec.ofNat 8)) ++ leBytes 8 addr ++ leBytes 8 time ++
  leBytes 4 ctx.toNat ++ leBytes 4 aux.toNat ++ (detail ++ List.replicate 32 0).take 32

/-- R158: slots of the trap ring in use and its size. -/
def ringSize (r : TrapRing) : Nat := 2 ^ (if r.size.toNat < 6 then 6 else if 16 < r.size.toNat then 16 else r.size.toNat)
def ringUsed (r : TrapRing) : Nat := (r.wix - r.rix).toNat

/-- R158: hands an entry to a port's trap ring. It is written by TRAP_ENTRY_WRITE when there is room; an entry without a
group that finds 256 such entries waiting is discarded. -/
def postTrap (s : State) (hp : HPort) (h : Held) : State :=
  modTrap s hp (fun r =>
    let full := !r.en || ringSize r ≤ ringUsed r + r.held.length
    if full && !h.own && 256 ≤ (r.held.filter (fun x => !x.own)).length then { r with ovf := true, drop := true }
    else { r with ovf := r.ovf || full, held := r.held ++ [h] })

/-- Posts to both ports: an entry with no owning context (R66). -/
def postBoth (s : State) (bytes : List Byte) : State :=
  postTrap (postTrap s .A { own := false, grp := none, bytes := bytes }) .B { own := false, grp := none, bytes := bytes }

/-- The port and the tenant of a context; port A and tenant 0xFF where there is none. -/
def ctxPort (s : State) (c : Word) : HPort := match s.ctx? c with | some x => x.port | none => .A
def ctxTenant (s : State) (c : Word) : Nat := match s.ctx? c with | some x => x.tenant | none => 0xFF

/-- An error record of KIND 0x10 to 0x18 for a context, or for no context (R66). -/
def postRecord (s : State) (ctx : Option Word) (mk : Nat → Word → List Byte) : State :=
  match ctx with
  | some c => match s.ctx? c with
    | some x => if x.killed then s else postTrap s x.port { own := false, grp := none, bytes := mk x.tenant c }
    | none => postBoth s (mk 0xFF 0xFFFFFFFF)
  | none => postBoth s (mk 0xFF 0xFFFFFFFF)

/-- R402: debug behaviour applies to a block. -/
def debugOn (s : State) (x : Block) : Bool := x.opts.debug && (s.port (ctxPort s x.ctx)).dbg.en

/-- R77, R79: a vector of the MSI-X table is masked; an interrupt is raised, and pends while its vector is masked (log entry 46). -/
def msixMasked (h : HostRegs) (v : Nat) : Bool := (mget h.msix (16 * v + 12)).getLsbD 0
def raiseMsi (v : Nat) (h : HostRegs) : HostRegs :=
  let h := if msixMasked h v then { h with pend := h.pend ||| BitVec.ofNat 3 (2 ^ v) } else h
  match v with
  | 0 => { h with msi0 := h.msi0 + 1 }
  | 1 => { h with msi1 := h.msi1 + 1 }
  | _ => { h with msi2 := h.msi2 + 1 }
/-- The interrupts of unmasked vectors have been sent. -/
def clearPend (h : HostRegs) : HostRegs :=
  { h with pend := h.pend &&& BitVec.ofNat 3 (bit (msixMasked h 0) + 2 * bit (msixMasked h 1) + 4 * bit (msixMasked h 2)) }

/-- R404: appends a post; one that raises POSTS from 0 raises MSI-X vector 2, and a full queue drops it. -/
def debugPost (s : State) (hp : HPort) (post : List Byte) : State :=
  modPort s hp (fun p =>
    if 64 ≤ p.dbg.posts.length then { p with dbg := { p.dbg with drops := Nat.min 255 (p.dbg.drops + 1) } }
    else { p with dbg := { p.dbg with posts := p.dbg.posts ++ [post] },
                  reg := if p.dbg.posts.isEmpty then raiseMsi 2 p.reg else p.reg })

/-- R406: a 32-byte post. -/
def postBytes (s : State) (x : Block) (kind t g : Nat) (pc val : Word) : List Byte :=
  [BitVec.ofNat 8 kind, BitVec.ofNat 8 t, BitVec.ofNat 8 g, 0] ++ leBytes 4 pc.toNat ++ leBytes 8 x.idx ++
  leBytes 4 val.toNat ++ leBytes 4 x.ctx.toNat ++ leBytes 8 (s.etm x.core)

/-- R133: the group leaves its lane's issue slot, and its partner lane's (R145). -/
def leaveLane (s : State) (b g : Nat) : State :=
  match s.blk? b with
  | none => s
  | some x =>
    if (s.core x.core).cur.any (fun c => c.2 == (b, g)) then
      modCore s x.core (fun k => { k with cur := k.cur.filter (fun c => c.2 != (b, g)) })
    else s

/-- R152: empties the latch stacks with mark EVENT. -/
def emptyLatches (y : Group) : Group := modAllThr (fun t => { t with latch := [], event := true }) y

def setStatus (st : Status) (y : Group) : Group := { y with q := { y.q with status := st, ready := none, forced := false } }

/-- R142: the causes that take an entry of the wait table. -/
def ParkKey.inTable : ParkKey → Bool | .page _ => true | .queue _ => true | .sleep _ => true | _ => false

/-- R142: the keys of the wait table of a core. -/
def coreKeys (s : State) (c : Nat) : List ParkKey :=
  (residents s).flatMap (fun (_, x) => if x.core = c then x.groups.filterMap (fun y =>
    match y.q.status with | .parked k false => if k.inTable then some k else none | _ => none) else [])

/-- R142: parks a group; a new key that finds 512 keys in use parks it under the overflow entry. -/
def park (s : State) (b g : Nat) (key : ParkKey) : State :=
  match s.blk? b with
  | none => s
  | some x =>
    let keys := (coreKeys s x.core).eraseDups
    let ov := key.inTable && !(keys.contains key) && 512 ≤ keys.length
    modGrp (leaveLane s b g) b g (fun y => emptyLatches (setStatus (.parked key ov) y))

/-- R143: wakes the groups of a core whose key matches, and every group under its overflow entry. -/
def wakeCore (s : State) (c : Nat) (p : ParkKey → Bool) : State :=
  let hit (y : Group) : Bool := match y.q.status with | .parked k _ => p k | _ => false
  let under (y : Group) : Bool := match y.q.status with | .parked _ o => o | _ => false
  let any := (residents s).any (fun (_, x) => x.core == c && x.groups.any hit)
  if !any then s
  else
    let etm := s.etm c
    -- a SLEEP woken before its deadline parks again under its deadline (R142)
    let asleep (y : Group) : Bool := match y.q.status with | .parked (.sleep d) _ => etm < d | _ => false
    let s1 := { s with blocks := s.blocks.map (fun (b, x) =>
      if x.life == .resident && x.core == c then
        (b, { x with groups := x.groups.map (fun y => if hit y || (under y && !asleep y) then setStatus .pending y else y) })
      else (b, x)) }
    foldS (fun (z : Nat × Nat) s => match s.grp? z.1 z.2 with
      | some y => (match y.q.status with
        | .parked k true => park s z.1 z.2 k
        | _ => s)
      | none => s) ((residents s1).flatMap (fun (b, x) => if x.core = c then (List.range x.groups.length).map (fun g => (b, g)) else [])) s1

/-- Wakes on every core. -/
def wakeAll (s : State) (p : ParkKey → Bool) : State :=
  foldS (fun c s => wakeCore s c p) ((residents s).map (fun x => x.2.core)).eraseDups s

/-- R71: the Assayer journals and digests the phase. -/
def journaling (y : Group) : Bool := y.a.selected && !y.a.unassayable

def padTo8 (l : List Byte) : List Byte := l ++ List.replicate (roundUp l.length 8 - l.length) 0

/-- R72, R76: counts a phase unassayable and stops its journal. -/
def unassayable (s : State) (b g : Nat) : State :=
  match s.grp? b g with
  | none => s
  | some y =>
    if journaling y then
      modSh (modGrp s b g (fun y => { y with a := { y.a with unassayable := true } }))
        (fun h => { h with cntUnassay := if h.cntUnassay = 0xFFFF then h.cntUnassay else h.cntUnassay + 1 })
    else s

/-- R71: journals what an instruction returned to the threads of a mask, each thread's bytes padded to 8. -/
def journal (s : State) (b g : Nat) (mask : BitVec 32) (vals : List (List Byte)) : State :=
  match s.grp? b g with
  | none => s
  | some y =>
    if !journaling y then s
    else
      let j := y.a.journal ++ padTo8 (leBytes 4 mask.toNat) ++ vals.flatMap padTo8
      if 65536 < j.length then unassayable s b g
      else modGrp s b g (fun y => { y with a := { y.a with journal := j } })

/-- R71: places in the journal of a group from `at0` on move by `d`: of its logged and held accesses and its tokens. -/
def shiftAt (at0 : Nat) (d : Int) (k : Nat) : Nat := if at0 ≤ k then ((k : Int) + d).toNat else k
def shiftThr (at0 : Nat) (d : Int) (x : LogThr) : LogThr := { x with jat := x.jat.map (fun k => (shiftAt at0 d k.1, shiftAt at0 d k.2)) }
def shiftLog (at0 : Nat) (d : Int) (e : LogEntry) : LogEntry := { e with thr := e.thr.map (shiftThr at0 d) }
def shiftJournal (s : State) (b g at0 : Nat) (d : Int) : State :=
  let s := modGrp s b g (fun y => { y with
    log := y.log.map (shiftLog at0 d)
    e := { y.e with ops := y.e.ops.map (fun o => { o with jat := o.jat.map (shiftAt at0 d) }) } })
  { s with migs := s.migs.map (fun m => { m with held := m.held.map (fun h => if h.1 = b ∧ h.2.1 = g then (h.1, h.2.1, shiftLog at0 d h.2.2) else h) }) }

/-- R71: writes bytes over those at a place of a journal; the mask of an entry with a bit set or cleared. -/
def overAt (l : List Byte) (at0 : Nat) (bs : List Byte) : List Byte := l.take at0 ++ bs ++ l.drop (at0 + bs.length)
def maskBit (l : List Byte) (at0 t : Nat) (on : Bool) : List Byte :=
  let m := leNat ((l.drop at0).take 4)
  overAt l at0 (leBytes 4 (if on then m ||| 2 ^ t else m - (if m.testBit t then 2 ^ t else 0)))

/-- R71: the places of an entry, and of each of its values of which those marked are still to come. -/
def itemPlaces (at0 : Nat) : Nat → List (Nat × List Byte × Bool) → List (Nat × Nat × Nat)
  | _, [] => []
  | k, z :: r => (if z.2.2 then [(z.1, at0, k)] else []) ++ itemPlaces at0 (k + roundUp z.2.1.length 8) r

/-- R71: an access that waits keeps the place of its value: the last one of the group, instruction and thread that has none. -/
def placeMeets (b g : Nat) (i : Instr) (pc : Word) (t : Nat) (h : Nat × Nat × LogEntry) : Bool :=
  h.1 == b && h.2.1 == g && h.2.2.i = i && h.2.2.pc == pc && h.2.2.thr.any (fun x => x.t == t && x.jat.isNone)
def setPlace (t : Nat) (k : Nat × Nat) (e : LogEntry) : LogEntry :=
  { e with thr := e.thr.map (fun x => if x.t == t && x.jat.isNone then { x with jat := some k } else x) }
def notePlace (b g : Nat) (i : Instr) (pc : Word) (z : Nat × Nat × Nat) : List (Nat × Nat × LogEntry) → List (Nat × Nat × LogEntry)
  | [] => []
  | h :: r =>
    if placeMeets b g i pc z.1 h && !r.any (placeMeets b g i pc z.1) then (h.1, h.2.1, setPlace z.1 z.2 h.2.2) :: r
    else h :: notePlace b g i pc z r
def notePlaces (s : State) (b g : Nat) (i : Instr) (pc : Word) (l : List (Nat × Nat × Nat)) : State :=
  if l.isEmpty then s
  else
    let f (es : List (Nat × Nat × LogEntry)) : List (Nat × Nat × LogEntry) := l.foldl (fun es z => notePlace b g i pc z es) es
    let s := modGrp s b g (fun y => { y with log := (f (y.log.map (fun e => (b, g, e)))).map (·.2.2) })
    { s with migs := s.migs.map (fun m => { m with held := f m.held }) }

/-- R71: a logged gather's entries take their place in issue order. -/
def insertEntries (s : State) (b g at0 : Nat) (l : List Byte) : State :=
  match s.grp? b g with
  | none => s
  | some y =>
    if !journaling y || y.a.journal.length < at0 then s
    else if 65536 < y.a.journal.length + l.length then unassayable s b g
    else modGrp (shiftJournal s b g at0 l.length) b g (fun y => { y with a := { y.a with
      journal := y.a.journal.take at0 ++ l ++ y.a.journal.drop at0
      cutJ := if at0 < y.a.cutJ then y.a.cutJ + l.length else y.a.cutJ } })

/-- R71: journals one entry, at the end or at a place: what an instruction returned to threads, in ascending index; of an access that waits,
the place alone. -/
def journalEntry (s : State) (b g : Nat) (i : Instr) (pc : Word) (items : List (Nat × List Byte × Bool)) (front : Option Nat := none) : State :=
  match s.grp? b g with
  | none => s
  | some y =>
    if items.isEmpty || !journaling y then s
    else
      let at0 := front.getD y.a.journal.length
      let mask := listMask (items.map (·.1))
      let s := match front with
        | none => journal s b g mask (items.map (·.2.1))
        | some k => insertEntries s b g k (padTo8 (leBytes 4 mask.toNat) ++ (items.map (·.2.1)).flatMap padTo8)
      notePlaces s b g i pc (itemPlaces at0 (at0 + 8) items)

/-- R71: the same from a path of a pass; in a pass of two paths whose threads are served one by one, an instruction's entry is written when
all of them have been. -/
def journalItems (s : State) (b g : Nat) (upper : Bool) (i : Instr) (pc : Word) (items : List (Nat × List Byte × Bool)) : State :=
  match s.grp? b g with
  | none => s
  | some y => match y.a.both with
    | none => journalEntry s b g i pc items
    | some l => if items.isEmpty then s else modGrp s b g (fun y => { y with a := { y.a with both := some (l ++ items.map (fun z => (upper, z))) } })

/-- R71: the threads of a pass of two paths are served one by one from here; and they have been: the entries of its instructions follow in the
order of their first slots, one at `front` where it goes before what the other path has journaled. A cut point that the pass has moved lies
after them. -/
def openBoth (s : State) (b g : Nat) : State := modGrp s b g (fun y => if journaling y then { y with a := { y.a with both := some [] } } else y)
def closeBoth (s : State) (b g : Nat) (front : Bool → Option Nat) (of : Bool → Instr × Word) : State :=
  match s.grp? b g with
  | none => s
  | some y => match y.a.both with
    | none => s
    | some l =>
      let items (up : Bool) : List (Nat × List Byte × Bool) :=
        (List.range 32).flatMap (fun t => (l.filter (fun z => z.1 == up && z.2.1 == t)).map (·.2))
      let s := modGrp s b g (fun y => { y with a := { y.a with both := none } })
      let s := foldS (fun up s => journalEntry s b g (of up).1 (of up).2 (items up) (front up)) ((l.map (·.1)).eraseDups) s
      if y.a.cutAt = s.now ∧ l ≠ [] then modGrp s b g (fun y => { y with a := { y.a with cutJ := y.a.journal.length } }) else s

/-- R71: a value that returns later takes its place in the journal. -/
def fillEntry (s : State) (b g : Nat) (at0 : Option (Nat × Nat)) (bs : List Byte) : State :=
  match at0 with
  | none => s
  | some k => modGrp s b g (fun y =>
      if journaling y && k.2 + bs.length ≤ y.a.journal.length then { y with a := { y.a with journal := overAt y.a.journal k.2 bs } } else y)

/-- R71: a value that an immutable page gave leaves the journal. -/
def leaveEntry (s : State) (b g : Nat) (at0 : Option (Nat × Nat)) (t n : Nat) : State :=
  match at0, s.grp? b g with
  | some k, some y =>
    let len := roundUp n 8
    if !journaling y || y.a.journal.length < k.2 + len then s
    else
      let j := maskBit y.a.journal k.1 t false
      let lone : Bool := leNat ((j.drop k.1).take 4) == 0
      let from0 := if lone then k.1 else k.2
      let len := if lone then len + 8 else len
      modGrp (shiftJournal s b g (from0 + len) (-(len : Int))) b g (fun y => { y with a := { y.a with
        journal := j.take from0 ++ j.drop (from0 + len), cutJ := if from0 + len ≤ y.a.cutJ then y.a.cutJ - len else y.a.cutJ } })
  | _, _ => s

/-- R71: places beyond the cut point are gone. -/
def cutPlaces (cut : Nat) (e : LogEntry) : LogEntry :=
  { e with thr := e.thr.map (fun x => match x.jat with | some k => if cut ≤ k.2 then { x with jat := none } else x | none => x) }

/-- R71, R74: what a phase reads from immutable pages is kept for its replay, which reads those pages again. -/
def keepImm (s : State) (b g : Nat) (l : List (Nat × List Byte)) : State :=
  if l.isEmpty then s else modGrp s b g (fun y => if journaling y then { y with a := { y.a with imm := y.a.imm ++ l } } else y)

/-- R73: one entry of the digest stream. -/
def digestEntry (addr : Nat) (mask kind : Nat) (data : List Byte) : List Byte :=
  leBytes 8 addr ++ leBytes 2 mask ++ [BitVec.ofNat 8 kind, 0, 0, 0, 0, 0] ++ padTo8 data

def digest (s : State) (b g : Nat) (entry : List Byte) : State :=
  modGrp s b g (fun y => if journaling y then { y with a := { y.a with stream := y.a.stream ++ entry } } else y)

/-- R73: MASK of a store of `n` bytes at an address. -/
def byteMask (a n : Nat) : Nat := (2 ^ n - 1) * 2 ^ (a % 16)

/-- R71: moves the cut point to the end of the journal and the digest stream. -/
def moveCut (now : Nat) (y : Group) : Group :=
  { y with a := { y.a with cutJ := y.a.journal.length, cutS := y.a.stream.length, cutI := y.a.imm.length, cutAt := now } }

/-- R156: the region entry of a thread becomes the next instruction. -/
def regionNext (now vw sw : Nat) (t : Thread) : Thread := { t with region := regionAt (t.pc + 4) t.meet vw sw now }

/-- R124: records taken before a thread's region entry are not delivered to it again. -/
def dropTakes (ts : List Nat) (y : Group) : Group := { y with e := { y.e with takes := y.e.takes.filter (fun k => !ts.contains k.t) } }

/-- R156: an instruction that moves the region entry has been performed for these threads. -/
def moveRegion (s : State) (b g : Nat) (ts : List Nat) : State :=
  modGrp s b g (fun y => moveCut s.now (dropTakes ts (ts.foldl (fun y t => modThr t (regionNext s.now y.r.vw y.r.sw) y) y)))

/-- R364: barrier `id` of a block; its first generation is 0. -/
def barrierOf (x : Block) (id : Nat) : Barrier := tget x.bars id { gen := 0, arrived := [], links := [], hold := [], last := 0 }

/-- Takes back a group's arrival in the current generation (log entry 9). -/
def withdraw (r : Barrier) (g uid : Nat) : Barrier :=
  { r with arrived := r.arrived.filter (fun k => k != g), links := r.links.filter (fun k => k.uid != uid) }

/-- R156: the state in which a rolled-back group restarts. It stays Halted, at its phase boundary, or parked for the host. -/
def restartAt : Status → Status
  | .stopped (some _) => .pending
  | .parked k o => if k.inTable then .pending else .parked k o
  | st => st

/-- R156 steps 3 to 6: restarts every live thread at its region entry. -/
def rollbackNow (s : State) (b g : Nat) : State :=
  match s.grp? b g with
  | none => s
  | some y =>
    let live := y.liveList
    let ticks := (live.map (fun t => match y.thr[t]? with | some x => x.region.tick | none => 0)).eraseDups
    let s := if ticks.any (· != y.a.cutAt) then unassayable s b g else s
    let win := match live.head? with
      | some t => (match y.thr[t]? with | some x => (x.region.vw, x.region.sw) | none => (y.r.vw, y.r.sw))
      | none => (y.r.vw, y.r.sw)
    let s := modGrp s b g (fun y =>
      let y := modAllThr (fun t => if t.live then
        { t with pc := t.region.pc, meet := t.region.meet, latch := [], event := true, cont := none, skip := 0 } else t) y
      { y with
        r := { y.r with vw := win.1, sw := win.2, resume := [] }
        handler := none
        e := { y.e with copy := 0, gath := 0, coll := 0, prom := 0, prefs := y.e.prefs.map (fun p => { p with counted := false, waited := false, copyWaited := false }), mmaWait := none,
                         spend := (y.log.filter (fun l => l.acc == 3)).foldl (fun k l => match l.dst with | some (.s p) => k.erase p | _ => k) y.e.spend,
                         takes := y.e.takes.map (fun k => { k with again := true }) }
        -- a logged gather has not committed (R156 step 1)
        log := (y.log.filter (fun l => l.acc != 3)).map (cutPlaces y.a.cutJ)
        -- a group that stood at a LIVE point, or that a wake would have sent on, restarts too (R156 step 6)
        q := { y.q with rollback := false, status := restartAt y.q.status }
        a := { y.a with journal := y.a.journal.take y.a.cutJ, stream := y.a.stream.take y.a.cutS, imm := y.a.imm.take y.a.cutI } })
    let s := { s with migs := s.migs.map (fun m => { m with held := m.held.map (fun h => if h.1 = b ∧ h.2.1 = g then (h.1, h.2.1, cutPlaces y.a.cutJ h.2.2) else h) }) }
    -- a BAR that has not completed is uncommitted work, and its arrival is taken back; that of a BARA stands (log entry 9)
    modBlk s b (fun x => match tget? x.bwait g with
      | some w =>
        if w.whole then { x with bwait := tdel x.bwait g, arr := tdel x.arr (32 * w.id + g),
                                 bars := tset x.bars w.id (withdraw (barrierOf x w.id) g y.uid) }
        else { x with bwait := tdel x.bwait g }
      | none => x)

/-- R156: a rollback; it waits until every outstanding engine operation of the group has completed (step 2). -/
def rollback (s : State) (b g : Nat) : State :=
  match s.grp? b g with
  | none => s
  | some y => if y.e.ops.isEmpty then rollbackNow s b g
    else modGrp s b g (fun y => { y with q := { y.q with rollback := true } })

/-- R148: KIND of a precise fault. -/
inductive FKind where
  | illop | kdecl | align | perm | latchLost | expired | poison | compare | bkpt | watch | trap | replay
  deriving DecidableEq, Repr

def kindCode : FKind → Nat
  | .illop => 1 | .kdecl => 2 | .align => 3 | .perm => 4 | .latchLost => 5 | .expired => 6 | .poison => 7 | .compare => 8
  | .bkpt => 9 | .watch => 10 | .trap => 11 | .replay => 12

/-- R149: the order in which conditions of one thread apply. -/
def kindRank : FKind → Nat
  | .illop => 1 | .kdecl => 2 | .latchLost => 3 | .trap => 4 | .bkpt => 4 | .align => 5 | .perm => 6 | .watch => 8
  | .expired => 9 | .poison => 10 | .compare => 11 | .replay => 12

/-- A precise fault of one thread: KIND, AUX and ADDR (R148); or the rollback of an empty latch under EVENT (R152). -/
inductive Cond where
  | fault (k : FKind) (aux : Word) (addr : BitVec 64)
  | latchEvent
  deriving DecidableEq, Repr

/-- R148: the fault frame as eight words. -/
def frameWords (k : FKind) (j : Nat) (upper nest : Bool) (pc : Word) (mask : BitVec 32) (aux : Word) (addr : BitVec 64) : List Word :=
  [BitVec.ofNat 32 (kindCode k + 2 ^ 8 * j + 2 ^ 16 * (bit upper) + 2 ^ 24 * (bit nest)), pc, mask, aux, lo32 addr, hi32 addr, 0, 0]

/-- R150: the threads of MASK start at the handler; the others keep their program counters and are held. -/
def enterHandler (traph pc : Word) (mask : BitVec 32) (y : Group) : Group :=
  emptyLatches { y with
    thr := lmapIx 0 (fun t (x : Thread) => if mask.getLsbD t then { x with pc := traph } else x) y.thr
    handler := some { mask := mask, pcoff := pc, rets := [] } }

/-- R151: an unhandled fault: an entry of KIND 0x01, and the group parks until the host consumes it; under debug attach it
is Halted. -/
def unhandled (s : State) (b g : Nat) (x : Block) (y : Group) (frame : List Word) : State :=
  if debugOn s x then
    modGrp (leaveLane s b g) b g (fun z => emptyLatches (setStatus (.halted (y.q.status == .active)) z))
  else
    let hp := ctxPort s x.ctx
    let e := entryBytes 1 1 (dieOf x.core) 5 (clusterOf x.core) (x.core % 8) y.q.lane (ctxTenant s x.ctx) 0 (s.etm x.core) x.ctx 0
      (wordsBytes frame)
    park (postTrap s hp { own := true, grp := some (b, g), bytes := e }) b g (.entry hp 0)

/-- R150, R399, R401: debug attach halts the group at a BKPT or a WATCH, with its post. -/
def debugHalt (s : State) (b g : Nat) (x : Block) (y : Group) (kind t : Nat) (pc val : Word) : State :=
  let s := debugPost s (ctxPort s x.ctx) (postBytes s x kind t g pc val)
  modGrp (leaveLane s b g) b g (fun z =>
    let z := emptyLatches (setStatus (.halted (y.q.status == .active)) z)
    { z with d := { z.d with haltPc := pc } })

/-- R147 to R151: the group takes a precise fault: `j` is the first faulting thread, `mask` the threads that meet the same
KIND, `pc` the faulting instruction. What commits has been committed. `val` is what a debug post carries, and `low` the lowest active
thread of the path, which it names (R406). -/
def takeFault (s : State) (b g : Nat) (k : FKind) (j : Nat) (upper : Bool) (pc : Word) (mask : BitVec 32) (aux : Word)
    (addr : BitVec 64) (val : Word) (low : Nat := j) : State :=
  match s.blk? b with
  | none => s
  | some x => match x.groups[g]? with
    | none => s
    | some y =>
      let frame := frameWords k j upper y.handler.isSome pc mask aux addr
      -- R173: a REPLAY strikes at no pass, and replaces every entry of the chain-resume state
      let s := modGrp s b g (fun z => { z with r := { z.r with frame := frame, resume := if k == .replay then [] else z.r.resume } })
      if (k == .bkpt || k == .watch) && debugOn s x then
        debugHalt s b g x y (if k == .bkpt then 2 else 3) low pc val
      else if k == .replay || x.h.traph == 0 || y.handler.isSome then unhandled s b g x y frame
      else modGrp (leaveLane s b g) b g (enterHandler x.h.traph pc mask)

/-- R389, R308: handler state ends; the held threads are released. -/
def leaveHandler (y : Group) : Group := { y with handler := none }

/-- R389: the handler returns: each of its live threads goes to PCOFF, or to PCOFF + 4 where `next` holds for it. -/
def returnHandler (next : Nat → Bool) (y : Group) : Group :=
  match y.handler with
  | none => y
  | some h => leaveHandler { y with thr := lmapIx 0 (fun t (x : Thread) =>
      if h.mask.getLsbD t && x.live then { x with pc := if next t then h.pcoff + 4 else h.pcoff } else x) y.thr }

/-- R389, R308: once no live handler thread is short of a return, the handler returns, each thread by its own form; a handler
without live threads ends. -/
def tryReturn (y : Group) : Group :=
  match y.handler with
  | none => y
  | some h =>
    let ts := y.liveList.filter (fun t => h.mask.getLsbD t)
    if ts.all (fun t => h.rets.any (fun r => r.1 == t)) then
      returnHandler (fun t => h.rets.any (fun r => r.1 == t && r.2)) y
    else y

end Sys2Proof.Machine
end

