-- ==== Sys2Proof/WellFormed.lean ====
section
/-! DEFINITION. Static well-formedness: each field holds a class its description allows, no scalar destination takes a
per-thread source, and `prv` stands where it may. A word that decodes to an ill-formed instruction raises ILLOP. -/

namespace Sys2Proof

/-- Static well-formedness of an instruction. -/
def Instr.wf (i : Instr) : Bool :=
  (shape i).fieldsOk && (shape i).classOk && (shape i).prvOk (opcode i)

end Sys2Proof
end

