-- ==== Sys2Proof/Machine/Operands.lean ====
section
/-! DEFINITION. Operands (R256 to R259, R267): the path a pass executes for, reading sources, writing destinations, latch
pushes, the checks of the operand fields, and the through-time chain (R172, R173). -/

namespace Sys2Proof.Machine

/-- The path that `sel` selects: the group now, and as it stood before the pass (R301); its active threads, ascending. -/
structure Pass where
  b : Nat
  g : Nat
  B : Block
  G : Group
  P : Group
  L : List Nat
  mask : BitVec 32
  upper : Bool
  judged : Bool
  cut : Bool
  /-- R395: the cycle of the pass in which the path's slot enters. -/
  off : Nat := 0

/-- The pass of the selected path, if it names a thread of a resident group. -/
def pass? (s : State) : Option Pass :=
  match s.sel with
  | none => none
  | some e => match s.blk? e.blk with
    | none => none
    | some x => match x.groups[e.grp]? with
      | none => none
      | some y =>
        if x.life == .resident && !(maskList e.mask).isEmpty then
          some { b := e.blk, g := e.grp, B := x, G := y, P := e.pre.getD y, L := maskList e.mask, mask := e.mask,
                 upper := e.upper, judged := e.judged, cut := e.cut, off := e.off }
        else none

/-- The lowest active thread, and the address of the instruction. -/
def Pass.low (p : Pass) : Nat := p.L.headD 0
def Pass.pc (p : Pass) : Word := p.P.pcOf p.low

/-- R256, R187: the physical register a source names, if it names one. -/
def srcReg (y : Group) : Src → Option PReg
  | .v i => some (.v (y.r.vw + i.val))
  | .s i => some (.s (y.r.sw + i.val))
  | _ => none
def dstReg (y : Group) : Dst → Option PReg
  | .v i => some (.v (y.r.vw + i.val))
  | .s i => some (.s (y.r.sw + i.val))
  | .discard => none

/-- A register as thread t reads it. -/
def regWord (y : Group) (t : Nat) : PReg → Word
  | .v p => wget y.r.v (32 * p + t)
  | .s p => wget y.r.s p

/-- The register `k` places above. -/
def regUp (r : PReg) (k : Nat) : PReg := match r with | .v p => .v (p + k) | .s p => .s (p + k)

/-- `read_op` of R267: word `k` of a source for thread `t`; `chain` is the through-time value (R172). -/
def srcWord (p : Pass) (t : Nat) (x : Src) (k : Nat) (chain : Word) : Word :=
  match x with
  | .v i => wget p.P.r.v (32 * (p.P.r.vw + i.val + k) + t)
  | .s i => wget p.P.r.s (p.P.r.sw + i.val + k)
  | .z => 0
  | .tix => BitVec.ofNat 32 t
  | .prv => chain
  | .gix => BitVec.ofNat 32 p.g
  | .bix => BitVec.ofNat 32 p.B.idx
  | .phx => p.P.r.phx
  | .b i => match p.P.thr[t]? with | some x => x.latch.getD i.val 0 | none => 0

/-- R258: the words of a wide source, lowest first. -/
def srcWords (p : Pass) (t : Nat) (x : Src) (n : Nat) (chain : Word) : List Word :=
  (List.range n).map (fun k => srcWord p t x k chain)

/-- A source as a number. -/
def srcNat (p : Pass) (t : Nat) (x : Src) (n : Nat) (chain : Word) : Nat := wordsNat (srcWords p t x n chain)

/-- R233: a 64-bit source. -/
def src64 (p : Pass) (t : Nat) (x : Src) : BitVec 64 := join64 (srcWord p t x 0 0) (srcWord p t x 1 0)

/-- R301: a D* field read before it is written; code 112 reads zero. -/
def dstWord (p : Pass) (t : Nat) (d : Dst) (k : Nat) : Word :=
  match dstReg p.P d with | some r => regWord p.P t (regUp r k) | none => 0
def dstNat (p : Pass) (t : Nat) (d : Dst) (n : Nat) : Nat := wordsNat ((List.range n).map (dstWord p t d))

/-- Writes words to a register span for thread `t`. -/
def setReg (t : Nat) (r : PReg) : List Word → Group → Group
  | [], y => y
  | w :: ws, y =>
    match r with
    | .v p => setReg t (.v (p + 1)) ws { y with r := { y.r with v := wset y.r.v (32 * p + t) w } }
    | .s p => setReg t (.s (p + 1)) ws { y with r := { y.r with s := wset y.r.s p w } }

/-- R200: pushes a result onto a thread's latch stack. -/
def pushLatch (t : Nat) (w : Word) (y : Group) : Group := modThr t (fun x => { x with latch := (w :: x.latch).take 8 }) y

/-- `write_op` of R267 for one thread: the push, and the write unless N or discard. `P` supplies the windows (R187). -/
def writeOp (P : Group) (n : Bool) (d : Dst) (t : Nat) (ws : List Word) (push : Word) (y : Group) : Group :=
  let y := pushLatch t push y
  if n then y else match dstReg P d with | some r => setReg t r ws y | none => y

/-- The program counter of each listed thread moves to the next instruction. -/
def advance (ts : List Nat) (y : Group) : Group := ts.foldl (fun y t => modThr t (fun x => { x with pc := x.pc + 4 }) y) y

/-- R102: a register beyond the declaration. -/
def regPast (h : Header) : PReg → Option Nat
  | .v p => if h.vregs ≤ p then some p else none
  | .s p => if h.sregs ≤ p then some p else none

/-- The first register of a span beyond the declaration. -/
def spanPast (h : Header) (r : PReg) (n : Nat) : Option Nat := (List.range n).findSome? (fun k => regPast h (regUp r k))

def regAligned (r : PReg) (a : Nat) : Bool := match r with | .v p => p % a == 0 | .s p => p % a == 0

/-- R102: a source's register span lies past the declared ones. -/
def srcPast (p : Pass) (f : SrcF) : Bool := match srcReg p.P f.src with | some r => (spanPast p.B.h r f.span).isSome | none => false

/-- R265: AUX of an ILLOP is the instruction word. -/
def illop (i : Instr) : Cond := .fault .illop (encode i) 0
def kdecl (aux : Nat) : Cond := .fault .kdecl (BitVec.ofNat 32 aux) 0

/-- R396: register numbers that RDSR may read and WRSR may write. -/
def srReadable (n : Nat) : Bool :=
  n ≤ 0xA || n == 0xC || n == 0xD || (0x100 ≤ n && n ≤ 0x105) || (0x200 ≤ n && n ≤ 0x240) || (0x280 ≤ n && n < 0x2A0)
def srWritable (n : Nat) : Bool :=
  n == 9 || n == 0x105 || (0x200 ≤ n && n < 0x220) || n == 0x240 || (0x280 ≤ n && n < 0x2A0)

/-- ILLOP that no operand decides: an empty gang register (R373, R375), a return outside handler state (R389), a special
register number (R395). It precedes KDECL (R149). -/
def illopAlso (y : Group) : Instr → Bool
  | .mma _ _ _ _ => y.e.gang.isNone
  | .mmas _ _ _ _ => y.e.gang.isNone
  | .mmaf _ _ _ _ => y.e.gang.isNone
  | .accz => y.e.gang.isNone
  | .trapRet => y.handler.isNone
  | .trapNext => y.handler.isNone
  | .rdsr _ _ n => !srReadable n.toNat
  | .wrsr _ n => !srWritable n.toNat
  | .reservedEncoding _ => true
  | _ => false

/-- ILLOP and KDECL of the operand fields (R102, R170, R258, R265), the same for every thread: fields A, B, a D that is only
read, then D. -/
def fieldCond (p : Pass) (i : Instr) : Option Cond :=
  let x := shape i
  if !i.wf || illopAlso p.P i then some (illop i)
  else
    let srcs := [x.a, x.b, x.e].filterMap (fun f => match f with
      | some f => (match srcReg p.P f.src with | some r => some (r, f.span, f.align) | none => none)
      | none => none)
    let dst := match x.d with
      | some f => (match dstReg p.P f.dst with | some r => [(r, f.span, f.align, f.reads || !i.noWrite)] | none => [])
      | none => []
    if srcs.any (fun f => !regAligned f.1 f.2.2) || dst.any (fun f => !regAligned f.1 f.2.2.1) then some (illop i)
    else match srcs.findSome? (fun f => spanPast p.B.h f.1 f.2.1) with
      | some n => some (kdecl n)
      | none => match dst.findSome? (fun f => if f.2.2.2 then spanPast p.B.h f.1 f.2.1 else none) with
        | some n => some (kdecl n)
        | none => none

/-- R152: an empty latch read by a thread. -/
def latchCond (p : Pass) (i : Instr) (t : Nat) : Option Cond :=
  match p.P.thr[t]? with
  | none => none
  | some x =>
    if (shape i).regSources.any (fun r => match r with | .b k => x.latch.length ≤ k.val | _ => false) then
      some (if x.event then .latchEvent else .fault .latchLost 0 0)
    else none

/-- R373: the matrix operations, whose descriptor words are judged (step 1) before the register spans (step 2). -/
def isMatrix : Instr → Bool
  | .mma _ _ _ _ => true | .mmas _ _ _ _ => true | .mmaf _ _ _ _ => true | _ => false
def Cond.isIllop : Cond → Bool | .fault .illop _ _ => true | _ => false
def descFirst (i : Instr) (c : Cond) (e : Option Cond) : Cond :=
  match e with | some z => if isMatrix i && !c.isIllop && z.isIllop then z else c | none => c

/-- R149: the fields whose values decide ILLOP and KDECL beyond the operand fields: of a memory instruction, those of its address. -/
def decidingFields (i : Instr) : List (Option SrcF) :=
  let x := shape i
  match opcode i / 16 with | 8 => [x.a, x.b] | 9 => [x.a, x.b] | 10 => [x.a] | _ => [x.a, x.b, x.e]
def lostDeciding (p : Pass) (i : Instr) (t : Nat) : Bool :=
  (decidingFields i).any (fun o => match o, p.P.thr[t]? with
    | some f, some x => (match f.src with | .b k => decide (x.latch.length ≤ k.val) | _ => false)
    | _, _ => false)

/-- R149: ILLOP and KDECL precede what an empty latch gives. -/
def Cond.early : Cond → Bool | .fault k _ _ => decide (kindRank k ≤ 2) | .latchEvent => false

/-- R149: the first condition a thread meets. -/
def condAt (p : Pass) (i : Instr) (extra : Nat → Option Cond) (t : Nat) : Option Cond :=
  match fieldCond p i with
  | some c => some (descFirst i c (extra t))
  | none => match extra t, latchCond p i t with
    | some e, some c => some (if e.early && !lostDeciding p i t then e else c)
    | some e, none => some e
    | none, c => c

/-- What judging a path gives: no fault; a rollback (R152); or a precise fault with its first thread and MASK (R147, R148). -/
inductive Verdict where
  | ok | roll (j : Nat)
  | fault (k : FKind) (j : Nat) (mask : BitVec 32) (aux : Word) (addr : BitVec 64)
  deriving DecidableEq, Repr

def sameKind (k : FKind) : Option Cond → Bool
  | some (.fault k2 _ _) => k2 == k
  | _ => false

/-- R147 to R149: judges every active thread of the path on the state before the pass. -/
def judge (p : Pass) (i : Instr) (extra : Nat → Option Cond) : Verdict :=
  match p.L.find? (fun t => (condAt p i extra t).isSome) with
  | none => .ok
  | some j => match condAt p i extra j with
    | none => .ok
    | some .latchEvent => .roll j
    | some (.fault k aux addr) => .fault k j (listMask (p.L.filter (fun t => sameKind k (condAt p i extra t)))) aux addr

/-- The instruction reads `prv` (R172). -/
def readsPrv (i : Instr) : Bool := (shape i).regSources.contains .prv

/-- R172, R173: the value the first active thread of the path reads. -/
def chainStart (p : Pass) : Word :=
  match p.P.r.resume.find? (fun r => r.pc == p.pc && !r.fresh) with | some r => r.val | none => p.P.r.seed

/-- R172, R173: after the last executed thread: the tail and the resume state. -/
def chainEnd (p : Pass) (c : Word) (y : Group) : Group :=
  if p.cut then { y with r := { y.r with resume := y.r.resume ++ [{ pc := p.pc, val := c, fresh := true }] } }
  else { y with r := { y.r with tail := c, tailOpen := false, resume := y.r.resume.filter (fun r => !(r.pc == p.pc && !r.fresh)) } }

/-- The result of one execution: the words for D, the word pushed, and whether DIVZ is set. -/
structure Res where
  words : List Word
  push : Word
  divz : Bool := false

/-- A 32-bit result. -/
def res1 (w : Word) : Res := { words := [w], push := w }

/-- A result of `n` words; a wide result pushes its lowest word (R258). -/
def resN (n x : Nat) : Res := { words := natWords n x, push := BitVec.ofNat 32 x }

/-- A path executes a per-thread instruction in ascending thread index, each thread reading the chain of the ones before. -/
def runThreads (P : Group) (n : Bool) (d : Dst) (f : Nat → Word → Res) : List Nat → Word → Group → Group × Word
  | [], c, y => (y, c)
  | t :: r, c, y =>
    let q := f t c
    runThreads P n d f r q.push (setStickyIf q.divz .divz (writeOp P n d t q.words q.push y))

/-- R170, R171: a uniform or broadcast result: written once to a scalar, to every active thread of a vector; pushed to all. -/
def writeAll (P : Group) (n : Bool) (d : Dst) (q : Res) (ts : List Nat) (y : Group) : Group :=
  ts.foldl (fun y t => writeOp P n d t q.words q.push y) (setStickyIf q.divz .divz y)

/-- A register-to-register instruction on its path (R170 to R173, R301). -/
def aluEff (i : Instr) (d : Dst) (f : Pass → Nat → Word → Res) (p : Pass) (s : State) : State :=
  modGrp s p.b p.g (fun y =>
    advance p.L (match i.xclass with
      | .uniform => writeAll p.P i.noWrite d (f p p.low 0) p.L y
      | _ =>
        let c := chainStart p
        let r := runThreads p.P i.noWrite d (f p) p.L c y
        if readsPrv i then chainEnd p r.2 r.1 else r.1))

/-- A whole-path instruction: the results of all active threads are computed before any is written (R340). -/
def wholeEff (i : Instr) (d : Dst) (f : Pass → List (Nat × Word)) (p : Pass) (s : State) : State :=
  let rs := f p
  modGrp s p.b p.g (fun y => advance p.L (rs.foldl (fun y r => writeOp p.P i.noWrite d r.1 [r.2] r.2 y) y))

/-- What a debug post of the fault carries (R406): the code of a BKPT, the region's end offset of a WATCH. -/
def postVal (p : Pass) (i : Instr) (j : Nat) : Word :=
  match i with
  | .bkpt c => c.setWidth 32
  | _ => match p.P.thr[j]? with | some x => x.region.endOff.getD 0 | none => 0

/-- The path with fewer threads, cut at thread j (R147). -/
def cutSel (s : State) (p : Pass) (ts : List Nat) (cut : Bool) : State :=
  { s with sel := some { blk := p.b, grp := p.g, mask := listMask ts, upper := p.upper, pre := some p.P, judged := true, cut := cut, off := p.off } }

/-- R147, R173: the slots of a path below thread j commit. A uniform instruction occupies the slot of its lowest thread, and
a whole-path instruction commits whole or not at all. -/
def commitBelow (i : Instr) (eff : Pass → State → State) (p : Pass) (j : Nat) (faulting : Bool) (s : State) : State :=
  let below := p.L.filter (· < j)
  let all := below.length == p.L.length
  let ts := match i.xclass with
    | .perThread => below
    | .uniform => if p.low < j && !faulting then p.L else []
    | .whole => if all && !faulting then p.L else []
  if ts.isEmpty then
    (if readsPrv i && !all then modGrp s p.b p.g (fun y => { y with r := { y.r with resume := y.r.resume ++ [{ pc := p.pc, val := chainStart p, fresh := true }] } }) else s)
  else
    let s := cutSel s p ts (!all)
    match pass? s with
    | some q => eff q s
    | none => s

/-- R173: a precise fault replaces every resume entry. -/
def freshResume (y : Group) : Group :=
  { y with r := { y.r with resume := (y.r.resume.filter (·.fresh)).map (fun r => { r with fresh := false }) } }

/-- R388, R394: what an instruction whose effect is a fault does before it is taken: TRAP writes TCODE; TRAP and BKPT make
the phase unassayable. -/
def faultPre (i : Instr) (k : FKind) (p : Pass) (s : State) : State :=
  match i, k with
  | .trap a, .trap => modGrp (unassayable s p.b p.g) p.b p.g (fun y => { y with r := { y.r with tcode := srcWord p p.low a 0 0 } })
  | .bkpt _, .bkpt => unassayable s p.b p.g
  | _, _ => s

/-- A machine instruction on the selected path: judged unless the step has judged the pass; then its effect, a rollback, or
the commit of the slots below thread j and the fault (R147 to R152). -/
def runPass (i : Instr) (extra : Pass → State → Nat → Option Cond) (eff : Pass → State → State) (s : State) : Out :=
  match pass? s with
  | none => .fault .noPass
  | some p =>
    if p.judged then .next (eff p s)
    else match judge p i (extra p s) with
      | .ok => .next (eff p s)
      | .roll _ => .next (rollback s p.b p.g)
      | .fault k j mask aux addr =>
        let s := faultPre i k p (modGrp (commitBelow i eff p j true s) p.b p.g freshResume)
        .next (takeFault s p.b p.g k j p.upper p.pc mask aux addr (postVal p i j) p.low)

/-- No condition beyond the operand fields and the latches. -/
def noExtra (_ : Pass) (_ : State) (_ : Nat) : Option Cond := none

/-- A register-to-register instruction. -/
def runAlu (i : Instr) (d : Dst) (f : Pass → Nat → Word → Res) (s : State) : Out := runPass i noExtra (aluEff i d f) s

/-- A whole-path register instruction of block 0x4_. -/
def runWhole (i : Instr) (d : Dst) (f : Pass → List (Nat × Word)) (s : State) : Out := runPass i noExtra (wholeEff i d f) s

/-- An instruction that acts once for its path on the group, and goes on (R170). -/
def groupEff (f : Pass → Group → Group) (p : Pass) (s : State) : State := modGrp s p.b p.g (fun y => advance p.L (f p y))

end Sys2Proof.Machine
end

