-- ==== Sys2Proof/Machine/Detect.lean ====
section
/-! DEFINITION. Detected memory errors: the place of a location, the KIND 0x10 record, the reports once per page, and the
undervolting response (R34, R61, R66, R217). -/

namespace Sys2Proof.Machine

/-- R66: DIE, UNIT, CLUSTER, CORE and ADDR of a location. -/
structure Place where
  die : Nat
  unit : Nat
  cluster : Nat
  core : Nat
  addr : Nat
  deriving DecidableEq, Repr

/-- R17, R20, R21, R66: the place of a location. -/
def placeOf (s : State) (loc : Nat) : Place :=
  if loc < hbmEnd then { die := bitsN loc 12 4 / 2, unit := 2, cluster := 0xFF, core := 0xFF, addr := sectorOf loc }
  else if loc < 2 ^ 42 then
    { die := if bitsN (loc - hbmEnd) 8 5 < 16 then 8 else 9, unit := 3, cluster := 0xFF, core := 0xFF, addr := sectorOf loc }
  else if loc < 2 ^ 43 then
    { die := 8 + bitsN loc 22 1, unit := 4, cluster := 0xFF, core := 0xFF, addr := sectorOf (loc - 2 ^ 42) }
  else if loc < 2 ^ 66 then
    let k := (loc - 2 ^ 43) / 2 ^ 26
    let a := (loc - 2 ^ 43) % 2 ^ 26
    { die := k / 12, unit := 1, cluster := k, core := bitsN a 22 4 / 2, addr := sectorOf a }
  else
    let b := (loc - 2 ^ 68) / 2 ^ 23
    let o := (loc - 2 ^ 68) % 2 ^ 23
    let c := match s.blk? b with | some x => (x.core, x.store.getD (o / 4096) 0) | none => (0, 0)
    { die := dieOf c.1, unit := 0, cluster := clusterOf c.1, core := c.1 % 8, addr := 4096 * c.2 + sectorOf (o % 4096) }

/-- R25, R34: the regulator of the cluster whose memory the location lies in. -/
def railOf (s : State) (loc : Nat) : Option Nat :=
  if loc < 2 ^ 43 then none
  else if loc < 2 ^ 66 then some (s.cluster ((loc - 2 ^ 43) / 2 ^ 26)).rail
  else match s.blk? ((loc - 2 ^ 68) / 2 ^ 23) with | some x => some (s.cluster (clusterOf x.core)).rail | none => none

/-- R34: nominal voltage is restored, STEP and EN are cleared. True if the rail was undervolted. -/
def tripRail (s : State) (x : Nat) : Bool × State :=
  if 0 < (s.reg x).step then (true, modReg s x (fun r => { r with step := 0, uvEn := false })) else (false, s)
def underTrip (s : State) (loc : Nat) : Bool × State :=
  match railOf s loc with
  | none => (false, s)
  | some x => tripRail s x

/-- R217: a page already reported writes no record; the 256 most recent are kept. -/
def reportPage (s : State) (loc : Nat) : Bool × State :=
  if loc < 2 ^ 42 then
    let pg := loc / 2 ^ 16
    if s.reported.contains pg then (false, s) else (true, { s with reported := (pg :: s.reported).take 256 })
  else (true, s)

/-- R61, R66: an uncorrectable error found in a sector: the sector is poisoned, and a record is written. `ctx` is the
context whose access found it; else `own` is its owner: patrol and refresh find it for the house. -/
def findErrorFor (s : State) (loc sev time : Nat) (ctx : Option Word) (own : Nat) : State :=
  let s := setPoison { s with latent := s.latent.filter (· != sectorOf loc) } [sectorOf loc]
  let u := underTrip s loc
  let r := reportPage u.2 loc
  let pl := placeOf r.2 loc
  if !r.1 then r.2
  else match ctx with
    | some _ => postRecord r.2 ctx (fun ten c =>
        entryBytes 0x10 sev pl.die pl.unit pl.cluster pl.core 0xFF (if u.1 then 17 else ten) pl.addr time c 0 [])
    | none => postBoth r.2
        (entryBytes 0x10 sev pl.die pl.unit pl.cluster pl.core 0xFF (if u.1 then 17 else own) pl.addr time 0xFFFFFFFF 0 [])

def findError (s : State) (loc sev time : Nat) (ctx : Option Word) : State := findErrorFor s loc sev time ctx 16

/-- R61: a read of `n` bytes finds the errors that lie in its sectors. -/
def findErrors (s : State) (a n sev time : Nat) (ctx : Option Word) : State :=
  if s.latent.isEmpty then s
  else foldS (fun x s => if s.latent.contains x then findError s x sev time ctx else s) (sectorsOf a n) s

/-- A sector of a run is poisoned or bears an undetected error. -/
def spoilt (s : State) (a n : Nat) : Bool := (sectorsOf a n).any (fun x => s.poison.contains x || s.latent.contains x)

/-- R61, R66, R217: a read finds the errors of its primary, and where that is bad and there is an alternate, those of the alternate;
nothing reaches the reader if the alternate is good. -/
def findRead (s : State) (pa : Nat) (alt : Option Nat) (n time : Nat) (ctx : Option Word) : State :=
  if s.latent.isEmpty then s
  else match alt with
    | none => findErrors s pa n 1 time ctx
    | some a => if spoilt s pa n then findErrors (findErrors s pa n (bit (spoilt s a n)) time ctx) a n 1 time ctx else s

/-- The entries that the walk of an address reads (R203, R206), up to the first that is not good. -/
def walkEntries (s : State) (va : Nat) : Nat → Nat → List Nat
  | 0, _ => []
  | n + 1, table =>
    let shift := match n with | 0 => 16 | 1 => 21 | 2 => 30 | _ => 39
    let bits := match n with | 0 => 5 | 1 => 9 | 2 => 9 | _ => 18
    let a := table + 16 * bitsN va shift bits
    let e := entryAt s a
    a :: (if s.poison.contains (sectorOf a) || s.latent.contains (sectorOf a) || e.1 % 2 = 0 || bitsN e.1 1 1 = 1 then []
          else match readPointer e.1 e.2 (if n = 1 then 512 else 8192) with
            | some t => walkEntries s va n t
            | none => [])

/-- R61, R206: the walk of an address finds the errors that lie in the entries it reads. -/
def findWalk (s : State) (c : Context) (va : BitVec 64) (time : Nat) (ctx : Word) : State :=
  let root := c.root.toNat
  if s.latent.isEmpty || !canonical va || hbmEnd < root + 2 ^ 22 || root % 2 ^ 22 != 0 then s
  else foldS (fun a s => findErrors s a 16 1 time (some ctx)) (walkEntries s va.toNat 4 root) s

/-- The same for every page of a range. -/
def findWalks (s : State) (c : Context) (va : BitVec 64) (n time : Nat) (ctx : Word) : State :=
  if s.latent.isEmpty then s
  else foldS (fun k s => findWalk s c (BitVec.ofNat 64 (Nat.max va.toNat ((va.toNat / 2 ^ 16 + k) * 2 ^ 16))) time ctx)
    (List.range ((va.toNat % 2 ^ 16 + n + 2 ^ 16 - 1) / 2 ^ 16)) s

end Sys2Proof.Machine
end

