-- ==== Sys2Proof/Machine/Float.lean ====
section
/-! DEFINITION. Floating-point values and their one rounding (R235 to R244), the conversions (R240, R333 to R335), and the
correctly rounded special functions (R329, R330). -/

namespace Sys2Proof.Machine

/-- R235: exponent and fraction bits; E4M3 has no infinity and one NaN. -/
structure Fmt where
  e : Nat
  f : Nat
  e4m3 : Bool
  deriving DecidableEq, Repr

def fp64 : Fmt := ⟨11, 52, false⟩
def fp32 : Fmt := ⟨8, 23, false⟩
def fp16 : Fmt := ⟨5, 10, false⟩
def bf16 : Fmt := ⟨8, 7, false⟩
def e5m2 : Fmt := ⟨5, 2, false⟩
def e4m3 : Fmt := ⟨4, 3, true⟩

def Fmt.bias (F : Fmt) : Nat := 2 ^ (F.e - 1) - 1
/-- Exponent of the smallest subnormal. -/
def Fmt.low (F : Fmt) : Int := 1 - (F.bias : Int) - F.f
def Fmt.sign (F : Fmt) (neg : Bool) : Nat := if neg then 2 ^ (F.e + F.f) else 0
def Fmt.infMag (F : Fmt) : Nat := (2 ^ F.e - 1) * 2 ^ F.f
def Fmt.maxMag (F : Fmt) : Nat := if F.e4m3 then 0x7E else F.infMag - 1
/-- R237. -/
def Fmt.nan (F : Fmt) : Nat := if F.e4m3 then 0x7F else F.infMag + 2 ^ (F.f - 1)

/-- An exact value: `fin neg m x` is (−1)^neg · m · 2^x. -/
inductive FV where
  | nan | inf (neg : Bool) | fin (neg : Bool) (m : Nat) (x : Int)
  deriving DecidableEq, Repr

/-- R235: the value an encoding stands for. -/
def unpackF (F : Fmt) (w : Nat) : FV :=
  let neg := w / 2 ^ (F.e + F.f) % 2 == 1
  let E := w / 2 ^ F.f % 2 ^ F.e
  let M := w % 2 ^ F.f
  if F.e4m3 && E * 8 + M == 127 then .nan
  else if !F.e4m3 && E == 2 ^ F.e - 1 then (if M = 0 then .inf neg else .nan)
  else if E = 0 then .fin neg M F.low
  else .fin neg (2 ^ F.f + M) (F.low + (E - 1 : Nat))

/-- R238: the magnitude rounded away from the kept part. `r` of `2 ^ d` is cut off, and more where `st` holds. -/
def roundUpQ (mode : Rnd) (neg : Bool) (q r half : Nat) (st : Bool) : Bool :=
  match mode with
  | .rn => half < r || (r == half && (st || q % 2 == 1))
  | .rz => false
  | .ru => !neg && (r != 0 || st)
  | .rd => neg && (r != 0 || st)

/-- R238: the encoding, with an unbounded exponent, of the magnitude m · 2^x, or a little more where `st` holds. -/
def roundMag (F : Fmt) (mode : Rnd) (neg : Bool) (m : Nat) (x : Int) (st : Bool) : Nat :=
  if m = 0 then 0
  else
    let top : Int := x + (Nat.log2 m : Int)
    let q : Int := max (top - F.f) F.low
    let base : Nat := (q - F.low).toNat * 2 ^ F.f
    if q ≤ x then base + m * 2 ^ (x - q).toNat
    else
      let d := (q - x).toNat
      let k := m / 2 ^ d
      base + k + (if roundUpQ mode neg k (m % 2 ^ d) (2 ^ (d - 1)) st then 1 else 0)

/-- R239. -/
def overflow (F : Fmt) (mode : Rnd) (neg : Bool) : Nat :=
  F.sign neg + (match mode with
    | .rn => F.infMag
    | .rz => F.maxMag
    | .ru => if neg then F.maxMag else F.infMag
    | .rd => if neg then F.infMag else F.maxMag)

/-- R238, R239: `round_fmt`. `st`: the exact magnitude is a little above the one given. -/
def roundSt (F : Fmt) (mode : Rnd) (st : Bool) (v : FV) : Nat :=
  match v with
  | .nan => F.nan
  | .inf neg => F.sign neg + F.infMag
  | .fin neg m x =>
    let k := roundMag F mode neg m x st
    if F.maxMag < k then overflow F mode neg else F.sign neg + k

def roundF (F : Fmt) (mode : Rnd) (v : FV) : Nat := roundSt F mode false v

def FV.neg : FV → FV
  | .nan => .nan | .inf s => .inf (!s) | .fin s m x => .fin (!s) m x

/-- R238, R323: the exact sum. -/
def addV (mode : Rnd) (a b : FV) : FV :=
  match a, b with
  | .nan, _ => .nan
  | _, .nan => .nan
  | .inf s, .inf t => if s = t then .inf s else .nan
  | .inf s, _ => .inf s
  | _, .inf t => .inf t
  | .fin s m x, .fin t n y =>
    let lo := min x y
    let i : Int := (m * 2 ^ (x - lo).toNat : Nat)
    let j : Int := (n * 2 ^ (y - lo).toNat : Nat)
    let z : Int := (if s then -i else i) + (if t then -j else j)
    if z = 0 then .fin (if s = t then s else mode == .rd) 0 lo
    else .fin (decide (z < 0)) z.natAbs lo

/-- R323: the exact product. -/
def mulV (a b : FV) : FV :=
  match a, b with
  | .nan, _ => .nan
  | _, .nan => .nan
  | .inf s, .inf t => .inf (s != t)
  | .inf s, .fin t n _ => if n = 0 then .nan else .inf (s != t)
  | .fin s m _, .inf t => if m = 0 then .nan else .inf (s != t)
  | .fin s m x, .fin t n y => .fin (s != t) (m * n) (x + y)

def fadd (F : Fmt) (mode : Rnd) (a b : Nat) : Nat := roundF F mode (addV mode (unpackF F a) (unpackF F b))
def fsub (F : Fmt) (mode : Rnd) (a b : Nat) : Nat := roundF F mode (addV mode (unpackF F a) (unpackF F b).neg)
def fmul (F : Fmt) (mode : Rnd) (a b : Nat) : Nat := roundF F mode (mulV (unpackF F a) (unpackF F b))
def ffma (F : Fmt) (mode : Rnd) (a b c : Nat) : Nat :=
  roundF F mode (addV mode (mulV (unpackF F a) (unpackF F b)) (unpackF F c))

/-- R322, R323. -/
def fdiv (F : Fmt) (mode : Rnd) (a b : Nat) : Nat :=
  match unpackF F a, unpackF F b with
  | .nan, _ => F.nan
  | _, .nan => F.nan
  | .inf _, .inf _ => F.nan
  | .inf s, .fin t _ _ => F.sign (s != t) + F.infMag
  | .fin s _ _, .inf t => F.sign (s != t)
  | .fin s m x, .fin t n y =>
    if n = 0 then (if m = 0 then F.nan else F.sign (s != t) + F.infMag)
    else
      let k := 70 + F.f
      roundSt F mode (decide (m * 2 ^ k % n ≠ 0)) (.fin (s != t) (m * 2 ^ k / n) (x - y - k))

/-- The integer square root, bit by bit from bit k - 1. -/
def isqrtFrom (n : Nat) : Nat → Nat → Nat
  | 0, r => r
  | k + 1, r => if (r + 2 ^ k) * (r + 2 ^ k) ≤ n then isqrtFrom n k (r + 2 ^ k) else isqrtFrom n k r
def isqrt (n : Nat) : Nat := isqrtFrom n (Nat.log2 n / 2 + 1) 0

/-- R322, R323. -/
def fsqrt (F : Fmt) (mode : Rnd) (a : Nat) : Nat :=
  match unpackF F a with
  | .nan => F.nan
  | .inf s => if s then F.nan else F.infMag
  | .fin s m x =>
    if m = 0 then F.sign s
    else if s then F.nan
    else
      let k : Int := 128 + F.f
      let sh : Int := if (x - k) % 2 = 0 then k else k + 1
      let n := m * 2 ^ sh.toNat
      let r := isqrt n
      roundSt F mode (decide (r * r ≠ n)) (.fin false r ((x - sh) / 2))

/-- R322: a value rounded to an integer. -/
def roundInt (mode : Rnd) (neg : Bool) (m : Nat) (x : Int) : Nat :=
  if 0 ≤ x then m * 2 ^ x.toNat
  else
    let d := (-x).toNat
    m / 2 ^ d + (if roundUpQ mode neg (m / 2 ^ d) (m % 2 ^ d) (2 ^ (d - 1)) false then 1 else 0)

/-- R322 FRND. -/
def frnd (F : Fmt) (mode : Rnd) (a : Nat) : Nat :=
  match unpackF F a with
  | .nan => F.nan
  | .inf s => F.sign s + F.infMag
  | .fin s m x => roundF F mode (.fin s (roundInt mode s m x) 0)

/-- R322 FSCL; powers beyond ±1000 round as ±1000 does. -/
def fscl (F : Fmt) (mode : Rnd) (a : Nat) (n : Int) : Nat :=
  match unpackF F a with
  | .nan => F.nan
  | .inf s => F.sign s + F.infMag
  | .fin s m x => roundF F mode (.fin s m (x + max (-1000) (min 1000 n)))

def isNanF (F : Fmt) (a : Nat) : Bool := unpackF F a == .nan

/-- The place of an encoding in the order of numbers, -0 just below +0. -/
def orderKey (F : Fmt) (a : Nat) : Int :=
  let mag := a % 2 ^ (F.e + F.f)
  if a / 2 ^ (F.e + F.f) % 2 = 1 then -(mag : Int) - 1 else mag

/-- R324: FMIN and FMAX. -/
def fminmax (F : Fmt) (isMax : Bool) (a b : Nat) : Nat :=
  if isNanF F a && isNanF F b then F.nan
  else if isNanF F a then b
  else if isNanF F b then a
  else if (orderKey F a < orderKey F b) != isMax then a else b

/-- R325. -/
def fcmp (F : Fmt) (c : Fcc) (a b : Nat) : Bool :=
  let un := isNanF F a || isNanF F b
  let z (w : Nat) : Bool := w % 2 ^ (F.e + F.f) == 0
  let eq := a == b || (z a && z b)
  let lt := decide (orderKey F a < orderKey F b) && !(z a && z b)
  match c with
  | .eq => !un && eq
  | .lt => !un && lt
  | .le => !un && (lt || eq)
  | .un => un

/-- R327: the bit number of the class. -/
def fclass (F : Fmt) (a : Nat) : Nat :=
  match unpackF F a with
  | .nan => 8
  | .inf s => if s then 0 else 7
  | .fin s m _ =>
    if m = 0 then (if s then 3 else 4)
    else if m < 2 ^ F.f then (if s then 2 else 5)
    else if s then 1 else 6

/-- R240: conversion of an exact value to a floating-point format. -/
def convF (F : Fmt) (fp8 : Bool) (mode : Rnd) (sat : Bool) (v : FV) : Nat :=
  let ovf (neg : Bool) : Nat := if F.e4m3 then F.nan else F.sign neg + F.infMag
  match v with
  | .nan => F.nan
  | .inf neg => if sat then F.sign neg + F.maxMag else ovf neg
  | .fin neg m x =>
    let k := roundMag F mode neg m x false
    if F.maxMag < k then
      (if sat then F.sign neg + F.maxMag else if fp8 then ovf neg else overflow F mode neg)
    else F.sign neg + k

/-- R233: an integer format: signedness and width. -/
structure IFmt where
  signed : Bool
  w : Nat
  deriving DecidableEq, Repr

def IFmt.lo (I : IFmt) : Int := if I.signed then -(2 ^ (I.w - 1)) else 0
def IFmt.hi (I : IFmt) : Int := if I.signed then 2 ^ (I.w - 1) - 1 else 2 ^ I.w - 1
def IFmt.clamp (I : IFmt) (x : Int) : Int := max I.lo (min I.hi x)
/-- The value of the low bits of a register. -/
def IFmt.read (I : IFmt) (x : Nat) : Int :=
  let y := x % 2 ^ I.w
  if I.signed && 2 ^ (I.w - 1) ≤ y then (y : Int) - 2 ^ I.w else y
/-- The value modulo 2^w read in the format. -/
def IFmt.wrap (I : IFmt) (x : Int) : Int := I.read (x % 2 ^ I.w).toNat

def intV (x : Int) : FV := .fin (decide (x < 0)) x.natAbs 0

/-- R240: float to integer. -/
def toInt (I : IFmt) (mode : Rnd) (v : FV) : Int :=
  match v with
  | .nan => 0
  | .inf neg => if neg then I.lo else I.hi
  | .fin neg m x =>
    -- beyond 2^70 every value clamps
    let k := if 70 < x then 2 ^ 70 * m else roundInt mode neg m (max x (-1100))
    I.clamp (if neg then -(k : Int) else k)

/-- One side of a conversion (R332). -/
inductive CFmt where
  | flt (F : Fmt) (fp8 : Bool) | int (I : IFmt)
  deriving DecidableEq, Repr

def cvtFmt : FmtF → CFmt
  | .f32 => .flt fp32 false | .f16 => .flt fp16 false | .bf16 => .flt bf16 false | .e4m3 => .flt e4m3 true
  | .e5m2 => .flt e5m2 true | .i32 => .int ⟨true, 32⟩ | .n32 => .int ⟨false, 32⟩
def cvtuFmt : FmtU → IFmt
  | .i8 => ⟨true, 8⟩ | .n8 => ⟨false, 8⟩ | .i16 => ⟨true, 16⟩ | .n16 => ⟨false, 16⟩ | .i32 => ⟨true, 32⟩ | .n32 => ⟨false, 32⟩
def cvtdFmt : FmtD → CFmt
  | .f32 => .flt fp32 false | .f64 => .flt fp64 false | .i32 => .int ⟨true, 32⟩ | .n32 => .int ⟨false, 32⟩
  | .i64 => .int ⟨true, 64⟩ | .n64 => .int ⟨false, 64⟩

/-- R333, R335: the conversion; the result modulo 2^64. -/
def convert (dst src : CFmt) (mode : Rnd) (sat : Bool) (x : Nat) : Nat :=
  match dst, src with
  | .flt F p, .flt G _ => convF F p mode sat (unpackF G (x % 2 ^ (1 + G.e + G.f)))
  | .flt F p, .int I => convF F p mode sat (intV (I.read x))
  | .int I, .flt G _ => (toInt I mode (unpackF G (x % 2 ^ (1 + G.e + G.f))) % 2 ^ 64).toNat
  | .int I, .int J => ((if sat then I.clamp (J.read x) else I.wrap (J.read x)) % 2 ^ 64).toNat

/-- R334: CVTU. -/
def convertU (dst src : IFmt) (sat : Bool) (x : Nat) : Word :=
  BitVec.ofInt 32 (if sat then dst.clamp (src.read x) else dst.wrap (src.read x))

/-- R240: E2M1 widened to E4M3. -/
def e2m1ToE4m3 (c : Nat) : Nat :=
  (match c % 8 with | 0 => 0 | 1 => 0x30 | 2 => 0x38 | 3 => 0x3C | 4 => 0x40 | 5 => 0x44 | 6 => 0x48 | _ => 0x4C) + c / 8 % 2 * 128

/-- `to_fp32` of R266 for FP8. -/
def fp8To32 (F : Fmt) (x : Nat) : Nat := convF fp32 false .rn false (unpackF F x)

/-! The special functions. Each is computed in fixed point with `S` fraction bits and an error far below `2 ^ 40` units;
where both ends of the error interval round to one value, that is the correctly rounded result (R329). -/

/-- Sum of the alternating or plain series  Σ ± t_k / (2k + 1),  t_(k+1) = t_k · num / den. -/
def oddSeries (alt : Bool) (num den : Nat) : Nat → Nat → Int → Nat → Int
  | 0, _, acc, _ => acc
  | n + 1, t, acc, k =>
    oddSeries alt num den n (t * num / den) (if alt && k % 2 == 1 then acc - (t / (2 * k + 1) : Nat) else acc + (t / (2 * k + 1) : Nat)) (k + 1)

/-- arctan (1 / n) and artanh (a / b), scaled by 2^S. -/
def atanInv (S n : Nat) : Int := oddSeries true 1 (n * n) S (2 ^ S / n) 0 0
def atanh (S a b : Nat) : Int := oddSeries false (a * a) (b * b) S (2 ^ S * a / b) 0 0

/-- π and ln 2, scaled by 2^S. -/
def piS (S : Nat) : Nat := (16 * atanInv S 5 - 4 * atanInv S 239).toNat
def ln2S (S : Nat) : Nat := (2 * atanh S 1 3).toNat

/-- Σ t_k with t_(k+1) = t_k · y / (k + 1), scaled by 2^S: the exponential series. -/
def expSeries (S y : Nat) : Nat → Nat → Nat → Nat → Nat
  | 0, _, acc, _ => acc
  | n + 1, t, acc, k => expSeries S y n (t * y / 2 ^ S / (k + 1)) (acc + t) (k + 1)
/-- e^y for 0 ≤ y < 2, scaled. -/
def expS (S y : Nat) : Nat := expSeries S y S (2 ^ S) 0 0

/-- The sine series for 0 ≤ z ≤ 2, scaled. -/
def sinSeries (S z2 : Nat) : Nat → Nat → Int → Nat → Int
  | 0, _, acc, _ => acc
  | n + 1, t, acc, k =>
    sinSeries S z2 n (t * z2 / 2 ^ S / ((2 * k + 2) * (2 * k + 3))) (if k % 2 == 1 then acc - t else acc + t) (k + 1)
def sinS (S z : Nat) : Nat := (sinSeries S (z * z / 2 ^ S) S z 0 0).toNat

/-- One value where both ends of the interval agree; else the fuller attempt (R329). -/
def decideRound (neg : Bool) (f : Nat → Nat × Int) : List Nat → Nat
  | [] => 0
  | S :: r =>
    let v := f S
    let lo := roundSt fp32 .rn true (.fin neg (v.1 - 2 ^ 40) (v.2 - S))
    let hi := roundSt fp32 .rn false (.fin neg (v.1 + 2 ^ 40) (v.2 - S))
    if lo = hi || r.isEmpty then hi else decideRound neg f r

/-- Fraction bits of the attempts. -/
def scales : List Nat := [320, 640, 1280]

/-- m · 2^x scaled by 2^S. -/
def fixS (m : Nat) (x : Int) (S : Nat) : Nat :=
  if 0 ≤ x + S then m * 2 ^ (x + S).toNat else m / 2 ^ (-(x + S)).toNat

def one32 : Nat := 0x3F800000

/-- R329, R330 FRCP. -/
def frcp (a : Nat) : Nat := fdiv fp32 .rn one32 a

/-- R329, R330 FRSQ. -/
def frsq (a : Nat) : Nat :=
  match unpackF fp32 a with
  | .nan => fp32.nan
  | .inf s => if s then fp32.nan else 0
  | .fin s m x =>
    if m = 0 then fp32.sign s + fp32.infMag
    else if s then fp32.nan
    else
      let m2 := if x % 2 = 0 then m else 2 * m
      let x2 := if x % 2 = 0 then x else x - 1
      let n := 2 ^ 160 / m2
      let r := isqrt n
      roundSt fp32 .rn (decide (2 ^ 160 % m2 ≠ 0 ∨ r * r ≠ n)) (.fin false r (-80 - x2 / 2))

/-- R329, R330 FEX2. -/
def fex2 (a : Nat) : Nat :=
  match unpackF fp32 a with
  | .nan => fp32.nan
  | .inf s => if s then 0 else fp32.infMag
  | .fin s m x =>
    if m = 0 then one32
    else
      let whole := roundInt .rz false m x
      if 200 < whole then (if s then 0 else fp32.infMag)
      else if x < 0 && m % 2 ^ (-x).toNat != 0 then
        -- 2^x = 2^n · 2^f with n the floor and 0 < f < 1
        decideRound false (fun S =>
          let v := fixS m x S
          let n : Int := if s then -((v / 2 ^ S : Nat) : Int) - 1 else (v / 2 ^ S : Nat)
          let f := if s then 2 ^ S - v % 2 ^ S else v % 2 ^ S
          (expS S (f * ln2S S / 2 ^ S), n)) scales
      else roundF fp32 .rn (.fin false 1 (if s then -(whole : Int) else whole))

/-- R329, R330 FLG2. -/
def flg2 (a : Nat) : Nat :=
  match unpackF fp32 a with
  | .nan => fp32.nan
  | .inf s => if s then fp32.nan else fp32.infMag
  | .fin s m x =>
    if m = 0 then fp32.sign true + fp32.infMag
    else if s then fp32.nan
    else
      let n : Int := x + (Nat.log2 m : Int)
      if m = 2 ^ Nat.log2 m then roundF fp32 .rn (intV n)
      else
        -- log2 (m / 2^l) = artanh ((m - 2^l) / (m + 2^l)) · 2 / ln 2
        let p := 2 ^ Nat.log2 m
        let g (S : Nat) : Int := n * 2 ^ S + 2 * atanh S (m - p) (m + p) * 2 ^ S / (ln2S S : Int)
        decideRound (decide (n < 0)) (fun S => ((g S).natAbs, 0)) scales

/-- R329, R330 FSIN: sin (π x), reduced exactly. -/
def fsin (a : Nat) : Nat :=
  match unpackF fp32 a with
  | .nan => fp32.nan
  | .inf _ => fp32.nan
  | .fin s m x =>
    if m = 0 || 0 ≤ x then fp32.sign s
    else
      let d := (-x).toNat
      let one := 2 ^ d
      let r := m % (2 * one)
      let neg := s != decide (one < r)
      let r := if one < r then r - one else r
      if r = 0 || r = one then fp32.sign s
      else
        let r := if one < 2 * r then one - r else r
        if 2 * r = one then fp32.sign neg + one32
        else decideRound neg (fun S => (sinS S (piS S * r / one), 0)) scales

/-- R329, R330 FTANH. -/
def ftanh (a : Nat) : Nat :=
  match unpackF fp32 a with
  | .nan => fp32.nan
  | .inf s => fp32.sign s + one32
  | .fin s m x =>
    if m = 0 then fp32.sign s
    else if 20 ≤ roundInt .rz false m x then fp32.sign s + one32
    else decideRound s (fun S =>
      let y := fixS m (x + 1) S
      let l := ln2S S
      let k := y / l
      let e := expS S (y - k * l) * 2 ^ k
      ((e - 2 ^ S) * 2 ^ S / (e + 2 ^ S), 0)) scales

/-! Matrix accumulation (R241 to R243). -/

/-- R241: one step. -/
def mac (acc : Nat) (a b : FV) : Nat := roundF fp32 .rn (addV .rn (mulV a b) (unpackF fp32 acc))

/-- R243: the promotion of a partial: the new accumulator, and whether a scale is not finite. -/
def promote (acc p sa sb : Nat) : Nat × Bool :=
  let fin (v : FV) : Bool := match v with | .fin _ _ _ => true | _ => false
  if fin (unpackF fp32 sa) && fin (unpackF fp32 sb) then
    (roundF fp32 .rn (addV .rn (mulV (mulV (unpackF fp32 p) (unpackF fp32 sa)) (unpackF fp32 sb)) (unpackF fp32 acc)), false)
  else (fp32.nan, true)

/-- R328: two independent 16-bit elements. -/
def packed2 (f : Nat → Nat → Nat → Nat) (a b c : Nat) : Nat :=
  f (a % 2 ^ 16) (b % 2 ^ 16) (c % 2 ^ 16) + 2 ^ 16 * f (a / 2 ^ 16) (b / 2 ^ 16) (c / 2 ^ 16)

end Sys2Proof.Machine
end

