-- ==== Sys2Proof/Machine/Hash.lean ====
section
/-! DEFINITION. SHA-512 and SHA-512/128 (R73, R86, R87, R92), as FIPS 180-4 defines them. -/

namespace Sys2Proof.Machine

def isPrime (n : Nat) : Bool := 2 ≤ n && (List.range n).all (fun k => k < 2 || n % k != 0)
/-- The first 80 primes. -/
def primes : List Nat := (List.range 410).filter isPrime

/-- The integer cube root, bit by bit from bit k - 1. -/
def icbrtFrom (n : Nat) : Nat → Nat → Nat
  | 0, r => r
  | k + 1, r => if (r + 2 ^ k) * (r + 2 ^ k) * (r + 2 ^ k) ≤ n then icbrtFrom n k (r + 2 ^ k) else icbrtFrom n k r

/-- The round constants: the fractions of the cube roots of the primes. -/
def shaK : List (BitVec 64) := primes.map (fun p => BitVec.ofNat 64 (icbrtFrom (p * 2 ^ 192) 68 0))

/-- The initial values: the fractions of the square roots of the first eight primes. -/
def shaH : List (BitVec 64) := (primes.take 8).map (fun p => BitVec.ofNat 64 (isqrt (p * 2 ^ 128)))

/-- A 64-bit word as big-endian bytes, and back. -/
def beBytes (n x : Nat) : List Byte := (leBytes n x).reverse
def beNat (l : List Byte) : Nat := leNat l.reverse

/-- The message schedule: `n` further words from the words so far, newest first. -/
def shaSched : Nat → List (BitVec 64) → List (BitVec 64)
  | 0, w => w
  | n + 1, w =>
    let x := w.getD 14 0
    let y := w.getD 1 0
    let s0 := x.rotateRight 1 ^^^ x.rotateRight 8 ^^^ (x >>> 7)
    let s1 := y.rotateRight 19 ^^^ y.rotateRight 61 ^^^ (y >>> 6)
    shaSched n ((w.getD 15 0 + s0 + w.getD 6 0 + s1) :: w)

structure ShaV where
  a : BitVec 64
  b : BitVec 64
  c : BitVec 64
  d : BitVec 64
  e : BitVec 64
  f : BitVec 64
  g : BitVec 64
  h : BitVec 64

def shaRound (v : ShaV) (kw : BitVec 64 × BitVec 64) : ShaV :=
  let t1 := v.h + (v.e.rotateRight 14 ^^^ v.e.rotateRight 18 ^^^ v.e.rotateRight 41) + ((v.e &&& v.f) ^^^ (~~~v.e &&& v.g)) + kw.1 + kw.2
  let t2 := (v.a.rotateRight 28 ^^^ v.a.rotateRight 34 ^^^ v.a.rotateRight 39) + ((v.a &&& v.b) ^^^ (v.a &&& v.c) ^^^ (v.b &&& v.c))
  { a := t1 + t2, b := v.a, c := v.b, d := v.c, e := v.d + t1, f := v.e, g := v.f, h := v.g }

/-- One block of 128 bytes. -/
def shaBlock (h : List (BitVec 64)) (blk : List Byte) : List (BitVec 64) :=
  let w := (List.range 16).map (fun i => BitVec.ofNat 64 (beNat ((blk.drop (8 * i)).take 8)))
  let ws := (shaSched 64 w.reverse).reverse
  let v := (shaK.zip ws).foldl shaRound
    { a := h.getD 0 0, b := h.getD 1 0, c := h.getD 2 0, d := h.getD 3 0, e := h.getD 4 0, f := h.getD 5 0, g := h.getD 6 0, h := h.getD 7 0 }
  [v.a, v.b, v.c, v.d, v.e, v.f, v.g, v.h].zipWith (· + ·) h

def shaBlocks : Nat → List (BitVec 64) → List Byte → List (BitVec 64)
  | 0, h, _ => h
  | n + 1, h, l => shaBlocks n (shaBlock h (l.take 128)) (l.drop 128)

/-- The hash of a message from given initial values. -/
def shaFrom (iv : List (BitVec 64)) (m : List Byte) : List Byte :=
  let pad := (128 - (m.length + 17) % 128) % 128
  let l := m ++ [0x80] ++ List.replicate pad 0 ++ beBytes 16 (8 * m.length)
  (shaBlocks (l.length / 128) iv l).flatMap (fun x => beBytes 8 x.toNat)

def sha512 (m : List Byte) : List Byte := shaFrom shaH m

/-- The initial values of SHA-512/128. -/
def shaIv128 : List (BitVec 64) :=
  let d := shaFrom (shaH.map (· ^^^ 0xA5A5A5A5A5A5A5A5)) ([83, 72, 65, 45, 53, 49, 50, 47, 49, 50, 56].map (BitVec.ofNat 8))
  (List.range 8).map (fun i => BitVec.ofNat 64 (beNat ((d.drop (8 * i)).take 8)))

/-- R73. -/
def sha512_128 (m : List Byte) : List Byte := (shaFrom shaIv128 m).take 16

end Sys2Proof.Machine
end

