-- ==== Sys2Proof/Machine/Look.lean ====
section
/-! DEFINITION. The memory accesses of instructions (R350), and what one thread's access meets (R351, R199 to R207,
R214 to R217): a precise fault, a not-present page, a wait, or the location it reaches. -/

namespace Sys2Proof.Machine

/-- R201. -/
inductive Space where
  | dev | scr | lay | win
  deriving DecidableEq, Repr

/-- What an access does; LDU is an atomic that writes nothing (R354). -/
inductive MKind where
  | load | store | atomic | ldu
  deriving DecidableEq, Repr

/-- An access: its space, width in bytes, kind, and the effective address of each thread (R350). -/
structure Mem where
  space : Space
  n : Nat
  kind : MKind
  ea : Pass → Nat → Nat

def MKind.need : MKind → Need
  | .load => .read | .ldu => .read | .store => .write | .atomic => .rw
def MKind.reads : MKind → Bool | .store => false | _ => true
def MKind.writes : MKind → Bool | .store => true | .atomic => true | _ => false

/-- R191, R351: the address of an access in the fault frame and for watchpoints. -/
def formOf (sp : Space) (ea : Nat) : BitVec 64 :=
  match sp with
  | .dev => BitVec.ofNat 64 ea
  | .scr => BitVec.ofNat 64 (2 ^ 62 + ea)
  | .lay => BitVec.ofNat 64 (2 ^ 63 + ea)
  | .win => BitVec.ofNat 64 (2 ^ 63 + 2 ^ 62 + ea)

/-- The sector of an address in the frame. -/
def sectorForm (a : BitVec 64) : BitVec 64 := a &&& ~~~ (0xF#64)

/-- R350: effective addresses. -/
def eaDevImm (a : Src) (i : BitVec 9) (p : Pass) (t : Nat) : Nat := (src64 p t a + sext64 i).toNat
def eaDevReg (a b : Src) (p : Pass) (t : Nat) : Nat := (src64 p t a + sext64 (srcWord p t b 0 0)).toNat
def eaDev (a : Src) (p : Pass) (t : Nat) : Nat := (src64 p t a).toNat
def eaImm (a : Src) (i : BitVec 9) (p : Pass) (t : Nat) : Nat := (srcWord p t a 0 0 + sext32 i).toNat
def eaReg (a b : Src) (p : Pass) (t : Nat) : Nat := (srcWord p t a 0 0 + srcWord p t b 0 0).toNat
def ea32 (a : Src) (p : Pass) (t : Nat) : Nat := (srcWord p t a 0 0).toNat

/-- Access widths in bytes (R353, R356). -/
def Wid.bytes : Wid → Nat | .b32 => 4 | .b64 => 8 | .b128 => 16 | .n16 => 2
def BlkW.bytes : BlkW → Nat | .b64 => 8 | .b128 => 16
def HwM.bytes : HwM → Nat | .b32 => 4 | .b64 => 8 | .n8 => 1 | .n16 => 2
def W2.bytes : W2 → Nat | .b32 => 4 | .b64 => 8
def AtI.bytes : AtI → Nat | .i32 => 4 | .i64 => 8
def AtN.bytes : AtN → Nat | .n32 => 4 | .n64 => 8

/-- R350, R353 to R361: the access an instruction makes. -/
def memOf : Instr → Option Mem
  | .ldb _ a i => some ⟨.dev, 1, .load, eaDevImm a i⟩
  | .ldbs _ a i => some ⟨.dev, 1, .load, eaDevImm a i⟩
  | .ldh _ a i => some ⟨.dev, 2, .load, eaDevImm a i⟩
  | .ldhs _ a i => some ⟨.dev, 2, .load, eaDevImm a i⟩
  | .ldw _ a i => some ⟨.dev, 4, .load, eaDevImm a i⟩
  | .ldd _ a i => some ⟨.dev, 8, .load, eaDevImm a i⟩
  | .ldq _ a i => some ⟨.dev, 16, .load, eaDevImm a i⟩
  | .stb _ a i => some ⟨.dev, 1, .store, eaDevImm a i⟩
  | .sth _ a i => some ⟨.dev, 2, .store, eaDevImm a i⟩
  | .stw _ a i => some ⟨.dev, 4, .store, eaDevImm a i⟩
  | .std _ a i => some ⟨.dev, 8, .store, eaDevImm a i⟩
  | .stq _ a i => some ⟨.dev, 16, .store, eaDevImm a i⟩
  | .ldx _ a b m => some ⟨.dev, Wid.bytes m, .load, eaDevReg a b⟩
  | .stx _ a b m => some ⟨.dev, Wid.bytes m, .store, eaDevReg a b⟩
  | .ldu _ a i => some ⟨.dev, 4, .ldu, eaDevImm a i⟩
  | .lds _ a i => some ⟨.scr, 4, .load, eaImm a i⟩
  | .sts _ a i => some ⟨.scr, 4, .store, eaImm a i⟩
  | .ldsx _ a b m => some ⟨.scr, Wid.bytes m, .load, eaReg a b⟩
  | .stsx _ a b m => some ⟨.scr, Wid.bytes m, .store, eaReg a b⟩
  | .ldl _ a i => some ⟨.lay, 4, .load, eaImm a i⟩
  | .stl _ a i => some ⟨.lay, 4, .store, eaImm a i⟩
  | .ldlb _ a b m => some ⟨.lay, BlkW.bytes m, .load, eaReg a b⟩
  | .stlb _ a b m => some ⟨.lay, BlkW.bytes m, .store, eaReg a b⟩
  | .ldhw _ a b m => some ⟨.win, HwM.bytes m, .load, eaReg a b⟩
  | .sthw _ a b m => some ⟨.win, HwM.bytes m, .store, eaReg a b⟩
  | .aadd _ a _ m => some ⟨.dev, W2.bytes m, .atomic, eaDev a⟩
  | .amin _ a _ m => some ⟨.dev, AtI.bytes m, .atomic, eaDev a⟩
  | .aminn _ a _ m => some ⟨.dev, AtN.bytes m, .atomic, eaDev a⟩
  | .amax _ a _ m => some ⟨.dev, AtI.bytes m, .atomic, eaDev a⟩
  | .amaxn _ a _ m => some ⟨.dev, AtN.bytes m, .atomic, eaDev a⟩
  | .aand _ a _ m => some ⟨.dev, W2.bytes m, .atomic, eaDev a⟩
  | .aor _ a _ m => some ⟨.dev, W2.bytes m, .atomic, eaDev a⟩
  | .axor _ a _ m => some ⟨.dev, W2.bytes m, .atomic, eaDev a⟩
  | .axch _ a _ m => some ⟨.dev, W2.bytes m, .atomic, eaDev a⟩
  | .acas _ a _ m => some ⟨.dev, W2.bytes m, .atomic, eaDev a⟩
  | .afadd _ a _ _ => some ⟨.dev, 4, .atomic, eaDev a⟩
  | .afmin _ a _ _ => some ⟨.dev, 4, .atomic, eaDev a⟩
  | .ainc _ a _ _ => some ⟨.dev, 4, .atomic, eaDev a⟩
  | .asadd _ a _ _ => some ⟨.scr, 4, .atomic, ea32 a⟩
  | .asmin _ a _ _ => some ⟨.scr, 4, .atomic, ea32 a⟩
  | .ascas _ a _ m => some ⟨.scr, W2.bytes m, .atomic, ea32 a⟩
  | _ => none

/-- R401: an armed slot that the access meets. -/
def watchMeets (a n : Nat) (rd wr : Bool) : Option Watch → Bool
  | none => false
  | some w => decide (w.addr.toNat < a + n ∧ a < w.addr.toNat + 2 ^ w.size) && ((w.onR && rd) || (w.onW && wr))
def watchHit (y : Group) (a n : Nat) (rd wr : Bool) : Bool :=
  watchMeets a n rd wr y.d.w0 || watchMeets a n rd wr y.d.w1

/-- R399, R401: a group whose accesses meet no watchpoint: those of engines and rendezvous, and those of the instruction that executes once
without its condition (R405). -/
def unwatched (y : Group) : Group := { y with d := { y.d with w0 := none, w1 := none } }
def Pass.eyes (p : Pass) : Group := if p.P.d.skip == some p.pc then unwatched p.P else p.P

/-- Where an access that passes its checks goes. -/
structure Hit where
  loc : Nat
  /-- R71: the leaf is immutable for the grid. -/
  imm : Bool := false
  /-- R216, R217: the alternate serves the read and ALTUSED is set. -/
  alt : Bool := false
  /-- R190, R357: reads return zero and set LAPSED; writes are discarded. -/
  lapsed : Bool := false
  /-- R215: the page (its home) is in transit, so a store or atomic is held. -/
  hold : Option Nat := none
  /-- R214: the home of the promoted page, for its use and its stores. -/
  home : Option Nat := none
  deriving DecidableEq, Repr

inductive Look where
  | fault (k : FKind) (aux : Word) (addr : BitVec 64)
  /-- R149: the address lies in a page that is not present. -/
  | notPresent (va : BitVec 64)
  | wait
  | ok (h : Hit)
  deriving DecidableEq, Repr

/-- A pending PREF of the group on the page of an address (R216). -/
def prefOn (y : Group) (ea : Nat) : Option Pref := y.e.prefs.find? (fun r => r.page == pageOf (BitVec.ofNat 64 ea))

/-- Bytes of a held access: SPAWN and JOIN update a word. -/
def heldLen (e : LogEntry) : Nat := match memOf e.i with | some m => m.n | none => 4

/-- R215: the group holds a store to a sector of the access, by its place in the page. -/
def heldStore (uidOf : Nat → Nat → Nat) (uid : Nat) (m : Mig) (ea n : Nat) : Bool :=
  m.held.any (fun (b, g, e) => uidOf b g == uid && e.thr.any (fun x =>
    (sectorsOf (x.addr.toNat % 2 ^ 16) (heldLen e)).any (fun c => (sectorsOf (ea % 2 ^ 16) n).contains c)))

/-- R63: a store that is held covers the sector of the address whole, so that its poison goes before an access held after it. -/
def heldWhole (m : Mig) (ea : Nat) : Bool :=
  m.held.any (fun h => heldLen h.2.2 == 16 && h.2.2.thr.any (fun x => sectorOf (x.addr.toNat % 2 ^ 16) == sectorOf (ea % 2 ^ 16)))

def uidAt (s : State) (b g : Nat) : Nat := match s.grp? b g with | some y => y.uid | none => 0

/-- A page's alternate at the address (R217), if the read may use it. -/
def altOf (l : Leaf) (ea : Nat) : Option Nat := match l.alt with | some a => some (a + ea % l.size) | none => none

/-- R63, R217: a read of a device-range location that is or is not poisoned. LDU (R354) is a load here (log entry 36). -/
def readAt (s : State) (l : Leaf) (kind : MKind) (ea n loc : Nat) (h : Hit) : Look :=
  if !kind.reads || !poisoned s loc n then .ok h
  else if kind != .atomic then
    match altOf l ea with
    | some a => if poisoned s a n then .fault .poison 0 (sectorForm (BitVec.ofNat 64 ea)) else .ok { h with loc := a, alt := true }
    | none => .fault .poison 0 (sectorForm (BitVec.ofNat 64 ea))
  else .fault .poison 0 (sectorForm (BitVec.ofNat 64 ea))

/-- R214 to R216: an access to a page that migrates. -/
def lookMig (s : State) (c : Context) (y : Group) (etm : Nat) (l : Leaf) (kind : MKind) (ea n pa : Nat) : Look :=
  let h : Hit := { loc := pa, imm := l.imm }
  match migFor s c l with
  | none => readAt s l kind ea n pa h
  | some m =>
    if !m.transit then readAt s l kind ea n pa { h with home := some m.home }
    else if kind == .atomic && poisoned s pa n && !heldWhole m ea then .fault .poison 0 (sectorForm (BitVec.ofNat 64 ea))
    else if kind.writes then .ok { h with hold := some m.home }
    else if heldStore (uidAt s) y.uid m ea n then .wait
    else match prefOn y ea with
      | some r =>
        if etm < r.deadline then .wait
        else match altOf l ea with
          | some a => if r.waited then (if poisoned s a n then .fault .poison 0 (sectorForm (BitVec.ofNat 64 ea)) else .ok { h with loc := a, alt := true })
                      else readAt s l kind ea n pa h
          | none => readAt s l kind ea n pa h
      | none => readAt s l kind ea n pa h

/-- R61, R217: a read through a leaf finds the errors of what serves it: of the primary, and of the alternate where that is bad, or, where the
alternate serves it for another reason, of the alternate alone. -/
def findMig (s : State) (c : Context) (y : Group) (etm : Nat) (l : Leaf) (ea n pa time : Nat) (ctx : Word) : State :=
  match lookMig s c y etm l .load ea n pa with
  | .ok h => findRead s h.loc (if h.alt then none else altOf l ea) n time (some ctx)
  | _ => s

/-- R202: the address of a PERM fault: of the sector, but a non-canonical address unchanged. -/
def permForm (va : BitVec 64) : BitVec 64 := if canonical va then sectorForm va else va

/-- R202, R206, R207: a device-range access, from PERM on in the order of R149. -/
def lookDev (s : State) (c : Context) (y : Group) (etm : Nat) (kind : MKind) (ea n : Nat) : Look :=
  let va := BitVec.ofNat 64 ea
  let w := watchHit y ea n kind.reads kind.writes
  match access s c kind.need va with
  | .perm => .fault .perm 0 (permForm va)
  | .notPresent => .notPresent va
  | .poisoned => if w then .fault .watch 0 (sectorForm va) else .fault .poison 0 (sectorForm va)
  | .ok pa l => if w then .fault .watch 0 (sectorForm va) else lookMig s c y etm l kind ea n pa

/-- R190, R357, R431: an access to a scratch or layer granule, from WATCH on. -/
def lookGran (s : State) (y : Group) (sp : Space) (kind : MKind) (ea n loc : Nat) (st : GranSt) : Look :=
  let a := sectorForm (formOf sp ea)
  if watchHit y (formOf sp ea).toNat n kind.reads kind.writes then .fault .watch 0 a
  else match st with
    | .expired => .fault .expired 0 a
    | .lapsed => .ok { loc := loc, lapsed := true }
    | .live => if kind.reads && poisoned s loc n then .fault .poison 0 a else .ok { loc := loc }

/-- R351: the outcome of thread t's access, in the order of R149. -/
def look (p : Pass) (s : State) (m : Mem) (t : Nat) : Look :=
  let ea := m.ea p t
  let k := clusterOf p.B.core
  let addr := sectorForm (formOf m.space ea)
  if m.space == .scr && p.B.h.scratch < ea + m.n then .fault .kdecl (BitVec.ofNat 32 ea) 0
  else if ea % m.n != 0 then .fault .align 0 addr
  else match m.space with
    | .scr => lookGran s p.eyes .scr m.kind ea m.n (scrLoc p.b ea) (granSt (scrGran p.B ea) (s.etm p.B.core))
    | .lay =>
      if !layerOk s k p.B.ctx ea then .fault .perm 0 addr
      else if layerDrains s k ea then .wait
      else lookGran s p.eyes .lay m.kind ea m.n (layLoc k ea) (granSt (layGran (s.cluster k) ea) (s.etm (layCore s k ea)))
    | .win =>
      if !windowOk s (ctxTenant s p.B.ctx) ea then .fault .perm 0 addr
      else lookGran s p.eyes .win m.kind ea m.n (winLoc ea) .live
    | .dev => match s.ctx? p.B.ctx with
      | none => .fault .perm 0 addr
      | some c => lookDev s c p.eyes (s.etm p.B.core) m.kind ea m.n

/-- The precise condition of an access, for judging. -/
def Look.cond : Look → Option Cond
  | .fault k aux addr => some (.fault k aux addr)
  | _ => none

/-- R61, R217: the accesses of the path find the errors that lie in the sectors they read. -/
def findFor (p : Pass) (m : Mem) (s : State) : State :=
  if s.latent.isEmpty then s
  else foldS (fun t s =>
    let s := match m.space, s.ctx? p.B.ctx with
      | .dev, some c => findWalk s c (BitVec.ofNat 64 (m.ea p t)) (s.etm p.B.core) p.B.ctx
      | _, _ => s
    match look p s m t with
    | .ok h =>
      if h.lapsed || !m.kind.reads then s
      else
        let alt := match m.space, s.ctx? p.B.ctx with
          | .dev, some c => (match access s c m.kind.need (BitVec.ofNat 64 (m.ea p t)) with
            | .ok _ l => if m.kind == .atomic || h.alt then none else altOf l (m.ea p t)
            | _ => none)
          | _, _ => none
        findRead s h.loc alt m.n (s.etm p.B.core) (some p.B.ctx)
    | _ => s) p.L s

end Sys2Proof.Machine
end

