-- ==== Sys2Proof/Machine/Engines.lean ====
section
/-! DEFINITION. The descriptors of the engine instructions and the checks of the bytes they name: gathers (R251), copies
(R246, R247), gangs (R369, R370) and matrix operands (R371, R373). -/

namespace Sys2Proof.Machine

/-- A run of bytes an engine names. -/
structure Span where
  sp : Space
  a : Nat
  n : Nat
  deriving DecidableEq, Repr

/-- R149: the order of what an access meets. -/
def Look.rank : Look → Nat
  | .fault k _ _ => kindRank k | .notPresent _ => 7 | .wait => 20 | .ok _ => 30

/-- The first of several conditions in the order of R149. -/
def pickLook (l : List Look) : Look :=
  l.foldl (fun m x => if x.rank < m.rank then x else m) (.ok { loc := 0 })

/-- The granule state of a scratch or layer offset. -/
def granAt (s : State) (p : Pass) (sp : Space) (a : Nat) : GranSt :=
  let k := clusterOf p.B.core
  match sp with
  | .scr => granSt (scrGran p.B a) (s.etm p.B.core)
  | .lay => granSt (layGran (s.cluster k) a) (s.etm (layCore s k a))
  | _ => .live

/-- The location of an offset in scratch, layer space or the window. -/
def bankLocOf (p : Pass) (sp : Space) (a : Nat) : Nat :=
  match sp with
  | .scr => scrLoc p.b a | .lay => layLoc (clusterOf p.B.core) a | .win => winLoc a | .dev => a

/-- R102, R199, R201, R247: the space check of a run: KDECL, PERM, or a wait for a draining bank. -/
def spanSpace (p : Pass) (s : State) (x : Span) : Look :=
  let k := clusterOf p.B.core
  if x.n = 0 then .ok { loc := 0 }
  else match x.sp with
    | .scr => if p.B.h.scratch < x.a + x.n then .fault .kdecl (BitVec.ofNat 32 (max x.a p.B.h.scratch)) 0 else .ok { loc := 0 }
    | .lay =>
      let banks := (List.range 16).filter (fun b => x.a < (b + 1) * 2 ^ 22 && b * 2 ^ 22 < x.a + x.n)
      if 2 ^ 26 < x.a + x.n || banks.any (fun b => !layerOk s k p.B.ctx (b * 2 ^ 22)) then
        .fault .perm 0 (sectorForm (formOf .lay x.a))
      else if banks.any (fun b => layerDrains s k (b * 2 ^ 22)) then .wait else .ok { loc := 0 }
    | .win =>
      let frames := (List.range 128).filter (fun f => x.a < (f + 1) * 2 ^ 16 && f * 2 ^ 16 < x.a + x.n)
      if 2 ^ 23 < x.a + x.n || frames.any (fun f => !windowOk s (ctxTenant s p.B.ctx) (f * 2 ^ 16)) then
        .fault .perm 0 (sectorForm (formOf .win x.a))
      else .ok { loc := 0 }
    | .dev => .ok { loc := 0 }

/-- R351, R431: the contents of a run read as loads: expired granules and poison in scratch and layer space. -/
def spanRead (p : Pass) (s : State) (x : Span) : Look :=
  match spanSpace p s x with
  | .ok _ => pickLook ((sectorsOf x.a x.n).map (fun a =>
      match granAt s p x.sp a with
      | .expired => .fault .expired 0 (formOf x.sp a)
      | .lapsed => .ok { loc := 0, lapsed := true }
      | .live => if poisoned s (bankLocOf p x.sp a) 16 then .fault .poison 0 (formOf x.sp a) else .ok { loc := 0 }))
  | l => l

/-- The bytes of a run of scratch or layer space as the bank holds them; a lapsed or freed granule reads zero. -/
def bankBytes (s : State) (p : Pass) (sp : Space) (a n : Nat) : List Byte :=
  (List.range n).map (fun k =>
    if granAt s p sp (a + k) == .lapsed then 0 else mget s.mem (bankLocOf p sp (a + k)))

/-- R223, R224: where the bytes of a gather's index vector lie, and the vector as the group's plain loads return it: a byte that is stable
keeps its value, another is the one that the bank holds (log entry 10). -/
def ivLocs (p : Pass) (idx rows : Nat) : List Nat := (List.range (2 * rows)).map (fun k => bankLocOf p .scr (idx + k))
def gathIv (s : State) (p : Pass) (idx rows : Nat) : List Byte :=
  (List.range (2 * rows)).map (fun k =>
    if granAt s p .scr (idx + k) == .lapsed then 0
    else match tget? p.G.c.stable (bankLocOf p .scr (idx + k)) with
      | some v => v
      | none => mget s.mem (bankLocOf p .scr (idx + k)))

/-- A lapsed granule lies in the run. -/
def runLapsed (s : State) (p : Pass) (x : Span) : Bool := (sectorsOf x.a x.n).any (fun a => granAt s p x.sp a == .lapsed)

/-- A 16-bit little-endian element of a byte list. -/
def n16At (l : List Byte) (i : Nat) : Nat := leNat ((l.drop (2 * i)).take 2)

/-- Words of a descriptor span, read by the lowest active thread. -/
def descWords (p : Pass) (a : Src) (n : Nat) : List Word := srcWords p p.low a n 0
def dw (l : List Word) (k : Nat) : Nat := (l.getD k 0).toNat

/-- R251: a gather descriptor. -/
structure GathD where
  idx : Nat
  src : Nat
  dst : Nat
  rowb : Nat
  scr : Bool
  rows : Nat
  bad : Bool
  deriving DecidableEq, Repr

def gathD (l : List Word) : GathD :=
  let w4 := dw l 4
  let rowb := w4 / 2 ^ 16
  { idx := dw l 0, src := dw l 1 + 2 ^ 32 * dw l 2, dst := dw l 3, rowb := rowb, scr := bitsN w4 12 1 == 1, rows := bitsN w4 0 12,
    bad := bitsN w4 13 3 != 0 || rowb % 16 != 0 || rowb < 16 || 4096 < rowb || bitsN w4 0 12 == 0 || dw l 0 % 16 != 0
      || dw l 3 % 16 != 0 }

/-- R251: where row i comes from: `none` is a row of zeros. -/
def gathRow (g : GathD) (iv : List Byte) (i : Nat) : Option Nat :=
  let x := n16At iv i
  if x = 0xFFFF then none
  else some (if g.scr then (g.src + x * g.rowb) % 2 ^ 32 else (g.src + x * g.rowb) % 2 ^ 64)

/-- R251: what the reads of a row meet. A row in the device range is read in aligned 16-byte accesses. -/
def gathRowLook (p : Pass) (s : State) (g : GathD) (a : Nat) : Look :=
  if g.scr then (match spanSpace p s ⟨.scr, a, g.rowb⟩ with
    | .ok _ => if a % 16 != 0 then .fault .align 0 (sectorForm (formOf .scr a)) else spanRead p s ⟨.scr, a, g.rowb⟩
    | l => l)
  else if a % 16 != 0 then .fault .align 0 (sectorForm (formOf .dev a))
  else match s.ctx? p.B.ctx with
    | none => .fault .perm 0 (sectorForm (formOf .dev a))
    | some c => pickLook ((List.range (g.rowb / 16)).map (fun k =>
        lookDev s c (unwatched p.P) (s.etm p.B.core) .load ((a + 16 * k) % 2 ^ 64) 16))

/-- R251, R431: what a gather meets before it commits, in the order of R149. -/
def gathLook (p : Pass) (s : State) (g : GathD) : Look :=
  let ix := spanRead p s ⟨.scr, g.idx, 2 * g.rows⟩
  let dst := spanSpace p s ⟨.scr, g.dst, g.rows * g.rowb⟩
  let iv := gathIv s p g.idx g.rows
  let rows := match ix with
    | .ok _ => (List.range g.rows).map (fun i => match gathRow g iv i with | some a => gathRowLook p s g a | none => .ok { loc := 0 })
    | _ => []
  pickLook (ix :: dst :: rows)

/-- R246: a copy descriptor. -/
structure CopyD where
  t : Bool
  ssp : Space
  dsp : Space
  src : Nat
  dst : Nat
  len : Nat
  rows : Nat
  cols : Nat
  pitch : Nat
  layout : Nat
  fmt : Nat
  metaOff : Nat
  mcast : Bool
  mblk : Nat
  zeroBad : Bool
  deriving DecidableEq, Repr

def spaceOf (k : Nat) : Space := match k with | 0 => .dev | 1 => .scr | 2 => .lay | _ => .win

def copyD (t : Bool) (l : List Word) : CopyD :=
  let ctl := dw l (if t then 6 else 5)
  { t := t, ssp := spaceOf (bitsN ctl 10 2), dsp := spaceOf (bitsN ctl 12 2), src := dw l 0 + 2 ^ 32 * dw l 1,
    dst := if t then dw l 2 else dw l 2 + 2 ^ 32 * dw l 3, len := if t then 0 else dw l 4,
    rows := if t then bitsN (dw l 4) 0 16 else 0, cols := if t then dw l 4 / 2 ^ 16 else 0, pitch := if t then dw l 5 else 0,
    layout := bitsN ctl 8 2, fmt := bitsN ctl 4 4, metaOff := if t then dw l 7 else 0, mcast := bitsN ctl 14 1 == 1,
    mblk := bitsN ctl 15 3,
    zeroBad := ctl / 2 ^ 18 != 0 || bitsN ctl 0 4 != 0 || (if t then dw l 3 != 0 else bitsN ctl 4 6 != 0) }

/-- R250: bits of a stored source element, bytes of a canonical element. -/
def sfBits (f : Nat) : Nat := match f with | 0 => 32 | 1 => 16 | 2 => 16 | 7 => 4 | 8 => 4 | 9 => 4 | 11 => 16 | _ => 8
def sfBytes (f : Nat) : Nat := match f with | 0 => 4 | 1 => 2 | 2 => 2 | 11 => 2 | _ => 1
def sfSparse (f : Nat) : Bool := 10 ≤ f && f ≤ 12

/-- R246: an address of a space: aligned, canonical, zero high word outside the device range. -/
def addrBad (sp : Space) (a : Nat) : Bool :=
  a % 16 != 0 || (match sp with | .dev => !canonical (BitVec.ofNat 64 a) | _ => a / 2 ^ 32 != 0)

/-- R369: the block's place in its troupe and the troupe's block count. -/
def troupeRel (x : Block) : Nat := x.idx % (max x.h.troupe 1)
def troupeCount (x : Block) : Nat := min x.h.troupe (x.count - x.troupe * x.h.troupe)

/-- R247: the first row of its table: descriptor errors. -/
def copyBad (x : Block) (c : CopyD) : Bool :=
  c.zeroBad || addrBad c.ssp c.src || addrBad c.dsp c.dst
  || (c.mcast && (c.dsp != .scr || c.mblk == troupeRel x || troupeCount x ≤ c.mblk))
  || (if c.t then c.layout == 3 || 13 ≤ c.fmt || (c.layout == 2 && c.fmt != 0) || c.dsp == .dev || c.dsp == .win
        || c.cols == 0 || 4096 < c.cols || c.rows == 0 || 4096 < c.rows || c.pitch % 16 != 0
        || (if sfSparse c.fmt then c.cols % 8 != 0 || c.metaOff % 16 != 0 else c.metaOff != 0)
      else c.len % 16 != 0 || 2 ^ 24 < c.len)

/-- R250: bytes of a packed source row, and of the destination. -/
def rowBytes (c : CopyD) : Nat := ceilDiv ((if sfSparse c.fmt then c.cols / 2 else c.cols) * sfBits c.fmt) 8
def dstBytes (c : CopyD) : Nat :=
  if !c.t then c.len
  else let es := sfBytes c.fmt
    match c.layout with
    | 0 => c.rows * roundUp (c.cols * es) 16
    | 1 => ceilDiv c.cols 64 * c.rows * 64 * es
    | _ => 4 * c.rows * c.cols
def srcBytes (c : CopyD) : Nat := if c.t then (c.rows - 1) * c.pitch + rowBytes c else c.len

/-- R247: KDECL and PERM of the runs a copy names, in that order; a wait for a bank that drains. -/
def copyLook (p : Pass) (s : State) (c : CopyD) : Look :=
  if copyBad p.B c then .ok { loc := 0 }
  else pickLook ([spanSpace p s ⟨c.ssp, c.src, srcBytes c⟩, spanSpace p s ⟨c.dsp, c.dst, dstBytes c⟩] ++
    (if c.t && sfSparse c.fmt then [spanSpace p s ⟨.scr, c.metaOff, c.rows * (c.cols / 8)⟩] else []))

/-- R369: what GANG's operands say, and R370: whether it refuses them. -/
def gangOf (mem : BitVec 64) (b : Word) : Gang :=
  let cnt := b.toNat / 2 ^ 29
  { members := (List.range (cnt + 1)).map (fun k => (bitsN mem.toNat (8 * k + 5) 3, bitsN mem.toNat (8 * k) 5)),
    accb := bitsN b.toNat 20 9, rq := bitsN b.toNat 9 5, cm := bitsN b.toNat 0 6 }

def gangBad (p : Pass) (mem : BitVec 64) (b : Word) : Bool :=
  let x := gangOf mem b
  bitsN b.toNat 14 6 != 0 || bitsN b.toNat 6 3 != 0
  || (List.range 8).any (fun k => x.members.length ≤ k && bitsN mem.toNat (8 * k) 8 != 0)
  || x.members.eraseDups.length != x.members.length
  || !x.members.contains (troupeRel p.B, p.g)
  || x.members.any (fun m => troupeCount p.B ≤ m.1 || p.B.h.groups ≤ m.2)
  || 2 < ((x.members.map (·.1)).eraseDups).length

/-- R371: element kinds of a matrix operation: format of A and of B, element size, cycles per k. -/
inductive Elt where
  | f32 | f16 | bf16 | e4m3 | e5m2 | i8
  deriving DecidableEq, Repr

def eltSize : Elt → Nat | .f32 => 4 | .f16 => 2 | .bf16 => 2 | _ => 1
def mmaElt : MmaM → Elt | .bf16 => .bf16 | .f16 => .f16 | .f32 => .f32 | .i8 => .i8
def f8Elts : F8P → Elt × Elt | .e4e4 => (.e4m3, .e4m3) | .e4e5 => (.e4m3, .e5m2) | .e5e4 => (.e5m2, .e4m3) | .e5e5 => (.e5m2, .e5m2)

/-- R371: the operands of a matrix operation. -/
structure MmaD where
  fa : Elt
  fb : Elt
  scaled : Bool
  ident : Bool
  usA : Bool
  usB : Bool
  idx : Nat
  rowb : Nat
  k : Nat
  n : Nat
  jp : Nat
  bsp : Space
  baddr : Nat
  sa : Nat
  sbsp : Space
  sb : Nat
  /-- R373 step 1: what is wrong with the A pair alone, with the B words alone, and with the two together. -/
  badA : Bool
  badB : Bool
  kmBad : Bool
  deriving DecidableEq, Repr

def mmaD (fa fb : Elt) (scaled : Bool) (a b : List Word) : MmaD :=
  let a0 := dw a 0; let a1 := dw a 1; let b0 := dw b 0; let b1 := dw b 1; let b2 := dw b 2; let b3 := dw b 3
  { fa := fa, fb := fb, scaled := scaled, ident := a0 / 2 ^ 31 == 1, usA := bitsN a0 30 1 == 1, usB := bitsN b0 30 1 == 1,
    idx := bitsN a0 0 19 * 16, rowb := bitsN a1 0 19 * 16, k := a1 / 2 ^ 19 + 1, n := bitsN b1 7 12 + 1, jp := bitsN b1 0 6,
    bsp := if b0 / 2 ^ 31 == 1 then .lay else .scr, baddr := bitsN b0 0 26, sa := bitsN b2 0 23,
    sbsp := if b3 / 2 ^ 31 == 1 then .lay else .scr, sb := bitsN b3 0 26,
    badA := bitsN a0 19 11 != 0 || (a0 / 2 ^ 31 == 1 && bitsN a0 0 19 != 0) || (fa != .i8 && bitsN a0 30 1 == 1),
    kmBad := b1 / 2 ^ 19 != a1 / 2 ^ 19,
    badB := bitsN b0 26 4 != 0 || bitsN b1 6 1 != 0 || (fa != .i8 && bitsN b0 30 1 == 1) || bitsN b0 0 6 != 0
      || (scaled && (b2 / 2 ^ 23 != 0 || bitsN b3 26 5 != 0 || bitsN b2 0 6 != 0 || bitsN b3 0 6 != 0)) }

/-- The operand pairs an MMA, MMAS or MMAF names. -/
def mmaArgs (p : Pass) : Instr → Option MmaD
  | .mma _ a b m => some (mmaD (mmaElt m) (mmaElt m) false (descWords p a 2) (descWords p b 2))
  | .mmas _ a b m => some (mmaD (f8Elts m).1 (f8Elts m).2 true (descWords p a 2) (descWords p b 4))
  | .mmaf _ a b m => some (mmaD (f8Elts m).1 (f8Elts m).2 false (descWords p a 2) (descWords p b 2))
  | _ => none

/-- R372, R252: the row index of each slice row. -/
def mmaRows (s : State) (p : Pass) (d : MmaD) (rows : Nat) : List Nat :=
  if d.ident then List.range rows
  else let iv := bankBytes s p .scr d.idx (2 * rows); (List.range rows).map (n16At iv)

/-- R372: bytes of an A row, its pitch, k-blocks and column blocks. -/
def MmaD.rowLen (d : MmaD) : Nat := d.k * eltSize d.fa
def MmaD.pitch (d : MmaD) : Nat := roundUp d.rowLen 16
def MmaD.nkb (d : MmaD) : Nat := ceilDiv d.k 128
def MmaD.nnb (d : MmaD) : Nat := ceilDiv d.n 128

/-- R245: offset of element (k, j) of B in panels. -/
def MmaD.bOff (d : MmaD) (k j : Nat) : Nat := (j / 64) * d.k * 64 * eltSize d.fb + k * 64 * eltSize d.fb + (j % 64) * eltSize d.fb

/-- R373: the runs that an operation reads besides the index vector. -/
def mmaSpans (d : MmaD) (xs : List Nat) (cm : Nat) : List Span :=
  let live := (xs.filter (· != 0xFFFF)).eraseDups
  live.map (fun x => ⟨.scr, d.rowb + x * d.pitch, d.rowLen⟩) ++
  (List.range d.k).map (fun k => ⟨d.bsp, d.baddr + d.bOff k (64 * d.jp), (cm + 1) * eltSize d.fb⟩) ++
  (if d.scaled then
    live.map (fun x => ⟨.scr, d.sa + 4 * (x * d.nkb), 4 * d.nkb⟩) ++
    (List.range d.nkb).map (fun kb => ⟨d.sbsp, d.sb + 4 * (kb * d.nnb + 64 * d.jp / 128), 4⟩)
   else [])

/-- R373 step 1 without the gang register: the fields break a rule. -/
def pastCols (d : MmaD) (cm : Nat) : Bool := d.n < 64 * d.jp + cm + 1
def mmaBad (d : MmaD) (cm : Nat) : Bool := d.badA || d.badB || d.kmBad || pastCols d cm

/-- R373 steps 3 and 4. -/
def mmaLook (p : Pass) (s : State) (d : MmaD) (x : Gang) : Look :=
  let rows := 4 * (x.rq + 1)
  let ix := if d.ident then .ok { loc := 0 } else spanRead p s ⟨.scr, d.idx, 2 * rows⟩
  match ix with
  | .ok _ => pickLook ((mmaSpans d (mmaRows s p d rows) x.cm).map (spanRead p s))
  | l =>
    -- step 3 of what the readable indices name
    let known := (List.range rows).filter (fun r => match spanRead p s ⟨.scr, d.idx + 2 * r, 2⟩ with | .ok _ => true | _ => false)
    pickLook (l :: (mmaSpans d (known.map ((mmaRows s p d rows).getD · 0xFFFF)) x.cm).map (spanSpace p s))

/-- R61: the errors that lie in the bank sectors of a run are found as it is read. -/
def findSpan (p : Pass) (x : Span) (s : State) : State :=
  foldS (fun a s => if granAt s p x.sp a == .live then findErrors s (bankLocOf p x.sp a) 16 1 (s.etm p.B.core) (some p.B.ctx) else s)
    (sectorsOf x.a x.n) s

/-- R61: the errors that a gather's reads find. -/
def findGath (p : Pass) (g : GathD) (s : State) : State :=
  let s := findSpan p ⟨.scr, g.idx, 2 * g.rows⟩ s
  let iv := gathIv s p g.idx g.rows
  foldS (fun i s => match gathRow g iv i with
    | none => s
    | some a =>
      if g.scr then findSpan p ⟨.scr, a, g.rowb⟩ s
      else foldS (fun k s => match s.ctx? p.B.ctx with
        | none => s
        | some c =>
          let s := findWalk s c (BitVec.ofNat 64 (a + 16 * k)) (s.etm p.B.core) p.B.ctx
          match access s c .read (BitVec.ofNat 64 (a + 16 * k)) with
          | .ok pa l => findMig s c p.P (s.etm p.B.core) l (a + 16 * k) 16 pa (s.etm p.B.core) p.B.ctx
          | _ => s) (List.range (g.rowb / 16)) s) (List.range g.rows) s

/-- R61: the errors that the reads of a matrix operation find. -/
def findMma (p : Pass) (d : MmaD) (x : Gang) (s : State) : State :=
  let s := if d.ident then s else findSpan p ⟨.scr, d.idx, 8 * (x.rq + 1)⟩ s
  foldS (findSpan p) (mmaSpans d (mmaRows s p d (4 * (x.rq + 1))) x.cm) s

/-- R61: the errors that the updates of continuations find. -/
def findCont (a : Src) (p : Pass) (s : State) : State :=
  foldS (fun t s => match s.ctx? p.B.ctx with
    | none => s
    | some c =>
      let s := findWalk s c (BitVec.ofNat 64 (eaDev a p t)) (s.etm p.B.core) p.B.ctx
      match lookDev s c p.P (s.etm p.B.core) .atomic (eaDev a p t) 4 with
      | .ok h => findErrors s h.loc 4 1 (s.etm p.B.core) (some p.B.ctx)
      | _ => s) p.L s

end Sys2Proof.Machine
end

