-- ==== Sys2Proof/Machine/Check.lean ====
section
/-! DEFINITION. The precise conditions of each instruction beyond its operand fields (R149): addresses, targets, identifiers,
descriptors, queues, tables, special registers. -/

namespace Sys2Proof.Machine

/-- R304: where CALL, RET or JMPR sends thread t. A `prv` source of CALL reads the return address of the thread before. -/
def jumpTarget (p : Pass) (a : Src) (rel : Bool) (t : Nat) : Word :=
  let c := if p.L.head? = some t then chainStart p else p.pc + 4
  let x := srcWord p t a 0 c
  if rel then p.pc + x else x

/-- R263, R304, R307: a target that is not a multiple of 4. -/
def alignTarget (p : Pass) (x : Word) : Option Cond :=
  if x.toNat % 4 != 0 then some (.fault .align 0 (p.B.hdr + sext64 x)) else none

/-- R255: target(DISP16) and target(DISP24). -/
def target {n : Nat} (pc : Word) (d : BitVec n) : Word := pc + 4 * sext32 d

/-- R307: the continuing address of thread t. -/
def repackTarget (p : Pass) (a : Src) (d : BitVec 16) (t : Nat) : Word := target p.pc d + srcWord p t a 0 0

/-- R357, R358: the range operands of ALLOC, FREE and LIFE. -/
structure GranArg where
  a : Nat
  cls : Nat
  count : Nat
  lifew : Nat
  zero : Bool
  deriving DecidableEq, Repr

def granArg (p : Pass) (a b : Src) : GranArg :=
  let w0 := (srcWord p p.low b 0 0).toNat
  { a := (srcWord p p.low a 0 0).toNat, cls := bitsN w0 16 2, count := bitsN w0 0 16, lifew := (srcWord p p.low b 1 0).toNat,
    zero := w0 / 2 ^ 18 == 0 }

/-- R100: SLIFE fits its class. -/
def lifeOk (cls w : Nat) : Bool :=
  let life := bitsN w 0 16
  let span := w / 2 ^ 16
  if cls = 0 then w == 0
  else 1 ≤ life && life ≤ 400 && (if cls = 3 then 1 ≤ span else span == 0)

def spcOf : Spc → Space | .scr => .scr | .lay => .lay

/-- R358: the checks of ALLOC, FREE and LIFE, in order. -/
def granCond (p : Pass) (s : State) (i : Instr) (a b : Src) (m : Spc) (isFree : Bool) : Option Cond :=
  let g := granArg p a b
  let n := g.count * 4096
  if !g.zero || (if isFree then g.cls != 0 || g.lifew != 0 else !lifeOk g.cls g.lifew) then some (illop i)
  else if m == .scr && g.count != 0 && p.B.h.scratch < g.a + n then some (kdecl g.a)
  else if g.a % 4096 != 0 then some (.fault .align 0 (sectorForm (formOf (spcOf m) g.a)))
  else if m == .lay && (2 ^ 22 < g.a % 2 ^ 22 + n || !layerOk s (clusterOf p.B.core) p.B.ctx g.a) then
    some (.fault .perm 0 (sectorForm (formOf .lay g.a)))
  else none

/-- R359. -/
def expqCond (p : Pass) (s : State) (a : Src) (m : Spc) (t : Nat) : Option Cond :=
  let ea := (srcWord p t a 0 0).toNat
  match m with
  | .scr => if p.B.h.scratch ≤ ea then some (kdecl ea) else none
  | .lay => if !layerOk s (clusterOf p.B.core) p.B.ctx ea then some (.fault .perm 0 (sectorForm (formOf .lay ea))) else none

/-- R364: an identifier of BARRIERS or more. -/
def barCond (p : Pass) (id : Fin 16) : Option Cond := if p.B.h.barriers ≤ id.val then some (kdecl id.val) else none

/-- R370. -/
def gangCond (p : Pass) (i : Instr) (a b : Src) : Option Cond :=
  let mem := src64 p p.low a
  let w := srcWord p p.low b 0 0
  let x := gangOf mem w
  if gangBad p mem w then some (illop i)
  else if p.B.h.vregs ≤ x.accb + 192 + x.cm then some (kdecl (x.accb + 192 + x.cm)) else none

/-- R367: a descriptor lies past the declared registers: no word of it is judged (log entry 36). -/
def descPast (p : Pass) (o : Option SrcF) : Bool := match o with | some f => srcPast p f | none => false

/-- R373: step 1 of the descriptors that can be read; steps 3 and 4 where both can. -/
def mmaCond (p : Pass) (s : State) (i : Instr) : Option Cond :=
  match p.P.e.gang, mmaArgs p i with
  | some x, some d =>
    let pa := descPast p (shape i).a
    let pb := descPast p (shape i).b
    if pa || pb then (if (!pa && d.badA) || (!pb && (d.badB || pastCols d x.cm)) then some (illop i) else none)
    else if mmaBad d x.cm then some (illop i) else (mmaLook p s d x).cond
  | _, _ => none

/-- R251. -/
def gathCond (p : Pass) (s : State) (i : Instr) (a : Src) : Option Cond :=
  let g := gathD (descWords p a 5)
  if g.bad then some (illop i) else (gathLook p s g).cond

def copyCond (p : Pass) (s : State) (t : Bool) (a : Src) : Option Cond :=
  (copyLook p s (copyD t (descWords p a (if t then 8 else 6)))).cond

/-- R380: bytes 0 to 7 of an empty record. -/
def emptyMark (l : List Word) : Bool := l.take 2 == [0xFFFFFFFF, 0xFFFFFFFF]

/-- R382: the queue that A names; the queue state; R381: enabled and owned by the context. -/
def queueNum (p : Pass) (a : Src) : Nat := bitsN (srcWord p p.low a 0 0).toNat 0 4
def queueOf (p : Pass) (s : State) (q : Nat) : Queue := (s.cluster (clusterOf p.B.core)).queue q
def queueMine (ctx : Word) (q : Queue) : Bool := q.en && q.owner == ctx
def queueSlots (q : Queue) : Nat := 2 ^ (q.size + 1)

/-- R381: the records a put makes: one per active thread from a vector span, one from a scalar span. -/
def putThreads (p : Pass) (b : Src) : List Nat := match b with | .v _ => p.L | _ => [p.low]
def putRecords (p : Pass) (b : Src) : List (Nat × List Word) := (putThreads p b).map (fun t => (t, srcWords p t b 16 0))

def permZero : Cond := .fault .perm 0 0

/-- R381: a put that is refused. -/
def putCond (p : Pass) (s : State) (a b : Src) : Option Cond :=
  let q := queueOf p s (queueNum p a)
  let rs := putRecords p b
  if !queueMine p.B.ctx q || rs.any (fun r => emptyMark r.2) || queueSlots q < rs.length then some permZero else none

/-- R382, R384. -/
def takeCond (p : Pass) (s : State) (a : Src) : Option Cond :=
  if queueMine p.B.ctx (queueOf p s (queueNum p a)) then none else some permZero
def qstatCond (p : Pass) (s : State) (a : Src) : Option Cond :=
  let q := queueOf p s (queueNum p a)
  if q.owner == p.B.ctx || q.owner == 0 then none else some permZero

/-- R385: the continuation's COUNT is an atomic on an address that is a multiple of 64. -/
def contLook (p : Pass) (s : State) (a : Src) (t : Nat) : Look :=
  let ea := eaDev a p t
  if ea % 64 != 0 then .fault .align 0 (sectorForm (formOf .dev ea))
  else match s.ctx? p.B.ctx with
    | none => .fault .perm 0 (sectorForm (formOf .dev ea))
    | some c => lookDev s c p.eyes (s.etm p.B.core) .atomic ea 4

/-- R391, R392: reading a table of the kernel, as sectors of the context's memory. -/
inductive Tab where
  | fault (k : FKind) (addr : BitVec 64)
  | notPresent (va : BitVec 64)
  | bytes (l : List Byte)
  deriving DecidableEq, Repr

def readVa (s : State) (c : Context) (need : Need) (va : BitVec 64) (n : Nat) : Tab :=
  match access s c need va with
  | .perm => .fault .perm (permForm va)
  | .poisoned => .fault .poison (sectorForm va)
  | .notPresent => .notPresent va
  | .ok pa _ => if poisoned s pa n then .fault .poison (sectorForm va) else .bytes (mgetN s.mem pa n)

/-- Reads `k` sectors of 16 bytes in ascending address. -/
def readSectors (s : State) (c : Context) (va : BitVec 64) : Nat → Tab
  | 0 => .bytes []
  | k + 1 => match readVa s c .read va 16 with
    | .bytes l => (match readSectors s c (va + 16) k with | .bytes r => .bytes (l ++ r) | x => x)
    | x => x

/-- R163, R390: where liveness entry `n` stands, and R392: region entry `n`. -/
def liveVa (p : Pass) (n : Nat) : BitVec 64 := p.B.hdr + sext64 p.B.h.livetab + BitVec.ofNat 64 (128 * n)
def regionVa (p : Pass) (n : Nat) : BitVec 64 := p.B.hdr + sext64 p.B.h.regtab + BitVec.ofNat 64 (8 * n)

/-- R163, R390: liveness entry `n`; R392: region entry `n`. -/
def liveEntry (p : Pass) (s : State) (n : Nat) : Tab :=
  match s.ctx? p.B.ctx with
  | none => .fault .perm 0
  | some c => readSectors s c (liveVa p n) 8
def regionEntry (p : Pass) (s : State) (n : Nat) : Tab :=
  match s.ctx? p.B.ctx with
  | none => .fault .perm 0
  | some c => readVa s c .read (regionVa p n) 8

/-- R163: the liveness entry keeps its form. -/
def liveOk (h : Header) (l : List Byte) : Bool :=
  leNat ((l.drop 88).take 8) == 0 &&
  (List.range 4).all (fun r =>
    let o := leNat ((l.drop (96 + 8 * r)).take 4)
    let n := leNat ((l.drop (100 + 8 * r)).take 4)
    n == 0 || (o % 64 == 0 && n % 64 == 0 && o + n ≤ h.scratch))

def tabCond (x : Tab) (ok : List Byte → Bool) (n : Nat) : Option Cond :=
  match x with
  | .fault k a => some (.fault k 0 a)
  | .notPresent _ => none
  | .bytes l => if ok l then none else some (kdecl n)

def liveCond (p : Pass) (s : State) (n : Nat) : Option Cond :=
  if p.B.h.liveN ≤ n then some (kdecl n) else tabCond (liveEntry p s n) (liveOk p.B.h) n
def regionCond (p : Pass) (s : State) (n : Nat) : Option Cond :=
  if p.B.h.regN ≤ n then some (kdecl n)
  else tabCond (regionEntry p s n) (fun l => leNat (l.take 4) == p.pc.toNat) n

/-- R400: the operands of WATCH. -/
def watchBad (p : Pass) (a b : Src) (m : WatchM) : Bool :=
  let w := (srcWord p p.low b 0 0).toNat
  let va := src64 p p.low a
  let size := bitsN w 1 5
  let form := va.toNat / 2 ^ 62
  let okDev := canonical va
  let okBank := form != 0 && bitsN va.toNat 32 30 == 0 && (form != 3 || bitsN va.toNat 23 9 == 0)
  w / 64 != 0 ||
  (match m with
   | .clr => size != 0 || a != .z
   | _ => size < 4 || 30 < size || va.toNat % 2 ^ size != 0 || !(okDev || okBank))

/-- R149: the precise condition of thread t beyond the operand fields and the latches. -/
def extraOf (i : Instr) (p : Pass) (s : State) (t : Nat) : Option Cond :=
  match memOf i with
  | some m => (look p s m t).cond
  | none =>
    match i with
    | .call _ _ a m => alignTarget p (jumpTarget p a (m == .rel) t)
    | .ret a => alignTarget p (jumpTarget p a false t)
    | .jmpr a m => alignTarget p (jumpTarget p a (m == .rel) t)
    | .repack a d => alignTarget p (repackTarget p a d t)
    | .alloc a b m => granCond p s i a b m false
    | .free a b m => granCond p s i a b m true
    | .life a b m => granCond p s i a b m false
    | .expq _ a m => expqCond p s a m t
    | .bar _ id => barCond p id
    | .bara _ id => barCond p id
    | .barw _ id => barCond p id
    | .mma _ _ _ _ => mmaCond p s i
    | .mmas _ _ _ _ => mmaCond p s i
    | .mmaf _ _ _ _ => mmaCond p s i
    | .gang a b => gangCond p i a b
    | .gath _ a => gathCond p s i a
    | .cpy _ a => copyCond p s false a
    | .cpyt _ a => copyCond p s true a
    | .qput a b => putCond p s a b
    | .qmput _ a b => putCond p s a b
    | .qtakeQ _ a => takeCond p s a
    | .qstat _ a _ => qstatCond p s a
    | .spawn a => (contLook p s a t).cond
    | .join a _ => (contLook p s a t).cond
    | .trap _ => some (.fault .trap 0 0)
    | .live n => liveCond p s n.toNat
    | .region n => regionCond p s n.toNat
    | .bkpt _ => if p.P.d.skip == some p.pc then none else some (.fault .bkpt 0 0)
    | .watch a b m => if watchBad p a b m then some (illop i) else none
    | _ => none

/-- R61: the reads of a table of the kernel find the errors of the entries and sectors they read. -/
def findTab (p : Pass) (va : BitVec 64) (k : Nat) (s : State) : State :=
  match s.ctx? p.B.ctx with
  | none => s
  | some c => foldS (fun i s =>
      let va := va + BitVec.ofNat 64 (16 * i)
      let s := findWalk s c va (s.etm p.B.core) p.B.ctx
      match access s c .read va with
      | .ok pa _ => findErrors s pa 8 1 (s.etm p.B.core) (some p.B.ctx)
      | _ => s) (List.range k) s

/-- R61: the instruction's reads find the errors that lie in the sectors they touch, before its conditions are judged. -/
def findAll (i : Instr) (p : Pass) (s : State) : State :=
  if s.latent.isEmpty then s
  else match memOf i with
    | some m => findFor p m (findFor p m s)
    | none => match i with
      | .spawn a => findCont a p s
      | .join a _ => findCont a p s
      | .live n => findTab p (liveVa p n.toNat) 8 s
      | .region n => findTab p (regionVa p n.toNat) 1 s
      | .gath _ a => let g := gathD (descWords p a 5); if g.bad then s else findGath p g s
      | _ => match mmaArgs p i, p.P.e.gang with
        | some d, some x => if mmaBad d x.cm then s else findMma p d x s
        | _, _ => s

/-- The same for the selected path, unless the step has judged it. -/
def findSel (i : Instr) (s : State) : State :=
  match pass? s with | some p => if p.judged then s else findAll i p s | none => s

end Sys2Proof.Machine
end

