-- ==== Sys2Proof/Machine/Regroup.lean ====
section
/-! DEFINITION. Regrouping at REPACK and unpacking (R177 to R180). -/

namespace Sys2Proof.Machine

/-- R178, R179: the home (group, thread) of slot t of packed group k, and the group whose slot t holds a home thread. -/
def homeOf (x : Block) (k t : Nat) : Nat := if x.map.isEmpty then k else (x.map.getD (32 * k + t) (k, t)).1
def slotOf (x : Block) (g t : Nat) : Nat :=
  if x.map.isEmpty then g else ((List.range x.groups.length).find? (fun k => homeOf x k t == g)).getD g

/-- The data of every load in flight arrives (the time at which it does is free). -/
def settle (y : Group) : Group :=
  { y with e := { y.e with
      vpend := y.e.vpend.filter (fun k => !y.e.returns.any (fun r => r.1.contains k))
      spend := y.e.spend.filter (fun k => !y.e.returns.any (fun r => r.2.contains k))
      returns := [] } }

/-- The entries of several register files as one. -/
def gather (l : List (Table Word)) : Table Word := l.flatten.foldl (fun t c => tset t c.1 c.2) []

/-- R179: the results of a slice in flight go with the threads whose registers they are; slot t of `k` now takes the thread of group
`src k t`, and `g` issued the slice. -/
def moveFly (n : Nat) (src : Nat → Nat → Nat) (g : Nat) (f : MmaFly) : MmaFly :=
  let dest (h t : Nat) : Nat := ((List.range n).find? (fun k => src k t == h)).getD h
  let all := (f.res.map (fun c => (g, c)) ++ f.away).map (fun c => (dest c.1 (c.2.1 % 32), c.2))
  { f with res := (all.filter (fun c => c.1 == g)).map (·.2), away := all.filter (fun c => c.1 != g) }

/-- R132, R179: the marks of results go with the threads: of vector slots and of latches; those of scalar registers stay. -/
def movePipe (old : List Group) (src : Nat → Nat → Nat) (k : Nat) (f : Group → Pipe) (p : Pipe) : Pipe :=
  { p with
    v := (lmapIx 0 (fun g (o : Group) => (f o).v.filter (fun c => src k (c.1 % 32) == g)) old).flatten.foldl (fun t c => tset t c.1 c.2) []
    b := (lmapIx 0 (fun g (o : Group) => (f o).b.filter (fun c => src k c.1 == g)) old).flatten.foldl (fun t c => tset t c.1 c.2) [] }

/-- Slot t of group k takes the thread, the vector slots and their pending marks of slot t of group `src k t`. -/
def regroup (x : Block) (src : Nat → Nat → Nat) : Block :=
  let old := x.groups.map settle
  { x with groups := lmapIx 0 (fun k (y : Group) =>
      { y with
        thr := lmapIx 0 (fun t z => match old[src k t]? with | some o => o.thr.getD t z | none => z) y.thr
        r := { y.r with v := gather (lmapIx 0 (fun g (o : Group) => o.r.v.filter (fun c => src k (c.1 % 32) == g)) old) }
        e := { y.e with
          vpend := (lmapIx 0 (fun g (o : Group) => o.e.vpend.filter (fun c => src k (c % 32) == g)) old).flatten
          mma := y.e.mma.map (moveFly old.length src k)
          takes := (lmapIx 0 (fun g (o : Group) => o.e.takes.filter (fun c => src k c.t == g)) old).flatten }
        q := { y.q with pipe := movePipe old src k (·.q.pipe) y.q.pipe, pipe2 := movePipe old src k (·.q.pipe2) y.q.pipe2 } }) old }

/-- R180: the block unpacks: each thread issues in its home group again. -/
def unpack (x : Block) : Block :=
  if x.map.isEmpty then x else { regroup x (fun g t => slotOf x g t) with map := [] }

/-- R178: one thread's place: the packed group it takes, given the keys so far and the slots taken. -/
def packPlace (keys : List (Option Word)) (used : List (Nat × Nat)) (a : Word) (t : Nat) : Nat :=
  let ks := List.range keys.length
  let free (k : Nat) : Bool := !used.contains (k, t)
  match ks.find? (fun k => keys.getD k none == some a && free k) with
  | some k => k
  | none => match ks.find? (fun k => (keys.getD k none).isNone) with
    | some k => k
    | none => (ks.find? free).getD 0

/-- R178: places threads (target, group, index) in order; answers (packed group, slot, home group). -/
def packAll : List (Word × Nat × Nat) → List (Option Word) → List (Nat × Nat) → List (Nat × Nat × Nat)
  | [], _, _ => []
  | (a, g, t) :: r, keys, used =>
    let k := packPlace keys used a t
    (k, t, g) :: packAll r (if (keys.getD k none).isNone then keys.set k (some a) else keys) ((k, t) :: used)

/-- Code addresses in ascending order of address: offsets are signed (R168). -/
def insertAddr (l : List Word) (w : Word) : List Word :=
  match l with
  | [] => [w]
  | v :: r => if v = w then l else if w.slt v then w :: l else v :: insertAddr r w

/-- The live threads of the block by place, in ascending group and thread. -/
def liveThreads (x : Block) : List (Nat × Nat × Thread) :=
  (lmapIx 0 (fun g (y : Group) => (lmapIx 0 (fun t (z : Thread) => (g, t, z)) y.thr).filter (fun c => c.2.2.live)) x.groups).flatten

/-- R178: the packing of a block that stands unpacked with every target recorded. -/
def packBlock (x : Block) : Block :=
  let ls := liveThreads x
  let targets := ls.foldl (fun l c => insertAddr l (c.2.2.cont.getD 0)) []
  let order := targets.flatMap (fun a => ls.filterMap (fun c => if c.2.2.cont = some a then some (a, c.1, c.2.1) else none))
  let n := x.groups.length
  let placed := packAll order (List.replicate n none) []
  -- slots without a live thread keep the exited threads, in ascending order
  let home (k t : Nat) : Nat :=
    match placed.find? (fun c => c.1 == k && c.2.1 == t) with
    | some c => c.2.2
    | none =>
      let ks := (List.range n).filter (fun k => !placed.any (fun c => c.1 == k && c.2.1 == t))
      let gs := (List.range n).filter (fun g => !placed.any (fun c => c.2.2 == g && c.2.1 == t))
      ((ks.zip gs).find? (fun c => c.1 == k)).elim k (·.2)
  let y := regroup x home
  -- R178: a packed group may take the place of a group that has exited; it issues again
  { y with groups := y.groups.map (fun z => if z.q.status == .exited && !z.liveList.isEmpty then
             { z with q := { z.q with status := .pending, ready := none, forced := false } } else z)
           map := (List.range n).flatMap (fun k => (List.range 32).map (fun t => (home k t, t))) }

/-- R177: the home groups that have arrived at a REPACK: every live thread of the group has recorded its target there. -/
def repackArrived (x : Block) : List Nat :=
  let ls := (liveThreads x).map (fun c => (homeOf x c.1 c.2.1, c.2.2))
  (List.range x.groups.length).filter (fun g =>
    match ls.filter (fun c => c.1 == g) with
    | [] => false
    | c :: r => (c :: r).all (fun d => d.2.cont.isSome && d.2.pc == c.2.pc))

/-- R177: every live thread of the block waits at one REPACK. -/
def repackReady (x : Block) : Bool :=
  let ls := liveThreads x
  match ls with
  | [] => false
  | c :: _ => ls.all (fun d => d.2.2.cont.isSome && d.2.2.pc == c.2.2.pc)

/-- R307, R179: each thread continues at its target; its latches start empty with mark SWITCH. -/
def goOn (x : Block) : Block :=
  { x with groups := x.groups.map (modAllThr (fun t => match t.cont with
      | some c => { t with pc := c, cont := none, latch := [], event := false } | none => t)) }

/-- R177, R180: the block repacks when every group with a live thread has arrived; with unequal windows it stays unpacked. -/
def tryRepack (s : State) (b : Nat) : State :=
  modBlk s b (fun x =>
    if !repackReady x then x
    else
      let x := unpack x
      let ws := (x.groups.filter (fun y => !y.liveList.isEmpty)).map (fun y => (y.r.vw, y.r.sw))
      goOn (if ws.all (fun w => ws.head? == some w) then packBlock x else x))

end Sys2Proof.Machine
end

