-- ==== Sys2Proof/Machine/Phase.lean ====
section
/-! DEFINITION. Phase records and boundaries (R114 to R117, R182), the Assayer's view of a phase (R70 to R73), barriers
(R226, R364), and the end of groups, blocks, nodes and instances (R98, R119, R308). -/

namespace Sys2Proof.Machine

/-- Inserts into a rising list, keeping repeats. -/
def insertDup (l : List Nat) (x : Nat) : List Nat :=
  match l with
  | [] => [x]
  | y :: r => if x ≤ y then x :: l else y :: insertDup r x

/-- R100, R115: the carry registers of one kind, in ascending physical index. -/
def carryList (h : Header) (scalar : Bool) : List Nat :=
  (h.carry.flatMap (fun w =>
    if (w.toNat / 2 ^ 31 == 1) == scalar then (List.range (bitsN w.toNat 16 10)).map (bitsN w.toNat 0 10 + ·) else [])).foldl insertDup []

/-- R164: register images: a vector register's 32 slots, a scalar register's word. -/
def vregBytes (y : Group) (p : Nat) : List Byte := (List.range 32).flatMap (fun t => leBytes 4 (wget y.r.v (32 * p + t)).toNat)
def sregBytes (y : Group) (p : Nat) : List Byte := leBytes 4 (wget y.r.s p).toNat

def carryBytes (h : Header) (y : Group) : List Byte :=
  (carryList h false).flatMap (vregBytes y) ++ (carryList h true).flatMap (sregBytes y)

/-- R107: the phase record size P. -/
def phaseSize (h : Header) : Nat := roundUp (192 + 128 * (carryList h false).length + 4 * (carryList h true).length) 64

/-- R115: G', the slot's size, and the places in it. -/
def frameSize (h : Header) : Nat := 2048 + roundUp (128 * h.vregs) 64 + roundUp (4 * h.sregs) 64
def slotSize (h : Header) : Nat := roundUp (1088 + h.groups * frameSize h + h.groups * phaseSize h + h.scratch) 65536
def recordOff (h : Header) (g : Nat) : Nat := 1088 + h.groups * frameSize h + g * phaseSize h
def shadowOff (h : Header) : Nat := 1088 + h.groups * (frameSize h + phaseSize h)

/-- R115: the meeting state of the 32 threads. -/
def meetBytes (y : Group) : List Byte := y.thr.flatMap (fun t => leBytes 4 (t.meet.getD 0xFFFFFFFF).toNat)

/-- R115: the phase record. -/
def phaseRecord (h : Header) (y : Group) (phx pc : Word) : List Byte :=
  let l := leBytes 4 phx.toNat ++ leBytes 4 (listMask y.liveList).toNat ++ leBytes 4 pc.toNat ++ leBytes 2 y.r.vw ++ leBytes 2 y.r.sw ++
    leBytes 4 y.r.sticky.toNat ++ leBytes 4 y.r.seed.toNat ++ List.replicate 40 0 ++ meetBytes y ++ carryBytes h y
  l ++ List.replicate (phaseSize h - l.length) 0

/-- A write of the device itself to its record areas or to an operand store: at once there, seen by every load. -/
def devWrite (s : State) (a : Nat) (bs : List Byte) : State :=
  if a + bs.length ≤ backedEnd ∨ 2 ^ 68 ≤ a then
    { s with mem := msetN s.mem a bs
             hist := s.hist.filter (fun w => w.loc < a || a + bs.length ≤ w.loc)
             poison := s.poison.filter (fun p => !(a ≤ p && p + 16 ≤ a + bs.length))
             latent := s.latent.filter (fun p => !(a ≤ p && p + 16 ≤ a + bs.length)) }
  else s

/-- Moves bytes between the operand store and a record area, with the errors that the reads find; poison goes with its sector
(R61, R63). -/
def moveBytes (s : State) (ctx : Word) (src dst n : Nat) : State :=
  let s := findErrors s src n 1 s.now (some ctx)
  let bad := (sectorsOf src n).filter (fun a => s.poison.contains a)
  setPoison (devWrite s dst (mgetN s.mem src n)) (bad.map (fun a => dst + (a - src)))

/-- R117: the changed class H granules of the scratch go to the shadow. -/
def writeShadow (s : State) (b : Nat) : State :=
  match s.blk? b with
  | none => s
  | some x =>
    let s := foldS (fun g s =>
      if (scrGran x (4096 * g)).cls = 0 then moveBytes s x.ctx (scrLoc b (4096 * g)) (x.slot + shadowOff x.h + 4096 * g) 4096 else s) x.dirty s
    modBlk s b (fun x => { x with
      dirty := []
      shadowed := x.dirty.foldl (fun l g => if (scrGran x (4096 * g)).cls = 0 then insertNat l g else l) x.shadowed })

/-- R70: the LFSR's next state. -/
def lfsrNext (l : BitVec 16) : BitVec 16 := if l.getLsbD 0 then (l >>> 1) ^^^ 0xB400 else l >>> 1

def AssayG.off : AssayG :=
  { selected := false, journal := [], stream := [], imm := [], cutJ := 0, cutS := 0, cutI := 0, cutAt := 0, record := [],
    unassayable := false, struck := false, both := none }

/-- R70, R74: a phase starts; it may be selected, and keeps its starting record. -/
def assayStart (s : State) (b g : Nat) : State :=
  match s.blk? b with
  | none => s
  | some x => match x.groups[g]? with
    | none => s
    | some y =>
      if x.opts.assay = 0 || !x.h.assay then modGrp s b g (fun y => { y with a := AssayG.off })
      else
        let l := lfsrNext (s.core x.core).lfsr
        let s := modCore s x.core (fun k => { k with lfsr := l })
        let words := if y.r.phx = 0 then (List.range (Nat.min 20 x.h.sregs)).flatMap (sregBytes y) else []
        let rec0 := phaseRecord x.h y y.r.phx (y.pcOf (y.liveList.headD 0)) ++ words
        let sel := s.sh.assayEn && bitsN l.toNat 0 (x.opts.assay - 1) == 0
        let s := modGrp s b g (fun y => { y with a := { AssayG.off with selected := sel, record := rec0, cutAt := s.now } })
        if debugOn s x || y.d.w0.isSome || y.d.w1.isSome then unassayable s b g else s

/-- R76: the bytes of a core's ring. -/
def ringBytes (s : State) : Nat := 2 ^ (20 + Nat.min 8 s.sh.assaySize.toNat)

def sat16 (x : BitVec 16) : BitVec 16 := if x = 0xFFFF then x else x + 1
def countSkipped (s : State) : State := modSh s (fun h => { h with cntSkipped := sat16 h.cntSkipped })

/-- R73: the record that ends the digest stream. -/
def digestTail (h : Header) (y : Group) (pc : Word) : List Byte :=
  carryBytes h y ++ leBytes 4 pc.toNat ++ leBytes 4 (listMask y.liveList).toNat ++ meetBytes y

/-- R62: a digest that an undetected error has changed; how is free (log entry 7). -/
def wrongDigest (s : State) (d : List Byte) : List Byte × State :=
  let k := choose s 255
  ((d.headD 0 + BitVec.ofNat 8 (k.1 + 1)) :: d.tail, k.2)

/-- R71 to R73, R76: a selected phase ends; it becomes an assay job, or is counted skipped. `pc` is the record's offset. -/
def assayEnd (s : State) (b g : Nat) (pc : Word) : State :=
  match s.blk? b with
  | none => s
  | some x => match x.groups[g]? with
    | none => s
    | some y =>
      if !journaling y then s
      else
        let size := y.a.record.length + y.a.journal.length
        let s := modGrp s b g (fun y => { y with a := AssayG.off })
        if ringBytes s < (s.core (x.core % 768)).ring + size then countSkipped s
        else
          -- the ending home group's own registers and threads (R179)
          let home := ((unpack x).groups[g]?).getD y
          let d0 := sha512_128 (y.a.stream ++ digestTail x.h home pc)
          let w := wrongDigest s d0
          let r := if y.a.struck then (d0, w.1, w.2)
            else if s.silent.contains x.core then (w.1, d0, { w.2 with silent := s.silent.erase x.core }) else (d0, d0, s)
          let s := r.2.2
          let j : AJob := { core := x.core, tenant := x.opts.tenant, blkIdx := x.idx, grp := g, phx := y.r.phx, ctx := x.ctx, hdr := x.hdr,
                            h := x.h, record := y.a.record, journal := y.a.journal, imm := y.a.imm,
                            digest := r.1, truth := r.2.1, endAt := s.now, replay := none, differs := false }
          { modCore s (x.core % 768) (fun k => { k with ring := k.ring + size }) with jobs := tset s.jobs s.nextJob j, nextJob := s.nextJob + 1 }

/-- R116, R164: each register outside the lists holds its old value or zero, unspecified (log entry 7). -/
def dropBut (s : State) (b g : Nat) (keepV keepS : List Nat) : State :=
  match s.grp? b g with
  | none => s
  | some y =>
    let vs := ((y.r.v.map (fun c => c.1 / 32)).eraseDups).filter (fun p => !keepV.contains p)
    let ss := (y.r.s.map (·.1)).filter (fun p => !keepS.contains p)
    let s := foldS (fun p s =>
      let k := choose s 2
      if k.1 = 1 then modGrp k.2 b g (fun y => { y with r := { y.r with v := y.r.v.filter (fun c => c.1 / 32 != p) } }) else k.2) vs s
    foldS (fun p s =>
      let k := choose s 2
      if k.1 = 1 then modGrp k.2 b g (fun y => { y with r := { y.r with s := tdel y.r.s p } }) else k.2) ss s

/-- R116: after a boundary the carry registers are kept. -/
def dropRegs (s : State) (b g : Nat) : State :=
  match s.blk? b with
  | none => s
  | some x => dropBut s b g (carryList x.h false) (carryList x.h true)

/-- R116, R156, R395: how a group starts a phase. -/
def newPhase (now : Nat) (y : Group) : Group :=
  let y := modAllThr (fun t => { t with latch := [], event := false,
                                        region := if t.live then regionAt t.pc t.meet y.r.vw y.r.sw now else t.region }) y
  { y with
    r := { y.r with phx := y.r.phx + 1, tailOpen := true, rlatch := 0, wlatch := none }
    e := { y.e with copy := 0, gath := 0, coll := 0, prom := 0, gang := none, takes := [],
                    prefs := y.e.prefs.map (fun p => { p with counted := false }) } }

/-- R162, R75: the group stops where its block is to be pre-empted, and at a phase boundary where its core has been replaced or disabled;
at a LIVE point of a quarantined core only once it is to be pre-empted (R75). -/
def stopHere (s : State) (b g : Nat) (entry : Option (List Byte)) : State :=
  match s.blk? b with
  | none => s
  | some x =>
    if x.preempt || x.relocate || x.avoid.isSome || (!(s.core x.core).enabled && (entry.isNone || !(s.core x.core).quar)) then modGrp (leaveLane s b g) b g (setStatus (.stopped entry)) else s

/-- R114 steps 3 to 5, R116, R117, R226: the group passes the boundary; it has published already. `sc` is its ACQ's scope. -/
def passBoundary (s : State) (b g : Nat) (sc : Scope) : State :=
  match s.blk? b with
  | none => s
  | some x => match x.groups[g]? with
    | none => s
    | some y =>
      let pc := y.pcOf (y.liveList.headD 0) + 4
      let s := writeShadow s b
      let s := modGrp s b g (fun y => advance y.liveList y)
      let s := match s.grp? b g with
        | some y => devWrite s (x.slot + recordOff x.h g) (phaseRecord x.h y (y.r.phx + 1) pc)
        | none => s
      let s := assayEnd s b g pc
      let s := dropRegs (modGrp s b g (newPhase s.now)) b g
      let s := assayStart (acquire s b g sc) b g
      stopHere s b g none

/-- R114: a phase boundary at a scope: it publishes first. -/
def boundary (s : State) (b g : Nat) (sc : Scope) : State := passBoundary (publish s b g sc) b g sc

/-- R114 step 1: the engine operations of a group have completed. -/
def engineQuiet (y : Group) : Bool := y.e.ops.isEmpty && y.e.copy == 0 && y.e.gath == 0 && y.e.coll == 0

/-! The end of groups, blocks, nodes and instances. -/

/-- R98, R222: publishes what every group of a node's grid has stored, at a scope. -/
def publishNode (s : State) (n node : Nat) (sc : Scope) : State :=
  foldS (fun (c : Nat × Block) s =>
    if c.2.inst = n ∧ c.2.node = node then
      foldS (fun g s => publish s c.1 g sc) (List.range c.2.groups.length) s
    else s) s.blocks s

/-- R98, R222: the clock a retired node carries to its successors. -/
def nodeClock (s : State) (n node : Nat) : Table Nat :=
  s.blocks.foldl (fun k c => if c.2.inst = n ∧ c.2.node = node then c.2.groups.foldl (fun k y => tmax k (clockOf s y)) k else k) []

/-- R84: a finished submission is to be reported. -/
def reportDone (s : State) (hp : HPort) (r : CompRec) : State :=
  modSub s hp (fun q => { q with waiting := q.waiting ++ [r], open1 := q.open1.filter (fun x => x != r.sseq) })

/-- R98: an instance completes when every node has retired, or after a failure when no dispatched node still runs. -/
def finishInst (s : State) (n : Nat) : State :=
  match tget? s.insts n with
  | none => s
  | some i =>
    let done := if i.status = 0 then i.ret.all id else (i.disp.zip i.ret).all (fun c => !c.1 || c.2)
    if !done then s
    else
      let s := foldS (fun k s => publishNode s n k .host) (List.range i.nodes.length) s
      let clock := i.clocks.foldl (fun c x => tmax c x.2) []
      let s := modCtx s i.ctx (fun c => if c.lastInst = some n then { c with lastInst := none, lastClock := clock } else c)
      let s := { s with insts := s.insts.map (fun c => if c.2.prev = some n then (c.1, { c.2 with prev := none, prevClock := clock }) else c) }
      let s := reportDone s i.port { cseq := 0, sseq := i.sseq, kind := 0, status := i.status, graph := i.graph, bytes := 0, time := s.now, stamp := 0 }
      { s with insts := tdel s.insts n, blocks := s.blocks.filter (fun c => c.2.inst != n) }

/-- R98: a node retires when all its blocks have. -/
def finishNode (s : State) (n node : Nat) : State :=
  match tget? s.insts n with
  | none => s
  | some i =>
    if i.disp.getD node false && !i.ret.getD node false &&
        s.blocks.all (fun c => c.2.inst != n || c.2.node != node || c.2.life == .retired) then
      let k := nodeClock s n node
      let s := publishNode s n node .dev
      finishInst (modInst s n (fun i => { i with ret := i.ret.set node true, clocks := tset i.clocks node k })) n
    else s

/-- R119, R308: a group leaves its lane once nothing of it is outstanding; with the last of its block the block retires. -/
def finishGroup (s : State) (b g : Nat) : State :=
  match s.blk? b with
  | none => s
  | some x => match x.groups[g]? with
    | none => s
    | some y =>
      if x.life == .resident && y.liveList.isEmpty && (x.map.isEmpty || (liveThreads x).isEmpty) && y.q.status != .exited && y.log.isEmpty && engineQuiet y && y.e.prom == 0 && y.e.mma.isNone then
        let s := modGrp (leaveLane s b g) b g (setStatus .exited)
        match s.blk? b with
        | none => s
        | some x =>
          if x.groups.all (fun y => y.q.status == .exited) then
            finishNode (modBlk (clearRange s (scrLoc b 0) (2 ^ 23)) b (fun x => { x with life := .retired, grans := [], dirty := [] })) x.inst x.node
          else s
      else s

/-- R308 for every group of a block. -/
def finishBlock (s : State) (b : Nat) : State :=
  match s.blk? b with
  | none => s
  | some x => foldS (fun g s => finishGroup s b g) (List.range x.groups.length) s

/-! Barriers. -/

/-- The groups that issue the live threads of home group g (R179). -/
def hostsOf (x : Block) (g : Nat) : List Nat :=
  if x.map.isEmpty then [g]
  else (List.range x.groups.length).filter (fun k => (liveThreads x).any (fun c => c.1 == k && homeOf x k c.2.1 == g))

/-- What an arrival carries. While the block is packed, the accesses of a home group's threads belong to the packed groups
that issue them. -/
def arrClock (s : State) (x : Block) (g : Nat) (f : State → Group → Table Nat) : Table Nat :=
  (hostsOf x g).foldl (fun c k => match x.groups[k]? with | some y => tmax c (f s y) | none => c) []

/-- R226: a release acquires what the members' arrivals carry, in the spaces that both forms cover. -/
def joinLinks (s : State) (b g : Nat) (pub : Option PubScope) (links : List ArrLink) : State :=
  match s.blk? b with
  | none => s
  | some x => match x.groups[g]? with
    | none => s
    | some y =>
      let inst := match pub with | some sc => instanceOf s b x y.uid (pubScope sc) | none => some []
      let both (l : ArrLink) : Bool := pub.isSome && l.pub && inInst l.members y.uid && inInst inst l.uid
      modGrp s b g (fun y => { y with c := { y.c with
        hb := links.foldl (fun c l => if both l then tmax c l.clock else c) y.c.hb
        hbScr := links.foldl (fun c l => tmax (tmax c l.clock) l.scr) y.c.hbScr } })

/-- R364: what the last arrival of a home group at a barrier carries, once released. -/
def arrivalOf (x : Block) (id g : Nat) : Option Arrival := tget? x.arr (32 * id + g)

/-- R226, R364: the release completes for a home group: it acquires, and goes on past its instruction; a publishing BAR is a
phase boundary for it. -/
def barRelease (s : State) (b g : Nat) (w : BarWait) : State :=
  match s.blk? b with
  | none => s
  | some x =>
    let links := match arrivalOf x w.id g with | some a => a.links | none => []
    let s := modBlk s b (fun x => { x with bwait := tdel x.bwait g })
    let s := joinLinks s b g w.pub links
    match w.pub with
    | some sc =>
      if w.whole then passBoundary s b g (pubScope sc)
      else acquire (modGrp s b g (fun y => advance y.liveList y)) b g (pubScope sc)
    | none => acquireScratch (modGrp s b g (fun y => advance y.liveList y)) b g

/-- R364: the barrier releases its generation once GROUPS groups have arrived; a packed block unpacks (R180). -/
def tryRelease (s : State) (b id : Nat) : State :=
  match s.blk? b with
  | none => s
  | some x =>
    let r := barrierOf x id
    if r.arrived.length < x.h.groups then s
    else
      let x := unpack x
      let x := { x with
        bars := tset x.bars id { gen := r.gen + 1, arrived := [], links := [], hold := r.hold, last := r.last }
        arr := r.arrived.foldl (fun t g => tset t (32 * id + g) { released := true, links := r.links.filter (fun l =>
          match x.groups[g]? with | some y => l.uid != y.uid | none => true) }) x.arr }
      finishBlock (foldS (fun (c : Nat × BarWait) s => if c.2.id = id then barRelease s b c.1 c.2 else s) x.bwait (setBlk s b x)) b

/-- R180: the barriers of a packed block that have come to their release, after the pass that brought the last arrival. -/
def releaseDue (s : State) (b : Nat) : State :=
  match s.blk? b with
  | none => s
  | some x => if x.map.isEmpty then s else foldS (fun id s => tryRelease s b id) (x.bars.map (·.1)) s

/-- R226, R364: home group g arrives at barrier `id`. -/
def arrive (s : State) (b g id : Nat) (pub : Option PubScope) : State :=
  match s.blk? b with
  | none => s
  | some x =>
    let uid := match x.groups[g]? with | some y => y.uid | none => 0
    let link : ArrLink := { uid := uid, pub := pub.isSome, clock := arrClock s x g clockOf, scr := arrClock s x g scrClockOf,
                            members := match pub with | some sc => instanceOf s b x uid (pubScope sc) | none => some [] }
    let s := foldS (fun k s => match pub with | some sc => publish s b k (pubScope sc) | none => publishScratch s b k) (hostsOf x g) s
    modBlk s b (fun x =>
      let r := barrierOf x id
      { x with
        bars := tset x.bars id { r with arrived := insertNat r.arrived g, links := r.links ++ [link], last := coreEdge s x.core }
        arr := tset x.arr (32 * id + g) { released := false, links := [] } })

/-- A group's arrival in the current generation has not been released. -/
def arrivedOpen (x : Block) (id g : Nat) : Bool := match arrivalOf x id g with | some a => !a.released | none => false

end Sys2Proof.Machine
end

