-- ==== Sys2Proof/Machine/MemOps.lean ====
section
/-! DEFINITION. Performing memory accesses (R352, R353, R360): one access at its location, logging it (R153, R154), holding
it while its page is in transit (R215), and the path of a memory instruction. -/

namespace Sys2Proof.Machine

/-- R353: the register words of loaded bytes. -/
def loadWords (i : Instr) (l : List Byte) : List Word :=
  match i with
  | .ldbs _ _ _ => [sext32 (BitVec.ofNat 8 (leNat l))]
  | .ldhs _ _ _ => [sext32 (BitVec.ofNat 16 (leNat l))]
  | _ => bytesWords l

/-- The bytes a store takes from its register words. -/
def storeBytes (n : Nat) (ws : List Word) : List Byte := leBytes n (wordsNat ws)

/-- A number of `w` bits as a signed value. -/
def signedOf (w x : Nat) : Int := if 2 ^ (w - 1) ≤ x then (x : Int) - 2 ^ w else x

/-- R361: the new value of an atomic, from the old value, B and the compare value D; `none` leaves the location as it is. -/
def atomicNew (i : Instr) (old b d : Nat) : Option Nat :=
  match i with
  | .aadd _ _ _ m => some ((old + b) % 2 ^ (8 * W2.bytes m))
  | .amin _ _ _ m => some (if signedOf (8 * AtI.bytes m) b < signedOf (8 * AtI.bytes m) old then b else old)
  | .aminn _ _ _ _ => some (Nat.min old b)
  | .amax _ _ _ m => some (if signedOf (8 * AtI.bytes m) old < signedOf (8 * AtI.bytes m) b then b else old)
  | .amaxn _ _ _ _ => some (Nat.max old b)
  | .aand _ _ _ _ => some (old &&& b)
  | .aor _ _ _ _ => some (old ||| b)
  | .axor _ _ _ _ => some (old ^^^ b)
  | .axch _ _ _ _ => some b
  | .acas _ _ _ _ => if old = d then some b else none
  | .afadd _ _ _ m => some (match m with
      | .f32 => fadd fp32 .rn old b
      | .f16x2 => packed2 (fun x y _ => fadd fp16 .rn x y) old b 0
      | .bf16x2 => packed2 (fun x y _ => fadd bf16 .rn x y) old b 0)
  | .afmin _ _ _ m => some (fminmax fp32 (m == .max) old b)
  | .ainc _ _ _ m => some (match m with
      | .inc => if b ≤ old then 0 else old + 1
      | .dec => if old = 0 ∨ b < old then b else old - 1)
  | .asadd _ _ _ m => some (match m with | .i32 => (old + b) % 2 ^ 32 | .f32 => fadd fp32 .rn old b)
  | .asmin _ _ _ m => some (match m with
      | .i32 => if signedOf 32 b < signedOf 32 old then b else old
      | .n32 => Nat.min old b)
  | .ascas _ _ _ _ => if old = d then some b else none
  | _ => none

/-- R214: an access to a promoted page: its use and whether its frame holds stores. -/
def touchMig (s : State) (home : Option Nat) (wr : Bool) : State :=
  match home with
  | none => s
  | some h => { s with migs := s.migs.map (fun m => if m.home = h then { m with used := s.now, dirty := m.dirty || wr } else m) }

/-- R214: the same for a read of the context's tables or code. -/
def touchRead (ctx : Word) (need : Need) (va : BitVec 64) (s : State) : State :=
  match s.ctx? ctx with
  | none => s
  | some c => match access s c need va with
    | .ok _ l => (match migFor s c l with | some m => if m.transit then s else touchMig s (some m.home) false | none => s)
    | _ => s

/-- Marks of a performed write (R359, R117). -/
def markWritten (s : State) (b : Nat) (sp : Space) (ea : Nat) : State :=
  match sp with
  | .scr => markScr s b ea
  | .lay => (match s.blk? b with | some x => markLay s (clusterOf x.core) ea | none => s)
  | _ => s

/-- R228, R81: a window write: at once in memory for every party. -/
def winWrite (s : State) (a : Nat) (bs : List Byte) : State :=
  { s with mem := msetN s.mem a bs
           hist := s.hist.filter (fun w => w.loc < a || a + bs.length ≤ w.loc)
           poison := s.poison.filter (fun p => !(a ≤ p && p + 16 ≤ a + bs.length))
           latent := s.latent.filter (fun p => !(a ≤ p && p + 16 ≤ a + bs.length)) }

/-- The same by a group's store, which a later load of the bytes observes (R222). -/
def winStore (s : State) (uid a : Nat) (bs : List Byte) : State :=
  { winWrite s a bs with hist := wrecs s.stamp uid .store s.mem a bs ++ (winWrite s a bs).hist, stamp := s.stamp + 1 }

/-- A window load reads what is there, and observes who wrote it (R222, R228). -/
def winLoad (s : State) (b g a n : Nat) : List Byte × State :=
  (mgetN s.mem a n, modGrp s b g (fun y => { y with c := { y.c with
    obs := tmax y.c.obs (((locs a n).flatMap (writesAt s)).filterMap (fun w => if w.who = y.uid then none else some (w.who, w.stamp))) } }))

/-- R352: one access performed at the place its checks found: the value returned and the state. -/
def perform (s : State) (b g : Nat) (i : Instr) (m : Mem) (ea : Nat) (h : Hit) (data cmp : List Word) : List Byte × State :=
  if h.lapsed then
    (List.replicate m.n 0, if m.kind.reads then modGrp s b g (setSticky .lapsed) else s)
  else
    let s := touchMig s h.home m.kind.writes
    match m.kind with
    | .load =>
      if m.space == .win then winLoad s b g h.loc m.n
      else
        let r := plainLoad s b g h.loc m.n
        (r.1, if h.alt then modGrp r.2 b g (setSticky .altused) else r.2)
    | .ldu =>
      let r := atomicAt s b g h.loc m.n (fun _ => none)
      (leBytes m.n r.1, if h.alt then modGrp r.2 b g (setSticky .altused) else r.2)
    | .store =>
      if m.space == .win then ([], winStore s (uidAt s b g) h.loc (storeBytes m.n data))
      else ([], markWritten (ownWrite s b g .store h.loc (storeBytes m.n data)) b m.space ea)
    | .atomic =>
      let r := atomicAt s b g h.loc m.n (fun old => atomicNew i old (leNat (storeBytes m.n data)) (leNat (storeBytes m.n cmp)))
      (leBytes m.n r.1, markWritten r.2 b m.space ea)

/-- R153, R154: the token of a page fault: the outstanding one of the context and page, or a fresh one with its KIND 0x02
entry (R159, R160). -/
def pageFault (s : State) (b g acc : Nat) (va : BitVec 64) : Word × State :=
  match s.blk? b with
  | none => (0, s)
  | some x =>
    match s.pfaults.find? (fun f => f.ctx == x.ctx && f.page == pageOf va) with
    | some f => (f.token, s)
    | none =>
      let lane := match x.groups[g]? with | some y => y.q.lane | none => 0
      let tok := s.nextToken
      let e := entryBytes 2 0 (dieOf x.core) 0xFF (clusterOf x.core) (x.core % 8) lane (ctxTenant s x.ctx) 0 (s.etm x.core) x.ctx 0
        (leBytes 8 va.toNat ++ leBytes 4 tok.toNat ++ [BitVec.ofNat 8 acc])
      let f : PFault := { token := tok, ctx := x.ctx, page := pageOf va, acc := acc, core := x.core, lane := lane }
      (tok, postTrap { s with pfaults := s.pfaults ++ [f], nextToken := tok + 1 } (ctxPort s x.ctx) { own := true, grp := none, bytes := e })

/-- The pending marks of a register span for some threads (R132): vector slots and scalar registers. -/
def pendKeys (d : Option PReg) (n : Nat) (ts : List Nat) : List Nat × List Nat :=
  match d with
  | none => ([], [])
  | some (.v p) => ((List.range n).flatMap (fun k => ts.map (fun t => 32 * (p + k) + t)), [])
  | some (.s p) => ([], (List.range n).map (p + ·))

/-- Marks destinations pending. -/
def pend (k : List Nat × List Nat) (y : Group) : Group := { y with e := { y.e with vpend := y.e.vpend ++ k.1, spend := y.e.spend ++ k.2 } }

/-- R132: marks destinations pending until the memory's data returns. -/
def pendLoad (k : List Nat × List Nat) (y : Group) : Group :=
  if k.1.isEmpty && k.2.isEmpty then y else let y := pend k y; { y with e := { y.e with returns := y.e.returns ++ [k] } }

/-- Clears one pending mark of each destination: a register may await several results (R367). -/
def unpend (k : List Nat × List Nat) (y : Group) : Group :=
  { y with e := { y.e with vpend := k.1.foldl List.erase y.e.vpend, spend := k.2.foldl List.erase y.e.spend } }

/-- R159: the access code of a page-fault entry. -/
def MKind.code : MKind → Nat | .load => 0 | .ldu => 0 | .store => 1 | .atomic => 2

/-- R153: a log entry takes a further thread of the same instruction that waits for the same page. -/
def sameLog (i : Instr) (pc token : Word) (t : Nat) (e : LogEntry) : Bool :=
  e.i = i && e.pc == pc && e.token == token && !e.woken && e.also.isEmpty && !e.thr.any (fun z => z.t == t)

/-- R153: a thread's access goes into the operand log: one entry for each instruction and page. -/
def logAccess (s : State) (b g : Nat) (i : Instr) (pc : Word) (acc : Nat) (ea : BitVec 64) (dst : Option PReg) (n : Nat) (ts : List Nat)
    (x : LogThr) : State :=
  let r := pageFault s b g acc ea
  let also := match r.2.blk? b with | some z => (ts.filter (· != x.t)).map (fun t => (homeOf z g t, t)) | none => []
  let e : LogEntry := { i := i, pc := pc, token := r.1, acc := acc, page := pageOf ea, dst := dst, woken := false, thr := [x], also := also }
  modGrp r.2 b g (fun y =>
    let y := pend (pendKeys dst n ts) y
    match (if also.isEmpty then y.log.findIdx? (sameLog i pc r.1 x.t) else none) with
    | some k => { y with log := lmod y.log k (fun l => { l with thr := l.thr ++ [x] }) }
    | none => { y with log := y.log ++ [e] })

/-- R215: a store or atomic to a page in transit is held at the memory side. -/
def holdAccess (s : State) (b g : Nat) (i : Instr) (pc : Word) (home : Nat) (ea : BitVec 64) (dst : Option PReg) (n : Nat) (ts : List Nat)
    (x : LogThr) : State :=
  let also := match s.blk? b with | some z => (ts.filter (· != x.t)).map (fun t => (homeOf z g t, t)) | none => []
  let e : LogEntry := { i := i, pc := pc, token := 0, acc := 1, page := pageOf ea, dst := dst, woken := false, thr := [x], also := also }
  modGrp { s with migs := s.migs.map (fun m => if m.home = home then { m with held := m.held ++ [(b, g, e)] } else m) } b g
    (pend (pendKeys dst n ts))

/-- R73: the address of an access in the digest stream. -/
def digestAddr (m : Mem) (ea : Nat) : Nat := (formOf m.space ea).toNat

/-- R73: a store's or an atomic's entry. -/
def digestAccess (s : State) (b g : Nat) (i : Instr) (m : Mem) (ea : Nat) (data cmp : List Word) : State :=
  match m.kind with
  | .store => digest s b g (digestEntry (digestAddr m ea) (byteMask ea m.n) 0 (storeBytes m.n data))
  | .atomic =>
    let more := match i with | .acas _ _ _ _ => storeBytes m.n cmp | .ascas _ _ _ _ => storeBytes m.n cmp | _ => []
    digest s b g (digestEntry (digestAddr m ea) (byteMask ea m.n) 1 (storeBytes m.n data ++ more))
  | _ => s

/-- What a memory instruction takes from its operands: its access, destination, and for each thread its data and compare words. -/
structure MemI where
  m : Mem
  d : Dst
  data : Pass → Nat → List Word
  cmp : Pass → Nat → List Word

/-- The threads whose accesses a path performs: one for a path with a scalar address (R352). -/
def accThreads (i : Instr) (p : Pass) : List Nat := match i.xclass with | .perThread => p.L | _ => [p.low]
/-- The threads that receive the value of thread t's access. -/
def accDests (i : Instr) (p : Pass) (t : Nat) : List Nat := match i.xclass with | .perThread => [t] | _ => p.L

/-- One thread's access: performed, logged or held. Answers the threads' values in order, with the address of one that an immutable page
gave. -/
def accessOne (i : Instr) (q : MemI) (p : Pass) (t : Nat) (r : List (Nat × List Byte × Option Nat) × State) :
    List (Nat × List Byte × Option Nat) × State :=
  let ea := q.m.ea p t
  let data := q.data p t
  let cmp := q.cmp p t
  let words := ceilDiv q.m.n 4
  let dst := if q.m.kind.reads then dstReg p.P q.d else none
  let s := digestAccess r.2 p.b p.g i q.m ea data cmp
  let x : LogThr := { g := homeOf p.B p.g t, t := t, addr := BitVec.ofNat 64 ea, data := data, cmp := cmp, jat := none }
  match look p s q.m t with
  | .ok h =>
    (match h.hold with
     | some home => (r.1, holdAccess s p.b p.g i p.pc home (BitVec.ofNat 64 ea) dst words (accDests i p t) x)
     | none => let z := perform s p.b p.g i q.m ea h data cmp; (r.1 ++ [(t, z.1, if h.imm then some ea else none)], z.2))
  | .notPresent _ => (r.1, logAccess s p.b p.g i p.pc q.m.kind.code (BitVec.ofNat 64 ea) dst words (accDests i p t) x)
  | _ => (r.1, s)

/-- R71: journals the values a path's accesses returned, with a place for each of `n` bytes that is still to come; those of immutable pages
are only kept. -/
def journalPath (s : State) (p : Pass) (i : Instr) (vals : List (Nat × List Byte × Option Nat)) (late : List Nat) (n : Nat) : State :=
  let s := keepImm s p.b p.g (vals.filterMap (fun v => v.2.2.map (fun a => (a, v.2.1))))
  let vs := (vals.filter (fun v => v.2.2.isNone)).map (fun v => (v.1, v.2.1, false))
  let ls := late.map (fun t => (t, List.replicate n 0, true))
  journalItems s p.b p.g p.upper i p.pc
    (if ls.isEmpty then vs else (List.range 32).flatMap (fun t => (vs ++ ls).filter (fun v => v.1 == t)))

/-- R43: bytes that a group's performed accesses moved in the uncore. -/
def countBytes (ctx : Word) (sp : Space) (n : Nat) (s : State) : State :=
  if sp == .dev || sp == .win then note 96 (ctxTenant s ctx) n s else s

/-- R352, R360: a memory instruction on its path: every access in ascending thread index, then the results. While an access
waits (R197, R216) nothing happens. -/
def memEff (i : Instr) (q : MemI) (p : Pass) (s : State) : State :=
  let ts := accThreads i p
  if ts.any (fun t => look p s q.m t == .wait) then s
  else
    let r := ts.foldl (fun r t => accessOne i q p t r) ([], s)
    let late := ts.filter (fun t => !r.1.any (fun v => v.1 == t))
    let s := if q.m.kind.reads then
        journalPath r.2 p i (r.1.flatMap (fun v => (accDests i p v.1).map (fun t => (t, v.2)))) (late.flatMap (accDests i p)) q.m.n
      else r.2
    let s := countBytes p.B.ctx q.m.space (r.1.length * q.m.n) s
    let s := if q.m.kind == .atomic then moveRegion s p.b p.g p.L else s
    modGrp s p.b p.g (fun y =>
      let y := if q.m.kind.reads then
          r.1.foldl (fun y v =>
            let ws := loadWords i v.2.1
            let ds := accDests i p v.1
            let y := ds.foldl (fun y t => writeOp p.P false q.d t ws (ws.headD 0) y) y
            pendLoad (pendKeys (dstReg p.P q.d) ws.length ds) y) y
        else y
      advance p.L y)

/-- A memory instruction. -/
def runMem (i : Instr) (q : MemI) (s : State) : Out := runPass i (extraOf i) (memEff i q) (findSel i s)

/-- A load into D. -/
def loadI (i : Instr) (d : Dst) (s : State) : Out :=
  match memOf i with
  | some m => runMem i { m := m, d := d, data := fun _ _ => [], cmp := fun _ _ => [] } s
  | none => .next s

/-- A store of the D-field registers. -/
def storeI (i : Instr) (e : Src) (s : State) : Out :=
  match memOf i with
  | some m => runMem i { m := m, d := .discard, data := fun p t => srcWords p t e (ceilDiv m.n 4) 0, cmp := fun _ _ => [] } s
  | none => .next s

/-- R360: an atomic of B, with the compare value D where it compares. -/
def atomicI (i : Instr) (d : Dst) (b : Src) (s : State) : Out :=
  match memOf i with
  | some m => runMem i { m := m, d := d, data := fun p t => srcWords p t b (ceilDiv m.n 4) 0,
                         cmp := fun p t => (List.range (ceilDiv m.n 4)).map (dstWord p t d) } s
  | none => .next s

end Sys2Proof.Machine
end

