-- ==== Sys2Proof/Machine/Atomic.lean ====
section
/-! DEFINITION. Atomics: block 0xA_ (R360 to R362). -/

namespace Sys2Proof.Machine

/-- AADD (R361). -/
def execAadd (d : Dst) (a b : Src) (m : W2) (s : State) : Out := atomicI (.aadd d a b m) d b s

/-- AMIN (R361). -/
def execAmin (d : Dst) (a b : Src) (m : AtI) (s : State) : Out := atomicI (.amin d a b m) d b s

/-- AMINN (R361). -/
def execAminn (d : Dst) (a b : Src) (m : AtN) (s : State) : Out := atomicI (.aminn d a b m) d b s

/-- AMAX (R361). -/
def execAmax (d : Dst) (a b : Src) (m : AtI) (s : State) : Out := atomicI (.amax d a b m) d b s

/-- AMAXN (R361). -/
def execAmaxn (d : Dst) (a b : Src) (m : AtN) (s : State) : Out := atomicI (.amaxn d a b m) d b s

/-- AAND (R361). -/
def execAand (d : Dst) (a b : Src) (m : W2) (s : State) : Out := atomicI (.aand d a b m) d b s

/-- AOR (R361). -/
def execAor (d : Dst) (a b : Src) (m : W2) (s : State) : Out := atomicI (.aor d a b m) d b s

/-- AXOR (R361). -/
def execAxor (d : Dst) (a b : Src) (m : W2) (s : State) : Out := atomicI (.axor d a b m) d b s

/-- AXCH (R361). -/
def execAxch (d : Dst) (a b : Src) (m : W2) (s : State) : Out := atomicI (.axch d a b m) d b s

/-- ACAS (R361). -/
def execAcas (d : Dst) (a b : Src) (m : W2) (s : State) : Out := atomicI (.acas d a b m) d b s

/-- AFADD (R361). -/
def execAfadd (d : Dst) (a b : Src) (m : AfaddM) (s : State) : Out := atomicI (.afadd d a b m) d b s

/-- AFMIN (R361). -/
def execAfmin (d : Dst) (a b : Src) (m : MinMax) (s : State) : Out := atomicI (.afmin d a b m) d b s

/-- AINC (R361). -/
def execAinc (d : Dst) (a b : Src) (m : IncM) (s : State) : Out := atomicI (.ainc d a b m) d b s

/-- ASADD (R361). -/
def execAsadd (d : Dst) (a b : Src) (m : AsaddM) (s : State) : Out := atomicI (.asadd d a b m) d b s

/-- ASMIN (R361). -/
def execAsmin (d : Dst) (a b : Src) (m : Sgn32) (s : State) : Out := atomicI (.asmin d a b m) d b s

/-- ASCAS (R361). -/
def execAscas (d : Dst) (a b : Src) (m : W2) (s : State) : Out := atomicI (.ascas d a b m) d b s

end Sys2Proof.Machine
end

