-- ==== Sys2Proof/Machine/Move.lean ====
section
/-! DEFINITION. What the copy engine and the gather unit move (R246 to R251, R431): reading source sectors, expanding storage
formats, writing destination sectors, and the token. -/

namespace Sys2Proof.Machine

/-- A group as an engine sees it: no watchpoint (R401), and of its PREFs those that its copies have waited for (R216). -/
def engEyes (y : Group) : Group :=
  { unwatched y with e := { y.e with prefs := y.e.prefs.map (fun r => { r with waited := r.copyWaited }) } }

/-- The same as a pass without threads. -/
def engPass (s : State) (b g : Nat) : Option Pass :=
  match s.blk? b with
  | none => none
  | some x => match x.groups[g]? with
    | none => none
    | some y => some { b := b, g := g, B := x, G := unwatched y, P := engEyes y, L := [], mask := 0, upper := false, judged := true, cut := false }

/-- R248: what the group's copy has written so far, it reads back. -/
def ownSoFar (uid : Nat) (s : State) : State :=
  { s with hist := s.hist.map (fun w => if openWrite uid 1 w then { w with fin := some w.stamp } else w) }

/-- R230: a copy reads as the group's own load would, and leaves the group's view as it was; R223, R224: what a gather reads are loads. -/
def engLoad (s : State) (b g : Nat) (gath : Bool) (sp : Space) (loc n : Nat) : List Byte × State :=
  if sp == .win then (mgetN s.mem loc n, s)
  else match s.grp? b g with
    | none => ([], s)
    | some y =>
      if gath then plainLoad s b g loc n
      else let r := plainLoad (ownSoFar y.uid s) b g loc n; (r.1, modGrp { r.2 with hist := s.hist } b g (fun z => { z with c := y.c }))

/-- What reading a source run meets: its bytes and whether they are poisoned, the CAUSE that stops the operation, a page
fault with its access code, or a wait. -/
inductive EngRead where
  | ok (l : List Byte) (poison : Bool) | stop (cause : Nat) | page (acc : Nat) (va : BitVec 64) | wait
  deriving DecidableEq, Repr

/-- R216: an access of the group's next pass, or a read of its copy, waits for a PREF's page. -/
def waitMark (copy : Bool) (r : Pref) : Pref := if copy then { r with copyWaited := true } else { r with waited := true }
def markWaited (copy : Bool) (b g : Nat) (pages : List (BitVec 64)) (s : State) : State :=
  modGrp s b g (fun y =>
    if y.e.prefs.any (fun r => waitMark copy r != r && pages.contains r.page) then
      { y with e := { y.e with prefs := y.e.prefs.map (fun r => if pages.contains r.page then waitMark copy r else r) } }
    else y)

/-- R216: the access that waited for a PREF has been served: the PREF, once late, ends. -/
def serveWaited (copy : Bool) (etm : Nat) (y : Group) : Group :=
  if y.e.prefs.all (fun r => !(if copy then r.copyWaited else r.waited)) then y
  else
    let l := y.e.prefs.map (fun r => if copy then { r with copyWaited := false } else { r with waited := false })
    { y with e := { y.e with prefs := l.filter (fun r => etm < r.deadline || r.counted || r.waited || r.copyWaited) } }

/-- R248, R217, R61: a source run of at most 16 bytes in the device range. -/
def engReadDev (s : State) (p : Pass) (a n : Nat) : EngRead × State :=
  let va := BitVec.ofNat 64 a
  match s.ctx? p.B.ctx with
  | none => (.stop 2, s)
  | some c =>
    let s := findWalk s c va s.now p.B.ctx
    match access s c .read va with
    | .perm => (.stop 2, s)
    | .poisoned => (.stop 2, s)
    | .notPresent => (.page 0 va, s)
    | .ok pa l =>
      let s := findMig s c p.P (s.etm p.B.core) l a n pa s.now p.B.ctx
      match lookMig s c p.P (s.etm p.B.core) l .load a n pa with
      | .ok h =>
        let r := engLoad (touchMig s h.home false) p.b p.g false .dev h.loc n
        (.ok r.1 false, if h.alt then modGrp r.2 p.b p.g (setSticky .altused) else r.2)
      | .fault _ _ _ => let r := engLoad s p.b p.g false .dev pa n; (.ok r.1 true, r.2)
      | _ => (.wait, markWaited true p.b p.g [pageOf va] s)

/-- R197, R199: a layer offset that an engine reaches: refused once the bank is no longer the context's, waited for while it drains. -/
def layStands (s : State) (p : Pass) (sp : Space) (a : Nat) : Look :=
  match sp with | .lay => spanSpace p s ⟨.lay, a, 1⟩ | _ => .ok { loc := 0 }

/-- R431: a source run in scratch, layer space or the window. -/
def engReadBank (s : State) (p : Pass) (gath : Bool) (sp : Space) (a n : Nat) : EngRead × State :=
  match layStands s p sp a with
  | .wait => (.wait, s)
  | .fault _ _ _ => (.stop 2, s)
  | _ => match granAt s p sp a with
  | .expired => (.stop 4, s)
  | .lapsed => (.ok (List.replicate n 0) false, modGrp s p.b p.g (setSticky .lapsed))
  | .live =>
    let loc := bankLocOf p sp a
    let s := findErrors s loc n 1 s.now (some p.B.ctx)
    let bad := poisoned s loc n
    let r := engLoad s p.b p.g gath sp loc n
    (.ok r.1 bad, r.2)

def engRead (s : State) (p : Pass) (sp : Space) (a n : Nat) : EngRead × State :=
  match sp with | .dev => engReadDev s p (a % 2 ^ 64) n | _ => engReadBank s p false sp a n

/-- Reads a run sector by sector: the bytes with the poison of each. -/
def engRun (s : State) (p : Pass) (sp : Space) (a n : Nat) : Nat → (List (Byte × Bool)) → EngRead × List (Byte × Bool) × State
  | 0, l => (.ok [] false, l, s)
  | k + 1, l =>
    if n = 0 then (.ok [] false, l, s)
    else
      let m := Nat.min n (16 - a % 16)
      match engRead s p sp a m with
      | (.ok bs bad, s) => engRun s p sp (a + m) (n - m) k (l ++ bs.map (fun x => (x, bad)))
      | (r, s) => (r, l, s)

/-- How a transfer stands: going on, ended with a CAUSE, suspended under a token, or waiting. -/
inductive XferSt where
  | go | stop (cause : Nat) | susp (token : Word) | wait
  deriving DecidableEq, Repr

/-- R431, R63: one destination sector of a bank, written, discarded, or stopping the operation. -/
def engWriteBank (s : State) (p : Pass) (own : Nat × Nat) (op : Nat) (sp : Space) (a : Nat) (bs : List Byte) (bad : Bool) : XferSt × Bool × State :=
  match layStands s p sp a with
  | .wait => (.wait, false, s)
  | .fault _ _ _ => (.stop 2, false, s)
  | _ => match granAt s p sp a with
  | .expired => (.stop 4, false, s)
  | .lapsed => (.go, false, modGrp s own.1 own.2 (setSticky .lapsed))
  | .live =>
    let loc := bankLocOf p sp a
    let s := if sp == .win then winWrite s loc bs else markWritten (engWrite s own.1 own.2 op loc bs) p.b sp a
    (.go, true, if bad then setPoison s [sectorOf loc] else s)

/-- R248, R207, R215: one destination sector in the device range. -/
def engWriteDev (s : State) (p : Pass) (op : Nat) (a : Nat) (bs : List Byte) (bad : Bool) : XferSt × Bool × State :=
  let va := BitVec.ofNat 64 a
  match s.ctx? p.B.ctx with
  | none => (.stop 2, false, s)
  | some c =>
    let s := findWalk s c va s.now p.B.ctx
    match access s c .write va with
    | .perm => (.stop 2, false, s)
    | .poisoned => (.stop 2, false, s)
    | .notPresent => let r := pageFault s p.b p.g 1 va; (.susp r.1, false, r.2)
    | .ok pa l =>
      match migFor s c l with
      | some m =>
        if m.transit then (.wait, false, s)
        else let s := engWrite (touchMig s (some m.home) true) p.b p.g op pa bs
             (.go, true, if bad then setPoison s [sectorOf pa] else s)
      | none => let s := engWrite s p.b p.g op pa bs; (.go, true, if bad then setPoison s [sectorOf pa] else s)

/-- R250: source element bits, expanded to the canonical element. -/
def expandElt (f x : Nat) : Nat :=
  match f with
  | 7 => e2m1ToE4m3 x
  | 8 => (sext32 (BitVec.ofNat 4 x)).toNat % 256
  | _ => x

/-- Element `c` of `w` bits from a packed row, and whether a byte of it is poisoned (R233). -/
def eltAt (row : List (Byte × Bool)) (w c : Nat) : Nat × Bool :=
  let l := (row.drop (c * w / 8)).take (ceilDiv w 8)
  (bitsN (leNat (l.map (·.1))) (c * w % 8) w, l.any (·.2))

/-- R250: the metadata nibble of group `q`, and whether it is poisoned. -/
def nibAt (m : List (Byte × Bool)) (q : Nat) : Nat × Bool := eltAt m 4 q

/-- R250: every group of four has rising positions. -/
def metaOk (c : CopyD) (m : List (Byte × Bool)) : Bool :=
  (List.range (c.cols / 4)).all (fun q => let k := (nibAt m q).1; k % 4 < k / 4)

/-- R250: the canonical element at column `j`. -/
def canonElt (c : CopyD) (row m : List (Byte × Bool)) (j : Nat) : Nat × Bool :=
  if sfSparse c.fmt then
    let k := nibAt m (j / 4)
    let w := sfBits c.fmt
    if j % 4 = k.1 % 4 then let e := eltAt row w (j / 4 * 2); (e.1, e.2 || k.2)
    else if j % 4 = k.1 / 4 then let e := eltAt row w (j / 4 * 2 + 1); (e.1, e.2 || k.2)
    else (0, k.2)
  else let e := eltAt row (sfBits c.fmt) j; (expandElt c.fmt e.1, e.2)

/-- R245: the runs of a canonical row, each with its offset, columns and bytes; padding is zero. -/
def rowRuns (c : CopyD) (r : Nat) : List (Nat × List Nat × Nat) :=
  let es := sfBytes c.fmt
  match c.layout with
  | 0 => [(r * roundUp (c.cols * es) 16, List.range c.cols, roundUp (c.cols * es) 16)]
  | 1 => (List.range (ceilDiv c.cols 64)).map (fun q =>
      ((q * c.rows + r) * 64 * es, (List.range (Nat.min 64 (c.cols - 64 * q))).map (64 * q + ·), 64 * es))
  | _ => [(r * 4 * c.cols, List.range c.cols, 4 * c.cols)]

/-- The bytes of a run with their poison. -/
def runOf (c : CopyD) (row m : List (Byte × Bool)) (cols : List Nat) (n : Nat) : List (Byte × Bool) :=
  let l := cols.flatMap (fun j => let e := canonElt c row m j; (leBytes (sfBytes c.fmt) e.1).map (fun x => (x, e.2)))
  l ++ List.replicate (n - l.length) (0, false)

/-- Cuts a run at sector bounds: address, bytes, poison, and whether the piece begins its sector. -/
def pieces (a : Nat) (l : List (Byte × Bool)) : Nat → List (Nat × List Byte × Bool × Bool)
  | 0 => []
  | k + 1 =>
    if l.isEmpty then []
    else
      let m := 16 - a % 16
      let x := l.take m
      (a, x.map (·.1), x.any (·.2), a % 16 == 0) :: pieces (a + m) (l.drop m) k

/-- The state of a transfer. -/
structure Xfer where
  s : State
  st : XferSt
  sect : Nat
  poisoned : Bool
  /-- Pieces of the step that have been written. -/
  part : Nat

/-- R249: SECT saturates. -/
def addSect (n k : Nat) : Nat := Nat.min 0xFFFFFF (n + k)

/-- R246: the block whose scratch a multicast also writes. -/
def mcastBlk (s : State) (x : Block) (m : Nat) : Option Nat :=
  (s.blocks.find? (fun c => c.2.inst == x.inst && c.2.node == x.node && c.2.troupe == x.troupe && troupeRel c.2 == m && c.2.life == .resident)).map (·.1)

/-- One piece to one destination. -/
def writePiece (p q : Pass) (sp : Space) (x : Nat × List Byte × Bool × Bool) (z : Xfer) : Xfer :=
  if z.st != .go then z
  else
    let r := match sp with
      | .dev => engWriteDev z.s p 1 x.1 x.2.1 x.2.2.1
      | _ => engWriteBank z.s q (p.b, p.g) 1 sp x.1 x.2.1 x.2.2.1
    { s := r.2.2, st := r.1, sect := if r.2.1 && x.2.2.2 then addSect z.sect 1 else z.sect, poisoned := z.poisoned || (r.2.1 && x.2.2.1),
      part := if r.1 == .go then z.part + 1 else z.part }

/-- The destinations of a copy. -/
def copyDests (p : Pass) (c : CopyD) (s : State) : List (Pass × Space) :=
  (p, c.dsp) :: (if !c.mcast then []
    else match mcastBlk s p.B c.mblk with
      | none => []
      | some k => match engPass s k 0 with
        | none => []
        | some q => [(q, .scr)])

/-- The pieces of a step to every destination; those written before the step had to wait are not written again. -/
def writeAllTo (p : Pass) (c : CopyD) (ps : List (Nat × List Byte × Bool × Bool)) (z : Xfer) : Xfer :=
  let us := ps.flatMap (fun x => (copyDests p c z.s).map (fun d => (d, x)))
  let w := foldS (fun (u : (Pass × Space) × Nat × List Byte × Bool × Bool) z => writePiece p u.1.1 u.1.2 u.2 z) (us.drop z.part) z
  { w with part := if w.st == .go then 0 else w.part }

/-- R248: sector `k` of a CPY. -/
def cpyStep (p : Pass) (c : CopyD) (k : Nat) (z : Xfer) : Xfer :=
  match engRead z.s p c.ssp (c.src + 16 * k) 16 with
  | (.ok bs bad, s) => writeAllTo p c [(c.dst + 16 * k, bs, bad, true)] { z with s := s }
  | (.stop n, s) => { z with s := s, st := .stop n }
  | (.page acc va, s) => let r := pageFault s p.b p.g acc va; { z with s := r.2, st := .susp r.1 }
  | (.wait, s) => { z with s := s, st := .wait }

/-- R250: row `r` of a CPYT. -/
def cpytStep (p : Pass) (c : CopyD) (r : Nat) (z : Xfer) : Xfer :=
  let row := engRun z.s p c.ssp (c.src + r * c.pitch) (rowBytes c) (rowBytes c) []
  let m := if sfSparse c.fmt then engRun row.2.2 p .scr (c.metaOff + r * (c.cols / 8)) (c.cols / 8) (c.cols / 8) []
    else (.ok [] false, [], row.2.2)
  match row.1, m.1 with
  | .ok _ _, .ok _ _ =>
    if sfSparse c.fmt && !metaOk c m.2.1 then { z with s := m.2.2, st := .stop 3 }
    else
      let ps := (rowRuns c r).flatMap (fun u => pieces (c.dst + u.1) (runOf c row.2.1 m.2.1 u.2.1 u.2.2) (u.2.2 + 1))
      writeAllTo p c ps { z with s := m.2.2 }
  | .stop n, _ => { z with s := row.2.2, st := .stop n }
  | .page acc va, _ => let f := pageFault row.2.2 p.b p.g acc va; { z with s := f.2, st := .susp f.1 }
  | .wait, _ => { z with s := row.2.2, st := .wait }
  | _, .stop n => { z with s := m.2.2, st := .stop n }
  | _, _ => { z with s := m.2.2, st := .wait }

/-- Steps of a copy. -/
def copySteps (c : CopyD) : Nat := if c.t then c.rows else c.len / 16

/-- Runs a copy from step `k` on, until it ends, suspends or waits; answers the step it stands at. -/
def copyRun (p : Pass) (c : CopyD) (k : Nat) : Nat → Xfer → Nat × Xfer
  | 0, z => (k, z)
  | n + 1, z =>
    let w := if c.t then cpytStep p c k z else cpyStep p c k z
    if w.st == .go then copyRun p c (k + 1) n w else (k, w)

/-- R251, R431: the committed writes of a gather: 16-byte sectors; an expired granule discards its writes with CAUSE 4. -/
def gathWrites (p : Pass) (a : Nat) (cause : Nat) : List (List Byte) → Xfer → Nat × Xfer
  | [], z => (cause, z)
  | bs :: r, z =>
    let w := engWriteBank z.s p (p.b, p.g) 2 .scr a bs false
    let z := { z with s := w.2.2, sect := if w.2.1 then addSect z.sect 1 else z.sect }
    gathWrites p (a + 16) (match w.1 with | .stop n => n | _ => cause) r z

/-- A byte list in sectors. -/
def inSectors (l : List Byte) : Nat → List (List Byte)
  | 0 => []
  | n + 1 => l.take 16 :: inSectors (l.drop 16) n

/-- R249: the token word. -/
def tokenWord (sect : Nat) (poisoned : Bool) (cause : Nat) : Word := BitVec.ofNat 32 (sect * 2 ^ 8 + 2 ^ 4 * (bit poisoned) + cause)

/-- Is the engine operation a copy, a gather, a collective? -/
def isCopy (o : EngOp) : Bool := match o.i with | .cpy _ _ => true | .cpyt _ _ => true | _ => false
def isGath (o : EngOp) : Bool := match o.i with | .gath _ _ => true | _ => false
def isColl (o : EngOp) : Bool := match o.i with | .coll _ _ _ => true | _ => false
def opCopyD (o : EngOp) : CopyD := copyD (match o.i with | .cpyt _ _ => true | _ => false) o.desc

/-- The transfer of operation `k` of a group, as far as it can go now (R230: at any time between issue and completion). -/
def transfer (s : State) (b g k : Nat) : State :=
  match engPass s b g with
  | none => s
  | some p => match p.G.e.ops[k]? with
    | none => s
    | some o =>
      let put (o : EngOp) (s : State) : State := modGrp s b g (fun y => { y with e := { y.e with ops := lset y.e.ops k o } })
      if o.fin.isSome || o.susp.isSome || isColl o then s
      else if o.bad then put { o with fin := some 1 } s
      else if isGath o then
        let d := gathD o.desc
        let r := gathWrites p d.dst 0 (inSectors o.data (o.data.length / 16)) { s := s, st := .go, sect := 0, poisoned := false, part := 0 }
        put { o with fin := some r.1, sect := r.2.sect } r.2.s
      else
        let c := opCopyD o
        let r := copyRun p c o.pos (copySteps c - o.pos) { s := s, st := .go, sect := o.sect, poisoned := o.poisoned, part := o.part }
        let o := { o with pos := r.1, sect := r.2.sect, poisoned := r.2.poisoned, part := r.2.part }
        put (match r.2.st with
          | .go => { o with fin := some 0 }
          | .stop n => { o with fin := some n }
          | .susp t => { o with susp := some t }
          | .wait => o) r.2.s

/-- A completion leaves the group as its rollback, or its end, waited for (R156 step 2, R308). -/
def afterEngine (s : State) (b g : Nat) : State :=
  match s.grp? b g with
  | none => s
  | some y => if y.q.rollback && y.e.ops.isEmpty then rollbackNow s b g else finishGroup s b g

/-- The word an operation leaves in its register (R249, R58, R372). -/
def writeStatus (dst : Option PReg) (w : Word) (y : Group) : Group :=
  match dst with | some r => unpend (pendKeys dst 1 [0]) (setReg 0 r [w] y) | none => y

/-- R71, R377: the place that a token takes in the journal, in issue order; a token that goes to no register has none. -/
def reserveToken (s : State) (b g : Nat) (dst : Option PReg) (mask : BitVec 32) : Option Nat × State :=
  if dst.isNone then (none, s)
  else
    let s := journal s b g mask [[0, 0, 0, 0]]
    match s.grp? b g with
    | some y => (if journaling y then some (y.a.journal.length - 8) else none, s)
    | none => (none, s)

/-- R43: bytes that an operation moved in the uncore: a move within a cluster's own tiers is none. -/
def uncoreBytes (o : EngOp) : Nat :=
  let out (sp : Space) : Bool := sp == .dev || sp == .win
  if isGath o then (if (gathD o.desc).scr then 0 else o.data.length)
  else if out (opCopyD o).ssp || out (opCopyD o).dsp then 16 * o.sect else 0

/-- R249, R71, R377: operation `k` completes with a token: the register, the journal, the counter. -/
def deliver (s : State) (b g k : Nat) (dec : GEng → GEng) : State :=
  match s.grp? b g with
  | none => s
  | some y => match y.e.ops[k]? with
    | none => s
    | some o => match o.fin with
      | none => s
      | some cause =>
        let w := tokenWord o.sect o.poisoned cause
        let s := finWrites s b g (if isGath o then 2 else 1)
        let z : Nat × State := match s.blk? b with | some x => (s.etm x.core, note 96 (ctxTenant s x.ctx) (uncoreBytes o) s) | none => (0, s)
        let s := fillEntry z.2 b g (o.jat.map (fun k => (k, k))) (leBytes 4 w.toNat)
        afterEngine (modGrp s b g (fun y => serveWaited true z.1
          (writeStatus o.dst w { y with e := dec { y.e with ops := y.e.ops.eraseIdx k } }))) b g

end Sys2Proof.Machine
end

