-- ==== Sys2Proof/Machine/Ordering.lean ====
section
/-! DEFINITION. Ordering, barriers, phase boundaries and waits: block 0xB_ (R363 to R366). -/

namespace Sys2Proof.Machine

/-- PUB (R363, R220); it moves the region entry (R156). -/
def execPub (sc : Scope) (s : State) : Out :=
  runPass (.pub sc) (extraOf (.pub sc)) (fun p s => modGrp (moveRegion (publish s p.b p.g sc) p.b p.g p.L) p.b p.g (advance p.L)) s

/-- ACQ (R363, R221). -/
def execAcq (sc : Scope) (s : State) : Out :=
  runPass (.acq sc) (extraOf (.acq sc)) (fun p s => modGrp (acquire s p.b p.g sc) p.b p.g (advance p.L)) s

/-- FENCE (R363, R227). An access is performed when it is issued, in group order (log entry 10). -/
def execFence (s : State) : Out := runPass .fence (extraOf .fence) (groupEff (fun _ y => y)) s

/-- The live threads of home group g with their places. -/
def homeThreads (x : Block) (g : Nat) : List (Nat × Nat × Thread) := (liveThreads x).filter (fun c => homeOf x c.1 c.2.1 == g)

/-- R364, R180: home group g meets at an address: every live thread of it stands there, and it waits at no barrier. -/
def homeMeets (x : Block) (pc : Word) (g : Nat) : Bool :=
  let ts := homeThreads x g
  !ts.isEmpty && ts.all (fun c => c.2.2.pc == pc) && (tget? x.bwait g).isNone

/-- The home groups that execute a barrier instruction: the group itself, or while packed those whose threads have met. -/
def homesAt (x : Block) (g : Nat) (pc : Word) : List Nat :=
  (if x.map.isEmpty then [g] else List.range x.groups.length).filter (homeMeets x pc)

/-- Moves the threads of home group g past their instruction. -/
def advanceHome (g : Nat) (x : Block) : Block :=
  { x with groups := lmapIx 0 (fun k (y : Group) =>
      { y with thr := lmapIx 0 (fun t (z : Thread) => if z.live && homeOf x k t == g then { z with pc := z.pc + 4 } else z) y.thr }) x.groups }

/-- R364: home group g arrives and goes on. -/
def baraHome (id : Nat) (pub : Option PubScope) (b g : Nat) (s : State) : State :=
  match s.blk? b with
  | none => s
  | some x => if arrivedOpen x id g then s else modBlk (arrive s b g id pub) b (advanceHome g)

/-- R364: home group g waits for the release of its last arrival; without an unreleased one it completes at once. -/
def barwHome (id : Nat) (pub : Option PubScope) (b g : Nat) (s : State) : State :=
  match s.blk? b with
  | none => s
  | some x =>
    if arrivedOpen x id g then modBlk s b (fun x => { x with bwait := tset x.bwait g { id := id, pub := pub, whole := false } })
    else
      let links := match arrivalOf x id g with | some a => a.links | none => []
      let s := foldS (fun k s =>
        let s := joinLinks s b k pub links
        match pub with | some sc => acquire s b k (pubScope sc) | none => acquireScratch s b k) (hostsOf x g) s
      modBlk s b (advanceHome g)

/-- R364: home group g arrives and waits. -/
def barHome (id : Nat) (pub : Option PubScope) (b g : Nat) (s : State) : State :=
  match s.blk? b with
  | none => s
  | some x =>
    if arrivedOpen x id g then s
    else modBlk (arrive s b g id pub) b (fun x => { x with bwait := tset x.bwait g { id := id, pub := pub, whole := true } })

/-- R364: BARA and BARW for the home groups that have met; then the barrier releases if its count is reached. A packed block unpacks as it
does (R180), and so after the pass (`releaseDue`). -/
def barEff (f : Nat → Nat → State → State) (id : Nat) (p : Pass) (s : State) : State :=
  let s := foldS (fun g s => f p.b g s) (homesAt p.B p.g p.pc) s
  if p.B.map.isEmpty then tryRelease s p.b id else s

/-- BARA (R364). -/
def execBara (pub : Option PubScope) (id : Fin 16) (s : State) : Out :=
  runPass (.bara pub id) (extraOf (.bara pub id)) (barEff (baraHome id.val pub) id.val) s

/-- BARW (R364). -/
def execBarw (pub : Option PubScope) (id : Fin 16) (s : State) : Out :=
  runPass (.barw pub id) (extraOf (.barw pub id)) (barEff (barwHome id.val pub) id.val) s

/-- R114, R180: every thread that a boundary awaits stands at it: those of the group, or of the block while packed; and the
engines of the groups that pass it have finished. -/
def boundaryReady (x : Block) (g : Nat) (pc : Word) : Bool :=
  let ts := if x.map.isEmpty then homeThreads x g else liveThreads x
  let gs := if x.map.isEmpty then [g] else List.range x.groups.length
  !ts.isEmpty && ts.all (fun c => c.2.2.pc == pc) && (tget? x.bwait g).isNone
    && gs.all (fun k => match x.groups[k]? with | some y => engineQuiet y | none => true)

/-- The groups that pass a boundary together: the group, or while packed every home group with a live thread. -/
def boundaryHomes (x : Block) (g : Nat) : List Nat :=
  if x.map.isEmpty then [g] else (List.range x.groups.length).filter (fun k => !(homeThreads x k).isEmpty)

/-- R364: BAR; with publish it is a phase boundary, at which a packed block meets and unpacks (R180). -/
def barWholeEff (id : Nat) (pub : Option PubScope) (p : Pass) (s : State) : State :=
  match pub with
  | none => barEff (barHome id none) id p s
  | some sc =>
    if boundaryReady p.B p.g p.pc then
      tryRelease (foldS (fun g s => barHome id (some sc) p.b g s) (boundaryHomes p.B p.g) (modBlk s p.b unpack)) p.b id
    else s

/-- BAR (R364). -/
def execBar (pub : Option PubScope) (id : Fin 16) (s : State) : Out :=
  runPass (.bar pub id) (extraOf (.bar pub id)) (barWholeEff id.val pub) s

/-- R365, R114, R180. -/
def phaseEff (sc : Scope) (p : Pass) (s : State) : State :=
  if boundaryReady p.B p.g p.pc then
    foldS (fun g s => boundary s p.b g sc) (boundaryHomes p.B p.g) (modBlk s p.b unpack)
  else s

/-- PHASE (R365). -/
def execPhase (sc : Scope) (s : State) : Out := runPass (.phase sc) (extraOf (.phase sc)) (phaseEff sc) s

/-- R229: an outstanding-operation counter. -/
def engCount (y : Group) : EngC → Nat
  | .copy => y.e.copy | .gath => y.e.gath | .coll => y.e.coll | .prom => y.e.prom

/-- R366: performed once the counter has fallen to the threshold; until then the group waits. -/
def waitEff (k : EngC) (n : BitVec 8) (p : Pass) (s : State) : State :=
  if engCount p.G k ≤ n.toNat then modGrp s p.b p.g (advance p.L) else s

/-- WAIT (R366). -/
def execWait (k : EngC) (th : BitVec 8) (s : State) : Out := runPass (.wait k th) (extraOf (.wait k th)) (waitEff k th) s

end Sys2Proof.Machine
end

