-- ==== Sys2Proof/Machine/Engine.lean ====
section
/-! DEFINITION. Starting gathers, copies and collectives (R377 to R379). -/

namespace Sys2Proof.Machine

/-- An engine operation as it is issued. -/
def newOp (i : Instr) (p : Pass) (d : Dst) (desc : List Word) (bad : Bool) (cid : Nat) : EngOp :=
  { i := i, desc := desc, dst := dstReg p.P d, sect := 0, pos := 0, poisoned := false, data := [], part := 0, cid := cid, susp := none,
    bad := bad, fin := none, jat := none }

/-- Adds an operation and marks its register pending (R132, R229). -/
def startOp (o : EngOp) (y : Group) : Group :=
  let y := pend (pendKeys o.dst 1 [0]) y
  { y with e := { y.e with ops := y.e.ops ++ [o] } }

/-- R251: one run of a row that a gather reads, of at most 16 bytes; whether it is journaled (R71). -/
def gathPiece (p : Pass) (s : State) (scr : Bool) (a : Nat) : (List Byte × Bool) × State :=
  if scr then
    match engReadBank s p true .scr a 16 with
    | (.ok l _, s) => ((l, true), s)
    | (_, s) => (([], true), s)
  else match s.ctx? p.B.ctx with
    | none => (([], true), s)
    | some c => match lookDev s c (unwatched p.P) (s.etm p.B.core) .load (a % 2 ^ 64) 16 with
      | .ok h =>
        let r := engLoad (touchMig s h.home false) p.b p.g true .dev h.loc 16
        ((r.1, !h.imm), if h.alt then modGrp r.2 p.b p.g (setSticky .altused) else r.2)
      | _ => (([], true), s)

/-- R222, R224: the index vector is read by plain loads. -/
def readIv (p : Pass) (idx rows : Nat) (s : State) : State :=
  match s.grp? p.b p.g with
  | none => s
  | some y =>
    let l := (List.range (2 * rows)).filter (fun k => granAt s p .scr (idx + k) != .lapsed)
    let got := l.flatMap (fun k => gotAt s y (bankLocOf p .scr (idx + k)) 1 none)
    modGrp s p.b p.g (fun y => { y with c := noteView y.uid got y.c })

/-- R251: the bytes of every row, and those that are journaled. -/
def gathBytes (p : Pass) (g : GathD) (s : State) : (List Byte × List Byte) × State :=
  let iv := gathIv s p g.idx g.rows
  let s := readIv p g.idx g.rows s
  let s := if runLapsed s p ⟨.scr, g.idx, 2 * g.rows⟩ then modGrp s p.b p.g (setSticky .lapsed) else s
  (List.range g.rows).foldl (fun r i =>
    match gathRow g iv i with
    | none => ((r.1.1 ++ List.replicate g.rowb 0, r.1.2), r.2)
    | some a => (List.range (g.rowb / 16)).foldl (fun r k =>
        let z := gathPiece p r.2 g.scr (a + 16 * k)
        ((r.1.1 ++ z.1.1, if z.1.2 then r.1.2 ++ z.1.1 else r.1.2), z.2)) r) (([], iv), s)

/-- R71, R74: what a gather reads from immutable pages. -/
def gathImm (p : Pass) (g : GathD) (s : State) : List (Nat × List Byte) :=
  let iv := gathIv s p g.idx g.rows
  if g.scr then []
  else (List.range g.rows).flatMap (fun i => match gathRow g iv i, s.ctx? p.B.ctx with
    | some a, some c => (List.range (g.rowb / 16)).filterMap (fun k =>
        match lookDev s c (unwatched p.P) (s.etm p.B.core) .load ((a + 16 * k) % 2 ^ 64) 16 with
        | .ok h => if h.imm then some ((a + 16 * k) % 2 ^ 64, mgetN s.mem h.loc 16) else none
        | _ => none)
    | _, _ => [])

/-- R229: a gather goes before the younger gathers of its group. -/
def insertGath (o : EngOp) : List EngOp → List EngOp
  | [] => [o]
  | z :: r => if isGath z && o.cid < z.cid then o :: z :: r else z :: insertGath o r

/-- R71: the journal entries of a gather: what it read, and its token's. -/
def gathJournal (s : State) (p : Pass) (o : EngOp) (l : List Byte) : Option Nat → Option Nat × State
  | none => reserveToken (journal s p.b p.g p.mask [l]) p.b p.g o.dst p.mask
  | some at0 =>
    let e := padTo8 (leBytes 4 p.mask.toNat) ++ padTo8 l
    let k := if o.dst.isSome then padTo8 (leBytes 4 p.mask.toNat) ++ List.replicate 8 0 else []
    (if o.dst.isSome then some (at0 + e.length + 8) else none, insertEntries s p.b p.g at0 (e ++ k))

/-- R251: a gather whose reads can all be performed commits: they are read, and its writes are left to the engine. -/
def gathCommit (i : Instr) (p : Pass) (o : EngOp) (at0 : Option Nat) (s : State) : State :=
  let r := gathBytes p (gathD o.desc) (if journaling p.P then keepImm s p.b p.g (gathImm p (gathD o.desc) s) else s)
  let z := gathJournal r.2 p o r.1.2 at0
  modGrp z.2 p.b p.g (fun y => { y with e := { y.e with ops := insertGath { o with i := i, data := r.1.1, jat := z.1 } y.e.ops } })

/-- R251, R153, R229: GATH on its path. A read of a not-present page logs it; at counter 255 it waits. Its place in issue
order is kept: `cid` of the operation, `cmp` of a logged gather. -/
def gathEff (d : Dst) (a : Src) (p : Pass) (s : State) : State :=
  let i := Instr.gath d a
  let desc := descWords p a 5
  if p.G.e.gath = 255 then s
  else
    let count (y : Group) : Group := { y with e := { y.e with gath := y.e.gath + 1 } }
    match gathLook p s (gathD desc) with
    | .wait => s
    | .notPresent page =>
      let x : LogThr := { g := homeOf p.B p.g p.low, t := p.low, addr := page, data := desc, cmp := natWords 2 s.stamp,
                           jat := if journaling p.G then some (p.G.a.journal.length, p.G.a.journal.length) else none }
      modGrp (logAccess { s with stamp := s.stamp + 1 } p.b p.g i p.pc 3 page (dstReg p.P d) 1 [p.low] x) p.b p.g (fun y => advance p.L (count y))
    | _ =>
      let o := newOp i p d desc false s.stamp
      modGrp (gathCommit i p o none { s with stamp := s.stamp + 1 }) p.b p.g (fun y => advance p.L (pend (pendKeys o.dst 1 [0]) (count y)))

/-- GATH (R251, R377). -/
def execGath (d : Dst) (a : Src) (s : State) : Out :=
  runPass (.gath d a) (extraOf (.gath d a)) (gathEff d a) (findSel (.gath d a) s)

/-- R246, R247, R377: a copy is issued with its descriptor; a bank that drains is waited for, and counter 255 (R229). -/
def copyEff (i : Instr) (t : Bool) (d : Dst) (a : Src) (p : Pass) (s : State) : State :=
  let desc := descWords p a (if t then 8 else 6)
  let c := copyD t desc
  if p.G.e.copy = 255 || copyLook p s c == .wait then s
  else
    let z := reserveToken (digest s p.b p.g (digestEntry 0 0xFFFF 3 (wordsBytes desc))) p.b p.g (dstReg p.P d) p.mask
    modGrp z.2 p.b p.g (fun y =>
      let y := startOp { newOp i p d desc (copyBad p.B c) 0 with jat := z.1 } y
      advance p.L { y with e := { y.e with copy := y.e.copy + 1 } })

/-- CPY (R248, R377). -/
def execCpy (d : Dst) (a : Src) (s : State) : Out :=
  runPass (.cpy d a) (extraOf (.cpy d a)) (copyEff (.cpy d a) false d a) s

/-- CPYT (R250, R377). -/
def execCpyt (d : Dst) (a : Src) (s : State) : Out :=
  runPass (.cpyt d a) (extraOf (.cpyt d a)) (copyEff (.cpyt d a) true d a) s

/-- R57, R378: the collective that a descriptor names, and whether the descriptor is invalid. -/
def collOf (s : State) (p : Pass) (m : CollM) (l : List Word) : Coll :=
  let w := dw l 5
  let comm := w / 2 ^ 24
  let src := BitVec.ofNat 64 (dw l 0 + 2 ^ 32 * dw l 1)
  let dst := BitVec.ofNat 64 (dw l 2 + 2 ^ 32 * dw l 3)
  let n := dw l 4
  let root := bitsN w 16 6
  let red := bitsN w 4 2
  let size := match tget? s.comms comm with | some k => k.ids.length | none => 0
  let reduces := m == .ar || m == .rs
  { comm := comm, seq := (match tget? s.comms comm with | some k => k.seq | none => 0), blk := p.b, grp := p.g, uid := p.G.uid,
    op := m, root := root, red := red, fmt := bitsN w 0 2, n := n, src := src, dst := dst,
    bad := size == 0 || bitsN w 22 2 != 0 || bitsN w 6 10 != 0 || bitsN w 2 2 != 0 || n == 0 || 2 ^ 26 < n
      || src.toNat % 16 != 0 || dst.toNat % 16 != 0 || !canonical src || !canonical dst
      || (if m == .bc then size ≤ root else root != 0) || (if reduces then red == 3 else red != 0)
      || (m == .rs && n % size != 0)
    susp := none, since := s.now, told := false, fin := none }

/-- R368: every live thread of the group stands at the instruction. -/
def groupMet (p : Pass) : Bool := p.G.liveList.all (fun t => p.G.pcOf t == p.pc)

/-- R378, R379, R57: COLL starts a collective once every live thread of the group has met (R368); at counter 255 it waits.
It moves the region entry, and the phase becomes unassayable (R72). -/
def collEff (d : Dst) (a : Src) (m : CollM) (p : Pass) (s : State) : State :=
  if !groupMet p then s
  else if p.G.e.coll = 255 then s
  else
    let desc := descWords p a 6
    let c := collOf s p m desc
    let cid := s.nextColl
    let s := { s with
      colls := tset s.colls cid c
      nextColl := cid + 1
      comms := (match tget? s.comms c.comm with | some k => tset s.comms c.comm { k with seq := k.seq + 1 } | none => s.comms) }
    let live := p.G.liveList
    let s := moveRegion (unassayable s p.b p.g) p.b p.g live
    modGrp s p.b p.g (fun y =>
      let y := startOp (newOp (.coll d a m) p d desc false cid) y
      advance live { y with e := { y.e with coll := y.e.coll + 1 } })

/-- COLL (R378). -/
def execColl (d : Dst) (a : Src) (m : CollM) (s : State) : Out :=
  runPass (.coll d a m) (extraOf (.coll d a m)) (collEff d a m) s

end Sys2Proof.Machine
end

