-- ==== Sys2Proof/Machine/Integer.lean ====
section
/-! DEFINITION. Integer arithmetic: block 0x1_ (R310 to R312). -/

namespace Sys2Proof.Machine

/-- A source read in an integer format. -/
def rdI (p : Pass) (t : Nat) (c : Word) (I : IFmt) (x : Src) : Int := I.read (srcNat p t x (I.w / 32) c)

/-- The old D read in an integer format. -/
def rdD (p : Pass) (t : Nat) (I : IFmt) (d : Dst) : Int := I.read (dstNat p t d (I.w / 32))

/-- An exact result modulo 2^w, w bits wide. -/
def resI (w : Nat) (e : Int) : Res := resN (w / 32) (e % 2 ^ w).toNat

/-- The formats of M. -/
def ariFmt : Ari → IFmt | .i32 => ⟨true, 32⟩ | .i32sat => ⟨true, 32⟩ | .n32sat => ⟨false, 32⟩ | .i64 => ⟨true, 64⟩
def ariSat : Ari → Bool | .i32sat => true | .n32sat => true | _ => false
def int4Fmt : Int4 → IFmt | .i32 => ⟨true, 32⟩ | .n32 => ⟨false, 32⟩ | .i64 => ⟨true, 64⟩ | .n64 => ⟨false, 64⟩
def un3Fmt : Un3 → IFmt | .i32 => ⟨true, 32⟩ | .i32sat => ⟨true, 32⟩ | .i64 => ⟨true, 64⟩
def sgnFmt : Sgn32 → IFmt | .i32 => ⟨true, 32⟩ | .n32 => ⟨false, 32⟩

/-- R311: the one reduction of an exact result. -/
def reduce (I : IFmt) (sat : Bool) (e : Int) : Res := resI I.w (if sat then I.clamp e else e)

def boolWord (b : Bool) : Word := if b then 1 else 0

/-- R310 ADD, SUB, MUL: a two-source operation reduced under R311. -/
def ari2 (m : Ari) (a b : Src) (f : Int → Int → Int) (p : Pass) (t : Nat) (c : Word) : Res :=
  reduce (ariFmt m) (ariSat m) (f (rdI p t c (ariFmt m) a) (rdI p t c (ariFmt m) b))

/-- ADD (R310). -/
def execAdd (n : Bool) (d : Dst) (a b : Src) (m : Ari) (s : State) : Out :=
  runAlu (.add n d a b m) d (ari2 m a b (· + ·)) s

/-- SUB (R310). -/
def execSub (n : Bool) (d : Dst) (a b : Src) (m : Ari) (s : State) : Out :=
  runAlu (.sub n d a b m) d (ari2 m a b (· - ·)) s

/-- MUL (R310). -/
def execMul (n : Bool) (d : Dst) (a b : Src) (m : Ari) (s : State) : Out :=
  runAlu (.mul n d a b m) d (ari2 m a b (· * ·)) s

/-- MAD (R310): one reduction. -/
def execMad (n : Bool) (d : Dst) (a b : Src) (m : Ari) (s : State) : Out :=
  runAlu (.mad n d a b m) d (fun p t c =>
    reduce (ariFmt m) (ariSat m) (rdD p t (ariFmt m) d + rdI p t c (ariFmt m) a * rdI p t c (ariFmt m) b)) s

/-- R234: quotient, remainder and DIVZ in the format of M. -/
def divide (I : IFmt) (x y : Int) : Int × Int × Bool :=
  if I.signed then divSigned I.w x y
  else let q := divUnsigned I.w x.toNat y.toNat; ((q.1 : Int), (q.2.1 : Int), q.2.2)

/-- DIV (R312). -/
def execDiv (n : Bool) (d : Dst) (a b : Src) (m : Int4) (s : State) : Out :=
  runAlu (.div n d a b m) d (fun p t c =>
    let q := divide (int4Fmt m) (rdI p t c (int4Fmt m) a) (rdI p t c (int4Fmt m) b)
    { resI (int4Fmt m).w q.1 with divz := q.2.2 }) s

/-- REM (R312). -/
def execRem (n : Bool) (d : Dst) (a b : Src) (m : Int4) (s : State) : Out :=
  runAlu (.rem n d a b m) d (fun p t c =>
    let q := divide (int4Fmt m) (rdI p t c (int4Fmt m) a) (rdI p t c (int4Fmt m) b)
    { resI (int4Fmt m).w q.2.1 with divz := q.2.2 }) s

/-- MIN (R310). -/
def execMin (n : Bool) (d : Dst) (a b : Src) (m : Int4) (s : State) : Out :=
  runAlu (.min n d a b m) d (fun p t c =>
    resI (int4Fmt m).w (Min.min (rdI p t c (int4Fmt m) a) (rdI p t c (int4Fmt m) b))) s

/-- MAX (R310). -/
def execMax (n : Bool) (d : Dst) (a b : Src) (m : Int4) (s : State) : Out :=
  runAlu (.max n d a b m) d (fun p t c =>
    resI (int4Fmt m).w (Max.max (rdI p t c (int4Fmt m) a) (rdI p t c (int4Fmt m) b))) s

def un3Sat : Un3 → Bool | .i32sat => true | _ => false

/-- ABS (R310, R311). -/
def execAbs (n : Bool) (d : Dst) (a : Src) (m : Un3) (s : State) : Out :=
  runAlu (.abs n d a m) d (fun p t c => reduce (un3Fmt m) (un3Sat m) (rdI p t c (un3Fmt m) a).natAbs) s

/-- NEG (R310, R311). -/
def execNeg (n : Bool) (d : Dst) (a : Src) (m : Un3) (s : State) : Out :=
  runAlu (.neg n d a m) d (fun p t c => reduce (un3Fmt m) (un3Sat m) (-(rdI p t c (un3Fmt m) a))) s

/-- R310: the relation of CMP on two words. -/
def cmpRel : CmpM → Word → Word → Bool
  | .lt, x, y => x.slt y | .le, x, y => x.sle y | .ltn, x, y => x.ult y | .len, x, y => x.ule y

/-- CMP (R310). -/
def execCmp (n : Bool) (d : Dst) (a b : Src) (m : CmpM) (s : State) : Out :=
  runAlu (.cmp n d a b m) d (fun p t c => res1 (boolWord (cmpRel m (srcWord p t a 0 c) (srcWord p t b 0 c)))) s

/-- CMPE (R310). -/
def execCmpe (n : Bool) (d : Dst) (a b : Src) (m : CmpeM) (s : State) : Out :=
  runAlu (.cmpe n d a b m) d (fun p t c =>
    let eq := srcNat p t a (CmpeM.words m) c == srcNat p t b (CmpeM.words m) c
    res1 (boolWord (match m with | .eq => eq | .eq64 => eq | .ne => !eq | .ne64 => !eq))) s

/-- SEL (R310): the named register of D decides. -/
def execSel (n : Bool) (d : Dst) (a b : Src) (m : W2) (s : State) : Out :=
  runAlu (.sel n d a b m) d (fun p t c =>
    resN (W2.words m) (srcNat p t (if dstWord p t d 0 != 0 then a else b) (W2.words m) c)) s

def scaleOf : Scale → Nat | .x1 => 1 | .x4 => 4 | .x8 => 8 | .x16 => 16

/-- LEA (R310). -/
def execLea (n : Bool) (d : Dst) (a b : Src) (m : Scale) (s : State) : Out :=
  runAlu (.lea n d a b m) d (fun p t c =>
    resN 2 (src64 p t a + sext64 (srcWord p t b 0 c) * BitVec.ofNat 64 (scaleOf m)).toNat) s

/-- R310 MULW. -/
def mulwRes (m : MulwM) (x y : Word) : Res :=
  match m with
  | .i64 => resI 64 (x.toInt * y.toInt)
  | .n64 => resN 2 (x.toNat * y.toNat)
  | .hiI => res1 (BitVec.ofInt 32 (x.toInt * y.toInt / 2 ^ 32))
  | .hiN => res1 (BitVec.ofNat 32 (x.toNat * y.toNat / 2 ^ 32))

/-- MULW (R310). -/
def execMulw (n : Bool) (d : Dst) (a b : Src) (m : MulwM) (s : State) : Out :=
  runAlu (.mulw n d a b m) d (fun p t c => mulwRes m (srcWord p t a 0 c) (srcWord p t b 0 c)) s

/-- CLAMP (R310). -/
def execClamp (n : Bool) (d : Dst) (a b : Src) (m : Sgn32) (s : State) : Out :=
  runAlu (.clamp n d a b m) d (fun p t c =>
    resI 32 (Min.min (Max.max (rdD p t (sgnFmt m) d) (rdI p t c (sgnFmt m) a)) (rdI p t c (sgnFmt m) b))) s

end Sys2Proof.Machine
end

