-- ==== Sys2Proof/Machine/Through.lean ====
section
/-! DEFINITION. Through-time, quad and spatial instructions: block 0x4_ (R338 to R349). -/

namespace Sys2Proof.Machine

/-- A of each active thread of the path, in ascending thread index (R340). -/
def pathVals (p : Pass) (a : Src) : List Word := p.L.map (fun t => srcWord p t a 0 0)

/-- One result for every active thread. -/
def toAll (p : Pass) (w : Word) : List (Nat × Word) := p.L.map (fun t => (t, w))

/-- SEEDC (R341). -/
def execSeedc (a : Src) (s : State) : Out :=
  runPass (.seedc a) noExtra (groupEff (fun p y => { y with r := { y.r with seed := srcWord p p.low a 0 0 } })) s

/-- R172, R341: the tails that RDTAIL may read. -/
def tails (p : Pass) : List Word := if p.P.r.tailOpen then [p.P.r.tail, 0] else [p.P.r.tail]

/-- RDTAIL (R341): after a phase boundary the old tail or zero, unspecified (log entry 7). -/
def execRdtail (n : Bool) (d : Dst) (s : State) : Out :=
  runPass (.rdtail n d) noExtra (fun p s =>
    let k := chooseFrom s 0 (tails p)
    aluEff (.rdtail n d) d (fun _ _ _ => res1 k.1) p k.2) s

/-- R342: a fold in thread order from the first value. -/
def foldPath (f : Word → Word → Word) : List Word → Word
  | [] => 0
  | x :: r => r.foldl f x

def redOp : RedM → Word → Word → Word
  | .add, x, y => x + y
  | .mini, x, y => if y.slt x then y else x
  | .maxi, x, y => if x.slt y then y else x
  | .or, x, y => x ||| y

/-- FP32 operations on words. -/
def f32op (f : Nat → Nat → Nat) (x y : Word) : Word := BitVec.ofNat 32 (f x.toNat y.toNat)
def f32add (x y : Word) : Word := f32op (fadd fp32 .rn) x y
def f32min (x y : Word) : Word := f32op (fminmax fp32 false) x y
def f32max (x y : Word) : Word := f32op (fminmax fp32 true) x y
/-- R237. -/
def canon32 (x : Word) : Word := if isNanF fp32 x.toNat then BitVec.ofNat 32 fp32.nan else x

def redfOp : RedfM → Word → Word → Word
  | .add => f32add | .min => f32min | .max => f32max

/-- RED (R342). -/
def execRed (n : Bool) (d : Dst) (a : Src) (m : RedM) (s : State) : Out :=
  runWhole (.red n d a m) d (fun p => toAll p (foldPath (redOp m) (pathVals p a))) s

/-- REDF (R342). -/
def execRedf (n : Bool) (d : Dst) (a : Src) (m : RedfM) (s : State) : Out :=
  runWhole (.redf n d a m) d (fun p => toAll p (canon32 (foldPath (redfOp m) (pathVals p a)))) s

/-- R344: the value a vacated rank takes. -/
def fillOf (p : Pass) : FillM → Word | .z => 0 | .seed => p.P.r.seed

/-- R344: the values of each rank after a shift by `k` ranks. -/
def shiftRanks (fwd : Bool) (k : Nat) (fill : Word) (vs : List Word) : List Word :=
  (List.range vs.length).map (fun i =>
    if fwd then vs.getD (i + k) fill else if k ≤ i then vs.getD (i - k) fill else fill)

/-- TSHB (R344). -/
def execTshb (n : Bool) (d : Dst) (a b : Src) (m : FillM) (s : State) : Out :=
  runWhole (.tshb n d a b m) d (fun p =>
    p.L.zip (shiftRanks false (srcWord p p.low b 0 0).toNat (fillOf p m) (pathVals p a))) s

/-- TSHF (R344). -/
def execTshf (n : Bool) (d : Dst) (a b : Src) (m : FillM) (s : State) : Out :=
  runWhole (.tshf n d a b m) d (fun p =>
    p.L.zip (shiftRanks true (srcWord p p.low b 0 0).toNat (fillOf p m) (pathVals p a))) s

/-- TBCST (R345). -/
def execTbcst (n : Bool) (d : Dst) (a b : Src) (s : State) : Out :=
  runWhole (.tbcst n d a b) d (fun p =>
    let t := (srcWord p p.low b 0 0).toNat
    toAll p (if p.L.contains t then srcWord p t a 0 0 else 0)) s

/-- R343. -/
def pollVal (p : Pass) (a : Src) : PollM → Word
  | .each => boolWord ((pathVals p a).all (· != 0))
  | .some => boolWord ((pathVals p a).any (· != 0))
  | .bits => listMask (p.L.filter (fun t => srcWord p t a 0 0 != 0))
  | .same => boolWord ((pathVals p a).all (· == srcWord p p.low a 0 0))

/-- POLL (R343). -/
def execPoll (n : Bool) (d : Dst) (a : Src) (m : PollM) (s : State) : Out :=
  runWhole (.poll n d a m) d (fun p => toAll p (pollVal p a m)) s

/-- R347: the thread whose A a thread receives. -/
def swapOf (m : QswpM) (t : Nat) : Nat :=
  match m with | .x => t ^^^ 1 | .y => t ^^^ 2 | .d => t ^^^ 3 | .b0 => t / 4 * 4

/-- QSWP (R347): inactive threads of the quad are helpers and supply their own A; an empty latch supplies zero (R169). -/
def execQswp (n : Bool) (d : Dst) (a : Src) (m : QswpM) (s : State) : Out :=
  runWhole (.qswp n d a m) d (fun p => p.L.map (fun t => (t, srcWord p (swapOf m t) a 0 0))) s

/-- R347: the reduction of a quad's four values. -/
def qredVal (m : QredM) (vs : List Word) : Word :=
  match m with
  | .fadd => canon32 (foldPath f32add vs)
  | .fmin => foldPath f32min vs
  | .fmax => foldPath f32max vs
  | .add => foldPath (· + ·) vs

/-- QRED (R347). -/
def execQred (n : Bool) (d : Dst) (a : Src) (m : QredM) (s : State) : Out :=
  runWhole (.qred n d a m) d (fun p => p.L.map (fun t =>
    (t, qredVal m ((List.range 4).map (fun k => srcWord p (t / 4 * 4 + k) a 0 0))))) s

/-- HELP (R348). -/
def execHelp (n : Bool) (d : Dst) (s : State) : Out :=
  runWhole (.help n d) d (fun p => p.L.map (fun t =>
    (t, listMask ((List.range 4).filter (fun k => !p.L.contains (t / 4 * 4 + k)))))) s

/-- R349. -/
def cellHash (x y z : Word) : Word :=
  let h := (x * 0x9E3779B1) ^^^ (y * 0x85EBCA77) ^^^ (z * 0xC2B2AE3D)
  h ^^^ (h >>> 15)

def cellKey (m : DimM) (a b : Word) : Word :=
  match m with
  | .d2 => cellHash a b 0
  | .d3 => cellHash a (sext32 (b.setWidth 16)) (sext32 ((b >>> 16).setWidth 16))

/-- CELLH (R349). -/
def execCellh (n : Bool) (d : Dst) (a b : Src) (m : DimM) (s : State) : Out :=
  runAlu (.cellh n d a b m) d (fun p t c => res1 (cellKey m (srcWord p t a 0 c) (srcWord p t b 0 c))) s

/-- TMASK (R341). -/
def execTmask (n : Bool) (d : Dst) (m : TmaskM) (s : State) : Out :=
  runAlu (.tmask n d m) d (fun p _ _ => res1 (match m with | .act => p.mask | .live => listMask p.P.liveList)) s

/-- TPOS (R346). -/
def execTpos (n : Bool) (d : Dst) (a : Src) (m : TposM) (s : State) : Out :=
  runWhole (.tpos n d a m) d (fun p => p.L.map (fun t =>
    (t, BitVec.ofNat 32 (p.L.filter (fun u =>
      (match m with | .ex => decide (u < t) | .inc => decide (u ≤ t)) && srcWord p u a 0 0 != 0)).length))) s

end Sys2Proof.Machine
end

