-- ==== Sys2Proof/Machine/FloatOps.lean ====
section
/-! DEFINITION. Floating-point arithmetic: block 0x5_ and the FP64 instructions of block 0x6_ (R319 to R328, R331). -/

namespace Sys2Proof.Machine

/-- R322: an FP32 operation on A and B. -/
def f32w (a b : Src) (f : Nat → Nat → Nat) (p : Pass) (t : Nat) (c : Word) : Res :=
  res1 (f32op f (srcWord p t a 0 c) (srcWord p t b 0 c))

/-- R331: an FP64 operation on A and B. -/
def f64w (a b : Src) (f : Nat → Nat → Nat) (p : Pass) (t : Nat) : Res := resN 2 (f (src64 p t a).toNat (src64 p t b).toNat)

/-- FADD (R322). -/
def execFadd (n : Bool) (d : Dst) (a b : Src) (m : Rnd) (s : State) : Out := runAlu (.fadd n d a b m) d (f32w a b (fadd fp32 m)) s

/-- FSUB (R322). -/
def execFsub (n : Bool) (d : Dst) (a b : Src) (m : Rnd) (s : State) : Out := runAlu (.fsub n d a b m) d (f32w a b (fsub fp32 m)) s

/-- FMUL (R322). -/
def execFmul (n : Bool) (d : Dst) (a b : Src) (m : Rnd) (s : State) : Out := runAlu (.fmul n d a b m) d (f32w a b (fmul fp32 m)) s

/-- FFMA (R322). -/
def execFfma (n : Bool) (d : Dst) (a b : Src) (m : Rnd) (s : State) : Out :=
  runAlu (.ffma n d a b m) d (fun p t c => f32w a b (fun x y => ffma fp32 m x y (dstWord p t d 0).toNat) p t c) s

/-- FMIN (R324). -/
def execFmin (n : Bool) (d : Dst) (a b : Src) (s : State) : Out := runAlu (.fmin n d a b) d (f32w a b (fminmax fp32 false)) s

/-- FMAX (R324). -/
def execFmax (n : Bool) (d : Dst) (a b : Src) (s : State) : Out := runAlu (.fmax n d a b) d (f32w a b (fminmax fp32 true)) s

/-- FCMP (R325). -/
def execFcmp (n : Bool) (d : Dst) (a b : Src) (m : Fcc) (s : State) : Out :=
  runAlu (.fcmp n d a b m) d (fun p t c => res1 (boolWord (fcmp fp32 m (srcWord p t a 0 c).toNat (srcWord p t b 0 c).toNat))) s

/-- R326. -/
def fsgnVal : FsgnM → Word → Word → Word
  | .copy, a, b => (a &&& 0x7FFFFFFF) ||| (b &&& 0x80000000)
  | .xor, a, b => a ^^^ (b &&& 0x80000000)

/-- FSGN (R326). -/
def execFsgn (n : Bool) (d : Dst) (a b : Src) (m : FsgnM) (s : State) : Out :=
  runAlu (.fsgn n d a b m) d (fun p t c => res1 (fsgnVal m (srcWord p t a 0 c) (srcWord p t b 0 c))) s

/-- R328: the format and the mode that M selects. -/
def pkFmt : PkM → Fmt | .f16rn => fp16 | .f16rz => fp16 | .bf16rn => bf16 | .bf16rz => bf16
def pkRnd : PkM → Rnd | .f16rn => .rn | .bf16rn => .rn | .f16rz => .rz | .bf16rz => .rz

/-- R328: two halves, each on its own. -/
def halves (a b : Src) (d : Dst) (f : Nat → Nat → Nat → Nat) (p : Pass) (t : Nat) (c : Word) : Res :=
  resN 1 (packed2 f (srcWord p t a 0 c).toNat (srcWord p t b 0 c).toNat (dstWord p t d 0).toNat)

/-- PKADD (R328). -/
def execPkadd (n : Bool) (d : Dst) (a b : Src) (m : PkM) (s : State) : Out :=
  runAlu (.pkadd n d a b m) d (halves a b d (fun x y _ => fadd (pkFmt m) (pkRnd m) x y)) s

/-- PKMUL (R328). -/
def execPkmul (n : Bool) (d : Dst) (a b : Src) (m : PkM) (s : State) : Out :=
  runAlu (.pkmul n d a b m) d (halves a b d (fun x y _ => fmul (pkFmt m) (pkRnd m) x y)) s

/-- PKFMA (R328). -/
def execPkfma (n : Bool) (d : Dst) (a b : Src) (m : PkM) (s : State) : Out :=
  runAlu (.pkfma n d a b m) d (halves a b d (ffma (pkFmt m) (pkRnd m))) s

/-- FDIV (R322). -/
def execFdiv (n : Bool) (d : Dst) (a b : Src) (m : Rnd) (s : State) : Out := runAlu (.fdiv n d a b m) d (f32w a b (fdiv fp32 m)) s

/-- FSQRT (R322). -/
def execFsqrt (n : Bool) (d : Dst) (a : Src) (m : Rnd) (s : State) : Out := runAlu (.fsqrt n d a m) d (f32w a .z (fun x _ => fsqrt fp32 m x)) s

/-- FRND (R322). -/
def execFrnd (n : Bool) (d : Dst) (a : Src) (m : Rnd) (s : State) : Out := runAlu (.frnd n d a m) d (f32w a .z (fun x _ => frnd fp32 m x)) s

/-- FCLASS (R327). -/
def execFclass (n : Bool) (d : Dst) (a : Src) (s : State) : Out := runAlu (.fclass n d a) d (f32w a .z (fun x _ => 2 ^ fclass fp32 x)) s

/-- FSCL (R322): B is an i32. -/
def execFscl (n : Bool) (d : Dst) (a b : Src) (m : Rnd) (s : State) : Out :=
  runAlu (.fscl n d a b m) d (fun p t c => resN 1 (fscl fp32 m (srcWord p t a 0 c).toNat (srcWord p t b 0 c).toInt)) s

/-- DADD (R331). -/
def execDadd (n : Bool) (d : Dst) (a b : Src) (m : Rnd) (s : State) : Out := runAlu (.dadd n d a b m) d (fun p t _ => f64w a b (fadd fp64 m) p t) s

/-- DSUB (R331). -/
def execDsub (n : Bool) (d : Dst) (a b : Src) (m : Rnd) (s : State) : Out := runAlu (.dsub n d a b m) d (fun p t _ => f64w a b (fsub fp64 m) p t) s

/-- DMUL (R331). -/
def execDmul (n : Bool) (d : Dst) (a b : Src) (m : Rnd) (s : State) : Out := runAlu (.dmul n d a b m) d (fun p t _ => f64w a b (fmul fp64 m) p t) s

/-- DFMA (R331). -/
def execDfma (n : Bool) (d : Dst) (a b : Src) (m : Rnd) (s : State) : Out :=
  runAlu (.dfma n d a b m) d (fun p t _ => f64w a b (fun x y => ffma fp64 m x y (dstNat p t d 2)) p t) s

/-- DDIV (R331). -/
def execDdiv (n : Bool) (d : Dst) (a b : Src) (m : Rnd) (s : State) : Out := runAlu (.ddiv n d a b m) d (fun p t _ => f64w a b (fdiv fp64 m) p t) s

/-- DSQRT (R331). -/
def execDsqrt (n : Bool) (d : Dst) (a : Src) (m : Rnd) (s : State) : Out :=
  runAlu (.dsqrt n d a m) d (fun p t _ => f64w a .z (fun x _ => fsqrt fp64 m x) p t) s

/-- DMIN (R331, R324). -/
def execDmin (n : Bool) (d : Dst) (a b : Src) (m : MinMax) (s : State) : Out :=
  runAlu (.dmin n d a b m) d (fun p t _ => f64w a b (fminmax fp64 (m == .max)) p t) s

/-- DCMP (R331, R325). -/
def execDcmp (n : Bool) (d : Dst) (a b : Src) (m : Fcc) (s : State) : Out :=
  runAlu (.dcmp n d a b m) d (fun p t _ => res1 (boolWord (fcmp fp64 m (src64 p t a).toNat (src64 p t b).toNat))) s

end Sys2Proof.Machine
end

