-- ==== Sys2Proof/Machine/Collect.lean ====
section
/-! DEFINITION. The collective engine at this participant (R54 to R60, R378, R379): results, completion and aborts. -/

namespace Sys2Proof.Machine

/-! Flits. -/

/-- R45: fields of a flit. -/
def flitType (f : List Byte) : Nat := fieldN f 0 1
def flitHops (f : List Byte) : Nat := fieldN f 1 1 % 16
def flitSeq (f : List Byte) : BitVec 16 := BitVec.ofNat 16 (fieldN f 2 2)
def flitAck (f : List Byte) : BitVec 16 := BitVec.ofNat 16 (fieldN f 4 2)
def flitDst (f : List Byte) : Nat := fieldN f 8 2 % 4096
def flitComm (f : List Byte) : Nat := fieldN f 15 1

/-- R46: the virtual channel of a sequenced type. -/
def flitVc (t : Nat) : Option Nat := match t with | 1 => some 0 | 2 => some 0 | 3 => some 1 | 4 => some 2 | 5 => some 2 | 6 => some 3 | _ => none

/-- R52, R53: the port a destination is routed to. -/
def routeOf (s : State) (dst : Nat) : Nat := bitsN (tget s.sh.rtab (dst / 8) 0xFFFFFFFF).toNat (4 * (dst % 8)) 4

/-- R51: since when a flit of each virtual channel waits without a credit. -/
def noteStarve (now : Nat) (l : Link) : Link :=
  { l with starve := [0, 1, 2, 3].foldl (fun t vc =>
      if l.sendq.any (fun f => flitVc (flitType f.2) == some vc) && tget l.credits vc 0 == 0 then
        (if (tget? t vc).isSome then t else tset t vc now)
      else tdel t vc) l.starve }

/-- A flit joins the send queue of a port. -/
def enqueue (s : State) (q : Nat) (f : Option Nat × List Byte) : State :=
  modLink s q (fun l => noteStarve s.now { l with sendq := l.sendq ++ [f] })

/-- R52, R45: a flit of this device itself, with HOPS 15, goes to the port its destination is routed to; false if that is unreachable. -/
def originate (s : State) (type dst tag : Nat) (payload : List Byte) : Bool × State :=
  let q := routeOf s dst
  if 12 ≤ q || !(s.link q).up then (false, s)
  else
    let f := [BitVec.ofNat 8 type, 15, 0, 0, 0, 0, 0, BitVec.ofNat 8 payload.length] ++ leBytes 2 dst ++ leBytes 2 s.sh.devid.toNat ++
      leBytes 4 tag ++ payload
    (true, enqueue s q (none, f ++ List.replicate (248 - f.length) 0))

/-! Results. -/

/-- R378: bytes of an element and its format. -/
def collSize (fmt : Nat) : Nat := match fmt with | 0 => 4 | 1 => 2 | _ => 1
def collFmt (fmt : Nat) : Fmt := match fmt with | 0 => fp32 | 1 => bf16 | 2 => e4m3 | _ => e5m2

/-- R54: participants of a collective, in rank order, and this device's rank. -/
def collIds (s : State) (c : Coll) : List Nat := match tget? s.comms c.comm with | some k => k.ids | none => []
def collRank (s : State) (c : Coll) : Nat := ((collIds s c).findIdx? (· == s.sh.devid.toNat)).getD 0

/-- R56: an element as FP32, and back to the format; E4M3 saturates. -/
def collTo32 (f x : Nat) : Nat := if f = 0 then x else convF fp32 false .rn false (unpackF (collFmt f) x)
def collFrom32 (f a : Nat) : Nat := if f = 0 then a else convF (collFmt f) (decide (2 ≤ f)) .rn (f == 2) (unpackF fp32 a)

/-- R56: one step of the reduction. -/
def collOp (red a x : Nat) : Nat := match red with | 0 => fadd fp32 .rn a x | 1 => fminmax fp32 true a x | _ => fminmax fp32 false a x

/-- A run of bytes with the poison of each, as elements. -/
def elemsOf (size : Nat) (l : List (Byte × Bool)) : Nat → List (Nat × Bool)
  | 0 => []
  | n + 1 => (leNat ((l.take size).map (·.1)), (l.take size).any (·.2)) :: elemsOf size (l.drop size) n

/-- R56: the reduction of one element over the contributions, in ascending rank. -/
def reduceElem (c : Coll) (xs : List (Nat × Bool)) : Nat × Bool :=
  match xs with
  | [] => (0, false)
  | x :: r => (collFrom32 c.fmt (r.foldl (fun a y => collOp c.red a (collTo32 c.fmt y.1)) (collTo32 c.fmt x.1)), (x :: r).any (·.2))

/-- Element e of every contribution. -/
def column (xs : List (List (Nat × Bool))) (e : Nat) : List (Nat × Bool) := xs.map (fun l => l.getD e (0, false))

/-- R55: the result at rank i, as bytes with their poison. -/
def collResult (c : Coll) (ranks i : Nat) (xs : List (List (Byte × Bool))) : List (Byte × Bool) :=
  let size := collSize c.fmt
  let reduce (lo n : Nat) : List (Byte × Bool) :=
    let es := xs.map (fun l => elemsOf size l c.n)
    (List.range n).flatMap (fun k => let r := reduceElem c (column es (lo + k)); (leBytes size r.1).map (fun b => (b, r.2)))
  match c.op with
  | .ar => reduce 0 c.n
  | .rs => reduce (c.n / ranks * i) (c.n / ranks)
  | .ag => xs.flatten
  | .bc => xs.getD c.root []

/-- R55: bytes of the result. -/
def collBytes (c : Coll) (ranks : Nat) : Nat :=
  collSize c.fmt * (match c.op with | .rs => c.n / ranks | .ag => ranks * c.n | _ => c.n)

/-- The sectors of a run of bytes from an aligned address. -/
def collPieces (a : Nat) (l : List (Byte × Bool)) : Nat → List (Nat × List (Byte × Bool))
  | 0 => []
  | n + 1 => (a, l.take 16) :: collPieces (a + 16) (l.drop 16) n

/-- R58: the status word. -/
def collWord (c : Coll) (poisoned : Bool) (cause : Nat) : Word :=
  BitVec.ofNat 32 (c.seq.toNat % 2 ^ 24 * 2 ^ 8 + 2 ^ 4 * (bit poisoned) + cause)

/-- R58, R366: the collective leaves its group: the status is written and the counter falls. -/
def collLeave (s : State) (cid : Nat) (c : Coll) (w : Word) : State :=
  let s := { s with colls := tdel s.colls cid }
  match s.grp? c.blk c.grp with
  | none => s
  | some y =>
    if y.uid != c.uid then s
    else match y.e.ops.find? (fun o => isColl o && o.cid == cid) with
      | none => s
      | some o =>
        afterEngine (modGrp (finWrites s c.blk c.grp (3 + cid)) c.blk c.grp (fun y => writeStatus o.dst w
          { y with e := { y.e with ops := y.e.ops.filter (fun z => !(isColl z && z.cid == cid)), coll := y.e.coll - 1 } })) c.blk c.grp

/-- R229: an older collective of the group is still outstanding. -/
def collBehind (s : State) (cid : Nat) (c : Coll) : Bool :=
  match s.grp? c.blk c.grp with
  | none => false
  | some y => y.uid == c.uid && (match y.e.ops.find? isColl with | some o => o.cid != cid | none => false)

/-- R229: the group's collectives that have ended complete in issue order, up to the first that has not. -/
def collDrain (b g : Nat) : List EngOp → State → State
  | [], s => s
  | o :: r, s => match tget? s.colls o.cid with
    | some c => (match c.fin with | some w => collDrain b g r (collLeave s o.cid c w) | none => s)
    | none => s

/-- R58, R229: the collective ends at this participant with a status; it completes once the group's older ones have. -/
def collEnd (s : State) (cid : Nat) (c : Coll) (w : Word) : State :=
  if collBehind s cid c then { s with colls := tset s.colls cid { c with fin := some w } }
  else
    let s := collLeave s cid c w
    match s.grp? c.blk c.grp with
    | some y => collDrain c.blk c.grp (y.e.ops.filter isColl) s
    | none => s

/-- R59: destination sectors not fully written are marked poison: those that the context may write. -/
def collPoison (s : State) (c : Coll) : Bool × State :=
  let ranks := (collIds s c).length
  if ranks = 0 || 2 ^ 26 < c.n || c.dst.toNat % 16 != 0 || !canonical c.dst then (false, s)
  else match s.blk? c.blk with
    | none => (false, s)
    | some x => match s.ctx? x.ctx with
      | none => (false, s)
      | some k =>
        let ls := (List.range (ceilDiv (collBytes c ranks) 16)).filterMap (fun j =>
          match access s k .write (c.dst + BitVec.ofNat 64 (16 * j)) with | .ok pa _ => some (sectorOf pa) | _ => none)
        (!ls.isEmpty, setPoison s ls)

/-- R159, R160: the entry of KIND 0x07. -/
def collEntry (s : State) (ctx : Word) (c : Coll) (w : Word) : State :=
  let hp := ctxPort s ctx
  let e := entryBytes 7 1 (match hp with | .A => 8 | .B => 9) 7 0xFF 0xFF 0xFF (ctxTenant s ctx) 0 s.now ctx 0
    (leBytes 4 w.toNat ++ [BitVec.ofNat 8 c.comm, 0, 0, 0] ++ leBytes 4 c.seq.toNat)
  postTrap s hp { own := false, grp := none, bytes := e }

/-- R59: an abort with a cause reaches this participant; one whose result is written already keeps it. -/
def collAbort (s : State) (cid cause : Nat) : State :=
  match tget? s.colls cid with
  | none => s
  | some c =>
    if c.fin.isSome then s
    else
    let z := collPoison s c
    let w := collWord c z.1 cause
    let s := match s.blk? c.blk with
      | some x => (match s.ctx? x.ctx with | some k => if k.killed then z.2 else collEntry z.2 x.ctx c w | none => z.2)
      | none => z.2
    collEnd s cid c w

/-- R57: the payload of a collective control flit: what it is (0 announces, 1 aborts), the cause, the operation, the format, the
sequence number and n. Its layout is this model's (log entry 44). -/
def collCode : CollM → Nat | .ar => 0 | .rs => 1 | .ag => 2 | .bc => 3
def collNote (kind cause : Nat) (c : Coll) : List Byte :=
  [BitVec.ofNat 8 kind, BitVec.ofNat 8 cause, BitVec.ofNat 8 (collCode c.op + 16 * c.red), BitVec.ofNat 8 c.fmt] ++ leBytes 4 c.seq.toNat ++ leBytes 4 c.n

/-- R57, R59: a control flit to every other participant; false if one of them cannot be reached. -/
def collSpread (s : State) (kind cause : Nat) (c : Coll) : Bool × State :=
  ((collIds s c).filter (· != s.sh.devid.toNat)).foldl (fun r d =>
    let z := originate r.2 5 d (c.comm * 2 ^ 24) (collNote kind cause c)
    (r.1 && z.1, z.2)) (true, s)

/-- R59: the engine detects a cause: every participant is sent the abort, and this one acts on it. -/
def collCast (s : State) (cid cause : Nat) : State :=
  match tget? s.colls cid with
  | none => s
  | some c => if c.fin.isSome then s else collAbort (collSpread s 1 cause c).2 cid cause

/-- R57: another participant's collective has another operation, format or n. -/
def collDiffers (c : Coll) (l : List Byte) : Bool := (collNote 0 0 c).drop 2 != l.drop 2

/-- R57, R59: a control payload for a collective that is under way here. -/
def collHeard (s : State) (cid : Nat) (l : List Byte) : State :=
  match tget? s.colls cid with
  | none => s
  | some c =>
    let cause := fieldN l 1 1
    if fieldN l 0 1 = 1 then (if 1 ≤ cause ∧ cause ≤ 5 then collAbort s cid cause else s)
    else if collDiffers c l then collCast s cid 2 else s

/-- R59, R57: the collective that a flit belongs to: a control flit's by its sequence number, a data flit's the oldest of its
communicator that has not ended here. -/
def collFor (s : State) (f : List Byte) : Option Nat :=
  let mine (c : Nat × Coll) : Bool := c.2.comm == flitComm f && c.2.fin.isNone
  match flitType f with
  | 4 => (s.colls.find? mine).map (·.1)
  | 5 => (s.colls.find? (fun c => mine c && c.2.seq == BitVec.ofNat 32 (fieldN (f.drop 16) 4 4))).map (·.1)
  | _ => none

/-- R57, R59: a control flit arrives: for the collective of its sequence number, now or when this device issues it. -/
def collHear (s : State) (f : List Byte) : State :=
  let comm := flitComm f
  let l := (f.drop 16).take 12
  let seq := BitVec.ofNat 32 (fieldN l 4 4)
  match s.colls.find? (fun c => c.2.comm == comm && c.2.seq == seq) with
  | some c => collHeard s c.1 l
  | none => match tget? s.comms comm with
    | some k => if (seq - k.seq).toNat < 2 ^ 31 then { s with comms := tset s.comms comm { k with heard := k.heard ++ [l] } } else s
    | none => s

/-- R57: a collective that has been issued is announced to the other participants, and compared with what they have announced. -/
def collTell (s : State) (cid : Nat) : State :=
  match tget? s.colls cid with
  | none => s
  | some c =>
    let r := collSpread { s with colls := tset s.colls cid { c with told := true } } 0 0 c
    let mine (l : List Byte) : Bool := fieldN l 4 4 == c.seq.toNat
    let ls := match tget? s.comms c.comm with | some k => k.heard.filter mine | none => []
    let s := match tget? r.2.comms c.comm with
      | some k => { r.2 with comms := tset r.2.comms c.comm { k with heard := k.heard.filter (fun l => !mine l) } }
      | none => r.2
    if r.1 then foldS (fun l s => collHeard s cid l) ls s else collCast s cid 5

/-- R379: what a destination sector meets. -/
inductive CollSt where
  | ok | desc | wait | page (va : BitVec 64)
  deriving DecidableEq, Repr

def collDest (s : State) (k : Context) (va : BitVec 64) : CollSt :=
  match access s k .write va with
  | .perm => .desc
  | .poisoned => .desc
  | .notPresent => .page va
  | .ok _ l => match migFor s k l with | some m => if m.transit then .wait else .ok | none => .ok

/-- The first sector of the destination that cannot be written. -/
def collCheck (s : State) (k : Context) (c : Coll) (n : Nat) : CollSt :=
  ((List.range (ceilDiv n 16)).map (fun j => collDest s k (c.dst + BitVec.ofNat 64 (16 * j)))).foldl
    (fun r x => match r with | .ok => x | _ => r) .ok

/-- A peer's contribution with the poison of its sectors (R60). -/
def withPoison (l : List Byte) (bad : List Nat) : List (Byte × Bool) := lmapIx 0 (fun k b => (b, bad.contains (k / 16))) l

/-- R55: the contributions in rank order, this participant's own among the peers'; `none` if a needed one has another length (R57). -/
def contributions (c : Coll) (ranks i : Nat) (own : List (Byte × Bool)) (peers : List (List Byte)) (bad : List (List Nat)) :
    Option (List (List (Byte × Bool))) :=
  let n := collSize c.fmt * c.n
  let xs := (List.range ranks).map (fun r =>
    if r = i then own else let k := if r < i then r else r - 1; withPoison (peers.getD k []) (bad.getD k []))
  let need (r : Nat) : Bool := match c.op with | .bc => r == c.root | _ => true
  if (List.range ranks).all (fun r => !need r || (xs.getD r []).length == n) then some xs else none

/-- R379, R248: a page that is not present suspends the collective under a token. -/
def collSuspend (s : State) (cid acc : Nat) (c : Coll) (va : BitVec 64) : State :=
  let r := pageFault s c.blk c.grp acc va
  { r.2 with colls := tset r.2.colls cid { c with susp := some r.1 } }

/-- R61: an error that lies in what a walk to a destination sector reads is found. -/
def findDest (s : State) (ctx : Word) (k : Context) (c : Coll) (n : Nat) : State :=
  if s.latent.isEmpty then s
  else foldS (fun j s => findWalk s k (c.dst + BitVec.ofNat 64 (16 * j)) s.now ctx) (List.range (ceilDiv n 16)) s

/-- R60: a source sector that some participant's result depends on is poisoned. -/
def collTaint (c : Coll) (xs : List (List (Byte × Bool))) : Bool :=
  match c.op with | .bc => (xs.getD c.root []).any (·.2) | _ => xs.any (fun l => l.any (·.2))

/-- Writes the pieces of the result. -/
def collWrite (p : Pass) (cid : Nat) : List (Nat × List (Byte × Bool)) → State → State
  | [], s => s
  | (a, l) :: r, s => collWrite p cid r (engWriteDev s p (3 + cid) a (l.map (·.1)) (l.any (·.2))).2.2

/-- R55 to R58, R60, R379: what this participant does once it has every contribution. -/
def collRun (s : State) (cid : Nat) (c : Coll) (p : Pass) (k : Context) (peers : List (List Byte)) (bad : List (List Nat)) : State :=
  let ranks := (collIds s c).length
  let i := collRank s c
  let n := collSize c.fmt * c.n
  let own := if c.op == .bc && i != c.root then (.ok [] false, [], s) else engRun s p .dev c.src.toNat n n []
  match own.1 with
  | .stop _ => collCast own.2.2 cid 3
  | .page _ va => collSuspend own.2.2 cid 0 c va
  | .wait => own.2.2
  | .ok _ _ => match contributions c ranks i own.2.1 peers bad with
    | none => collCast own.2.2 cid 2
    | some xs =>
      let res := collResult c ranks i xs
      let s := findDest own.2.2 p.B.ctx k c res.length
      match collCheck s k c res.length with
      | .desc => collCast s cid 3
      | .page va => collSuspend s cid 1 c va
      | .wait => s
      | .ok =>
        let s := collWrite p cid (collPieces c.dst.toNat res (ceilDiv res.length 16)) (note 96 (ctxTenant s p.B.ctx) res.length s)
        collEnd s cid c (collWord c (collTaint c xs) 0)

/-- COLLECTIVE_COMPLETE (R58): the peers' contributions in rank order, without this device's own, and the sectors of each that
are poisoned. -/
def execCollectiveComplete (cid : Nat) (peers : List (List Byte)) (bad : List (List Nat)) (s : State) : Out :=
  .next (match tget? s.colls cid with
    | none => s
    | some c =>
      if c.bad || c.susp.isSome || c.fin.isSome then s
      else match engPass s c.blk c.grp with
        | none => s
        | some p => match s.ctx? p.B.ctx with
          | none => s
          | some k => if p.G.uid == c.uid && p.B.life == .resident then collRun s cid c p k peers bad else s)

/-- COLLECTIVE_ABORT (R59): an abort with one of the causes of R58 reaches the participant. -/
def execCollectiveAbort (cid : Nat) (cause : BitVec 4) (s : State) : Out :=
  .next (if cause.toNat = 0 || 5 < cause.toNat then s else collAbort s cid cause.toNat)

/-- R59: 50 ms have passed without a flit of the collective. -/
def collLate (s : State) (c : Coll) : Bool := c.since + msTicks 50 ≤ s.now

/-- COLLECTIVE_TIMEOUT (R59). -/
def execCollectiveTimeout (cid : Nat) (s : State) : Out :=
  .next (match tget? s.colls cid with
    | some c => if collLate s c then collCast s cid 4 else s
    | none => s)

end Sys2Proof.Machine
end

