-- ==== Sys2Proof/Machine/Control.lean ====
section
/-! DEFINITION. Control instructions: block 0x0_ (R301 to R309). -/

namespace Sys2Proof.Machine

/-- The program counter of each active thread. -/
def setPcs (p : Pass) (f : Nat → Word) (y : Group) : Group := p.L.foldl (fun y t => modThr t (fun x => { x with pc := f t }) y) y

/-- R304: an instruction without a result that only moves program counters. -/
def jumpEff (f : Pass → Nat → Word) (p : Pass) (s : State) : State := modGrp s p.b p.g (setPcs p (f p))

/-- R304: a conditional branch. -/
def branchTo (a : Src) (d : BitVec 16) (c : Word → Bool) (p : Pass) (t : Nat) : Word :=
  if c (srcWord p t a 0 0) then target p.pc d else p.pc + 4

/-- NOP (R303). -/
def execNop (s : State) : Out := runPass .nop (extraOf .nop) (groupEff (fun _ y => y)) s

/-- BRA (R303). -/
def execBra (d : BitVec 24) (s : State) : Out := runPass (.bra d) (extraOf (.bra d)) (jumpEff (fun p _ => target p.pc d)) s

/-- CALL (R304). -/
def execCall (n : Bool) (d : Dst) (a : Src) (m : Tgt) (s : State) : Out :=
  runPass (.call n d a m) (extraOf (.call n d a m)) (fun p s =>
    jumpEff (fun p t => jumpTarget p a (m == .rel) t) p (aluEff (.call n d a m) d (fun p _ _ => res1 (p.pc + 4)) p s)) s

/-- RET (R304). -/
def execRet (a : Src) (s : State) : Out := runPass (.ret a) (extraOf (.ret a)) (jumpEff (fun p t => jumpTarget p a false t)) s

/-- JMPR (R304). -/
def execJmpr (a : Src) (m : Tgt) (s : State) : Out :=
  runPass (.jmpr a m) (extraOf (.jmpr a m)) (jumpEff (fun p t => jumpTarget p a (m == .rel) t)) s

/-- BRZ (R304); H changes no result. -/
def execBrz (h : Bool) (a : Src) (d : BitVec 16) (s : State) : Out :=
  runPass (.brz h a d) (extraOf (.brz h a d)) (jumpEff (branchTo a d (· == 0))) s

/-- BRNZ (R304). -/
def execBrnz (h : Bool) (a : Src) (d : BitVec 16) (s : State) : Out :=
  runPass (.brnz h a d) (extraOf (.brnz h a d)) (jumpEff (branchTo a d (· != 0))) s

/-- BRLT (R304). -/
def execBrlt (h : Bool) (a : Src) (d : BitVec 16) (s : State) : Out :=
  runPass (.brlt h a d) (extraOf (.brlt h a d)) (jumpEff (branchTo a d (·.getLsbD 31))) s

/-- BRGE (R304). -/
def execBrge (h : Bool) (a : Src) (d : BitVec 16) (s : State) : Out :=
  runPass (.brge h a d) (extraOf (.brge h a d)) (jumpEff (branchTo a d (fun x => !x.getLsbD 31))) s

/-- R305: the meeting register a MEET sets. -/
def meetOf (p : Pass) (d : BitVec 16) : Option Word := if d = 0 then none else some (target p.pc d)

/-- MEET (R305). -/
def execMeet (d : BitVec 16) (s : State) : Out :=
  runPass (.meet d) (extraOf (.meet d)) (groupEff (fun p y => p.L.foldl (fun y t => modThr t (fun x => { x with meet := meetOf p d }) y) y)) s

/-- R307, R177: records the continuing addresses; the threads stay at the REPACK until the block repacks. -/
def repackEff (a : Src) (d : BitVec 16) (p : Pass) (s : State) : State :=
  let s := modGrp s p.b p.g (fun y => p.L.foldl (fun y t => modThr t (fun x => { x with cont := some (repackTarget p a d t) }) y) y)
  finishBlock (tryRepack s p.b) p.b

/-- REPACK (R307). -/
def execRepack (a : Src) (d : BitVec 16) (s : State) : Out := runPass (.repack a d) (extraOf (.repack a d)) (repackEff a d) s

/-- A register source as a destination. -/
def Src.toDst : Src → Dst | .v i => .v i | .s i => .s i | _ => .discard

/-- R306: the counter after a LOOP. -/
def loopCount (p : Pass) (a : Src) (t : Nat) : Word := srcWord p t a 0 0 - 1

/-- LOOP (R306). -/
def execLoop (a : Src) (d : BitVec 16) (s : State) : Out :=
  runPass (.loop a d) (extraOf (.loop a d)) (fun p s =>
    jumpEff (fun p t => if loopCount p a t != 0 then target p.pc d else p.pc + 4) p
      (aluEff (.loop a d) (Src.toDst a) (fun p t _ => res1 (loopCount p a t)) p s)) s

/-- R308: the threads of the path exit; a handler whose last thread exits ends (R389). -/
def exitThreads (p : Pass) (y : Group) : Group :=
  tryReturn (p.L.foldl (fun y t => modThr t (fun x => { x with live := false, meet := none, skip := 0 }) y) y)

/-- R73, R179: no thread of a home group is live any more. -/
def homeEmpty (s : State) (b g : Nat) : Bool :=
  match s.blk? b with
  | none => false
  | some x => !(liveThreads x).any (fun c => homeOf x c.1 c.2.1 == g)

/-- R308: EXIT, the end of a phase at the last EXIT (R73), and what follows for the block. -/
def exitEff (p : Pass) (s : State) : State :=
  let s := modGrp s p.b p.g (exitThreads p)
  let homes := (p.L.map (homeOf p.B p.g)).eraseDups.filter (homeEmpty s p.b)
  finishBlock (tryRepack (foldS (fun g s => assayEnd s p.b g p.pc) homes s) p.b) p.b

/-- EXIT (R308). -/
def execExit (s : State) : Out := runPass .exit (extraOf .exit) exitEff s

/-- WINB (R309). -/
def execWinb (vq : Fin 28) (sq : Fin 6) (s : State) : Out :=
  runPass (.winb vq sq) (extraOf (.winb vq sq)) (groupEff (fun _ y => { y with r := { y.r with vw := 16 * vq.val, sw := 32 * sq.val } })) s

end Sys2Proof.Machine
end

