-- ==== Sys2Proof/Machine/Convert.lean ====
section
/-! DEFINITION. Conversions and packing: block 0x7_ (R332 to R337). -/

namespace Sys2Proof.Machine

/-- CVT (R333). -/
def execCvt (n : Bool) (d : Dst) (a : Src) (k : Rnd) (t : Bool) (j f : FmtF) (s : State) : Out :=
  runAlu (.cvt n d a k t j f) d (fun p u c => resN 1 (convert (cvtFmt j) (cvtFmt f) k t (srcWord p u a 0 c).toNat)) s

/-- CVTZ (R333): CVT in RZ. -/
def execCvtz (n : Bool) (d : Dst) (a : Src) (t : Bool) (j f : FmtF) (s : State) : Out :=
  runAlu (.cvtz n d a t j f) d (fun p u c => resN 1 (convert (cvtFmt j) (cvtFmt f) .rz t (srcWord p u a 0 c).toNat)) s

/-- CVTU (R334). -/
def execCvtu (n : Bool) (d : Dst) (a : Src) (t : Bool) (j f : FmtU) (s : State) : Out :=
  runAlu (.cvtu n d a t j f) d (fun p u c => res1 (convertU (cvtuFmt j) (cvtuFmt f) t (srcWord p u a 0 c).toNat)) s

/-- CVTD (R335). -/
def execCvtd (n : Bool) (d : Dst) (a : Src) (k : Rnd) (t : Bool) (j f : FmtD) (s : State) : Out :=
  runAlu (.cvtd n d a k t j f) d (fun p u c =>
    resN (FmtD.words j) (convert (cvtdFmt j) (cvtdFmt f) k t (srcNat p u a (FmtD.words f) c))) s

/-- R336. -/
def packVal (m : HalfM) (a b : Word) : Word :=
  match m with
  | .lo => b.setWidth 16 ++ a.setWidth 16
  | .hi => (b >>> 16).setWidth 16 ++ (a >>> 16).setWidth 16

/-- PACK (R336). -/
def execPack (n : Bool) (d : Dst) (a b : Src) (m : HalfM) (s : State) : Out :=
  runAlu (.pack n d a b m) d (fun p t c => res1 (packVal m (srcWord p t a 0 c) (srcWord p t b 0 c))) s

/-- R336. -/
def unpkVal (m : UnpkM) (a : Word) : Word :=
  let lo : BitVec 16 := a.setWidth 16
  let hi : BitVec 16 := (a >>> 16).setWidth 16
  match m with
  | .e0 => lo.setWidth 32 | .e1 => hi.setWidth 32 | .e0s => sext32 lo | .e1s => sext32 hi

/-- UNPK (R336). -/
def execUnpk (n : Bool) (d : Dst) (a : Src) (m : UnpkM) (s : State) : Out :=
  runAlu (.unpk n d a m) d (fun p t c => res1 (unpkVal m (srcWord p t a 0 c))) s

/-- R337: `convert_from_fp32` in RN. -/
def toFp8 (m : Pk8M) (x : Word) : Nat :=
  match m with
  | .e4m3 => convF e4m3 true .rn false (unpackF fp32 x.toNat)
  | .e4m3sat => convF e4m3 true .rn true (unpackF fp32 x.toNat)
  | .e5m2 => convF e5m2 true .rn false (unpackF fp32 x.toNat)
  | .e5m2sat => convF e5m2 true .rn true (unpackF fp32 x.toNat)

/-- PK8 (R337). -/
def execPk8 (n : Bool) (d : Dst) (a b : Src) (m : Pk8M) (s : State) : Out :=
  runAlu (.pk8 n d a b m) d (fun p t c =>
    resN 1 ((dstWord p t d 0).toNat % 2 ^ 16 * 2 ^ 16 + toFp8 m (srcWord p t b 0 c) * 2 ^ 8 + toFp8 m (srcWord p t a 0 c))) s

/-- UPK8 (R337). -/
def execUpk8 (n : Bool) (d : Dst) (a b : Src) (m : F8) (s : State) : Out :=
  runAlu (.upk8 n d a b m) d (fun p t c =>
    let x := bitsN (srcWord p t a 0 c).toNat (8 * ((srcWord p t b 0 c).toNat % 4)) 8
    resN 1 (fp8To32 (match m with | .e4m3 => e4m3 | .e5m2 => e5m2) x)) s

end Sys2Proof.Machine
end

