-- ==== Sys2Proof/Machine/Global.lean ====
section
/-! DEFINITION. Device-range loads and stores, LDU and PREF: block 0x8_ (R353 to R355). -/

namespace Sys2Proof.Machine

/-- LDB (R353). -/
def execLdb (d : Dst) (a : Src) (i : BitVec 9) (s : State) : Out := loadI (.ldb d a i) d s

/-- LDBS (R353). -/
def execLdbs (d : Dst) (a : Src) (i : BitVec 9) (s : State) : Out := loadI (.ldbs d a i) d s

/-- LDH (R353). -/
def execLdh (d : Dst) (a : Src) (i : BitVec 9) (s : State) : Out := loadI (.ldh d a i) d s

/-- LDHS (R353). -/
def execLdhs (d : Dst) (a : Src) (i : BitVec 9) (s : State) : Out := loadI (.ldhs d a i) d s

/-- LDW (R353). -/
def execLdw (d : Dst) (a : Src) (i : BitVec 9) (s : State) : Out := loadI (.ldw d a i) d s

/-- LDD (R353). -/
def execLdd (d : Dst) (a : Src) (i : BitVec 9) (s : State) : Out := loadI (.ldd d a i) d s

/-- LDQ (R353). -/
def execLdq (d : Dst) (a : Src) (i : BitVec 9) (s : State) : Out := loadI (.ldq d a i) d s

/-- STB (R353). -/
def execStb (e a : Src) (i : BitVec 9) (s : State) : Out := storeI (.stb e a i) e s

/-- STH (R353). -/
def execSth (e a : Src) (i : BitVec 9) (s : State) : Out := storeI (.sth e a i) e s

/-- STW (R353). -/
def execStw (e a : Src) (i : BitVec 9) (s : State) : Out := storeI (.stw e a i) e s

/-- STD (R353). -/
def execStd (e a : Src) (i : BitVec 9) (s : State) : Out := storeI (.std e a i) e s

/-- STQ (R353). -/
def execStq (e a : Src) (i : BitVec 9) (s : State) : Out := storeI (.stq e a i) e s

/-- LDX (R353). -/
def execLdx (d : Dst) (a b : Src) (m : Wid) (s : State) : Out := loadI (.ldx d a b m) d s

/-- STX (R353). -/
def execStx (e a b : Src) (m : Wid) (s : State) : Out := storeI (.stx e a b m) e s

/-- LDU (R354): an atomic load. -/
def execLdu (d : Dst) (a : Src) (i : BitVec 9) (s : State) : Out := loadI (.ldu d a i) d s

/-- R213: a tenant's promotion pool: enabled, frames, and the address of frame k. -/
def poolOn (s : State) (tenant : Nat) : Bool := bitsN (tget s.sh.migpool tenant 0).toNat 63 1 == 1
def poolFrames (s : State) (tenant : Nat) : Nat := bitsN (tget s.sh.migpool tenant 0).toNat 42 10 * 16380
def poolFrame (s : State) (tenant k : Nat) : Nat :=
  bitsN (tget s.sh.migpool tenant 0).toNat 30 12 * 2 ^ 30 + k / 16380 * 2 ^ 30 + 2 ^ 18 + k % 16380 * 2 ^ 16

/-- R214: the home of a page that migrates on a PREF. -/
def migrates (s : State) (c : Context) (va : BitVec 64) : Option Nat :=
  if !canonical va then none
  else match walk s c va with
    | .leaf l =>
      if poolOn s c.tenant && migLeaf l then some l.pa else none
    | _ => none

/-- R214, R216: some group has a pending PREF on the page. -/
def prefPending (s : State) (ctx : Word) (page : BitVec 64) : Bool :=
  (residents s).any (fun (_, x) => x.ctx == ctx && x.groups.any (fun y => y.e.prefs.any (fun r => r.page == page)))

/-- R214: the promoted page to demote: the least recently accessed of the tenant without a pending PREF. -/
def victim (s : State) (tenant : Nat) : Option Mig :=
  (s.migs.filter (fun m => m.tenant == tenant && !m.transit && !prefPending s m.ctx m.vpage)).foldl
    (fun b m => match b with | none => some m | some z => if m.used < z.used then some m else b) none

/-- R214, R216: a frame is free or can be freed. -/
def frameAble (s : State) (tenant : Nat) : Bool :=
  (s.migs.filter (fun m => m.tenant == tenant)).length < poolFrames s tenant || (victim s tenant).isSome

/-- R216: a PREF on this page stays pending; otherwise its counter decrements at once. -/
def prefStays (s : State) (ctx : Word) (page : BitVec 64) : Bool :=
  match s.ctx? ctx with
  | none => false
  | some c => match migrates s c page with
    | none => false
    | some home => match migOf s home with
      | some m => m.transit
      | none => frameAble s c.tenant

/-- R355: the distinct pages that the path's threads name, each with the deadline of the lowest thread that names it. -/
def prefPages (p : Pass) (a b : Src) : List (BitVec 64 × Nat) :=
  (accThreads (.pref a b) p).foldl (fun l t =>
    let pg := pageOf (src64 p t a)
    if l.any (fun x => x.1 == pg) then l else l ++ [(pg, (srcWord p t b 0 0).toNat)]) []

/-- R355, R229: the promote counter has no room for the pages that are to be counted. -/
def prefFull (a b : Src) (p : Pass) (s : State) : Bool :=
  p.G.e.prom == 255 || decide (255 < p.G.e.prom + ((prefPages p a b).filter (fun x => prefStays s p.B.ctx x.1)).length)

/-- R355, R216: the requests of a PREF. -/
def prefEff (a b : Src) (p : Pass) (s : State) : State :=
  if prefFull a b p s then s
  else
  let s := if s.latent.isEmpty then s else match s.ctx? p.B.ctx with
    | some c => foldS (fun (x : BitVec 64 × Nat) s => findWalk s c x.1 (s.etm p.B.core) p.B.ctx) (prefPages p a b) s
    | none => s
  let s := foldS (fun (x : BitVec 64 × Nat) s =>
    if prefStays s p.B.ctx x.1 then
      let r : Pref := { page := x.1, deadline := s.etm p.B.core + nsTicks x.2, counted := true, waited := false, copyWaited := false }
      modGrp s p.b p.g (fun y => { y with e := { y.e with prom := y.e.prom + 1, prefs := y.e.prefs ++ [r] } })
    else s) (prefPages p a b) s
  modGrp s p.b p.g (advance p.L)

/-- PREF (R355). -/
def execPref (a b : Src) (s : State) : Out := runPass (.pref a b) (extraOf (.pref a b)) (prefEff a b) s

end Sys2Proof.Machine
end

