-- ==== Sys2Proof/Machine/Local.lean ====
section
/-! DEFINITION. Scratch, layer and window access and lifetime control: block 0x9_ (R356 to R359). -/

namespace Sys2Proof.Machine

/-- LDS (R356). -/
def execLds (d : Dst) (a : Src) (i : BitVec 9) (s : State) : Out := loadI (.lds d a i) d s

/-- STS (R356). -/
def execSts (e a : Src) (i : BitVec 9) (s : State) : Out := storeI (.sts e a i) e s

/-- LDSX (R356). -/
def execLdsx (d : Dst) (a b : Src) (m : Wid) (s : State) : Out := loadI (.ldsx d a b m) d s

/-- STSX (R356). -/
def execStsx (e a b : Src) (m : Wid) (s : State) : Out := storeI (.stsx e a b m) e s

/-- LDL (R356). -/
def execLdl (d : Dst) (a : Src) (i : BitVec 9) (s : State) : Out := loadI (.ldl d a i) d s

/-- STL (R356). -/
def execStl (e a : Src) (i : BitVec 9) (s : State) : Out := storeI (.stl e a i) e s

/-- LDLB (R356). -/
def execLdlb (d : Dst) (a b : Src) (m : BlkW) (s : State) : Out := loadI (.ldlb d a b m) d s

/-- STLB (R356). -/
def execStlb (e a b : Src) (m : BlkW) (s : State) : Out := storeI (.stlb e a b m) e s

/-- LDHW (R356, R228). -/
def execLdhw (d : Dst) (a b : Src) (m : HwM) (s : State) : Out := loadI (.ldhw d a b m) d s

/-- STHW (R356, R228). -/
def execSthw (e a b : Src) (m : HwM) (s : State) : Out := storeI (.sthw e a b m) e s

/-- R357: what ALLOC, FREE and LIFE do to a granule. -/
inductive LifeOp where
  | alloc | free | life
  deriving DecidableEq, Repr

/-- R190, R357: the granule that takes a class at an ETM value. -/
def granTakes (g : Gran) (op : LifeOp) (cls lifew etm : Nat) : Gran :=
  match op with
  | .free => { g with freed := true }
  | _ => { cls := cls, start := etm,
           spanEnd := (etm + (if cls = 3 then msTicks (lifew / 2 ^ 16) else 0) : Nat),
           expiry := (etm + usTicks (bitsN lifew 0 16) + (if cls = 3 then msTicks (lifew / 2 ^ 16) else 0) : Nat),
           written := (match op with | .life => g.written && !g.freed | _ => false), freed := false }

/-- R357: one granule of the range. ALLOC and FREE leave it zero. -/
def granOne (p : Pass) (op : LifeOp) (m : Spc) (cls lifew : Nat) (a : Nat) (s : State) : State :=
  let k := clusterOf p.B.core
  -- R190: a granule that takes a class is refreshed first
  let fresh (loc : Nat) : State := match op with | .free => s | _ => findErrors s loc 4096 0 s.now none
  let zero (s : State) (loc : Nat) : State :=
    match op with | .life => s | _ => ownWrite s p.b p.g .store loc (List.replicate 4096 0)
  match m with
  | .scr => modBlk (zero (fresh (scrLoc p.b a)) (scrLoc p.b a)) p.b (fun x =>
      { x with grans := tset x.grans (a / 4096) (granTakes (scrGran x a) op cls lifew (s.etm p.B.core)), dirty := insertNat x.dirty (a / 4096) })
  | .lay => modCluster (zero (fresh (layLoc k a)) (layLoc k a)) k (fun x =>
      { x with grans := tset x.grans (a / 4096) (granTakes (layGran x a) op cls lifew (s.etm (layCore s k a))) })

/-- R357, R358: the range of an ALLOC, FREE or LIFE, once for the path; a bank that drains is waited for (R199). -/
def granEff (op : LifeOp) (a b : Src) (m : Spc) (p : Pass) (s : State) : State :=
  let g := granArg p a b
  if m == .lay && g.count != 0 && layerDrains s (clusterOf p.B.core) g.a then s
  else
    let s := foldS (fun k s => granOne p op m g.cls g.lifew (g.a + 4096 * k) s) (List.range g.count) s
    modGrp s p.b p.g (advance p.L)

/-- ALLOC (R357). -/
def execAlloc (a b : Src) (m : Spc) (s : State) : Out := runPass (.alloc a b m) (extraOf (.alloc a b m)) (granEff .alloc a b m) s

/-- FREE (R357). -/
def execFree (a b : Src) (m : Spc) (s : State) : Out := runPass (.free a b m) (extraOf (.free a b m)) (granEff .free a b m) s

/-- LIFE (R357). -/
def execLife (a b : Src) (m : Spc) (s : State) : Out := runPass (.life a b m) (extraOf (.life a b m)) (granEff .life a b m) s

/-- R359: the state word of a granule at an ETM value. -/
def expqWord (g : Gran) (etm : Nat) : Word :=
  let st := if g.freed then 2 else if granExpired g etm then 1 else if g.written then 0 else 3
  let remain := if g.freed || granExpired g etm then 0 else if g.cls = 0 then 0x3FFFFFF else Nat.min 0x3FFFFFF ((g.expiry - etm).toNat / 6250)
  BitVec.ofNat 32 (g.cls * 2 ^ 30 + st * 2 ^ 28 + remain)

/-- R359: what thread t reads. -/
def expqVal (p : Pass) (s : State) (a : Src) (m : Spc) (t : Nat) : Word :=
  let ea := (srcWord p t a 0 0).toNat
  let k := clusterOf p.B.core
  match m with
  | .scr => expqWord (scrGran p.B ea) (s.etm p.B.core)
  | .lay => expqWord (layGran (s.cluster k) ea) (s.etm (layCore s k ea))

/-- A result that returns after the issue (R132): written to each thread, and pending until it returns. -/
def lateResults (p : Pass) (d : Dst) (n : Nat) (rs : List (Nat × List Word)) (y : Group) : Group :=
  let y := rs.foldl (fun y r => writeOp p.P false d r.1 r.2 (r.2.headD 0) y) y
  pendLoad (pendKeys (dstReg p.P d) n (rs.map (·.1))) y

/-- R359: EXPQ on its path; a value from outside the registers is journaled (R71). -/
def expqEff (d : Dst) (a : Src) (m : Spc) (p : Pass) (s : State) : State :=
  let ts := accThreads (.expq d a m) p
  let vs := ts.map (fun t => (t, expqVal p s a m t))
  let rs := vs.flatMap (fun v => (accDests (.expq d a m) p v.1).map (fun t => (t, [v.2])))
  let s := journalItems s p.b p.g p.upper (.expq d a m) p.pc (rs.map (fun v => (v.1, wordsBytes v.2, false)))
  modGrp s p.b p.g (fun y => advance p.L (lateResults p d 1 rs y))

/-- EXPQ (R359). -/
def execExpq (d : Dst) (a : Src) (m : Spc) (s : State) : Out := runPass (.expq d a m) (extraOf (.expq d a m)) (expqEff d a m) s

end Sys2Proof.Machine
end

