-- ==== Sys2Proof/Machine/Matrix.lean ====
section
/-! DEFINITION. Gangs and matrix operations: GANG, MMA, MMAS, MMAF, ACCZ, MMAQ (R369 to R376, R181, R241 to R243). -/

namespace Sys2Proof.Machine

/-- A floating-point matrix element. -/
def eltV (e : Elt) (x : Nat) : FV :=
  match e with
  | .f32 => unpackF fp32 x
  | .f16 => unpackF fp16 x
  | .bf16 => unpackF bf16 x
  | .e4m3 => unpackF e4m3 x
  | .e5m2 => unpackF e5m2 x
  | .i8 => .nan

/-- An INT8 element: i8, or n8 under US (R371). -/
def eltI8 (us : Bool) (x : Nat) : Int := if us then (x : Int) else signedOf 8 x

/-- R241: one element in ascending k. -/
def accFloat : List (FV × FV) → Nat → Nat
  | [], c => c
  | (a, b) :: r, c => accFloat r (mac c a b)

/-- R242: one INT8 element, and IOVF. -/
def accInt : List (Int × Int) → Int → Bool → Int × Bool
  | [], c, v => (c, v)
  | (a, b) :: r, c, v => let z := iaccStep c a b; accInt r z.1 (v || z.2)

/-- R243: the k-blocks of one element with their scales, in ascending order. -/
def accScaled : List (List (FV × FV) × Nat × Nat) → Nat → Bool → Nat × Bool
  | [], c, v => (c, v)
  | (ks, sa, sb) :: r, c, v => let z := promote c (accFloat ks 0) sa sb; accScaled r z.1 (v || z.2)

/-- Cuts a list into k-blocks of 128. -/
def kBlocks {α : Type} (l : List α) : Nat → List (List α)
  | 0 => []
  | n + 1 => l.take 128 :: kBlocks (l.drop 128) n

/-- A 4-byte little-endian element of a byte list. -/
def f32At (l : List Byte) (i : Nat) : Nat := leNat ((l.drop (4 * i)).take 4)

/-- What a slice computes: accumulator slots and values, IOVF, SCALEX. -/
structure Slice where
  res : List (Nat × Word)
  iovf : Bool
  scalex : Bool

/-- The elements of a row of `n`, each of `es` bytes. -/
def eltsOf (l : List Byte) (es n : Nat) : List Nat := (List.range n).map (fun k => leNat ((l.drop (k * es)).take es))

/-- R372: the operand bytes a member reads: the index vector, the distinct A rows, B by k, sa by row, and sb. -/
structure MmaOps where
  xs : List Nat
  rows : List (Nat × List Byte)
  b : List (List Byte)
  sa : List (Nat × List Byte)
  sb : List (List Byte)

def mmaOps (s : State) (p : Pass) (d : MmaD) (x : Gang) : MmaOps :=
  let xs := mmaRows s p d (4 * (x.rq + 1))
  let live := (xs.filter (· != 0xFFFF)).eraseDups
  { xs := xs, rows := live.map (fun r => (r, bankBytes s p .scr (d.rowb + r * d.pitch) d.rowLen)),
    b := (List.range d.k).map (fun k => bankBytes s p d.bsp (d.baddr + d.bOff k (64 * d.jp)) ((x.cm + 1) * eltSize d.fb)),
    sa := if d.scaled then live.map (fun r => (r, bankBytes s p .scr (d.sa + 4 * (r * d.nkb)) (4 * d.nkb))) else [],
    sb := if d.scaled then (List.range d.nkb).map (fun kb => bankBytes s p d.sbsp (d.sb + 4 * (kb * d.nnb + 64 * d.jp / 128)) 4) else [] }

/-- R372: the runs that row `i` reads for its column `j` in the order of the pseudocode, but for those that an earlier element has read:
for each k-block, a and b by k, then sa and sb. -/
def mmaReads (d : MmaD) (xs : List Nat) (i j : Nat) : List Span :=
  let x := xs.getD i 0xFFFF
  let a (k : Nat) : List Span := if j = 0 ∧ x ≠ 0xFFFF then [⟨.scr, d.rowb + x * d.pitch + k * eltSize d.fa, eltSize d.fa⟩] else []
  let b (k : Nat) : List Span := if i = 0 then [⟨d.bsp, d.baddr + d.bOff k (64 * d.jp) + j * eltSize d.fb, eltSize d.fb⟩] else []
  let scales (kb : Nat) : List Span :=
    (if j = 0 ∧ x ≠ 0xFFFF then [⟨.scr, d.sa + 4 * (x * d.nkb + kb), 4⟩] else []) ++
    (if i = 0 ∧ j = 0 then [⟨d.sbsp, d.sb + 4 * (kb * d.nnb + 64 * d.jp / 128), 4⟩] else [])
  (if d.ident || j != 0 then [] else [⟨.scr, d.idx + 2 * i, 2⟩]) ++
  (if d.scaled then (List.range d.nkb).flatMap (fun kb =>
     ((List.range (Nat.min 128 (d.k - 128 * kb))).flatMap (fun k => a (128 * kb + k) ++ b (128 * kb + k))) ++ scales kb)
   else (List.range d.k).flatMap (fun k => a k ++ b k))

/-- R372, R374: what the operation journals: each operand byte once, in the order in which the slice first reads it. -/
def mmaJournal (s : State) (p : Pass) (d : MmaD) (x : Gang) (xs : List Nat) : List Byte :=
  let l := (List.range (4 * (x.rq + 1))).flatMap (fun i => (List.range (x.cm + 1)).flatMap (fun j => mmaReads d xs i j))
  ((l.flatMap (fun z => (List.range z.n).map (fun k => (z.sp, z.a + k)))).eraseDups).flatMap (fun c => bankBytes s p c.1 c.2 1)

/-- R372: row `i` and column `j` of the slice, from the incoming accumulator. -/
def mmaElem (d : MmaD) (o : MmaOps) (i j : Nat) (acc : Word) : Word × Bool × Bool :=
  let x := o.xs.getD i 0
  let row := match o.rows.find? (fun r => r.1 == x) with | some r => eltsOf r.2 (eltSize d.fa) d.k | none => List.replicate d.k 0
  let col := o.b.map (fun l => leNat ((l.drop (j * eltSize d.fb)).take (eltSize d.fb)))
  let pairs := row.zip col
  if d.fa == .i8 then
    let r := accInt (pairs.map (fun c => (eltI8 d.usA c.1, eltI8 d.usB c.2))) (signedOf 32 acc.toNat) false
    (BitVec.ofInt 32 r.1, r.2, false)
  else
    let ps := pairs.map (fun c => (eltV d.fa c.1, eltV d.fb c.2))
    if d.scaled then
      let sa := match o.sa.find? (fun r => r.1 == x) with | some r => r.2 | none => (List.replicate d.nkb one32).flatMap (leBytes 4)
      let ks := lmapIx 0 (fun kb l => (l, f32At sa kb, leNat (o.sb.getD kb []))) (kBlocks ps d.nkb)
      let r := accScaled ks acc.toNat false
      (BitVec.ofNat 32 r.1, false, r.2)
    else (BitVec.ofNat 32 (accFloat ps acc.toNat), false, false)

/-- R372: the slice. -/
def mmaSlice (y : Group) (d : MmaD) (x : Gang) (o : MmaOps) : Slice :=
  (List.range (x.rq + 1)).foldl (fun z t => (List.range 4).foldl (fun z r => (List.range (x.cm + 1)).foldl (fun z j =>
    let key := 32 * (x.accb + 64 * r + j) + t
    let v := mmaElem d o (4 * t + r) j (wget y.r.v key)
    { res := z.res ++ [(key, v.1)], iovf := z.iovf || v.2.1, scalex := z.scalex || v.2.2 }) z) z)
    { res := [], iovf := false, scalex := false }

/-- R369, R375: the accumulator slots of the gang register's slice. -/
def accKeys (x : Gang) : List Nat :=
  (List.range (x.rq + 1)).flatMap (fun t => (List.range 4).flatMap (fun r => (List.range (x.cm + 1)).map (fun j => 32 * (x.accb + 64 * r + j) + t)))

/-- R374: cycles of a slice on the matrix unit; doubled in paired-lane mode. -/
def mmaCycles (d : MmaD) (paired : Bool) : Nat :=
  let c := match d.fa with | .f32 => 8 | .f16 => 2 | .bf16 => 2 | _ => 1
  (16 + c * d.k + (if d.scaled then d.nkb else 0)) * (if paired then 2 else 1)

/-- The partition of a home lane (R12). -/
def partOf (lane : Nat) : Nat := lane / 16

/-- R374: the CYC at which the matrix unit of a partition is next free. -/
def unitFree (s : State) (core part : Nat) : Nat :=
  (residents s).foldl (fun m c => if c.2.core == core then c.2.groups.foldl (fun m y =>
    match y.e.mma with | some f => if partOf y.q.lane == part then Nat.max m f.endAt else m | none => m) m else m) (s.cyc core)

/-- R166: the matrix unit of a partition makes no progress: since when. -/
def unitHung (s : State) (core part : Nat) : Option Nat :=
  (residents s).findSome? (fun c => if c.2.core == core then c.2.groups.findSome? (fun y =>
    match y.e.mma with | some f => if partOf y.q.lane == part then f.stuck else none | none => none) else none)

/-- R372, R374: a member's slice is computed and in flight; the member goes on past its MMA. `ms` are the members of the operation. -/
def issueSlice (b g : Nat) (ms : List (Nat × Nat)) (w : MmaWait) (s : State) : State :=
  match engPass s b g with
  | none => s
  | some p =>
    let q := { p with P := p.G, L := p.G.liveList }
    match p.G.e.gang, mmaArgs q w.i with
    | some x, some d =>
      let o := mmaOps s p d x
      let z := mmaSlice p.G d x o
      let dst := match w.i with | .mma d _ _ _ => dstReg p.G d | .mmas d _ _ _ => dstReg p.G d | .mmaf d _ _ _ => dstReg p.G d | _ => none
      let status := BitVec.ofNat 32 (ms.length * 2 ^ 8 + 4 * (bit z.scalex) + 2 * (bit z.iovf) + 1)
      let start := unitFree s p.B.core (partOf p.G.q.lane)
      let cycles := mmaCycles d p.B.opts.paired
      let steps := if p.B.opts.paired then 2 * d.k else d.k
      let f : MmaFly := { dst := dst, res := z.res, status := status, endAt := start + cycles, cycles := cycles, steps := steps,
                          stuck := (unitHung s p.B.core (partOf p.G.q.lane)).map (fun _ => s.etm p.B.core), pc := w.pc, away := [], mates := ms, metAt := s.now }
      let lapsed := ((if d.ident then [] else [({ sp := .scr, a := d.idx, n := 8 * (x.rq + 1) } : Span)]) ++ mmaSpans d o.xs x.cm).any (runLapsed s p)
      let s := journal s b g (listMask p.G.liveList) [mmaJournal s p d x o.xs]
      let s := note (clusterOf p.B.core) (ctxTenant s p.B.ctx) steps s
      let s := modCore s p.B.core (addTail s.now .n (f.endAt - s.cyc p.B.core))
      modGrp s b g (fun y =>
        let y := setStickyIf lapsed .lapsed (pend (pendKeys dst 1 [0]) (pend (accKeys x, []) y))
        advance y.liveList { y with e := { y.e with mmaWait := none, mma := some f } })
    | _, _ => s

/-- R369, R181: the place of a gang member. -/
def memberAt (s : State) (x : Block) (m : Nat × Nat) : Option (Nat × Nat) :=
  match s.blocks.find? (fun c => c.2.inst == x.inst && c.2.node == x.node && c.2.troupe == x.troupe && troupeRel c.2 == m.1) with
  | some c => some (c.1, m.2)
  | none => none

/-- R181: every listed member waits at an MMA of the same offset with the same list. -/
def gangReady (s : State) (x : Block) (ms : List (Nat × Nat)) (pc : Word) : Bool :=
  ms.all (fun m => match memberAt s x m with
    | none => false
    | some (b, g) => match s.grp? b g with
      | none => false
      | some y => (match y.e.mmaWait with | some w => w.pc == pc | none => false) && (match y.e.gang with | some z => z.members == ms | none => false))

/-- A member at its MMA, with its descriptors as the rendezvous reads them. -/
def memberArgs (s : State) (b g : Nat) : Option (Pass × MmaWait × MmaD × Gang) :=
  match engPass s b g with
  | none => none
  | some p =>
    let q := { p with P := p.G, L := p.G.liveList }
    match p.G.e.mmaWait, p.G.e.gang with
    | some w, some x => (match mmaArgs q w.i with | some d => some (q, w, d, x) | none => none)
    | _, _ => none

/-- R252: what a member's operands meet as the operation is to issue. -/
def memberLook (s : State) (m : Nat × Nat) : Look :=
  match memberArgs s m.1 m.2 with | some z => mmaLook z.1 s z.2.2.1 z.2.2.2 | none => .ok { loc := 0 }

/-- R252: a member whose operands have gone bad since it arrived faults at its MMA, and no longer waits there. -/
def memberFault (m : Nat × Nat) (s : State) : State :=
  match memberArgs s m.1 m.2, memberLook s m with
  | some z, .fault k aux addr =>
    let live := z.1.L
    takeFault (modGrp s m.1 m.2 (fun y => freshResume { y with e := { y.e with mmaWait := none } })) m.1 m.2 k (live.headD 0) false z.2.1.pc
      (listMask live) aux addr 0
  | _, _ => s

/-- R181: the places of the members, once all of them wait. -/
def gangPlaces (s : State) (b g : Nat) : List (Nat × Nat) :=
  match s.blk? b with
  | none => []
  | some x => match x.groups[g]? with
    | none => []
    | some y => match y.e.gang, y.e.mmaWait with
      | some gg, some w => if gangReady s x gg.members w.pc then gg.members.filterMap (memberAt s x) else []
      | _, _ => []

/-- R181: a gang that only waits for a bank to drain. -/
def gangStands (s : State) (b g : Nat) : Bool :=
  let ms := gangPlaces s b g
  !ms.isEmpty && ms.all (fun m => memberLook s m != .wait)

/-- R181, R252: the rendezvous latch issues the operation, the members in list order, unless an operand of a member has gone bad. -/
def rendezvous (s : State) (b g : Nat) : State :=
  let ms := gangPlaces s b g
  let s := foldS (fun (m : Nat × Nat) s => match memberArgs s m.1 m.2 with | some z => findMma z.1 z.2.2.1 z.2.2.2 s | none => s) ms s
  if ms.any (fun m => memberLook s m == .wait) then s
  else if ms.any (fun m => (memberLook s m).cond.isSome) then foldS memberFault ms s
  else foldS (fun (m : Nat × Nat) s => match s.grp? m.1 m.2 with
    | some z => (match z.e.mmaWait with | some v => issueSlice m.1 m.2 ms v s | none => s)
    | none => s) ms s

/-- R368, R372 to R374: a member arrives once every live thread has met and its earlier operation has completed. A solo register
issues at once (R369). -/
def mmaEff (i : Instr) (p : Pass) (s : State) : State :=
  match p.G.e.gang, mmaArgs p i with
  | some x, some d =>
    if !groupMet p || p.G.e.mma.isSome || mmaLook p s d x == .wait then s
    else
      let w : MmaWait := { i := i, pc := p.pc, since := coreEdge s p.B.core }
      let s := modGrp s p.b p.g (fun y => { y with e := { y.e with mmaWait := some w } })
      if x.members.length = 1 then issueSlice p.b p.g [(p.b, p.g)] w s else rendezvous s p.b p.g
  | _, _ => s

/-- MMA (R371 to R374). -/
def execMma (d : Dst) (a b : Src) (m : MmaM) (s : State) : Out :=
  runPass (.mma d a b m) (extraOf (.mma d a b m)) (mmaEff (.mma d a b m)) (findSel (.mma d a b m) s)

/-- MMAS (R371 to R374, R243). -/
def execMmas (d : Dst) (a b : Src) (m : F8P) (s : State) : Out :=
  runPass (.mmas d a b m) (extraOf (.mmas d a b m)) (mmaEff (.mmas d a b m)) (findSel (.mmas d a b m) s)

/-- MMAF (R371 to R374). -/
def execMmaf (d : Dst) (a b : Src) (m : F8P) (s : State) : Out :=
  runPass (.mmaf d a b m) (extraOf (.mmaf d a b m)) (mmaEff (.mmaf d a b m)) (findSel (.mmaf d a b m) s)

/-- GANG (R369, R370). -/
def execGang (a b : Src) (s : State) : Out :=
  runPass (.gang a b) (extraOf (.gang a b)) (groupEff (fun p y =>
    { y with e := { y.e with gang := some (gangOf (src64 p p.low a) (srcWord p p.low b 0 0)) } })) s

/-- R375: ACCZ waits for an operation in flight, then zeroes the slice. -/
def acczEff (p : Pass) (s : State) : State :=
  match p.G.e.gang with
  | none => s
  | some x =>
    if p.G.e.mma.isSome then s
    else modGrp s p.b p.g (fun y =>
      let k := accKeys x
      let y := { y with r := { y.r with v := k.foldl (fun v c => wset v c 0) y.r.v } }
      advance p.L (pendLoad (k, []) y))

/-- ACCZ (R375). -/
def execAccz (s : State) : Out := runPass .accz (extraOf .accz) acczEff s

/-- R376: the word MMAQ reads. -/
def mmaqWord (y : Group) : Word :=
  let busy := 2 ^ 19 * (bit y.e.mma.isSome)
  match y.e.gang with
  | none => BitVec.ofNat 32 busy
  | some x => BitVec.ofNat 32 ((x.members.length - 1) * 2 ^ 29 + x.accb * 2 ^ 20 + busy + 2 ^ 18 + x.rq * 2 ^ 9 + x.cm)

/-- R376, R170: MMAQ writes D; a vector D is broadcast. -/
def mmaqEff (d : Dst) (p : Pass) (s : State) : State :=
  modGrp s p.b p.g (fun y => advance p.L (lateResults p d 1 (p.L.map (fun t => (t, [mmaqWord p.G]))) y))

/-- MMAQ (R376). -/
def execMmaq (d : Dst) (s : State) : Out := runPass (.mmaq d) (extraOf (.mmaq d)) (mmaqEff d) s

end Sys2Proof.Machine
end

