-- ==== Sys2Proof/Machine/Task.lean ====
section
/-! DEFINITION. Stage queues, continuations and YIELD: block 0xD_ (R380 to R386, R120 to R129). -/

namespace Sys2Proof.Machine

/-! The ring. -/

/-- R120: records in a ring. -/
def occupancy (q : Queue) : Nat := (q.putix - q.freeix).toNat

/-- The slot of an index, and its phase bit (R122). -/
def slotIx (q : Queue) (ix : Word) : Nat := ix.toNat % queueSlots q
def phaseBit (q : Queue) (ix : Word) : Bool := ix.getLsbD (q.size + 1)

/-- R121: FREEIX advances over every consecutive free slot. -/
def freeAdvance (q : Queue) : Nat → Queue
  | 0 => q
  | n + 1 =>
    if q.freeix == q.putix then q
    else match tget? q.slots (slotIx q q.freeix) with
      | some z => if z.free then freeAdvance { q with freeix := q.freeix + 1 } n else q
      | none => q

/-- R121, R122: one record takes the next slot with a consumer mask; zero means CMASK. `ws` are the writes that its taker observes (R222). -/
def putOne (q : Queue) (data : List Byte) (mask : BitVec 8) (ws : List (Nat × Nat)) : Queue :=
  let m := if q.mode then 0 else if mask = 0 then q.cmask else mask
  let z : Slot := { data := data, mask := m, phase := phaseBit q q.putix, free := !q.mode && m == 0, writers := ws }
  let q := { q with slots := tset q.slots (slotIx q q.putix) z, putix := q.putix + 1 }
  freeAdvance q (queueSlots q)

/-- R123, R382: the window of a core refills in slot order from the records whose mask holds its bit, up to 64. -/
def refillWindow (j : Nat) (q : Queue) : Queue :=
  if q.mode || !q.en then q
  else
    let w := tget q.windows j []
    let fresh := (List.range (occupancy q)).filterMap (fun k =>
      let ix := q.freeix + BitVec.ofNat 32 k
      match tget? q.slots (slotIx q ix) with
      | some z => if z.mask.getLsbD j && !w.any (fun r => r.ix == ix.toNat) then some { ix := ix.toNat, data := z.data, bound := none, writers := z.writers } else none
      | none => none)
    { q with windows := tset q.windows j (w ++ fresh.take (64 - w.length)) }

/-- R143: a slot freed, or the queue was disabled: groups parked under the queue's key on the cluster wake. -/
def wakeQueue (s : State) (k q : Nat) : State :=
  foldS (fun c s => if clusterOf c = k then wakeCore s c (fun p => match p with | .queue n => n == q | _ => false) else s)
    ((residents s).map (fun x => x.2.core)).eraseDups s

/-- R121, R143: a record is put into a ring; a slot that no consumer is to take is free as it is written, and wakes the groups that wait. -/
def enqueueRec (s : State) (k n : Nat) (data : List Byte) (mask : BitVec 8) (ws : List (Nat × Nat)) : State :=
  let q := (s.cluster k).queue n
  let s := modQueue s k n (fun q => putOne q data mask ws)
  if !q.mode && mask == 0 && q.cmask == 0 then wakeQueue s k n else s

/-- R121: a core releases a record: its bit clears, and an empty mask frees the slot. -/
def releaseOne (j ix : Nat) (q : Queue) : Queue :=
  let k := ix % queueSlots q
  let q := { q with
    windows := tset q.windows j ((tget q.windows j []).filter (fun r => r.ix != ix))
    slots := (match tget? q.slots k with
      | some z => let m := z.mask &&& ~~~(1#8 <<< j); tset q.slots k { z with mask := m, free := m == 0 }
      | none => q.slots) }
  freeAdvance q (queueSlots q)

/-! Puts. -/

/-- R73: a put's digest entry. -/
def putDigest (k q : Nat) (data : List Byte) (mask : Option (BitVec 8)) : List Byte :=
  digestEntry (k * 2 ^ 8 + q) 0xFFFF 2 (data ++ (match mask with | some m => [m, 0, 0, 0, 0, 0, 0, 0] | none => []))

/-- R381: a path puts every record, or parks with nothing put. `mask` is the mask each thread names. -/
def putEff (a b : Src) (mask : Pass → Nat → Option (BitVec 8)) (p : Pass) (s : State) : State :=
  let k := clusterOf p.B.core
  let q := queueNum p a
  let x := queueOf p s q
  let rs := putRecords p b
  if queueSlots x < occupancy x + rs.length then park s p.b p.g (.queue q)
  else
    let s := foldS (fun (r : Nat × List Word) s =>
      let data := wordsBytes r.2
      let m := mask p r.1
      digest (enqueueRec s k q data (m.getD 0) [(p.G.uid, s.stamp)]) p.b p.g (putDigest k q data m)) rs s
    modGrp (moveRegion s p.b p.g p.L) p.b p.g (advance p.L)

/-- QPUT (R381). -/
def execQput (a b : Src) (s : State) : Out := runPass (.qput a b) (extraOf (.qput a b)) (putEff a b (fun _ _ => none)) s

/-- QMPUT (R381). -/
def execQmput (e a b : Src) (s : State) : Out :=
  runPass (.qmput e a b) (extraOf (.qmput e a b)) (putEff a b (fun p t => some ((srcWord p t e 0 0).setWidth 8))) s

/-! Takes and releases. -/

/-- R382: an empty take. -/
def emptyTake : List Word := [0xFFFFFFFF, 0xFFFFFFFF]

/-- R222: the group observes writes of other groups. -/
def observe (ws : List (Nat × Nat)) (y : Group) : Group :=
  { y with c := { y.c with obs := tmax y.c.obs (ws.filter (fun w => w.1 != y.uid)) } }

/-- R382: what a thread takes from a queue: an unbound record of the window, or a valid record of an index-phase ring (R122); and the
queue and group after it, which keeps the record for delivering it again (R124) and has observed its writers (R222). -/
def takeOne (st : Bool) (b hg t j n : Nat) (q : Queue) (y : Group) : List Word × Queue × Group :=
  let got (ix : Nat) (data : List Byte) (ws : List (Nat × Nat)) : Group :=
    observe ws { y with e := { y.e with takes := y.e.takes ++ [{ t := t, q := n, ix := ix, data := data, again := false, stage := st }] } }
  if q.mode then
    match tget? q.slots (slotIx q q.freeix) with
    | some z =>
      if q.freeix != q.putix && z.phase == phaseBit q q.freeix && !z.free then
        (bytesWords z.data, { q with slots := tset q.slots (slotIx q q.freeix) { z with free := true }, freeix := q.freeix + 1 },
          got q.freeix.toNat z.data z.writers)
      else (emptyTake, q, y)
    | none => (emptyTake, q, y)
  else
    let w := tget q.windows j []
    if 4 ≤ ((q.windows.flatMap (·.2)).filter (fun r => r.bound == some (b, hg, t))).length then (emptyTake, q, y)
    else match w.find? (fun r => r.bound.isNone) with
      | none => (emptyTake, q, y)
      | some r => (bytesWords r.data,
          { q with windows := tset q.windows j (w.map (fun z => if z.ix = r.ix then { z with bound := some (b, hg, t) } else z)) },
          got r.ix r.data r.writers)

/-- R124: the record that a re-executed take of a thread receives again: for QTAKE.q one of the queue it names, for QTAKE.stage one that
such a take received, whatever CSTAGE names now. -/
def takeAgain (st : Bool) (t : Nat) (n : Option Nat) (y : Group) : Option Take :=
  y.e.takes.find? (fun k => k.t == t && k.again && k.stage == st && (st || n == some k.q))

/-- A record has been delivered again. -/
def tookAgain (k : Take) (y : Group) : Group :=
  { y with e := { y.e with takes := y.e.takes.map (fun z => if z = k then { z with again := false } else z) } }

/-- R382: the take of thread t, from queue `n` if there is one. -/
def takeThread (st : Bool) (p : Pass) (n : Option Nat) (r : List (Nat × List Word) × State) (t : Nat) : List (Nat × List Word) × State :=
  match r.2.grp? p.b p.g with
  | none => (r.1 ++ [(t, emptyTake)], r.2)
  | some y => match takeAgain st t n y, n with
    | some a, _ => (r.1 ++ [(t, bytesWords a.data)], modGrp r.2 p.b p.g (tookAgain a))
    | none, some n =>
      let z := takeOne st p.b (homeOf p.B p.g t) t (p.B.core % 8) n (queueOf p r.2 n) y
      (r.1 ++ [(t, z.1)], modGrp (modQueue r.2 (clusterOf p.B.core) n (fun _ => z.2.1)) p.b p.g (fun _ => z.2.2))
    | none, none => (r.1 ++ [(t, emptyTake)], r.2)

/-- R382: the threads of a path take in ascending index. `st` tells QTAKE.stage. -/
def takeEff (i : Instr) (st : Bool) (d : Dst) (sel : Pass → State → Option Nat) (p : Pass) (s : State) : State :=
  let k := clusterOf p.B.core
  let n := sel p s
  let r := p.L.foldl (takeThread st p n) ([], s)
  -- R143: a slot that a take has freed wakes the groups that wait for one
  let freed : Bool := match n with | some n => (queueOf p s n).freeix != (queueOf p r.2 n).freeix | none => false
  let s := journalItems r.2 p.b p.g p.upper i p.pc (r.1.map (fun v => (v.1, wordsBytes v.2, false)))
  let s := match n with | some n => if freed then wakeQueue s k n else s | none => s
  modGrp s p.b p.g (fun y =>
    let y := r.1.foldl (fun y v => writeOp p.P false d v.1 v.2 (v.2.headD 0) y) y
    advance p.L (pendLoad (pendKeys (dstReg p.P d) 16 p.L) y))

/-- R125: the queue that CSTAGE selects among the context's own. -/
def stageQueue (p : Pass) (s : State) : Option Nat :=
  let c := (s.core p.B.core).cstage
  if c.getLsbD 4 then none
  else (List.range 16).find? (fun n =>
    let q := queueOf p s n
    queueMine p.B.ctx q && q.stage == bitsN c.toNat 0 4)

/-- QTAKE.q (R382). -/
def execQtakeQ (d : Dst) (a : Src) (s : State) : Out :=
  runPass (.qtakeQ d a) (extraOf (.qtakeQ d a)) (takeEff (.qtakeQ d a) false d (fun p _ => some (queueNum p a))) s

/-- QTAKE.stage (R382). -/
def execQtakeStage (d : Dst) (s : State) : Out := runPass (.qtakeStage d) (extraOf (.qtakeStage d)) (takeEff (.qtakeStage d) true d stageQueue) s

/-- R121, R143: a slot of a queue has become free. -/
def slotFreed (old new : Queue) (k : Nat) : Bool :=
  match tget? old.slots k, tget? new.slots k with
  | some a, some b => !a.free && b.free
  | some a, none => !a.free
  | none, _ => false

/-- R383: the oldest record of a queue that is bound to a thread, with the core in whose window it is bound. -/
def boundOldest (q : Queue) (z : Nat × Nat × Nat) : Option (Nat × WinRec) :=
  let age (r : Nat × WinRec) : Nat := (BitVec.ofNat 32 r.2.ix - q.freeix).toNat
  ((q.windows.flatMap (fun w => w.2.map (fun r => (w.1, r)))).filter (fun r => r.2.bound == some z)).foldl
    (fun m r => match m with | none => some r | some x => if age r < age x then some r else some x) none

/-- R383: one thread releases its oldest record of the queue. -/
def relOne (p : Pass) (a : Src) (t : Nat) (s : State) : State :=
  let k := clusterOf p.B.core
  let n := bitsN (srcWord p t a 0 0).toNat 0 4
  let q := queueOf p s n
  if !queueMine p.B.ctx q || q.mode then s
  else match boundOldest q (p.b, homeOf p.B p.g t, t) with
    | none => s
    | some r =>
      let old := q
      let s := modQueue s k n (releaseOne r.1 r.2.ix)
      -- R143: a slot that becomes free wakes the groups that wait for one
      if slotFreed old ((s.cluster k).queue n) (r.2.ix % queueSlots old) then wakeQueue s k n else s

/-- R383: QREL releases for each thread, and moves the region entry. -/
def relEff (a : Src) (p : Pass) (s : State) : State :=
  modGrp (moveRegion (foldS (relOne p a) p.L s) p.b p.g p.L) p.b p.g (advance p.L)

/-- QREL (R383). -/
def execQrel (a : Src) (s : State) : Out := runPass (.qrel a) (extraOf (.qrel a)) (relEff a) s

/-- R384: the word QSTAT reads. -/
def qstatWord (q : Queue) : QstatM → Word
  | .occ => q.putix - q.freeix | .put => q.putix | .free => q.freeix

/-- R384: QSTAT writes D; its result is journaled. -/
def qstatEff (d : Dst) (a : Src) (m : QstatM) (p : Pass) (s : State) : State :=
  let w := qstatWord (queueOf p s (queueNum p a)) m
  let s := journal s p.b p.g (listMask p.L) (p.L.map (fun _ => leBytes 4 w.toNat))
  modGrp s p.b p.g (fun y => advance p.L (lateResults p d 1 (p.L.map (fun t => (t, [w]))) y))

/-- QSTAT (R384). -/
def execQstat (d : Dst) (a : Src) (m : QstatM) (s : State) : Out :=
  runPass (.qstat d a m) (extraOf (.qstat d a m)) (qstatEff d a m) s

/-! Continuations. -/

/-- R128, R159, R160: a dropped continuation's entry of KIND 0x0A. -/
def dropEntry (s : State) (b g : Nat) (va : BitVec 64) : State :=
  match s.blk? b with
  | none => s
  | some x =>
    let lane := match x.groups[g]? with | some y => y.q.lane | none => 0
    let e := entryBytes 10 1 (dieOf x.core) 0xFF (clusterOf x.core) (x.core % 8) lane (ctxTenant s x.ctx) 0 (s.etm x.core) x.ctx 0
      (leBytes 8 va.toNat)
    postTrap s (ctxPort s x.ctx) { own := true, grp := none, bytes := e }

/-- R127, R222: the JOINs of the continuation whose COUNT lies here, and the release by group `uid`. -/
def joinWrites (s : State) (loc uid : Nat) : List (Nat × Nat) :=
  (uid, s.stamp) :: (((writesAt s loc).takeWhile (fun w => w.kind == .atomic)).filter (fun w => w.new == w.old - 1)).map (fun w => (w.who, w.stamp))

/-- R127, R128: a release enqueues the task record. -/
def releaseCont (s : State) (b g : Nat) (loc : Nat) (va : BitVec 64) : State :=
  let bs := mgetN s.mem loc 64
  let n := bitsN (leNat ((bs.drop 4).take 1)) 0 4
  let k := leNat ((bs.drop 5).take 1)
  let data := leBytes 8 va.toNat ++ bs.drop 8
  let ctx := match s.blk? b with | some x => x.ctx | none => 0
  let q := (s.cluster k).queue n
  let err (s : State) : State := modGrp s b g (setSticky .joinerr)
  let ws := joinWrites s loc (uidAt s b g)
  if 96 ≤ k || !queueMine ctx q then dropEntry (err s) b g va
  else if queueSlots q ≤ occupancy q || !q.contq.isEmpty then err (modQueue s k n (fun q => { q with contq := q.contq ++ [(data, ws)] }))
  else enqueueRec s k n data 0 ws

/-- R127, R128: one update of COUNT at its location: SPAWN adds 1; JOIN subtracts 1 and releases at zero. -/
def contPerform (s : State) (b g : Nat) (join : Bool) (h : Hit) (va : BitVec 64) : State :=
  let s := touchMig s h.home true
  let r := atomicAt s b g h.loc 4 (fun old =>
    if join then (if old = 0 then none else some (old - 1)) else (if old = 0 ∨ old = 2 ^ 32 - 1 then none else some (old + 1)))
  if r.1 = 0 ∨ (!join ∧ r.1 = 2 ^ 32 - 1) then modGrp r.2 b g (setSticky .joinerr)
  else if join && r.1 == 1 then releaseCont r.2 b g h.loc va
  else r.2

/-- R73: the digest entry of an update. -/
def contDigest (i : Instr) (ea : Nat) : List Byte :=
  digestEntry ea (byteMask ea 4) 1 (match i with
    | .join _ sc => [0xD5, BitVec.ofNat 8 (encScope sc)]
    | _ => [0xD4, 0])

/-- R385: one thread's update: performed, logged (R362) or held (R215). -/
def contOne (i : Instr) (a : Src) (p : Pass) (t : Nat) (s : State) : State :=
  let ea := eaDev a p t
  let va := BitVec.ofNat 64 ea
  let s := digest s p.b p.g (contDigest i ea)
  let x : LogThr := { g := homeOf p.B p.g t, t := t, addr := va, data := [], cmp := [], jat := none }
  match contLook p s a t with
  | .ok h => (match h.hold with
    | some home => holdAccess s p.b p.g i p.pc home va none 0 [t] x
    | none => contPerform s p.b p.g (match i with | .join _ _ => true | _ => false) h va)
  | .notPresent _ => logAccess s p.b p.g i p.pc 2 va none 0 [t] x
  | _ => s

/-- The path's lowest thread, of those that began the pass at this address (R385: one publish for the path). -/
def firstOfPath (p : Pass) : Bool :=
  (List.range p.low).all (fun t => match p.P.thr[t]? with
    | some x => !(x.live && x.pc == p.pc && x.meet != some p.pc && p.P.inHandler t)
    | none => true)

/-- R385: SPAWN and JOIN on their path, in ascending thread index. While an access waits nothing happens. -/
def contEff (i : Instr) (a : Src) (pub : Option Scope) (p : Pass) (s : State) : State :=
  if p.L.any (fun t => contLook p s a t == .wait) then s
  else
    let s := match pub with | some sc => if firstOfPath p then publish s p.b p.g sc true else s | none => s
    modGrp (moveRegion (foldS (contOne i a p) p.L s) p.b p.g p.L) p.b p.g (advance p.L)

/-- SPAWN (R385, R127, R128). -/
def execSpawn (a : Src) (s : State) : Out := runPass (.spawn a) (extraOf (.spawn a)) (contEff (.spawn a) a none) (findSel (.spawn a) s)

/-- JOIN (R385, R127, R128). -/
def execJoin (a : Src) (sc : Scope) (s : State) : Out := runPass (.join a sc) (extraOf (.join a sc)) (contEff (.join a sc) a (some sc)) (findSel (.join a sc) s)

/-- YIELD (R386): at the next switch point the group is passed over. -/
def execYieldI (s : State) : Out :=
  runPass .yieldI (extraOf .yieldI) (groupEff (fun _ y => { y with q := { y.q with passed := true } })) s

end Sys2Proof.Machine
end

