-- ==== Sys2Proof/Machine/System.lean ====
section
/-! DEFINITION. System, trap and debug instructions: block 0xE_ (R387 to R408), and reserved encodings (R264). -/

namespace Sys2Proof.Machine

/-- TRAP with M = 0 (R388): its condition is the TRAP fault, and TCODE takes A before it. -/
def execTrap (a : Src) (s : State) : Out := runPass (.trap a) (extraOf (.trap a)) (groupEff (fun _ y => y)) s

/-- R389: the path's handler threads stand at a return of this form; the last of them returns the handler. -/
def retEff (next : Bool) (p : Pass) (s : State) : State :=
  modGrp s p.b p.g (fun y => tryReturn { y with handler := (match y.handler with
    | some h => some { h with rets := h.rets ++ p.L.map (fun t => (t, next)) }
    | none => none) })

/-- TRAP with M = 1 (R389). -/
def execTrapRet (s : State) : Out := runPass .trapRet (extraOf .trapRet) (retEff false) s

/-- TRAP with M = 2 (R389). -/
def execTrapNext (s : State) : Out := runPass .trapNext (extraOf .trapNext) (retEff true) s

/-- R391, R263: a table read that meets a not-present page parks the group, with access code 4. -/
def tabPark (s : State) (b g : Nat) (page : BitVec 64) : State :=
  let f := pageFault s b g 4 page
  park f.2 b g (.page f.1)

/-- R391: LIVE reads its entry and changes nothing else. -/
def liveEff (i : BitVec 16) (p : Pass) (s : State) : State :=
  match liveEntry p s i.toNat with
  | .notPresent page => tabPark s p.b p.g page
  | _ => modGrp (touchRead p.B.ctx .read (liveVa p i.toNat + 112) (touchRead p.B.ctx .read (liveVa p i.toNat) s)) p.b p.g (advance p.L)

/-- LIVE (R391). -/
def execLive (i : BitVec 16) (s : State) : Out := runPass (.live i) (extraOf (.live i)) (liveEff i) s

/-- R392: REGION sets the region entries of the path, with the entry's end offset. -/
def regionEff (i : BitVec 16) (p : Pass) (s : State) : State :=
  match regionEntry p s i.toNat with
  | .notPresent page => tabPark s p.b p.g page
  | .bytes l =>
    let e := BitVec.ofNat 32 (leNat ((l.drop 4).take 4))
    modGrp (moveRegion (touchRead p.B.ctx .read (regionVa p i.toNat) s) p.b p.g p.L) p.b p.g (fun y =>
      advance p.L (p.L.foldl (fun y t => modThr t (fun x => { x with region := { x.region with endOff := some e } }) y) y))
  | _ => s

/-- REGION (R392). -/
def execRegion (i : BitVec 16) (s : State) : Out := runPass (.region i) (extraOf (.region i)) (regionEff i) s

/-- A result written once for the path: to a scalar, or to every active thread of a vector, and pushed (R170, R171, R387). -/
def onceResult (i : Instr) (d : Dst) (w : Word) (p : Pass) (y : Group) : Group :=
  advance p.L (writeAll p.P i.noWrite d (res1 w) p.L y)

/-- R393: the word ASSAY writes; `.off` then makes the phase unassayable. -/
def assayEff (d : Dst) (m : AssayM) (p : Pass) (s : State) : State :=
  let w : Word := if journaling p.G then 1 else 0
  let s := journal s p.b p.g (listMask p.L) (p.L.map (fun _ => leBytes 4 w.toNat))
  let s := match m with | .q => s | .off => unassayable s p.b p.g
  modGrp s p.b p.g (onceResult (.assay d m) d w p)

/-- ASSAY (R393). -/
def execAssay (d : Dst) (m : AssayM) (s : State) : Out := runPass (.assay d m) (extraOf (.assay d m)) (assayEff d m) s

/-! Special registers. -/

/-- R120: QDq and QIXq as 64-bit values. -/
def qdWord (q : Queue) : Nat :=
  bit q.en * 2 ^ 63 + bit q.mode * 2 ^ 62 + q.bank * 2 ^ 58 + q.off * 2 ^ 52 + q.size * 2 ^ 48 + q.cmask.toNat * 2 ^ 40 + q.stage * 2 ^ 36 + q.owner.toNat
def qixWord (q : Queue) : Nat := q.putix.toNat * 2 ^ 32 + q.freeix.toNat

/-- R196: BMODEb. -/
def bmodeWord (k : Bank) : Nat := k.mode.toNat * 2 ^ 62 + bit k.drain * 2 ^ 61 + k.owner.toNat

/-- R125: FMCTL. -/
def fmctlWord (x : Cluster) : Nat := bit x.fmEn * 2 ^ 31 + x.fmHi * 2 ^ 20 + x.fmLo * 2 ^ 16 + x.fmHold

/-- R397: COREID of a group. -/
def coreidWord (core lane : Nat) : Nat := lane * 2 ^ 16 + clusterOf core * 2 ^ 8 + core % 8

/-- R395, R36: ticks of the next `off` cycles of a core. -/
def aheadTicks (k : Core) (now off : Nat) : Nat :=
  let c := (coreClock k now).1
  (List.range off).foldl (fun n j => n + cycleTicks k (c + j)) 0

/-- R396, R395: the value of a register whose low number is `n`, `off` cycles on. -/
def srValue (s : State) (x : Block) (y : Group) (n : Nat) (off : Nat := 0) : Nat :=
  let k := s.cluster (clusterOf x.core)
  if n < 8 then (y.r.frame.getD n 0).toNat
  else if n < 0x100 then (match n with
    | 8 => y.r.tcode.toNat
    | 9 => y.r.sticky.toNat
    | 10 => x.ctx.toNat
    | _ => match s.ctx? x.ctx with | some c => c.cbase.toNat | none => 0)
  else if n < 0x200 then (match n with
    | 0x100 => (s.cyc x.core + off) % 2 ^ 64
    | 0x102 => (s.etm x.core + aheadTicks (s.core x.core) s.now off) % 2 ^ 64
    | 0x104 => coreidWord x.core y.q.lane
    | _ => (s.core x.core).cstage.toNat)
  else if n < 0x220 then qdWord (k.queue ((n - 0x200) / 2))
  else if n < 0x240 then qixWord (k.queue ((n - 0x220) / 2))
  else if n = 0x240 then fmctlWord k
  else bmodeWord (k.bank ((n - 0x280) / 2))

/-- R395, R396: the number is a 64-bit register's low word; a high word. -/
def srWide (n : Nat) : Bool := n == 0xC || n == 0x100 || n == 0x102 || ((0x200 ≤ n && n < 0x240 || 0x280 ≤ n && n < 0x2A0) && n % 2 == 0)
def srHigh (n : Nat) : Bool := n % 2 == 1 && srWide (n - 1)

/-- R395: RDSR: the value, and the high word latched. -/
def rdsrEff (nw : Bool) (d : Dst) (i : BitVec 16) (p : Pass) (s : State) : State :=
  let n := i.toNat
  let v := srValue s p.B p.G n p.off
  let w : Word := if srHigh n then p.G.r.rlatch else BitVec.ofNat 32 v
  let s := journal s p.b p.g (listMask p.L) (p.L.map (fun _ => leBytes 4 w.toNat))
  modGrp s p.b p.g (fun y =>
    let y := if srWide n then { y with r := { y.r with rlatch := BitVec.ofNat 32 (v / 2 ^ 32) } } else y
    onceResult (.rdsr nw d i) d w p y)

/-- RDSR (R395). -/
def execRdsr (n : Bool) (d : Dst) (i : BitVec 16) (s : State) : Out :=
  runPass (.rdsr n d i) (extraOf (.rdsr n d i)) (rdsrEff n d i) s

/-- R120, R199: the bank is in FIFO mode for the context; it drains into that mode for it. -/
def fifoOwned (k : Bank) (ctx : Word) : Bool := k.mode == 2 && k.owner == ctx && !k.drain
def fifoDrains (k : Bank) (ctx : Word) : Bool := k.drain && k.nextMode == 2 && k.nextOwner == ctx

/-- R120: the slots run past the end of the bank. -/
def qdPast (v : Nat) : Bool := 2 ^ 22 < bitsN v 52 6 * 2 ^ 16 + 2 ^ (bitsN v 48 4 + 1) * 64

/-- R120: the queue after a performed write; EN written as 1 resets QIXq, and the ring with it. -/
def qdSet (v : Nat) (ctx : Word) (q : Queue) : Queue :=
  let en := bitsN v 63 1 == 1 && !qdPast v
  let q := { q with en := en, mode := bitsN v 62 1 == 1, bank := bitsN v 58 4, off := bitsN v 52 6, size := bitsN v 48 4,
                    cmask := BitVec.ofNat 8 (bitsN v 40 8), stage := bitsN v 36 4 }
  if en then { q with owner := ctx, putix := 0, freeix := 0, slots := [], windows := [], contq := [] } else q

/-- R120, R398: a write of QDq; `none` waits for the bank's drain. -/
def writeQd (s : State) (b g q v : Nat) (x : Block) : Option State :=
  let k := clusterOf x.core
  let old := (s.cluster k).queue q
  let bank := (s.cluster k).bank (bitsN v 58 4)
  let bad (s : State) : State := modGrp s b g (setSticky .qcfg)
  if old.en && bitsN v 63 1 == 1 then some (bad s)
  else if fifoDrains bank x.ctx then none
  else if !fifoOwned bank x.ctx then some (bad s)
  else
    let s := modQueue s k q (qdSet v x.ctx)
    let s := if qdPast v then bad s else s
    some (if old.en then wakeQueue s k q else s)

/-- R196: a write of BMODEb. -/
def writeBmode (s : State) (b g n v : Nat) (x : Block) : State :=
  let k := clusterOf x.core
  let bank := (s.cluster k).bank n
  let m := bitsN v 62 2
  let takes := bank.mode == 0 && (m == 1 || m == 2)
  let own := bank.owner == x.ctx && m ≤ 2
  let leaves := bank.mode == 2 && m != 2 && (List.range 16).any (fun q => let z := (s.cluster k).queue q; z.en && z.bank == n)
  if !(takes || own) || m == 3 || bank.drain || leaves then modGrp s b g (setSticky .modecfg)
  else if bank.mode.toNat = m then s
  else modBank s k n (fun z => { z with drain := true, drainAt := s.now, nextMode := BitVec.ofNat 2 m, nextOwner := if m = 0 then 0xFFFFFFFF else x.ctx })

/-- R124: a core that changes stage re-reads the untaken records of its windows. -/
def dropUntaken (s : State) (core : Nat) : State :=
  modCluster s (clusterOf core) (fun x => { x with queues := x.queues.map (fun (n, q) =>
    (n, { q with windows := q.windows.map (fun (j, w) => (j, if j = core % 8 then w.filter (fun r => r.bound.isSome) else w)) })) })

/-- R398: the context owns an enabled queue of the cluster. -/
def ownsQueue (s : State) (k : Nat) (ctx : Word) : Bool := (List.range 16).any (fun q => queueMine ctx ((s.cluster k).queue q))

/-- R125, R397, R398: writes of CSTAGE and FMCTL. -/
def writeCstage (s : State) (core : Nat) (v : Word) : State :=
  let s := modCore s core (fun c => { c with cstage := v.setWidth 5, moved := some s.now })
  dropUntaken s core
def writeFmctl (s : State) (k : Nat) (v : Nat) : State :=
  modCluster s k (fun x => { x with fmEn := bitsN v 31 1 == 1, fmHi := bitsN v 20 4, fmLo := bitsN v 16 4, fmHold := bitsN v 0 16 })

/-- R395: what a WRSR of a low word or a 32-bit register does; `none` waits. -/
def srWrite (s : State) (b g : Nat) (x : Block) (y : Group) (n : Nat) (w : Word) : Option State :=
  let k := clusterOf x.core
  let qcfg (s : State) : State := modGrp s b g (setSticky .qcfg)
  if n = 9 then some (modGrp s b g (clearSticky w))
  else if n = 0x105 then some (if ownsQueue s k x.ctx then writeCstage s x.core w else qcfg s)
  else if n = 0x240 then some (if ownsQueue s k x.ctx then writeFmctl s k w.toNat else qcfg s)
  else
    let staged := match y.r.wlatch with | some (m, h) => if m = n then some h else none | none => none
    let hi := match staged with | some h => h.toNat | none => srValue s x y n / 2 ^ 32
    let v := hi * 2 ^ 32 + w.toNat
    let use (s : State) : State := if staged.isSome then modGrp s b g (fun y => { y with r := { y.r with wlatch := none } }) else s
    if n < 0x220 then (match writeQd s b g ((n - 0x200) / 2) v x with | some s => some (use s) | none => none)
    else some (use (writeBmode s b g ((n - 0x280) / 2) v x))

/-- R395, R394: WRSR on its path; while a drain runs that it must await nothing happens. -/
def wrsrEff (e : Src) (i : BitVec 16) (p : Pass) (s : State) : State :=
  let n := i.toNat
  let w := srcWord p p.low e 0 0
  let r : Option State :=
    if srHigh n then some (modGrp s p.b p.g (fun y => { y with r := { y.r with wlatch := some (n - 1, w) } }))
    else srWrite s p.b p.g p.B p.G n w
  match r with
  | none => s
  | some s => modGrp (if n = 9 then s else unassayable s p.b p.g) p.b p.g (advance p.L)

/-- WRSR (R395). -/
def execWrsr (e : Src) (i : BitVec 16) (s : State) : Out := runPass (.wrsr e i) (extraOf (.wrsr e i)) (wrsrEff e i) s

/-! Debug, sleep, class. -/

/-- BKPT (R399): its condition is the BKPT fault; under a RESUME with SKIP it executes without it (R405). -/
def execBkpt (i : BitVec 16) (s : State) : Out :=
  runPass (.bkpt i) (extraOf (.bkpt i)) (groupEff (fun _ y => { y with d := { y.d with skip := none } })) s

/-- The group is Halted at an address (R144, R405), its latches emptied (R152). -/
def haltGroup (s : State) (b g : Nat) (pc : Word) : State :=
  match s.grp? b g with
  | none => s
  | some y => modGrp (leaveLane s b g) b g (fun z =>
      let z := emptyLatches (setStatus (.halted (y.q.status == .active)) z)
      { z with d := { z.d with haltPc := pc } })

/-- R402: DBGM posts, and halts past the instruction. -/
def dbgmEff (a : Src) (m : DbgmM) (p : Pass) (s : State) : State :=
  let s := modGrp (unassayable s p.b p.g) p.b p.g (advance p.L)
  if !debugOn s p.B then s
  else
    let k := match m with | .post => 1 | .halt => 5
    let s := debugPost s (ctxPort s p.B.ctx) (postBytes s p.B k p.low p.g p.pc (srcWord p p.low a 0 0))
    match m with | .post => s | .halt => haltGroup s p.b p.g (p.pc + 4)

/-- DBGM (R402). -/
def execDbgm (a : Src) (m : DbgmM) (s : State) : Out := runPass (.dbgm a m) (extraOf (.dbgm a m)) (dbgmEff a m) s

/-- R400: the slot WATCH writes. -/
def watchSlot (p : Pass) (a b : Src) (m : WatchM) : Option Watch :=
  let w := srcWord p p.low b 0 0
  match m with
  | .clr => none
  | _ => some { addr := src64 p p.low a, size := bitsN w.toNat 1 5, onR := m != .w, onW := m != .r }

/-- WATCH (R400, R394). -/
def execWatch (a b : Src) (m : WatchM) (s : State) : Out :=
  runPass (.watch a b m) (extraOf (.watch a b m)) (fun p s =>
    modGrp (unassayable s p.b p.g) p.b p.g (fun y =>
      let z := watchSlot p a b m
      advance p.L { y with d := if (srcWord p p.low b 0 0).getLsbD 0 then { y.d with w1 := z } else { y.d with w0 := z } })) s

/-- R407: SLEEP goes on at zero, and otherwise parks past the instruction until its deadline. -/
def sleepEff (a : Src) (p : Pass) (s : State) : State :=
  let n := (srcWord p p.low a 0 0).toNat
  let s := modGrp s p.b p.g (advance p.L)
  if n = 0 then s else park s p.b p.g (.sleep (s.etm p.B.core + nsTicks n))

/-- SLEEP (R407). -/
def execSleep (a : Src) (s : State) : Out := runPass (.sleep a) (extraOf (.sleep a)) (sleepEff a) s

/-- CLASS (R408): a hint to the class gate. -/
def execClas (c : TClass) (s : State) : Out :=
  runPass (.clas c) (extraOf (.clas c)) (groupEff (fun _ y => { y with q := { y.q with hint := some c } })) s

/-- A reserved encoding (R264): ILLOP, with AUX the word. -/
def execReservedEncoding (w : Word) (s : State) : Out :=
  runPass (.reservedEncoding w) (extraOf (.reservedEncoding w)) (fun _ s => s) s

end Sys2Proof.Machine
end

