-- ==== Sys2Proof/Machine/Launch.lean ====
section
/-! DEFINITION. Submissions of graphs, patch lists, kernel headers, instances and node dispatch (R83, R93 to R105). -/

namespace Sys2Proof.Machine

/-- R23, R86: the device answers requests once bring-up has completed. -/
def State.up (s : State) : Bool := s.boot.done

/-- R81: the window offset of byte `o` of a port's half. -/
def halfOff (hp : HPort) (o : Nat) : Nat := (match hp with | .A => 0 | .B => 2 ^ 22) + o

/-- Bytes of a port's half of the coherent window, if they lie in it. -/
def halfBytes (s : State) (hp : HPort) (o n : Nat) : Option (List Byte) :=
  if o + n ≤ 2 ^ 22 then some (mgetN s.mem (winLoc (halfOff hp o)) n) else none

def allZero (l : List Byte) : Bool := l.all (· == 0)

/-- R83: the submission carries the expected number, which advances; otherwise SEQERR. -/
def accept (s : State) (hp : HPort) (sseq : Word) : Option State :=
  if (s.port hp).sub.subseq == sseq then some (modSub s hp (fun q => { q with subseq := q.subseq + 1 })) else none

def seqErr (s : State) (hp : HPort) : State := modHost s hp (fun h => { h with seqerr := true })

/-- R83: a submission, discarded unless its number is the expected one. -/
def submit (s : State) (hp : HPort) (sseq : Word) (f : State → State) : Out :=
  .next (if !s.up then s else match accept s hp sseq with | some s => f s | none => seqErr s hp)

/-- R88: the tenant is valid and bound to the port. -/
def tenantBound (s : State) (hp : HPort) (k : Nat) : Bool :=
  let w := tget s.sh.tenants k 0
  w.getLsbD 31 && (w.getLsbD 30 == (hp == .B))

/-! Graph images. -/

/-- R96: grid options; the last is the field's validity. -/
def parseOpts (v : Nat) : Opts × Bool :=
  ({ debug := bitsN v 16 1 == 1, underv := bitsN v 15 1 == 1, assay := bitsN v 10 5, paired := bitsN v 9 1 == 1,
     preempt := bitsN v 8 1 == 1, tenant := bitsN v 4 4, prio := bitsN v 0 4 },
   v / 2 ^ 17 == 0 && bitsN v 10 5 ≤ 16)

/-- R96: BLOCKS. -/
def blocksOk (v : Nat) : Bool :=
  if bitsN v 63 1 = 1 then bitsN v 57 5 == 0 && bitsN v 0 2 == 0 else bitsN v 62 1 == 0 && bitsN v 32 30 == 0

/-- R96: node record `i`. -/
def parseNode (l : List Byte) (i : Nat) : Option GNode :=
  let k := BitVec.ofNat 64 (fieldN l 0 8)
  let o := parseOpts (fieldN l 24 8)
  if canonical k && k.toNat % 64 == 0 && fieldN l 8 8 / 2 ^ i == 0 && blocksOk (fieldN l 16 8) && o.2 && allZero ((l.drop 96).take 32) then
    some { khdr := k, pred := BitVec.ofNat 64 (fieldN l 8 8), blocks := BitVec.ofNat 64 (fieldN l 16 8), opts := o.1,
           args := (List.range 16).map (fun j => BitVec.ofNat 32 (fieldN l (32 + 4 * j) 4)) }
  else none

/-- All of a list's results, if every one is there. -/
def allSome {α : Type} : List (Option α) → Option (List α)
  | [] => some []
  | none :: _ => none
  | some x :: r => match allSome r with | some l => some (x :: l) | none => none

/-- R96: the image at an offset of the port's half. -/
def parseGraph (s : State) (hp : HPort) (o : Nat) : Option Graph :=
  match halfBytes s hp o 64 with
  | none => none
  | some h =>
    let n := fieldN h 4 4
    if fieldN h 0 4 != 1 || n == 0 || 64 < n || !allZero ((h.drop 12).take 52) then none
    else match halfBytes s hp (o + 64) (128 * n) with
      | none => none
      | some l => match allSome ((List.range n).map (fun i => parseNode (l.drop (128 * i)) i)) with
        | some nodes => some { ctx := BitVec.ofNat 32 (fieldN h 8 4), nodes := nodes }
        | none => none

/-- An accepted launch of the identifier has not completed. -/
def graphBusy (s : State) (hp : HPort) (g : Nat) : Bool := s.insts.any (fun c => c.2.port == hp && c.2.graph == g)

/-- R97: the status of a load and, for OK, the graph. -/
def loadCheck (s : State) (hp : HPort) (g o : Nat) : Nat × Option Graph :=
  if graphBusy s hp g then (1, none)
  else match parseGraph s hp o with
    | none => (2, none)
    | some x =>
      let known := match s.ctx? x.ctx with | some c => !c.killed && c.port == hp | none => false
      if !known then (3, none)
      else if x.nodes.any (fun n => !tenantBound s hp n.opts.tenant) then (4, none)
      else
        let held := (tdel (s.port hp).sub.graphs g).foldl (fun k c => k + c.2.nodes.length) 0
        if 16384 < held + x.nodes.length then (5, none) else (0, some x)

/-- R95. -/
def setLoadStat (s : State) (hp : HPort) (g st : Nat) : State :=
  modSub s hp (fun q => { q with loadGraph := BitVec.ofNat 10 g, loadStat := BitVec.ofNat 8 st })

/-- TRIGGER_LOAD (R97). -/
def execTriggerLoad (hp : HPort) (sseq : Word) (graph : BitVec 10) (ploff : BitVec 18) (s : State) : Out :=
  submit s hp sseq (fun s =>
    let r := loadCheck s hp graph.toNat (16 * ploff.toNat)
    let s := setLoadStat s hp graph.toNat r.1
    match r.2 with
    | some x => modSub s hp (fun q => { q with graphs := tset q.graphs graph.toNat x })
    | none => s)

/-- TRIGGER_UNLOAD (R97). -/
def execTriggerUnload (hp : HPort) (sseq : Word) (graph : BitVec 10) (s : State) : Out :=
  submit s hp sseq (fun s =>
    let g := graph.toNat
    if graphBusy s hp g then setLoadStat s hp g 1
    else if (tget? (s.port hp).sub.graphs g).isNone then setLoadStat s hp g 6
    else setLoadStat (modSub s hp (fun q => { q with graphs := tdel q.graphs g })) hp g 0)

/-! Launches. -/

/-- R99: the patch list, checked against the graph. -/
def parsePatch (s : State) (hp : HPort) (o nodes : Nat) : Option (List (Nat × Word)) :=
  match halfBytes s hp o 16 with
  | none => none
  | some h =>
    let n := fieldN h 0 4
    if 1024 < n || !allZero ((h.drop 4).take 12) then none
    else match halfBytes s hp (o + 16) (8 * n) with
      | none => none
      | some l =>
        let es := (List.range n).map (fun k => fieldN l (8 * k) 8)
        if es.any (fun e => bitsN e 16 16 != 0 || 16 * nodes ≤ bitsN e 0 16) then none
        else some (es.map (fun e => (bitsN e 0 16, BitVec.ofNat 32 (e / 2 ^ 32))))

/-- R98: a launch that runs nothing completes at acceptance. -/
def launchFails (s : State) (hp : HPort) (sseq : Word) (g st : Nat) : State :=
  reportDone s hp { cseq := 0, sseq := sseq, kind := 0, status := st, graph := g, bytes := 0, time := s.now, stamp := 0 }

/-- R94, R98: an accepted launch. The patch list is copied as it stands: of a unit that a later write changes the copy holds the old
value, which is this model's choice of the two (log entry 7). -/
def launch (s : State) (hp : HPort) (sseq : Word) (patch order : Bool) (g o : Nat) : State :=
  match tget? (s.port hp).sub.graphs g with
  | none => launchFails s hp sseq g 1
  | some x =>
    let last (s : State) (n : Option Nat) : State := modCtx s x.ctx (fun c => { c with lastInst := n, lastClock := [] })
    let killed := match s.ctx? x.ctx with | some c => c.killed | none => true
    if killed then launchFails s hp sseq g 7
    else
      let p := if patch then parsePatch s hp o x.nodes.length else some []
      match p with
      | none => last (launchFails s hp sseq g 3) none
      | some ps =>
        if 65536 ≤ (s.insts.filter (fun c => c.2.port == hp)).length then last (launchFails s hp sseq g 4) none
        else
          let prev := match s.ctx? x.ctx with | some c => c.lastInst | none => none
          let clock := match s.ctx? x.ctx with | some c => c.lastClock | none => []
          let i : Inst := { port := hp, ctx := x.ctx, sseq := sseq, graph := g, order := order, nodes := [], patch := ps, seq := s.nextInst,
                            started := false, disp := [], ret := [], status := 0, clocks := [], prev := prev, prevClock := clock }
          last (modSub { s with insts := tset s.insts s.nextInst i, nextInst := s.nextInst + 1 } hp
            (fun q => { q with open1 := q.open1 ++ [sseq] })) (some s.nextInst)

/-- TRIGGER_LAUNCH (R94). -/
def execTriggerLaunch (hp : HPort) (sseq : Word) (patch order : Bool) (graph : BitVec 10) (ploff : BitVec 18) (s : State) : Out :=
  submit s hp sseq (fun s => launch s hp sseq patch order graph.toNat (16 * ploff.toNat))

/-- TRIGGER_BADOP (R94). DESIGN CHOICE (log 36): such a launch is not the most recently accepted one of R104. -/
def execTriggerBadop (hp : HPort) (sseq : Word) (graph : BitVec 10) (s : State) : Out :=
  submit s hp sseq (fun s => launchFails s hp sseq graph.toNat 2)

/-! Instances. -/

/-- R98: an instance may start. -/
def instStartable (s : State) (n : Nat) : Bool :=
  match tget? s.insts n with
  | none => false
  | some i => !i.started && !s.insts.any (fun c => c.2.port == i.port && c.2.graph == i.graph && c.2.seq < i.seq)
      && (!i.order || (s.port i.port).sub.open1.head? == some i.sseq)

/-- R99: one patch written into the stored graph. -/
def patchWord (x : Graph) (e : Nat × Word) : Graph :=
  { x with nodes := lmod x.nodes (e.1 / 16) (fun n => { n with args := n.args.set (e.1 % 16) e.2 }) }

/-- INSTANCE_START (R98, R99). -/
def execInstStart (inst : Nat) (s : State) : Out :=
  .next (if !instStartable s inst then s
    else match tget? s.insts inst with
      | none => s
      | some i => match tget? (s.port i.port).sub.graphs i.graph with
        | none => s
        | some x =>
          let x := i.patch.foldl patchWord x
          let s := modSub s i.port (fun q => { q with graphs := tset q.graphs i.graph x })
          modInst s inst (fun i => { i with nodes := x.nodes, started := true, disp := x.nodes.map (fun _ => false), ret := x.nodes.map (fun _ => false) }))

/-- R96: IND and CONC of a node. -/
def GNode.ind (n : GNode) : Bool := n.blocks.getLsbD 63
def GNode.conc (n : GNode) : Bool := n.blocks.getLsbD 62

/-- R104: the address of the count word. -/
def GNode.countVa (n : GNode) : BitVec 64 := ((n.blocks.setWidth 57) &&& ~~~3#57).signExtend 64

/-- R104: an indirect node without predecessors takes the node before it, or the launch before it. -/
def impliedPred (n : GNode) : Bool := n.ind && !n.conc && n.pred == 0

/-- R98, R104: every predecessor of node k has retired. -/
def nodeReady (s : State) (i : Inst) (k : Nat) : Bool :=
  match i.nodes[k]? with
  | none => false
  | some n =>
    i.started && i.status == 0 && !i.disp.getD k true
      && (List.range i.nodes.length).all (fun j => !n.pred.getLsbD j || i.ret.getD j false)
      && (!impliedPred n || (if k = 0 then (match i.prev with | some m => (tget? s.insts m).isNone | none => true) else i.ret.getD (k - 1) false))

/-- R222: the launch link of node k. -/
def launchClock (i : Inst) (k : Nat) (n : GNode) : Table Nat :=
  let ps := (List.range i.nodes.length).filter (fun j => n.pred.getLsbD j || (impliedPred n && k = j + 1))
  let own := ps.foldl (fun c j => tmax c (tget i.clocks j [])) []
  if impliedPred n && k == 0 then tmax own i.prevClock else own

/-! Kernel headers. -/

/-- R100: a carry range word is within its limits and the declaration. -/
def carryOk (vregs sregs w : Nat) : Bool :=
  bitsN w 26 5 == 0 && bitsN w 10 6 == 0 &&
  (bitsN w 16 10 == 0 || bitsN w 0 10 + bitsN w 16 10 ≤ (if bitsN w 31 1 = 1 then sregs else vregs))

/-- R100, R390: the header's fields, without its table counts. -/
def parseHeader (l : List Byte) : Option Header :=
  let w (o : Nat) : Word := BitVec.ofNat 32 (fieldN l o 4)
  let b (o : Nat) : Nat := fieldN l o 1
  let vregs := fieldN l 0 2
  let carry := (List.range 4).map (fun k => w (32 + 4 * k))
  let slife := fieldN l 12 4
  if 512 < vregs || vregs % 16 != 0 || 192 < b 2 || 16 < b 3 || b 4 == 0 || 32 < b 4 || b 5 == 0 || 8 < b 5 || 3 < b 6 || 1 < b 7
      || fieldN l 8 4 % 4096 != 0 || 2 ^ 23 < fieldN l 8 4 || !lifeOk (b 6) slife
      || fieldN l 16 4 % 4 != 0 || fieldN l 20 4 % 4 != 0 || fieldN l 24 4 % 64 != 0 || fieldN l 28 4 % 8 != 0
      || !carry.all (fun c => carryOk vregs (b 2) c.toNat) || !allZero ((l.drop 48).take 16) then none
  else some { vregs := vregs, sregs := b 2, barriers := b 3, groups := b 4, troupe := b 5, sclass := b 6, assay := b 7 == 1,
              scratch := fieldN l 8 4, life := slife % 2 ^ 16, span := slife / 2 ^ 16, entry := w 16, traph := w 20, livetab := w 24,
              regtab := w 28, carry := carry, liveN := 0, regN := 0 }

/-- R107: the group allocation and the block footprint. -/
def groupAlloc (h : Header) : Nat := roundUp (2048 + 128 * h.vregs + 4 * h.sregs + phaseSize h) 1024
def footprint (h : Header) : Nat := roundUp (1024 + h.groups * groupAlloc h + h.scratch) 4096

/-- R101: reads of the command processor under a context's page table; an error found there is the context's (R61). -/
def cpRead (s : State) (c : Context) (va : BitVec 64) (n : Nat) : Option (List Byte) :=
  match readVa s c .read va n with | .bytes l => some l | _ => none
def cpFind (s : State) (ctx : Word) (c : Context) (va : BitVec 64) (n : Nat) : State :=
  let s := findWalk s c va s.now ctx
  match access s c .read va with
  | .ok pa _ => findErrors s pa n 1 s.now (some ctx)
  | _ => s

/-- R101, R390: the header and its table counts; `none` is BADHDR. -/
def readHeader (s : State) (c : Context) (va : BitVec 64) : Option Header :=
  match cpRead s c va 64 with
  | none => none
  | some l => match parseHeader l with
    | none => none
    | some h =>
      let live : Option (List Byte) := if h.livetab = 0 then some (List.replicate 64 0) else cpRead s c (va + sext64 h.livetab - 64) 64
      let reg : Option (List Byte) := if h.regtab = 0 then some (List.replicate 8 0) else cpRead s c (va + sext64 h.regtab - 8) 8
      match live, reg with
      | some a, some b =>
        if !allZero (a.drop 4) || !allZero (b.drop 4) || 2 ^ 24 < footprint h then none
        else some { h with liveN := fieldN a 0 4, regN := fieldN b 0 4 }
      | _, _ => none

/-- R105, R430: the byte last published at `.dev` or wider; a BAR C write stands published only through a flush over it, which is a later
write. -/
def publishedByte (s : State) (a : Nat) : Byte :=
  let ok (w : WRec) : Bool := match w.kind with
    | .flush => true | .barC => false | .atomic => true
    | _ => s.pubs.any (fun p => publishes p w && scopeDevWide p.scope)
  match (writesAt s a).find? ok with
  | some w => w.new
  | none => match (writesAt s a).getLast? with | some w => w.old | none => mget s.mem a

/-- R104: the count word. DESIGN CHOICE (log 36): a poisoned one fails the node also on a leaf with ALT 1: the alternate of R217 serves a load,
and the command processor's read is none. -/
def readCount (s : State) (c : Context) (va : BitVec 64) : Option Nat :=
  match access s c .read va with
  | .ok pa _ => if poisoned s pa 4 then none else some (leNat ((locs pa 4).map (publishedByte s)))
  | _ => none

/-- R98: a node fails: the instance carries the first failure, and nothing further of it dispatches. -/
def failNode (s : State) (n st : Nat) : State := finishInst (modInst s n (fun i => { i with status := if i.status = 0 then st else i.status })) n

/-- R119: one block, Ready. -/
def readyBlock (i : Inst) (n k : Nat) (x : GNode) (h : Header) (count : Nat) (hb : Table Nat) (idx : Nat) : Block :=
  { ctx := i.ctx, inst := n, node := k, hdr := x.khdr, h := h, opts := x.opts, idx := idx, troupe := idx / h.troupe, count := count,
    args := x.args, life := .ready, core := 0, placed := 0, slot := 0, groups := [], bars := [], bwait := [], arr := [], map := [],
    store := [], grans := [], dirty := [], shadowed := [], start := 0, preempt := false, relocate := false, avoid := none, preBy := 16, wholeSaved := [], form := 0, hb := hb }

/-- R98, R104: node k dispatches with its blocks Ready; a count of 0 retires it. -/
def dispatchNode (s : State) (n k : Nat) (i : Inst) (x : GNode) (h : Header) (count : Nat) : State :=
  let hb := tmax (launchClock i k x) [(0, s.flushed)]
  let s := modInst s n (fun i => { i with disp := i.disp.set k true })
  let s := { s with
    blocks := s.blocks ++ (List.range count).map (fun j => (s.nextBlk + j, readyBlock i n k x h count hb j))
    nextBlk := s.nextBlk + count }
  if count = 0 then finishNode s n k else s

/-- R101, R104: errors that lie in what a dispatch reads are found. -/
def findDispatch (s : State) (i : Inst) (x : GNode) : State :=
  if s.latent.isEmpty then s
  else match s.ctx? i.ctx with
    | none => s
    | some c =>
      let s := cpFind s i.ctx c x.khdr 64
      let s := match cpRead s c x.khdr 64 with
        | some l => match parseHeader l with
          | some h =>
            let s := if h.livetab = 0 then s else cpFind s i.ctx c (x.khdr + sext64 h.livetab - 64) 64
            if h.regtab = 0 then s else cpFind s i.ctx c (x.khdr + sext64 h.regtab - 8) 8
          | none => s
        | none => s
      if x.ind then cpFind s i.ctx c x.countVa 4 else s

/-- NODE_DISPATCH (R98, R101, R104, R105). -/
def execNodeDispatch (inst node : Nat) (s : State) : Out :=
  .next (match tget? s.insts inst with
    | none => s
    | some i =>
      if !nodeReady s i node then s
      else match i.nodes[node]?, s.ctx? i.ctx with
        | some x, some c =>
          let s := findDispatch s i x
          (match readHeader s c x.khdr with
           | none => failNode s inst 5
           | some h =>
             if !x.ind then dispatchNode s inst node i x h (bitsN x.blocks.toNat 0 32 + 1)
             else match readCount s c x.countVa with
               | none => failNode s inst 6
               | some k => dispatchNode s inst node i x h k)
        | _, _ => s)

end Sys2Proof.Machine
end

