-- ==== Sys2Proof/Machine/Place.lean ====
section
/-! DEFINITION. The device scheduler: acceptance (R108), placement (R110 to R112), the start state (R103), pre-emption by
priority (R113), block frames (R164), restores and relocations (R118), and resumption from phase records (R28, R117). -/

namespace Sys2Proof.Machine

/-! Lanes and operand store of a core. -/

/-- A group that counts in the 64 of its lane: not exited, not saved whole (R144, R164). -/
def holdsLane (x : Block) (g : Nat) (y : Group) : Bool := y.q.status != .exited && !x.wholeSaved.contains g

/-- R145: the partner lane. -/
def partner (l : Nat) : Nat := if l / 8 % 2 = 0 then l + 8 else l - 8

/-- R108, R145: one more group on a lane, and on its partner in paired-lane mode. -/
def addLoad (paired : Bool) (ls : List Nat) (l : Nat) : List Nat :=
  let ls := lmod ls l (· + 1)
  if paired then lmod ls (partner l) (· + 1) else ls

/-- The groups of each lane of a core. -/
def laneLoads (s : State) (c : Nat) : List Nat :=
  (residents s).foldl (fun ls b =>
    if b.2.core = c then
      (lmapIx 0 (fun g y => (g, y)) b.2.groups).foldl (fun ls z => if holdsLane b.2 z.1 z.2 then addLoad b.2.opts.paired ls z.2.q.lane else ls) ls
    else ls) (List.replicate 64 0)

/-- R111: the lane of partition p with the fewest groups, the lowest on a tie, if one has room. -/
def pickLane (paired : Bool) (ls : List Nat) (p : Nat) : Option Nat :=
  ((List.range 16).map (16 * p + ·)).foldl (fun (r : Option Nat) l =>
    if 64 ≤ ls.getD l 64 || (paired && 64 ≤ ls.getD (partner l) 64) then r
    else match r with
      | none => some l
      | some m => if ls.getD l 0 < ls.getD m 0 then some l else r) none

/-- R111: partition p, or the next in ascending order modulo 4 that has room. -/
def pickFrom (paired : Bool) (ls : List Nat) (p : Nat) : Option Nat :=
  (List.range 4).findSome? (fun k => pickLane paired ls ((p + k) % 4))

/-- R111: lanes for the groups `gs` of a block, given p₀. -/
def assignLanes (paired : Bool) (p0 : Nat) : List Nat → List Nat → Option (List (Nat × Nat))
  | [], _ => some []
  | g :: r, ls =>
    match pickFrom paired ls ((p0 + g) % 4) with
    | none => none
    | some l => match assignLanes paired p0 r (addLoad paired ls l) with
      | none => none
      | some m => some ((g, l) :: m)

/-- R186, R155: bytes of a block's record and the allocations of its groups, less those of groups saved whole, in granules; and the
operand store it holds. -/
def recordBytes (x : Block) : Nat := roundUp (1024 + (x.h.groups - x.wholeSaved.length) * groupAlloc x.h) 4096
def heldBytes (x : Block) : Nat := recordBytes x + roundUp x.h.scratch 4096
def usedBytes (s : State) (c : Nat) : Nat := (residents s).foldl (fun k b => if b.2.core = c then k + heldBytes b.2 else k) 0
def blocksOn (s : State) (c : Nat) : Nat := ((residents s).filter (fun b => b.2.core == c)).length

/-- The groups of a block that take a lane when it is placed: every group of a new block, the unfinished ones of a saved one. -/
def toPlace (x : Block) : List Nat :=
  if x.life == .ready then List.range x.h.groups
  else (lmapIx 0 (fun g (y : Group) => (g, y)) x.groups).filterMap (fun z => if z.2.q.status == .exited then none else some z.1)

/-- R69, R75, R28: the core takes blocks. -/
def coreTakes (s : State) (c : Nat) : Bool :=
  let k := s.core c
  k.enabled && !k.quar && (s.reg (s.cluster (clusterOf c)).rail).on && !s.sh.railsOff

/-- R108: the core can accept the block: the lanes of its groups. -/
def accepts (s : State) (c : Nat) (x : Block) : Option (List (Nat × Nat)) :=
  if coreTakes s c && usedBytes s c + footprint x.h ≤ 2 ^ 24 && blocksOn s c < 1024 then
    assignLanes x.opts.paired ((s.core c).placed % 4) (toPlace x) (laneLoads s c)
  else none

/-- R110: inserts a core by free operand store, most first, then by number. -/
def insertCore (used : Nat → Nat) (c : Nat) : List Nat → List Nat
  | [] => [c]
  | d :: r => if used c < used d || (used c == used d && c % 8 < d % 8) then c :: d :: r else d :: insertCore used c r

/-- R110: the cores of a cluster that can accept each of the blocks, best first. -/
def qualifying (s : State) (k : Nat) (xs : List Block) : List Nat :=
  ((List.range 8).map (fun j => holder s (8 * k + j))).foldl (fun l c =>
    if xs.all (fun x => (accepts s c x).isSome) then insertCore (usedBytes s) c l else l) []

/-- R110: resident groups of a cluster. -/
def clusterGroups (s : State) (k : Nat) : Nat :=
  (residents s).foldl (fun n b =>
    if clusterOf b.2.core = k then n + ((lmapIx 0 (fun g y => holdsLane b.2 g y) b.2.groups).filter id).length else n) 0

/-- R109: the clusters of a tenant. -/
def tenantClusters (s : State) (t : Nat) : List Nat := (List.range 96).filter (fun k => (tget s.sh.cluset t 0).getLsbD k)

/-- R110: the cluster for a troupe, and its cores. -/
def bestCluster (s : State) (ks : List Nat) (xs : List Block) : Option (Nat × List Nat) :=
  ks.foldl (fun (r : Option (Nat × List Nat)) k =>
    let q := qualifying s k xs
    if q.length < xs.length then r
    else match r with
      | none => some (k, q)
      | some m => if clusterGroups s k < clusterGroups s m.1 then some (k, q) else r) none

/-! Record-area slots. -/

/-- R115: the slots in use in a context's record area. -/
def usedSlots (s : State) (ctx : Word) : List (Nat × Nat) :=
  s.blocks.filterMap (fun c => if c.2.ctx == ctx && (c.2.life == .resident || c.2.life == .saved) then some (c.2.slot, c.2.slot + slotSize c.2.h) else none)

/-- R115: the lowest place with `n` free bytes. -/
def findSlot (s : State) (ctx : Word) (n : Nat) : Option Nat :=
  match s.ctx? ctx with
  | none => none
  | some c =>
    let used := usedSlots s ctx
    let fits (p : Nat) : Bool := p + n ≤ c.recbase + 65536 * c.recsize && used.all (fun u => p + n ≤ u.1 || u.2 ≤ p)
    let ps := (used.map (·.2)).foldl insertNat [c.recbase]
    ps.find? (fun p => c.recbase ≤ p && fits p)

/-! Undervolting. -/

/-- R32: the conditions under which a rail runs undervolted. -/
def uvHolds (s : State) (x : Nat) : Bool :=
  (s.reg x).uvEn && !(s.reg x).shared && (residents s).all (fun b => (s.cluster (clusterOf b.2.core)).rail != x || b.2.opts.underv)

/-- R33: the rail returns to nominal where they do not hold. -/
def uvCheck (s : State) (x : Nat) : State := if uvHolds s x then s else modReg s x (fun r => { r with step := 0 })

/-! The start of groups. -/

/-- R103: the start words. -/
def startWords (x : Block) : List Word :=
  (List.range 16).map (fun k => x.args.getD k 0) ++ [BitVec.ofNat 32 x.idx, BitVec.ofNat 32 (x.idx / 2 ^ 32), BitVec.ofNat 32 x.troupe, BitVec.ofNat 32 x.count]

def startRegs (x : Block) : GRegs :=
  { v := [], s := (lmapIx 0 (fun k w => (k, w)) ((startWords x).take x.h.sregs)).foldl (fun t c => wset t c.1 c.2) [], vw := 0, sw := 0,
    seed := 0, tail := 0, tailOpen := true, resume := [], sticky := 0, tcode := 0, frame := List.replicate 8 0, phx := 0, rlatch := 0, wlatch := none }

def startThread (now : Nat) (pc : Word) : Thread :=
  { pc := pc, live := true, meet := none, region := regionAt pc none 0 0 now, skip := 0, latch := [], event := false, cont := none }

def startEng : GEng :=
  { copy := 0, gath := 0, coll := 0, prom := 0, ops := [], prefs := [], gang := none, mmaWait := none, mma := none, vpend := [], spend := [],
    returns := [], takes := [] }

def startSched (lane age : Nat) : GSched :=
  { status := .pending, lane := lane, age := age, ready := none, forced := false, passed := false, rollback := false, hint := none,
    pipe := { v := [], s := [], b := [] }, pipe2 := { v := [], s := [], b := [] } }

/-- R103: a group at its start. -/
def startGroup (s : State) (x : Block) (uid lane age : Nat) : Group :=
  { uid := uid, thr := List.replicate 32 (startThread s.now x.h.entry), r := startRegs x, handler := none, log := [], e := startEng,
    q := startSched lane age, d := { w0 := none, w1 := none, haltReq := false, step := false, skip := none, haltPc := 0 },
    c := Cons.start s.stamp x.hb, a := AssayG.off }

/-- The lane of group g, from an assignment. -/
def laneOf (m : List (Nat × Nat)) (g : Nat) : Nat := match m.find? (fun z => z.1 == g) with | some z => z.2 | none => 0

/-- R111, R135: the core counts a placement and the ages it gives. -/
def countPlaced (s : State) (c n : Nat) : State := modCore s c (fun k => { k with placed := k.placed + 1, ages := k.ages + n })

/-- R186: the granules of a core's operand store that its blocks hold. -/
def storeUsed (s : State) (c : Nat) : List Nat := (residents s).flatMap (fun b => if b.2.core = c then b.2.store else [])

/-- The first granule from `k` on, around the end of the store, that is not in use. -/
def storeFree (used : List Nat) : Nat → Nat → Nat
  | 0, k => k
  | n + 1, k => if used.contains k then storeFree used n ((k + 1) % 4096) else k

/-- R186: `n` granules, anywhere in the store; where is free (log entry 37). -/
def takeGrans : Nat → List Nat → List Nat → State → List Nat × State
  | 0, _, l, s => (l, s)
  | n + 1, used, l, s =>
    let z := choose s 4096
    let k := storeFree used used.length z.1
    takeGrans n (k :: used) (l ++ [k]) z.2
def takeMore (s : State) (c n : Nat) : List Nat × State := takeGrans n (storeUsed s c) [] s
/-- R186: a block's granules: those of its scratch, in order, then those of its record and its groups. -/
def takeStore (s : State) (c : Nat) (x : Block) : List Nat × State := takeMore s c (heldBytes x / 4096)

/-- R103, R110, R119: a new block becomes resident on a core. -/
def placeNew (s : State) (b c : Nat) : State :=
  match s.blk? b with
  | none => s
  | some x => match accepts s c x, findSlot s x.ctx (slotSize x.h) with
    | some m, some slot =>
      let z := takeStore s c x
      let s := z.2
      let age := (s.core c).ages
      let gs := (List.range x.h.groups).map (fun g => startGroup s x (s.nextUid + g) (laneOf m g) (age + g))
      let s := clearRange s (scrLoc b 0) (2 ^ 23)
      let s := setBlk { s with nextUid := s.nextUid + x.h.groups } b
        { x with life := .resident, core := c, placed := s.nextUid, slot := slot, store := z.1, groups := gs, start := s.etm c,
                 relocate := false, avoid := none }
      let s := countPlaced s c x.h.groups
      let s := uvCheck s (s.cluster (clusterOf c)).rail
      foldS (fun g s => assayStart s b g) (List.range x.h.groups) s
    | _, _ => s

/-! Frames: what a save carries. -/

/-- R163: the registers of one kind that a liveness entry names. -/
def liveRegs (e : List Byte) (scalar : Bool) : List Nat :=
  let n := if scalar then leNat ((e.drop 64).take 24) else leNat (e.take 64)
  (List.range (if scalar then 192 else 512)).filter (fun k => n.testBit k)

/-- R163: the scratch ranges it names. -/
def liveRanges (e : List Byte) : List (Nat × Nat) :=
  (List.range 4).filterMap (fun k =>
    let n := leNat ((e.drop (100 + 8 * k)).take 4)
    if n = 0 then none else some (leNat ((e.drop (96 + 8 * k)).take 4), n))

/-- R118, R164: the registers that a group's frame carries: at a LIVE point those of its entry, at a boundary the carry
registers, of a group saved whole every declared register; of a packed group without a live thread none (R178). -/
def carried (h : Header) (y : Group) (scalar : Bool) : List Nat :=
  match y.q.status with
  | .stopped (some e) => liveRegs e scalar
  | .stopped none => carryList h scalar
  | _ => if y.liveList.isEmpty then [] else List.range (if scalar then h.sregs else h.vregs)

def atBoundary (y : Group) : Bool := match y.q.status with | .stopped none => true | _ => false
def atLive (y : Group) : Bool := match y.q.status with | .stopped (some _) => true | _ => false

/-- The unfinished groups of a block; and, of these, the live ones: a packed group that no live thread is in (R178) is none. -/
def unfinished (x : Block) : List (Nat × Group) :=
  (lmapIx 0 (fun g (y : Group) => (g, y)) x.groups).filter (fun z => z.2.q.status != .exited)
def liveGroups (x : Block) : List (Nat × Group) := (unfinished x).filter (fun z => x.map.isEmpty || !z.2.liveList.isEmpty)

/-- R164: byte 9 of a frame. -/
def frameForm (x : Block) : Nat :=
  if (liveGroups x).all (fun z => atBoundary z.2) then 2
  else if (liveGroups x).all (fun z => atBoundary z.2 || atLive z.2) then 1 else 3

/-- R164: the scratch ranges that a frame of form 1 or 3 carries; one that holds a group saved whole carries all. -/
def frameRanges (x : Block) : List (Nat × Nat) :=
  if frameForm x = 3 then (if x.h.scratch = 0 then [] else [(0, x.h.scratch)])
  else (liveGroups x).flatMap (fun z => match z.2.q.status with | .stopped (some e) => liveRanges e | _ => [])

/-- R164: bytes of one group in a frame. -/
def groupFrameSize (x : Block) (y : Group) : Nat :=
  2048 + roundUp (128 * (carried x.h y false).length + 4 * (carried x.h y true).length) 64

/-- R164: where the registers of group g begin in the frame. -/
def groupFrameOff (x : Block) (g : Nat) : Nat :=
  (liveGroups x).foldl (fun k z => if z.1 < g then k + groupFrameSize x z.2 else k) 1088 + 2048

/-- R164: the frame header. -/
def frameHeader (x : Block) : List Byte :=
  leBytes 8 x.idx ++ [BitVec.ofNat 8 x.h.groups, BitVec.ofNat 8 (frameForm x), 0, 0] ++
  leBytes 4 (listMask ((liveGroups x).map (·.1))).toNat ++ List.replicate 48 0

/-- Bytes whose content the spec does not lay out (R107). -/
def openBytes (s : State) (n : Nat) : List Byte × State :=
  ((List.range n).map (Config.frameByte s.free), { s with free := s.free + 1 })

/-- Writes bytes the spec leaves open. -/
def writeOpen (s : State) (a n : Nat) : State := let r := openBytes s n; devWrite r.2 a r.1

/-- R164: one group's part of the frame. -/
def saveGroup (x : Block) (z : Nat × Group) (s : State) : State :=
  let a := x.slot + groupFrameOff x z.1
  let regs := (carried x.h z.2 false).flatMap (vregBytes z.2) ++ (carried x.h z.2 true).flatMap (sregBytes z.2)
  devWrite (writeOpen s (a - 2048) 2048) a (regs ++ List.replicate (roundUp regs.length 64 - regs.length) 0)

/-- R164: the save engine writes the frame; named scratch ranges go to their place in the slot's shadow. -/
def saveFrame (s : State) (b : Nat) : State :=
  match s.blk? b with
  | none => s
  | some x =>
    let s := writeOpen (devWrite s x.slot (frameHeader x)) (x.slot + 64) 1024
    let s := foldS (fun (r : Nat × Nat) s => moveBytes s x.ctx (scrLoc b r.1) (x.slot + shadowOff x.h + r.1) r.2) (frameRanges x) s
    foldS (saveGroup x) (liveGroups x) s

/-- R40: the deadlines of a group become times still to go, and again deadlines on the ETM of its next core. -/
def holdTimes (etm : Nat) (y : Group) : Group :=
  { y with
    e := { y.e with prefs := y.e.prefs.map (fun p => { p with deadline := p.deadline - etm }) }
    q := { y.q with status := match y.q.status with
      | .parked (.sleep d) o => .parked (.sleep (d - etm)) o
      | st => st } }
def resumeTimes (etm : Nat) (y : Group) : Group :=
  { y with
    e := { y.e with prefs := y.e.prefs.map (fun p => { p with deadline := p.deadline + etm }) }
    q := { y.q with status := match y.q.status with
      | .parked (.sleep d) _ => .parked (.sleep (d + etm)) false
      | st => st } }

/-- Every group of a block by place. -/
def forGroups (s : State) (b : Nat) (f : Nat → State → State) : State :=
  match s.blk? b with
  | none => s
  | some x => foldS f ((unfinished x).map (·.1)) s

/-- R162, R167, R106, R249: a group stands at a point, or is parked or Halted; one in the rendezvous latch or at a barrier, or with a
suspended copy, does not. A block does once each of its unfinished groups does and nothing of it is under way. -/
def reachedPoint (x : Block) (g : Nat) (y : Group) : Bool :=
  (x.wholeSaved.contains g || (match y.q.status with
    | .stopped _ => true
    | .parked _ _ => true
    | .halted _ => !x.bwait.any (fun c => c.1 == g)
    | _ => false)) && y.e.mmaWait.isNone && y.e.ops.all (fun o => o.susp.isNone)
def atPoint (x : Block) : Bool :=
  (liveGroups x).all (fun z => reachedPoint x z.1 z.2) &&
  (unfinished x).all (fun z => z.2.e.ops.isEmpty && z.2.e.returns.isEmpty && z.2.e.mma.isNone && !z.2.q.rollback)

/-- R118: every unfinished group stands at a phase boundary or a LIVE point. -/
def allStopped (x : Block) : Bool := (liveGroups x).all (fun z => atBoundary z.2 || atLive z.2)

/-- R215: a store or atomic of the group is held at the memory side. -/
def holdsStore (s : State) (b g : Nat) : Bool := s.migs.any (fun m => m.held.any (fun h => h.1 == b && h.2.1 == g))

/-- R162, R118, R215: the block may leave its core: at a point, or at a boundary or LIVE point where no pre-emption is pending, with no
store of it held in transit. -/
def mayLeave (s : State) (b : Nat) (x : Block) : Bool :=
  !(liveGroups x).isEmpty && atPoint x && (x.preempt || allStopped x) && (unfinished x).all (fun z => !holdsStore s b z.1)

/-- R119, R164, R232: the block is saved: its groups publish at `.dev`, the frame is written, and it leaves its core. -/
def saveBlock (s : State) (b : Nat) : State :=
  let s := forGroups s b (fun g s => publish (leaveLane s b g) b g .dev)
  let s := saveFrame s b
  match s.blk? b with
  | none => s
  | some x =>
    let etm := s.etm x.core
    let s := if x.preempt || x.avoid.isSome then note 97 x.preBy (x.groups.length * frameSize x.h) s else s
    let s := setBlk s b { x with
      life := .saved, preempt := false, preBy := 16, wholeSaved := [], form := frameForm x, groups := x.groups.map (holdTimes etm) }
    uvCheck s (s.cluster (clusterOf x.core)).rail

/-! Restores. -/

/-- R61, R63: bytes of a record area that a restore reads: errors that lie there are found. DESIGN CHOICE (log 47): the spec names no
effect of a poisoned sector on a restore, and a value that reaches a register has passed its checks: each of its bytes is free. -/
def readSaved (s : State) (ctx : Word) (a n : Nat) : List Byte × State :=
  let s := findErrors s a n 1 s.now (some ctx)
  if poisoned s a n then
    ((List.range n).map (fun k => if poisoned s (a + k) 1 then Config.frameByte s.free k else mget s.mem (a + k)), { s with free := s.free + 1 })
  else (mgetN s.mem a n, s)

/-- R164: the registers that the frame carries, from their bytes. -/
def loadRegs (l : List Byte) (x : Block) (y : Group) : Group :=
  let vs := carried x.h y false
  let ss := carried x.h y true
  let rd (k : Nat) : Word := BitVec.ofNat 32 (fieldN l (4 * k) 4)
  let v := (List.range (32 * vs.length)).foldl (fun t k => wset t (32 * vs.getD (k / 32) 0 + k % 32) (rd k)) y.r.v
  let sc := (List.range ss.length).foldl (fun t k => wset t (ss.getD k 0) (rd (32 * vs.length + k))) y.r.s
  { y with r := { y.r with v := v, s := sc } }

/-- R103, R164: a register outside the frame reads zero on another core. -/
def onlyRegs (vs ss : List Nat) (y : Group) : Group :=
  { y with r := { y.r with v := y.r.v.filter (fun c => vs.contains (c.1 / 32)), s := y.r.s.filter (fun c => ss.contains c.1) } }

/-- R164: the registers of a restored group. -/
def restoreRegs (s : State) (b g : Nat) (same : Bool) : State :=
  match s.blk? b with
  | none => s
  | some x => match x.groups[g]? with
    | none => s
    | some y =>
      let vs := carried x.h y false
      let ss := carried x.h y true
      let s := if same then dropBut s b g vs ss else modGrp s b g (onlyRegs vs ss)
      let z := readSaved s x.ctx (x.slot + (if atBoundary y then recordOff x.h g + 192 else groupFrameOff x g)) (128 * vs.length + 4 * ss.length)
      modGrp z.2 b g (loadRegs z.1 x)

/-- R117: a granule of a refilled scratch: class H is as it was, class L has lapsed, classes B and W have expired. -/
def refilled (x : Block) (k : Nat) : Option (Nat × Gran) :=
  let g := scrGran x (4096 * k)
  if g.cls = 0 || g.freed then (if (tget? x.grans k).isSome then some (k, g) else none)
  else some (k, { g with start := 0, spanEnd := 0, expiry := 0 })

/-- R117: scratch from the shadow. -/
def refillShadow (s : State) (b : Nat) : State :=
  match s.blk? b with
  | none => s
  | some x =>
    let ks := List.range (x.h.scratch / 4096)
    let s := foldS (fun k s => if (scrGran x (4096 * k)).cls = 0 && x.shadowed.contains k then
        moveBytes s x.ctx (x.slot + shadowOff x.h + 4096 * k) (scrLoc b (4096 * k)) 4096 else s)
      ks (clearRange s (scrLoc b 0) (2 ^ 23))
    modBlk s b (fun x => { x with grans := ks.filterMap (refilled x), dirty := [] })

/-- A byte of scratch lies in a range. -/
def inRanges (rs : List (Nat × Nat)) (o : Nat) : Bool := rs.any (fun r => r.1 ≤ o && o < r.1 + r.2)

/-- R164, R118, R117: scratch at a restore from a LIVE point: the frame's ranges over, on another core, the shadow, and zero where it
holds nothing; on the same core another byte is its old value or zero. Lifetimes are not carried (R40, R117). -/
def restoreRanges (s : State) (b : Nat) (same : Bool) : State :=
  match s.blk? b with
  | none => s
  | some x =>
    let rs := frameRanges x
    let base := scrLoc b 0
    let loose := s.mem.filterMap (fun c => if base ≤ c.1 && c.1 < base + 2 ^ 23 && !inRanges rs (c.1 - base) then some c.1 else none)
    let s := foldS (fun a s => let k := choose s 2; if same && k.1 == 0 then k.2 else { k.2 with mem := mset k.2.mem a 0 }) loose s
    let s := { s with hist := s.hist.filter (fun w => w.loc < base || base + 2 ^ 23 ≤ w.loc) }
    let ks := List.range (x.h.scratch / 4096)
    let s := if same then s else foldS (fun k s => if (scrGran x (4096 * k)).cls = 0 && x.shadowed.contains k then
        moveBytes s x.ctx (x.slot + shadowOff x.h + 4096 * k) (base + 4096 * k) 4096 else s) ks s
    let s := foldS (fun (r : Nat × Nat) s => moveBytes s x.ctx (x.slot + shadowOff x.h + r.1) (base + r.1) r.2) rs s
    modBlk s b (fun x => { x with grans := ks.filterMap (refilled x), dirty := ks })

/-- R144, R162, R167: how a restored group goes on. A group parked on a page or for the end of its context stays parked while
its entry stands; one parked on a queue tries again. -/
def resumeStatus (s : State) (y : Group) : Group :=
  match y.q.status with
  | .exited => y
  | .parked (.sleep _) _ => y
  | .parked (.entry _ _) _ => y
  | .halted _ => y
  | .parked (.page t) _ => if s.pfaults.any (fun p => p.token == t) then y else setStatus .pending y
  | _ => setStatus .pending y

/-- R111, R135, R152, R232: the lanes, ages, latches and views of the groups of a restored block, whose results have all arrived (R132). -/
def settleGroups (s : State) (b c : Nat) (m : List (Nat × Nat)) : State :=
  let age := (s.core c).ages
  let etm := s.etm c
  let s := modBlk s b (fun x => { x with groups := lmapIx 0 (fun g (y : Group) =>
    if y.q.status == .exited then y
    else
      let y := resumeStatus s (resumeTimes etm (emptyLatches y))
      let none' : Pipe := { v := [], s := [], b := [] }
      { y with q := { y.q with lane := laneOf m g, age := age + g, ready := none, forced := false, passed := false, pipe := none', pipe2 := none' },
               c := Cons.resume s.stamp s.flushed y.c }) x.groups })
  forGroups { s with stamp := s.stamp + 1 } b (fun g s => acquire s b g .dev)

/-- R28, R115: a group resumes at the start of its phase, from the bytes of its phase record's copy. Phase 0 starts as in R103. -/
def fromRecord (s : State) (l : List Byte) (x : Block) (y : Group) : Group :=
  let fresh := startGroup s x y.uid y.q.lane y.q.age
  let keep (z : Group) : Group := { z with c := y.c, e := { z.e with takes := y.e.takes.map (fun k => { k with again := true }) } }
  if y.r.phx = 0 then keep fresh
  else
    let w (o : Nat) : Word := BitVec.ofNat 32 (fieldN l o 4)
    let meet (t : Nat) : Option Word := if w (64 + 4 * t) = 0xFFFFFFFF then none else some (w (64 + 4 * t))
    let vw := fieldN l 12 2
    let sw := fieldN l 14 2
    let thr := (List.range 32).map (fun t =>
      if (w 4).getLsbD t then
        { startThread s.now (w 8) with meet := meet t, region := regionAt (w 8) (meet t) vw sw s.now }
      else Thread.dead)
    let z : Group := { fresh with
      thr := thr
      r := { startRegs { x with h := { x.h with sregs := 0 } } with
        vw := vw, sw := sw, phx := w 0, sticky := (w 16).setWidth 9, seed := w 20 }
      q := { fresh.q with status := .stopped none } }
    keep (loadRegs (l.drop 192) x z)

/-- R28, R117: the block's groups start their phases over: the state of its barriers and of the regrouping starts anew. -/
def replayGroup (s : State) (b g : Nat) : State :=
  match s.blk? b with
  | none => s
  | some x => match x.groups[g]? with
    | none => s
    | some y =>
      let z := if y.r.phx = 0 then ([], s) else readSaved s x.ctx (x.slot + recordOff x.h g) (phaseSize x.h)
      modGrp z.2 b g (fromRecord z.2 z.1 x)
def replayPhases (s : State) (b : Nat) : State :=
  modBlk (forGroups s b (fun g s => replayGroup s b g)) b (fun x => { x with bars := [], bwait := [], arr := [], map := [] })

/-- R111, R118, R119, R164: a saved block becomes resident on a core again. -/
def restoreBlock (s : State) (b c : Nat) : State :=
  match s.blk? b with
  | none => s
  | some x => match accepts s c x with
    | none => s
    | some m =>
      let same := x.core == c
      let s := note 98 (ctxTenant s x.ctx) (x.groups.length * frameSize x.h) s
      let z := takeStore s c x
      let s := setBlk z.2 b { x with core := c, life := .resident, placed := s.nextUid, store := z.1, relocate := false, avoid := none }
      let s := if x.form = 4 then refillShadow (replayPhases s b) b
        else
          let s := forGroups s b (fun g s => restoreRegs s b g same)
          if x.form = 2 then refillShadow s b else restoreRanges s b same
      let s := countPlaced (settleGroups { s with nextUid := s.nextUid + 1 } b c m) c x.groups.length
      uvCheck s (s.cluster (clusterOf c)).rail

/-! Troupes. -/

/-- The blocks of a troupe, by number, and those of them that are not yet finished. -/
def sameTroupe (x y : Block) : Bool := x.inst == y.inst && x.node == y.node && x.troupe == y.troupe
def mates (s : State) (x : Block) : List (Nat × Block) :=
  s.blocks.filter (fun c => sameTroupe x c.2 && c.2.life != .retired)

/-- R28: the context's blocks may be placed. -/
def ctxPlaces (s : State) (ctx : Word) : Bool := match s.ctx? ctx with | some c => !c.killed && !c.unrecoverable | none => false

/-- A troupe waits whole: every unfinished block of it is Ready or Saved. -/
def waiting (s : State) (x : Block) : Bool :=
  (x.life == .ready || x.life == .saved) && ctxPlaces s x.ctx && (mates s x).all (fun c => c.2.life == .ready || c.2.life == .saved)

/-- Lexicographic order. -/
def ltList : List Nat → List Nat → Bool
  | a :: r, b :: t => a < b || (a == b && ltList r t)
  | _, _ => false

/-- R113, R110: the order of a grid's ready list: those pre-empted first, then troupe index, block. -/
def gridKey (b : Nat) (x : Block) : List Nat := [bit (x.life != .saved), x.troupe, b]

/-- R112: the order of the heads of a tenant's grids: priority, launch, troupe index; two grids of one launch whose heads have one index
go by node (log entry 33). -/
def troupeKey (b : Nat) (x : Block) : List Nat := [15 - x.opts.prio, x.inst, x.troupe, x.node, b]

/-- The first of some blocks by a key. -/
def firstBy (key : Nat → Block → List Nat) (l : List (Nat × Block)) : Option (Nat × Block) :=
  l.foldl (fun (r : Option (Nat × Block)) c => match r with
    | none => some c
    | some d => if ltList (key c.1 c.2) (key d.1 d.2) then some c else r) none

/-- R112: the troupe of a tenant that is next, by its first block: the first of the heads of its grids. -/
def headTroupe (s : State) (t : Nat) : Option (Nat × Block) :=
  let ws := s.blocks.filter (fun c => c.2.opts.tenant == t && waiting s c.2)
  let heads := ws.filter (fun c => (firstBy gridKey (ws.filter (fun d => d.2.inst == c.2.inst && d.2.node == c.2.node))).any (fun h => h.1 == c.1))
  firstBy troupeKey heads

/-- R110: places the blocks of a troupe on the cores, in ascending block index. -/
def placeOn (s : State) (bs : List (Nat × Block)) (cs : List Nat) : State :=
  foldS (fun (z : (Nat × Block) × Nat) s => if z.1.2.life == .ready then placeNew s z.1.1 z.2 else restoreBlock s z.1.1 z.2) (bs.zip cs) s

/-- R115: the slots of the troupe's new blocks fit. -/
def slotsFit (s : State) (bs : List (Nat × Block)) : Bool :=
  match bs with
  | [] => true
  | (b, x) :: r =>
    if x.life != .ready then slotsFit s r
    else match findSlot s x.ctx (slotSize x.h) with
      | none => false
      | some p => slotsFit (setBlk s b { x with life := .resident, slot := p }) r

/-- R110, R75: the clusters of a tenant that may take a troupe: another than the one it is relocated from. -/
def troupeClusters (s : State) (t : Nat) (bs : List (Nat × Block)) : List Nat :=
  (tenantClusters s t).filter (fun k => !bs.any (fun c => c.2.avoid == some k))

/-- R110, R112: places a waiting troupe, if it fits somewhere in its tenant's clusters; the cluster records the tenant. -/
def placeTroupe (s : State) (t : Nat) (x : Block) : Option State :=
  let bs := mates s x
  if !slotsFit s bs then none
  else match bestCluster s (troupeClusters s t bs) (bs.map (·.2)) with
    | none => none
    | some (k, cs) => some (modCluster (placeOn s bs cs) k (fun y => { y with lastTenant := some t }))

/-! Pre-emption by priority (R113). -/

/-- The state as it would be with these blocks evicted. -/
def without (s : State) (bs : List Nat) : State :=
  { s with blocks := s.blocks.map (fun c => if bs.contains c.1 then (c.1, { c.2 with life := .saved }) else c) }

/-- R113: the order of eviction on a cluster: the lowest priority first, then the most recently placed. DESIGN CHOICE (log 33): of two
grids of one priority the blocks are taken together, by their placement. -/
def insertVictim (c : Nat × Block) : List (Nat × Block) → List (Nat × Block)
  | [] => [c]
  | d :: r =>
    if c.2.opts.prio < d.2.opts.prio || (c.2.opts.prio == d.2.opts.prio && d.2.placed < c.2.placed) then c :: d :: r
    else d :: insertVictim c r
def victims (s : State) (k t p : Nat) : List (Nat × Block) :=
  ((residents s).filter (fun c => clusterOf c.2.core == k && c.2.opts.tenant == t && c.2.opts.preempt && c.2.opts.prio < p && !c.2.preempt)).foldl
    (fun l c => insertVictim c l) []

/-- R113: evicts whole troupes in order until the waiting troupe fits on the cluster; answers the blocks. -/
def evict (s : State) (k : Nat) (xs : List Block) : List (Nat × Block) → List Nat → Option (List Nat)
  | [], out => if xs.length ≤ (qualifying (without s out) k xs).length then some out else none
  | c :: r, out =>
    if xs.length ≤ (qualifying (without s out) k xs).length then some out
    else evict s k xs r (((mates s c.2).map (·.1)).foldl insertNat out)

/-- R113: the cluster where the fewest blocks must be evicted, and those blocks; what is being pre-empted already counts as gone. -/
def evictChoice (s : State) (t p : Nat) (bs : List (Nat × Block)) : Option (List Nat) :=
  let s0 := without s ((residents s).filterMap (fun c => if c.2.preempt then some c.1 else none))
  ((troupeClusters s t bs).map (fun k => evict s0 k (bs.map (·.2)) (victims s0 k t p) [])).foldl (fun (r : Option (List Nat)) e =>
    match e, r with
    | none, _ => r
    | some l, none => some l
    | some l, some m => if l.length < m.length then some l else r) none

/-- R165: the request is not yet honoured: a placement it names has not left its core. -/
def reqPending (s : State) (r : Nat × List Nat) : Bool := (residents s).any (fun c => c.2.preempt && r.2.contains c.2.placed)

/-- R162, R165: pre-emption of blocks is wanted: one request for each context concerned. A group that waits where it may stop stops at
its next point. -/
def wantPreempt (acct : Nat) (s : State) (bs : List Nat) : State :=
  let xs := bs.filterMap s.blk?
  let s := foldS (fun k s => modCtx s k (fun c =>
      { c with preq := c.preq.filter (reqPending s) ++ [(s.now, (xs.filter (fun x => x.ctx == k)).map (·.placed))] })) (xs.map (·.ctx)).eraseDups s
  foldS (fun b s => modBlk s b (fun x => { x with preempt := true, preBy := if x.preempt then x.preBy else acct })) bs s

/-- R113: a troupe that fits nowhere pre-empts. -/
def troupePreempt (s : State) (t : Nat) (x : Block) : State :=
  let bs := mates s x
  if !slotsFit s bs then s
  else match evictChoice s t x.opts.prio bs with
    | some l => wantPreempt t s l
    | none => s

/-! Groups saved whole (R155). -/

/-- R155: a parked group that may be saved whole: it waits for a page, and nothing of it is under way. -/
def mayWhole (x : Block) (g : Nat) (y : Group) : Bool :=
  (match y.q.status with | .parked (.page _) _ => true | _ => false) && !x.wholeSaved.contains g && y.e.ops.isEmpty && y.e.returns.isEmpty && x.map.isEmpty && y.e.mma.isNone

/-- R155, R164: the group's registers, area and operand log go to its part of the frame, and its allocation is freed. -/
def saveWhole (s : State) (t b g : Nat) : State :=
  let s := publish s b g .dev
  match s.blk? b with
  | none => s
  | some x => match x.groups[g]? with
    | none => s
    | some y =>
      let s := devWrite s x.slot (leBytes 8 x.idx ++ [BitVec.ofNat 8 x.h.groups, 3, 0, 0] ++ leBytes 4 (listMask (insertNat x.wholeSaved g)).toNat ++ List.replicate 48 0)
      let s := saveGroup { x with groups := x.groups.map (setStatus .pending) } (g, y) (note 97 t (frameSize x.h) s)
      modBlk s b (fun x =>
        let x := { x with wholeSaved := insertNat x.wholeSaved g }
        { x with store := x.store.take (heldBytes x / 4096) })

/-- R155: the parked groups on a tenant's clusters that may be saved, in ascending place. -/
def wholeCandidates (s : State) (t : Nat) : List (Nat × Nat) :=
  let ks := tenantClusters s t
  (residents s).flatMap (fun c =>
    if ks.contains (clusterOf c.2.core) then
      (lmapIx 0 (fun g (y : Group) => (g, y)) c.2.groups).filterMap (fun z => if mayWhole c.2 z.1 z.2 && !holdsStore s c.1 z.1 then some (c.1, z.1) else none)
    else [])

/-- R155: saves parked groups until the troupe fits; `none` if it never does. -/
def saveUntil (s : State) (t : Nat) (x : Block) : List (Nat × Nat) → Option State
  | [] => placeTroupe s t x
  | (b, g) :: r => match placeTroupe s t x with
    | some s => some s
    | none => saveUntil (saveWhole s t b g) t x r

/-- R110, R113, R155: one tenant's turn: its next troupe is placed, if need be after parked groups have been saved (which the
scheduler may do); else lower priorities are pre-empted. -/
def serveTenant (s : State) (t : Nat) : Option State × State :=
  match headTroupe s t with
  | none => (none, s)
  | some (_, x) =>
    match placeTroupe s t x with
    | some s => (some s, s)
    | none =>
      let cs := wholeCandidates s t
      let k := if cs.isEmpty then (0, s) else choose s 2
      let r := if k.1 = 1 then saveUntil k.2 t x cs else none
      match r with
      | some s => (some s, s)
      | none => (none, troupePreempt k.2 t x)

/-- R112: the tenants in their order of service, starting after the one last placed on the cluster. -/
def serviceOrder (s : State) (k : Nat) : List Nat :=
  let first := match (s.cluster k).lastTenant with | some t => t + 1 | none => 0
  ((List.range 16).map (fun j => (first + j) % 16)).filter (fun t => (tget s.sh.cluset t 0).getLsbD k)

/-- R112: serves tenants until one is placed. -/
def serve (s : State) : List Nat → State
  | [] => s
  | t :: r =>
    let z := serveTenant s t
    match z.1 with
    | some s => s
    | none => serve z.2 r

/-- TROUPE_PLACE (R110, R112): room is considered on a cluster. -/
def execTroupePlace (cluster : Fin 96) (s : State) : Out :=
  .next (if s.up then serve s (serviceOrder s cluster.val) else s)

/-! Saves, restores and relocations as steps. -/

/-- R69, R75, R118: a block on a replaced or disabled core stands at a point; the cores that may take it: the one that
replaces its core, else those of its cluster that hold no block of its troupe. -/
def relocateTo (s : State) (b : Nat) : List Nat :=
  match s.blk? b with
  | none => []
  | some x =>
    if x.life != .resident || (s.core x.core).enabled || x.avoid.isSome || !mayLeave s b x then []
    else
      let x0 := { x with life := BLife.saved }
      let h := holder s x.core
      let cs := if h != x.core then [h] else (List.range 8).map (fun j => holder s (8 * clusterOf x.core + j))
      let taken := (mates s x).map (fun c => c.2.core)
      (cs.foldl (fun l c => if (accepts s c x0).isSome && (h != x.core || !taken.contains c) then insertCore (usedBytes s) c l else l) [])

/-- R162, R164, R75: the block may be saved: it is to be pre-empted, or its troupe moves to another cluster, or its core is disabled and
not replaced and no other core of the cluster may take it. -/
def canSave (s : State) (b : Nat) : Bool :=
  match s.blk? b with
  | none => false
  | some x => x.life == .resident && mayLeave s b x &&
      (x.preempt || x.avoid.isSome || (!(s.core x.core).enabled && holder s x.core == x.core && (relocateTo s b).isEmpty))

/-- BLOCK_SAVE (R164). The troupe of a block saved because its core is gone is relocated to another cluster (R75). -/
def execBlockSave (blk : Nat) (s : State) : Out :=
  .next (if !canSave s blk then s
    else match s.blk? blk with
      | none => s
      | some x =>
        let t := saveBlock s blk
        if x.preempt || x.avoid.isSome then t
        else foldS (fun c s => modBlk s c (fun z => { z with avoid := some (clusterOf x.core) })) ((mates t x).map (·.1)) t)

/-- BLOCK_RESTORE (R164): the saved block comes back with its troupe, once that fits. -/
def execBlockRestore (blk : Nat) (s : State) : Out :=
  .next (match s.blk? blk with
    | none => s
    | some x => if x.life == .saved && x.form != 4 && waiting s x then (placeTroupe s x.opts.tenant x).getD s else s)

/-- RAIL_LOSS_RESUME (R28, R117): the groups of a block that lost its rail start their phases over on live clusters. -/
def execRailLossResume (blk : Nat) (s : State) : Out :=
  .next (match s.blk? blk with
    | none => s
    | some x => if x.life == .saved && x.form == 4 && waiting s x then (placeTroupe s x.opts.tenant x).getD s else s)

/-- BLOCK_RELOCATE (R118): the block moves whole to the core. -/
def execBlockRelocate (blk core : Nat) (s : State) : Out :=
  .next (if (relocateTo s blk).contains core then restoreBlock (saveBlock s blk) blk core else s)

/-- R155: a group saved whole whose entry has woken may come back to its core. -/
def canReturn (s : State) (b g : Nat) : Option (List (Nat × Nat)) :=
  match s.blk? b with
  | none => none
  | some x => match x.groups[g]? with
    | none => none
    | some y =>
      if x.life == .resident && x.wholeSaved.contains g && (match y.q.status with | .parked _ _ => false | _ => true)
          && usedBytes s x.core - heldBytes x + heldBytes { x with wholeSaved := x.wholeSaved.filter (· != g) } ≤ 2 ^ 24 then
        assignLanes x.opts.paired ((s.core x.core).placed % 4) [g] (laneLoads s x.core)
      else none

/-- GROUP_RESTORE (R155): the group is Pending-ready again. -/
def execGroupRestore (blk grp : Nat) (s : State) : Out :=
  .next (match s.blk? blk, canReturn s blk grp with
    | some x, some m =>
      let age := (s.core x.core).ages
      let s := note 98 (ctxTenant s x.ctx) (frameSize x.h) s
      let s := modCore s x.core (fun k => { k with ages := k.ages + 1 })
      let x1 := { x with wholeSaved := x.wholeSaved.filter (· != grp) }
      let z := takeMore s x.core (heldBytes x1 / 4096 - x.store.length)
      let s := setBlk z.2 blk { x1 with store := x.store ++ z.1 }
      let whole := { x with groups := x.groups.map (setStatus .pending) }
      let w := readSaved s x.ctx (x.slot + groupFrameOff whole grp) (128 * x.h.vregs + 4 * x.h.sregs)
      let s := modGrp w.2 blk grp (fun y =>
        let y := loadRegs w.1 x (emptyLatches (setStatus .pending y))
        { y with q := { y.q with lane := laneOf m grp, age := age }, c := Cons.resume s.stamp s.flushed y.c })
      acquire { s with stamp := s.stamp + 1 } blk grp .dev
    | _, _ => s)

end Sys2Proof.Machine
end

