-- ==== Sys2Proof/Machine/Kill.lean ====
section
/-! DEFINITION. The kill of a context (R165), the trap ring (R157, R158), kill and pre-emption requests (R162, R165) and the
watchdogs (R161). -/

namespace Sys2Proof.Machine

/-- R197: a bank that the context holds, or is about to hold, drains to CACHE. -/
def drainBank (now : Nat) (ctx : Word) (k : Bank) : Bank :=
  if (k.drain && k.nextOwner == ctx) || (!k.drain && k.mode != 0 && k.owner == ctx) then
    { k with drain := true, drainAt := if k.drain then k.drainAt else now, nextMode := 0, nextOwner := 0xFFFFFFFF }
  else k

/-- R124: a queue of the context is disabled and its records are discarded. -/
def closeQueue (ctx : Word) (q : Queue) : Queue :=
  if q.en && q.owner == ctx then { q with en := false, slots := [], windows := [], contq := [] } else q

/-- R91, R165: the banks and queues of a context that ends. -/
def endCluster (now : Nat) (ctx : Word) (x : Cluster) : Cluster :=
  { x with banks := x.banks.map (fun c => (c.1, drainBank now ctx c.2)), queues := x.queues.map (fun c => (c.1, closeQueue ctx c.2)) }
def endTiers (s : State) (ctx : Word) : State := { s with clusters := s.clusters.map (fun c => (c.1, endCluster s.now ctx c.2)) }

/-- R159: the context of an entry. -/
def entryCtx (e : List Byte) : Word := BitVec.ofNat 32 (fieldN e 24 4)

/-- R167: no further entry is written for a killed context. -/
def dropEntries (s : State) (ctx : Word) (hp : HPort) : State :=
  modTrap s hp (fun r => { r with held := r.held.filter (fun h => entryCtx h.bytes != ctx) })

/-- R98, R165: the instances of the context complete with KILLED. -/
def killInsts (s : State) (ctx : Word) : State :=
  let s1 := foldS (fun (c : Nat × Inst) s =>
    if c.2.ctx == ctx then reportDone s c.2.port { cseq := 0, sseq := c.2.sseq, kind := 0, status := 7, graph := c.2.graph, bytes := 0, time := s.now, stamp := 0 }
    else s) s.insts s
  { s1 with insts := s1.insts.filter (fun c => c.2.ctx != ctx) }

/-- R165: what resident blocks of the context held on their cores is freed. -/
def freeBlocks (s : State) (ctx : Word) : State :=
  let gone := (s.blocks.filter (fun c => c.2.ctx == ctx)).map (·.1)
  let s := foldS (fun b s => clearRange s (scrLoc b 0) (2 ^ 23)) gone s
  { s with
    blocks := s.blocks.filter (fun c => c.2.ctx != ctx)
    cores := s.cores.map (fun c => (c.1, { c.2 with cur := c.2.cur.filter (fun z => !gone.contains z.2.1), last := c.2.last.filter (fun z => !gone.contains z.2.1) }))
    migs := s.migs.map (fun m => { m with held := m.held.filter (fun h => !gone.contains h.1) }) }

/-- R59: the collectives of a killed context end without status or entry; the other participants are told. -/
def killColls (s : State) (ctx : Word) : State :=
  foldS (fun (c : Nat × Coll) s =>
    match s.blk? c.2.blk with
    | some x => if x.ctx == ctx then
        let s := (collSpread s 1 1 c.2).2
        { (if c.2.fin.isSome then s else (collPoison s c.2).2) with colls := tdel s.colls c.1 }
      else s
    | none => s) s.colls s

/-- R165: the kill takes effect at once. -/
def kill (s : State) (ctx : Word) : State :=
  match s.ctx? ctx with
  | none => s
  | some c =>
    if c.killed then s
    else
      let s := modCtx s ctx (fun c => { c with killed := true, preq := [], lastInst := none, lastClock := [] })
      let s := freeBlocks (killColls s ctx) ctx
      let s := { endTiers s ctx with pfaults := s.pfaults.filter (fun p => p.ctx != ctx) }
      killInsts (dropEntries (dropEntries s ctx .A) ctx .B) ctx

/-! Requests of the host that name a context. -/

/-- R157: the write is refused unless the context was created through the port. -/
def ownCtx (s : State) (hp : HPort) (ctx : Word) : Bool := match s.ctx? ctx with | some c => c.port == hp | none => false
def denied (s : State) (hp : HPort) : State := modHost s hp (fun h => { h with denied := true })

/-- CTXKILL (R165). -/
def execCtxKill (hp : HPort) (ctx : Word) (s : State) : Out :=
  .next (if !s.up then s else if ownCtx s hp ctx then kill s ctx else denied s hp)

/-- The resident blocks of a context. -/
def ctxBlocks (s : State) (ctx : Word) : List (Nat × Block) := (residents s).filter (fun c => c.2.ctx == ctx)

/-- PREQ (R162, R106): pre-emption of the context's grids is requested. DESIGN CHOICE (log 35): of every resident block, whatever its
grid's PREEMPT bit. -/
def execPreemptRequest (hp : HPort) (ctx : Word) (s : State) : Out :=
  .next (if !s.up then s
    else if !ownCtx s hp ctx then denied s hp
    else
      let bs := ctxBlocks s ctx
      if bs.isEmpty then s else wantPreempt 16 s (bs.map (·.1)))

/-- R165: groups of a request's blocks that have not reached a point they are to stop at. -/
def offPoint (s : State) (r : Nat × List Nat) : Nat :=
  (residents s).foldl (fun n c =>
    if c.2.preempt && r.2.contains c.2.placed then n + ((liveGroups c.2).filter (fun z => !reachedPoint c.2 z.1 z.2)).length
    else n) 0

/-- R165: a request of the context that is older than 200 µs and not honoured, by its place. -/
def lateReq (s : State) (c : Context) : Option Nat := c.preq.findIdx? (fun r => r.1 + usTicks 200 ≤ s.now && reqPending s r)
def preemptLate (s : State) (ctx : Word) : Bool := match s.ctx? ctx with | some c => (lateReq s c).isSome | none => false

/-- PREEMPT_TIMEOUT (R165, R159, R160): one entry of KIND 0x08 for the request; the pre-emption stays pending. -/
def execPreemptTimeout (ctx : Word) (s : State) : Out :=
  .next (match s.ctx? ctx with
    | none => s
    | some c => match lateReq s c with
      | none => s
      | some k =>
        let r := c.preq.getD k (0, [])
        let e := entryBytes 8 1 9 0xFF 0xFF 0xFF 0xFF c.tenant 0 s.now ctx 0 (leBytes 4 (offPoint s r) ++ leBytes 4 ((s.now - r.1) / usTicks 1))
        postTrap (modCtx s ctx (fun c => { c with preq := c.preq.eraseIdx k })) c.port { own := false, grp := none, bytes := e })

/-! The trap ring. -/

/-- R158: the first waiting entry can be written. -/
def trapReady (s : State) (hp : HPort) : Bool :=
  let r := (s.port hp).trap
  r.en && !r.held.isEmpty && ringUsed r < ringSize r

/-- TRAP_ENTRY_WRITE (R158): the entry goes to memory, then WIX advances and MSI-X vector 1 is raised. -/
def execTrapEntryWrite (hp : HPort) (s : State) : Out :=
  .next (if !trapReady s hp then s
    else
      let r := (s.port hp).trap
      match r.held with
      | [] => s
      | h :: rest =>
        let s := devWrite s (r.base.toNat + r.wix.toNat % ringSize r * 64) h.bytes
        let s := modPort s hp (fun p =>
          { p with trap := { p.trap with held := rest, wix := r.wix + 1,
                                         open1 := match h.grp with | some g => p.trap.open1 ++ [(r.wix, g.1, g.2)] | none => p.trap.open1 },
                   reg := raiseMsi 1 p.reg })
        match h.grp with
        | some g => modGrp s g.1 g.2 (fun y => match y.q.status with
            | .parked (.entry _ _) o => { y with q := { y.q with status := .parked (.entry hp r.wix.toNat) o } }
            | _ => y)
        | none => s)

/-- R158: entry `n` lies before the index `v`. -/
def passedBy (v n : Word) : Bool := v != n && (v - n).toNat < 2 ^ 31

/-- TRRIX (R158, R151): the host consumes entries; the context of a consumed unhandled fault is killed. -/
def execTrrixWrite (hp : HPort) (v : Word) (s : State) : Out :=
  .next (if !s.up then s
    else
      let done := (s.port hp).trap.open1.filter (fun e => passedBy v e.1)
      let ctxs := done.filterMap (fun e => match s.blk? e.2.1 with | some x => some x.ctx | none => none)
      let s := modTrap s hp (fun r => { r with rix := v, open1 := r.open1.filter (fun e => !passedBy v e.1) })
      foldS (fun c s => kill s c) ctxs s)

/-! Watchdogs. -/

/-- R157: a watchdog's ticks; 0 acts as 1 ms. -/
def wdTicks (v : BitVec 16) : Nat := msTicks (if v = 0 then 1 else v.toNat)

/-- R161: a timer is suspended while a group it waits for is parked, Halted or saved. -/
def suspends (x : Block) (g : Nat) (y : Group) : Bool :=
  x.wholeSaved.contains g || (match y.q.status with | .parked _ _ => true | .halted _ => true | _ => false)

/-- R161: the home groups a barrier still waits for. -/
def missing (x : Block) (r : Barrier) : List Nat := (List.range x.groups.length).filter (fun g => !r.arrived.contains g)

/-- R161: the groups that issue the threads of the groups still waited for. -/
def barSuspended (x : Block) (r : Barrier) : Bool :=
  (missing x r).any (fun g => (g :: hostsOf x g).any (fun k => match x.groups[k]? with | some y => suspends x k y | none => false))

/-- R161, R364: home groups that wait at barrier `id`. -/
def barWaiters (x : Block) (id : Nat) : List Nat :=
  (x.bwait.filterMap (fun c => if c.2.id = id then some c.1 else none)) ++ ((barrierOf x id).hold.filter (fun g => !x.bwait.any (fun c => c.1 == g)))

/-- R161: barrier `id` of a resident block has fired. -/
def barLate (s : State) (b id : Nat) : Bool :=
  match s.blk? b with
  | none => false
  | some x =>
    let r := barrierOf x id
    x.life == .resident && !(barWaiters x id).isEmpty && !barSuspended x r && r.last + wdTicks (s.port (ctxPort s x.ctx)).trap.barwd ≤ coreEdge s x.core

/-- BARRIER_WATCHDOG (R161, R159, R160): an entry of KIND 0x03, then the kill of the context. DESIGN CHOICE (log 35): the entry has no
originating group (R158). -/
def execBarrierWatchdog (blk bar : Nat) (s : State) : Out :=
  .next (match s.blk? blk with
    | none => s
    | some x =>
      if !barLate s blk bar then s
      else
        let r := barrierOf x bar
        let ws := (barWaiters x bar).foldl insertNat []
        let low := ws.headD 0
        let y := x.groups[low]?
        let lane := match y with | some y => y.q.lane | none => 0
        let pc := match y with | some y => y.pcOf (y.liveList.headD 0) | none => 0
        let gone := (List.range x.groups.length).filter (fun g => match x.groups[g]? with | some y => y.liveList.isEmpty | none => true)
        let detail := [BitVec.ofNat 8 bar, BitVec.ofNat 8 x.h.groups, 0, 0] ++ leBytes 4 (listMask r.arrived).toNat ++ leBytes 4 (listMask gone).toNat ++
          leBytes 4 (listMask ws).toNat ++ leBytes 8 x.idx ++ leBytes 4 pc.toNat
        let e := entryBytes 3 1 (dieOf x.core) 0xFF (clusterOf x.core) (x.core % 8) lane (ctxTenant s x.ctx) 0 (s.etm x.core) x.ctx 0 detail
        -- the entry is the event's own: it is written before the kill takes effect
        let s := kill s x.ctx
        postTrap s (ctxPort s x.ctx) { own := true, grp := none, bytes := e })

/-- R161, R181: the members of a waiting gang that have arrived, oldest arrival first. -/
def gangArrived (s : State) (b g : Nat) : List (Nat × Nat × Group) :=
  match s.blk? b with
  | none => []
  | some x => match x.groups[g]? with
    | none => []
    | some y =>
      let ms := match y.e.gang with | some k => k.members | none => [(x.idx % x.h.troupe, g)]
      (mates s x).flatMap (fun c => (lmapIx 0 (fun k z => (c.1, k, z)) c.2.groups).filter (fun z =>
        ms.contains (c.2.idx % c.2.h.troupe, z.2.1) && z.2.2.e.mmaWait.isSome))

/-- R161: every member of a gang, arrived or not. -/
def gangMembers (s : State) (b g : Nat) : List (Nat × Nat × Group) :=
  match s.blk? b with
  | none => []
  | some x => match x.groups[g]? with
    | none => []
    | some y =>
      let ms := match y.e.gang with | some k => k.members | none => [(x.idx % x.h.troupe, g)]
      (mates s x).flatMap (fun c => (lmapIx 0 (fun k z => (c.1, k, z)) c.2.groups).filter (fun z => ms.contains (c.2.idx % c.2.h.troupe, z.2.1)))

/-- When a member arrived. -/
def sinceOf (y : Group) : Nat := match y.e.mmaWait with | some w => w.since | none => 0

/-- R161: the rendezvous of group g's gang has fired; g is the member that arrived first. -/
def rdvLate (s : State) (b g : Nat) : Bool :=
  match s.blk? b with
  | none => false
  | some x => match x.groups[g]? with
    | none => false
    | some y =>
      x.life == .resident && y.e.mmaWait.isSome && (gangArrived s b g).all (fun z => sinceOf y ≤ sinceOf z.2.2) &&
      !(gangMembers s b g).any (fun z => z.2.2.e.mmaWait.isNone && (match s.blk? z.1 with | some x => x.life != .resident || suspends x z.2.1 z.2.2 | none => false)) &&
      sinceOf y + wdTicks (s.port (ctxPort s x.ctx)).trap.rdvwd ≤ coreEdge s x.core

/-- RENDEZVOUS_WATCHDOG (R161, R159, R160): an entry of KIND 0x04, then the kill of the context. DESIGN CHOICE (log 35): the entry has no
originating group (R158). -/
def execRendezvousWatchdog (blk grp : Nat) (s : State) : Out :=
  .next (match s.blk? blk, s.grp? blk grp with
    | some x, some y =>
      if !rdvLate s blk grp then s
      else
        let ms := match y.e.gang with | some k => k.members | none => [(x.idx % x.h.troupe, grp)]
        let here := gangArrived s blk grp
        -- a mask indexes the groups of the entry's block (R159); a group index above 7 has no bit in its byte
        let mask := ((here.filter (fun z => z.1 == blk)).map (fun z => 2 ^ z.2.1)).foldl (· + ·) 0
        let pc := match y.e.mmaWait with | some w => w.pc | none => 0
        let detail := [BitVec.ofNat 8 ms.length, BitVec.ofNat 8 mask, 0, 0] ++ leBytes 4 pc.toNat ++ leBytes 8 x.idx
        let e := entryBytes 4 1 (dieOf x.core) 0xFF (clusterOf x.core) (x.core % 8) y.q.lane (ctxTenant s x.ctx) 0 (s.etm x.core) x.ctx 0 detail
        let s := kill s x.ctx
        postTrap s (ctxPort s x.ctx) { own := true, grp := none, bytes := e }
    | _, _ => s)

end Sys2Proof.Machine
end

