-- ==== Sys2Proof/Machine/Tinker.lean ====
section
/-! DEFINITION. Residue failures, spare lanes and reserve cores (R14, R64, R67 to R69), patrol and refresh (R65, R192), and the
Assayer's jobs (R74, R75). -/

namespace Sys2Proof.Machine

/-! Records. -/

/-- R66: a record of a core, or of one of its lanes, that belongs to no context. -/
def coreRecord (s : State) (kind sev unit c lane : Nat) : State :=
  postBoth s (entryBytes kind sev (dieOf c) unit (clusterOf c) (c % 8) lane 0xFF 0 (s.etm c) 0xFFFFFFFF 0 [])

/-- R66: a record of a lane, for a context or for none. -/
def laneRecord (s : State) (kind sev c lane : Nat) (ctx : Option Word) : State :=
  postRecord s ctx (fun ten k => entryBytes kind sev (dieOf c) 5 (clusterOf c) (c % 8) lane ten 0 (s.etm c) k 0 [])

/-! Cores. -/

/-- R15: good reserve cores of a die. -/
def reserveLeft (s : State) (die : Nat) : Nat := tget s.sh.reserve die (Config.reserve die).val

/-- R191: the granules of a core's overhead banks keep their remaining time on the ETM of the core that takes them over. -/
def rebaseGrans (etmOld etmNew j : Nat) (x : Cluster) : Cluster :=
  { x with grans := x.grans.map (fun c =>
      if bitsN (4096 * c.1) 22 4 / 2 = j && c.2.cls != 0 then
        (c.1, { c.2 with start := c.2.start + etmNew - etmOld, spanEnd := c.2.spanEnd + etmNew - etmOld, expiry := c.2.expiry + etmNew - etmOld })
      else c) }

/-- R69, R14: core `c` is taken out of service: a reserve core takes its number, or it is disabled. -/
def replaceCore (s : State) (c : Nat) : State :=
  if !(s.core c).enabled then s
  else
    let die := dieOf c
    let old := s.etm c
    let s := modCore s c (fun k => { k with enabled := false })
    if reserveLeft s die = 0 then coreRecord s 0x18 2 9 c 0xFF
    else
      let n := c + 768
      let s := setCore s n { Core.reset (c % 768) with t0 := s.now, sync := s.now, reserve := true }
      let s := modSh s (fun h => { h with reserve := tset h.reserve die (reserveLeft s die - 1) })
      let s := modCluster s (clusterOf c) (rebaseGrans old (s.etm n) (c % 8))
      coreRecord s 0x17 2 9 c 0xFF

/-! Lanes. -/

/-- R67: the lane or spare that now has a lane number. -/
def physLane (k : Core) (lane : Nat) : Nat := tget k.spares lane lane

/-- R67: spares in use. -/
def sparesUsed (k : Core) : Nat := k.spares.foldl (fun n c => Nat.max n (c.2 - 63)) 0

/-- R67: groups that issue on a lane of a core, with their partner lanes in paired-lane mode. -/
def laneGroups (s : State) (c lane : Nat) : List (Nat × Nat) :=
  (residents s).flatMap (fun b =>
    if b.2.core = c then
      (liveGroups b.2).filterMap (fun z =>
        if z.2.q.lane = lane || (b.2.opts.paired && partner z.2.q.lane = lane) then some (b.1, z.1) else none)
    else [])

/-- R67, R135: a group moved onto a spare is given a new age. -/
def newAge (s : State) (c b g : Nat) : State :=
  let a := (s.core c).ages
  modGrp (modCore s c (fun k => { k with ages := k.ages + 1 })) b g (fun y => { y with q := { y.q with age := a } })

/-- R67: the Tinker retires lane number `lane` of core `c`: a spare takes its place and its groups restart at their region
entries, but for one that goes on otherwise (R68); a fifth failure is the core's. -/
def retireFor (keep : Nat → Nat → Bool) (s : State) (c lane : Nat) : State :=
  let n := sparesUsed (s.core c)
  let gs := laneGroups s c lane
  let s := if n < 4 then
      let s := coreRecord s 0x15 0 9 c (physLane (s.core c) lane)
      let s := modCore s c (fun k => { k with spares := tset k.spares lane (64 + n) })
      foldS (fun (z : Nat × Nat) s => newAge s c z.1 z.2) gs s
    else replaceCore s c
  foldS (fun (z : Nat × Nat) s => if keep z.1 z.2 then s else rollback s z.1 z.2) gs s
def retireLane (s : State) (c lane : Nat) : State := retireFor (fun _ _ => false) s c lane

/-- R64: a residue failure on lane number `lane` of core `c`, of a group's context or of none: its record, and the lane's
retirement at the second within 1 ms. -/
def countResidue (s : State) (c lane : Nat) (ctx : Option Word) : State :=
  let p := physLane (s.core c) lane
  let s := laneRecord s 0x12 0 c p ctx
  modCore s c (fun k => { k with resid := tset k.resid p (s.etm c) })
def residueFail (s : State) (c lane : Nat) (ctx : Option Word) : State :=
  let again : Bool := match tget? (s.core c).resid (physLane (s.core c) lane) with | some t => s.etm c ≤ t + msTicks 1 | none => false
  let s := countResidue s c lane ctx
  if again then retireLane s c lane else s

/-- IN_FIELD_TEST (R67, R64): a lane is tested; one that fails has a record and is retired. -/
def execInFieldTest (core : Nat) (lane : Fin 64) (fails : Bool) (s : State) : Out :=
  .next (if fails && decide (core < 768) && (s.core (holder s core)).enabled then
    retireLane (countResidue s (holder s core) lane.val none) (holder s core) lane.val else s)

/-! Patrol and refresh. -/

/-- PATROL_SCRUB (R65, R61): an uncorrectable error in the sector is found for the house; nothing else changes. -/
def execPatrolScrub (sector : Nat) (s : State) : Out := .next (findErrors s (16 * sector) 16 0 s.now none)

/-- R190, R192: the Lamplighter refreshes a granule of class H, one of class W within its span, and above 100 °C every granule, while it
is allocated. -/
def granRefreshes (hot : Bool) (g : Gran) (etm : Nat) : Bool :=
  !g.freed && (hot || g.cls = 0 || (g.cls = 3 && decide ((etm : Int) < g.spanEnd)))
def refreshes (s : State) (a : Nat) : Bool :=
  let hot := tget s.sh.hot (placeOf s a).die false
  if 2 ^ 68 ≤ a then
    match s.blk? ((a - 2 ^ 68) / 2 ^ 23) with
    | some x => x.life == .resident && granRefreshes hot (scrGran x ((a - 2 ^ 68) % 2 ^ 23)) (s.etm x.core)
    | none => false
  else if 2 ^ 43 ≤ a && a < 2 ^ 66 then
    let k := (a - 2 ^ 43) / 2 ^ 26
    let o := (a - 2 ^ 43) % 2 ^ 26
    granRefreshes hot (layGran (s.cluster k) o) (s.etm (layCore s k o))
  else false

/-- REFRESH (R192, R65): the Lamplighter refreshes a granule of the operand store or the cluster tier: no value changes; an
uncorrectable error in it is found. -/
def execRefresh (granule : Nat) (s : State) : Out :=
  .next (if refreshes s (4096 * granule) then findErrors s (4096 * granule) 4096 0 s.now none else s)

/-- R43: the granules of a block's store that are refreshed: those of its record and groups, and of its scratch. -/
def blockRefreshed (s : State) (b : Nat) (x : Block) : Nat :=
  recordBytes x / 4096 + ((List.range (x.h.scratch / 4096)).filter (fun k => refreshes s (scrLoc b (4096 * k)))).length

/-- R192, R65, R43: one interval of a die's refresh. -/
def refreshDie (d : Nat) (s : State) : State :=
  let t := foldS (fun (c : Nat × Block) t => if dieOf c.2.core = d then note 100 (ctxTenant s c.2.ctx) (blockRefreshed s c.1 c.2) t else t) (residents s) s
  let t := foldS (fun (c : Nat × Cluster) t => if c.1 / 12 = d then
      foldS (fun (b : Nat × Bank) t => if b.2.mode != 0 then note 100 (ctxTenant s b.2.owner) 1024 t else t) c.2.banks t else t) s.clusters t
  let t := foldS (fun a t => if bankLoc a && (placeOf s a).die == d && refreshes s a then findError t a 0 s.now none else t) s.latent t
  modSh t (fun h => { h with refreshAt := tset h.refreshAt d s.now })
def refreshLate (s : State) (d : Nat) : Bool :=
  decide (tget s.sh.refreshAt d 0 + usTicks (if tget s.sh.hot d false then 100 else 200) ≤ s.now)

/-- R65: patrol has a round of the operand stores and cluster tiers (0), of the coherent window (1), or of HBM and the second tier (2). -/
def patrolHas (k a : Nat) : Bool := match k with | 0 => bankLoc a | 1 => 2 ^ 42 ≤ a && a < 2 ^ 43 | _ => a < 2 ^ 42
def patrolRound (k : Nat) (s : State) : State :=
  let t := foldS (fun a t => if patrolHas k a then findError t a 0 s.now none else t) s.latent s
  modSh t (fun h => { h with patrolAt := tset h.patrolAt k s.now })
def patrolLate (s : State) (k : Nat) : Bool :=
  decide (tget s.sh.patrolAt k 0 + msTicks (match k with | 0 => 100 | 1 => 1000 | _ => 86400000) ≤ s.now)

/-! The Assayer. -/

/-- R74, R145: a core with an idle active-set slot; a group of a paired block takes one on both its lanes. -/
def hasSlot (s : State) (c : Nat) : Bool :=
  let n := (residents s).foldl (fun n b => if b.2.core = c then n + (if b.2.opts.paired then 2 else 1) * (b.2.groups.filter (fun y => y.q.status == .active)).length else n) 0
  n < 512

/-- R74, R75, R106: cores of the tenant's clusters for a run: of none of these clusters, on another die than the first's when one there has a slot. -/
def assayCores (s : State) (t : Nat) (ks : List Nat) : List Nat :=
  let all := ((tenantClusters s t).flatMap (fun k => (List.range 8).map (fun j => holder s (8 * k + j)))).filter (fun c =>
    coreTakes s c && !ks.contains (clusterOf c) && hasSlot s c)
  let far := all.filter (fun c => dieOf c != ks.headD 0 / 12)
  if far.isEmpty then all else far

/-- R71, R74: an immutable page no longer gives a replay what it gave the phase, or gives it a fault. -/
def immStale (s : State) (j : AJob) : Bool :=
  j.imm.any (fun r => match s.ctx? j.ctx with
    | none => true
    | some c => (match access s c .read (BitVec.ofNat 64 r.1) with
      | .ok pa _ => poisoned s pa r.2.length || mgetN s.mem pa r.2.length != r.2
      | _ => true))

/-- R74, R62: a run of the phase on core `c` takes every value from the journal or from immutable pages, and so gives the digest of the
original run unless an error that nothing detects strikes it; where one of those pages has changed the digest is the same or another
(log entry 13). -/
def assayRun (s : State) (c : Nat) (j : AJob) : List Byte × State :=
  if s.silent.contains c then wrongDigest { s with silent := s.silent.erase c } j.truth
  else if immStale s j then let k := choose s 2; if k.1 = 1 then wrongDigest k.2 j.truth else (j.truth, k.2)
  else (j.truth, s)

def setJob (s : State) (n : Nat) (j : AJob) : State := { s with jobs := tset s.jobs n j }

/-- R76: a job ends and its space in the ring of its core's number is free. -/
def endJob (s : State) (n : Nat) (j : AJob) : State :=
  let size := j.record.length + j.journal.length
  { modCore s (j.core % 768) (fun k => { k with ring := k.ring - size }) with jobs := tdel s.jobs n }

/-- R74: the job may still run. -/
def inBound (s : State) (j : AJob) : Bool := s.now < j.endAt + msTicks 50

/-- ASSAY_REPLAY (R74). -/
def execAssayReplay (job : Nat) (s : State) : Out :=
  .next (match tget? s.jobs job with
    | none => s
    | some j =>
      let cs := assayCores s j.tenant [clusterOf j.core]
      if j.replay.isSome || !inBound s j || cs.isEmpty then s
      else
        let k := chooseFrom s 0 cs
        let r := assayRun (note 99 j.tenant (j.record.length + j.journal.length) k.2) k.1 j
        setJob r.2 job { j with replay := some (k.1, r.1) })

/-- R75: the score of a core after points. -/
def addPoints (s : State) (c n : Nat) : State := modCore s c (fun k => { k with score := Nat.min 1023 (k.score + n) })

/-- R75: a pass; each 64th lowers the score by one. -/
def addPass (s : State) (c : Nat) : State :=
  modCore s c (fun k => if 63 ≤ k.passes then { k with passes := 0, score := k.score - 1 } else { k with passes := k.passes + 1 })

/-- R75: a core whose score has reached 768 is quarantined and replaced. -/
def quarantine (s : State) (c : Nat) : State :=
  let k := s.core c
  if k.score < 768 || k.quar then s
  else replaceCore (coreRecord (modCore s c (fun k => { k with quar := true, quarAt := s.now })) 0x16 2 8 c 0xFF) c

/-- R66, R75: the record of KIND 0x14. -/
def assayRecord (s : State) (j : AJob) (r : Nat × List Byte) (third : Option Nat) (outcome : Nat) : State :=
  let t := match third with | some c => [BitVec.ofNat 8 (clusterOf c), BitVec.ofNat 8 (c % 8)] | none => [0xFF, 0xFF]
  let detail := j.digest ++ r.2.take 8 ++ [BitVec.ofNat 8 (clusterOf r.1), BitVec.ofNat 8 (r.1 % 8)] ++ t ++ [BitVec.ofNat 8 outcome, 0] ++
    leBytes 2 (s.core j.core).score
  let aux : Word := BitVec.ofNat 32 (j.grp * 2 ^ 24 + j.phx.toNat % 2 ^ 24)
  postRecord s (some j.ctx) (fun ten k =>
    entryBytes 0x14 (if outcome = 0 then 0 else 1) (dieOf j.core) 8 (clusterOf j.core) (j.core % 8) 0xFF ten j.blkIdx (s.etm j.core) k aux detail)

/-- ASSAY_COMPARE (R75): a match ends the job; a mismatch is counted and calls for a third run. -/
def execAssayCompare (job : Nat) (s : State) : Out :=
  .next (match tget? s.jobs job with
    | none => s
    | some j => match j.replay with
      | none => s
      | some r =>
        if j.differs || !inBound s j then s
        else if r.2 == j.digest then
          let s := addPass (addPass (modSh s (fun h => { h with cntMatch := sat16 h.cntMatch })) j.core) r.1
          let s := if s.sh.logmatch then assayRecord s j r none 0 else s
          endJob s job j
        else setJob (modSh s (fun h => { h with cntMismatch := sat16 h.cntMismatch })) job { j with differs := true })

/-- R75: the resolution of a mismatch. -/
def resolveAssay (s : State) (job : Nat) (j : AJob) (r : Nat × List Byte) (third : Option (Nat × List Byte)) : State :=
  let z : Nat × State := match third with
    | some t =>
      if t.2 == j.digest then (2, addPass (addPass (addPoints s r.1 256) j.core) t.1)
      else if t.2 == r.2 then (1, addPass (addPass (addPoints s j.core 256) r.1) t.1)
      else (3, addPoints (addPoints s j.core 128) r.1 128)
    | none => (3, addPoints (addPoints s j.core 128) r.1 128)
  let s := assayRecord z.2 j r (third.map (·.1)) z.1
  endJob (quarantine (quarantine s j.core) r.1) job j

/-- ASSAY_THIRD_RUN (R75). -/
def execAssayThirdRun (job : Nat) (s : State) : Out :=
  .next (match tget? s.jobs job with
    | none => s
    | some j => match j.replay with
      | none => s
      | some r =>
        let cs := assayCores s j.tenant [clusterOf j.core, clusterOf r.1]
        if !j.differs || !inBound s j || cs.isEmpty then s
        else
          let k := chooseFrom s 0 cs
          let t := assayRun (note 99 j.tenant (j.record.length + j.journal.length) k.2) k.1 j
          resolveAssay t.2 job j r (some (k.1, t.1)))

/-- ASSAY_BOUND_EXPIRY (R74, R75): a phase not compared in time is skipped; a mismatch without a third run is unresolved. -/
def execAssayBoundExpiry (job : Nat) (s : State) : Out :=
  .next (match tget? s.jobs job with
    | none => s
    | some j =>
      if inBound s j then s
      else match j.replay with
        | some r => if j.differs then resolveAssay s job j r none else endJob (countSkipped s) job j
        | none => endJob (countSkipped s) job j)

/-- QUARANTINE_RELOCATION_TIMEOUT (R75): 200 µs on a quarantined core: its groups stop at their next LIVE points. -/
def quarLate (s : State) (c : Nat) : Bool :=
  let k := s.core c
  k.quar && k.quarAt + usTicks 200 ≤ s.now && (residents s).any (fun b => b.2.core == c && !b.2.relocate)
def execQuarantineTimeout (core : Nat) (s : State) : Out :=
  .next (if quarLate s core then
    foldS (fun b s => modBlk s b (fun x => { x with relocate := true })) (((residents s).filter (fun b => b.2.core == core)).map (·.1)) s
    else s)

end Sys2Proof.Machine
end

