-- ==== Sys2Proof/Machine/HostMem.lean ====
section
/-! DEFINITION. The host's ways into memory: BAR B (R81), BAR C and host AtomicOps (R82, R212), flushes (R85), and the ring of
completion records (R84). -/

namespace Sys2Proof.Machine

/-- What the port answers a host read with; `bad` marks a poisoned TLP (R82). -/
def respond (s : State) (hp : HPort) (l : List Byte) (bad : Bool) : State :=
  modHost s hp (fun h => { h with resp := l, respPoison := bad })

/-- R61, R66: errors that a host access finds; they belong to no context. -/
def hostErrors (s : State) (a n : Nat) : State :=
  if s.latent.isEmpty then s
  else foldS (fun x s => if s.latent.contains x then findErrorFor s x 1 s.now none 0xFF else s) (sectorsOf a n) s

/-! BAR B. -/

/-- The bytes of an access that lie in the port's half. -/
def halfLen (o n : Nat) : Nat := Nat.min n (2 ^ 22 - o)

/-- R81: a write as a sequence of aligned 8-byte units in ascending address. -/
def winUnits (a : Nat) (l : List Byte) (o : Nat) : Nat → State → State
  | 0, s => s
  | k + 1, s =>
    if l.length ≤ o then s
    else
      let n := 8 - (a + o) % 8
      winUnits a l (o + n) k (winWrite s (a + o) ((l.drop o).take n))

/-- HOST_WINDOW_ACCESS (R81). -/
def execHostWindowAccess (hp : HPort) (off : BitVec 22) (acc : HostAcc) (s : State) : Out :=
  .next (if !s.up then s
    else
      let a := winLoc (halfOff hp off.toNat)
      match acc with
      | .read n =>
        let n := halfLen off.toNat n
        let s := hostErrors s a n
        respond s hp (mgetN s.mem a n) (poisoned s a n)
      | .write l => winUnits a (l.take (halfLen off.toNat l.length)) 0 l.length s)

/-! BAR C. -/

/-- R82: the physical address of an offset. -/
def rawPa (s : State) (hp : HPort) (fn1 : Bool) (off : BitVec 42) : Nat :=
  let r := (s.port hp).reg
  (if fn1 then r.apbase1 else r.apbase0).toNat * 2 ^ 30 + off.toNat

/-- R19, R82: how many of `n` bytes from an address are backed. -/
def backedLen (pa n : Nat) : Nat := Nat.min n (backedEnd - pa)
def setUnbacked (s : State) (hp : HPort) (pa n : Nat) : State :=
  if backedLen pa n < n then modHost s hp (fun h => { h with unbacked := true }) else s

/-- R82, R228: by stamp A the write had been published to the host. -/
def hostPub (s : State) (A : Nat) (w : WRec) : Bool :=
  match w.kind with
  | .flush => w.stamp ≤ A | .barC => w.stamp ≤ A | .atomic => w.stamp ≤ A
  | _ => s.pubs.any (fun p => publishes p w && p.stamp ≤ A && (match p.scope with | .host => true | .fab => true | _ => false))

/-- R82: memory holds every write published to the host by stamp A, and perhaps later ones, up to stamp T. -/
def memByte (s : State) (A T a : Nat) : Byte :=
  match (writesAt s a).find? (fun w => hostPub s A w || w.stamp ≤ T) with
  | some w => w.new
  | none => match (writesAt s a).getLast? with
    | some w => w.old
    | none => mget s.mem a

/-- The times up to stamp A at which memory may have been left, for `n` bytes. -/
def memTimes (s : State) (A a n : Nat) : List Nat :=
  0 :: ((locs a n).flatMap (fun x => (writesAt s x).filterMap (fun w => if w.stamp ≤ A && !hostPub s A w then some w.stamp else none))).eraseDups

/-- R82, R4: the content of memory, sector by sector. -/
def memRead (s : State) (sectors : List (Nat × Nat)) : List Byte × State :=
  sectors.foldl (fun (r : List Byte × State) (x : Nat × Nat) =>
    let k := chooseFrom r.2 0 (memTimes r.2 r.2.stamp x.1 x.2)
    (r.1 ++ (locs x.1 x.2).map (memByte k.2 k.2.stamp k.1), k.2)) ([], s)

/-- The parts of a range that lie in one sector each. -/
def sectorParts (a n : Nat) : List (Nat × Nat) :=
  (sectorsOf a n).map (fun x => (Nat.max a x, Nat.min (a + n) (x + 16) - Nat.max a x))

/-- R77: a word of a function's configuration space. Its layout, and an absent function's answer of all ones, are PCI Express's own (log
entry 46). -/
def configWord (hp : HPort) (fn1 : Bool) (off : Nat) : Nat :=
  if fn1 && !Config.bifurcated (hp == .B) then 0xFFFFFFFF
  else match off with
    | 0 => (if fn1 then 0x4801 else 0x4800) * 2 ^ 16 + Config.vendor.toNat
    | 8 => 0x120000 * 2 ^ 8 + (Config.cfgWord (hp == .B) fn1 8).toNat % 2 ^ 8
    | _ => (Config.cfgWord (hp == .B) fn1 off).toNat

/-- R77, R82: the function is there, and the bytes lie in its BAR C; the port claims no other access. -/
def barCHas (s : State) (hp : HPort) (fn1 : Bool) (off n : Nat) : Bool :=
  (!fn1 || Config.bifurcated (hp == .B)) && decide (off + n ≤ 2 ^ (30 + (if fn1 then (s.port hp).reg.barC1 else (s.port hp).reg.barC0)))

/-- HOST_RAW_READ (R82). -/
def execHostRawRead (hp : HPort) (fn1 : Bool) (off : BitVec 42) (len : Nat) (s : State) : Out :=
  .next (if !s.up || !barCHas s hp fn1 off.toNat len then s
    else
      let pa := rawPa s hp fn1 off
      let n := backedLen pa len
      let s := hostErrors (setUnbacked s hp pa len) pa n
      let r := memRead s (sectorParts pa n)
      respond r.2 hp (r.1 ++ List.replicate (len - n) 0) (poisoned s pa n))

/-- HOST_RAW_WRITE (R82, R430). -/
def execHostRawWrite (hp : HPort) (fn1 : Bool) (off : BitVec 42) (data : List Byte) (s : State) : Out :=
  .next (if !s.up || !barCHas s hp fn1 off.toNat data.length then s
    else
      let pa := rawPa s hp fn1 off
      let s := setUnbacked s hp pa data.length
      writeLoc s 0 .barC pa (data.take (backedLen pa data.length)))

/-- R212: width in bytes and new value of a host AtomicOp. -/
def atomWidth : HostAtom → Nat
  | .fetchAdd w _ => if w then 8 else 4 | .swap w _ => if w then 8 else 4 | .cas w _ _ => if w then 8 else 4
def atomNew (op : HostAtom) (old : Nat) : Option Nat :=
  let m := 2 ^ (8 * atomWidth op)
  match op with
  | .fetchAdd _ v => some ((old + v.toNat) % m)
  | .swap _ v => some (v.toNat % m)
  | .cas _ c v => if old = c.toNat % m then some (v.toNat % m) else none

/-- The writer of host atomics in the coherence order; no group has this identity. -/
def hostAtomWho : Nat := 2 ^ 64

/-- HOST_ATOMICOP (R212). -/
def execHostAtomicOp (hp : HPort) (fn1 : Bool) (off : BitVec 42) (op : HostAtom) (s : State) : Out :=
  .next (if !s.up || !barCHas s hp fn1 off.toNat (atomWidth op) then s
    else
      let pa := rawPa s hp fn1 off
      let n := atomWidth op
      if pa % n != 0 then s
      else if backedEnd ≤ pa then respond (setUnbacked s hp pa n) hp (List.replicate n 0) false
      else
        let s := hostErrors s pa n
        let old := mgetN s.mem pa n
        if poisoned s pa n then respond s hp old true
        else
          let s := respond s hp old false
          match atomNew op (leNat old) with
          | some v => writeLoc s hostAtomWho .atomic pa (leBytes n v)
          | none => s)

/-! Flushes. -/

/-- R85: a flush command that the port accepts. -/
def flushCommand (s : State) (hp : HPort) (dir : Nat) (order : Bool) (len : Word) : Out :=
  let q := (s.port hp).sub
  let sseq := lo32 q.fl0
  submit s hp sseq (fun s =>
    let f : Flush := { sseq := sseq, ctx := hi32 q.fl0, daddr := q.fl1, haddr := q.fl2, dir := dir, len := len.toNat, order := order, stamp := s.stamp }
    let s := modSub s hp (fun q => { q with flushes := q.flushes ++ [f], open1 := q.open1 ++ [sseq] })
    { s with stamp := s.stamp + 1 })

/-- FLUSH_DEVICE_TO_HOST (R85). -/
def execFlushDeviceToHost (hp : HPort) (order : Bool) (len : Word) (s : State) : Out := flushCommand s hp 0 order len

/-- FLUSH_HOST_TO_DEVICE (R85). -/
def execFlushHostToDevice (hp : HPort) (order : Bool) (len : Word) (s : State) : Out := flushCommand s hp 1 order len

/-- FLUSH_BAD_DIR (R85): DIR 2 to 255; a write with DIR 0 or 1 is one of the rows above. -/
def execFlushBadDir (hp : HPort) (dir : BitVec 8) (order : Bool) (len : Word) (s : State) : Out := flushCommand s hp dir.toNat order len

/-- R85 step 1. -/
def flushAddrBad (f : Flush) : Bool :=
  f.daddr.toNat % 16 != 0 || f.haddr.toNat % 16 != 0 || f.len % 16 != 0 || !canonical f.daddr || 1 < f.dir

/-- R85 step 4: the 64 KiB pieces of the range as (physical address, bytes), and what ends the prefix: 2 or 3, or 0. -/
def flushPieces (s : State) (c : Context) (need : Need) : Nat → BitVec 64 → Nat → List (Nat × Nat) × Nat
  | 0, _, _ => ([], 0)
  | k + 1, va, n =>
    if n = 0 then ([], 0)
    else
      let here := Nat.min n (2 ^ 16 - va.toNat % 2 ^ 16)
      match access s c need va with
      | .ok pa _ => let r := flushPieces s c need k (va + BitVec.ofNat 64 here) (n - here); ((pa, here) :: r.1, r.2)
      | .notPresent => ([], 2)
      | .perm => ([], 3)
      | .poisoned => ([], 3)

/-- The first `n` bytes of the pieces. -/
def cutPieces : Nat → List (Nat × Nat) → List (Nat × Nat)
  | _, [] => []
  | n, (a, k) :: r => if n = 0 then [] else (a, Nat.min n k) :: cutPieces (n - Nat.min n k) r

/-- R85: a sector goes to the host: what memory held at acceptance, or what has been published to the host since (R4). -/
def flushOutSector (s : State) (accepted pa out : Nat) : State :=
  let now := choose s (if memTimes s s.stamp pa 16 == [0] && (locs pa 16).all (fun x => (writesAt s x).all (fun w => w.stamp ≤ accepted)) then 1 else 2)
  let s := now.2
  let k := chooseFrom s 0 (memTimes s accepted pa 16)
  let A := if now.1 = 0 then accepted else s.stamp
  let bad := poisoned s pa 16
  let s := { k.2 with mem := msetN k.2.mem out ((locs pa 16).map (memByte k.2 A k.1)), poison := k.2.poison.filter (fun p => p != out) }
  if bad then setPoison s [out] else s

/-- R85: a sector comes from the host. -/
def flushInSector (s : State) (pa from1 : Nat) : State :=
  let bad := poisoned s from1 16
  let s := writeLoc s 0 .flush pa (mgetN s.mem from1 16)
  if bad then setPoison s [pa] else s

/-- A host bus address as a location; addresses wrap at 64 bits. -/
def busLoc (hp : HPort) (a : Nat) : Nat := hostLoc hp (a % 2 ^ 64)

/-- R85: the sectors of the pieces, each with its offset in the flush. -/
def flushSectors : Nat → List (Nat × Nat) → List (Nat × Nat)
  | _, [] => []
  | o, (a, n) :: r => (List.range (n / 16)).map (fun k => (a + 16 * k, o + 16 * k)) ++ flushSectors (o + n) r

/-- R85: the transfer. -/
def flushMove (s : State) (hp : HPort) (f : Flush) (l : List (Nat × Nat)) : State :=
  foldS (fun (x : Nat × Nat) s =>
    if f.dir = 0 then flushOutSector s f.stamp x.1 (busLoc hp (f.haddr.toNat + x.2))
    else flushInSector s x.1 (busLoc hp (f.haddr.toNat + x.2))) l s

/-- R214: the promoted pages that the pieces of a flush touch have been used; a flush into one leaves stores in its frame. -/
def flushTouch (s : State) (wr : Bool) (pieces : List (Nat × Nat)) : State :=
  { s with migs := s.migs.map (fun m =>
      if !m.transit && pieces.any (fun x => m.frame == x.1 / 2 ^ 16 * 2 ^ 16) then { m with used := s.now, dirty := m.dirty || wr } else m) }

/-- R85: the flush ends with a status and a byte count. -/
def flushDone (s : State) (hp : HPort) (f : Flush) (st n : Nat) : State :=
  let s := modSub s hp (fun q => { q with flushes := q.flushes.drop 1, hosterr := none })
  reportDone s hp { cseq := 0, sseq := f.sseq, kind := 1, status := st, graph := 0, bytes := n, time := s.now,
                    stamp := if f.dir = 1 then s.stamp - 1 else 0 }

/-- R215: the flush writes a page in transit; it waits for the switch. -/
def flushWaits (s : State) (f : Flush) (pieces : List (Nat × Nat)) : Bool :=
  f.dir == 1 && pieces.any (fun x => s.migs.any (fun m => m.transit && m.home == x.1 / 2 ^ 16 * 2 ^ 16))

/-- The flush at the head of the port may run. -/
def flushReady (s : State) (hp : HPort) : Option Flush :=
  match (s.port hp).sub.flushes with
  | f :: _ => if !f.order || (s.port hp).sub.open1.head? == some f.sseq then some f else none
  | [] => none

/-- R85: an accepted flush runs. -/
def runFlush (s : State) (hp : HPort) (f : Flush) : State :=
  if flushAddrBad f then flushDone s hp f 1 0
  else match s.ctx? f.ctx with
    | none => flushDone s hp f 5 0
    | some c =>
      if c.killed then flushDone s hp f 5 0
      else if f.len = 0 then flushDone s hp f 0 0
      else
        let s := findWalks s c f.daddr f.len s.now f.ctx
        let r := flushPieces s c (if f.dir = 0 then .read else .flush) (f.len / 2 ^ 16 + 2) f.daddr f.len
        let n := (r.1.map (·.2)).foldl (· + ·) 0
        if flushWaits s f r.1 then s
        else
          let host := match (s.port hp).sub.hosterr with | some k => k / 16 * 16 | none => n
          let fails := r.2 == 0 && host < n
          let n := if fails then host else n
          let l := flushSectors 0 (cutPieces n r.1)
          let s := if f.dir = 0 then foldS (fun (x : Nat × Nat) s => findErrors s x.1 16 1 s.now (some f.ctx)) l s else s
          let bad := l.any (fun x => poisoned s (if f.dir = 0 then x.1 else busLoc hp (f.haddr.toNat + x.2)) 16)
          let s := flushMove (flushTouch (note 96 c.tenant n s) (f.dir != 0) r.1) hp f l
          flushDone s hp f (if r.2 != 0 then r.2 else if fails then 6 else if bad then 4 else 0) n

/-- FLUSH_COMPLETE (R85): the oldest flush of the port. -/
def execFlushComplete (hp : HPort) (s : State) : Out :=
  .next (match flushReady s hp with | some f => runFlush s hp f | none => s)

/-! Completion records. -/

/-- SUBSEQ (R84): writable while no submission of the port is in flight. -/
def execSubseqWrite (hp : HPort) (v : Word) (s : State) : Out :=
  .next (if s.up && (s.port hp).sub.open1.isEmpty then modSub s hp (fun q => { q with subseq := v }) else s)

/-- CRREPLAY (R84). -/
def replayFrom (v : Word) (q : Subm) : Subm :=
  if (v - q.cmpseq - 1).toNat < 2 ^ 31 then q
  else
    let back := (q.cmpseq - v).toNat + 1
    { q with lost := q.lost || q.kept.length < back,
             replaying := q.replaying ++ q.kept.drop (q.kept.length - back) }
def execCrReplay (hp : HPort) (v : Word) (s : State) : Out := .next (if s.up then modSub s hp (replayFrom v) else s)

/-- R84: the ring's size, and the 32 bytes of a record. -/
def crSize (q : Subm) : Nat := 2 ^ (Nat.max 4 q.crcfg.toNat)
def recBytes (r : CompRec) : List Byte :=
  leBytes 4 r.cseq.toNat ++ leBytes 4 r.sseq.toNat ++ [BitVec.ofNat 8 r.kind, BitVec.ofNat 8 r.status, 0, 0] ++ leBytes 4 r.graph ++
    leBytes 8 r.bytes ++ leBytes 8 r.time

/-- R84: the record to be written next, whether it is a rewritten one, and the queue without it. -/
def nextRecord (now : Nat) (q : Subm) : Option (CompRec × Subm) :=
  match q.replaying, q.waiting with
  | r :: t, _ => some (r, { q with replaying := t })
  | [], r :: t =>
    let r := { r with cseq := q.cmpseq + 1, time := now }
    some (r, { q with waiting := t, cmpseq := r.cseq, kept := (q.kept ++ [r]).drop (q.kept.length + 1 - 256) })
  | [], [] => none

/-- R84: the ring has room for record c. -/
def crRoom (q : Subm) (c : Word) : Bool := (c - q.crd).toNat < crSize q
def recordReady (s : State) (hp : HPort) : Bool :=
  match nextRecord s.now (s.port hp).sub with | some r => crRoom (s.port hp).sub r.1.cseq | none => false

/-- COMPLETION_RECORD_WRITE (R84, R222). -/
def execCompletionRecordWrite (hp : HPort) (s : State) : Out :=
  .next (match nextRecord s.now (s.port hp).sub with
    | none => s
    | some (r, q) =>
      if !crRoom q r.cseq then s
      else
        let a := busLoc hp (q.crbase.toNat + r.cseq.toNat % crSize q * 32)
        let s := modSub { s with mem := msetN s.mem a (recBytes r), flushed := Nat.max s.flushed r.stamp } hp (fun _ => q)
        modHost s hp (raiseMsi 0))

end Sys2Proof.Machine
end

