-- ==== Sys2Proof/Machine/Links.lean ====
section
/-! DEFINITION. Rolzal links (R44 to R53): the CRC, flits in and out, replay, retraining, credits and routing. -/

namespace Sys2Proof.Machine

/-- R47: one byte of the CRC of ECMA-182, most significant bit first. -/
def crcBit (c : BitVec 64) : BitVec 64 := if c.getLsbD 63 then (c <<< 1) ^^^ 0x42F0E1EBA9EA3693 else c <<< 1
def crcByte (c : BitVec 64) (b : Byte) : BitVec 64 :=
  crcBit (crcBit (crcBit (crcBit (crcBit (crcBit (crcBit (crcBit (c ^^^ (b.setWidth 64 <<< 56)))))))))
def crc64 (l : List Byte) : BitVec 64 := ~~~ (l.foldl crcByte (~~~ 0#64))

/-- R45, R46: the type is assigned and the reserved header bits are zero. -/
def flitOk (f : List Byte) : Bool :=
  flitType f < 8 && fieldN f 1 1 / 16 == 0 && fieldN f 9 1 / 16 == 0 && fieldN f 11 1 / 16 == 0

/-- R45, R47: bytes 0 to 247 with their CRC. -/
def sealFlit (l : List Byte) : List Byte := let h := (l ++ List.replicate 248 0).take 248; h ++ leBytes 8 (crc64 h).toNat
def flitValid (f : List Byte) : Bool := f.length == 256 && fieldN f 248 8 == (crc64 (f.take 248)).toNat

/-- R45: a flit of the port itself without payload: Idle or NAK, with the credits it returns. -/
def ownFlit (s : State) (l : Link) (type vc n : Nat) : List Byte :=
  sealFlit ([BitVec.ofNat 8 type, 0] ++ leBytes 2 l.txSeq.toNat ++ leBytes 2 l.rxSeq.toNat ++ [BitVec.ofNat 8 (vc * 64 + n), 0] ++
    leBytes 2 0 ++ leBytes 2 s.sh.devid.toNat ++ [0, 0, 0, 0])

/-- R50: the first virtual channel with credits to return. -/
def owedVc (l : Link) : Option (Nat × Nat) := (l.owed.find? (fun c => 0 < c.2)).map (fun c => (c.1, Nat.min 63 c.2))
def payOwed (l : Link) : Link :=
  match owedVc l with | some c => { l with owed := tset l.owed c.1 (tget l.owed c.1 0 - c.2) } | none => l

/-- R48: the unacknowledged flits as they go out again: with the ACK of the next flit sent; the rest as it was, CREDIT too (log 45). -/
def resent (l : Link) : List (List Byte) := l.replay.map (fun g => sealFlit (g.take 4 ++ leBytes 2 l.rxSeq.toNat ++ (g.drop 6).take 242))

/-- R48, R49: a replay starts: every unacknowledged flit goes out again in order; after eight that brought no progress the port retrains.
DESIGN CHOICE (log 45): a NAK that comes with no flit unacknowledged counts as a replay too, in REPLAYS and towards the eight. -/
def replayLink (now : Nat) (l : Link) : Link :=
  if 8 ≤ l.noProg then { l with training := true, retrains := 0, noProg := 0, trainAt := now }
  else { l with replays := Nat.min 0xFFFF (l.replays + 1), noProg := l.noProg + 1, ackAt := now, out := l.out ++ resent l }

/-- R48: an ACK drops what it covers from the replay buffer. -/
def ackLink (now : Nat) (a : BitVec 16) (l : Link) : Link :=
  let n := (a - l.ackd).toNat
  if 1 ≤ n && n ≤ l.replay.length then { l with replay := l.replay.drop n, ackd := a, noProg := 0, ackAt := now } else l

/-- R50: returned credits. -/
def creditLink (now c : Nat) (l : Link) : Link :=
  let vc := c / 64
  noteStarve now { l with credits := tset l.credits vc (Nat.min 64 (tget l.credits vc 0 + c % 64)) }

/-- R50: the buffer of a received flit is freed. -/
def freeBuffer (s : State) (p : Nat) (f : List Byte) : State :=
  match flitVc (flitType f) with
  | some vc => modLink s p (fun l => { l with owed := tset l.owed vc (tget l.owed vc 0 + 1) })
  | none => s

/-- R59: a flit of a collective arrives: its 50 ms start anew. -/
def noteColl (s : State) (f : List Byte) : State :=
  match collFor s f with
  | some k => (match tget? s.colls k with | some c => { s with colls := tset s.colls k { c with since := s.now } } | none => s)
  | none => s

/-- R52, R59: a flit that cannot be routed is discarded; the collective it belonged to ends here. -/
def noRoute (s : State) (p : Nat) (f : List Byte) : State :=
  let s := modLink s p (fun l => { l with noroute := true })
  match collFor s f with | some k => collCast s k 5 | none => s

/-- R52: delivers, forwards or discards an accepted flit. A forwarded flit keeps its buffer until it has been sent (R50).
DESIGN CHOICE (log 45): while DEVID is 0xFFF a flit other than a management one is accepted and dropped, its credit returned, without NOROUTE. -/
def routeFlit (s : State) (p : Nat) (f : List Byte) : State :=
  if s.sh.devid = 0xFFF ∧ flitType f ≠ 6 then freeBuffer s p f
  else if flitDst f = s.sh.devid.toNat then
    let s := noteColl (modLink (freeBuffer s p f) p (fun l => { l with rx := l.rx ++ [f] })) f
    if flitType f = 5 then collHear s f else s
  else
    let q := routeOf s (flitDst f)
    if flitHops f = 0 || 12 ≤ q || !(s.link q).up then noRoute (freeBuffer s p f) p f
    else enqueue s q (some p, f.take 1 ++ [BitVec.ofNat 8 (flitHops f - 1)] ++ f.drop 2)

/-- R48: a flit with a bad CRC: one NAK. -/
def nakFlit (s : State) (p : Nat) : State :=
  modLink s p (fun l => if l.naked then l else { l with naked := true, out := l.out ++ [ownFlit s l 7 0 0] })

/-- R46, R48, R50: a flit with a valid CRC: one whose SEQ is not the next is discarded, the number an Idle or NAK flit carries too. That the ACK and CREDIT of one discarded for BADTYPE
count is a DESIGN CHOICE (log entry 45). -/
def takeFlit (s : State) (p : Nat) (f : List Byte) : State :=
  let t := flitType f
  let heads (l : Link) : Link := creditLink s.now (fieldN f 6 1) (ackLink s.now (flitAck f) l)
  if flitSeq f != (s.link p).rxSeq + 1 then s
  else if t = 0 ∨ t = 7 then
    if !flitOk f then modLink s p (fun l => { l with badtype := true })
    else modLink s p (fun l => let l := { heads l with naked := false }; if t = 7 then replayLink s.now l else l)
  else
    let s := modLink s p (fun l => { heads l with rxSeq := flitSeq f, naked := false })
    if !flitOk f then freeBuffer (modLink s p (fun l => { l with badtype := true })) p f else routeFlit s p f

/-- FLIT_RECEIVE (R48). -/
def execFlitReceive (p : Fin 12) (flit : List Byte) (s : State) : Out :=
  .next (if !(s.link p.val).up || (s.link p.val).training then s
    else if flitValid flit then takeFlit s p.val flit else nakFlit s p.val)

/-- R50, R52: a waiting flit that may be sent: its channel has a credit, and no earlier flit of that channel waits. -/
def sendable (s : State) (l : Link) : Option (Nat × Option Nat × List Byte) :=
  (lmapIx 0 (fun k f => (k, f)) l.sendq).find? (fun z =>
    match flitVc (flitType z.2.2) with
    | some vc => 0 < tget l.credits vc 0 && (s.sh.devid != 0xFFF || flitType z.2.2 == 6)
    | none => false)

/-- The port has something to send. -/
def sendReady (s : State) (p : Nat) : Bool :=
  let l := s.link p
  l.up && !l.training && ((l.replay.length < 512 && (sendable s l).isSome) || (owedVc l).isSome)

/-- FLIT_SEND (R50): a sequenced flit for which a credit is held, else an Idle flit with the credits to return. -/
def execFlitSend (p : Fin 12) (s : State) : Out :=
  .next (if !sendReady s p.val then s
    else
      let l := s.link p.val
      let pay := owedVc l
      let cr := match pay with | some c => c.1 * 64 + c.2 | none => 0
      match (if l.replay.length < 512 then sendable s l else none) with
      | none => modLink s p.val (fun l =>
          { payOwed l with out := l.out ++ [ownFlit s l 0 (cr / 64) (cr % 64)] })
      | some (k, o, f) =>
        let vc := (flitVc (flitType f)).getD 0
        let g := sealFlit (f.take 2 ++ leBytes 2 l.txSeq.toNat ++ leBytes 2 l.rxSeq.toNat ++ [BitVec.ofNat 8 cr] ++ (f.drop 7).take 241)
        let s := modLink s p.val (fun l =>
          let l := payOwed l
          noteStarve s.now { l with
            sendq := l.sendq.eraseIdx k, credits := tset l.credits vc (tget l.credits vc 0 - 1), replay := l.replay ++ [g],
            out := l.out ++ [g], txSeq := l.txSeq + 1, ackAt := if l.replay.isEmpty then s.now else l.ackAt })
        match o with | some q => freeBuffer s q f | none => s)

/-- R48: 1 µs has passed without progress while flits are unacknowledged. -/
def ackLate (s : State) (l : Link) : Bool := l.up && !l.training && !l.replay.isEmpty && decide (l.ackAt + usTicks 1 ≤ s.now)

/-- ACK_TIMEOUT (R48). -/
def execAckTimeout (p : Fin 12) (s : State) : Out :=
  .next (if ackLate s (s.link p.val) then modLink s p.val (replayLink s.now) else s)

/-- R59: a collective whose communicator reaches a member through this port. -/
def usesPort (s : State) (p : Nat) (c : Coll) : Bool := (collIds s c).any (fun d => d != s.sh.devid.toNat && routeOf s d == p)

/-- R49, R52, R59: the link goes down: the replay buffer is discarded, and every destination routed through the port is unreachable, so
that flits that wait to be sent there are discarded as R52 says; that this sets NOROUTE of the port that received them is a DESIGN CHOICE
(log entry 45). -/
def linkDown (s : State) (p : Nat) : State :=
  let q := (s.link p).sendq
  let s := modLink s p (fun l => { l with up := false, training := false, retrains := 0, replay := [], sendq := [], owed := [], noProg := 0,
                                          starve := [] })
  let s := foldS (fun (f : Option Nat × List Byte) s => match f.1 with | some o => noRoute (freeBuffer s o f.2) o f.2 | none => s) q s
  foldS (fun (c : Nat × Coll) s => if usesPort s p c.2 then collCast s c.1 5 else s) s.colls s

/-- R49: an attempt to retrain has lasted 100 µs. -/
def retrainLate (s : State) (l : Link) : Bool := l.up && l.training && decide (l.trainAt + usTicks 100 ≤ s.now)

/-- RETRAIN_TIMEOUT (R49): an attempt has failed. -/
def execRetrainTimeout (p : Fin 12) (s : State) : Out :=
  .next (if !retrainLate s (s.link p.val) then s
    else if (s.link p.val).retrains < 2 then modLink s p.val (fun l => { l with retrains := l.retrains + 1, trainAt := s.now })
    else linkDown s p.val)

/-- R51: a flit of a virtual channel has waited for a credit for 1 ms. -/
def stallLate (s : State) (l : Link) (vc : Nat) : Bool :=
  l.up && (match tget? l.starve vc with | some t => decide (t + msTicks 1 ≤ s.now) | none => false)

/-- CREDIT_STALL (R51). -/
def execCreditStall (p : Fin 12) (vc : Fin 4) (s : State) : Out :=
  .next (if stallLate s (s.link p.val) vc.val then modLink s p.val (fun l => { l with stall := true }) else s)

/-- R79: a write to a shared block: from the manager port only. -/
def asManager (s : State) (hp : HPort) (f : State → State) : State :=
  if !s.up then s else if s.sh.mgr == hp then f s else denied s hp

/-- R53: training from EN 0 starts the sequence numbers anew. That it keeps the sticky bits is a DESIGN CHOICE (log entry 45). -/
def trainLink (l : Link) : Link :=
  if l.en then l
  else { Link.reset with en := true, training := true, stall := l.stall, noroute := l.noroute, badtype := l.badtype, replays := l.replays,
                         rx := l.rx, out := l.out }

/-- PORT_TRAIN (R53): a write that takes LNKCTL.EN from 0 to 1. -/
def execPortTrain (hp : HPort) (p : Fin 12) (s : State) : Out := .next (asManager s hp (fun s => modLink s p.val trainLink))

/-- PORT_TRAINED (R53, R49, R50): training or retraining succeeds; flits still in the replay buffer are sent again. At link-up the sender
holds 64 credits of each channel; a retraining leaves the credits. Either clears REPLAYS: that a retraining does is a DESIGN CHOICE
(log entry 45). -/
def execPortTrained (p : Fin 12) (s : State) : Out :=
  .next (if !(s.link p.val).training then s
    else modLink s p.val (fun l =>
      noteStarve s.now { l with
        up := true, training := false, retrains := 0, noProg := 0, replays := 0, ackAt := s.now, out := l.out ++ resent l
        credits := if l.up then l.credits else [(0, 64), (1, 64), (2, 64), (3, 64)] }))

/-- DEVID_WRITE (R53): ignored while a context is resident. -/
def execDevidWrite (hp : HPort) (v : Word) (s : State) : Out :=
  .next (asManager s hp (fun s => if s.ctxs.isEmpty then modSh s (fun h => { h with devid := v.setWidth 12 }) else s))

end Sys2Proof.Machine
end

