-- ==== Sys2Proof/Machine/Part.lean ====
section
/-! DEFINITION. Partition registers (R88, R213, R33), invalidation (R209), the replay of page faults (R154, R143), and migration
between the tiers (R213 to R216). -/

namespace Sys2Proof.Machine

/-! Migration: what moves with a page. -/

/-- A location in the range [a, a + n) becomes the one at the same place from `b`. -/
def shiftLoc (a b n x : Nat) : Nat := if a ≤ x && x < a + n then x - a + b else x

/-- Views of groups follow a page that moves (R232). -/
def shiftTable {α : Type} (a b n : Nat) (t : Table α) : Table α :=
  if t.any (fun c => a ≤ c.1 && c.1 < a + n) then
    (t.filter (fun c => a ≤ c.1 && c.1 < a + n)).foldl (fun u c => tset u (c.1 - a + b) c.2)
      (t.filter (fun c => !(a ≤ c.1 && c.1 < a + n) && !(b ≤ c.1 && c.1 < b + n)))
  else t
def shiftView (a b n : Nat) (y : Group) : Group :=
  { y with c := { y.c with stable := shiftTable a b n y.c.stable, floor := shiftTable a b n y.c.floor, seen := shiftTable a b n y.c.seen } }

/-- R214, R215, R63: the content, the poison and the coherence order of a page move from `a` to `b`; what `b` held is gone. -/
def movePage (s : State) (a b : Nat) : State :=
  let n := 2 ^ 16
  let cells := s.mem.filter (fun c => a ≤ c.1 && c.1 < a + n)
  let bad := (s.poison.filter (fun p => a ≤ p && p < a + n)).map (fun p => p - a + b)
  let s := { s with
    mem := cells.foldl (fun m c => mset m (c.1 - a + b) c.2) (mzero s.mem b n)
    poison := s.poison.filter (fun p => !(b ≤ p && p < b + n))
    latent := s.latent.filter (fun p => !(b ≤ p && p < b + n))
    hist := (s.hist.filter (fun w => !(b ≤ w.loc && w.loc < b + n))).map (fun w => { w with loc := shiftLoc a b n w.loc })
    blocks := s.blocks.map (fun c => (c.1, { c.2 with groups := c.2.groups.map (shiftView a b n) })) }
  setPoison s bad

/-- R214: the content stays as it is at `b`; only the coherence order and the views go back there. -/
def returnPage (s : State) (a b : Nat) : State :=
  let n := 2 ^ 16
  { s with
    hist := s.hist.map (fun w => { w with loc := shiftLoc a b n w.loc })
    blocks := s.blocks.map (fun c => (c.1, { c.2 with groups := c.2.groups.map (shiftView a b n) })) }

/-- R214, R61, R63: a promoted page is demoted; a frame that holds stores is copied home first, with the errors that the copy finds. -/
def demote (s : State) (m : Mig) : State :=
  let s := if m.dirty then movePage (findErrors s m.frame (2 ^ 16) 1 s.now (some m.ctx)) m.frame m.home else returnPage s m.frame m.home
  { s with migs := s.migs.filter (fun z => z.home != m.home) }

/-- The lowest free frame of a tenant's pool. -/
def freeFrame (s : State) (tenant : Nat) : Option Nat :=
  let used := (s.migs.filter (fun m => m.tenant == tenant)).map (·.frame)
  ((List.range (Nat.min (poolFrames s tenant) (used.length + 1))).map (poolFrame s tenant)).find? (fun f => !used.contains f)

/-- R214, R216: a page that may be promoted now: an AUTO page, or one on which a PREF is pending. -/
def promotable (s : State) (ctx : Word) (va : BitVec 64) : Option (Context × Nat) :=
  match s.ctx? ctx with
  | none => none
  | some c =>
    if c.killed then none
    else match migrates s c va, walk s c va with
      | some home, .leaf l =>
        if (migOf s home).isNone && (l.tier == 1 || prefPending s ctx (pageOf va)) && frameAble s c.tenant then some (c, home) else none
      | _, _ => none

/-- MIGRATION_PROMOTE (R214, R215): the copy of a page starts. -/
def execMigrationPromote (ctx : Word) (va : BitVec 64) (s : State) : Out :=
  .next (match promotable s ctx va with
    | none => s
    | some (c, home) =>
      let s := findWalk s c va s.now ctx
      let s := if (freeFrame s c.tenant).isSome then s else (match victim s c.tenant with | some m => demote s m | none => s)
      match freeFrame s c.tenant with
      | none => s
      | some f =>
        { s with migs := s.migs ++ [{ tenant := c.tenant, ctx := ctx, vpage := pageOf va, home := home, frame := f, transit := true,
                                      used := s.now, dirty := false, held := [] }] })

/-! The completion of accesses that were logged or held. -/

/-- The pass of an access that completes late: watchpoints have been judged already (R351). -/
def latePass (s : State) (b g : Nat) : Option Pass := (engPass s b g).map (fun p => { p with P := unwatched p.G })

/-- R153, R170: the value of a late access is written for its thread and those that share it. -/
def lateWrite (s : State) (b : Nat) (e : LogEntry) (x : LogThr) (ws : List Word) : State :=
  match e.dst with
  | none => s
  | some r =>
    let ends := (x.g, x.t) :: e.also
    match s.blk? b with
    | none => s
    | some z => foldS (fun (h : Nat × Nat) s =>
        modGrp s b (slotOf z h.1 h.2) (fun y => unpend (pendKeys (some r) ws.length [h.2]) (setReg h.2 r ws y)))
        (match r with | .v _ => ends | .s _ => [(x.g, x.t)]) s

/-- R71: the value of a late access takes its places in the journal, for its thread and those that share it; one that an immutable page
gave (at an address) leaves them, and is kept. -/
def lateJournal (s : State) (b g : Nat) (e : LogEntry) (x : LogThr) (imm : Option Nat) (bs : List Byte) : State :=
  let ts := x.t :: e.also.map (·.2)
  let spot (k : Nat) : Option (Nat × Nat) := x.jat.map (fun z => (z.1, z.2 + k * roundUp bs.length 8))
  match imm with
  | none => foldS (fun k s => fillEntry s b g (spot k) bs) (List.range ts.length) s
  | some a => foldS (fun (z : Nat × Nat) s => leaveEntry s b g (spot z.1) z.2 bs.length) (lmapIx 0 (fun k t => (k, t)) ts).reverse
      (keepImm s b g [(a, bs)])

/-- R215, R153: a late access is performed where its page now is. -/
def lateAccess (s : State) (b g : Nat) (e : LogEntry) (x : LogThr) (h : Hit) : State :=
  match e.i with
  | .join _ _ => contPerform s b g true h x.addr
  | .spawn _ => contPerform s b g false h x.addr
  | i => match memOf i with
    | none => s
    | some m =>
      let r := perform s b g i m x.addr.toNat h x.data x.cmp
      let s := match s.blk? b with | some z => countBytes z.ctx m.space m.n r.2 | none => r.2
      if m.kind.reads then lateWrite (lateJournal s b g e x (if h.imm then some x.addr.toNat else none) r.1) b e x (loadWords i r.1) else s

/-- R215, R63: one held access of group (b, g) at the new location; an atomic that meets poison there raises POISON. -/
def heldOne (m : Mig) (b g : Nat) (e : LogEntry) (x : LogThr) (s : State) : State :=
  let loc := m.frame + x.addr.toNat % 2 ^ 16
  let reads := match memOf e.i with | some k => k.kind.reads | none => true
  if reads && poisoned s loc (heldLen e) then
    takeFault s b g .replay x.t false e.pc (listMask [x.t]) (BitVec.ofNat 32 (kindCode .poison)) (sectorForm x.addr) 0
  else finishGroup (lateAccess s b g e x { loc := loc, home := some m.home }) b g

/-- R215: the held stores and atomics of a page, in the order they were held. -/
def performHeld (m : Mig) (s : State) : State :=
  foldS (fun (h : Nat × Nat × LogEntry) s => foldS (heldOne m h.1 h.2.1 h.2.2) h.2.2.thr s) m.held s

/-- R216: PREFs that a test holds for end, and those still counted decrement the promote counter. -/
def dropPrefs (p : Pref → Bool) (y : Group) : Group :=
  let n := (y.e.prefs.filter (fun r => p r && r.counted)).length
  { y with e := { y.e with prom := y.e.prom - n, prefs := y.e.prefs.filter (fun r => !p r) } }

/-- R216: the page has switched: every PREF on it ends. -/
def switchPrefs (s : State) (home : Nat) : State :=
  { s with blocks := s.blocks.map (fun c => (c.1, { c.2 with groups := c.2.groups.map (dropPrefs (fun r =>
      match s.ctx? c.2.ctx with
      | some k => (match walk s k r.page with | .leaf l => l.pa == home | _ => false)
      | none => false)) })) }

/-- PAGE_SWITCH (R215, R216): the switch of the page in transit at place `idx`. -/
def execPageSwitch (idx : Nat) (s : State) : Out :=
  .next (match s.migs[idx]? with
    | none => s
    | some m =>
      if !m.transit then s
      else
        let s := findErrors s m.home (2 ^ 16) 1 s.now (some m.ctx)
        let s := movePage s m.home m.frame
        let s := { s with migs := s.migs.map (fun z => if z.home = m.home then { z with transit := false, used := s.now, held := [] } else z) }
        let s := performHeld m (switchPrefs s m.home)
        foldS (fun (c : Nat × Block) s => finishBlock s c.1) (residents s) s)

/-- R216: a PREF of the group whose deadline has passed; one that an access waited on stays until the access has been served. -/
def prefLate (etm : Nat) (r : Pref) : Bool := r.deadline ≤ etm

/-- PREF_DEADLINE (R216). -/
def execPrefDeadline (blk grp : Nat) (s : State) : Out :=
  .next (match s.blk? blk with
    | none => s
    | some x =>
      if x.life != .resident then s
      else
        let etm := s.etm x.core
        let s := modGrp s blk grp (fun y =>
          let n := (y.e.prefs.filter (fun r => prefLate etm r && r.counted)).length
          { y with e := { y.e with prom := y.e.prom - n,
                                   prefs := (y.e.prefs.filter (fun r => !prefLate etm r || r.waited || r.copyWaited)).map (fun r =>
                                     if prefLate etm r then { r with counted := false } else r) } })
        finishGroup s blk grp)

/-! Partition registers. -/

/-- R88: the tenant has a resident context. -/
def tenantLive (s : State) (k : Nat) : Bool := s.ctxs.any (fun c => c.2.tenant == k)

/-- TENANT_WRITE (R88). -/
def execTenantWrite (hp : HPort) (k : Fin 16) (v : Word) (s : State) : Out :=
  .next (asManager s hp (fun s =>
    if tenantLive s k.val then denied s hp
    else modSh s (fun h => { h with tenants := tset h.tenants k.val (v &&& 0xC0000000) })))

/-- R81: the port on whose I/O die a window frame lies. -/
def framePort (f : Nat) : HPort := if f < 64 then .A else .B

/-- WINOWN_WRITE (R88). -/
def execWinownWrite (hp : HPort) (f : Fin 128) (v : Word) (s : State) : Out :=
  .next (asManager s hp (fun s =>
    if framePort f.val != hp || tenantLive s (tget s.sh.winown f.val 0).toNat || tenantLive s (bitsN v.toNat 0 4) then denied s hp
    else modSh s (fun h => { h with winown := tset h.winown f.val (v.setWidth 4) })))

/-- R213: the fields that MIGPOOL holds; a pool past the HBM range has EN 0. -/
def poolValue (v : BitVec 64) : BitVec 64 :=
  let v := v &&& 0x800FFFFFC0000000
  let past : Bool := decide (hbmEnd < (bitsN v.toNat 30 12 + bitsN v.toNat 42 10) * 2 ^ 30)
  if past then v &&& 0x000FFFFFC0000000 else v

/-- MIGPOOL_WRITE (R213, R88): the pages of the old pool are demoted. -/
def execMigpoolWrite (hp : HPort) (k : Fin 16) (v : BitVec 64) (s : State) : Out :=
  .next (asManager s hp (fun s =>
    if tenantLive s k.val then denied s hp
    else
      let s := foldS (fun m s => if m.tenant = k.val then demote s m else s) s.migs s
      modSh s (fun h => { h with migpool := tset h.migpool k.val (poolValue v) })))

/-- UVCTL_WRITE (R33, R35): EN, INTERVAL and CELIM; clearing EN restores nominal voltage. -/
def execUvctlWrite (hp : HPort) (x : Fin 4) (v : Word) (s : State) : Out :=
  .next (asManager s hp (fun s => modReg s x.val (fun r =>
    { r with uvAt := if v.getLsbD 31 && !r.uvEn then s.now else r.uvAt, ceCount := if v.getLsbD 31 && !r.uvEn then 0 else r.ceCount,
             uvEn := v.getLsbD 31, interval := BitVec.ofNat 8 (bitsN v.toNat 8 8), celim := v.setWidth 8,
             step := if v.getLsbD 31 then r.step else 0 })))

/-! Invalidation. Translations are taken from the tables at every access (R208), so that only BUSY shows. -/

/-- R209: an invalidation starts. -/
def invalidate (s : State) (hp : HPort) (page : Option Nat) : State :=
  if !s.up then s
  else
    let h := (s.port hp).reg
    if h.invbusy || !ownCtx s hp h.invctx then denied s hp else modHost s hp (fun h => { h with invbusy := true, invof := (h.invctx, page) })

/-- R209: an access already translated through a removed entry has not been performed: it is held in transit (R215). -/
def invBlocked (s : State) (hp : HPort) : Bool :=
  let w := (s.port hp).reg.invof
  s.migs.any (fun m => m.held.any (fun h =>
    (match s.blk? h.1 with | some x => x.ctx == w.1 | none => false) &&
    (match w.2 with | none => true | some pg => h.2.2.thr.any (fun t => t.addr.toNat / 2 ^ 16 % 2 ^ 41 == pg))))

/-- INVALIDATE_ALL (R209). -/
def execInvalidateAll (hp : HPort) (s : State) : Out := .next (invalidate s hp none)
/-- INVALIDATE_PAGE (R209): the page at `va`, whose bits below 16 name nothing. -/
def execInvalidatePage (hp : HPort) (va : BitVec 57) (s : State) : Out := .next (invalidate s hp (some (va.toNat / 2 ^ 16)))
/-- INVALIDATE_COMPLETE (R209): once the accesses translated before it have been performed. -/
def execInvalidateComplete (hp : HPort) (s : State) : Out :=
  .next (if invBlocked s hp then s else modHost s hp (fun h => { h with invbusy := false }))

/-! Replays. -/

/-- R154: the page-fault entry of a token waits to be written. -/
def faultWaits (s : State) (hp : HPort) (token : Word) : Bool :=
  (s.port hp).trap.held.any (fun h => fieldN h.bytes 0 1 == 2 && fieldN h.bytes 40 4 == token.toNat)

/-- R143, R248, R379: what a token holds up goes on. -/
def wakeToken (token : Word) (y : Group) : Group :=
  { y with
    log := y.log.map (fun e => if e.token == token then { e with woken := true } else e)
    e := { y.e with ops := y.e.ops.map (fun o => if o.susp == some token then { o with susp := none } else o) } }

/-- R154, R143: a replay of an outstanding page fault, once its entry has been written. -/
def replayFault (s : State) (hp : HPort) (f : PFault) : State :=
  if ctxPort s f.ctx != hp || faultWaits s hp f.token then s
  else
    let s := { s with
      pfaults := s.pfaults.filter (fun p => p.token != f.token)
      blocks := s.blocks.map (fun c => (c.1, { c.2 with groups := c.2.groups.map (wakeToken f.token) }))
      colls := s.colls.map (fun c => (c.1, if c.2.susp == some f.token then { c.2 with susp := none } else c.2)) }
    wakeAll s (fun k => match k with | .page t => t == f.token | _ => false)

/-- REPLAY_BY_TOKEN (R154). -/
def execReplayByToken (hp : HPort) (token : Word) (s : State) : Out :=
  .next (if !s.up then s
    else match s.pfaults.find? (fun f => f.token == token) with | some f => replayFault s hp f | none => s)

/-- R157: the page that bits [56:16] name in a canonical address. -/
def pageVa (va : BitVec 57) : BitVec 64 := pageOf (va.signExtend 64)

/-- REPLAY_BY_PAGE (R154): the page of the context in TRRCTX. -/
def execReplayByPage (hp : HPort) (va : BitVec 57) (s : State) : Out :=
  .next (if !s.up then s
    else match s.pfaults.find? (fun f => f.ctx == (s.port hp).trap.rctx && f.page == pageVa va) with
      | some f => replayFault s hp f
      | none => s)

end Sys2Proof.Machine
end

