-- ==== Sys2Proof/Machine/CoreEv.lean ====
section
/-! DEFINITION. Events of a core and its cluster: bounds and windows (R136, R137), wakes and late accesses (R143, R153), returns
and completions (R132, R249, R372, R377), matrix-unit resets (R166), the Foreman and the rings (R126, R128, R382), drains (R197). -/

namespace Sys2Proof.Machine

/-! Bounds of the issue scheduler. -/

/-- R136: the group has been ready for 4,096 cycles in a status. -/
def readyLong (s : State) (b g : Nat) (st : Status) : Bool :=
  match s.blk? b with
  | none => false
  | some x => match x.groups[g]? with
    | none => false
    | some y => x.life == .resident && y.q.status == st && !y.q.forced && (match y.q.ready with | some t => t + 4096 ≤ s.cyc x.core | none => false)

def setForced (y : Group) : Group := { y with q := { y.q with forced := true } }

/-- ACTIVE_READY_BOUND (R136): the group issues first at its lane's next switch point. -/
def execActiveReadyBound (blk grp : Nat) (s : State) : Out :=
  .next (if readyLong s blk grp .active then modGrp s blk grp setForced else s)

/-- PENDING_READY_BOUND (R136): the group takes an active slot at its lane's next switch point. -/
def execPendingReadyBound (blk grp : Nat) (s : State) : Out :=
  .next (if readyLong s blk grp .pending then modGrp s blk grp setForced else s)

/-- R137: the window of a core has lasted 256 cycles. -/
def windowOld (s : State) (c : Nat) : Bool := match (s.core c).win with | some w => w.endAt ≤ s.cyc c | none => false

/-- CLASS_WINDOW_END (R137). -/
def execClassWindowEnd (core : Nat) (s : State) : Out :=
  .next (if windowOld s core then modCore s core (fun k => { k with win := none }) else s)

/-- SLEEP_WAKE (R143): every SLEEP entry of the core whose deadline its ETM has reached. -/
def execSleepWake (core : Nat) (s : State) : Out :=
  .next (wakeCore s core (fun p => match p with | .sleep d => d ≤ s.etm core | _ => false))

/-! Logged accesses. -/

/-- What becomes of a re-issued access: its threads that stay unfinished and the new token, or the fault it meets. -/
structure Redo where
  s : State
  left : List LogThr
  token : Word
  woken : Bool
  bad : Option (FKind × Nat × BitVec 64)

/-- R217, R61: the errors that a re-issued read finds. -/
def lateErrors (s : State) (p : Pass) (m : Mem) (x : LogThr) : State :=
  findFor { p with L := [x.t] } { m with ea := fun _ _ => x.addr.toNat } s

/-- R154: how a re-issue of one thread's access ends. -/
def redoLook (s : State) (p : Pass) (e : LogEntry) (x : LogThr) : Look :=
  match e.i with
  | .join _ _ => (match s.ctx? p.B.ctx with | some c => lookDev s c p.P (s.etm p.B.core) .atomic x.addr.toNat 4 | none => .fault .perm 0 0)
  | .spawn _ => (match s.ctx? p.B.ctx with | some c => lookDev s c p.P (s.etm p.B.core) .atomic x.addr.toNat 4 | none => .fault .perm 0 0)
  | i => match memOf i with
    | some m => look p s { m with ea := fun _ _ => x.addr.toNat } x.t
    | none => .wait

/-- R71: a thread of log entry `k`, with the place that its value now has in the journal. -/
def thrNow (s : State) (b g k : Nat) (x : LogThr) : LogThr :=
  match s.grp? b g with
  | some y => (match y.log[k]? with | some e => (e.thr.find? (fun z => z.t == x.t)).getD x | none => x)
  | none => x

/-- R154, R215: one thread of a re-issued access. -/
def redoOne (b g k : Nat) (e : LogEntry) (x : LogThr) (r : Redo) : Redo :=
  let x := thrNow r.s b g k x
  if r.bad.isSome then { r with left := r.left ++ [x] }
  else match latePass r.s b g with
    | none => r
    | some p =>
      let s := match memOf e.i with | some m => lateErrors r.s p m x | none => r.s
      match redoLook s p e x with
      | .wait => { r with s := s, left := r.left ++ [x] }
      | .notPresent _ =>
        let f := pageFault s b g e.acc x.addr
        { r with s := f.2, left := r.left ++ [x], token := f.1, woken := false }
      | .fault k _ addr => { r with s := s, left := r.left ++ [x], bad := some (k, x.t, addr) }
      | .ok h => match h.hold with
        | some home => { r with s := { s with migs := s.migs.map (fun m => if m.home = home then { m with held := m.held ++ [(b, g, { e with thr := [x], token := 0 })] } else m) } }
        | none => { r with s := lateAccess s b g e x h }

/-- R153, R251: a logged gather is re-issued whole: it commits, or meets a page, or a fault. -/
def redoGath (s : State) (b g : Nat) (e : LogEntry) (x : LogThr) : Redo :=
  match latePass s b g, e.i with
  | some p, .gath d a =>
    let s := findGath p (gathD x.data) s
    let keep : Redo := { s := s, left := [x], token := e.token, woken := true, bad := none }
    (match gathLook p s (gathD x.data) with
     | .wait => keep
     | .notPresent page => let f := pageFault s b g 3 page; { keep with s := f.2, token := f.1, woken := false }
     | .fault k _ addr => { keep with bad := some (k, x.t, addr) }
     | .ok _ =>
       let o := { newOp (.gath d a) p d x.data false (wordsNat x.cmp) with dst := e.dst }
       { keep with s := gathCommit e.i { p with mask := listMask [x.t] } o (x.jat.map (·.1)) s, left := [] })
  | _, _ => { s := s, left := [], token := 0, woken := false, bad := none }

/-- R154: entry `k` as the re-issue leaves it. -/
def putBack (k : Nat) (e : LogEntry) (r : Redo) (y : Group) : Group :=
  { y with log := if r.left.isEmpty then y.log.eraseIdx k else lmod y.log k (fun z =>
      { e with thr := z.thr.filter (fun x => r.left.any (fun w => w.t == x.t)), token := r.token, woken := r.woken }) }

/-- R197, R215: the re-issue of an entry waits: no unfinished thread of it can go on now. -/
def redoWaits (s : State) (b g : Nat) (e : LogEntry) : Bool :=
  match latePass s b g with
  | none => false
  | some p =>
    if e.acc = 3 then (match e.thr with | x :: _ => gathLook p s (gathD x.data) == .wait | [] => false)
    else !e.thr.isEmpty && e.thr.all (fun x => redoLook s p e x == .wait)

/-- R148: the unfinished threads that meet the same kind. -/
def redoMask (s : State) (b g : Nat) (e : LogEntry) (k : FKind) (l : List LogThr) : BitVec 32 :=
  listMask ((l.filter (fun x => e.acc == 3 || (match latePass s b g with
    | some p => (match redoLook s p e x with | .fault m _ _ => m == k | _ => false)
    | none => false))).map (·.t))

/-- R143, R154: the oldest woken entry of the group is re-issued for its unfinished threads. PERM or poison met there is the
unhandled fault KIND 12. -/
def reissue (s : State) (b g k : Nat) (e : LogEntry) (y : Group) : State :=
  let r0 : Redo := { s := s, left := [], token := e.token, woken := e.woken, bad := none }
  let r := if e.acc = 3 then (match e.thr with | x :: _ => redoGath s b g e x | [] => r0) else foldS (fun x r => redoOne b g k e x r) e.thr r0
  let s := modGrp r.s b g (putBack k e r)
  match r.bad with
  | some (f, t, addr) => takeFault s b g .replay t false e.pc (redoMask s b g e f r.left) (BitVec.ofNat 32 (kindCode f)) addr 0
  | none => if r.left.isEmpty then afterEngine s b g
            else if r.woken then s
            else if y.q.status == .active || y.q.status == .pending then park s b g (.page r.token) else s

/-- LOGGED_ACCESS_REISSUE (R143, R154): woken log entries are re-issued in log order. -/
def execLoggedReissue (blk grp : Nat) (s : State) : Out :=
  .next (match s.blk? blk with
    | none => s
    | some x => match x.groups[grp]? with
      | none => s
      | some y =>
        match y.log.findIdx? (·.woken), y.log.find? (·.woken) with
        | some k, some e => if x.life == .resident then reissue s blk grp k e y else s
        | _, _ => s)

/-! Returns and completions. -/

/-- MEMORY_RETURN (R132): the oldest outstanding return of the group arrives. -/
def execMemoryReturn (blk grp : Nat) (s : State) : Out :=
  .next (modGrp s blk grp (fun y =>
    match y.e.returns with
    | [] => y
    | k :: r => let y := unpend k y; { y with e := { y.e with returns := r } }))

/-- R372: the accumulators and the status register of a finished slice are written. -/
def mmaDone (f : MmaFly) (y : Group) : Group :=
  let y := { y with r := { y.r with v := f.res.foldl (fun v c => wset v c.1 c.2) y.r.v } }
  let y := setStickyIf (f.status.getLsbD 1) .iovf (setStickyIf (f.status.getLsbD 2) .scalex y)
  let y := unpend (f.res.map (·.1), []) { y with e := { y.e with mma := none } }
  writeStatus f.dst f.status y

/-- R374: a member's slice of the same operation has ended. -/
def mmaEnded (s : State) (f : MmaFly) (m : Nat × Nat) : Bool :=
  match s.blk? m.1, s.grp? m.1 m.2 with
  | some x, some y => (match y.e.mma with
    | some h => h.metAt != f.metAt || h.mates != f.mates || (decide (h.endAt ≤ s.cyc x.core) && h.stuck.isNone)
    | none => true)
  | _, _ => true

/-- R374: the slice's time has passed; in paired-lane mode, where a mismatch leaves the accumulators of every member, that of every
member's slice. -/
def mmaReady (s : State) (b g : Nat) : Option MmaFly :=
  match s.blk? b, s.grp? b g with
  | some x, some y => (match y.e.mma with
    | some f => if f.endAt ≤ s.cyc x.core && f.stuck.isNone && (!x.opts.paired || f.mates.all (mmaEnded s f)) then some f else none
    | none => none)
  | _, _ => none

/-- R179: results for threads that other groups issue since a repack. -/
def writeAway (b : Nat) (l : List (Nat × Nat × Word)) (s : State) : State :=
  foldS (fun c s => modGrp s b c.1 (fun y => unpend ([c.2.1], []) { y with r := { y.r with v := wset y.r.v c.2.1 c.2.2 } })) l s

/-- MMA_COMPLETE (R372, R374). -/
def execMmaComplete (blk grp : Nat) (s : State) : Out :=
  .next (match mmaReady s blk grp with
    | some f => finishGroup (writeAway blk f.away (modGrp s blk grp (mmaDone f))) blk grp
    | none => s)

/-- R166: an operation in flight is abandoned with the accumulators as they were; the group rolls back with MXRESET set. -/
def dropFly (f : MmaFly) (y : Group) : Group :=
  let y := unpend (f.res.map (·.1), []) { y with e := { y.e with mma := none } }
  match f.dst with | some r => unpend (pendKeys (some r) 1 [0]) y | none => y
def unpendAway (b : Nat) (l : List (Nat × Nat × Word)) (s : State) : State :=
  foldS (fun c s => modGrp s b c.1 (unpend ([c.2.1], []))) l s
def mmaAbandon (s : State) (b g : Nat) : State :=
  match s.grp? b g with
  | none => s
  | some y => match y.e.mma with
    | some f => rollback (unpendAway b f.away (modGrp s b g (fun y => setSticky .mxreset (dropFly f y)))) b g
    | none => rollback s b g

/-- R166: groups with an operation in flight on a matrix unit, the one that ends first at the head. -/
def unitGroups (s : State) (core part : Nat) : List (Nat × Nat × Nat) :=
  ((residents s).flatMap (fun c => if c.2.core = core then (lmapIx 0 (fun g (y : Group) => (c.1, g, y)) c.2.groups).filterMap (fun z =>
    match z.2.2.e.mma with | some f => if partOf z.2.2.q.lane = part then some (f.endAt, z.1, z.2.1) else none | none => none) else [])).foldl
    (fun l z => (l.filter (fun w => w.1 ≤ z.1)) ++ z :: l.filter (fun w => z.1 < w.1)) []

/-- R166: the members in flight of the gangs of these groups. -/
def gangFlying (s : State) (l : List (Nat × Nat × Nat)) : List (Nat × Nat) :=
  (l.flatMap (fun z => (z.2.1, z.2.2) :: (gangMembers s z.2.1 z.2.2).filterMap (fun m => if m.2.2.e.mma.isSome then some (m.1, m.2.1) else none))).eraseDups

/-- R166: the unit has made no k-step progress for 100 µs. -/
def unitStuck (s : State) (core part : Nat) : Bool :=
  (unitGroups s core part).any (fun z => match s.grp? z.2.1 z.2.2 with
    | some y => (match y.e.mma with
      | some f => (match f.stuck with | some t => decide (t + usTicks 100 ≤ s.etm core) | none => false)
      | none => false)
    | none => false)

/-- R166: a matrix unit stops making progress with what is in flight on it. -/
def hangUnit (core part : Nat) (s : State) : State :=
  foldS (fun (z : Nat × Nat × Nat) s => modGrp s z.2.1 z.2.2 (fun y => { y with e := { y.e with mma := y.e.mma.map (fun f =>
    if f.stuck.isSome || decide (f.endAt ≤ s.cyc core) then f else { f with stuck := some (s.etm core) }) } })) (unitGroups s core part) s

/-- MATRIX_UNIT_RESET (R166, R159, R160): the third reset of a unit within 10 ms replaces the core. -/
def execMatrixUnitReset (core : Nat) (part : Fin 4) (s : State) : Out :=
  .next (let l := if unitStuck s core part.val then unitGroups s core part.val else []
    match l with
    | [] => s
    | z :: _ =>
      let ms := gangFlying s l
      let ctx := match s.blk? z.2.1 with | some x => x.ctx | none => 0
      let times := s.etm core :: (tget (s.core core).mxResets part.val []).filter (fun t => s.etm core < t + msTicks 10)
      let s := modCore s core (fun k => { k with mxResets := tset k.mxResets part.val times })
      let e := entryBytes 5 0 (dieOf core) 6 (clusterOf core) (core % 8) 0xFF (ctxTenant s ctx) 0 (s.etm core) ctx 0
        ([BitVec.ofNat 8 part.val, BitVec.ofNat 8 times.length, 0, 0] ++ leBytes 4 ms.length)
      let s := foldS (fun m s => mmaAbandon s m.1 m.2) ms s
      let s := postTrap s (ctxPort s ctx) { own := true, grp := none, bytes := e }
      if 3 ≤ times.length then replaceCore s core else s)

/-- R229: the first operation of a kind in issue order. -/
def firstOp (p : EngOp → Bool) (y : Group) : Option Nat := y.e.ops.findIdx? p

/-- COPY_COMPLETE (R248, R249): the oldest copy transfers, and completes unless it is suspended or waits. -/
def execCopyComplete (blk grp : Nat) (s : State) : Out :=
  .next (match s.grp? blk grp with
    | none => s
    | some y => match firstOp isCopy y with
      | none => s
      | some k => deliver (transfer s blk grp k) blk grp k (fun e => { e with copy := e.copy - 1 }))

/-- R229: an older gather of the group is still logged. -/
def gathBehind (y : Group) (o : EngOp) : Bool :=
  y.log.any (fun e => e.acc == 3 && e.thr.any (fun x => decide (wordsNat x.cmp < o.cid)))

/-- GATHER_COMPLETE (R251, R377). -/
def execGatherComplete (blk grp : Nat) (s : State) : Out :=
  .next (match s.grp? blk grp with
    | none => s
    | some y => match firstOp isGath y with
      | none => s
      | some k => match y.e.ops[k]? with
        | none => s
        | some o => if gathBehind y o then s else deliver (transfer s blk grp k) blk grp k (fun e => { e with gath := e.gath - 1 }))

/-! The rings. -/

/-- R126: the occupancy of a queue is at least, or at most, so many sixteenths of its slots. -/
def atLeast16 (q : Queue) (n : Nat) : Bool := n * queueSlots q ≤ 16 * occupancy q
def atMost16 (q : Queue) (n : Nat) : Bool := 16 * occupancy q ≤ n * queueSlots q

/-- R126: one queue is fuller than another, by fraction. -/
def fuller (a b : Queue) : Bool := occupancy b * queueSlots a < occupancy a * queueSlots b

/-- R126: the fullest of some queues; the first on a tie. -/
def fullest (x : Cluster) : List Nat → Option Nat
  | [] => none
  | q :: r => match fullest x r with
    | none => some q
    | some w => if fuller (x.queue w) (x.queue q) then some w else some q

/-- R126: the cores of a stage. -/
def stageCores (s : State) (k st : Nat) : List Nat :=
  ((List.range 8).map (fun j => holder s (8 * k + j))).filter (fun c =>
    let z := (s.core c).cstage
    (s.core c).enabled && !z.getLsbD 4 && bitsN z.toNat 0 4 == st)

/-- R126: the enabled queues of a stage. -/
def stageQueues (x : Cluster) (st : Nat) : List Nat := (List.range 16).filter (fun q => (x.queue q).en && (x.queue q).stage == st)

/-- R126: a stage is low. -/
def stageLow (x : Cluster) (st : Nat) : Bool :=
  !(stageQueues x st).isEmpty && (stageQueues x st).all (fun q => atMost16 (x.queue q) x.fmLo)

/-- R126: the low stage of the lowest level; the lowest stage number on a tie. -/
def lowestStage (x : Cluster) : List Nat → Option Nat
  | [] => none
  | st :: r => match lowestStage x r with
    | none => some st
    | some w => match fullest x (stageQueues x w), fullest x (stageQueues x st) with
      | some a, some b => if fuller (x.queue b) (x.queue a) then some w else some st
      | _, _ => some st

/-- FOREMAN_EVALUATE (R126, R125). -/
def execForemanEvaluate (cluster : Fin 96) (s : State) : Out :=
  .next (let k := cluster.val
    let x := s.cluster k
    if !x.fmEn then s
    else match fullest x ((List.range 16).filter (fun q => (x.queue q).en && atLeast16 (x.queue q) x.fmHi)) with
      | none => s
      | some q =>
        let hi := (x.queue q).stage
        match lowestStage x ((List.range 16).filter (fun st => st != hi && stageLow x st && 2 ≤ (stageCores s k st).length)) with
        | none => s
        | some st =>
          let may := (stageCores s k st).filter (fun c => match (s.core c).moved with | some t => t + usTicks x.fmHold ≤ s.now | none => true)
          match may.getLast? with
          | none => s
          | some c => writeCstage s c (BitVec.ofNat 32 hi))

/-- QUEUE_WINDOW_REFILL (R382, R123). -/
def execQueueWindowRefill (core : Nat) (q : Fin 16) (s : State) : Out :=
  .next (modQueue s (clusterOf core) q.val (refillWindow (core % 8)))

/-- CONTINUATION_ENQUEUE (R128): the oldest waiting record takes a free slot. -/
def execContinuationEnqueue (cluster : Fin 96) (q : Fin 16) (s : State) : Out :=
  .next (let z := (s.cluster cluster.val).queue q.val
    match z.contq with
    | [] => s
    | d :: r =>
      if z.en && occupancy z < queueSlots z then
        enqueueRec (modQueue s cluster.val q.val (fun z => { z with contq := r })) cluster.val q.val d.1 0 d.2
      else s)

/-- BANK_DRAIN_COMPLETE (R197): the bank is cleared, every granule becomes class H, and MODE and OWNER take their new values. -/
def execBankDrainComplete (cluster : Fin 96) (bank : Fin 16) (s : State) : Out :=
  .next (let k := cluster.val
    let b := bank.val
    if !((s.cluster k).bank b).drain then s
    else
      let s := clearRange s (layLoc k (b * 2 ^ 22)) (2 ^ 22)
      let s := { s with latent := s.latent.filter (fun a => !(layLoc k (b * 2 ^ 22) ≤ a && a < layLoc k ((b + 1) * 2 ^ 22))) }
      modCluster s k (fun x => { x with
        grans := x.grans.filter (fun g => bitsN (4096 * g.1) 22 4 != b)
        banks := tset x.banks b { x.bank b with mode := (x.bank b).nextMode, drain := false, owner := (x.bank b).nextOwner } }))

end Sys2Proof.Machine
end

