-- ==== Sys2Proof/Machine/Dbg.lean ====
section
/-! DEFINITION. The Spasko debug mailbox of a port (R402 to R406). -/

namespace Sys2Proof.Machine

/-- R134: groups in the active set of a lane of a core. -/
def activeOn (s : State) (c lane : Nat) : Nat :=
  (residents s).foldl (fun n b => if b.2.core = c then n + (b.2.groups.filter (fun y => y.q.status == .active &&
    (y.q.lane == lane || (b.2.opts.paired && partner y.q.lane == lane)))).length else n) 0

/-- R134: the group's lane, and its partner lane in paired-lane mode (R145), have an active slot. -/
def slotFree (s : State) (x : Block) (y : Group) : Bool :=
  activeOn s x.core y.q.lane < 8 && (!x.opts.paired || activeOn s x.core (partner y.q.lane) < 8)

/-- R134: the active groups of a lane that are not ready, else all of them. -/
def leavers (s : State) (c lane : Nat) : List (Nat × Nat × Group) :=
  let on := (residents s).flatMap (fun b => if b.2.core = c then (lmapIx 0 (fun g (y : Group) => (b.1, g, y)) b.2.groups).filter (fun z =>
    z.2.2.q.status == .active && (z.2.2.q.lane == lane || (b.2.opts.paired && partner z.2.2.q.lane == lane))) else [])
  let idle := on.filter (fun z => z.2.2.q.ready.isNone)
  if idle.isEmpty then on else idle

/-- R144, R136: a lane whose active slots have been taken meanwhile makes room for a group that returns: the youngest group that is not
ready becomes pending, or else the youngest (log entry 18). -/
def yieldSlot (s : State) (x : Block) (y : Group) : State :=
  foldS (fun l s => if activeOn s x.core l < 8 then s
    else match (leavers s x.core l).foldl (fun (r : Option (Nat × Nat × Group)) z => match r with
        | none => some z
        | some w => if w.2.2.q.age < z.2.2.q.age then some z else some w) none with
      | some z => modGrp s z.1 z.2.1 (fun y => { y with q := { y.q with status := .pending } })
      | none => s) (if x.opts.paired then [y.q.lane, partner y.q.lane] else [y.q.lane]) s

/-- R405, R144: a Halted group returns to its previous set; one of a saved block is Pending-ready once it is restored. -/
def resumeGroup (skip step : Bool) (b g : Nat) (s : State) : State :=
  match s.blk? b with
  | none => s
  | some x => match x.groups[g]? with
    | none => s
    | some y => match y.q.status with
      | .halted a =>
        let on := a && x.life == .resident
        modGrp (if on && !slotFree s x y then yieldSlot s x y else s) b g (fun y =>
          let y := setStatus (if on then .active else .pending) y
          { y with d := { y.d with skip := if skip then some y.d.haltPc else none, step := step } })
      | _ => s

/-- R402, R403, R106: every Halted group of a context resumes, as RESUME with SKIP 0 does, those of its saved blocks too. -/
def resumeAll (s : State) (ctx : Word) : State :=
  foldS (fun (c : Nat × Block) s => foldS (fun g s => resumeGroup false false c.1 g s) (List.range c.2.groups.length) s)
    (s.blocks.filter (fun c => c.2.ctx == ctx && (c.2.life == .resident || c.2.life == .saved))) s

/-- R403: the attached context, if one is. -/
def attached (s : State) (hp : HPort) : Option Word :=
  let d := (s.port hp).dbg
  if d.en && d.ctx != 0xFFFFFFFF then some d.ctx else none

/-- R403, R88: the port may attach to the context. -/
def mayAttach (s : State) (hp : HPort) (v : Word) : Bool :=
  (s.port hp).dbg.en && (v == 0xFFFFFFFF || (match s.ctx? v with | some c => c.port == hp && tenantBound s hp c.tenant | none => false))

/-- DBGCTX_WRITE (R403). -/
def execDbgctxWrite (hp : HPort) (v : Word) (s : State) : Out :=
  .next (if !s.up then s
    else if !mayAttach s hp v then denied s hp
    else
      let old := (s.port hp).dbg.ctx
      let s := if old == v || old == 0xFFFFFFFF then s else resumeAll s old
      modDbg s hp (fun d => { d with ctx := v }))

/-- DBGPOP (R403). -/
def execDbgPop (hp : HPort) (s : State) : Out := .next (if s.up then modDbg s hp (fun d => { d with posts := d.posts.drop 1 }) else s)

/-- R405: the command finishes with a status. -/
def dbgEnd (st : Nat) (hp : HPort) (s : State) : State := modDbg s hp (fun d => { d with done := true, status := st })

/-- R405: the block that a command names: the first resident one of the context with that index and DEBUG. -/
def dbgBlock (s : State) (ctx : Word) (a : DbgArg) : Option (Nat × Block) :=
  (ctxBlocks s ctx).find? (fun c => BitVec.ofNat 32 c.2.idx == a.block && c.2.opts.debug && a.group.val < c.2.groups.length)

/-- R405: a command on the named group: the refusals common to all, then its effect. `halted` asks for a Halted group. -/
def dbgCommand (hp : HPort) (a : DbgArg) (halted : Bool) (f : Nat → Block → Group → State → Nat × State) (s : State) : Out :=
  .next (if !s.up then s
    else match attached s hp with
      | none => dbgEnd 5 hp s
      | some ctx => match dbgBlock s ctx a with
        | none => dbgEnd 2 hp s
        | some (b, x) => match x.groups[a.group.val]? with
          | none => dbgEnd 2 hp s
          | some y =>
            if y.q.status == .exited then dbgEnd 2 hp s
            else if halted && (match y.q.status with | .halted _ => false | _ => true) then dbgEnd 1 hp s
            else let r := f b x y s; dbgEnd r.1 hp r.2)

def askHalt (y : Group) : Group := { y with d := { y.d with haltReq := true } }

/-- R405: every group of the context. -/
def haltAll (s : State) (ctx : Word) : State :=
  foldS (fun (c : Nat × Block) s =>
    if c.2.opts.debug then modBlk s c.1 (fun x => { x with groups := x.groups.map (fun y => if y.q.status == .exited then y else askHalt y) }) else s)
    (ctxBlocks s ctx) s

/-- DBG_HALT (R405): the group halts at its next switch point. -/
def execDbgHalt (hp : HPort) (cmd : DbgArg) (s : State) : Out :=
  if cmd.block = 0xFFFFFFFF then
    .next (if !s.up then s
      else match attached s hp with
        | none => dbgEnd 5 hp s
        | some ctx => if (ctxBlocks s ctx).any (fun c => c.2.opts.debug) then dbgEnd 0 hp (haltAll s ctx) else dbgEnd 2 hp s)
  else dbgCommand hp cmd false (fun b _ _ s => (0, modGrp s b cmd.group.val askHalt)) s

/-- DBG_RESUME (R405). -/
def execDbgResume (hp : HPort) (cmd : DbgArg) (s : State) : Out :=
  dbgCommand hp cmd true (fun b _ _ s => (0, resumeGroup cmd.skip false b cmd.group.val s)) s

/-- DBG_STEP (R405). -/
def execDbgStep (hp : HPort) (cmd : DbgArg) (s : State) : Out :=
  dbgCommand hp cmd true (fun b _ _ s => (0, resumeGroup cmd.skip true b cmd.group.val s)) s

/-- R405: a register that a command reads. -/
def dbgRead (hp : HPort) (past : Bool) (w : Word) (s : State) : Nat × State :=
  if past then (3, s) else (0, modDbg s hp (fun d => { d with data := w.setWidth 64 }))

/-- R405: the word that a command writes. -/
def dbgData (s : State) (hp : HPort) : Word := lo32 (s.port hp).dbg.data

/-- DBG_RDV (R405). -/
def execDbgRdv (hp : HPort) (cmd : DbgArg) (s : State) : Out :=
  dbgCommand hp cmd true (fun _ x y s => dbgRead hp (decide (x.h.vregs ≤ cmd.reg.toNat)) (wget y.r.v (32 * cmd.reg.toNat + cmd.thread.val)) s) s

/-- DBG_RDS (R405). -/
def execDbgRds (hp : HPort) (cmd : DbgArg) (s : State) : Out :=
  dbgCommand hp cmd true (fun _ x y s => dbgRead hp (decide (x.h.sregs ≤ cmd.reg.toNat)) (wget y.r.s cmd.reg.toNat) s) s

/-- DBG_WRV (R405). -/
def execDbgWrv (hp : HPort) (cmd : DbgArg) (s : State) : Out :=
  dbgCommand hp cmd true (fun b x _ s =>
    if x.h.vregs ≤ cmd.reg.toNat then (3, s) else (0, modGrp s b cmd.group.val (setReg cmd.thread.val (.v cmd.reg.toNat) [dbgData s hp]))) s

/-- DBG_WRS (R405). -/
def execDbgWrs (hp : HPort) (cmd : DbgArg) (s : State) : Out :=
  dbgCommand hp cmd true (fun b x _ s =>
    if x.h.sregs ≤ cmd.reg.toNat then (3, s) else (0, modGrp s b cmd.group.val (setReg 0 (.s cmd.reg.toNat) [dbgData s hp]))) s

/-- DBG_BADOP (R405): OP 7 to 15. -/
def execDbgBadop (hp : HPort) (_op : BitVec 4) (s : State) : Out := .next (if s.up then dbgEnd 4 hp s else s)

end Sys2Proof.Machine
end

