-- ==== Sys2Proof/Machine/Power.lean ====
section
/-! DEFINITION. Cooling (R22), rails (R27 to R29), the ballast injector (R30), undervolting (R32, R33) and energy (R43). -/

namespace Sys2Proof.Machine

/-- THERMAL_HOT (R22, R192): the Lamplighter refreshes class H every 100 µs, and classes B, L and W too. -/
def execThermalHot (die : Fin 8) (s : State) : Out := .next (modSh s (fun h => { h with hot := tset h.hot die.val true }))

/-- THERMAL_COOL (R22, R192). -/
def execThermalCool (die : Fin 8) (s : State) : Out := .next (modSh s (fun h => { h with hot := tdel h.hot die.val }))

/-- R28, R70: what a core keeps when its rail is lost: its health. Its stage and seed start anew; its counters count from zero from the
loss on, and again on return; that they count while the rail is off is a DESIGN CHOICE (log entry 31). -/
def coreLost (now c : Nat) (k : Core) : Core :=
  { Core.reset (c % 768) with
    t0 := now, sync := now, spares := k.spares, quar := k.quar, quarAt := k.quarAt, score := k.score, passes := k.passes, enabled := k.enabled,
    reserve := k.reserve, ring := k.ring }

/-- R28: the tiers, queues and registers of a cluster are lost; its map and its service record stay. -/
def clusterLost (now k : Nat) (x : Cluster) : Cluster := { Cluster.reset k with rail := x.rail, lastTenant := x.lastTenant, upAt := now }

/-- The clusters on a regulator (R25). -/
def railClusters (s : State) (x : Nat) : List Nat := (List.range 96).filter (fun k => (s.cluster k).rail == x)

/-- R28: contexts that held a LAYER-mode or FIFO-mode bank on one of these clusters. -/
def bankHolders (s : State) (ks : List Nat) : List Word :=
  (ks.flatMap (fun k => (s.cluster k).banks.filterMap (fun b =>
    if b.2.mode != 0 then some b.2.owner else if b.2.drain && b.2.nextMode != 0 then some b.2.nextOwner else none))).eraseDups

/-- R28 step 4: the blocks of a lost cluster are to be resumed from their phase records. -/
def loseBlock (x : Block) : Block :=
  { x with life := .saved, form := 4, preempt := false, relocate := false, wholeSaved := [], bwait := [], groups := x.groups.map (fun y =>
      if y.q.status == .exited then y else { holdTimes 0 y with e := { startEng with takes := y.e.takes }, log := [], handler := none }) }

/-- R28 steps 1 and 4: clusters lose their tiers, cores and blocks. DESIGN CHOICE (log 48): a store or atomic of a lost block that the memory
side holds for a page in transit (R215) is dropped: R29 says only that such stores may have reached memory. -/
def loseClusters (s : State) (ks : List Nat) : State :=
  let lost := ((residents s).filter (fun c => ks.contains (clusterOf c.2.core))).map (·.1)
  let s := foldS (fun k s => clearRange s (layLoc k 0) (2 ^ 26)) (ks.filter (fun k => (tget? s.clusters k).isSome)) s
  let uids := lost.flatMap (fun b => match s.blk? b with | some x => x.groups.map (·.uid) | none => [])
  let s := foldS (fun u s => dropWrites s u) uids s
  let s := foldS (fun b s => modBlk (clearRange s (scrLoc b 0) (2 ^ 23)) b loseBlock) lost s
  let inLost (a : Nat) : Bool :=
    (2 ^ 43 ≤ a && a < 2 ^ 66 && ks.contains ((a - 2 ^ 43) / 2 ^ 26)) || (2 ^ 68 ≤ a && lost.contains ((a - 2 ^ 68) / 2 ^ 23))
  { s with
    clusters := ks.foldl (fun t k => tset t k (clusterLost s.now k (s.cluster k))) s.clusters
    cores := s.cores.map (fun c => if ks.contains (clusterOf c.1) then (c.1, coreLost s.now c.1 c.2) else c)
    migs := s.migs.map (fun m => { m with held := m.held.filter (fun h => !lost.contains h.1) })
    latent := s.latent.filter (fun a => !inLost a) }

/-- R28 step 3, R159, R160: the entry of KIND 0x06. -/
def railEntry (s : State) (x : Nat) (ctx : Word) (unrec : Bool) : State :=
  match s.ctx? ctx with
  | none => s
  | some c =>
    if c.killed then s
    else
      let e := entryBytes 6 2 0xFF 0xFF 0xFF 0xFF 0xFF c.tenant 0 s.now ctx 0 [BitVec.ofNat 8 x, BitVec.ofNat 8 (bit unrec)]
      postTrap s c.port { own := false, grp := none, bytes := e }

/-- R28 step 5: the context is not resumed; all its groups park. -/
def strand (s : State) (ctx : Word) : State :=
  let s := modCtx s ctx (fun c => { c with unrecoverable := true })
  foldS (fun (c : Nat × Block) s =>
    foldS (fun (z : Nat × Group) s => park s c.1 z.1 .rail) (unfinished c.2) s) (ctxBlocks s ctx) s

/-- R28: a rail is shut. -/
def shutRail (s : State) (x : Nat) : State :=
  let ks := railClusters s x
  let holders := bankHolders s ks
  let hit := (((residents s).filter (fun c => ks.contains (clusterOf c.2.core))).map (·.2.ctx)).eraseDups
  let ctxs := ((hit ++ holders).map (·.toNat)).foldl insertNat []
  let s := loseClusters (modReg s x (fun r => { r with on := false, shut := true, step := 0 })) ks
  let s := foldS (fun (n : Nat) s => railEntry s x (BitVec.ofNat 32 n) (holders.contains (BitVec.ofNat 32 n))) ctxs s
  foldS (fun h s => strand s h) holders s

/-- RAIL_SHUTDOWN (R27, R28). -/
def execRailShutdown (x : Fin 4) (s : State) : Out := .next (if s.up && (s.reg x.val).on && !s.sh.railsOff then shutRail s x.val else s)

/-- THERMAL_SHUTDOWN (R22, R159, R160): both rings get the record; every context stops, and the core rails lose power. -/
def execThermalShutdown (die : Fin 8) (temp : BitVec 16) (s : State) : Out :=
  .next (if s.sh.railsOff then s
    else
      let e := entryBytes 9 2 die.val 0xFF 0xFF 0xFF 0xFF 0xFF 0 s.now 0xFFFFFFFF 0 ([BitVec.ofNat 8 die.val, 0] ++ leBytes 2 temp.toNat)
      let s := postBoth s e
      modSh (loseClusters s ((List.range 96).filter (fun k =>
        (tget? s.clusters k).isSome || (residents s).any (fun c => clusterOf c.2.core == k) || s.cores.any (fun c => clusterOf c.1 == k))))
        (fun h => { h with railsOff := true }))

/-- BALLAST_INJECTION (R30, R36): filler of class N is in flight on the cores of a regulator's clusters; nothing else that a program can
see changes. Demand and current are electrical: when the device injects comes from outside, and for how many cycles is free (log entry 6). -/
def execBallastInjection (x : Fin 4) (s : State) : Out :=
  let n := Config.choice s.free
  let cs := ((railClusters s x.val).flatMap (fun k => (List.range 8).map (fun j => 8 * k + j))).foldl insertNat
    ((s.cores.map (·.1)).filter (fun c => (s.cluster (clusterOf c)).rail == x.val))
  .next (note 101 (s.reg x.val).gone 1 { s with
    free := s.free + 1, cores := cs.foldl (fun t c => tset t c (addTail s.now .n n (s.core c))) s.cores })

/-- UNDERVOLT_INTERVAL (R33): one step of the voltage controller. -/
def execUndervoltInterval (x : Fin 4) (s : State) : Out :=
  .next (modReg s x.val (fun r =>
    let step :=
      if !uvHolds s x.val then 0
      else if r.ceCount ≤ r.celim.toNat then (if r.step < 12 then r.step + 1 else r.step)
      else r.step - 1
    { r with step := step, ceCount := 0 }))

/-- R42: adds energy to an account, saturating. -/
def charge (n : BitVec 64) (e : BitVec 64) : BitVec 64 := if 2 ^ 64 ≤ n.toNat + e.toNat then 0xFFFFFFFFFFFFFFFF else n + e

/-- R43: what all accounts have used of a kind since the last metering. -/
def usedAll (s : State) (kind : Nat) : Nat := (List.range 17).foldl (fun n a => n + tget s.meter (32 * kind + a) 0) 0

/-- R43: the energy that an account is charged: of each kind of use its share of what the metering finds (log entry 6); the house account
also that of idle clusters (kind + 103), and of patrol and in-field tests (102). -/
def energyOf (s : State) (a : Nat) : Nat :=
  let shares := (List.range 102).foldl (fun n k =>
    let u := tget s.meter (32 * k + a) 0
    if u = 0 then n else n + Config.energy k s.now * u / usedAll s k) 0
  if a = 16 then (List.range 96).foldl (fun n k => if usedAll s k = 0 then n + Config.energy (103 + k) s.now else n) (shares + Config.energy 102 s.now)
  else shares

/-- ENERGY_METER (R43): each account is charged what the metering finds for it. -/
def execEnergyMeter (s : State) : Out :=
  .next (modSh { s with meter := [] } (fun h =>
    { h with enacct := (List.range 17).foldl (fun t a => tset t a (charge (tget t a 0) (BitVec.ofNat 64 (Nat.min (2 ^ 64 - 1) (energyOf s a))))) h.enacct }))

end Sys2Proof.Machine
end

