-- ==== Sys2Proof/Machine/Firmware.lean ====
section
/-! DEFINITION. Bring-up and firmware images (R23, R86, R92), identity and attestation (R87). -/

namespace Sys2Proof.Machine

/-- Modular exponentiation to 65,537: sixteen squarings and a product. -/
def powE (b n : Nat) : Nat :=
  let q (x : Nat) : Nat := x * x % n
  let x := q (q (q (q (q (q (q (q b)))))))
  q (q (q (q (q (q (q (q x))))))) * b % n

/-- MGF1 with SHA-512: `k` blocks from counter `c`. -/
def mgf1 (seed : List Byte) : Nat → Nat → List Byte
  | 0, _ => []
  | k + 1, c => sha512 (seed ++ beBytes 4 c) ++ mgf1 seed k (c + 1)

/-- R86: EMSA-PSS verification of a 512-byte encoded message for a 4,095-bit bound and a salt of 64 bytes. -/
def pssOk (m em : List Byte) : Bool :=
  let masked := em.take 447
  let h := (em.drop 447).take 64
  let db0 := (masked.zip ((mgf1 h 7 0).take 447)).map (fun c => c.1 ^^^ c.2)
  let db := (db0.headD 0 &&& 0x7F) :: db0.drop 1
  em.length == 512 && (em.drop 511).headD 0 == 0xBC && masked.headD 0 &&& 0x80 == 0
    && allZero (db.take 382) && (db.drop 382).headD 0 == 1
    && sha512 (List.replicate 8 0 ++ sha512 m ++ db.drop 383) == h

/-- R86: RSASSA-PSS over a message, with the modulus as a number. DESIGN CHOICE: the 512-byte signature is read with its most significant
byte first, as RSASSA-PSS writes it; R92 marks the modulus alone as little-endian (log entry 6). -/
def rsaOk (n : Nat) (m sig : List Byte) : Bool :=
  2 ^ 4095 ≤ n && n < 2 ^ 4096 && beNat sig < n && pssOk m (beBytes 512 (powE (beNat sig) n))

/-- R86, R92: an image of a kind verifies against the fused key and a minimum version. -/
def imageOk (l : List Byte) (kind : Nat) (least : Word) : Bool :=
  let b := fieldN l 524 4
  1040 ≤ l.length && l.length ≤ 2 ^ 24 && l.length == 1040 + b && fieldN l 512 4 == 65537 && fieldN l 520 4 == kind
    && least.toNat ≤ fieldN l 516 4 && sha512 (l.take 516) == Config.fuseKey
    && rsaOk (leNat (l.take 512)) (l.take (528 + b)) ((l.drop (528 + b)).take 512)

/-- R87, R92: what runs after an image starts: its version and its measure. -/
def imageVer (l : List Byte) : Word := BitVec.ofNat 32 (fieldN l 516 4)
def startImage (kind : Nat) (l : List Byte) (b : Boot) : Boot :=
  if kind = 0 then { b with usVer := imageVer l, usHash := sha512 l } else { b with cpVer := imageVer l, cpHash := sha512 l }

/-- R23 steps 2 to 6: fuses are latched, every tier and the device range are cleared, every bank is in CACHE mode. -/
def finishBoot (s : State) : State :=
  let s := { s with
    mem := s.mem.filter (fun c => 2 ^ 66 ≤ c.1 && c.1 < 2 ^ 68), poison := [], hist := [], latent := []
    boot := { s.boot with done := true, failed := false, upAt := s.now, count := s.boot.count + 1 } }
  modHost (modHost s .A (fun h => { h with bootfail := false })) .B (fun h => { h with bootfail := false })

def failBoot (s : State) : State :=
  let s := { s with boot := { s.boot with failed := true } }
  modHost (modHost s .A (fun h => { h with bootfail := true })) .B (fun h => { h with bootfail := true })

/-- R23 step 1, R86: the images that do not run yet are verified in order; the first failure stops bring-up. -/
def tryBoot (s : State) : State :=
  let s := if s.boot.usHash.isEmpty && imageOk s.boot.usImg 0 s.boot.usMin then { s with boot := startImage 0 s.boot.usImg s.boot } else s
  if s.boot.usHash.isEmpty then failBoot s
  else
    let s := if s.boot.cpHash.isEmpty && imageOk s.boot.cpImg 1 s.boot.cpMin then { s with boot := startImage 1 s.boot.cpImg s.boot } else s
    if s.boot.cpHash.isEmpty then failBoot s else finishBoot s

/-- BRING_UP (R23). -/
def execBringUp (s : State) : Out := .next (if s.boot.done || s.boot.failed then s else tryBoot s)

/-! Images through the mailbox. -/

/-- R90: an image being staged covers its total. -/
def covers (total : Nat) (l : List (Nat × Nat)) : Bool :=
  (l.foldl (fun (r : Nat × Bool) c => if c.1 = r.1 && r.2 then (r.1 + c.2, true) else (r.1, false)) (0, true)) == (total, true)

/-- Adds a range to the staged ranges: rising, merged. -/
def addRange (o n : Nat) : List (Nat × Nat) → List (Nat × Nat)
  | [] => if n = 0 then [] else [(o, n)]
  | (a, k) :: r =>
    if n = 0 then (a, k) :: r
    else if o + n < a then (o, n) :: (a, k) :: r
    else if a + k < o then (a, k) :: addRange o n r
    else addRange (Nat.min o a) (Nat.max (o + n) (a + k) - Nat.min o a) r

/-- R92: the staged image, if it fills its total and verifies for its kind. -/
def stagedImage (b : Boot) : Option (Nat × List Byte) :=
  match b.staged with
  | none => none
  | some i =>
    let l := mgetN i.bytes 0 i.total
    if covers i.total i.filled && imageOk l i.kind (if i.kind = 0 then b.usMin else b.cpMin) then some (i.kind, l) else none

/-- R92: a verified image: started at once after a failed bring-up, which resumes; otherwise stored. -/
def install (k : Nat × List Byte) (s : State) : State :=
  let s := { s with boot := { s.boot with staged := none } }
  if s.boot.failed then tryBoot { s with boot := startImage k.1 k.2 s.boot }
  else
    let v := some (imageVer k.2, sha512 k.2)
    { s with boot := if k.1 = 0 then { s.boot with nextUs := v, usImg := k.2 } else { s.boot with nextCp := v, cpImg := k.2 } }

/-- R23, R69, R92: the module is powered on again: everything is as at power-on but the fuses' minima, the boot count and the stored images,
which take effect now, and the hosts' own memory. -/
def powerCycle (s : State) : State :=
  { State.reset with
    mem := s.mem.filter (fun c => 2 ^ 66 ≤ c.1 && c.1 < 2 ^ 68)
    boot := { Boot.reset with usMin := s.boot.usMin, cpMin := s.boot.cpMin, usImg := s.boot.usImg, cpImg := s.boot.cpImg, count := s.boot.count }
    inputs := s.inputs, free := s.free }

/-- R86: COMMIT. -/
def commitMin (b : Boot) : Boot :=
  { b with usMin := if b.usMin.toNat < b.usVer.toNat then b.usVer else b.usMin, cpMin := if b.cpMin.toNat < b.cpVer.toNat then b.cpVer else b.cpMin }

/-! Identity. -/

/-- R25: RAILMAPn. -/
def railmapWord (s : State) (n : Nat) : Nat := (List.range 16).foldl (fun w j => w + (s.cluster (16 * n + j)).rail % 4 * 4 ^ j) 0

def mgrBit (s : State) : Nat := match s.sh.mgr with | .A => 0 | .B => 1

/-- R87: the partition registers that the report digests, each as its register's four bytes. -/
def partBytes (s : State) : List Byte :=
  leBytes 4 (mgrBit s) ++ (List.range 16).flatMap (fun k => leBytes 4 (tget s.sh.tenants k 0).toNat) ++
  (List.range 128).flatMap (fun f => leBytes 4 (tget s.sh.winown f 0).toNat) ++ (List.range 6).flatMap (fun n => leBytes 4 (railmapWord s n))

/-- Bytes cut or filled with zeros to a length. -/
def fitBytes (n : Nat) (l : List Byte) : List Byte := (l ++ List.replicate n 0).take n

/-- R87: the report, bytes 0 to 271. -/
def reportBytes (s : State) (nonce : List Byte) : List Byte :=
  let dbg := s.portA.dbg.en || s.portB.dbg.en
  let uv := (List.range 4).any (fun x => (s.reg x).uvEn)
  leBytes 4 1 ++ leBytes 4 (bit dbg + 2 * bit uv + 4 * mgrBit s) ++ fitBytes 16 Config.serial ++ nonce ++ s.boot.usHash ++ s.boot.cpHash ++
  leBytes 4 s.boot.usVer.toNat ++ leBytes 4 s.boot.cpVer.toNat ++ sha512 (partBytes s) ++ leBytes 8 s.boot.count.toNat ++ leBytes 2 s.sh.devid.toNat ++
  List.replicate 6 0

/-- R86: EMSA-PSS encoding of a message with a salt of 64 bytes, and the RSA operation with a private exponent. -/
def pssEncode (m salt : List Byte) : List Byte :=
  let h := sha512 (List.replicate 8 0 ++ sha512 m ++ salt)
  let db := List.replicate 382 0 ++ [1] ++ salt
  let masked := (db.zip ((mgf1 h 7 0).take 447)).map (fun c => c.1 ^^^ c.2)
  ((masked.headD 0 &&& 0x7F) :: masked.drop 1) ++ h ++ [0xBC]
def powBits (b n d : Nat) : Nat → Nat
  | 0 => 1 % n
  | k + 1 => let x := powBits b n d k; if d.testBit (4095 - k) then x * x % n * b % n else x * x % n

/-- R86, R87: the primes of the identity key, of 2,048 bits with the two highest set, so that the modulus has 4,096. The other bits are
free, and that the two are primes is not said in Lean (log entry 6). -/
def idPrime (second : Bool) : Nat := 2 ^ 2047 + 2 ^ 2046 + Config.idPrimeBits second % 2 ^ 2046
def idModulus : Nat := idPrime false * idPrime true

/-- The inverse of a number modulo `m` by Euclid's algorithm, in at most so many steps: `r0` and `r1` are `t0` and `t1` times it. -/
def inverseMod (m : Nat) : Nat → Nat → Nat → Int → Int → Nat
  | 0, _, _, t0, _ => (t0 % (m : Int)).toNat
  | k + 1, r0, r1, t0, t1 =>
    if r1 = 0 then (t0 % (m : Int)).toNat else inverseMod m k r1 (r0 % r1) t1 (t0 - (r0 / r1 : Nat) * t1)

/-- R86: the private exponent that belongs to the public exponent 65,537. -/
def idExp : Nat :=
  let m := Nat.lcm (idPrime false - 1) (idPrime true - 1)
  inverseMod m 64 m 65537 0 1

/-- R87, R86: RSASSA-PSS with the identity key over a report; the salt of each signature is free. -/
def signReport (k : Nat) (r : List Byte) : List Byte :=
  beBytes 512 (powBits (beNat (pssEncode r (fitBytes 64 (Config.salt k)))) idModulus idExp 4096)

/-- R87: the signed report. -/
def attestReport (s : State) (nonce : List Byte) : List Byte := let r := reportBytes s nonce; r ++ signReport s.free r

/-- R90: the response of IDENT. -/
def identBytes : List Byte :=
  let cert := Config.idCert.take 3576
  leBytes 512 idModulus ++ leBytes 4 65537 ++ leBytes 4 cert.length ++ cert

end Sys2Proof.Machine
end

