-- ==== Sys2Proof/Machine/Logic.lean ====
section
/-! DEFINITION. Logic and bits: block 0x2_ (R313 to R315). -/

namespace Sys2Proof.Machine

/-- R313: a bitwise operation on both widths. -/
def logic2 (m : W2) (a b : Src) (f : BitVec 64 → BitVec 64 → BitVec 64) (p : Pass) (t : Nat) (c : Word) : Res :=
  resN (W2.words m) (f (BitVec.ofNat 64 (srcNat p t a (W2.words m) c)) (BitVec.ofNat 64 (srcNat p t b (W2.words m) c))).toNat

/-- AND (R313). -/
def execAnd (n : Bool) (d : Dst) (a b : Src) (m : W2) (s : State) : Out := runAlu (.and n d a b m) d (logic2 m a b (fun x y => x &&& y)) s

/-- OR (R313). -/
def execOr (n : Bool) (d : Dst) (a b : Src) (m : W2) (s : State) : Out := runAlu (.or n d a b m) d (logic2 m a b (fun x y => x ||| y)) s

/-- XOR (R313). -/
def execXor (n : Bool) (d : Dst) (a b : Src) (m : W2) (s : State) : Out := runAlu (.xor n d a b m) d (logic2 m a b (fun x y => x ^^^ y)) s

/-- ANDN (R313). -/
def execAndn (n : Bool) (d : Dst) (a b : Src) (m : W2) (s : State) : Out := runAlu (.andn n d a b m) d (logic2 m a b (fun x y => x &&& ~~~y)) s

/-- ORN (R313). -/
def execOrn (n : Bool) (d : Dst) (a b : Src) (m : W2) (s : State) : Out := runAlu (.orn n d a b m) d (logic2 m a b (fun x y => x ||| ~~~y)) s

/-- XNOR (R313). -/
def execXnor (n : Bool) (d : Dst) (a b : Src) (m : W2) (s : State) : Out := runAlu (.xnor n d a b m) d (logic2 m a b (fun x y => ~~~(x ^^^ y))) s

/-- R313: the three shifts of a value of any width; a count of the width or more shifts everything out. -/
def shlW {w : Nat} (x : BitVec w) (k : Nat) : BitVec w := x <<< Nat.min k w
def shrW {w : Nat} (x : BitVec w) (k : Nat) : BitVec w := x >>> Nat.min k w
def sarW {w : Nat} (x : BitVec w) (k : Nat) : BitVec w := x.sshiftRight (Nat.min k w)

/-- R313: a shift in the width of M; the count is always one register. -/
def shift2 (m : W2) (a b : Src) (f : (w : Nat) → BitVec w → Nat → BitVec w) (p : Pass) (t : Nat) (c : Word) : Res :=
  match m with
  | .b32 => res1 (f 32 (srcWord p t a 0 c) (srcWord p t b 0 c).toNat)
  | .b64 => resN 2 (f 64 (src64 p t a) (srcWord p t b 0 c).toNat).toNat

/-- SHL (R313). -/
def execShl (n : Bool) (d : Dst) (a b : Src) (m : W2) (s : State) : Out := runAlu (.shl n d a b m) d (shift2 m a b (fun _ => shlW)) s

/-- SHR (R313). -/
def execShr (n : Bool) (d : Dst) (a b : Src) (m : W2) (s : State) : Out := runAlu (.shr n d a b m) d (shift2 m a b (fun _ => shrW)) s

/-- SAR (R313). -/
def execSar (n : Bool) (d : Dst) (a b : Src) (m : W2) (s : State) : Out := runAlu (.sar n d a b m) d (shift2 m a b (fun _ => sarW)) s

/-- R313: rotation by the count modulo the width. -/
def rotRes (m : RotM) (x : BitVec 64) (k : Nat) : Res :=
  match m with
  | .l32 => res1 ((lo32 x).rotateLeft (k % 32))
  | .r32 => res1 ((lo32 x).rotateRight (k % 32))
  | .l64 => resN 2 (x.rotateLeft (k % 64)).toNat
  | .r64 => resN 2 (x.rotateRight (k % 64)).toNat

/-- ROT (R313). -/
def execRot (n : Bool) (d : Dst) (a b : Src) (m : RotM) (s : State) : Out :=
  runAlu (.rot n d a b m) d (fun p t c =>
    rotRes m (BitVec.ofNat 64 (srcNat p t a (RotM.words m) c)) (srcWord p t b 0 c).toNat) s

/-- R314: start and length of the field that B names. -/
def fieldPos (b : Word) : Nat := bitsN b.toNat 0 5
def fieldLen (b : Word) : Nat := Nat.min 32 (bitsN b.toNat 8 6)

/-- R314 EXTF. -/
def extfVal (m : ExtfM) (a b : Word) : Word :=
  let n := fieldLen b
  let f := bitsN a.toNat (fieldPos b) n
  match m with
  | .n32 => BitVec.ofNat 32 f
  | .i32 => if n != 0 && 2 ^ n ≤ 2 * f then BitVec.ofInt 32 ((f : Int) - 2 ^ n) else BitVec.ofNat 32 f

/-- R314 DEPF. -/
def depfVal (d a b : Word) : Word :=
  let mask : Word := BitVec.ofNat 32 ((2 ^ fieldLen b - 1) * 2 ^ fieldPos b)
  (d &&& ~~~mask) ||| ((a <<< fieldPos b) &&& mask)

/-- EXTF (R314). -/
def execExtf (n : Bool) (d : Dst) (a b : Src) (m : ExtfM) (s : State) : Out :=
  runAlu (.extf n d a b m) d (fun p t c => res1 (extfVal m (srcWord p t a 0 c) (srcWord p t b 0 c))) s

/-- DEPF (R314). -/
def execDepf (n : Bool) (d : Dst) (a b : Src) (s : State) : Out :=
  runAlu (.depf n d a b) d (fun p t c => res1 (depfVal (dstWord p t d 0) (srcWord p t a 0 c) (srcWord p t b 0 c))) s

/-- R315: the bits of a number, lowest first. -/
def bitList (w x : Nat) : List Bool := (List.range w).map x.testBit
def bitsNat : List Bool → Nat
  | [] => 0
  | b :: r => (if b then 1 else 0) + 2 * bitsNat r
def zerosOf : List Bool → Nat
  | false :: r => zerosOf r + 1
  | _ => 0

/-- R315: set bits, leading zeros, trailing zeros, reversal. -/
def popcVal (w x : Nat) : Nat := ((bitList w x).filter id).length
def clzVal (w x : Nat) : Nat := zerosOf (bitList w x).reverse
def ctzVal (w x : Nat) : Nat := zerosOf (bitList w x)
def brevVal (w x : Nat) : Nat := bitsNat (bitList w x).reverse

def bits1 (m : W2) (a : Src) (f : Nat → Nat → Nat) (p : Pass) (t : Nat) (c : Word) : Nat :=
  f (32 * W2.words m) (srcNat p t a (W2.words m) c)

/-- POPC (R315). -/
def execPopc (n : Bool) (d : Dst) (a : Src) (m : W2) (s : State) : Out :=
  runAlu (.popc n d a m) d (fun p t c => resN 1 (bits1 m a popcVal p t c)) s

/-- CLZ (R315). -/
def execClz (n : Bool) (d : Dst) (a : Src) (m : W2) (s : State) : Out :=
  runAlu (.clz n d a m) d (fun p t c => resN 1 (bits1 m a clzVal p t c)) s

/-- CTZ (R315). -/
def execCtz (n : Bool) (d : Dst) (a : Src) (m : W2) (s : State) : Out :=
  runAlu (.ctz n d a m) d (fun p t c => resN 1 (bits1 m a ctzVal p t c)) s

/-- BREV (R315). -/
def execBrev (n : Bool) (d : Dst) (a : Src) (m : W2) (s : State) : Out :=
  runAlu (.brev n d a m) d (fun p t c => resN (W2.words m) (bits1 m a brevVal p t c)) s

end Sys2Proof.Machine
end

