-- ==== Sys2Proof/Machine/Immediate.lean ====
section
/-! DEFINITION. Immediates and moves: block 0x3_ (R316 to R318). -/

namespace Sys2Proof.Machine

/-- R316: an I-form operation on A and the immediate. -/
def immOp (a : Src) (f : Word → Word) (p : Pass) (t : Nat) (c : Word) : Res := res1 (f (srcWord p t a 0 c))

/-- R274: the unsigned immediate. -/
def zext32 {n : Nat} (x : BitVec n) : Word := x.setWidth 32

/-- ADDI (R316). -/
def execAddi (n : Bool) (d : Dst) (a : Src) (i : BitVec 9) (s : State) : Out := runAlu (.addi n d a i) d (immOp a (· + sext32 i)) s

/-- MULI (R316). -/
def execMuli (n : Bool) (d : Dst) (a : Src) (i : BitVec 9) (s : State) : Out := runAlu (.muli n d a i) d (immOp a (· * sext32 i)) s

/-- ANDI (R316). -/
def execAndi (n : Bool) (d : Dst) (a : Src) (i : BitVec 9) (s : State) : Out := runAlu (.andi n d a i) d (immOp a (· &&& sext32 i)) s

/-- ORI (R316). -/
def execOri (n : Bool) (d : Dst) (a : Src) (i : BitVec 9) (s : State) : Out := runAlu (.ori n d a i) d (immOp a (· ||| zext32 i)) s

/-- XORI (R316). -/
def execXori (n : Bool) (d : Dst) (a : Src) (i : BitVec 9) (s : State) : Out := runAlu (.xori n d a i) d (immOp a (· ^^^ sext32 i)) s

/-- SHLI (R316). -/
def execShli (n : Bool) (d : Dst) (a : Src) (i : BitVec 9) (s : State) : Out := runAlu (.shli n d a i) d (immOp a (fun x => shlW x i.toNat)) s

/-- SHRI (R316). -/
def execShri (n : Bool) (d : Dst) (a : Src) (i : BitVec 9) (s : State) : Out := runAlu (.shri n d a i) d (immOp a (fun x => shrW x i.toNat)) s

/-- SARI (R316). -/
def execSari (n : Bool) (d : Dst) (a : Src) (i : BitVec 9) (s : State) : Out := runAlu (.sari n d a i) d (immOp a (fun x => sarW x i.toNat)) s

/-- CMPIEQ (R316). -/
def execCmpieq (n : Bool) (d : Dst) (a : Src) (i : BitVec 9) (s : State) : Out :=
  runAlu (.cmpieq n d a i) d (immOp a (fun x => boolWord (x == sext32 i))) s

/-- CMPILT (R316). -/
def execCmpilt (n : Bool) (d : Dst) (a : Src) (i : BitVec 9) (s : State) : Out :=
  runAlu (.cmpilt n d a i) d (immOp a (fun x => boolWord (x.slt (sext32 i)))) s

/-- CMPILTN (R316): the immediate is sign-extended first. -/
def execCmpiltn (n : Bool) (d : Dst) (a : Src) (i : BitVec 9) (s : State) : Out :=
  runAlu (.cmpiltn n d a i) d (immOp a (fun x => boolWord (x.ult (sext32 i)))) s

/-- MINI (R316). -/
def execMini (n : Bool) (d : Dst) (a : Src) (i : BitVec 9) (s : State) : Out :=
  runAlu (.mini n d a i) d (immOp a (fun x => if x.slt (sext32 i) then x else sext32 i)) s

/-- LDK (R317). -/
def execLdk (n : Bool) (d : Dst) (i : BitVec 16) (s : State) : Out := runAlu (.ldk n d i) d (fun _ _ _ => res1 (zext32 i)) s

/-- LDKH (R317). -/
def execLdkh (n : Bool) (d : Dst) (i : BitVec 16) (s : State) : Out :=
  runAlu (.ldkh n d i) d (fun p t _ => res1 (i ++ (dstWord p t d 0).setWidth 16)) s

/-- MOV (R317). -/
def execMov (n : Bool) (d : Dst) (a : Src) (m : MovM) (s : State) : Out :=
  runAlu (.mov n d a m) d (fun p t c => resN (MovM.words m) (srcNat p t a (MovM.words m) c)) s

/-- R318: bits interleaved, the first word's lowest bit first. -/
def interleave (k : Nat) (ws : List Word) : Word :=
  BitVec.ofNat 32 (bitsNat ((List.range k).flatMap (fun i => ws.map (fun w => w.toNat.testBit i))))

/-- MORT (R318). -/
def execMort (n : Bool) (d : Dst) (a b : Src) (m : DimM) (s : State) : Out :=
  runAlu (.mort n d a b m) d (fun p t c =>
    let x := srcWord p t a 0 c
    let y := srcWord p t b 0 c
    res1 (match m with | .d2 => interleave 16 [x, y] | .d3 => interleave 10 [x, y, dstWord p t d 0])) s

end Sys2Proof.Machine
end

