-- ==== Sys2Proof/Machine/Mailbox.lean ====
section
/-! DEFINITION. The Ussor mailbox (R89 to R92): contexts, the hypervisor's settings, communicators, identity and firmware. A
row performs its command; one that a host writes to USSCMD waits in the order of acceptance, and its port is BUSY until then. -/

namespace Sys2Proof.Machine

/-- R89 STATUS. -/
def stOk : Nat := 0
def stBusy : Nat := 1
def stDenied : Nat := 2
def stFormat : Nat := 3
def stBadop : Nat := 4
def stNotfound : Nat := 5
def stVerify : Nat := 6
def stSpace : Nat := 7

/-- R89 step 4: the response, TAG and STATUS, and MSI-X vector 2. -/
def answer (hp : HPort) (tag : Word) (st : Nat) (resp : List Byte) (s : State) : State :=
  modHost s hp (fun h => raiseMsi 2 { h with box := msetN h.box 0 resp, utag := tag, urlen := resp.length, ustatus := st })

/-- What a command gives: its status, response and state. -/
structure Ans where
  st : Nat
  resp : List Byte
  s : State

/-- A command without response. -/
def ans (st : Nat) (s : State) : Ans := { st := st, resp := [], s := s }

/-- R90: the bytes that the table names, as (offset, length), are there, and every other byte is zero. DESIGN CHOICE (log 24): a LEN short
of the bytes named gives FORMAT. -/
def namedOnly (rs : List (Nat × Nat)) (l : List Byte) : Bool :=
  rs.all (fun r => r.1 + r.2 ≤ l.length) && (lmapIx 0 (fun i b => b == 0 || rs.any (fun r => decide (r.1 ≤ i ∧ i < r.1 + r.2))) l).all id

/-- R89 BUSY: a command of the port is in progress. -/
def mailBusy (s : State) (hp : HPort) : Bool := s.sh.mail.any (fun c => c.1 == hp)

/-- R89: a command: refused while one of the port is in progress; the port may send it, its parameters have the table's form, then its effect. `mgr` marks a command of the
manager port, `boot` one that is performed while BOOTFAIL is 1. DESIGN CHOICE (log 24), where several refusals hold: a LEN above 4,096 goes
first, then DENIED for BOOTFAIL or for the port, then FORMAT for the parameters. -/
def mailbox (hp : HPort) (tag : Word) (len : BitVec 13) (mgr boot : Bool) (ok : List Byte → Bool) (f : List Byte → State → Ans) (s : State) : Out :=
  .next (if !s.up && !s.boot.failed then s
    else if mailBusy s hp then denied s hp
    else if 4096 < len.toNat then answer hp tag stFormat [] s
    else if s.boot.failed && !boot then answer hp tag stDenied [] s
    else if mgr && s.sh.mgr != hp then answer hp tag stDenied [] s
    else
      let l := mgetN (s.port hp).reg.box 0 len.toNat
      if !ok l then answer hp tag stFormat [] s
      else let r := f l s; answer hp tag r.st r.resp r.s)

/-! Contexts. -/

/-- R91: the lowest unused context identifier. -/
def freeCtx (s : State) : Nat := ((List.range 4097).find? (fun n => 1 ≤ n && (tget? s.ctxs n).isNone)).getD 4097

/-- R91: the parameters name a usable base and record area. -/
def ctxParamsOk (l : List Byte) : Bool :=
  let cbase := BitVec.ofNat 64 (fieldN l 16 8)
  let rec1 := fieldN l 24 8
  let size := fieldN l 32 4
  canonical cbase && cbase.toNat % 65536 == 0 && rec1 % 65536 == 0 && size != 0 && rec1 + 65536 * size ≤ hbmEnd

/-- R91: the new context. -/
def newCtx (hp : HPort) (l : List Byte) : Context :=
  { tenant := fieldN l 0 1, port := hp, root := BitVec.ofNat 64 (fieldN l 8 8), cbase := BitVec.ofNat 64 (fieldN l 16 8),
    recbase := fieldN l 24 8, recsize := fieldN l 32 4, killed := false, unrecoverable := false, preq := [], lastInst := none, lastClock := [] }

/-- CTXNEW (R91). -/
def execCtxNew (hp : HPort) (tag : Word) (len : BitVec 13) (s : State) : Out :=
  mailbox hp tag len false false (fun l => namedOnly [(0, 1), (8, 28)] l && decide (fieldN l 0 1 < 16)) (fun l s =>
    if !tenantBound s hp (fieldN l 0 1) then ans stDenied s
    else if !ctxParamsOk l then ans stFormat s
    else if 4096 ≤ s.ctxs.length then ans stSpace s
    else
      let n := freeCtx s
      { st := stOk, resp := leBytes 4 n, s := { s with ctxs := tset s.ctxs n (newCtx hp l) } }) s

/-- R91: the end of a context without running work. -/
def endCtx (s : State) (ctx : Word) : State :=
  let s := endTiers s ctx
  let drop (q : Subm) : Subm := { q with graphs := q.graphs.filter (fun g => g.2.ctx != ctx) }
  let s := modSub (modSub s .A drop) .B drop
  { s with ctxs := tdel s.ctxs ctx.toNat, pfaults := s.pfaults.filter (fun p => p.ctx != ctx) }

/-- CTXEND (R91). DESIGN CHOICE (log 24): an unknown identifier gives NOTFOUND, another port than the context's DENIED. -/
def execCtxEnd (hp : HPort) (tag : Word) (len : BitVec 13) (s : State) : Out :=
  mailbox hp tag len false false (namedOnly [(0, 4)]) (fun l s =>
    let ctx := BitVec.ofNat 32 (fieldN l 0 4)
    match s.ctx? ctx with
    | none => ans stNotfound s
    | some c =>
      if c.port != hp then ans stDenied s
      else if s.insts.any (fun i => i.2.ctx == ctx) then ans stBusy s
      else ans stOk (endCtx s ctx)) s

/-! The hypervisor's settings. -/

/-- R26: a regulator whose clusters belong to more than one tenant's set is marked shared; R33 then ends undervolting. -/
def sharedReg (s : State) (x : Nat) : Bool :=
  let ks := railClusters s x
  1 < ((List.range 16).filter (fun t => (tenantClusters s t).any (fun k => ks.contains k))).length
def markShared (s : State) : State :=
  foldS (fun x s => uvCheck (modReg s x (fun r => { r with shared := sharedReg s x })) x) (List.range 4) s

/-- SETCLU (R109). -/
def execSetClu (hp : HPort) (tag : Word) (len : BitVec 13) (s : State) : Out :=
  mailbox hp tag len true false (fun l => namedOnly [(0, 1), (4, 12)] l && decide (fieldN l 0 1 < 16)) (fun l s =>
    if tenantLive s (fieldN l 0 1) then ans stBusy s
    else ans stOk (markShared (modSh s (fun h => { h with cluset := tset h.cluset (fieldN l 0 1) (BitVec.ofNat 96 (fieldN l 4 12)) })))) s

/-- GETCLU (R90, R109). -/
def execGetClu (hp : HPort) (tag : Word) (len : BitVec 13) (s : State) : Out :=
  mailbox hp tag len false false (fun l => namedOnly [(0, 1)] l && decide (fieldN l 0 1 < 16)) (fun l s =>
    { st := stOk, resp := leBytes 12 (tget s.sh.cluset (fieldN l 0 1) 0).toNat, s := s }) s

/-- R26, R28: a regulator delivers power while its rail is not shut and it serves a cluster. -/
def powerRails (s : State) : State :=
  foldS (fun x s => modReg s x (fun r => { r with on := !r.shut && !(railClusters s x).isEmpty })) (List.range 4) s

/-- R26, R28: a cluster moves to a regulator; one that loses or regains power loses what it held. -/
def setRailOf (s : State) (k x : Nat) : State :=
  let was := (s.reg (s.cluster k).rail).on
  let now := !(s.reg x).shut
  let s := powerRails (modCluster s k (fun c => { c with rail := x }))
  markShared (if was == now then s else loseClusters s [k])

/-- SETRAIL (R26). -/
def execSetRail (hp : HPort) (tag : Word) (len : BitVec 13) (s : State) : Out :=
  mailbox hp tag len true false (fun l => namedOnly [(0, 2)] l && decide (fieldN l 0 1 < 96) && decide (fieldN l 1 1 < 4)) (fun l s =>
    if (residents s).any (fun b => clusterOf b.2.core == fieldN l 0 1) then ans stBusy s
    else ans stOk (setRailOf s (fieldN l 0 1) (fieldN l 1 1))) s

/-- RAILON (R28 step 7). -/
def execRailOn (hp : HPort) (tag : Word) (len : BitVec 13) (s : State) : Out :=
  mailbox hp tag len true false (fun l => namedOnly [(0, 1)] l && decide (fieldN l 0 1 < 4)) (fun l s =>
    let x := fieldN l 0 1
    if !(s.reg x).shut then ans stOk s
    else ans stOk (loseClusters (powerRails (modReg s x (fun r => { r with shut := false }))) (railClusters s x))) s

/-- SETSLOPE (R31). -/
def execSetSlope (hp : HPort) (tag : Word) (len : BitVec 13) (s : State) : Out :=
  mailbox hp tag len true false (fun l => namedOnly [(0, 1), (4, 4)] l && decide (fieldN l 0 1 < 4)) (fun l s =>
    ans stOk (modReg s (fieldN l 0 1) (fun r => { r with slope := Nat.max 50 (Nat.min 1000 (fieldN l 4 4)) }))) s

/-- CLRACCT (R42). -/
def execClrAcct (hp : HPort) (tag : Word) (len : BitVec 13) (s : State) : Out :=
  mailbox hp tag len true false (fun l => namedOnly [(0, 1)] l && decide (fieldN l 0 1 ≤ 16)) (fun l s =>
    ans stOk (modSh s (fun h => { h with enacct := tset h.enacct (fieldN l 0 1) 0 }))) s

/-- R72: a phase that runs under debug attach is unassayable. -/
def attachDebug (s : State) : State :=
  foldS (fun (c : Nat × Block) s => if debugOn s c.2 then foldS (fun g s => unassayable s c.1 g) (List.range c.2.groups.length) s else s) s.blocks s

/-- R402: DBGCTL.EN of a port; clearing it resumes the Halted groups of the context attached there. -/
def setDebug (s : State) (p : HPort) (en : Bool) : State :=
  let ctx := (s.port p).dbg.ctx
  let s := if !en && ctx != 0xFFFFFFFF then resumeAll s ctx else s
  attachDebug (modDbg s p (fun d => { d with en := en }))

/-- DEBUG (R90, R402). -/
def execDebugCmd (hp : HPort) (tag : Word) (len : BitVec 13) (s : State) : Out :=
  mailbox hp tag len true false (fun l => namedOnly [(0, 2)] l && decide (fieldN l 0 1 < 2) && decide (fieldN l 1 1 < 2)) (fun l s =>
    ans stOk (setDebug s (if fieldN l 0 1 = 0 then .A else .B) (fieldN l 1 1 == 1))) s

/-! Communicators. -/

/-- A collective of the communicator is in flight. -/
def commBusy (s : State) (k : Nat) : Bool := s.colls.any (fun c => c.2.comm == k)

/-- COMMSET's device identifiers. -/
def commIds (l : List Byte) : List Nat := (List.range (fieldN l 1 1)).map (fun i => fieldN l (4 + 2 * i) 2)

/-- COMMSET (R90, R54). -/
def execCommSet (hp : HPort) (tag : Word) (len : BitVec 13) (s : State) : Out :=
  mailbox hp tag len true false (fun l => namedOnly [(0, 2), (4, 2 * fieldN l 1 1)] l) (fun l s =>
    let p := fieldN l 1 1
    let ids := commIds l
    if p < 2 || 64 < p || ids.any (fun d => 4096 ≤ d || d == 0xFFF) || ids.eraseDups.length != p || !ids.contains s.sh.devid.toNat then ans stFormat s
    else if commBusy s (fieldN l 0 1) then ans stBusy s
    else ans stOk { s with comms := tset s.comms (fieldN l 0 1) { ids := ids.foldl insertNat [], seq := 0, heard := [] } }) s

/-- COMMCLR (R90). -/
def execCommClr (hp : HPort) (tag : Word) (len : BitVec 13) (s : State) : Out :=
  mailbox hp tag len true false (namedOnly [(0, 1)]) (fun l s =>
    let k := fieldN l 0 1
    if commBusy s k then ans stBusy s
    else if (tget? s.comms k).isNone then ans stNotfound s
    else ans stOk { s with comms := tdel s.comms k }) s

/-! Identity and firmware. -/

/-- IDENT (R87). -/
def execIdentCmd (hp : HPort) (tag : Word) (len : BitVec 13) (s : State) : Out :=
  mailbox hp tag len false true (namedOnly []) (fun _ s => { st := stOk, resp := identBytes, s := s }) s

/-- ATTEST (R87). -/
def execAttest (hp : HPort) (tag : Word) (len : BitVec 13) (s : State) : Out :=
  mailbox hp tag len false false (namedOnly [(0, 32)]) (fun l s => { st := stOk, resp := attestReport s (l.take 32), s := { s with free := s.free + 1 } }) s

/-- IMGBEGIN (R90, R92). -/
def execImgBegin (hp : HPort) (tag : Word) (len : BitVec 13) (s : State) : Out :=
  mailbox hp tag len true true (fun l => namedOnly [(0, 1), (4, 4)] l && decide (fieldN l 0 1 < 2) && decide (fieldN l 4 4 ≤ 2 ^ 24)) (fun l s =>
    ans stOk { s with boot := { s.boot with staged := some { kind := fieldN l 0 1, total := fieldN l 4 4, bytes := [], filled := [] } } }) s

/-- IMGDATA (R90). -/
def execImgData (hp : HPort) (tag : Word) (len : BitVec 13) (s : State) : Out :=
  mailbox hp tag len true true (fun l => namedOnly [(0, 4), (8, l.length - 8)] l && decide (8 ≤ l.length) && l.length % 8 == 0) (fun l s =>
    let o := fieldN l 0 4
    let n := l.length - 8
    match s.boot.staged with
    | none => ans stFormat s
    | some i =>
      if i.total < o + n then ans stFormat s
      else ans stOk { s with boot := { s.boot with staged := some { i with bytes := msetN i.bytes o (l.drop 8), filled := addRange o n i.filled } } }) s

/-- IMGEND (R92). -/
def execImgEnd (hp : HPort) (tag : Word) (len : BitVec 13) (s : State) : Out :=
  mailbox hp tag len true true (namedOnly []) (fun _ s =>
    match stagedImage s.boot with
    | none => ans stVerify s
    | some k => ans stOk (install k s)) s

/-- COMMIT (R86). -/
def execCommitCmd (hp : HPort) (tag : Word) (len : BitVec 13) (s : State) : Out :=
  mailbox hp tag len true false (namedOnly []) (fun _ s => ans stOk { s with boot := commitMin s.boot }) s

/-- The commands of R90. -/
def mailOps : List Nat := [0x01, 0x02, 0x10, 0x11, 0x12, 0x13, 0x14, 0x15, 0x16, 0x17, 0x18, 0x20, 0x21, 0x30, 0x31, 0x32, 0x33]

/-- MAILBOX_BADOP (R89): an OP that R90 does not list. -/
def execMailboxBadop (hp : HPort) (tag : Word) (_len : BitVec 13) (_op : BitVec 8) (s : State) : Out :=
  .next (if !s.up && !s.boot.failed then s else if mailBusy s hp then denied s hp else answer hp tag stBadop [] s)

/-- R89: the command that USSCMD names. -/
def mailCommand (hp : HPort) (tag : Word) (len : BitVec 13) (op : Nat) (s : State) : Out :=
  match op with
  | 0x01 => execCtxNew hp tag len s
  | 0x02 => execCtxEnd hp tag len s
  | 0x10 => execSetClu hp tag len s
  | 0x11 => execGetClu hp tag len s
  | 0x12 => execSetRail hp tag len s
  | 0x13 => execRailOn hp tag len s
  | 0x14 => execSetSlope hp tag len s
  | 0x15 => execClrAcct hp tag len s
  | 0x16 => execDebugCmd hp tag len s
  | 0x17 => execCommSet hp tag len s
  | 0x18 => execCommClr hp tag len s
  | 0x20 => execIdentCmd hp tag len s
  | 0x21 => execAttest hp tag len s
  | 0x30 => execImgBegin hp tag len s
  | 0x31 => execImgData hp tag len s
  | 0x32 => execImgEnd hp tag len s
  | 0x33 => execCommitCmd hp tag len s
  | _ => execMailboxBadop hp tag len (BitVec.ofNat 8 op) s

/-- R89: a word written to USSCMD is performed; a reserved bit that is not zero gives FORMAT. -/
def mailRun (hp : HPort) (w : BitVec 64) (s : State) : State :=
  let v := w.toNat
  let tag := BitVec.ofNat 32 (v / 2 ^ 32)
  if bitsN v 29 3 != 0 || bitsN v 8 8 != 0 then (if !s.up && !s.boot.failed then s else answer hp tag stFormat [] s)
  else match mailCommand hp tag (BitVec.ofNat 13 (bitsN v 16 13)) (bitsN v 0 8) s with | .next t => t | _ => s

/-- R89: the oldest accepted command is performed; the port's buffer, which nothing has changed since, holds its parameters. -/
def performMail (s : State) : State :=
  match s.sh.mail with
  | [] => s
  | c :: r => mailRun c.1 c.2 (modSh s (fun h => { h with mail := r }))

/-- R89: a write of USSCMD, while no command of the port is in progress. -/
def submitMail (hp : HPort) (w : BitVec 64) (s : State) : State :=
  if !s.up && !s.boot.failed then s
  else if mailBusy s hp then denied s hp
  else modSh s (fun h => { h with mail := h.mail ++ [(hp, w)] })

end Sys2Proof.Machine
end

