-- ==== Sys2Proof/Machine/Regs.lean ====
section
/-! DEFINITION. BAR A (R78, R79): the register map of a port, reads with the read latch, and writes by the access codes of R7. -/

namespace Sys2Proof.Machine

/-- The registers of BAR A. -/
inductive BReg where
  | trigger | loadstat | subseq | crbase | crcfg | crd | cmpseq | crreplay | crstat | invctx | invaddr | invstat
  | flush (k : Nat)
  | trbase | trcfg | trwix | trrix | trstat | trrctx | trreplay | trwd | ctxkill | preq
  | dbgctl | dbgctx | dbgstat | dbgrec (k : Nat) | dbgpop | dbgcmd | dbgdata | dbgres
  | hoststat | apbase0 | apbase1 | msix (k : Nat) | msixPend
  | usscmd | ussstat | ussbuf (k : Nat)
  | railmap (n : Nat) | balslope (x : Nat) | uvctl (x : Nat) | enacct (k : Nat)
  | devid | rtab (k : Nat) | lnkctl (p : Nat) | lnkstat (p : Nat)
  | assayctl | assaycnt | susp (c : Nat)
  | dieinfo (n : Nat) | cyc (c : Nat) | etm (c : Nat)
  | partctl | tenant (k : Nat) | winown (f : Nat) | migpool (k : Nat)
  deriving DecidableEq, Repr

/-- R84, R93, R95, R209: the command block. -/
def commandReg (o : Nat) : Option BReg :=
  match o / 8 with
  | 0 => some .trigger
  | 17 => some .invaddr
  | 9 => some .crbase
  | k => if o % 8 = 4 then none else match k with
    | 1 => some .loadstat | 8 => some .subseq | 10 => some .crcfg | 11 => some .crd | 12 => some .cmpseq | 13 => some .crreplay
    | 14 => some .crstat | 16 => some .invctx | 18 => some .invstat | _ => none

/-- R157, R403: the trap-ring block. -/
def trapReg (o : Nat) : Option BReg :=
  if 0x120 ≤ o && o < 0x140 then some (.dbgrec ((o - 0x120) / 4))
  else match o / 8 with
    | 0 => some .trbase
    | 6 => some .trreplay
    | 0x28 => some .dbgpop
    | 0x29 => some .dbgcmd
    | 0x2A => some .dbgdata
    | k => if o % 8 = 4 then none else match k with
      | 1 => some .trcfg | 2 => some .trwix | 3 => some .trrix | 4 => some .trstat | 5 => some .trrctx | 7 => some .trwd
      | 8 => some .ctxkill | 9 => some .preq | 0x20 => some .dbgctl | 0x21 => some .dbgctx | 0x22 => some .dbgstat | 0x2B => some .dbgres
      | _ => none

/-- R80, R77: the host status block; 3 vectors of 16 bytes in the MSI-X table. -/
def statusReg (o : Nat) : Option BReg :=
  if 0x1000 ≤ o && o < 0x1030 then some (.msix ((o - 0x1000) / 4))
  else if o / 8 = 0x400 then some .msixPend
  else match o / 8 with
    | 1 => some .apbase0
    | 2 => some .apbase1
    | _ => if o = 0 then some .hoststat else none

/-- R89: the mailbox block. -/
def mailReg (o : Nat) : Option BReg :=
  if 0x1000 ≤ o && o < 0x2000 then some (.ussbuf ((o - 0x1000) / 4))
  else match o / 8 with | 0 => some .usscmd | 1 => some .ussstat | _ => none

/-- R79: the shared blocks. -/
def powerReg (o : Nat) : Option BReg :=
  if o < 24 then some (.railmap (o / 4))
  else if 0x100 ≤ o && o < 0x110 then some (.balslope ((o - 0x100) / 4))
  else if 0x200 ≤ o && o < 0x210 then some (.uvctl ((o - 0x200) / 4))
  else if 0x400 ≤ o && o < 0x400 + 136 then some (.enacct ((o - 0x400) / 8))
  else none
def linkReg (o : Nat) : Option BReg :=
  if o = 0 then some .devid
  else if 0x1000 ≤ o && o < 0x1800 then some (.rtab ((o - 0x1000) / 4))
  else if 0x2000 ≤ o && o < 0x2060 then (if o % 8 = 0 then some (.lnkctl ((o - 0x2000) / 8)) else some (.lnkstat ((o - 0x2000) / 8)))
  else none
def reliabReg (o : Nat) : Option BReg :=
  if o < 8 then some .assayctl
  else if o < 16 then some .assaycnt
  else if 0x1000 ≤ o && o < 0x1000 + 4 * 768 then some (.susp ((o - 0x1000) / 4))
  else none
def dieReg (o : Nat) : Option BReg :=
  if o < 32 then some (.dieinfo (o / 4))
  else if 0x1000 ≤ o && o < 0x1000 + 16 * 768 then (if o % 16 < 8 then some (.cyc ((o - 0x1000) / 16)) else some (.etm ((o - 0x1000) / 16)))
  else none
def partReg (o : Nat) : Option BReg :=
  if o = 0 then some .partctl
  else if 0x100 ≤ o && o < 0x140 then some (.tenant ((o - 0x100) / 4))
  else if 0x200 ≤ o && o < 0x400 then some (.winown ((o - 0x200) / 4))
  else if 0x400 ≤ o && o < 0x480 then some (.migpool ((o - 0x400) / 8))
  else none

/-- R79: the register at an offset, a multiple of 4. -/
def regAt (off : Nat) : Option BReg :=
  let o := off % 2 ^ 16
  match off / 2 ^ 16 with
  | 0 => commandReg o | 1 => if o < 0x20 then some (.flush (o / 8)) else none | 2 => trapReg o | 3 => statusReg o | 4 => mailReg o
  | 0x10 => powerReg o | 0x20 => linkReg o | 0x30 => reliabReg o | 0x40 => dieReg o | 0x50 => partReg o
  | _ => none

/-- Registers of 64 bits. -/
def BReg.wide : BReg → Bool
  | .trigger => true | .crbase => true | .invaddr => true | .flush _ => true | .trbase => true | .trreplay => true | .dbgpop => true
  | .dbgcmd => true | .dbgdata => true | .apbase0 => true | .apbase1 => true | .usscmd => true | .ussstat => true | .enacct _ => true
  | .assayctl => true | .assaycnt => true | .msixPend => true | .cyc _ => true | .etm _ => true | .migpool _ => true
  | _ => false

/-- R78: registers whose write starts an action. -/
def BReg.action : BReg → Bool
  | .trigger => true | .flush k => k == 3 | .usscmd => true | .invaddr => true | .trreplay => true | .dbgpop => true | .dbgcmd => true
  | _ => false

/-! Values. -/

/-- R80 HOSTSTAT. -/
def hostStat (h : HostRegs) : Nat := 16 * bit h.unbacked + 8 * bit h.seqerr + 4 * bit h.denied + 2 * bit h.badacc + bit h.bootfail

/-- R403: a group of the attached context is Halted. -/
def anyHalted (s : State) (hp : HPort) : Bool :=
  s.blocks.any (fun c => c.2.ctx == (s.port hp).dbg.ctx && (c.2.life == .resident || c.2.life == .saved) && c.2.groups.any (fun y => match y.q.status with | .halted _ => true | _ => false))

/-- R15: DIEINFO. -/
def dieinfo (s : State) (n : Nat) : Nat :=
  let dead := ((List.range 96).filter (fun k => !(s.core (holder s (96 * n + k))).enabled)).length
  (Config.srev n).toNat * 2 ^ 24 + 100 * 2 ^ 16 + (96 - dead) * 2 ^ 8 + reserveLeft s n * 2 ^ 4 + n

/-- R35: UVCTL. -/
def uvctlValue (s : State) (x : Nat) : Nat :=
  let r := s.reg x
  bit r.uvEn * 2 ^ 31 + bit r.shared * 2 ^ 30 + (420 + (Config.nomv x).val) * 2 ^ 20 + r.step * 2 ^ 16 + r.interval.toNat * 2 ^ 8 + r.celim.toNat

/-- R53: LNKSTATp. -/
def lnkstatValue (l : Link) : Nat := bit l.up * 2 ^ 31 + bit l.stall * 2 ^ 30 + bit l.noroute * 2 ^ 29 + bit l.badtype * 2 ^ 28 + l.replays

/-- R76. -/
def assayctlValue (h : Shared) : Nat := bit h.assayEn * 2 ^ 63 + bit h.logmatch * 2 ^ 62 + h.assayBase.toNat * 2 ^ 16 + h.assaySize.toNat
def assaycntValue (h : Shared) : Nat :=
  h.cntMismatch.toNat * 2 ^ 48 + h.cntUnassay.toNat * 2 ^ 32 + h.cntSkipped.toNat * 2 ^ 16 + h.cntMatch.toNat
def suspValue (k : Core) : Nat := bit k.quar * 2 ^ 31 + k.score * 2 ^ 16 + k.passes

/-- What a read of a register returns (R7: WO and RZ read zero). -/
def regValue (s : State) (hp : HPort) (r : BReg) : Nat :=
  let p := s.port hp
  match r with
  | .trigger => 0 | .crreplay => 0 | .invaddr => 0 | .flush _ => 0 | .trreplay => 0 | .ctxkill => 0 | .preq => 0 | .dbgpop => 0 | .dbgcmd => 0
  | .usscmd => 0
  | .loadstat => p.sub.loadGraph.toNat * 2 ^ 16 + p.sub.loadStat.toNat
  | .subseq => p.sub.subseq.toNat
  | .crbase => p.sub.crbase.toNat
  | .crcfg => p.sub.crcfg.toNat
  | .crd => p.sub.crd.toNat
  | .cmpseq => p.sub.cmpseq.toNat
  | .crstat => bit p.sub.lost
  | .invctx => p.reg.invctx.toNat
  | .invstat => bit p.reg.invbusy * 2 ^ 31
  | .trbase => p.trap.base.toNat
  | .trcfg => bit p.trap.en * 2 ^ 31 + p.trap.size.toNat
  | .trwix => p.trap.wix.toNat
  | .trrix => p.trap.rix.toNat
  | .trstat => bit p.trap.ovf * 2 ^ 31 + bit p.trap.drop * 2 ^ 30 + p.trap.held.length % 2 ^ 16
  | .trrctx => p.trap.rctx.toNat
  | .trwd => p.trap.rdvwd.toNat * 2 ^ 16 + p.trap.barwd.toNat
  | .dbgctl => bit p.dbg.en * 2 ^ 31
  | .dbgctx => p.dbg.ctx.toNat
  | .dbgstat => bit (anyHalted s hp) * 2 ^ 31 + p.dbg.drops * 2 ^ 16 + p.dbg.posts.length
  | .dbgrec k => fieldN (p.dbg.posts.headD []) (4 * k) 4
  | .dbgdata => p.dbg.data.toNat
  | .dbgres => bit p.dbg.done * 2 ^ 31 + p.dbg.status
  | .hoststat => hostStat p.reg
  | .apbase0 => p.reg.apbase0.toNat * 2 ^ 30
  | .apbase1 => p.reg.apbase1.toNat * 2 ^ 30
  | .msix k => leNat (mgetN p.reg.msix (4 * k) 4)
  | .msixPend => p.reg.pend.toNat
  | .ussstat => p.reg.utag.toNat * 2 ^ 32 + bit (mailBusy s hp) * 2 ^ 31 + p.reg.urlen * 2 ^ 16 + p.reg.ustatus
  | .ussbuf k => if mailBusy s hp then 0 else leNat (mgetN p.reg.box (4 * k) 4)
  | .railmap n => railmapWord s n
  | .balslope x => (s.reg x).slope
  | .uvctl x => uvctlValue s x
  | .enacct k => (tget s.sh.enacct k 0).toNat
  | .devid => s.sh.devid.toNat
  | .rtab k => (tget s.sh.rtab k 0xFFFFFFFF).toNat
  | .lnkctl p => bit (s.link p).en
  | .lnkstat p => lnkstatValue (s.link p)
  | .assayctl => assayctlValue s.sh
  | .assaycnt => assaycntValue s.sh
  | .susp c => suspValue (s.core (holder s c))
  | .dieinfo n => dieinfo s n
  | .cyc c => s.cyc (holder s c) % 2 ^ 64
  | .etm c => s.etm (holder s c) % 2 ^ 64
  | .partctl => mgrBit s
  | .tenant k => (tget s.sh.tenants k 0).toNat
  | .winown f => (tget s.sh.winown f 0).toNat
  | .migpool k => (tget s.sh.migpool k 0).toNat

/-- R86: registers that answer where bring-up has failed. DESIGN CHOICE: no others answer while it has not completed either, and BARs B
and C do not (log entry 21). -/
def BReg.early : BReg → Bool
  | .hoststat => true | .usscmd => true | .ussstat => true | .ussbuf _ => true | _ => false
def answers (s : State) (r : BReg) : Bool := s.up || r.early

/-! Reads. -/

/-- R78: the current word at an offset. -/
def wordAt (s : State) (hp : HPort) (off : Nat) : Nat :=
  match regAt off with
  | none => 0
  | some r => if !answers s r then 0 else (if r.wide && off % 8 == 4 then regValue s hp r / 2 ^ 32 else regValue s hp r) % 2 ^ 32

/-- R78: the register is a 64-bit one. -/
def wideAt (s : State) (off : Nat) : Bool := match regAt off with | some r => r.wide && answers s r | none => false

/-- R78: a 4-byte read and the read latch. -/
def read4 (s : State) (hp : HPort) (off : Nat) : Nat × State :=
  if !wideAt s off then (wordAt s hp off, s)
  else if off % 8 = 0 then
    (wordAt s hp off, modHost s hp (fun h => { h with rlatch := some (off, BitVec.ofNat 32 (wordAt s hp (off + 4))) }))
  else match (s.port hp).reg.rlatch with
    | some (o, w) => ((if o + 4 = off then w.toNat else wordAt s hp off), s)
    | none => (wordAt s hp off, s)

/-- R78: a naturally aligned access of 4 or 8 bytes. -/
def accessOk (off size : Nat) : Bool := (size == 4 || size == 8) && off % size == 0
def badAccess (s : State) (hp : HPort) : State := modHost s hp (fun h => { h with badacc := true })

/-- READ_LATCH_LOAD (R78): a host read of BAR A; one of 4 bytes at the low half of a 64-bit register loads the latch. -/
def execReadLatchLoad (hp : HPort) (off : BitVec 26) (size : Nat) (s : State) : Out :=
  .next (let o := off.toNat
    if !accessOk o size then badAccess (respond s hp (List.replicate size 0) false) hp
    else if size = 8 then respond s hp (leBytes 8 (wordAt s hp o + 2 ^ 32 * wordAt s hp (o + 4))) false
    else let r := read4 s hp o; respond r.2 hp (leBytes 4 r.1) false)

/-! Writes. -/

/-- The state an instruction leaves. -/
def nextOf (f : State → Out) (s : State) : State := match f s with | .next t => t | _ => s

/-- R78: the written half, or the whole, over the current value. -/
def mergeW (old m v : BitVec 64) : BitVec 64 := (old &&& ~~~m) ||| (v &&& m)

/-- R93, R94: a trigger write. -/
def writeTrigger (hp : HPort) (v : Nat) : State → State :=
  let sseq := BitVec.ofNat 32 (v / 2 ^ 32)
  let g := BitVec.ofNat 10 (bitsN v 18 10)
  let o := BitVec.ofNat 18 v
  nextOf (match bitsN v 28 2 with
    | 0 => execTriggerLaunch hp sseq (bitsN v 31 1 == 1) (bitsN v 30 1 == 1) g o
    | 1 => execTriggerLoad hp sseq g o
    | 2 => execTriggerUnload hp sseq g
    | _ => execTriggerBadop hp sseq g)

/-- R85: a write of FLUSHCMD: words 0 to 2 stage, word 3 submits. -/
def writeFlush (hp : HPort) (k : Nat) (m v : BitVec 64) : State → State :=
  let stage (f : Subm → Subm) (s : State) : State := if s.up then modSub s hp f else s
  match k with
  | 0 => stage (fun q => { q with fl0 := mergeW q.fl0 m v })
  | 1 => stage (fun q => { q with fl1 := mergeW q.fl1 m v })
  | 2 => stage (fun q => { q with fl2 := mergeW q.fl2 m v })
  | _ =>
    let n := v.toNat
    let order := bitsN n 40 1 == 1
    let len := BitVec.ofNat 32 n
    nextOf (match bitsN n 32 8 with
      | 0 => execFlushDeviceToHost hp order len
      | 1 => execFlushHostToDevice hp order len
      | d => execFlushBadDir hp (BitVec.ofNat 8 d) order len)

/-- R405: the fields of DBGCMD. -/
def dbgArg (v : Nat) : DbgArg :=
  { thread := ⟨bitsN v 55 5, Nat.mod_lt _ (by decide)⟩, group := ⟨bitsN v 50 5, Nat.mod_lt _ (by decide)⟩, reg := BitVec.ofNat 9 (bitsN v 41 9),
    skip := bitsN v 40 1 == 1, block := BitVec.ofNat 32 v }

/-- R405: a write of DBGCMD. -/
def writeDbgcmd (hp : HPort) (v : Nat) : State → State :=
  let a := dbgArg v
  nextOf (match bitsN v 60 4 with
    | 0 => execDbgHalt hp a | 1 => execDbgResume hp a | 2 => execDbgStep hp a | 3 => execDbgRdv hp a | 4 => execDbgWrv hp a
    | 5 => execDbgRds hp a | 6 => execDbgWrs hp a | k => execDbgBadop hp (BitVec.ofNat 4 k))

/-- R53: a write of LNKCTLp. That one which takes EN from 1 to 0 takes the link down is a DESIGN CHOICE (log entry 45). -/
def writeLnkctl (hp : HPort) (p : Nat) (v : Nat) (s : State) : State :=
  if v % 2 = 1 then asManager s hp (fun s => modLink s p trainLink)
  else asManager s hp (fun s => if (s.link p).en then modLink (linkDown s p) p (fun l => { l with en := false }) else s)

/-- R157: TRREPLAY. -/
def writeTrreplay (hp : HPort) (v : Nat) : State → State :=
  nextOf (if bitsN v 63 1 = 0 then execReplayByToken hp (BitVec.ofNat 32 v) else execReplayByPage hp (BitVec.ofNat 57 v))

/-- R157: a context created through this port may be named. -/
def writeTrrctx (hp : HPort) (v : Word) (s : State) : State :=
  if ownCtx s hp v then modTrap s hp (fun r => { r with rctx := v }) else denied s hp

/-- R76: ASSAYCTL. -/
def setAssayctl (v : Nat) (h : Shared) : Shared :=
  { h with assayEn := bitsN v 63 1 == 1, logmatch := bitsN v 62 1 == 1, assayBase := BitVec.ofNat 26 (bitsN v 16 26), assaySize := BitVec.ofNat 4 v }

/-- R7, R76: ASSAYCNT. -/
def clearAssaycnt (v : Nat) (h : Shared) : Shared :=
  let c (x : BitVec 16) (k : Nat) : BitVec 16 := x &&& ~~~(BitVec.ofNat 16 (v / 2 ^ k))
  { h with cntMismatch := c h.cntMismatch 48, cntUnassay := c h.cntUnassay 32, cntSkipped := c h.cntSkipped 16, cntMatch := c h.cntMatch 0 }

/-- R80: HOSTSTAT. -/
def clearHostStat (v : Nat) (h : HostRegs) : HostRegs :=
  { h with unbacked := h.unbacked && !v.testBit 4, seqerr := h.seqerr && !v.testBit 3, denied := h.denied && !v.testBit 2,
           badacc := h.badacc && !v.testBit 1 }

/-- R53: LNKSTATp. -/
def clearLnkstat (v : Nat) (l : Link) : Link :=
  { l with stall := l.stall && !v.testBit 30, noroute := l.noroute && !v.testBit 29, badtype := l.badtype && !v.testBit 28 }

/-- R7: a write to a register: `m` covers the bytes written, `v` holds them in their place. -/
def writeReg (hp : HPort) (r : BReg) (m v : BitVec 64) (s : State) : State :=
  let n := v.toNat
  let w : Word := lo32 v
  let merged (s : State) : BitVec 64 := mergeW (BitVec.ofNat 64 (regValue s hp r)) m v
  match r with
  | .trigger => writeTrigger hp n s
  | .subseq => nextOf (execSubseqWrite hp w) s
  | .crbase => modSub s hp (fun q => { q with crbase := merged s &&& ~~~0x3F#64 })
  | .crcfg => modSub s hp (fun q => { q with crcfg := w.setWidth 4 })
  | .crd => modSub s hp (fun q => { q with crd := w })
  | .crreplay => nextOf (execCrReplay hp w) s
  | .crstat => modSub s hp (fun q => { q with lost := q.lost && !n.testBit 0 })
  | .invctx => modHost s hp (fun h => { h with invctx := w })
  | .invaddr => nextOf (if n.testBit 63 then execInvalidateAll hp else execInvalidatePage hp (BitVec.ofNat 57 n)) s
  | .flush k => writeFlush hp k m v s
  | .trbase => modTrap s hp (fun t => { t with base := merged s &&& 0x3FFFFFFF000#64 })
  | .trcfg => modTrap s hp (fun t => { t with en := n.testBit 31, size := w.setWidth 5 })
  | .trrix => nextOf (execTrrixWrite hp w) s
  | .trstat => modTrap s hp (fun t => { t with ovf := t.ovf && !n.testBit 31, drop := t.drop && !n.testBit 30 })
  | .trrctx => writeTrrctx hp w s
  | .trreplay => writeTrreplay hp n s
  | .trwd => modTrap s hp (fun t => { t with rdvwd := BitVec.ofNat 16 (n / 2 ^ 16), barwd := BitVec.ofNat 16 n })
  | .ctxkill => nextOf (execCtxKill hp w) s
  | .preq => nextOf (execPreemptRequest hp w) s
  | .dbgctx => nextOf (execDbgctxWrite hp w) s
  | .dbgstat => modDbg s hp (fun d => { d with drops := d.drops &&& (255 - bitsN n 16 8) })
  | .dbgpop => nextOf (execDbgPop hp) s
  | .dbgcmd => writeDbgcmd hp n s
  | .dbgdata => modDbg s hp (fun d => { d with data := merged s })
  | .hoststat => modHost s hp (clearHostStat n)
  | .apbase0 => modHost s hp (fun h => { h with apbase0 := BitVec.ofNat 12 ((merged s).toNat / 2 ^ 30) })
  | .apbase1 => modHost s hp (fun h => { h with apbase1 := BitVec.ofNat 12 ((merged s).toNat / 2 ^ 30) })
  -- R8: of a vector's control word only MASK is a field
  | .msix k => modHost s hp (fun h => clearPend { h with msix := msetN h.msix (4 * k) (leBytes 4 (if k % 4 = 3 then n % 2 else n)) })
  | .usscmd => submitMail hp v s
  | .ussbuf k => if mailBusy s hp then s else modHost s hp (fun h => { h with box := msetN h.box (4 * k) (leBytes 4 n) })
  | .uvctl x => nextOf (execUvctlWrite hp (Fin.ofNat 4 x) w) s
  | .devid => nextOf (execDevidWrite hp w) s
  | .rtab k => asManager s hp (fun s => modSh s (fun h => { h with rtab := tset h.rtab k w }))
  | .lnkctl p => writeLnkctl hp p n s
  | .lnkstat p => asManager s hp (fun s => modLink s p (clearLnkstat n))
  | .assayctl => asManager s hp (fun s => modSh s (setAssayctl (merged s).toNat))
  | .assaycnt => asManager s hp (fun s => modSh s (clearAssaycnt n))
  | .partctl => asManager s hp (fun s => modSh s (fun h => { h with mgr := if n.testBit 0 then .B else .A }))
  | .tenant k => nextOf (execTenantWrite hp (Fin.ofNat 16 k) w) s
  | .winown f => nextOf (execWinownWrite hp (Fin.ofNat 128 f) w) s
  | .migpool k => nextOf (execMigpoolWrite hp (Fin.ofNat 16 k) (merged s)) s
  | .railmap _ => asManager s hp id
  | .balslope _ => asManager s hp id
  | .enacct _ => asManager s hp id
  | .susp _ => asManager s hp id
  | .dieinfo _ => asManager s hp id
  | .cyc _ => asManager s hp id
  | .etm _ => asManager s hp id
  | .msixPend => s | .loadstat => s | .cmpseq => s | .invstat => s | .trwix => s | .dbgctl => s | .dbgrec _ => s | .dbgres => s | .ussstat => s

/-- R79: the offsets of the shared blocks. -/
def sharedBlock (off : Nat) : Bool := decide (0x100000 ≤ off ∧ off < 0x600000)

/-- R78, R79: a write of 4 bytes; the other port may write no offset of a shared block, occupied or not. -/
def write4 (hp : HPort) (off : Nat) (v : Word) (s : State) : State :=
  match regAt off with
  | none => if sharedBlock off then asManager s hp id else s
  | some r =>
    if !answers s r then s
    else if r.action then badAccess s hp
    else if r.wide && off % 8 == 4 then writeReg hp r 0xFFFFFFFF00000000 (v.setWidth 64 <<< 32) s
    else writeReg hp r 0xFFFFFFFF (v.setWidth 64) s

/-- R78: a write of 8 bytes. -/
def write8 (hp : HPort) (off : Nat) (v : BitVec 64) (s : State) : State :=
  match regAt off with
  | some r => if r.wide then (if answers s r then writeReg hp r 0xFFFFFFFFFFFFFFFF v s else s) else write4 hp (off + 4) (hi32 v) (write4 hp off (lo32 v) s)
  | none => write4 hp (off + 4) (hi32 v) (write4 hp off (lo32 v) s)

/-- REGISTER_WRITE (R7, R78). -/
def execRegisterWrite (hp : HPort) (off : BitVec 26) (size : Nat) (v : BitVec 64) (s : State) : Out :=
  .next (let o := off.toNat
    if !accessOk o size then badAccess s hp
    else if size = 8 then write8 hp o v s
    else write4 hp o (lo32 v) s)

end Sys2Proof.Machine
end

