-- ==== Sys2Proof/Machine/Special.lean ====
section
/-! DEFINITION. The special functions of block 0x6_ (R329, R330). -/

namespace Sys2Proof.Machine

/-- A function of one FP32 value. -/
def f32fun (a : Src) (f : Nat → Nat) (p : Pass) (t : Nat) (c : Word) : Res := resN 1 (f (srcWord p t a 0 c).toNat)

/-- FRCP (R329). -/
def execFrcp (n : Bool) (d : Dst) (a : Src) (s : State) : Out := runAlu (.frcp n d a) d (f32fun a frcp) s

/-- FRSQ (R329). -/
def execFrsq (n : Bool) (d : Dst) (a : Src) (s : State) : Out := runAlu (.frsq n d a) d (f32fun a frsq) s

/-- FEX2 (R329). -/
def execFex2 (n : Bool) (d : Dst) (a : Src) (s : State) : Out := runAlu (.fex2 n d a) d (f32fun a fex2) s

/-- FLG2 (R329). -/
def execFlg2 (n : Bool) (d : Dst) (a : Src) (s : State) : Out := runAlu (.flg2 n d a) d (f32fun a flg2) s

/-- FSIN (R329). -/
def execFsin (n : Bool) (d : Dst) (a : Src) (s : State) : Out := runAlu (.fsin n d a) d (f32fun a fsin) s

/-- FTANH (R329). -/
def execFtanh (n : Bool) (d : Dst) (a : Src) (s : State) : Out := runAlu (.ftanh n d a) d (f32fun a ftanh) s

end Sys2Proof.Machine
end

