-- ==== Sys2Proof/Machine/Dispatch.lean ====
section
/-! DEFINITION. exec: one arm per constructor of Instr, each a direct call of its meaning. -/

namespace Sys2Proof.Machine

def exec (i : Instr) (s : State) : Host.Outcome State Fault Refusal :=
  match i with
  | .nop => Sys2Proof.Machine.execNop s
  | .bra p => Sys2Proof.Machine.execBra p s
  | .call n d a m => Sys2Proof.Machine.execCall n d a m s
  | .ret a => Sys2Proof.Machine.execRet a s
  | .jmpr a m => Sys2Proof.Machine.execJmpr a m s
  | .brz h a p => Sys2Proof.Machine.execBrz h a p s
  | .brnz h a p => Sys2Proof.Machine.execBrnz h a p s
  | .brlt h a p => Sys2Proof.Machine.execBrlt h a p s
  | .brge h a p => Sys2Proof.Machine.execBrge h a p s
  | .meet p => Sys2Proof.Machine.execMeet p s
  | .repack a p => Sys2Proof.Machine.execRepack a p s
  | .loop a p => Sys2Proof.Machine.execLoop a p s
  | .exit => Sys2Proof.Machine.execExit s
  | .winb vq sq => Sys2Proof.Machine.execWinb vq sq s
  | .add n d a b m => Sys2Proof.Machine.execAdd n d a b m s
  | .sub n d a b m => Sys2Proof.Machine.execSub n d a b m s
  | .mul n d a b m => Sys2Proof.Machine.execMul n d a b m s
  | .mad n d a b m => Sys2Proof.Machine.execMad n d a b m s
  | .div n d a b m => Sys2Proof.Machine.execDiv n d a b m s
  | .rem n d a b m => Sys2Proof.Machine.execRem n d a b m s
  | .min n d a b m => Sys2Proof.Machine.execMin n d a b m s
  | .max n d a b m => Sys2Proof.Machine.execMax n d a b m s
  | .abs n d a m => Sys2Proof.Machine.execAbs n d a m s
  | .neg n d a m => Sys2Proof.Machine.execNeg n d a m s
  | .cmp n d a b m => Sys2Proof.Machine.execCmp n d a b m s
  | .cmpe n d a b m => Sys2Proof.Machine.execCmpe n d a b m s
  | .sel n d a b m => Sys2Proof.Machine.execSel n d a b m s
  | .lea n d a b m => Sys2Proof.Machine.execLea n d a b m s
  | .mulw n d a b m => Sys2Proof.Machine.execMulw n d a b m s
  | .clamp n d a b m => Sys2Proof.Machine.execClamp n d a b m s
  | .and n d a b m => Sys2Proof.Machine.execAnd n d a b m s
  | .or n d a b m => Sys2Proof.Machine.execOr n d a b m s
  | .xor n d a b m => Sys2Proof.Machine.execXor n d a b m s
  | .andn n d a b m => Sys2Proof.Machine.execAndn n d a b m s
  | .orn n d a b m => Sys2Proof.Machine.execOrn n d a b m s
  | .xnor n d a b m => Sys2Proof.Machine.execXnor n d a b m s
  | .shl n d a b m => Sys2Proof.Machine.execShl n d a b m s
  | .shr n d a b m => Sys2Proof.Machine.execShr n d a b m s
  | .sar n d a b m => Sys2Proof.Machine.execSar n d a b m s
  | .rot n d a b m => Sys2Proof.Machine.execRot n d a b m s
  | .extf n d a b m => Sys2Proof.Machine.execExtf n d a b m s
  | .depf n d a b => Sys2Proof.Machine.execDepf n d a b s
  | .popc n d a m => Sys2Proof.Machine.execPopc n d a m s
  | .clz n d a m => Sys2Proof.Machine.execClz n d a m s
  | .ctz n d a m => Sys2Proof.Machine.execCtz n d a m s
  | .brev n d a m => Sys2Proof.Machine.execBrev n d a m s
  | .addi n d a im => Sys2Proof.Machine.execAddi n d a im s
  | .muli n d a im => Sys2Proof.Machine.execMuli n d a im s
  | .andi n d a im => Sys2Proof.Machine.execAndi n d a im s
  | .ori n d a im => Sys2Proof.Machine.execOri n d a im s
  | .xori n d a im => Sys2Proof.Machine.execXori n d a im s
  | .shli n d a im => Sys2Proof.Machine.execShli n d a im s
  | .shri n d a im => Sys2Proof.Machine.execShri n d a im s
  | .sari n d a im => Sys2Proof.Machine.execSari n d a im s
  | .cmpieq n d a im => Sys2Proof.Machine.execCmpieq n d a im s
  | .cmpilt n d a im => Sys2Proof.Machine.execCmpilt n d a im s
  | .cmpiltn n d a im => Sys2Proof.Machine.execCmpiltn n d a im s
  | .mini n d a im => Sys2Proof.Machine.execMini n d a im s
  | .ldk n d im => Sys2Proof.Machine.execLdk n d im s
  | .ldkh n d im => Sys2Proof.Machine.execLdkh n d im s
  | .mov n d a m => Sys2Proof.Machine.execMov n d a m s
  | .mort n d a b m => Sys2Proof.Machine.execMort n d a b m s
  | .seedc a => Sys2Proof.Machine.execSeedc a s
  | .rdtail n d => Sys2Proof.Machine.execRdtail n d s
  | .red n d a m => Sys2Proof.Machine.execRed n d a m s
  | .redf n d a m => Sys2Proof.Machine.execRedf n d a m s
  | .tshb n d a b m => Sys2Proof.Machine.execTshb n d a b m s
  | .tshf n d a b m => Sys2Proof.Machine.execTshf n d a b m s
  | .tbcst n d a b => Sys2Proof.Machine.execTbcst n d a b s
  | .poll n d a m => Sys2Proof.Machine.execPoll n d a m s
  | .qswp n d a m => Sys2Proof.Machine.execQswp n d a m s
  | .qred n d a m => Sys2Proof.Machine.execQred n d a m s
  | .help n d => Sys2Proof.Machine.execHelp n d s
  | .cellh n d a b m => Sys2Proof.Machine.execCellh n d a b m s
  | .tmask n d m => Sys2Proof.Machine.execTmask n d m s
  | .tpos n d a m => Sys2Proof.Machine.execTpos n d a m s
  | .fadd n d a b m => Sys2Proof.Machine.execFadd n d a b m s
  | .fsub n d a b m => Sys2Proof.Machine.execFsub n d a b m s
  | .fmul n d a b m => Sys2Proof.Machine.execFmul n d a b m s
  | .ffma n d a b m => Sys2Proof.Machine.execFfma n d a b m s
  | .fmin n d a b => Sys2Proof.Machine.execFmin n d a b s
  | .fmax n d a b => Sys2Proof.Machine.execFmax n d a b s
  | .fcmp n d a b m => Sys2Proof.Machine.execFcmp n d a b m s
  | .fsgn n d a b m => Sys2Proof.Machine.execFsgn n d a b m s
  | .pkadd n d a b m => Sys2Proof.Machine.execPkadd n d a b m s
  | .pkmul n d a b m => Sys2Proof.Machine.execPkmul n d a b m s
  | .pkfma n d a b m => Sys2Proof.Machine.execPkfma n d a b m s
  | .fdiv n d a b m => Sys2Proof.Machine.execFdiv n d a b m s
  | .fsqrt n d a m => Sys2Proof.Machine.execFsqrt n d a m s
  | .frnd n d a m => Sys2Proof.Machine.execFrnd n d a m s
  | .fclass n d a => Sys2Proof.Machine.execFclass n d a s
  | .fscl n d a b m => Sys2Proof.Machine.execFscl n d a b m s
  | .frcp n d a => Sys2Proof.Machine.execFrcp n d a s
  | .frsq n d a => Sys2Proof.Machine.execFrsq n d a s
  | .fex2 n d a => Sys2Proof.Machine.execFex2 n d a s
  | .flg2 n d a => Sys2Proof.Machine.execFlg2 n d a s
  | .fsin n d a => Sys2Proof.Machine.execFsin n d a s
  | .ftanh n d a => Sys2Proof.Machine.execFtanh n d a s
  | .dadd n d a b m => Sys2Proof.Machine.execDadd n d a b m s
  | .dsub n d a b m => Sys2Proof.Machine.execDsub n d a b m s
  | .dmul n d a b m => Sys2Proof.Machine.execDmul n d a b m s
  | .dfma n d a b m => Sys2Proof.Machine.execDfma n d a b m s
  | .ddiv n d a b m => Sys2Proof.Machine.execDdiv n d a b m s
  | .dsqrt n d a m => Sys2Proof.Machine.execDsqrt n d a m s
  | .dmin n d a b m => Sys2Proof.Machine.execDmin n d a b m s
  | .dcmp n d a b m => Sys2Proof.Machine.execDcmp n d a b m s
  | .cvt n d a k t j f => Sys2Proof.Machine.execCvt n d a k t j f s
  | .cvtz n d a t j f => Sys2Proof.Machine.execCvtz n d a t j f s
  | .cvtu n d a t j f => Sys2Proof.Machine.execCvtu n d a t j f s
  | .cvtd n d a k t j f => Sys2Proof.Machine.execCvtd n d a k t j f s
  | .pack n d a b m => Sys2Proof.Machine.execPack n d a b m s
  | .unpk n d a m => Sys2Proof.Machine.execUnpk n d a m s
  | .pk8 n d a b m => Sys2Proof.Machine.execPk8 n d a b m s
  | .upk8 n d a b m => Sys2Proof.Machine.execUpk8 n d a b m s
  | .ldb d a im => Sys2Proof.Machine.execLdb d a im s
  | .ldbs d a im => Sys2Proof.Machine.execLdbs d a im s
  | .ldh d a im => Sys2Proof.Machine.execLdh d a im s
  | .ldhs d a im => Sys2Proof.Machine.execLdhs d a im s
  | .ldw d a im => Sys2Proof.Machine.execLdw d a im s
  | .ldd d a im => Sys2Proof.Machine.execLdd d a im s
  | .ldq d a im => Sys2Proof.Machine.execLdq d a im s
  | .stb e a im => Sys2Proof.Machine.execStb e a im s
  | .sth e a im => Sys2Proof.Machine.execSth e a im s
  | .stw e a im => Sys2Proof.Machine.execStw e a im s
  | .std e a im => Sys2Proof.Machine.execStd e a im s
  | .stq e a im => Sys2Proof.Machine.execStq e a im s
  | .ldx d a b m => Sys2Proof.Machine.execLdx d a b m s
  | .stx e a b m => Sys2Proof.Machine.execStx e a b m s
  | .ldu d a im => Sys2Proof.Machine.execLdu d a im s
  | .pref a b => Sys2Proof.Machine.execPref a b s
  | .lds d a im => Sys2Proof.Machine.execLds d a im s
  | .sts e a im => Sys2Proof.Machine.execSts e a im s
  | .ldsx d a b m => Sys2Proof.Machine.execLdsx d a b m s
  | .stsx e a b m => Sys2Proof.Machine.execStsx e a b m s
  | .ldl d a im => Sys2Proof.Machine.execLdl d a im s
  | .stl e a im => Sys2Proof.Machine.execStl e a im s
  | .ldlb d a b m => Sys2Proof.Machine.execLdlb d a b m s
  | .stlb e a b m => Sys2Proof.Machine.execStlb e a b m s
  | .ldhw d a b m => Sys2Proof.Machine.execLdhw d a b m s
  | .sthw e a b m => Sys2Proof.Machine.execSthw e a b m s
  | .alloc a b m => Sys2Proof.Machine.execAlloc a b m s
  | .free a b m => Sys2Proof.Machine.execFree a b m s
  | .life a b m => Sys2Proof.Machine.execLife a b m s
  | .expq d a m => Sys2Proof.Machine.execExpq d a m s
  | .aadd d a b m => Sys2Proof.Machine.execAadd d a b m s
  | .amin d a b m => Sys2Proof.Machine.execAmin d a b m s
  | .aminn d a b m => Sys2Proof.Machine.execAminn d a b m s
  | .amax d a b m => Sys2Proof.Machine.execAmax d a b m s
  | .amaxn d a b m => Sys2Proof.Machine.execAmaxn d a b m s
  | .aand d a b m => Sys2Proof.Machine.execAand d a b m s
  | .aor d a b m => Sys2Proof.Machine.execAor d a b m s
  | .axor d a b m => Sys2Proof.Machine.execAxor d a b m s
  | .axch d a b m => Sys2Proof.Machine.execAxch d a b m s
  | .acas d a b m => Sys2Proof.Machine.execAcas d a b m s
  | .afadd d a b m => Sys2Proof.Machine.execAfadd d a b m s
  | .afmin d a b m => Sys2Proof.Machine.execAfmin d a b m s
  | .ainc d a b m => Sys2Proof.Machine.execAinc d a b m s
  | .asadd d a b m => Sys2Proof.Machine.execAsadd d a b m s
  | .asmin d a b m => Sys2Proof.Machine.execAsmin d a b m s
  | .ascas d a b m => Sys2Proof.Machine.execAscas d a b m s
  | .pub sc => Sys2Proof.Machine.execPub sc s
  | .acq sc => Sys2Proof.Machine.execAcq sc s
  | .fence => Sys2Proof.Machine.execFence s
  | .bar pub id => Sys2Proof.Machine.execBar pub id s
  | .bara pub id => Sys2Proof.Machine.execBara pub id s
  | .barw pub id => Sys2Proof.Machine.execBarw pub id s
  | .phase sc => Sys2Proof.Machine.execPhase sc s
  | .wait k th => Sys2Proof.Machine.execWait k th s
  | .mma d a b m => Sys2Proof.Machine.execMma d a b m s
  | .mmas d a b m => Sys2Proof.Machine.execMmas d a b m s
  | .mmaf d a b m => Sys2Proof.Machine.execMmaf d a b m s
  | .gang a b => Sys2Proof.Machine.execGang a b s
  | .gath d a => Sys2Proof.Machine.execGath d a s
  | .cpy d a => Sys2Proof.Machine.execCpy d a s
  | .cpyt d a => Sys2Proof.Machine.execCpyt d a s
  | .coll d a m => Sys2Proof.Machine.execColl d a m s
  | .accz => Sys2Proof.Machine.execAccz s
  | .mmaq d => Sys2Proof.Machine.execMmaq d s
  | .qput a b => Sys2Proof.Machine.execQput a b s
  | .qtakeQ d a => Sys2Proof.Machine.execQtakeQ d a s
  | .qtakeStage d => Sys2Proof.Machine.execQtakeStage d s
  | .qmput e a b => Sys2Proof.Machine.execQmput e a b s
  | .qrel a => Sys2Proof.Machine.execQrel a s
  | .spawn a => Sys2Proof.Machine.execSpawn a s
  | .join a sc => Sys2Proof.Machine.execJoin a sc s
  | .qstat d a m => Sys2Proof.Machine.execQstat d a m s
  | .yieldI => Sys2Proof.Machine.execYieldI s
  | .trap a => Sys2Proof.Machine.execTrap a s
  | .trapRet => Sys2Proof.Machine.execTrapRet s
  | .trapNext => Sys2Proof.Machine.execTrapNext s
  | .live im => Sys2Proof.Machine.execLive im s
  | .region im => Sys2Proof.Machine.execRegion im s
  | .assay d m => Sys2Proof.Machine.execAssay d m s
  | .rdsr n d im => Sys2Proof.Machine.execRdsr n d im s
  | .wrsr e im => Sys2Proof.Machine.execWrsr e im s
  | .bkpt im => Sys2Proof.Machine.execBkpt im s
  | .dbgm a m => Sys2Proof.Machine.execDbgm a m s
  | .watch a b m => Sys2Proof.Machine.execWatch a b m s
  | .sleep a => Sys2Proof.Machine.execSleep a s
  | .clas c => Sys2Proof.Machine.execClas c s
  | .reservedEncoding w => Sys2Proof.Machine.execReservedEncoding w s
  | .bringUp => Sys2Proof.Machine.execBringUp s
  | .thermalHot die => Sys2Proof.Machine.execThermalHot die s
  | .thermalShutdown die temp => Sys2Proof.Machine.execThermalShutdown die temp s
  | .railShutdown x => Sys2Proof.Machine.execRailShutdown x s
  | .railLossResume blk => Sys2Proof.Machine.execRailLossResume blk s
  | .ballastInjection x => Sys2Proof.Machine.execBallastInjection x s
  | .undervoltInterval x => Sys2Proof.Machine.execUndervoltInterval x s
  | .energyMeter => Sys2Proof.Machine.execEnergyMeter s
  | .patrolScrub sector => Sys2Proof.Machine.execPatrolScrub sector s
  | .refresh granule => Sys2Proof.Machine.execRefresh granule s
  | .assayReplay job => Sys2Proof.Machine.execAssayReplay job s
  | .assayCompare job => Sys2Proof.Machine.execAssayCompare job s
  | .assayThirdRun job => Sys2Proof.Machine.execAssayThirdRun job s
  | .assayBoundExpiry job => Sys2Proof.Machine.execAssayBoundExpiry job s
  | .quarantineTimeout core => Sys2Proof.Machine.execQuarantineTimeout core s
  | .flitReceive p flit => Sys2Proof.Machine.execFlitReceive p flit s
  | .flitSend p => Sys2Proof.Machine.execFlitSend p s
  | .ackTimeout p => Sys2Proof.Machine.execAckTimeout p s
  | .retrainTimeout p => Sys2Proof.Machine.execRetrainTimeout p s
  | .creditStall p vc => Sys2Proof.Machine.execCreditStall p vc s
  | .portTrain hp p => Sys2Proof.Machine.execPortTrain hp p s
  | .devidWrite hp v => Sys2Proof.Machine.execDevidWrite hp v s
  | .collectiveComplete cid peers bad => Sys2Proof.Machine.execCollectiveComplete cid peers bad s
  | .collectiveAbort cid cause => Sys2Proof.Machine.execCollectiveAbort cid cause s
  | .collectiveTimeout cid => Sys2Proof.Machine.execCollectiveTimeout cid s
  | .readLatchLoad hp off size => Sys2Proof.Machine.execReadLatchLoad hp off size s
  | .hostWindowAccess hp off acc => Sys2Proof.Machine.execHostWindowAccess hp off acc s
  | .hostRawRead hp fn1 off len => Sys2Proof.Machine.execHostRawRead hp fn1 off len s
  | .hostRawWrite hp fn1 off data => Sys2Proof.Machine.execHostRawWrite hp fn1 off data s
  | .hostAtomicOp hp fn1 off op => Sys2Proof.Machine.execHostAtomicOp hp fn1 off op s
  | .triggerLaunch hp sseq patch order graph ploff => Sys2Proof.Machine.execTriggerLaunch hp sseq patch order graph ploff s
  | .triggerLoad hp sseq graph ploff => Sys2Proof.Machine.execTriggerLoad hp sseq graph ploff s
  | .triggerUnload hp sseq graph => Sys2Proof.Machine.execTriggerUnload hp sseq graph s
  | .triggerBadop hp sseq graph => Sys2Proof.Machine.execTriggerBadop hp sseq graph s
  | .flushDeviceToHost hp order len => Sys2Proof.Machine.execFlushDeviceToHost hp order len s
  | .flushHostToDevice hp order len => Sys2Proof.Machine.execFlushHostToDevice hp order len s
  | .flushBadDir hp dir order len => Sys2Proof.Machine.execFlushBadDir hp dir order len s
  | .flushComplete hp => Sys2Proof.Machine.execFlushComplete hp s
  | .subseqWrite hp v => Sys2Proof.Machine.execSubseqWrite hp v s
  | .crReplay hp v => Sys2Proof.Machine.execCrReplay hp v s
  | .completionRecordWrite hp => Sys2Proof.Machine.execCompletionRecordWrite hp s
  | .ctxNew hp tag len => Sys2Proof.Machine.execCtxNew hp tag len s
  | .ctxEnd hp tag len => Sys2Proof.Machine.execCtxEnd hp tag len s
  | .setClu hp tag len => Sys2Proof.Machine.execSetClu hp tag len s
  | .getClu hp tag len => Sys2Proof.Machine.execGetClu hp tag len s
  | .setRail hp tag len => Sys2Proof.Machine.execSetRail hp tag len s
  | .railOn hp tag len => Sys2Proof.Machine.execRailOn hp tag len s
  | .setSlope hp tag len => Sys2Proof.Machine.execSetSlope hp tag len s
  | .clrAcct hp tag len => Sys2Proof.Machine.execClrAcct hp tag len s
  | .debugCmd hp tag len => Sys2Proof.Machine.execDebugCmd hp tag len s
  | .commSet hp tag len => Sys2Proof.Machine.execCommSet hp tag len s
  | .commClr hp tag len => Sys2Proof.Machine.execCommClr hp tag len s
  | .identCmd hp tag len => Sys2Proof.Machine.execIdentCmd hp tag len s
  | .attest hp tag len => Sys2Proof.Machine.execAttest hp tag len s
  | .imgBegin hp tag len => Sys2Proof.Machine.execImgBegin hp tag len s
  | .imgData hp tag len => Sys2Proof.Machine.execImgData hp tag len s
  | .imgEnd hp tag len => Sys2Proof.Machine.execImgEnd hp tag len s
  | .commitCmd hp tag len => Sys2Proof.Machine.execCommitCmd hp tag len s
  | .mailboxBadop hp tag len op => Sys2Proof.Machine.execMailboxBadop hp tag len op s
  | .tenantWrite hp k v => Sys2Proof.Machine.execTenantWrite hp k v s
  | .winownWrite hp f v => Sys2Proof.Machine.execWinownWrite hp f v s
  | .migpoolWrite hp k v => Sys2Proof.Machine.execMigpoolWrite hp k v s
  | .uvctlWrite hp x v => Sys2Proof.Machine.execUvctlWrite hp x v s
  | .invalidateAll hp => Sys2Proof.Machine.execInvalidateAll hp s
  | .invalidatePage hp va => Sys2Proof.Machine.execInvalidatePage hp va s
  | .invalidateComplete hp => Sys2Proof.Machine.execInvalidateComplete hp s
  | .replayByToken hp token => Sys2Proof.Machine.execReplayByToken hp token s
  | .replayByPage hp va => Sys2Proof.Machine.execReplayByPage hp va s
  | .ctxKill hp ctx => Sys2Proof.Machine.execCtxKill hp ctx s
  | .preemptRequest hp ctx => Sys2Proof.Machine.execPreemptRequest hp ctx s
  | .trrixWrite hp v => Sys2Proof.Machine.execTrrixWrite hp v s
  | .trapEntryWrite hp => Sys2Proof.Machine.execTrapEntryWrite hp s
  | .preemptTimeout ctx => Sys2Proof.Machine.execPreemptTimeout ctx s
  | .dbgctxWrite hp v => Sys2Proof.Machine.execDbgctxWrite hp v s
  | .dbgPop hp => Sys2Proof.Machine.execDbgPop hp s
  | .dbgHalt hp cmd => Sys2Proof.Machine.execDbgHalt hp cmd s
  | .dbgResume hp cmd => Sys2Proof.Machine.execDbgResume hp cmd s
  | .dbgStep hp cmd => Sys2Proof.Machine.execDbgStep hp cmd s
  | .dbgRdv hp cmd => Sys2Proof.Machine.execDbgRdv hp cmd s
  | .dbgWrv hp cmd => Sys2Proof.Machine.execDbgWrv hp cmd s
  | .dbgRds hp cmd => Sys2Proof.Machine.execDbgRds hp cmd s
  | .dbgWrs hp cmd => Sys2Proof.Machine.execDbgWrs hp cmd s
  | .dbgBadop hp op => Sys2Proof.Machine.execDbgBadop hp op s
  | .registerWrite hp off size v => Sys2Proof.Machine.execRegisterWrite hp off size v s
  | .instStart inst => Sys2Proof.Machine.execInstStart inst s
  | .nodeDispatch inst node => Sys2Proof.Machine.execNodeDispatch inst node s
  | .troupePlace cluster => Sys2Proof.Machine.execTroupePlace cluster s
  | .groupRestore blk grp => Sys2Proof.Machine.execGroupRestore blk grp s
  | .blockSave blk => Sys2Proof.Machine.execBlockSave blk s
  | .blockRestore blk => Sys2Proof.Machine.execBlockRestore blk s
  | .blockRelocate blk core => Sys2Proof.Machine.execBlockRelocate blk core s
  | .activeReadyBound blk grp => Sys2Proof.Machine.execActiveReadyBound blk grp s
  | .pendingReadyBound blk grp => Sys2Proof.Machine.execPendingReadyBound blk grp s
  | .classWindowEnd core => Sys2Proof.Machine.execClassWindowEnd core s
  | .sleepWake core => Sys2Proof.Machine.execSleepWake core s
  | .loggedReissue blk grp => Sys2Proof.Machine.execLoggedReissue blk grp s
  | .memoryReturn blk grp => Sys2Proof.Machine.execMemoryReturn blk grp s
  | .mmaComplete blk grp => Sys2Proof.Machine.execMmaComplete blk grp s
  | .matrixUnitReset core part => Sys2Proof.Machine.execMatrixUnitReset core part s
  | .copyComplete blk grp => Sys2Proof.Machine.execCopyComplete blk grp s
  | .gatherComplete blk grp => Sys2Proof.Machine.execGatherComplete blk grp s
  | .migrationPromote ctx va => Sys2Proof.Machine.execMigrationPromote ctx va s
  | .pageSwitch idx => Sys2Proof.Machine.execPageSwitch idx s
  | .prefDeadline blk grp => Sys2Proof.Machine.execPrefDeadline blk grp s
  | .barrierWatchdog blk bar => Sys2Proof.Machine.execBarrierWatchdog blk bar s
  | .rendezvousWatchdog blk grp => Sys2Proof.Machine.execRendezvousWatchdog blk grp s
  | .foremanEvaluate cluster => Sys2Proof.Machine.execForemanEvaluate cluster s
  | .queueWindowRefill core q => Sys2Proof.Machine.execQueueWindowRefill core q s
  | .continuationEnqueue cluster q => Sys2Proof.Machine.execContinuationEnqueue cluster q s
  | .bankDrainComplete cluster bank => Sys2Proof.Machine.execBankDrainComplete cluster bank s
  | .portTrained p => Sys2Proof.Machine.execPortTrained p s
  | .thermalCool die => Sys2Proof.Machine.execThermalCool die s
  | .inFieldTest core lane fails => Sys2Proof.Machine.execInFieldTest core lane fails s

end Sys2Proof.Machine
end

