-- ==== Sys2Proof/Machine/Sched.lean ====
section
/-! DEFINITION. What a group's next pass is: fetch (R263), the release of meeting addresses (R175), the paths (R139, R141), what
they wait for (R132, R153, R229), their cost and class (R131, R137). -/

namespace Sys2Proof.Machine

/-! Fetch. -/

/-- R263, R206: what fetching at a program counter gives. -/
inductive Fetch where
  | word (i : Instr) | page (va : BitVec 64) | bad (k : FKind) (addr : BitVec 64)
  deriving DecidableEq, Repr

/-- R263: the address a program counter names. -/
def fetchVa (x : Block) (pc : Word) : BitVec 64 := x.hdr + sext64 pc

def fetchAt (s : State) (x : Block) (pc : Word) : Fetch :=
  let va := fetchVa x pc
  match s.ctx? x.ctx with
  | none => .bad .perm (sectorForm va)
  | some c => match access s c .fetch va with
    | .perm => .bad .perm (permForm va)
    | .poisoned => .bad .poison (sectorForm va)
    | .notPresent => .page va
    | .ok pa _ => if poisoned s pa 4 then .bad .poison (sectorForm va) else .word (fetched (BitVec.ofNat 32 (leNat (mgetN s.mem pa 4))))

/-- R61: a fetch finds the errors in the sector it reads. -/
def fetchFind (s : State) (x : Block) (pc : Word) : State :=
  if s.latent.isEmpty then s
  else match s.ctx? x.ctx with
    | none => s
    | some c =>
      let s := findWalk s c (fetchVa x pc) (s.etm x.core) x.ctx
      match access s c .fetch (fetchVa x pc) with
      | .ok pa _ => findErrors s pa 4 1 (s.etm x.core) (some x.ctx)
      | _ => s

/-! Threads that take part. -/

/-- R175: every sharer of a meeting address stands at it. -/
def meetDone (y : Group) (m : Word) : Bool := y.thr.all (fun t => !(t.live && t.meet == some m) || t.pc == m)

/-- R175: addresses whose sharers all stand at them are released. -/
def releaseMeets (y : Group) : Group :=
  if y.thr.all (fun t => t.meet.isNone) then y
  else modAllThr (fun t => match t.meet with
    | some m => if t.live && meetDone y m then { t with meet := none } else t
    | none => t) y

/-- R389: the handler thread stands at a return already. -/
def atReturn (y : Group) (t : Nat) : Bool := match y.handler with | some h => h.rets.any (fun r => r.1 == t) | none => false

/-- R150, R168, R175, R307: a live thread that no meeting address, handler or REPACK holds. -/
def freeThread (y : Group) (t : Nat) : Bool :=
  match y.thr[t]? with
  | none => false
  | some z => z.live && y.inHandler t && z.meet != some z.pc && z.cont.isNone && !atReturn y t

/-- R364, R368: groups whose whole meeting at an instruction is still to come: its threads there are held (R141). -/
def notMet (x : Block) (g : Nat) (y : Group) (pc : Word) (i : Instr) : Bool :=
  let alone : Bool := y.liveList.all (fun t => y.pcOf t == pc) && y.e.mmaWait.isNone
  match i with
  | .bara _ id => ((homesAt x g pc).filter (fun k => !arrivedOpen x id.val k)).isEmpty
  | .barw _ _ => (homesAt x g pc).isEmpty
  | .bar none id => ((homesAt x g pc).filter (fun k => !arrivedOpen x id.val k)).isEmpty
  | .bar (some _) id => !boundaryReady x g pc || (boundaryHomes x g).any (fun k => arrivedOpen x id.val k)
  | .phase _ => !boundaryReady x g pc
  | .mma _ _ _ _ => !alone
  | .mmas _ _ _ _ => !alone
  | .mmaf _ _ _ _ => !alone
  | .coll _ _ _ => !alone
  | _ => false

def heldAt (s : State) (x : Block) (g : Nat) (y : Group) (pc : Word) : Bool :=
  match fetchAt s x pc with | .word i => notMet x g y pc i | _ => false

/-- R139: the threads that may issue: free, and not held at a meeting point of the whole group. -/
def mayIssue (s : State) (x : Block) (g : Nat) (y : Group) : List Nat :=
  let ts := (List.range 32).filter (freeThread y)
  let held := ((ts.map y.pcOf).eraseDups).filter (heldAt s x g y)
  ts.filter (fun t => !held.contains (y.pcOf t))

/-- R139, R141: the program counters of the next pass, the lower first. -/
def passPcs (y : Group) (ts : List Nat) : List Word :=
  let pcs := ts.foldl (fun l t => insertAddr l (y.pcOf t)) []
  let forced := ts.find? (fun t => match y.thr[t]? with | some z => decide (1024 ≤ z.skip) | none => false)
  match pcs, forced with
  | a :: r, some t => if y.pcOf t = a then a :: r.take 1 else [a, y.pcOf t]
  | l, _ => l.take 2

/-- One path of a pass. -/
structure Path where
  pc : Word
  ts : List Nat
  f : Fetch
  /-- R261: the word raises a decode fault. -/
  bad : Bool
  deriving DecidableEq, Repr

/-- The next pass of a group: the group with its meetings released, the threads that may issue, and the paths; or the logged access
that it re-issues first (R143). -/
structure Plan where
  y : Group
  may : List Nat
  paths : List Path
  redo : Option LogEntry
  deriving DecidableEq, Repr

/-- A path as a pass of its own. -/
def pathPass (x : Block) (b g : Nat) (y : Group) (upper : Bool) (ts : List Nat) : Pass :=
  { b := b, g := g, B := x, G := y, P := y, L := ts, mask := listMask ts, upper := upper, judged := false, cut := false }

/-- R265: the word is an undefined instruction on its path. -/
def decodeFault (x : Block) (b g : Nat) (y : Group) (ts : List Nat) : Fetch → Bool
  | .word i => (match fieldCond (pathPass x b g y false ts) i with | some (.fault .illop _ _) => true | _ => false)
  | _ => false

def planOf (s : State) (x : Block) (g : Nat) (y0 : Group) : Plan :=
  let y := releaseMeets y0
  let ts := mayIssue s x g y
  { y := y, may := ts, redo := y.log.find? (·.woken),
    paths := (passPcs y ts).map (fun pc =>
      let l := ts.filter (fun t => y.pcOf t == pc)
      let f := fetchAt s x pc
      { pc := pc, ts := l, f := f, bad := decodeFault x 0 g y l f }) }

/-! What a path waits for. -/

/-- R132: the register slots that a path reads of a source field. -/
def readKeys (p : Pass) (all : Bool) (r : PReg) (n : Nat) : List Nat × List Nat :=
  pendKeys (some r) n (if all then List.range 32 else p.L)

/-- R132, R367: the registers an instruction reads: its sources, a D that is read, and the descriptor words of an engine. -/
def readRegs (i : Instr) (p : Pass) : List (PReg × Nat) :=
  let x := shape i
  let f (o : Option SrcF) : List (PReg × Nat) := match o with
    | some f => (match srcReg p.P f.src with | some r => [(r, f.span)] | none => [])
    | none => []
  f x.a ++ f x.b ++ f x.e ++ (match x.d with
    | some d => if d.reads then (match dstReg p.P d.dst with | some r => [(r, d.span)] | none => []) else []
    | none => [])

def keysMeet (k : List Nat × List Nat) (v s : List Nat) : Bool := k.1.any (fun c => v.contains c) || k.2.any (fun c => s.contains c)

/-- R132: a register the path reads is pending. -/
def readsPending (i : Instr) (p : Pass) : Bool :=
  if p.G.e.vpend.isEmpty && p.G.e.spend.isEmpty then false
  else (readRegs i p).any (fun r => keysMeet (readKeys p (i.xclass == .whole) r.1 r.2) p.G.e.vpend p.G.e.spend)

/-- R215, R220, R227, R308: the instruction publishes or orders what the group has stored, or ends it. -/
def awaitsHeld : Instr → Bool
  | .pub _ => true | .fence => true | .phase _ => true | .bar p _ => p.isSome | .bara p _ => p.isSome | .join _ _ => true | .exit => true | _ => false

/-- R197, R216, R229, R372, R375, R395: an instruction that waits at issue though its operands are there. -/
def waitsAtIssue (i : Instr) (p : Pass) (s : State) : Bool :=
  match memOf i with
  | some m => (accThreads i p).any (fun t => look p s m t == .wait)
  | none =>
    let accs : Bool := match p.P.e.gang with | some x => keysMeet (accKeys x, []) p.G.e.vpend [] | none => false
    let mma : Bool := p.G.e.mma.isSome || accs || (match mmaArgs p i, p.P.e.gang with
      | some d, some x => !mmaBad d x.cm && mmaLook p s d x == .wait
      | _, _ => false)
    match i with
    | .mma _ _ _ _ => mma
    | .mmas _ _ _ _ => mma
    | .mmaf _ _ _ _ => mma
    | .accz => p.G.e.mma.isSome
    | .gath _ a => p.G.e.gath == 255 || gathLook p s (gathD (descWords p a 5)) == .wait
    | .cpy _ a => p.G.e.copy == 255 || copyLook p s (copyD false (descWords p a 6)) == .wait
    | .cpyt _ a => p.G.e.copy == 255 || copyLook p s (copyD true (descWords p a 8)) == .wait
    | .coll _ _ _ => p.G.e.coll == 255
    | .wait k n => decide (n.toNat < engCount p.G k)
    | .pref a b => prefFull a b p s
    | .spawn a => p.L.any (fun t => contLook p s a t == .wait)
    | .join a _ => p.L.any (fun t => contLook p s a t == .wait)
    | .wrsr e n => srWritable n.toNat && !srHigh n.toNat && (srWrite s p.b p.g p.B p.G n.toNat (srcWord p p.low e 0 0)).isNone
    | _ => false

/-! The operand log. -/

/-- R153: ranges of bytes, by their address in R191's form, that an instruction touches. -/
def gathTouch (p : Pass) (s : State) (g : GathD) : List (Nat × Nat) :=
  let iv := gathIv s p g.idx g.rows
  [((formOf .scr g.idx).toNat, 2 * g.rows), ((formOf .scr g.dst).toNat, g.rows * g.rowb)] ++
  (List.range g.rows).filterMap (fun k => (gathRow g iv k).map (fun a => ((formOf (if g.scr then .scr else .dev) a).toNat, g.rowb)))
def copyTouch (c : CopyD) : List (Nat × Nat) :=
  [((formOf c.ssp c.src).toNat, srcBytes c), ((formOf c.dsp c.dst).toNat, dstBytes c)]
def touches (i : Instr) (p : Pass) (s : State) : List (Nat × Nat) :=
  match memOf i with
  | some m => (accThreads i p).map (fun t => ((formOf m.space (m.ea p t)).toNat, m.n))
  | none => match i with
    | .spawn a => p.L.map (fun t => (eaDev a p t, 64))
    | .join a _ => p.L.map (fun t => (eaDev a p t, 64))
    | .gath _ a => let g := gathD (descWords p a 5); if g.bad then [] else gathTouch p s g
    | .cpy _ a => let c := copyD false (descWords p a 6); if copyBad p.B c then [] else copyTouch c
    | .cpyt _ a => let c := copyD true (descWords p a 8); if copyBad p.B c then [] else copyTouch c
    | _ => match mmaArgs p i, p.P.e.gang with
      | some d, some x =>
        if mmaBad d x.cm then []
        else (mmaSpans d (mmaRows s p d (4 * (x.rq + 1))) x.cm).map (fun z => ((formOf z.sp z.a).toNat, z.n))
      | _, _ => []

/-- The ranges that a logged access touches (R153). -/
def logTouch (p : Pass) (s : State) (e : LogEntry) : List (Nat × Nat) :=
  match e.i with
  | .gath _ _ => (match e.thr with | x :: _ => gathTouch p s (gathD x.data) | [] => [])
  | i => let n := match memOf i with | some m => m.n | none => 4
         e.thr.map (fun x => (x.addr.toNat, n))

/-- Two ranges touch one sector. -/
def shareSector (a b : Nat × Nat) : Bool :=
  0 < a.2 && 0 < b.2 && sectorOf a.1 < b.1 + b.2 && sectorOf b.1 < a.1 + a.2

/-- The register slots a logged access is still to write. -/
def logKeys (e : LogEntry) : List Nat × List Nat :=
  let n := match memOf e.i with | some m => ceilDiv m.n 4 | none => 1
  pendKeys e.dst n (e.thr.map (·.t) ++ e.also.map (·.2))

/-- R153: bytes of the log that an entry with such threads takes. -/
def entrySize (i : Instr) (words cmps n : Nat) : Nat :=
  let data := match i with | .stq _ _ _ => 16 | .stx _ _ _ .b128 => 16 | _ => if words = 0 then 0 else 8
  16 + n * (8 + data + (if cmps = 0 then 0 else 8))
def logBytes (y : Group) : Nat := y.log.foldl (fun n e => n + (match e.thr with
  | x :: _ => entrySize e.i x.data.length (match e.i with | .gath _ _ => 0 | _ => x.cmp.length) e.thr.length
  | [] => 16)) 0

/-- R153: the threads of the path whose accesses meet a not-present page, with the page. -/
def logPages (i : Instr) (p : Pass) (s : State) : List (Nat × BitVec 64) :=
  let missing (f : Nat → Look) (ts : List Nat) : List (Nat × BitVec 64) :=
    ts.filterMap (fun t => match f t with | .notPresent page => some (t, page) | _ => none)
  match memOf i with
  | some m => missing (look p s m) (accThreads i p)
  | none => match i with
    | .spawn a => missing (contLook p s a) p.L
    | .join a _ => missing (contLook p s a) p.L
    | .gath _ a => let g := gathD (descWords p a 5); if g.bad then [] else missing (fun _ => gathLook p s g) [p.low]
    | _ => []

/-- R153, R154: bytes that the path's not-present accesses would add to the log: for each page one entry, or more threads of an
entry that is there. -/
def logNeed (i : Instr) (p : Pass) (s : State) : Nat :=
  let l := logPages i p s
  let data := match memOf i with
    | some m => (match m.kind with | .store => 1 | .atomic => 1 | _ => 0)
    | none => (match i with | .gath _ _ => 1 | _ => 0)
  let cmps := match i with | .acas _ _ _ _ => 1 | .ascas _ _ _ _ => 1 | _ => 0
  ((l.map (fun z => pageOf z.2)).eraseDups.map (fun page =>
    let ts := (l.filter (fun z => pageOf z.2 == page)).map (·.1)
    let joined := match s.pfaults.find? (fun f => f.ctx == p.B.ctx && f.page == page) with
      | some f => p.G.log.any (fun e => ts.all (fun t => sameLog i p.pc f.token t e))
      | none => false
    entrySize i data cmps ts.length - (if joined then 16 else 0))).foldl (· + ·) 0

/-- R153, R142, R407: the entry under whose key the group parks before this path issues. -/
def logBlocks (i : Instr) (p : Pass) (s : State) : Option Word :=
  match p.G.log with
  | [] => none
  | e :: _ =>
    let ordering : Bool := opcode i / 16 == 11 || (match i with | .exit => true | .sleep _ => true | _ => false)
    if ordering then some e.token
    else
      let ts := touches i p s
      let hit := p.G.log.find? (fun z =>
        let k := logKeys z
        (readRegs i p).any (fun r => keysMeet (readKeys p (i.xclass == .whole) r.1 r.2) k.1 k.2)
        || ts.any (fun a => (logTouch p s z).any (shareSector a)))
      hit.map (·.token)

/-- How a group's next pass stands. -/
inductive Ready where
  | go | wait | park (key : ParkKey)
  deriving DecidableEq, Repr

/-- R226, R180: a packed block's boundary or barrier publishes for every group that holds its home's threads: one of them has a store that
is still to be performed. -/
def hostsHold (s : State) (x : Block) (b g : Nat) (i : Instr) : Bool :=
  !x.map.isEmpty && (match i with | .phase _ => true | .bar p _ => p.isSome | .bara p _ => p.isSome | _ => false) &&
    (lmapIx 0 (fun k (y : Group) => k != g && (holdsStore s b k || !y.log.isEmpty)) x.groups).any id

/-- One path: R263 first; then what the log and the scoreboard say. A fetch that faults goes on to its fault. -/
def pathReady (s : State) (x : Block) (b g : Nat) (y : Group) (upper : Bool) (a : Path) : Ready :=
  match a.f with
  | .word i =>
    let p := pathPass x b g y upper a.ts
    if (fieldCond p i).isSome then .go
    else (match logBlocks i p s with
      | some t => .park (.page t)
      | none =>
        if readsPending i p || (awaitsHeld i && holdsStore s b g) || hostsHold s x b g i || waitsAtIssue i p s then .wait else .go)
  | _ => .go

/-- R153: the operands of the pass do not fit in the free log space. -/
def noLogRoom (s : State) (x : Block) (b g : Nat) (q : Plan) : Option Word :=
  match q.y.log with
  | [] => none
  | e :: _ =>
    let need := q.paths.foldl (fun n a => match a.f with | .word i => n + logNeed i (pathPass x b g q.y false a.ts) s | _ => n) 0
    if 0 < need && 1536 < logBytes q.y + need then some e.token else none

/-- R139: the pass waits until both paths are ready. A woken access is re-issued first (R143). -/
def planReady (s : State) (x : Block) (b g : Nat) (q : Plan) : Ready :=
  match q.redo, q.paths with
  | some e, _ => if redoWaits s b g e then .wait else .go
  | none, [] => .wait
  | none, a :: r =>
      let rs := pathReady s x b g q.y false a :: r.map (pathReady s x b g q.y true)
      match rs.find? (fun z => match z with | .park _ => true | _ => false) with
      | some z => z
      | none =>
        if rs.contains .wait then .wait
        else match noLogRoom s x b g q with
          | some t => .park (.page t)
          | none => .go

/-! Cost and class. -/

/-- R131, R170, R381: an instruction that takes one slot for its path: a uniform one, and a put whose operands are all scalar. -/
def onceOnly (i : Instr) : Bool :=
  i.xclass == .uniform || (match i with | .qput _ _ => !(shape i).anyThread | .qmput _ _ _ => !(shape i).anyThread | _ => false)

/-- R131, R338, R261: the issue cycles that a path takes at a thread index: a uniform instruction, or one that raises a decode fault, in
the slot of the lowest thread; a quad instruction one for each thread of its quads, helpers included. -/
def slotWidth (a : Path) (t : Nat) : Nat :=
  match a.f with
  | .word i =>
    let low := a.ts.head? == some t
    if a.bad then (bit low)
    else
      let two := if 0x66 ≤ opcode i && opcode i ≤ 0x6D then 2 else 1
      match opcode i with
      | 0x45 => 2 * (bit (a.ts.contains t))
      | 0x46 => 2 * (bit (a.ts.contains t))
      | 0x48 => bit (a.ts.any (fun u => u / 4 == t / 4))
      | 0x49 => bit (a.ts.any (fun u => u / 4 == t / 4))
      | _ => two * (bit (if onceOnly i then low else a.ts.contains t))
  | _ => 0

/-- A slot of a pass: the path, the thread index, the cycle of the pass in which it enters, and its cycles. -/
structure PSlot where
  path : Nat
  t : Nat
  off : Nat
  n : Nat
  deriving DecidableEq, Repr

/-- R131: the slots of a pass, interleaved in ascending thread index. -/
def passSlots (ps : List Path) : List PSlot :=
  ((List.range 32).foldl (fun r t => (lmapIx 0 (fun k (a : Path) => (k, slotWidth a t)) ps).foldl (fun (r : List PSlot × Nat) z =>
    if z.2 = 0 then r else (r.1 ++ [{ path := z.1, t := t, off := r.2, n := z.2 }], r.2 + z.2)) r) ([], 0)).1

/-- R145, R174: an instruction whose threads the partner lane takes in the order rotated by one. -/
def turned (a : Path) : Bool := match a.f with | .word i => !a.bad && !onceOnly i && !readsPrv i && opcode i / 16 != 4 | _ => false

/-- R145: the slots of a pass on the partner lane: the first active thread of each rotated path comes last. -/
def partnerSlots (ps : List Path) : List PSlot :=
  let zs := passSlots ps
  let back (z : PSlot) : Bool := match ps[z.path]? with | some a => turned a && a.ts.head? == some z.t | none => false
  ((zs.filter (fun z => !back z) ++ zs.filter back).foldl (fun (r : List PSlot × Nat) z => (r.1 ++ [{ z with off := r.2 }], r.2 + z.n)) ([], 0)).1

/-- R131: the issue cycles of a path. -/
def pathCost (a : Path) : Nat := ((List.range 32).map (slotWidth a)).foldl (· + ·) 0

/-- R137, R261, R143: the class of a pass; of a re-issue, that of its access. -/
def planClass (q : Plan) : TClass :=
  match q.redo with
  | some e => opClass (opcode e.i)
  | none => q.paths.foldl (fun c a => match a.f with | .word i => slower c (opClass (opcode i)) | _ => c) .q

/-- R131, R368, R143: the issue cycles of a pass: of a re-issue, one for each unfinished thread. -/
def planCost (q : Plan) : Nat :=
  Nat.max 1 (match q.redo with | some e => e.thr.length | none => q.paths.foldl (fun n a => n + pathCost a) 0)

/-- R37: what slots put in flight: a uniform instruction for six cycles, another from its first slot to five cycles after its last. -/
def slotWorks (ps : List Path) (zs : List PSlot) : List (TClass × Nat × Nat) :=
  (lmapIx 0 (fun k (a : Path) =>
    let mine := zs.filter (fun z => z.path == k)
    match a.f, mine.head?, mine.getLast? with
    | .word i, some f, some l =>
      [(opClass (opcode i), f.off, if a.bad || onceOnly i then f.off + 6 else l.off + l.n + 5)]
    | _, _, _ => [(TClass.q, 0, 6)]) ps).flatten
def planWorks (paired : Bool) (q : Plan) : List (TClass × Nat × Nat) :=
  match q.redo with
  | some e => [(opClass (opcode e.i), 0, planCost q + 5)]
  | none => slotWorks q.paths (passSlots q.paths) ++ (if paired then slotWorks q.paths (partnerSlots q.paths) else [])

/-! The pipeline (R132). -/

/-- The threads whose results a slot produces: all of the path for a uniform instruction. -/
def slotThreads (a : Path) (i : Instr) (z : PSlot) : List Nat := if onceOnly i then a.ts else [z.t]

/-- R147: a slot of a pass that stops at thread `j` with path `f` has committed. -/
def slotDone (ps : List Path) (j f : Nat) (z : PSlot) : Bool :=
  match ps[z.path]? with
  | some a => (match a.f with
    | .word i => (match i.xclass with
      | .perThread => decide (z.t < j)
      | .uniform => z.path != f && decide (z.t < j)
      | .whole => z.path != f && a.ts.all (fun t => decide (t < j)))
    | _ => false)
  | none => false

/-- R132: the results of slots of a pass that starts at CYC `c`, noted with the cycles in which they enter;
those that six cycles have made readable are dropped. -/
def pipeMarks (q : Plan) (zs : List PSlot) (c : Nat) (p : Pipe) : Pipe :=
  let old (e : Nat × Nat) : Bool := decide (c < e.2 + 6)
  let p0 : Pipe := { v := p.v.filter old, s := p.s.filter old, b := p.b.filter (fun e => decide (c < e.2.headD 0 + 6)) }
  zs.foldl (fun r z => match q.paths[z.path]? with
    | none => r
    | some a => match a.f with
      | .word i =>
        let at0 := c + z.off + (if opcode i == 0x45 || opcode i == 0x46 then 1 else 0)
        (match (shape i).d with
         | none => r
         | some d =>
           let ts := slotThreads a i z
           let k := if i.noWrite then ([], []) else pendKeys (dstReg q.y d.dst) d.span ts
           { v := k.1.foldl (fun t n => tset t n at0) r.v, s := k.2.foldl (fun t n => tset t n at0) r.s,
             b := ts.foldl (fun t n => tset t n ((at0 :: tget t n []).take 8)) r.b })
      | _ => r) p0

/-- R132: each of these slots of a pass that starts at CYC `c` enters at least six cycles after the slots whose results it reads. -/
def slotsReady (x : Block) (b g : Nat) (q : Plan) (zs : List PSlot) (c : Nat) (p : Pipe) : Bool :=
  if p.v.isEmpty && p.s.isEmpty && p.b.isEmpty then true
  else zs.all (fun z => match q.paths[z.path]? with
    | none => true
    | some a => match a.f with
      | .word i =>
        let w := pathPass x b g q.y false a.ts
        let ok (e : Option Nat) : Bool := match e with | some e => decide (e + 6 ≤ c + z.off) | none => true
        let ks := (readRegs i w).map (fun r => pendKeys (some r.1) r.2 (slotThreads a i z))
        ks.all (fun k => k.1.all (fun n => ok (tget? p.v n)) && k.2.all (fun n => ok (tget? p.s n))) &&
        (shape i).regSources.all (fun r => match r with
          | .b k => (slotThreads a i z).all (fun t => ok (tget p.b t [])[k.val]?)
          | _ => true)
      | _ => true)

/-- R132, R145: the pass may start, on the group's lane and on its partner. -/
def pipeReady (x : Block) (b g : Nat) (q : Plan) (c : Nat) : Bool :=
  q.redo.isSome || (slotsReady x b g q (passSlots q.paths) c q.y.q.pipe &&
    (!x.opts.paired || slotsReady x b g q (partnerSlots q.paths) c q.y.q.pipe2))

/-- R161: what the timers that are suspended now do not count. -/
def holdTimers (dt : Nat) (s : State) : State :=
  if s.blocks.all (fun c => c.2.bars.isEmpty && c.2.groups.all (fun y => y.e.mmaWait.isNone)) then s
  else { s with blocks := s.blocks.map (fun c => (c.1, { c.2 with
    bars := c.2.bars.map (fun r => (r.1, if c.2.life != .resident || barSuspended c.2 r.2 then { r.2 with last := r.2.last + dt } else r.2))
    groups := lmapIx 0 (fun g (y : Group) => match y.e.mmaWait with
      | some w =>
        if (gangMembers s c.1 g).any (fun z => z.2.2.e.mmaWait.isNone && (match s.blk? z.1 with
            | some x => x.life != .resident || suspends x z.2.1 z.2.2 | none => false)) then
          { y with e := { y.e with mmaWait := some { w with since := w.since + dt } } } else y
      | none => y) c.2.groups })) }

/-- Device time passes. -/
def advanceTime (dt : Nat) (s : State) : State := { holdTimers dt s with now := s.now + dt }

end Sys2Proof.Machine
end

