-- ==== Sys2Proof/Machine/Gate.lean ====
section
/-! DEFINITION. The sets of a lane (R133 to R136), the class gate (R137, R408), parks and halts at switch points (R142, R405):
what a core settles before its next pass, and the group a lane takes. -/

namespace Sys2Proof.Machine

/-- A group with its place. -/
structure Spot where
  b : Nat
  g : Nat
  x : Block
  y : Group
  deriving DecidableEq, Repr

/-- R145: the lanes on which a group issues. -/
def lanesOf (z : Spot) : List Nat := if z.x.opts.paired then [z.y.q.lane, partner z.y.q.lane] else [z.y.q.lane]

/-- R134: groups of a core that are in the active or pending set of a lane. -/
def coreSpots (s : State) (c : Nat) : List Spot :=
  (residents s).flatMap (fun (b, x) => if x.core = c then
    (lmapIx 0 (fun g (y : Group) => ({ b := b, g := g, x := x, y := y } : Spot)) x.groups).filter (fun z =>
      (z.y.q.status == .active || z.y.q.status == .pending) && !x.wholeSaved.contains z.g) else [])

/-- R133: a lane that issues no group now is at a switch point. -/
def atSwitch (s : State) (c : Nat) (z : Spot) : Bool := (lanesOf z).all (fun l => (tget? (s.core c).cur l).isNone)
def isCur (s : State) (c : Nat) (z : Spot) : Bool := tget? (s.core c).cur z.y.q.lane == some (z.b, z.g)

/-- R36, R37: units of the core work without a set end: a group on it has a gather that has begun, or an operation on a matrix unit that
makes no progress. -/
def gathWorks (s : State) (c : Nat) : Bool :=
  (residents s).any (fun (_, x) => x.core == c && x.groups.any (fun y => y.e.ops.any isGath || y.e.mma.any (fun f => f.stuck.isSome)))
def settleUnits (c : Nat) (s : State) : State :=
  if gathWorks s c == (s.core c).gath then s else modCore s c (fun k => { syncCore s.now k with gath := !k.gath })

/-! Readiness and parks. -/

/-- R216: the pages whose PREFs an access of the pass waits for. -/
def waitedPages (s : State) (x : Block) (b g : Nat) (q : Plan) : List (BitVec 64) :=
  let pages (l : List (Nat × Nat)) : List (BitVec 64) :=
    l.flatMap (fun r => [pageOf (BitVec.ofNat 64 r.1), pageOf (BitVec.ofNat 64 (r.1 + r.2 - 1))])
  if q.y.e.prefs.isEmpty then []
  else match q.redo, latePass s b g with
  | some e, some p =>
    if !redoWaits s b g e then []
    else if e.acc = 3 then (match e.thr with | x :: _ => pages ((gathTouch p s (gathD x.data)).drop 2) | [] => [])
    else (e.thr.filter (fun x => redoLook s p e x == .wait)).map (fun x => pageOf x.addr)
  | _, _ => q.paths.flatMap (fun a => match a.f with
    | .word i =>
      let p := pathPass x b g q.y false a.ts
      (match memOf i with
       | some m => if m.space == .dev then ((accThreads i p).filter (fun t => look p s m t == .wait)).map (fun t => pageOf (BitVec.ofNat 64 (m.ea p t))) else []
       | none => match i with
         | .gath _ d =>
           let z := gathD (descWords p d 5)
           if z.bad || z.scr || gathLook p s z != .wait then []
           else pages ((gathTouch p s z).drop 2)
         | _ => [])
    | _ => [])

/-- R405: the group halts at a switch point, with its post of kind 4. -/
def commandHalt (s : State) (b g : Nat) : State :=
  match s.blk? b with
  | none => s
  | some x => match x.groups[g]? with
    | none => s
    | some y =>
      let t := match (planOf s x g y).paths with | a :: _ => a.ts.headD 0 | [] => y.liveList.headD 0
      let val := match y.thr[t]? with | some z => z.region.endOff.getD 0 | none => 0
      let s := debugPost s (ctxPort s x.ctx) (postBytes s x 4 t g (y.pcOf t) val)
      modGrp (haltGroup s b g (y.pcOf t)) b g (fun y => { y with d := { y.d with haltReq := false, step := false } })

/-- R136, R142, R405: a group's readiness is noted; at a switch point it halts if that is asked for, and parks if its next pass
needs what is not there. -/
def settleGroup (c : Nat) (z : Spot) (s : State) : State :=
  if z.y.d.haltReq && !isCur s c z then commandHalt s z.b z.g
  else
    let q := planOf s z.x z.g z.y
    let r := if z.y.q.rollback then Ready.wait else planReady s z.x z.b z.g q
    match r with
    | .go =>
      -- R132: a pass that would read a result still in the pipeline is not ready
      if pipeReady z.x z.b z.g q (s.cyc c) then
        (if z.y.q.ready.isSome then s else modGrp s z.b z.g (fun y => { y with q := { y.q with ready := some (s.cyc c) } }))
      else if z.y.q.ready.isNone then s
      else modGrp s z.b z.g (fun y => { y with q := { y.q with ready := none } })
    | .wait =>
      let s := match waitedPages s z.x z.b z.g q with | [] => s | l => markWaited false z.b z.g l s
      if z.y.q.ready.isNone then s else modGrp s z.b z.g (fun y => { y with q := { y.q with ready := none } })
    | .park k => if isCur s c z then modGrp s z.b z.g (fun y => { y with q := { y.q with ready := none } }) else park s z.b z.g k

/-! The active set. -/

def isReady (z : Spot) : Bool := z.y.q.ready.isSome
def isActive (z : Spot) : Bool := z.y.q.status == .active

/-- R135: the oldest of some groups; the youngest. -/
def oldest : List Spot → Option Spot
  | [] => none
  | z :: r => match oldest r with | none => some z | some w => if w.y.q.age < z.y.q.age then some w else some z
def youngest : List Spot → Option Spot
  | [] => none
  | z :: r => match youngest r with | none => some z | some w => if z.y.q.age < w.y.q.age then some w else some z

/-- R134, R136: a group enters or leaves the active set; its bound starts anew. -/
def setActive (c : Nat) (on : Bool) (z : Spot) (s : State) : State :=
  modGrp s z.b z.g (fun y => { y with q := { y.q with
    status := if on then .active else .pending, forced := false, ready := y.q.ready.map (fun _ => s.cyc c) } })

/-- R134: the group's next pass waits for more than a result in the pipeline. -/
def waitsLong (s : State) (z : Spot) : Bool :=
  !isReady z && (z.y.q.rollback || planReady s z.x z.b z.g (planOf s z.x z.g z.y) != .go)

/-- R134: the groups in the active set of a lane. -/
def activeSet (zs : List Spot) (l : Nat) : List Spot := zs.filter (fun z => isActive z && (lanesOf z).contains l)

/-- R134: a slot on every lane of the group. -/
def hasRoom (zs : List Spot) (z : Spot) : Bool := (lanesOf z).all (fun l => (activeSet zs l).length < 8)

/-- R136: a group forced out of the pending set replaces the youngest non-ready active group, else the youngest. -/
def replaced (zs : List Spot) (l : Nat) : Option Spot :=
  match youngest ((activeSet zs l).filter (fun z => !isReady z)) with
  | some z => some z
  | none => youngest (activeSet zs l)

/-- R136: makes room on the lanes of a forced pending group. -/
def makeRoom (c : Nat) (zs : List Spot) (z : Spot) (s : State) : State :=
  foldS (fun l s => if (activeSet zs l).length < 8 then s else match replaced zs l with | some w => setActive c false w s | none => s) (lanesOf z) s

/-- R134: at a switch point a waiting group gives its slot to a ready pending one: the pending group, oldest first, and the
waiting groups that leave for it. -/
def exchange (c : Nat) (z : Spot) (s : State) : State :=
  let zs := coreSpots s c
  if !isReady z || !atSwitch s c z then s
  else if hasRoom zs z then setActive c true z s
  else if z.y.q.forced then setActive c true z (makeRoom c zs z s)
  else
    let outs := (lanesOf z).map (fun l => if (activeSet zs l).length < 8 then some none
      else match oldest ((activeSet zs l).filter (waitsLong s)) with | some w => some (some w) | none => none)
    if outs.contains none then s
    else setActive c true z (foldS (fun o s => match o with | some (some w) => setActive c false w s | _ => s) outs s)

/-- Insertion by age, the forced ones first (R135, R136). -/
def insertAge (z : Spot) : List Spot → List Spot
  | [] => [z]
  | w :: r =>
    if (z.y.q.forced && !w.y.q.forced) || (z.y.q.forced == w.y.q.forced && z.y.q.age < w.y.q.age) then z :: w :: r
    else w :: insertAge z r
def byAge (l : List Spot) : List Spot := l.foldl (fun r z => insertAge z r) []

/-- R134, R136: pending groups take slots. -/
def fillSets (c : Nat) (s : State) : State :=
  foldS (fun (z : Spot) s => exchange c z s) (byAge ((coreSpots s c).filter (fun z => !isActive z && isReady z))) s

/-! The class gate. -/

/-- R137: the class of a group's next pass. -/
def classOf (s : State) (z : Spot) : TClass := planClass (planOf s z.x z.g z.y)

/-- R137: the groups of a core with a ready pass in the active set of a lane. -/
def readyActive (s : State) (c : Nat) : List Spot := (coreSpots s c).filter (fun z => isReady z && isActive z)

/-- R133, R137: the ready groups that the lanes of a core offer to the class gate: between its switch points a lane offers the group that
it issues and no other, since it can issue no other (log entry 17: DEDUCED). -/
def offered (s : State) (c : Nat) : List Spot := (readyActive s c).filter (fun z => isCur s c z || atSwitch s c z)

/-- R131, R133: the groups that can issue on a core in the cycle that begins now: the group a lane issues between its switch points,
else those of its active set, where the issue slot is free; a pair waits for both its lanes (R145). -/
def issuers (s : State) (c : Nat) : List Spot :=
  if atEdge s c then
    (offered s c).filter (fun z => (lanesOf z).all (issueFree s c))
  else []

/-- R137, R408: lanes that hold a ready pass of a class, or an active group that has declared it. -/
def laneCount (s : State) (c : Nat) (zs : List Spot) (k : TClass) : Nat :=
  ((((zs.filter (fun z => classOf s z == k)) ++ (coreSpots s c).filter (fun z => isActive z && z.y.q.hint == some k)).flatMap lanesOf).eraseDups).length

/-- R137: the class of the most lanes, the faster on a tie, of those that a ready pass has. -/
def commonClass (s : State) (c : Nat) (zs : List Spot) : Option TClass :=
  [TClass.q, TClass.n, TClass.s, TClass.l].foldl (fun r k =>
    if !zs.any (fun z => classOf s z == k) then r
    else match r with
      | none => some k
      | some j => if laneCount s c zs j < laneCount s c zs k then some k else r) none

/-- R136: the oldest forced group whose lane is at a switch point, and the oldest forced group. -/
def forcedSpot (s : State) (c : Nat) (zs : List Spot) : Option Spot := oldest (zs.filter (fun z => z.y.q.forced && atSwitch s c z))
def forcedAny (zs : List Spot) : Option Spot := oldest (zs.filter (fun z => z.y.q.forced))

/-- R136, R137: the window of the core, ended and opened anew where the rules say. -/
def settleWindow (c : Nat) (s : State) : State :=
  let zs := offered s c
  let forced := (forcedSpot s c zs).map (classOf s)
  let keep : Bool := match (s.core c).win with
    | none => false
    | some w => !windowOld s c && zs.any (fun z => classOf s z == w.cls) && (match forced with | some k => k == w.cls | none => true)
  if keep then s
  else
    let k := match forced, (forcedAny zs).map (classOf s) with
      | some k, _ => some k
      | none, some k => some k
      | none, none => commonClass s c zs
    match k with
    | some k => modCore s c (fun r => { r with win := some { cls := k, endAt := s.cyc c + 256 } })
    | none => if (s.core c).win.isNone then s else modCore s c (fun r => { r with win := none })

/-- R43: the accounts with resident blocks on a regulator's clusters, and the one whose last block has left it. -/
def railTenants (s : State) (x : Nat) : List Nat :=
  ((residents s).filterMap (fun c => if (s.cluster (clusterOf c.2.core)).rail = x then some (ctxTenant s c.2.ctx) else none)).foldl insertNat []
def settleRails (s : State) : State :=
  foldS (fun x s =>
    let l := railTenants s x
    if l == (s.reg x).here then s
    else modReg s x (fun r => { r with here := l, gone := ((r.here.filter (fun a => !l.contains a)).head?).getD r.gone })) (List.range 4) s

/-- What a core settles before its next pass. -/
def settleCore (c : Nat) (s : State) : State :=
  settleWindow c (fillSets c (foldS (settleGroup c) (coreSpots s c) (settleUnits c s)))
def residentCores (s : State) : List Nat := ((residents s).map (fun c => c.2.core)).eraseDups
/-- Cores whose units were at work as they last settled (R36). -/
def unitCores (s : State) : List Nat := s.cores.filterMap (fun c => if c.2.gath then some c.1 else none)
def settleAll (s : State) : State := settleRails (foldS settleCore (residentCores s) (foldS settleUnits (unitCores s) s))

/-- R133, R136, R386: the group that a lane issues next: the one it issues now; at a switch point a forced group, then the one
before if it may go on, then the oldest. A group that yielded stands back for another. -/
def pickOn (s : State) (c lane : Nat) : Option Spot :=
  let zs := (issuers s c).filter (fun z => (lanesOf z).contains lane)
  match zs.find? (isCur s c), (s.core c).win with
  | some z, some w => if classOf s z == w.cls then some z else none
  | none, some w =>
    let zs := zs.filter (fun z => classOf s z == w.cls)
    (match oldest (zs.filter (fun z => z.y.q.forced)) with
     | some z => some z
     | none =>
       let on := zs.filter (fun z => !z.y.q.passed)
       let zs := if on.isEmpty then zs else on
       match zs.find? (fun z => tget? (s.core c).last lane == some (z.b, z.g)) with
       | some z => some z
       | none => oldest zs)
  | _, none => none

/-- R145: a pair issues when both its lanes take it; where one lane takes another pair of theirs, both take the one that goes before. -/
def pick (s : State) (c lane : Nat) : Option Spot :=
  match pickOn s c lane with
  | none => none
  | some z =>
    if !z.x.opts.paired then some z
    else match pickOn s c (partner lane) with
      | none => none
      | some w => if w.b == z.b && w.g == z.g then some z else if w.x.opts.paired then (insertAge w [z]).head? else none

/-- The lanes on which a pass can issue now. -/
def readyLanes (s : State) : List (Nat × Nat) :=
  (residentCores s).flatMap (fun c =>
    ((((issuers s c).flatMap lanesOf).eraseDups).filter (fun l => (pick s c l).isSome)).map (fun l => (c, l)))

end Sys2Proof.Machine
end

