-- ==== Sys2Proof/Machine/Issue.lean ====
section
/-! DEFINITION. Issuing a pass: the paths judged and executed (R139 to R141, R147, R301), what follows at its end (R133, R152,
R162, R405), and mismatches in paired-lane mode (R68). -/

namespace Sys2Proof.Machine

/-- The state an instruction leaves; a stop leaves it as it was (a pass names its threads, so none occurs). -/
def outState (o : Out) (s : State) : State := match o with | .next t => t | _ => s

/-- R140: an instruction whose threads reach the load-store unit or the rings one by one. -/
def oneByOne (i : Instr) : Bool :=
  i.xclass == .perThread && ((memOf i).isSome || (match i with
    | .expq _ _ _ => true | .qtakeQ _ _ => true | .qtakeStage _ => true | .qrel _ => true | .spawn _ => true | .join _ _ => true | _ => false))

/-- R140, R352, R358, R363: what it does to memory, to granules, to the rings or to the order of accesses is seen by the other path. -/
def touchesMem (i : Instr) : Bool := 8 ≤ opcode i / 16

/-- A path of a pass of two, with its instruction. -/
structure Side where
  i : Instr
  pc : Word
  ts : List Nat
  upper : Bool
  /-- R395: the cycle of the pass in which its first slot enters. -/
  off : Nat
  deriving DecidableEq, Repr

/-- Runs an instruction for some threads of a path that has been judged. -/
def runSide (b g : Nat) (pre : Group) (d : Side) (ts : List Nat) (cut : Bool) (s : State) : State :=
  let s := { s with sel := some { blk := b, grp := g, mask := listMask ts, upper := d.upper, pre := some pre, judged := true, cut := cut, off := d.off } }
  outState (exec d.i s) s

/-- R131, R338, R340, R172: the slot in which a path that is not served thread by thread takes effect: its lowest thread's; the last
one's where it writes a scalar register after reading every thread, and for a chain, so that the tail is that of the later slot. -/
def scalarDst (i : Instr) : Bool := match (shape i).d with | some d => (match d.dst with | .s _ => true | _ => false) | none => false
def sideAt (i : Instr) (ts : List Nat) : Nat :=
  if (i.xclass == .whole && scalarDst i) || readsPrv i then ts.getLastD 0 else ts.headD 0

/-- R131, R140: the slots of two paths in ascending thread index: `each` serves one thread of a path, `all` the whole path. -/
def inSlots (sides : List Side) (each : Side → Nat → State → State) (all : Side → State → State) (s : State) : State :=
  foldS (fun t s => foldS (fun (d : Side) s =>
    if oneByOne d.i then (if d.ts.contains t then each d t s else s)
    else if sideAt d.i d.ts == t then all d s else s) sides s) (List.range 32) s

/-- R140: paths that both touch memory are served in slot order; others path by path, in the order of their slots. -/
def bySlots (a c : Side) (each : Side → Nat → State → State) (all : Side → State → State) (s : State) : State :=
  if touchesMem a.i && touchesMem c.i then inSlots [a, c] each all s
  else foldS all (if sideAt a.i a.ts < sideAt c.i c.ts then [a, c] else [c, a]) s

/-- R354: the threads served in thread t's slot: of an LDU, all that read its location, in the slot of the lowest of them. -/
def sharers (x : Block) (b g : Nat) (pre : Group) (d : Side) (t : Nat) : List Nat :=
  match d.i, memOf d.i with
  | .ldu _ _ _, some m =>
    let p := pathPass x b g pre d.upper d.ts
    let l := d.ts.filter (fun u => m.ea p u == m.ea p t)
    if l.head? == some t then l else []
  | _, _ => [t]

/-- R147: some threads of a path are served, if there are any. -/
def serveSlot (b g : Nat) (pre : Group) (d : Side) (ts : List Nat) (s : State) : State :=
  if ts.isEmpty then s else runSide b g pre d ts false s

/-- R220, R227, R215, R153: the instruction awaits stores, or accesses, that a lower slot of its pass has left to be performed: its path
issues it again. -/
def awaitsNow (b g : Nat) (i : Instr) (s : State) : Bool :=
  awaitsHeld i && (holdsStore s b g || ((match i with | .join _ _ => false | _ => true) && (s.grp? b g).any (fun y => !y.log.isEmpty)))

/-- R71: where the entry of a path served thread by thread goes: before what the other has journaled, if its first slot is the earlier. -/
def entryPlace (s : State) (b g : Nat) (a c : Side) (up : Bool) : Option Nat :=
  let d := if up then c else a
  let o := if up then a else c
  match s.grp? b g with
  | some y => if journaling y && !oneByOne o.i && decide (d.ts.headD 0 < sideAt o.i o.ts) then some y.a.journal.length else none
  | none => none

/-- R131, R140, R71: both paths in slot order, with the journal entries of what is served thread by thread. -/
def slotPass (b g : Nat) (a c : Side) (each : Side → Nat → State → State) (all : Side → State → State) (s : State) : State :=
  closeBoth (bySlots a c each all (openBoth s b g)) b g (entryPlace s b g a c) (fun up => if up then (c.i, c.pc) else (a.i, a.pc))

/-- R147: both paths without a fault. A JOIN whose first threads have been served goes on (R127). -/
def runSides (x : Block) (b g : Nat) (pre : Group) (a c : Side) (s : State) : State :=
  slotPass b g a c (fun d t s => if d.ts.head? == some t && awaitsNow b g d.i s then s else serveSlot b g pre d (sharers x b g pre d t) s)
    (fun d s => if awaitsNow b g d.i s then s else runSide b g pre d d.ts false s) s

/-- What judging a path gives, its fetch included (R263). -/
def judgeSide (s : State) (x : Block) (b g : Nat) (y : Group) (upper : Bool) (a : Path) : Verdict :=
  match a.f with
  | .bad k addr => .fault k (a.ts.headD 0) (listMask a.ts) 0 addr
  | .page _ => .ok
  | .word i => let p := pathPass x b g y upper a.ts; judge p i (extraOf i p s)

/-- The thread at which a path stops. -/
def stopAt : Verdict → Nat
  | .ok => 32 | .roll j => j | .fault _ j _ _ _ => j

/-- R147: the slots of a path below thread j commit. -/
def commitSide (x : Block) (b g : Nat) (y : Group) (j : Nat) (faulting : Bool) (upper : Bool) (a : Path) (s : State) : State :=
  match a.f with
  | .word i => commitBelow i (fun _ s => outState (exec i s) s) (pathPass x b g y upper a.ts) j faulting s
  | _ => s

/-- A path of two as a side. -/
def sideOf (a c : Path) (upper : Bool) (i : Instr) : Side :=
  let off := match (passSlots [a, c]).find? (fun z => z.path == bit upper) with | some z => z.off | none => 0
  if upper then { i := i, pc := c.pc, ts := c.ts, upper := true, off := off } else { i := i, pc := a.pc, ts := a.ts, upper := false, off := off }

/-- R147, R140: both paths commit below thread j, in slot order. -/
def commitSides (x : Block) (b g : Nat) (y : Group) (j : Nat) (up : Bool) (a c : Path) (s : State) : State :=
  match a.f, c.f with
  | .word i, .word k =>
    let l := sideOf a c false i
    let h := sideOf a c true k
    slotPass b g l h (fun d t s => if d.ts.head? == some t && awaitsNow b g d.i s then s else serveSlot b g y d ((sharers x b g y d t).filter (· < j)) s)
      (fun d s => if awaitsNow b g d.i s then s else if d.upper then commitSide x b g y j up true c s else commitSide x b g y j (!up) false a s) s
  | _, _ => commitSide x b g y j up true c (commitSide x b g y j (!up) false a s)

/-- R147 to R151: the fault of a pass: what lies below thread j commits, then it is taken. -/
def faultPass (x : Block) (b g : Nat) (y : Group) (k : FKind) (j : Nat) (mask : BitVec 32) (aux : Word) (addr : BitVec 64) (up : Bool)
    (a : Path) (commit : State → State) (s : State) : State :=
  let s := modGrp (commit s) b g freshResume
  let p := pathPass x b g y up a.ts
  match a.f with
  | .word i => takeFault (faultPre i k p s) b g k j up a.pc mask aux addr (postVal p i j) (a.ts.headD j)
  | _ => takeFault s b g k j up a.pc mask aux addr 0

/-- R61: the reads of a path find the errors that lie in what they touch. -/
def findPath (x : Block) (b g : Nat) (y : Group) (a : Path) (s : State) : State :=
  match a.f with | .word i => findAll i (pathPass x b g y false a.ts) s | _ => s

/-- The selection of a path that its instruction judges itself. -/
def soleSel (b g : Nat) (ts : List Nat) : Sel :=
  { blk := b, grp := g, mask := listMask ts, upper := false, pre := none, judged := false, cut := false }

/-- How a pass ended: the thread at which it stopped, or 32, and the path that stopped there, or 2. -/
structure PassEnd where
  j : Nat
  f : Nat
  deriving DecidableEq, Repr
def PassEnd.ok (e : PassEnd) : Bool := e.f == 2

/-- How a pass ends by the verdict of its path `f`. -/
def endOf (f : Nat) : Verdict → PassEnd
  | .ok => { j := 32, f := 2 }
  | .roll _ => { j := 0, f := f }
  | .fault _ j _ _ _ => { j := j, f := f }

/-- Executes a pass of one path. -/
def runOne (x : Block) (b g : Nat) (y : Group) (a : Path) (s : State) : PassEnd × State :=
  match a.f with
  | .page va => ({ j := 0, f := 0 }, tabPark s b g va)
  | .bad k addr => ({ j := 0, f := 0 }, takeFault (modGrp s b g freshResume) b g k (a.ts.headD 0) false a.pc (listMask a.ts) 0 addr 0)
  | .word i =>
    let s := findPath x b g y a s
    let e := endOf 0 (judgeSide s x b g y false a)
    let s := { s with sel := some (soleSel b g a.ts) }
    (e, outState (exec i s) s)

/-- Executes a pass of two paths. -/
def runTwo (x : Block) (b g : Nat) (y : Group) (a c : Path) (s : State) : PassEnd × State :=
  match a.f, c.f with
  | .page va, _ => ({ j := 0, f := 0 }, tabPark s b g va)
  | _, .page va => ({ j := 0, f := 1 }, tabPark s b g va)
  | _, _ =>
    let s := findPath x b g y c (findPath x b g y a s)
    let va := judgeSide s x b g y false a
    let vc := judgeSide s x b g y true c
    let j := Nat.min (stopAt va) (stopAt vc)
    let up := stopAt vc < stopAt va
    match (if up then vc else va) with
    | .ok => (match a.f, c.f with
      | .word i, .word k => ({ j := 32, f := 2 }, runSides x b g y (sideOf a c false i) (sideOf a c true k) s)
      | _, _ => ({ j := 0, f := 0 }, s))
    | .roll _ => ({ j := 0, f := bit up }, rollback s b g)
    | .fault k _ mask aux addr =>
      ({ j := j, f := bit up }, faultPass x b g y k j mask aux addr up (if up then c else a) (commitSides x b g y j up a c) s)

def runPaths (x : Block) (b g : Nat) (q : Plan) (s : State) : PassEnd × State :=
  match q.paths with
  | [] => ({ j := 0, f := 0 }, s)
  | [a] => runOne x b g q.y a s
  | a :: c :: _ => runTwo x b g q.y a c s

/-! Before and after. -/

/-- R141: skip counts of the pass. -/
def countSkips (q : Plan) (y : Group) : Group :=
  let on := q.paths.flatMap (·.ts)
  { y with thr := lmapIx 0 (fun t (z : Thread) =>
      { z with skip := if q.may.contains t && !on.contains t then Nat.min 2047 (z.skip + 1) else 0 }) y.thr }

/-- The group as its pass begins: its meetings released, its skip counts, and the marks of the scheduler cleared; a group that yields counts
as not having issued (R386). -/
def beginPass (q : Plan) (y : Group) : Group :=
  let y := countSkips q { y with thr := q.y.thr }
  let yields := q.paths.any (fun a => a.f == .word .yieldI)
  { y with q := { y.q with ready := if yields then y.q.ready else none, forced := y.q.forced && yields, passed := false } }

/-- R386: groups that stood back for one switch point. -/
def clearPassed (c lane : Nat) (s : State) : State :=
  foldS (fun (z : Spot) s => if z.y.q.passed && (lanesOf z).contains lane then modGrp s z.b z.g (fun y => { y with q := { y.q with passed := false } }) else s)
    (coreSpots s c) s

/-- R152, R200: the stacks after a pass with a switch-capable instruction. -/
def switchLatches (on : List Nat) (y : Group) : Group :=
  { y with thr := lmapIx 0 (fun t (z : Thread) =>
      if on.contains t then { z with latch := [], event := false }
      else if z.latch.isEmpty then z else { z with latch := [], event := false }) y.thr }

/-- R262: the pass contains a switch-capable instruction. -/
def planSwitch (q : Plan) : Bool := q.paths.any (fun a => match a.f with | .word i => opSwitch (opcode i) | _ => false)

/-- R162, R249: every live, unheld thread executed the same LIVE, and no copy of the group is suspended: its entry. -/
def liveStop (s : State) (x : Block) (b g : Nat) (q : Plan) : Option (List Byte) :=
  match q.paths with
  | [a] => (match a.f with
    | .word (.live n) =>
      if q.may.length == a.ts.length && q.y.e.ops.all (fun o => o.susp.isNone) then (match liveEntry (pathPass x b g q.y false a.ts) s n.toNat with | .bytes l => some l | _ => none) else none
    | _ => none)
  | _ => none

/-- R161, R364: the groups with threads held at a barrier's instructions; REPACK counts under 255. -/
def barAt (s : State) (x : Block) (t : Thread) : Option Nat :=
  if t.cont.isSome then some 255
  else match fetchAt s x t.pc with
    | .word (.bar _ id) => some id.val
    | .word (.bara _ id) => some id.val
    | .word (.barw _ id) => some id.val
    | _ => none
def heldAtBars (s : State) (x : Block) : List (Nat × Nat) :=
  ((liveThreads x).filterMap (fun c => match barAt s x c.2.2 with
    | some id => some (id, homeOf x c.1 c.2.1)
    | none => none)).eraseDups
def refreshHolds (s : State) (b : Nat) : State :=
  modBlk s b (fun x =>
    let hs := heldAtBars s x
    if hs.isEmpty && x.bars.all (fun r => r.2.hold.isEmpty) then x
    else
      let ids := (hs.map (·.1)).foldl insertNat (x.bars.map (·.1))
      { x with bars := ids.foldl (fun t id =>
          let r := barrierOf x id
          let h := ((hs.filter (fun z => z.1 == id)).map (·.2)).foldl insertNat []
          let first := (barWaiters x id).isEmpty && !h.isEmpty
          -- R177: a group arrives at a REPACK once all its live threads have
          let came := if id = 255 then repackArrived x else r.arrived
          let more := came.any (fun g => !r.arrived.contains g)
          if h.isEmpty && (tget? t id).isNone then t
          else tset t id { r with hold := h, arrived := came, last := if first || more then coreEdge s x.core else r.last }) x.bars })

/-- R43: the lane cycles of a pass. -/
def notePass (x : Block) (q : Plan) (lanes : Nat) (s : State) : State := note (clusterOf x.core) (ctxTenant s x.ctx) (planCost q * lanes) s

/-- R133: the lanes issue the group from here to its next switch point. -/
def takeLanes (c b g : Nat) (lanes : List Nat) (s : State) : State :=
  modCore s c (fun k => { k with last := lanes.foldl (fun t l => tset t l (b, g)) k.last, cur := lanes.foldl (fun t l => tset t l (b, g)) k.cur })

/-- R133, R152, R162: what follows a pass that met no fault. -/
def afterPass (x : Block) (b g : Nat) (q : Plan) (s : State) : State :=
  let s := modGrp s b g (serveWaited false (s.etm x.core))
  match s.grp? b g with
  | none => s
  | some y =>
    let runs := y.q.status == .active || y.q.status == .pending
    if planSwitch q then
      let s := modGrp s b g (fun y =>
        let y := if runs then switchLatches (q.paths.flatMap (·.ts)) y else y
        { y with q := { y.q with hint := none } })
      let s := leaveLane s b g
      match liveStop s x b g q with
      | some l => if runs then stopHere s b g (some l) else s
      | none => s
    else if runs then s else leaveLane s b g

/-- R132, R405: what a pass that started at CYC `c` leaves: its results in the pipeline; RESUME's exemption ends with the instruction it was
for; and a STEP that has reached a switch point asks for the halt, unless the group has halted. -/
def endPass (q : Plan) (e : PassEnd) (c : Nat) (z : Group) : Group :=
  let stops := !e.ok || planSwitch q
  let halted : Bool := match z.q.status with | .halted _ => true | _ => false
  let done (zs : List PSlot) : List PSlot := zs.filter (slotDone q.paths e.j e.f)
  { z with
    d := { z.d with
      skip := if e.ok && q.paths.any (fun a => z.d.skip == some a.pc) then none else z.d.skip
      haltReq := z.d.haltReq || (stops && z.d.step && !halted)
      step := z.d.step && !stops }
    q := { z.q with pipe := pipeMarks q (done (passSlots q.paths)) c z.q.pipe, pipe2 := pipeMarks q (done (partnerSlots q.paths)) c z.q.pipe2 } }

/-- A pass of a group: its slots, its paths, and its end. -/
def issuePaths (b g : Nat) (x : Block) (y : Group) (s : State) : State :=
  let q := planOf s x g y
  let lanes := lanesOf { b := b, g := g, x := x, y := y }
  let z := foldS (fun a s => touchRead x.ctx .fetch (fetchVa x a.pc) (fetchFind s x a.pc)) q.paths s
  let q := if s.latent.isEmpty then q else planOf z x g y
  let s := z
  let s := clearPassed x.core y.q.lane s
  let s := modGrp s b g (beginPass q)
  let c0 := s.cyc x.core
  let s := takeLanes x.core b g lanes (notePass x q lanes.length (occupy x.core lanes (planCost q) (planWorks x.opts.paired q) s))
  let x := match s.blk? b with | some x => x | none => x
  let q := { q with y := match x.groups[g]? with | some y => y | none => q.y }
  let r := runPaths x b g q s
  let s := { r.2 with sel := none }
  let s := modGrp s b g (endPass q r.1 c0)
  refreshHolds (if r.1.ok then releaseDue (afterPass x b g q s) b else s) b

/-- R143: the group's pass begins with the re-issue of a logged access, one cycle for each unfinished thread; the group goes on with
its lane's slots. -/
def issueRedo (b g : Nat) (x : Block) (y : Group) (s : State) : State :=
  let q := planOf s x g y
  let lanes := lanesOf { b := b, g := g, x := x, y := y }
  let s := clearPassed x.core y.q.lane s
  let s := modGrp s b g (fun y => { y with q := { y.q with ready := none, forced := false, passed := false } })
  let s := takeLanes x.core b g lanes (notePass x q lanes.length (occupy x.core lanes (planCost q) (planWorks x.opts.paired q) s))
  let s := modGrp (outState (execLoggedReissue b g s) s) b g (serveWaited false (s.etm x.core))
  match s.grp? b g with
  | some y => if y.q.status == .active then s else leaveLane s b g
  | none => s

/-- R133, R143: a group issues on its lanes. -/
def issuePass (b g : Nat) (x : Block) (y : Group) (s : State) : State :=
  if y.log.any (·.woken) then issueRedo b g x y s else issuePaths b g x y s

/-! Paired-lane mode. -/

/-- R68, R149: what judging a path gives where the results of some threads differ on the two lanes: COMPARE is the last condition of a
thread, that of a page that is not present before it, and one result stands for all threads of a uniform instruction (R147, R340). -/
def judgeDiff (s : State) (x : Block) (b g : Nat) (y : Group) (upper : Bool) (diff : BitVec 32) (a : Path) : Verdict :=
  match a.f with
  | .word i =>
    let p := pathPass x b g y upper a.ts
    let off (t : Nat) : Bool := if i.xclass == .uniform then a.ts.any diff.getLsbD else diff.getLsbD t
    let logged := (logPages i p s).map (·.1)
    judge p i (fun t => match extraOf i p s t with
      | some c => some c
      | none => if off t && !logged.contains t then some (.fault .compare 0 0) else none)
  | _ => judgeSide s x b g y upper a

/-- R68: the path of a pass that decides it, and what it decides. -/
def verdictDiff (s : State) (x : Block) (b g : Nat) (q : Plan) (diff : BitVec 32) : Option (Path × Bool × Verdict) :=
  match q.paths with
  | [] => none
  | [a] => some (a, false, judgeDiff s x b g q.y false diff a)
  | a :: c :: _ =>
    let va := judgeDiff s x b g q.y false diff a
    let vc := judgeDiff s x b g q.y true diff c
    if stopAt vc < stopAt va then some (c, true, vc) else some (a, false, va)

/-- R167: a matrix unit's reset is due that rolls this operation back. -/
def flyReset (s : State) (f : MmaFly) : Bool :=
  f.mates.any (fun m => match s.blk? m.1, s.grp? m.1 m.2 with
    | some x, some y => unitStuck s x.core (partOf y.q.lane)
    | _, _ => false)

/-- R68, R149: the next pass of a group in paired-lane mode gives results that differ at some threads: results that match when they are
run again commit; else the lanes that the spare blames retire, and the group takes COMPARE, unless an earlier condition decides the
pass. -/
def mismatch (b g : Nat) (diff : BitVec 32) (persistent : Bool) (blame : Nat) (s : State) : State :=
  match s.blk? b with
  | none => s
  | some x => match x.groups[g]? with
    | none => s
    | some y =>
      let q := planOf s x g y
      if !x.opts.paired || x.life != .resident || y.q.status != .active || y.q.rollback || q.redo.isSome ||
          planReady s x b g q != .go || y.e.mma.any (flyReset s) then s
      else match verdictDiff s x b g q diff with
        | some (a, up, .fault .compare j mask aux addr) =>
          let home := y.q.lane
          let lane (l : Nat) : Nat := physLane (s.core x.core) l
          if !persistent then laneRecord s 0x12 0 x.core (lane (if blame = 1 then partner home else home)) (some x.ctx)
          else
            let s := laneRecord s 0x13 1 x.core (lane (if blame = 1 then partner home else home)) (some x.ctx)
            let ls := match blame with | 0 => [home] | 1 => [partner home] | _ => [home, partner home]
            let s := foldS (fun l s => retireFor (fun c k => c == b && k == g) s x.core l) ls s
            let s := modGrp s b g (beginPass q)
            let x := match s.blk? b with | some x => x | none => x
            let y := match x.groups[g]? with | some y => y | none => y
            let commit (s : State) : State := match q.paths with
              | l :: h :: _ => commitSides x b g y j up l h s
              | _ => commitSide x b g y j true false a s
            { faultPass x b g y .compare j mask aux addr up a commit s with sel := none }
        | _ => s

/-- R374, R167: the two results of a slice in paired-lane mode differ: it runs once more on both orders; a difference that persists
leaves the accumulators, and each member of the gang takes COMPARE at its MMA. A member that a reset has taken out is no longer in
flight, and takes none. -/
def mmaMismatch (b g : Nat) (persistent : Bool) (s : State) : State :=
  match s.blk? b, s.grp? b g with
  | some x, some y => match y.e.mma with
    | none => s
    | some f =>
      -- R167: a reset that one of the slices calls for acts first
      if !x.opts.paired || f.mates.any (fun m => (s.grp? m.1 m.2).any (fun z => z.e.mma.any (fun h => h.stuck.isSome))) then s
      else
      let s := note (clusterOf x.core) (ctxTenant s x.ctx) f.steps s
      if !persistent then
        -- the unit runs it again; what follows on the unit is that much later
        let later (h : MmaFly) : MmaFly := { h with endAt := h.endAt + f.cycles }
        let l := (unitGroups s x.core (partOf y.q.lane)).filter (fun z => f.endAt ≤ z.1)
        let s := postRecord s (some x.ctx) (fun ten k =>
          entryBytes 0x12 0 (dieOf x.core) 6 (clusterOf x.core) (x.core % 8) 0xFF ten 0 (s.etm x.core) k 0 [])
        let s := foldS (fun (z : Nat × Nat × Nat) s => modGrp s z.2.1 z.2.2 (fun y => { y with e := { y.e with mma := y.e.mma.map later } })) l s
        modCore s x.core (addTail s.now .n (l.foldl (fun n z => Nat.max n (z.1 + f.cycles)) 0 - s.cyc x.core))
      else
        let ms := f.mates
        let s := postRecord s (some x.ctx) (fun ten k =>
          entryBytes 0x13 1 (dieOf x.core) 6 (clusterOf x.core) (x.core % 8) 0xFF ten 0 (s.etm x.core) k 0 [])
        foldS (fun (m : Nat × Nat) s => match s.grp? m.1 m.2 with
          | none => s
          | some z => match z.e.mma with
            | none => s
            | some h =>
              let live := z.liveList
              let s := unpendAway m.1 h.away (modGrp s m.1 m.2 (fun z => freshResume (dropFly h z)))
              takeFault s m.1 m.2 .compare (live.headD 0) false h.pc (listMask live) 0 0 0) ms s
  | _, _ => s

/-! Inputs that are no rows of the table. -/

/-- R64, R146: a residue failure of a group's next pass on its lane, or on its partner lane (R145): the record, and the rollback. -/
def residueHit (b g : Nat) (onPartner : Bool) (s : State) : State :=
  match s.blk? b with
  | none => s
  | some x => match x.groups[g]? with
    | none => s
    | some y => if x.life != .resident || y.q.status == .exited then s
                else rollback (residueFail s x.core (if onPartner && x.opts.paired then partner y.q.lane else y.q.lane) (some x.ctx)) b g

/-- R61, R34: an uncorrectable error in scheduler memory, or in the miss-status entries of a core: its record, and the kill of the
owning context. -/
def structError (die : Nat) (core : Option Nat) (ctx : Word) (s : State) : State :=
  match s.ctx? ctx with
  | none => s
  | some c =>
    if c.killed then s
    else
      let u : Bool × State := match core with | some k => tripRail s (s.cluster (clusterOf k)).rail | none => (false, s)
      let s := u.2
      let time := match core with | some k => s.etm k | none => s.now
      let e := entryBytes 0x10 1 die 0xFF (match core with | some k => clusterOf k | none => 0xFF) (match core with | some k => k % 8 | none => 0xFF)
        0xFF (if u.1 then 17 else c.tenant) 0 time ctx 0 []
      postTrap (kill s ctx) c.port { own := false, grp := none, bytes := e }

/-- R62: an error that nothing detects gives a register a wrong word; paired-lane mode compares every result, so that none gets past it. -/
def wrongReg (b g : Nat) (vector : Bool) (ix : Nat) (v : Word) (found : Bool) (s : State) : State :=
  match s.blk? b with
  | none => s
  | some x =>
    if x.opts.paired then s
    else modGrp s b g (fun y => { y with
      r := if vector then { y.r with v := wset y.r.v ix v } else { y.r with s := wset y.r.s ix v }
      a := { y.a with struck := y.a.struck || found } })

/-- R61, R63, R66: a parity error of a hop within a die: the sectors it carried are poisoned, with a record. -/
def parityError (die a n : Nat) (ctx : Option Word) (core : Option Nat) (s : State) : State :=
  let s := setPoison s (sectorsOf a n)
  postRecord s ctx (fun ten k => entryBytes 0x11 1 die 7 0xFF 0xFF 0xFF ten (sectorOf a) (match core with | some c => s.etm c | none => s.now) k 0 [])

end Sys2Proof.Machine
end

