-- ==== Sys2Proof/Machine/Agenda.lean ====
section
/-! DEFINITION. What the device does of its own accord: what is due, what is open, and which open item is next, which the spec
leaves open (R4); and what comes from outside (log entry 1). -/

namespace Sys2Proof.Machine

/-- Something the device may do next. -/
inductive Act where
  | issue (core lane : Nat)
  | tick
  | ret (b g : Nat) | copy (b g : Nat) | gath (b g : Nat) | mma (b g : Nat)
  | meet (b g : Nat) | pref (b g : Nat) | bound (b g : Nat) | pend (b g : Nat) | rdv (b g : Nat) | bar (b id : Nat)
  | wake (core : Nat) | quar (core : Nat)
  | start (n : Nat) | node (n k : Nat) | place (k : Fin 96) | back (b g : Nat) | save (b : Nat) | move (b core : Nat)
  | trap (hp : HPort) | flush (hp : HPort) | record (hp : HPort) | inval (hp : HPort) | late (ctx : Word)
  | flit (p : Fin 12)
  | promote (ctx : Word) (va : BitVec 64) | switch (k : Nat)
  | refill (core : Nat) (q : Fin 16) | cont (k : Fin 96) (q : Fin 16) | drain (k : Fin 96) (b : Fin 16) | foreman (k : Fin 96)
  | replay (j : Nat) | compare (j : Nat) | third (j : Nat) | expire (j : Nat)
  | collEnd (c : Nat) | collBad (c : Nat) | collAlone (c : Nat) | collTell (c : Nat)
  | ack (p : Fin 12) | retrain (p : Fin 12) | stall (p : Fin 12) (vc : Fin 4)
  | energy | volt (x : Fin 4) | unit (core : Nat) (part : Fin 4) | refresh (die : Nat) | patrol (k : Nat)
  | mail
  deriving DecidableEq, Repr

/-- Resident groups, by place. -/
def spots (s : State) : List Spot :=
  (residents s).flatMap (fun (b, x) => lmapIx 0 (fun g (y : Group) => ({ b := b, g := g, x := x, y := y } : Spot)) x.groups)

/-- The acts of a list of keys below a bound. -/
def finActs (n : Nat) (f : Fin n → Act) (k : Nat) : List Act := if h : k < n then [f ⟨k, h⟩] else []

/-! Due. -/

/-- R143: a SLEEP of the core has run out. -/
def sleepDue (s : State) (c : Nat) : Bool := (coreKeys s c).any (fun k => match k with | .sleep d => d ≤ s.etm c | _ => false)

/-- R216: a PREF of the group has run out. -/
def prefDue (s : State) (z : Spot) : Bool := z.y.e.prefs.any (fun r => prefLate (s.etm z.x.core) r && (r.counted || !(r.waited || r.copyWaited)))

def dueSpot (s : State) (z : Spot) : List Act :=
  (if (mmaReady s z.b z.g).isSome then [Act.mma z.b z.g] else []) ++
  (if prefDue s z then [Act.pref z.b z.g] else []) ++
  (if z.y.e.mmaWait.isSome && gangStands s z.b z.g then [Act.meet z.b z.g] else []) ++
  (if z.y.e.mmaWait.isSome && rdvLate s z.b z.g then [Act.rdv z.b z.g] else []) ++
  (if readyLong s z.b z.g .active then [Act.bound z.b z.g] else []) ++
  (if readyLong s z.b z.g .pending then [Act.pend z.b z.g] else [])
def dueBars (s : State) : List Act :=
  (residents s).flatMap (fun (b, x) => ((x.bars.map (·.1)).filter (barLate s b)).map (Act.bar b))

/-- R98: a node dispatches when every predecessor of its instance has retired. -/
def dueInst (s : State) (c : Nat × Inst) : List Act :=
  ((List.range c.2.nodes.length).filter (nodeReady s c.2)).map (Act.node c.1)

/-- R197: a drain ends within 20 µs. -/
def dueDrain (s : State) (c : Nat × Cluster) : List Act :=
  c.2.banks.flatMap (fun b => if b.2.drain && decide (b.2.drainAt + usTicks 20 ≤ s.now) then
    (if h : c.1 < 96 ∧ b.1 < 16 then [Act.drain ⟨c.1, h.1⟩ ⟨b.1, h.2⟩] else []) else [])

/-- R33: the interval of the voltage controller; 0 acts as 1 ms. -/
def voltDue (s : State) (r : Regulator) : Bool := r.uvEn && r.uvAt + msTicks (Nat.max 1 r.interval.toNat) ≤ s.now

/-- R48, R49, R51: the timers of a port. -/
def dueLink (s : State) (c : Nat × Link) : List Act :=
  (if ackLate s c.2 then finActs 12 Act.ack c.1 else []) ++ (if retrainLate s c.2 then finActs 12 Act.retrain c.1 else []) ++
  (if c.2.stall then [] else ([0, 1, 2, 3].filter (fun vc => stallLate s c.2 vc)).flatMap (fun vc => finActs 12 (fun p => Act.stall p (Fin.ofNat 4 vc)) c.1))

/-- What is due now, in the order in which it happens. -/
def due (s : State) : List Act :=
  ((residentCores s).filter (sleepDue s)).map Act.wake ++ (spots s).flatMap (dueSpot s) ++ dueBars s ++
  (s.ctxs.filter (fun c => preemptLate s (BitVec.ofNat 32 c.1))).map (fun c => Act.late (BitVec.ofNat 32 c.1)) ++
  (s.cores.filter (fun c => quarLate s c.1)).map (fun c => Act.quar c.1) ++
  s.insts.flatMap (dueInst s) ++
  (s.jobs.filter (fun j => !inBound s j.2)).map (fun j => Act.expire j.1) ++
  s.colls.flatMap (fun c => if c.2.fin.isSome then [] else if c.2.bad then [Act.collBad c.1] else if !c.2.told then [Act.collTell c.1]
    else if collLate s c.2 then [Act.collEnd c.1] else []) ++
  s.links.flatMap (dueLink s) ++
  s.clusters.flatMap (dueDrain s) ++ s.clusters.flatMap (fun c => if c.2.fmEn && decide (c.2.fmAt + usTicks 10 ≤ s.now) then finActs 96 Act.foreman c.1 else []) ++
  s.regs.flatMap (fun c => if voltDue s c.2 then finActs 4 Act.volt c.1 else []) ++
  (residentCores s).flatMap (fun c => ([0, 1, 2, 3].filter (unitStuck s c)).map (fun k => Act.unit c (Fin.ofNat 4 k))) ++
  ((List.range 8).filter (refreshLate s)).map Act.refresh ++ ((List.range 3).filter (patrolLate s)).map Act.patrol ++
  (if s.sh.energyAt + usTicks 100 ≤ s.now then [Act.energy] else [])

/-- R133, R183: the lanes that issue in the cycles that begin now; which comes first is free (R4). -/
def issueActs (s : State) : List Act := (readyLanes s).map (fun c => Act.issue c.1 c.2)

/-! Open. -/

/-- R110, R113, R155: a tenant's next troupe can be placed, or can make room. -/
def canServe (s : State) (t : Nat) : Bool :=
  match headTroupe s t with
  | none => false
  | some (_, x) => (placeTroupe s t x).isSome || (saveUntil s t x (wholeCandidates s t)).isSome ||
      (match slotsFit s (mates s x), evictChoice s t x.opts.prio (mates s x) with | true, some (_ :: _) => true | _, _ => false)
/-- R112: room has appeared on a cluster for the next troupe of a tenant. -/
def roomOn (s : State) (k t : Nat) : Bool :=
  match headTroupe s t with
  | none => false
  | some (_, x) =>
    let bs := mates s x
    (troupeClusters s t bs).contains k && slotsFit s bs && decide (bs.length ≤ (qualifying s k (bs.map (·.2))).length)

/-- R112: the clusters on which room has appeared, one of whose records decides (which one is free, R4); where there is room on none,
those whose tenants can make room. -/
def openPlaces (s : State) : List Act :=
  if !s.blocks.any (fun c => waiting s c.2) then []
  else
    let room := (List.range 96).filter (fun k => (serviceOrder s k).any (roomOn s k))
    (if room.isEmpty then (List.range 96).filter (fun k => (serviceOrder s k).any (canServe s)) else room).flatMap (finActs 96 Act.place)

def openSpot (s : State) (z : Spot) : List Act :=
  let y := z.y
  (if y.e.returns.isEmpty then [] else [Act.ret z.b z.g]) ++
  (match y.e.ops.find? isCopy with | some o => if o.susp.isNone then [Act.copy z.b z.g] else [] | none => []) ++
  (match y.e.ops.find? isGath with | some o => if gathBehind y o then [] else [Act.gath z.b z.g] | none => []) ++
  (if z.x.wholeSaved.contains z.g && (canReturn s z.b z.g).isSome then [Act.back z.b z.g] else []) ++
  (y.e.prefs.map (·.page)).eraseDups.flatMap (fun p => if (promotable s z.x.ctx p).isSome then [Act.promote z.x.ctx p] else [])

def openBlock (s : State) (c : Nat × Block) : List Act :=
  (if canSave s c.1 then [Act.save c.1] else []) ++ (relocateTo s c.1).map (Act.move c.1)

def openPort (s : State) (hp : HPort) : List Act :=
  (if trapReady s hp then [Act.trap hp] else []) ++
  (match flushReady s hp with | some _ => [Act.flush hp] | none => []) ++
  (if recordReady s hp then [Act.record hp] else []) ++
  (if (s.port hp).reg.invbusy && !invBlocked s hp then [Act.inval hp] else [])

def openCluster (c : Nat × Cluster) : List Act :=
  c.2.banks.flatMap (fun b => if b.2.drain then (if h : c.1 < 96 ∧ b.1 < 16 then [Act.drain ⟨c.1, h.1⟩ ⟨b.1, h.2⟩] else []) else []) ++
  c.2.queues.flatMap (fun q =>
    if h : c.1 < 96 ∧ q.1 < 16 then
      (if q.2.en && !q.2.contq.isEmpty && occupancy q.2 < queueSlots q.2 then [Act.cont ⟨c.1, h.1⟩ ⟨q.1, h.2⟩] else []) ++
      ((List.range 8).filter (fun j => refillWindow j q.2 != q.2)).map (fun j => Act.refill (8 * c.1 + j) ⟨q.1, h.2⟩)
    else [])

def openInst (s : State) (c : Nat × Inst) : List Act := if instStartable s c.1 then [Act.start c.1] else []

def openJob (s : State) (c : Nat × AJob) : List Act :=
  match c.2.replay with
  | none => if (assayCores s c.2.tenant [clusterOf c.2.core]).isEmpty then [] else [Act.replay c.1]
  | some r =>
    if !c.2.differs then [Act.compare c.1]
    else if (assayCores s c.2.tenant [clusterOf c.2.core, clusterOf r.1]).isEmpty then [] else [Act.third c.1]

def openMigs (s : State) : List Act :=
  (lmapIx 0 (fun k (m : Mig) => (k, m)) s.migs).flatMap (fun c => if c.2.transit then [Act.switch c.1] else [])

/-- R55: a collective of a communicator with one member needs no peer. -/
def openColls (s : State) : List Act :=
  s.colls.flatMap (fun c => if !c.2.bad && c.2.fin.isNone && c.2.susp.isNone && (collIds s c.2).length == 1 then [Act.collAlone c.1] else [])

/-- What the device may do next. -/
def openActs (s : State) : List Act :=
  [Act.tick] ++ (spots s).flatMap (openSpot s) ++ (residents s).flatMap (openBlock s) ++ openPlaces s ++
  s.insts.flatMap (openInst s) ++ openPort s .A ++ openPort s .B ++ s.clusters.flatMap openCluster ++ s.jobs.flatMap (openJob s) ++
  openMigs s ++ openColls s ++ s.links.flatMap (fun c => if sendReady s c.1 then finActs 12 Act.flit c.1 else []) ++
  (if s.sh.mail.isEmpty then [] else [Act.mail])

/-- A lane issues a pass of the group it picks. -/
def issueLane (c l : Nat) (s : State) : State := match pick s c l with | some z => issuePass z.b z.g z.x z.y s | none => s

/-- Performs an act. -/
def act (a : Act) (s : State) : State :=
  let run (f : State → Out) : State := outState (f s) s
  match a with
  | .issue c l => issueLane c l s
  | .tick => advanceTime 1 s
  | .ret b g => run (execMemoryReturn b g)
  | .copy b g => run (execCopyComplete b g)
  | .gath b g => run (execGatherComplete b g)
  | .mma b g => run (execMmaComplete b g)
  | .meet b g => rendezvous s b g
  | .pref b g => run (execPrefDeadline b g)
  | .bound b g => run (execActiveReadyBound b g)
  | .pend b g => run (execPendingReadyBound b g)
  | .rdv b g => run (execRendezvousWatchdog b g)
  | .bar b id => run (execBarrierWatchdog b id)
  | .wake c => run (execSleepWake c)
  | .quar c => run (execQuarantineTimeout c)
  | .start n => run (execInstStart n)
  | .node n k => run (execNodeDispatch n k)
  | .place k => run (execTroupePlace k)
  | .back b g => run (execGroupRestore b g)
  | .save b => run (execBlockSave b)
  | .move b c => run (execBlockRelocate b c)
  | .trap hp => run (execTrapEntryWrite hp)
  | .flush hp => run (execFlushComplete hp)
  | .record hp => run (execCompletionRecordWrite hp)
  | .inval hp => run (execInvalidateComplete hp)
  | .late ctx => run (execPreemptTimeout ctx)
  | .flit p => run (execFlitSend p)
  | .promote ctx va => run (execMigrationPromote ctx va)
  | .switch k => run (execPageSwitch k)
  | .refill c q => run (execQueueWindowRefill c q)
  | .cont k q => run (execContinuationEnqueue k q)
  | .drain k b => run (execBankDrainComplete k b)
  | .foreman k => modCluster (run (execForemanEvaluate k)) k.val (fun x => { x with fmAt := s.now })
  | .replay j => run (execAssayReplay j)
  | .compare j => run (execAssayCompare j)
  | .third j => run (execAssayThirdRun j)
  | .expire j => run (execAssayBoundExpiry j)
  | .collEnd c => run (execCollectiveTimeout c)
  | .collBad c => collCast s c 3
  | .collTell c => collTell s c
  | .ack p => run (execAckTimeout p)
  | .retrain p => run (execRetrainTimeout p)
  | .stall p vc => run (execCreditStall p vc)
  | .collAlone c => run (execCollectiveComplete c [] [])
  | .energy => modSh (run execEnergyMeter) (fun h => { h with energyAt := s.now })
  | .volt x => modReg (run (execUndervoltInterval x)) x.val (fun r => { r with uvAt := s.now })
  | .unit c k => run (execMatrixUnitReset c k)
  | .refresh d => refreshDie d s
  | .patrol k => patrolRound k s
  | .mail => performMail s

/-- R4: one step of the device's own: what is due; else a lane that has a pass to issue now; else one of the open acts, the passing of a
tick among them. Which of several lanes or acts comes first is free (log entry 1). -/
def ownStep (s : State) : State :=
  if !s.boot.done then (if s.boot.failed then (if s.sh.mail.isEmpty then { s with now := s.now + 1 } else performMail s) else outState (execBringUp s) s)
  else
    let s := settleAll s
    match due s, issueActs s with
    | a :: _, _ => act a s
    | [], a :: r => let k := chooseFrom s a (a :: r); act k.1 k.2
    | [], [] => let k := chooseFrom s .tick (openActs s); act k.1 k.2

/-- The port of a mailbox command (R90). -/
def mailRow : Instr → Option HPort
  | .ctxNew hp _ _ => some hp | .ctxEnd hp _ _ => some hp | .setClu hp _ _ => some hp | .getClu hp _ _ => some hp
  | .setRail hp _ _ => some hp | .railOn hp _ _ => some hp | .setSlope hp _ _ => some hp | .clrAcct hp _ _ => some hp
  | .debugCmd hp _ _ => some hp | .commSet hp _ _ => some hp | .commClr hp _ _ => some hp | .identCmd hp _ _ => some hp
  | .attest hp _ _ => some hp | .imgBegin hp _ _ => some hp | .imgData hp _ _ => some hp | .imgEnd hp _ _ => some hp
  | .commitCmd hp _ _ => some hp
  | .mailboxBadop hp _ _ _ => some hp
  | _ => none

/-- R89: commands of both ports are performed in the order of their acceptance: one that waits at the other port comes first. -/
def mailFirst (e : Instr) (s : State) : State :=
  match mailRow e, s.sh.mail with
  | some hp, c :: _ => if mailBusy s hp || c.1 == hp then s else performMail s
  | _, _ => s

/-- What comes from outside. A row that is an instruction word is no event. -/
def takeInput (i : Input) (s : State) : State :=
  match i with
  | .run => ownStep s
  | .event e => if e.isWord then s else let s := mailFirst e s; outState (exec e s) s
  | .residue b g o => residueHit b g o s
  | .filler c l => if (s.core c).enabled then residueFail s c l none else s
  | .mismatch b g t p k => mismatch b g t p k s
  | .mmaMismatch b g p => mmaMismatch b g p s
  | .latent loc => { s with latent := insertNat s.latent (sectorOf loc) }
  | .silent c => { s with silent := insertNat s.silent c }
  | .hostErr hp n => modSub s hp (fun q => { q with hosterr := some n })
  | .corrected d n k =>
    let s := modSh s (fun h => { h with corrected := tset h.corrected d (tget h.corrected d 0 + n) })
    (match k with
      | some k => if k / 12 = d then modReg s (s.cluster k).rail (fun r => { r with ceCount := r.ceCount + n }) else s
      | none => s)
  | .hang c part => hangUnit c part s
  | .wrongReg b g v ix w f => wrongReg b g v ix w f s
  | .wrongByte loc v grp =>
    let s := { s with mem := mset s.mem loc v }
    (match grp with | some z => modGrp s z.1 z.2 (fun y => { y with a := { y.a with struck := true } }) | none => s)
  | .config hp fn1 off => respond s hp (leBytes 4 (configWord hp fn1 off)) false
  | .sizeBar hp fn1 k =>
    if k ≤ 12 then modHost s hp (fun h => if fn1 then { h with barC1 := k } else { h with barC0 := k }) else s
  | .powerOn => powerCycle s
  | .dropped hp _ => modHost s hp (fun h => { h with linkErrs := h.linkErrs + 1 })
  | .structFail die core ctx => structError die core ctx s
  | .parity die a n ctx core => parityError die a n ctx core s

end Sys2Proof.Machine
end

