-- ==== Sys2Proof/Machine/Load.lean ====
section
/-! DEFINITION. Where a program stands that a host has loaded: a context whose tables map its memory, a block of one group on core 0,
and the place of its first instruction (log entry 1). -/

namespace Sys2Proof.Machine

/-- R203 to R205: page tables at 4 MiB and 8 MiB that map the first GiB of addresses to the first GiB of HBM, with every permission. -/
def loadTables (m : List Host.Cell) : List Host.Cell :=
  msetN (msetN m 0x400000 (leBytes 16 0x800001)) 0x800000 (leBytes 16 0x1F)

/-- R91: the context, bound to port A and to tenant 0. -/
def loadCtx : Context :=
  { tenant := 0, port := .A, root := 0x400000, cbase := 0, recbase := 0x10000000, recsize := 256, killed := false, unrecoverable := false,
    preq := [], lastInst := none, lastClock := [] }

/-- R100: the kernel header, at address 0x100000; its code starts at offset 64. -/
def loadHeader : Header :=
  { vregs := 512, sregs := 192, barriers := 16, groups := 1, troupe := 1, sclass := 0, assay := false, scratch := 2 ^ 20, life := 0, span := 0,
    entry := 64, traph := 0, livetab := 0, regtab := 0, carry := [0, 0, 0, 0], liveN := 0, regN := 0 }
def loadHdr : BitVec 64 := 0x100000

/-- R96: no grid option. -/
def loadOpts : Opts := { debug := false, underv := false, assay := 0, paired := false, preempt := false, tenant := 0, prio := 0 }

/-- R103: the block, resident on core 0 in the slot at the start of its record area; its group is at its start. -/
def loadBlock (s : State) : Block :=
  let x : Block :=
    { ctx := 0, inst := 0, node := 0, hdr := loadHdr, h := loadHeader, opts := loadOpts, idx := 0, troupe := 0, count := 1, args := [],
      life := .resident, core := 0, placed := 0, slot := 0x10000000, store := List.range 256, groups := [], bars := [], bwait := [], arr := [], map := [], grans := [],
      dirty := [], shadowed := [], start := 0, preempt := false, relocate := false, avoid := none, preBy := 16, wholeSaved := [], form := 0, hb := [] }
  { x with groups := [startGroup s x s.nextUid 0 0] }

/-- The physical address of the first instruction. -/
def loadPa : Nat := 0x100040

end Sys2Proof.Machine
end

