-- ==== Sys2Proof/Machine/Step.lean ====
section
/-! DEFINITION. One step of the device, and the placing of an instruction where the next step fetches. -/

namespace Sys2Proof.Machine

/-- One step: the first input from outside; without one, a step of the device's own (log entry 1). -/
def step (s : State) : Host.Outcome State Fault Refusal :=
  match s.inputs with
  | [] => .next (ownStep s)
  | i :: r => .next (takeInput i { s with inputs := r })

/-- The device as a host has set it up to run one group from an instruction word (log entry 1): brought up, with a context, its page
tables, and the block; the word stands at the group's program counter. -/
def State.withFetchWord (s : State) (nbits w : Nat) : State :=
  { s with
    boot := { s.boot with done := true }
    ctxs := tset s.ctxs 0 loadCtx
    blocks := tset s.blocks 0 (loadBlock s)
    nextBlk := 1, nextUid := s.nextUid + 1, inputs := []
    mem := msetN (loadTables s.mem) loadPa (leBytes 4 (w % 2 ^ nbits)) }

end Sys2Proof.Machine
end

