-- ==== Sys2Proof/Safety.lean ====
section
/-! DEFINITION. The terms that claims use: the canonical form of memory, a safe step, a pass that meets no condition, and what a
register instruction leaves. -/

namespace Sys2Proof.Machine

/-- The memory is in its canonical form: addresses rise, and no listed byte is what an unlisted location reads as. -/
def State.memCanon (s : State) : Prop := memOk s.mem = true

/-- A register file of a group is in its canonical form: keys rise, and no zero is listed (R187). -/
def regsOk (t : Table Word) : Bool := tsorted t && t.all (fun c => c.2 != 0)

/-- A run stays safe when each of its steps answers a next state: no step of the device stops it. -/
def Safe (s : State) : Prop := ∃ t, step s = .next t

/-- The state selects pass `p`, and no thread of its path meets a condition of R149: the instruction executes. -/
def Clear (i : Instr) (s : State) (p : Pass) : Prop := pass? s = some p ∧ ∀ t ∈ p.L, condAt p i (extraOf i p s) t = none

/-- R172: what each thread of a path reads of `prv`: the first the start of the chain, each other what the one before pushed. -/
def chainVals (f : Nat → Word → Nat) : Word → List Nat → List (Nat × Word)
  | _, [] => []
  | c, t :: r => (t, c) :: chainVals f (BitVec.ofNat 32 (f t c)) r

/-- The execution whose result thread `t` receives (R170): its own with its value of `prv`, or the path's one. -/
def execOf (i : Instr) (p : Pass) (f : Nat → Word → Nat) (t : Nat) : Nat × Word :=
  match i.xclass with
  | .uniform => (p.low, 0)
  | _ => (t, ((chainVals f (chainStart p) p.L).lookup t).getD 0)

/-- R172, R173: seed tail, its mark and the resume state after a path: changed only by a path that reads `prv`. -/
def chainAfter (i : Instr) (p : Pass) (last : Word) (r : GRegs) : Word × Bool × List Resume :=
  if i.xclass = .perThread ∧ readsPrv i = true then
    if p.cut then (r.tail, r.tailOpen, r.resume ++ [{ pc := p.pc, val := last, fresh := true }])
    else (last, false, r.resume.filter (fun e => !(e.pc == p.pc && !e.fresh)))
  else (r.tail, r.tailOpen, r.resume)

/-- Group `y` is what a register instruction leaves of group `x`: `val t` (of `n` registers) is in D for each active
thread, a scalar D holding the last one's (R171); a register that is not D keeps its value (so does D under N or discard,
R259); each active thread has pushed the low word (R200) and stands at the next instruction; other threads stand as they
did; DIVZ is set if `divz` (R234) and no other flag changes; the through-time state is `chainAfter`; and the rest of the group
is unchanged. -/
structure RegDone (i : Instr) (p : Pass) (x : Group) (d : Dst) (n : Nat) (val : Nat → Nat) (divz : Bool) (y : Group) : Prop where
  vec : i.noWrite = false → ∀ r, dstReg p.P d = some (.v r) → ∀ t ∈ p.L, ∀ k < n,
    wget y.r.v (32 * (r + k) + t) = BitVec.ofNat 32 (val t / 2 ^ (32 * k))
  sca : i.noWrite = false → ∀ r, dstReg p.P d = some (.s r) → ∀ k < n,
    wget y.r.s (r + k) = BitVec.ofNat 32 (val (p.L.getLastD 0) / 2 ^ (32 * k))
  vkeep : ∀ q, (i.noWrite = false → ∀ r, dstReg p.P d = some (.v r) → ∀ t ∈ p.L, ∀ k < n, q ≠ 32 * (r + k) + t) →
    wget y.r.v q = wget x.r.v q
  skeep : ∀ q, (i.noWrite = false → ∀ r, dstReg p.P d = some (.s r) → ∀ k < n, q ≠ r + k) → wget y.r.s q = wget x.r.s q
  on : ∀ t ∈ p.L, y.thr[t]? = (x.thr[t]?).map (fun z =>
    { z with pc := z.pc + 4, latch := (BitVec.ofNat 32 (val t) :: z.latch).take 8 })
  off : ∀ t, t ∉ p.L → y.thr[t]? = x.thr[t]?
  flags : y.r.sticky = if divz then x.r.sticky ||| 1 else x.r.sticky
  chain : (y.r.tail, y.r.tailOpen, y.r.resume) = chainAfter i p (BitVec.ofNat 32 (val (p.L.getLastD 0))) x.r
  rest : y = { x with thr := y.thr, r := { x.r with
    v := y.r.v, s := y.r.s, sticky := y.r.sticky, tail := y.r.tail, tailOpen := y.r.tailOpen, resume := y.r.resume } }

/-- Where no condition holds, the instruction answers a next state in which only its group differs, and it differs as `RegDone`
says: thread t's result, with `c` for `prv`, is `f p t c` (of `n` registers), and a division by zero is where `dz p t c`. -/
def RegOpZ (i : Instr) (d : Dst) (n : Nat) (f : Pass → Nat → Word → Nat) (dz : Pass → Nat → Word → Bool) : Prop :=
  ∀ s p, Clear i s p → ∃ y, exec i s = .next (modGrp s p.b p.g (fun _ => y)) ∧
    RegDone i p p.G d n (fun t => f p (execOf i p (f p) t).1 (execOf i p (f p) t).2)
      (p.L.any (fun t => dz p (execOf i p (f p) t).1 (execOf i p (f p) t).2)) y

/-- The same for an instruction that sets no flag. -/
def RegOp (i : Instr) (d : Dst) (n : Nat) (f : Pass → Nat → Word → Nat) : Prop := RegOpZ i d n f (fun _ _ _ => false)

/-- The same for a whole-path instruction (R340): thread t's result is `f p t`, computed from the registers before the pass. -/
def PathOp (i : Instr) (d : Dst) (f : Pass → Nat → Word) : Prop :=
  ∀ s p, Clear i s p → ∃ y, exec i s = .next (modGrp s p.b p.g (fun _ => y)) ∧ RegDone i p p.G d 1 (fun t => (f p t).toNat) false y

/-- Group `y` is group `x` with each active thread of the pass changed by `f`, and nothing else changed. -/
structure ThrDone (p : Pass) (x : Group) (f : Nat → Thread → Thread) (y : Group) : Prop where
  on : ∀ t ∈ p.L, y.thr[t]? = (x.thr[t]?).map (f t)
  off : ∀ t, t ∉ p.L → y.thr[t]? = x.thr[t]?
  rest : y = { x with thr := y.thr }

/-- Where no condition holds, the instruction answers a next state in which only its group differs: changed by `g`, with each
active thread changed by `f`. -/
def ThrOp (i : Instr) (g : Group → Group) (f : Pass → Nat → Thread → Thread) : Prop :=
  ∀ s p, Clear i s p → ∃ y, exec i s = .next (modGrp s p.b p.g (fun _ => y)) ∧ ThrDone p (g p.G) (f p) y

/-- The same for an instruction that only sends each active thread to an address. -/
def JumpOp (i : Instr) (f : Pass → Nat → Word) : Prop := ThrOp i id (fun p t z => { z with pc := f p t })

/-- R255: a branch target. -/
def branchAddr {n : Nat} (pc : Word) (d : BitVec n) : Word := pc + 4 * d.signExtend 32

/-- Every other group of the block has a live thread or has left its lane: the end of this pass ends none of them. -/
def OthersRun (p : Pass) : Prop := ∀ k y, k ≠ p.g → p.B.groups[k]? = some y → y.liveList ≠ [] ∨ y.q.status = .exited

/-- R178, R179: a packing map gives each thread index of the block's groups one slot for each home group. -/
def MapOk (x : Block) : Prop := ∀ u, u < 32 → ∀ k, k < x.groups.length → homeOf x k u < x.groups.length ∧
  ∀ j, j < x.groups.length → homeOf x j u = homeOf x k u → j = k

/-- Some live thread of the pass's group is not of its path and waits at no REPACK. -/
def SomeStay (p : Pass) : Prop := ∃ t z, t ∉ p.L ∧ t < 32 ∧ p.G.thr[t]? = some z ∧ z.live = true ∧ z.cont = none

/-- R344: a thread's rank among the active threads of its path. -/
def rankOf (p : Pass) (t : Nat) : Nat := (p.L.filter (fun u => u < t)).length

/-! Memory instructions. A path makes its accesses in ascending thread index (R352), each on the state the ones before left. -/

/-- The state before the k-th access of a path. -/
def before (i : Instr) (q : MemI) (p : Pass) (s : State) (k : Nat) : State :=
  (((accThreads i p).take k).foldl (fun r t => accessOne i q p t r) ([], s)).2

/-- What the k-th access meets when its turn comes. -/
def metAt (i : Instr) (q : MemI) (p : Pass) (s : State) (k : Nat) : Look :=
  let t := (accThreads i p).getD k 0
  look p (digestAccess (before i q p s k) p.b p.g i q.m (q.m.ea p t) (q.data p t) (q.cmp p t)) q.m t

/-- Every access of the path reaches its place `h k` at once: none faults, waits (R197, R216), is logged (R153) or is held (R215). -/
def Served (i : Instr) (q : MemI) (p : Pass) (s : State) (h : Nat → Hit) : Prop :=
  (∀ t ∈ accThreads i p, look p s q.m t ≠ .wait) ∧
  ∀ k, k < (accThreads i p).length → metAt i q p s k = .ok (h k) ∧ (h k).hold = none

/-- The access whose value thread t receives: its own, or the path's one (R352). -/
def accIx (i : Instr) (p : Pass) (t : Nat) : Nat := match i.xclass with | .perThread => rankOf p t | _ => 0

/-- What accesses of a group leave of a state: memory and what the consistency model, migration and the granules record of it;
the energy meter's count of the bytes (R43); the group's view, its Assayer's record and its flags; and nothing else. -/
structure AccessFrame (s t : State) (b g : Nat) (y z : Group) : Prop where
  rest : t = { s with mem := t.mem, hist := t.hist, stamp := t.stamp, poison := t.poison, latent := t.latent, blocks := t.blocks, clusters := t.clusters,
                      migs := t.migs, free := t.free, meter := t.meter, sh := { s.sh with cntUnassay := t.sh.cntUnassay } }
  grp : t.grp? b g = some z
  others : ∀ k j, ¬(k = b ∧ j = g) → t.grp? k j = s.grp? k j
  blk : ∀ k x, s.blk? k = some x → ∃ w, t.blk? k = some w ∧ w = { x with groups := w.groups, grans := w.grans, dirty := w.dirty }
  clu : ∀ k, t.cluster k = { s.cluster k with grans := (t.cluster k).grans }
  view : z = { y with c := z.c, a := z.a, r := { y.r with sticky := z.r.sticky } }

/-- What a load path has found stands in memory: no recorded write covers it and the group holds no other stable value of it, so
a plain load returns what memory holds (R219, R223, R224). -/
def Settled (i : Instr) (n : Nat) (p : Pass) (s : State) (h : Nat → Hit) : Prop :=
  ∀ k, k < (accThreads i p).length → (h k).lapsed = false → ∀ j, j < n →
    (∀ w ∈ s.hist, w.loc ≠ (h k).loc + j) ∧ ∀ v, tget? p.G.c.stable ((h k).loc + j) = some v → v = mget s.mem ((h k).loc + j)

/-- R353: the number a load of `n` bytes puts in its registers. -/
def loadNum (signed : Bool) (n x : Nat) : Nat := if signed && 2 ^ (8 * n - 1) ≤ x then 2 ^ 32 - 2 ^ (8 * n) + x else x

/-- Where no condition holds, no new error is found and every access is served, a load answers a next state: D holds for each
active thread what stands at its address, zero where the granule lapsed; the destinations are pending until the data returns;
every byte of memory, and everything else, is unchanged. `plain` loads need `Settled`. -/
def LoadOp (i : Instr) (d : Dst) (m : Mem) (signed plain : Bool) : Prop :=
  ∀ s p h, Clear i s p → findSel i s = s →
    Served i { m := m, d := d, data := fun _ _ => [], cmp := fun _ _ => [] } p s h → (plain = true → Settled i m.n p s h) →
    ∃ t w x y z, exec i s = .next t ∧ AccessFrame s w p.b p.g p.G x ∧ t = modGrp w p.b p.g (fun _ => y) ∧
      w.mem = s.mem ∧ w.hist = s.hist ∧ w.stamp = s.stamp ∧ w.poison = s.poison ∧ w.clusters = s.clusters ∧
      RegDone i p x d (ceilDiv m.n 4)
        (fun u => if (h (accIx i p u)).lapsed then 0 else loadNum signed m.n (leNat (mgetN s.mem (h (accIx i p u)).loc m.n))) false z ∧
      y = { z with e := { z.e with vpend := y.e.vpend, spend := y.e.spend, returns := y.e.returns } } ∧
      x.r.sticky = p.G.r.sticky ||| (if ∃ k, k < (accThreads i p).length ∧ (h k).lapsed then 8 else 0)
        ||| (if ∃ k, k < (accThreads i p).length ∧ (h k).lapsed = false ∧ (h k).alt ∧ (plain ∨ m.kind = .ldu) then 16 else 0)

/-- The same for a store of the `e` registers: its bytes stand at each address no later access of the path covers, every byte
outside the stored ones is unchanged, no register changes, and the active threads go on. -/
def StoreOp (i : Instr) (e : Src) (m : Mem) : Prop :=
  ∀ s p h, Clear i s p → findSel i s = s →
    Served i { m := m, d := .discard, data := fun p t => srcWords p t e (ceilDiv m.n 4) 0, cmp := fun _ _ => [] } p s h →
    ∃ t w x y, exec i s = .next t ∧ AccessFrame s w p.b p.g p.G x ∧ t = modGrp w p.b p.g (fun _ => y) ∧ x.r = p.G.r ∧
      ThrDone p x (fun _ z => { z with pc := z.pc + 4 }) y ∧
      (∀ a, (∀ k, k < (accThreads i p).length → (h k).lapsed = true ∨ a < (h k).loc ∨ (h k).loc + m.n ≤ a) → mget t.mem a = mget s.mem a) ∧
      (∀ k, k < (accThreads i p).length → (h k).lapsed = false →
        (∀ j, k < j → j < (accThreads i p).length → (h j).lapsed = true ∨ (h j).loc + m.n ≤ (h k).loc ∨ (h k).loc + m.n ≤ (h j).loc) →
        mgetN t.mem (h k).loc m.n = leBytes m.n (srcNat p ((accThreads i p).getD k 0) e (ceilDiv m.n 4) 0))

/-- The same for an atomic (R360): each access in turn returns what stands at its location and puts there what `f` makes of it, B
and D, or leaves it; a lapsed granule reads zero and takes nothing. -/
def AtomicOp (i : Instr) (d : Dst) (b : Src) (m : Mem) (f : Nat → Nat → Nat → Option Nat) : Prop :=
  ∀ s p h, Clear i s p → findSel i s = s →
    let q : MemI := { m := m, d := d, data := fun p t => srcWords p t b (ceilDiv m.n 4) 0, cmp := fun p t => (List.range (ceilDiv m.n 4)).map (dstWord p t d) }
    let old := fun k => if (h k).lapsed then 0 else leNat (mgetN (before i q p s k).mem (h k).loc m.n)
    Served i q p s h →
    ∃ t w x v y z, exec i s = .next t ∧ AccessFrame s w p.b p.g p.G x ∧ t = modGrp w p.b p.g (fun _ => y) ∧
      ThrDone p x (fun _ c => regionNext s.now p.G.r.vw p.G.r.sw c) v ∧
      RegDone i p { v with e := { v.e with takes := v.e.takes.filter (fun k => !p.L.contains k.t) }, a := z.a } d (ceilDiv m.n 4)
        (fun u => old (accIx i p u)) false z ∧
      y = { z with e := { z.e with vpend := y.e.vpend, spend := y.e.spend, returns := y.e.returns } } ∧
      t.mem = (before i q p s (accThreads i p).length).mem ∧
      ∀ k, k < (accThreads i p).length → (before i q p s (k + 1)).mem =
        if (h k).lapsed then (before i q p s k).mem
        else match f (old k) (srcNat p ((accThreads i p).getD k 0) b (ceilDiv m.n 4) 0) (dstNat p ((accThreads i p).getD k 0) d (ceilDiv m.n 4)) with
          | some v => msetN (before i q p s k).mem (h k).loc (leBytes m.n v)
          | none => (before i q p s k).mem

/-! The other instructions. -/

/-- State `t` follows `s` by an instruction that leaves memory, every register of the group and every other group as they were:
`y` is the pass's group in it, each active thread stands at the next instruction, and no other thread changed. -/
structure GoneOn (p : Pass) (s t : State) (y : Group) : Prop where
  grp : t.grp? p.b p.g = some y
  on : ∀ u ∈ p.L, (y.thr[u]?).map (·.pc) = (p.G.thr[u]?).map (fun z => z.pc + 4)
  off : ∀ u, u ∉ p.L → y.thr[u]? = p.G.thr[u]?
  regs : y.r = p.G.r
  mem : t.mem = s.mem
  others : ∀ k j, ¬(k = p.b ∧ j = p.g) → t.grp? k j = s.grp? k j

/-- `y` is `z` with results that are still to return (R132). -/
def Pended (z y : Group) : Prop := y = { z with e := { z.e with vpend := y.e.vpend, spend := y.e.spend, returns := y.e.returns } }

/-- Every thread of `y` stands where it stood in `x`, but each live one past the instruction. -/
def AllGone (x y : Group) : Prop :=
  ∀ (u : Nat) (z : Thread), u < 32 → x.thr[u]? = some z → y.thr[u]? = some (if z.live then { z with pc := z.pc + 4 } else z)

/-- The thread whose operands thread `u` of the path is served by: itself, or the path's lowest (R170, R352). -/
def servedBy (i : Instr) (p : Pass) (u : Nat) : Nat := match i.xclass with | .perThread => u | _ => p.low

/-- R132: where no condition holds, an instruction answers a next state in which memory and every other group are unchanged
and its group has the result `f` in D, which is still to return; the Assayer may have recorded it. -/
def LateOp (i : Instr) (d : Dst) (f : Pass → State → Nat → Word) : Prop :=
  ∀ s p, Clear i s p → ∃ t z y, exec i s = .next t ∧ t.grp? p.b p.g = some y ∧ Pended z y ∧
    RegDone i p { p.G with a := z.a } d 1 (fun u => (f p s u).toNat) false z ∧ t.mem = s.mem ∧
    ∀ k j, ¬(k = p.b ∧ j = p.g) → t.grp? k j = s.grp? k j

/-- R357, R358: where no condition holds and the bank does not drain, a lifetime instruction leaves each granule of its range as
`f` says, from its location and the ETM above its bank; its bytes are zero under `zero`, and every byte outside the range is
unchanged. -/
def LifetimeOp (i : Instr) (a b : Src) (m : Spc) (zero : Bool) (f : GranArg → Gran → Nat → Gran) : Prop :=
  ∀ s p, Clear i s p → (m = .lay → layerDrains s (clusterOf p.B.core) (granArg p a b).a = false) →
    ∃ t x y, exec i s = .next t ∧ t.blk? p.b = some x ∧ x.groups[p.g]? = some y ∧
      y.r = p.G.r ∧ (∀ u ∈ p.L, (y.thr[u]?).map (·.pc) = (p.G.thr[u]?).map (fun z => z.pc + 4)) ∧
      (∀ k, k < (granArg p a b).count →
        match m with
        | .scr => scrGran x ((granArg p a b).a + 4096 * k) =
            f (granArg p a b) (scrGran p.B ((granArg p a b).a + 4096 * k)) (s.etm p.B.core)
        | .lay => layGran (t.cluster (clusterOf p.B.core)) ((granArg p a b).a + 4096 * k) =
            f (granArg p a b) (layGran (s.cluster (clusterOf p.B.core)) ((granArg p a b).a + 4096 * k))
              (s.etm (layCore s (clusterOf p.B.core) ((granArg p a b).a + 4096 * k)))) ∧
      (let l := match m with | .scr => scrLoc p.b (granArg p a b).a | .lay => layLoc (clusterOf p.B.core) (granArg p a b).a
       ∀ q, mget t.mem q = if zero ∧ l ≤ q ∧ q < l + 4096 * (granArg p a b).count then 0 else mget s.mem q)

/-- Group `w` is group `y` with its slice in flight (R368, R372): the operation's record, with the gang's places, each element of the
slice with its new accumulator as `c` and the operands `o` give it, and the status word with the number of members; every live
thread has gone on and no register but a flag has changed. -/
structure InFlight (y w : Group) (pc : Word) (ms : List (Nat × Nat)) (c : MmaD) (x : Gang) (o : MmaOps) (f : MmaFly) : Prop where
  fly : w.e.mma = some f
  met : w.e.mmaWait = none
  gone : AllGone y w
  regs : w.r = { y.r with sticky := w.r.sticky }
  at0 : f.pc = pc ∧ f.mates = ms
  elems : ∀ u r j, u ≤ x.rq → r < 4 → j ≤ x.cm →
    (32 * (x.accb + 64 * r + j) + u, (mmaElem c o (4 * u + r) j (wget y.r.v (32 * (x.accb + 64 * r + j) + u))).1) ∈ f.res
  word : ∃ scalex iovf : Bool, f.status = BitVec.ofNat 32 (2 ^ 8 * ms.length + (if scalex then 4 else 0) + (if iovf then 2 else 0) + 1)

/-- A matrix operation of a solo gang register (R369): once every live thread of the group has met, with no operation of it in
flight and no bank draining, its slice is in flight, and its status word goes to D. -/
def MmaOp (i : Instr) (d : Dst) : Prop :=
  ∀ s p x c, Clear i s p → findSel i s = s → p.P = p.G → p.G.e.gang = some x → x.members.length = 1 → mmaArgs p i = some c →
    (∀ u, p.G.liveT u = true → p.G.pcOf u = p.pc) → p.G.e.mma = none → mmaLook p s c x ≠ .wait →
    ∃ t y f, exec i s = .next t ∧ t.grp? p.b p.g = some y ∧ t.mem = s.mem ∧ f.dst = dstReg p.G d ∧
      InFlight p.G y p.pc [(p.b, p.g)] c x (mmaOps s p c x) f

/-- A matrix operation of a gang member (R181, R368) while another member of the list stands at no such instruction: the group waits
in the rendezvous latch, and nothing else changes. -/
def MmaWaits (i : Instr) : Prop :=
  ∀ s p x c, Clear i s p → findSel i s = s → p.G.e.gang = some x → 1 < x.members.length → mmaArgs p i = some c →
    (∀ u, p.G.liveT u = true → p.G.pcOf u = p.pc) → p.G.e.mma = none → mmaLook p s c x ≠ .wait →
    (∃ w ∈ x.members, w.1 = troupeRel p.B ∧ w.2 ≠ p.g ∧ ∃ y, p.B.groups[w.2]? = some y ∧ y.e.mmaWait = none) →
    (∀ k y, (k, y) ∈ s.blocks → y.inst = p.B.inst → y.node = p.B.node → y.troupe = p.B.troupe → troupeRel y = troupeRel p.B → k = p.b) →
    let w : MmaWait := { i := i, pc := p.pc, since := coreEdge s p.B.core }
    exec i s = .next (modGrp s p.b p.g (fun y => { y with e := { y.e with mmaWait := some w } }))

/-- The same for the last member that the gang waits for (R181): `s1` is the state in which it has met, and there every place of the
gang has an operation that meets no condition. Then each member's slice is in flight. -/
def MmaMeets (i : Instr) : Prop :=
  ∀ s p x c, Clear i s p → findSel i s = s → s.latent = [] → p.G.e.gang = some x → 1 < x.members.length → mmaArgs p i = some c →
    (∀ u, p.G.liveT u = true → p.G.pcOf u = p.pc) → p.G.e.mma = none → mmaLook p s c x ≠ .wait →
    let w : MmaWait := { i := i, pc := p.pc, since := coreEdge s p.B.core }
    let s1 := modGrp s p.b p.g (fun y => { y with e := { y.e with mmaWait := some w } })
    let ms := gangPlaces s1 p.b p.g
    ms ≠ [] → ms.Nodup → (∀ m ∈ ms, ∃ z h, memberArgs s1 m.1 m.2 = some z ∧ mmaLook z.1 s1 z.2.2.1 z.2.2.2 = .ok h) →
    ∃ t, exec i s = .next t ∧ t.mem = s.mem ∧ ∀ m ∈ ms, ∀ y z, s1.grp? m.1 m.2 = some y → memberArgs s1 m.1 m.2 = some z →
      ∃ v f, t.grp? m.1 m.2 = some v ∧ InFlight y v z.2.1.pc ms z.2.2.1 z.2.2.2 (mmaOps s1 z.1 z.2.2.1 z.2.2.2) f

/-- An engine copy (R377): it is issued with its descriptor, its register pending, and its counter incremented. -/
def CopyOp (i : Instr) (d : Dst) (a : Src) (wide : Bool) : Prop :=
  ∀ s p, Clear i s p → p.G.e.copy < 255 → copyLook p s (copyD wide (descWords p a (if wide then 8 else 6))) ≠ .wait →
    ∃ t y o, exec i s = .next t ∧ GoneOn p s t y ∧ y.e.ops = p.G.e.ops ++ [o] ∧ o.i = i ∧ o.dst = dstReg p.P d ∧
      o.desc = descWords p a (if wide then 8 else 6) ∧ o.bad = copyBad p.B (copyD wide o.desc) ∧ o.fin = none ∧ o.sect = 0 ∧
      y.e = { p.G.e with ops := y.e.ops, copy := p.G.e.copy + 1, vpend := y.e.vpend, spend := y.e.spend }

/-- R381: with a free slot for every record, a put appends the records in order and the threads go on; without, it puts nothing and
parks the group under the queue's key. -/
def PutOp (i : Instr) (a b : Src) : Prop :=
  ∀ s p, Clear i s p →
    let q := queueOf p s (queueNum p a)
    let rs := putRecords p b
    ((q.putix - q.freeix).toNat + rs.length ≤ queueSlots q → ∃ t y, exec i s = .next t ∧ t.grp? p.b p.g = some y ∧
      (∀ u ∈ p.L, (y.thr[u]?).map (·.pc) = (p.G.thr[u]?).map (fun z => z.pc + 4)) ∧ y.r = p.G.r ∧ t.mem = s.mem ∧
      (queueOf p t (queueNum p a)).putix = q.putix + BitVec.ofNat 32 rs.length ∧
      ∀ (k : Nat) (r : Nat × List Word), rs[k]? = some r →
        ∃ z, tget? (queueOf p t (queueNum p a)).slots (slotIx q (q.putix + BitVec.ofNat 32 k)) = some z ∧ z.data = wordsBytes r.2) ∧
    (queueSlots q < (q.putix - q.freeix).toNat + rs.length → ∃ t y o, exec i s = .next t ∧ t.grp? p.b p.g = some y ∧
      y.q.status = .parked (.queue (queueNum p a)) o ∧ y.r = p.G.r ∧ t.mem = s.mem ∧ t.clusters = s.clusters ∧
      ∀ u, y.pcOf u = p.G.pcOf u)

/-- R382, R380, R124: a take of the form `i` from the queue that `sel` gives. Each thread of the path takes the next unbound record of the core's window,
oldest first, which is then bound to it; where none is left, or no queue is given, D has the empty mark; a record that is to be
delivered again goes to its thread once more and no queue changes; an index-phase ring gives its oldest record and frees it. -/
def TakeOp (i : Instr) (st : Bool) (d : Dst) (sel : Pass → State → Option Nat) : Prop :=
  (∀ s p n, Clear i s p → sel p s = some n → p.B.map = [] → p.G.e.takes = [] →
    let q := (s.cluster (clusterOf p.B.core)).queue n
    let w := tget q.windows (p.B.core % 8) []
    let us := w.filter (fun r => r.bound.isNone)
    let of (u : Nat) : WinRec := us.getD (rankOf p u) { ix := 0, data := [], writers := [], bound := none }
    q.mode = false → (w.map (·.ix)).Nodup → p.L.length ≤ us.length → (∀ r ∈ us, r.data.length = 64) →
    (∀ u ∈ p.L, ((q.windows.flatMap (·.2)).filter (fun r => r.bound == some (p.b, p.g, u))).length < 4) →
    ∃ t x z y, exec i s = .next t ∧ t.grp? p.b p.g = some y ∧ t.mem = s.mem ∧ Pended z y ∧
      RegDone i p x d 16 (fun u => leNat (of u).data) false z ∧ x = { p.G with e := x.e, c := x.c, a := x.a } ∧
      x.c = { p.G.c with obs := x.c.obs } ∧
      x.e = { p.G.e with takes := p.L.map (fun u => { t := u, q := n, ix := (of u).ix, data := (of u).data, again := false, stage := st }) } ∧
      tget ((t.cluster (clusterOf p.B.core)).queue n).windows (p.B.core % 8) [] =
        w.map (fun z => match p.L.find? (fun u => (of u).ix == z.ix) with | some u => { z with bound := some (p.b, p.g, u) } | none => z)) ∧
  (∀ s p n, Clear i s p → sel p s = some n → p.G.e.takes = [] →
    let q := (s.cluster (clusterOf p.B.core)).queue n
    q.mode = false → (∀ r ∈ tget q.windows (p.B.core % 8) [], r.bound ≠ none) →
    ∃ t z y, exec i s = .next t ∧ t.grp? p.b p.g = some y ∧ t.mem = s.mem ∧ Pended z y ∧
      RegDone i p { p.G with a := z.a } d 2 (fun _ => 2 ^ 64 - 1) false z) ∧
  (∀ s p, Clear i s p → sel p s = none → (∀ k ∈ p.G.e.takes, k.stage = true → k.again = false) →
    ∃ t z y, exec i s = .next t ∧ t.grp? p.b p.g = some y ∧ t.mem = s.mem ∧ t.clusters = s.clusters ∧ Pended z y ∧
      RegDone i p { p.G with a := z.a } d 2 (fun _ => 2 ^ 64 - 1) false z) ∧
  (∀ s p k, Clear i s p → p.L = [p.low] → p.G.e.takes = [k] → k.t = p.low → k.again = true → k.stage = st → (st = false → sel p s = some k.q) →
    k.data.length = 64 →
    ∃ t z y, exec i s = .next t ∧ t.grp? p.b p.g = some y ∧ t.mem = s.mem ∧ t.clusters = s.clusters ∧ Pended z y ∧
      RegDone i p { p.G with e := { p.G.e with takes := [{ k with again := false }] }, a := z.a } d 16 (fun _ => leNat k.data) false z) ∧
  (∀ s p n r, Clear i s p → sel p s = some n → p.L = [p.low] → p.G.e.takes = [] → p.G.q.status = .active →
    let q := (s.cluster (clusterOf p.B.core)).queue n
    q.mode = true → q.freeix ≠ q.putix → tget? q.slots (slotIx q q.freeix) = some r → r.phase = phaseBit q q.freeix → r.free = false →
    r.data.length = 64 →
    ∃ t x z y, exec i s = .next t ∧ t.grp? p.b p.g = some y ∧ t.mem = s.mem ∧ Pended z y ∧
      RegDone i p x d 16 (fun _ => leNat r.data) false z ∧ x = { p.G with e := x.e, c := x.c, a := x.a } ∧
      ((t.cluster (clusterOf p.B.core)).queue n).freeix = q.freeix + 1)

/-- R385, R127: the state before the k-th active thread of a path updates its continuation: a JOIN that begins its path has
published. -/
def contBefore (i : Instr) (a : Src) (pub : Option Scope) (p : Pass) (s : State) (k : Nat) : State :=
  foldS (contOne i a p) (p.L.take k) (match pub with | some sc => if firstOfPath p then publish s p.b p.g sc true else s | none => s)

/-- What that thread's update meets when its turn comes. -/
def contMet (i : Instr) (a : Src) (pub : Option Scope) (p : Pass) (s : State) (k : Nat) : Look :=
  contLook p (digest (contBefore i a pub p s k) p.b p.g (contDigest i (eaDev a p (p.L.getD k 0)))) a (p.L.getD k 0)

/-- What a continuation update does for each active thread in turn, where its count is `n`: `some m` is the new count; none leaves it
and sets JOINERR. -/
def ContOp (i : Instr) (a : Src) (pub : Option Scope) (f : Nat → Option Nat) : Prop :=
  ∀ s p (h : Nat → Hit), Clear i s p → findSel i s = s → (∀ u ∈ p.L, contLook p s a u ≠ .wait) →
    (∀ k, k < p.L.length → contMet i a pub p s k = .ok (h k) ∧ (h k).hold = none) →
    let mem (k : Nat) := (contBefore i a pub p s k).mem
    let was (k : Nat) := leNat (mgetN (mem k) (h k).loc 4)
    ∃ t y, exec i s = .next t ∧ t.grp? p.b p.g = some y ∧ mem 0 = s.mem ∧ t.mem = mem p.L.length ∧
      (∀ k, k < p.L.length → mem (k + 1) = match f (was k) with | none => mem k | some m => msetN (mem k) (h k).loc (leBytes 4 m)) ∧
      (∀ u ∈ p.L, (y.thr[u]?).map (·.pc) = (p.G.thr[u]?).map (fun z => z.pc + 4)) ∧
      ((∃ k, k < p.L.length ∧ f (was k) = none) → y.r.sticky.getLsbD 5 = true) ∧
      ((∀ k, k < p.L.length → ∃ m, f (was k) = some (m + 1)) → y.r = p.G.r)

/-- R147, R150: where the path's first thread meets a fault, nothing of the instruction commits, and a group with a handler
enters it: the fault frame of R148, the threads of MASK at the handler, all others where they stood, every latch stack emptied. -/
def Handled (s t : State) (p : Pass) (k : FKind) (mask : BitVec 32) (aux : Word) (addr : BitVec 64) : Prop :=
  ∃ y, t.grp? p.b p.g = some y ∧ t.mem = s.mem ∧ y.r.v = p.G.r.v ∧ y.r.s = p.G.r.s ∧ y.r.sticky = p.G.r.sticky ∧
    y.r.vw = p.G.r.vw ∧ y.r.sw = p.G.r.sw ∧ y.r.seed = p.G.r.seed ∧ y.e = p.G.e ∧
    y.r.frame = [BitVec.ofNat 32 (kindCode k + 2 ^ 8 * p.low + 2 ^ 16 * (if p.upper then 1 else 0)), p.pc, mask, aux,
      BitVec.ofNat 32 addr.toNat, BitVec.ofNat 32 (addr.toNat / 2 ^ 32), 0, 0] ∧
    y.handler = some { mask := mask, pcoff := p.pc, rets := [] } ∧
    ∀ (u : Nat) (z : Thread), p.G.thr[u]? = some z →
      y.thr[u]? = some { z with pc := if mask.getLsbD u then p.B.h.traph else z.pc, latch := [], event := true }

/-- R395: the high word staged for the special register `n` of a group. -/
def stagedFor (y : Group) (n : Nat) : Option Word := match y.r.wlatch with | some (m, h) => if m = n then some h else none | none => none

/-! Requests of the host. -/

/-- R89 step 4: `t` is `s` with the response, TAG and STATUS in the mailbox of the port and MSI-X vector 2 raised; nothing else
differs. -/
def Answered (hp : HPort) (tag : Word) (st : Nat) (resp : List Byte) (s t : State) : Prop :=
  (t.port hp).reg = { (s.port hp).reg with
    box := (t.port hp).reg.box, utag := tag, urlen := resp.length, ustatus := st, msi2 := (s.port hp).reg.msi2 + 1,
    pend := if msixMasked (s.port hp).reg 2 = true then (s.port hp).reg.pend ||| 4#3 else (s.port hp).reg.pend } ∧
  mgetN (t.port hp).reg.box 0 resp.length = resp ∧ modHost t hp (fun _ => (s.port hp).reg) = s

/-- R89, R90: a mailbox command, with none of its port in progress, is answered: FORMAT for a LEN above 4,096; DENIED while BOOTFAIL is 1 (but for `boot` commands) and
from a port that is not the manager (for `mgr` commands); FORMAT for parameters that are not `ok`; else with the status, response
and state that `out` gives. -/
def MailOp (i : HPort → Word → BitVec 13 → Instr) (mgr boot : Bool) (ok : List Byte → Bool)
    (out : HPort → List Byte → State → Nat × List Byte × State) : Prop :=
  ∀ hp tag len s, s.up = true ∨ s.boot.failed = true → (∀ c ∈ s.sh.mail, c.1 ≠ hp) → ∃ t, exec (i hp tag len) s = .next t ∧
    let l := mgetN (s.port hp).reg.box 0 len.toNat
    if 4096 < len.toNat then Answered hp tag 3 [] s t
    else if (s.boot.failed = true ∧ boot = false) ∨ (mgr = true ∧ s.sh.mgr ≠ hp) then Answered hp tag 2 [] s t
    else if ok l = false then Answered hp tag 3 [] s t
    else Answered hp tag (out hp l s).1 (out hp l s).2.1 (out hp l s).2.2 t

/-- An engine operation ends (R377, R58): its status stands in its register, and no other register and no thread changes. -/
structure Ended (y z : Group) (dst : Option PReg) (w : Word) : Prop where
  thr : z.thr = y.thr
  vec : z.r.v = y.r.v
  status : ∀ r, dst = some (.s r) → wget z.r.s r = w ∧ ∀ k, k ≠ r → wget z.r.s k = wget y.r.s k
  none : dst = none → z.r.s = y.r.s

/-- A group's collective `cid`, its oldest, with no younger one that waits for it: its record, its block, the group and its operation; the
group runs on. -/
structure CollOf (s : State) (cid : Nat) (c : Coll) (x : Block) (y : Group) (o : EngOp) : Prop where
  coll : tget? s.colls cid = some c
  blk : s.blk? c.blk = some x
  grp : x.groups[c.grp]? = some y
  uid : y.uid = c.uid
  op : y.e.ops.find? isColl = some o
  num : o.cid = cid
  going : c.fin = none
  alone : ∀ q ∈ y.e.ops, isColl q = true → q.cid ≠ cid → ∀ d, tget? s.colls q.cid = some d → d.fin = none
  scalar : ∀ r, o.dst ≠ some (.v r)
  runs : y.q.rollback = false ∧ y.liveList ≠ []

/-- R58, R366: the collective has ended with status word `w`. -/
def CollEnded (t : State) (cid : Nat) (c : Coll) (y : Group) (o : EngOp) (w : Word) : Prop :=
  tget? t.colls cid = none ∧ ∃ z, t.grp? c.blk c.grp = some z ∧ z.e.coll = y.e.coll - 1 ∧
    (∀ q ∈ z.e.ops, ¬(isColl q = true ∧ q.cid = cid)) ∧ Ended y z o.dst w

/-- R59: the collective is aborted with a cause: its status word, and for a context that is not killed an entry of KIND 0x07. -/
def CollAborted (s t : State) (cid : Nat) (c : Coll) (x : Block) (y : Group) (o : EngOp) (cause : Nat) : Prop :=
  t.mem = s.mem ∧ (∃ n, n < 2 ∧ CollEnded t cid c y o (BitVec.ofNat 32 (c.seq.toNat % 2 ^ 24 * 2 ^ 8 + 2 ^ 4 * n + cause))) ∧
  ∀ k, s.ctx? x.ctx = some k → k.killed = false → (s.port k.port).trap.en = true → (s.port k.port).trap.held = [] →
    ringUsed (s.port k.port).trap < ringSize (s.port k.port).trap → ∃ e, (t.port k.port).trap.held = [e] ∧ e.bytes.take 2 = [7, 1]

/-! A pass of one path, around its instruction. -/

/-- R131, R133, R139, R141, R37, R43, R214: what precedes the instruction: its page has been used, the group stands as its pass begins, its
lanes and their slots are taken, its works are in flight and its work is noted for the accounts. -/
def passBegun (z : Spot) (q : Plan) (s : State) : State :=
  let s := foldS (fun a s => touchRead z.x.ctx .fetch (fetchVa z.x a.pc) s) q.paths s
  takeLanes z.x.core z.b z.g (lanesOf z) (notePass z.x q (lanesOf z).length
    (occupy z.x.core (lanesOf z) (planCost q) (planWorks z.x.opts.paired q) (modGrp (clearPassed z.x.core z.y.q.lane s) z.b z.g (beginPass q))))

/-- R133, R152, R162, R405: what follows it: the marks of the debugger, the results that are in the pipeline (R132) of a pass that began
in cycle `c0`, and, after a pass without a condition, a switch point and the barriers whose last arrival it was. -/
def passEnded (z : Spot) (x : Block) (q : Plan) (e : PassEnd) (c0 : Nat) (s : State) : State :=
  let t := modGrp { s with sel := none } z.b z.g (endPass q e c0)
  refreshHolds (if e.ok then releaseDue (afterPass x z.b z.g q t) z.b else t) z.b

/-! The arithmetic of the statements. -/

/-- R311: an exact result reduced once: clamped under `.sat`, else modulo 2^w. -/
def reduced (I : IFmt) (sat : Bool) (e : Int) : Nat :=
  ((if sat then (if e < I.lo then I.lo else if I.hi < e then I.hi else e) else e) % 2 ^ I.w).toNat

/-- R234: the quotient, truncated toward zero, and the patterns of a division by zero. -/
def quotientOf (I : IFmt) (x y : Int) : Int := if y = 0 then (if I.signed && x < 0 then I.lo else I.hi) else x.tdiv y

/-- R234: the remainder. -/
def remainderOf (x y : Int) : Int := if y = 0 then x else x - y * x.tdiv y

/-- An FP32 operation on two words, as a number. -/
def on32 (f : Nat → Nat → Nat) (x y : Word) : Nat := f x.toNat y.toNat

/-- R328: an operation on each half of three words. -/
def both16 (f : Nat → Nat → Nat → Nat) (x y z : Word) : Nat :=
  f (x.toNat % 2 ^ 16) (y.toNat % 2 ^ 16) (z.toNat % 2 ^ 16) + 2 ^ 16 * f (x.toNat / 2 ^ 16) (y.toNat / 2 ^ 16) (z.toNat / 2 ^ 16)

end Sys2Proof.Machine
end

