-- ==== Sys2Proof/Certificates/Slice0/Obligations.lean ====
section
/-! DEFINITION. The statements for the provers: what the instructions and the machine do, by the rules of the spec. -/

open Sys2Proof Sys2Proof.Machine

/-! Registers to registers. In each statement `t` is a thread of the path and `c` the value it reads of `prv` (R172); `RegOp`
says where the result goes, what else changes, and that nothing else does. -/

/-- R310, R311, R312, R234: block 0x1_. Exact integer results in the format of M, reduced once modulo 2^w or clamped under
`.sat`; division by zero answers its pattern and sets DIVZ; CMP and CMPE give 1 or 0; no form traps. -/
def Obligations.integer_block_results : Prop :=
  (∀ n d a b m, RegOp (.add n d a b m) d m.words (fun p t c =>
    reduced (ariFmt m) (ariSat m) (rdI p t c (ariFmt m) a + rdI p t c (ariFmt m) b))) ∧
  (∀ n d a b m, RegOp (.sub n d a b m) d m.words (fun p t c =>
    reduced (ariFmt m) (ariSat m) (rdI p t c (ariFmt m) a - rdI p t c (ariFmt m) b))) ∧
  (∀ n d a b m, RegOp (.mul n d a b m) d m.words (fun p t c =>
    reduced (ariFmt m) (ariSat m) (rdI p t c (ariFmt m) a * rdI p t c (ariFmt m) b))) ∧
  (∀ n d a b m, RegOp (.mad n d a b m) d m.words (fun p t c =>
    reduced (ariFmt m) (ariSat m) (rdD p t (ariFmt m) d + rdI p t c (ariFmt m) a * rdI p t c (ariFmt m) b))) ∧
  (∀ n d a b m, RegOpZ (.div n d a b m) d m.words
    (fun p t c => reduced (int4Fmt m) false (quotientOf (int4Fmt m) (rdI p t c (int4Fmt m) a) (rdI p t c (int4Fmt m) b)))
    (fun p t c => rdI p t c (int4Fmt m) b == 0)) ∧
  (∀ n d a b m, RegOpZ (.rem n d a b m) d m.words
    (fun p t c => reduced (int4Fmt m) false (remainderOf (rdI p t c (int4Fmt m) a) (rdI p t c (int4Fmt m) b)))
    (fun p t c => rdI p t c (int4Fmt m) b == 0)) ∧
  (∀ n d a b m, RegOp (.min n d a b m) d m.words (fun p t c =>
    reduced (int4Fmt m) false (if rdI p t c (int4Fmt m) a ≤ rdI p t c (int4Fmt m) b then rdI p t c (int4Fmt m) a else rdI p t c (int4Fmt m) b))) ∧
  (∀ n d a b m, RegOp (.max n d a b m) d m.words (fun p t c =>
    reduced (int4Fmt m) false (if rdI p t c (int4Fmt m) a ≤ rdI p t c (int4Fmt m) b then rdI p t c (int4Fmt m) b else rdI p t c (int4Fmt m) a))) ∧
  (∀ n d a m, RegOp (.abs n d a m) d m.words (fun p t c =>
    reduced (un3Fmt m) (un3Sat m) (if rdI p t c (un3Fmt m) a < 0 then -(rdI p t c (un3Fmt m) a) else rdI p t c (un3Fmt m) a))) ∧
  (∀ n d a m, RegOp (.neg n d a m) d m.words (fun p t c => reduced (un3Fmt m) (un3Sat m) (0 - rdI p t c (un3Fmt m) a))) ∧
  (∀ n d a b m, RegOp (.cmp n d a b m) d 1 (fun p t c =>
    match m with
    | .lt => if (srcWord p t a 0 c).toInt < (srcWord p t b 0 c).toInt then 1 else 0
    | .le => if (srcWord p t a 0 c).toInt ≤ (srcWord p t b 0 c).toInt then 1 else 0
    | .ltn => if (srcWord p t a 0 c).toNat < (srcWord p t b 0 c).toNat then 1 else 0
    | .len => if (srcWord p t a 0 c).toNat ≤ (srcWord p t b 0 c).toNat then 1 else 0)) ∧
  (∀ n d a b m, RegOp (.cmpe n d a b m) d 1 (fun p t c =>
    if (srcNat p t a m.words c = srcNat p t b m.words c) ↔ (m = .eq ∨ m = .eq64) then 1 else 0)) ∧
  (∀ n d a b m, RegOp (.sel n d a b m) d m.words (fun p t c =>
    if dstWord p t d 0 = 0 then srcNat p t b m.words c else srcNat p t a m.words c)) ∧
  (∀ n d a b m, RegOp (.lea n d a b m) d 2 (fun p t c =>
    (src64 p t a + sext64 (srcWord p t b 0 c) * BitVec.ofNat 64 (scaleOf m)).toNat)) ∧
  (∀ n d a b m, RegOp (.mulw n d a b m) d m.words (fun p t c =>
    let z : Int := (srcWord p t a 0 c).toInt * (srcWord p t b 0 c).toInt
    let u : Nat := (srcWord p t a 0 c).toNat * (srcWord p t b 0 c).toNat
    match m with
    | .i64 => (z % 2 ^ 64).toNat | .n64 => u | .hiI => (z / 2 ^ 32 % 2 ^ 32).toNat | .hiN => u / 2 ^ 32)) ∧
  (∀ n d a b m, RegOp (.clamp n d a b m) d 1 (fun p t c =>
    let lo := rdI p t c (sgnFmt m) a
    let hi := rdI p t c (sgnFmt m) b
    let x := rdD p t (sgnFmt m) d
    reduced (sgnFmt m) false (if hi < lo then hi else if x < lo then lo else if hi < x then hi else x)))

/-- R313, R314, R315: block 0x2_. Bitwise operations, shifts that empty the register at counts of the width or more, rotations,
bit fields, and bit counts. -/
def Obligations.logic_block_results : Prop :=
  (∀ n d a b m, RegOp (.and n d a b m) d m.words (fun p t c => srcNat p t a m.words c &&& srcNat p t b m.words c)) ∧
  (∀ n d a b m, RegOp (.or n d a b m) d m.words (fun p t c => srcNat p t a m.words c ||| srcNat p t b m.words c)) ∧
  (∀ n d a b m, RegOp (.xor n d a b m) d m.words (fun p t c => srcNat p t a m.words c ^^^ srcNat p t b m.words c)) ∧
  (∀ n d a b m, RegOp (.andn n d a b m) d m.words (fun p t c =>
    (BitVec.ofNat 64 (srcNat p t a m.words c) &&& ~~~ BitVec.ofNat 64 (srcNat p t b m.words c)).toNat)) ∧
  (∀ n d a b m, RegOp (.orn n d a b m) d m.words (fun p t c =>
    (BitVec.ofNat 64 (srcNat p t a m.words c) ||| ~~~ BitVec.ofNat 64 (srcNat p t b m.words c)).toNat)) ∧
  (∀ n d a b m, RegOp (.xnor n d a b m) d m.words (fun p t c =>
    (~~~ (BitVec.ofNat 64 (srcNat p t a m.words c) ^^^ BitVec.ofNat 64 (srcNat p t b m.words c))).toNat)) ∧
  (∀ n d a b m, RegOp (.shl n d a b m) d m.words (fun p t c =>
    let k := (srcWord p t b 0 c).toNat
    if 32 * m.words ≤ k then 0 else srcNat p t a m.words c * 2 ^ k % 2 ^ (32 * m.words))) ∧
  (∀ n d a b m, RegOp (.shr n d a b m) d m.words (fun p t c =>
    let k := (srcWord p t b 0 c).toNat
    if 32 * m.words ≤ k then 0 else srcNat p t a m.words c / 2 ^ k)) ∧
  (∀ n d a b m, RegOp (.sar n d a b m) d m.words (fun p t c =>
    let w := 32 * m.words
    let k := (srcWord p t b 0 c).toNat
    let x : Int := IFmt.read ⟨true, w⟩ (srcNat p t a m.words c)
    if w ≤ k then (if x < 0 then 2 ^ w - 1 else 0) else (x / 2 ^ k % 2 ^ w).toNat)) ∧
  (∀ n d a b m, RegOp (.rot n d a b m) d m.words (fun p t c =>
    let k := (srcWord p t b 0 c).toNat
    match m with
    | .l32 => ((srcWord p t a 0 c).rotateLeft (k % 32)).toNat | .r32 => ((srcWord p t a 0 c).rotateRight (k % 32)).toNat
    | .l64 => ((src64 p t a).rotateLeft (k % 64)).toNat | .r64 => ((src64 p t a).rotateRight (k % 64)).toNat)) ∧
  (∀ n d a b m, RegOp (.extf n d a b m) d 1 (fun p t c =>
    let s := srcWord p t b 0 c
    let len := Nat.min 32 (s.toNat / 2 ^ 8 % 2 ^ 6)
    let f := (srcWord p t a 0 c).toNat / 2 ^ (s.toNat % 2 ^ 5) % 2 ^ len
    if m = .i32 ∧ len ≠ 0 ∧ 2 ^ (len - 1) ≤ f then 2 ^ 32 - 2 ^ len + f else f)) ∧
  (∀ n d a b, RegOp (.depf n d a b) d 1 (fun p t c =>
    let s := srcWord p t b 0 c
    let lo := s.toNat % 2 ^ 5
    let len := Nat.min 32 (s.toNat / 2 ^ 8 % 2 ^ 6)
    bitsNat ((List.range 32).map (fun k =>
      if lo ≤ k ∧ k < lo + len then (srcWord p t a 0 c).toNat.testBit (k - lo) else (dstWord p t d 0).toNat.testBit k)))) ∧
  (∀ n d a m, RegOp (.popc n d a m) d 1 (fun p t c =>
    ((List.range (32 * m.words)).filter (fun k => (srcNat p t a m.words c).testBit k)).length)) ∧
  (∀ n d a m, RegOp (.clz n d a m) d 1 (fun p t c =>
    let x := srcNat p t a m.words c
    if x = 0 then 32 * m.words else 32 * m.words - 1 - Nat.log2 x)) ∧
  (∀ n d a m, RegOp (.ctz n d a m) d 1 (fun p t c =>
    ((List.range (32 * m.words)).find? (fun k => (srcNat p t a m.words c).testBit k)).getD (32 * m.words))) ∧
  (∀ n d a m, RegOp (.brev n d a m) d m.words (fun p t c =>
    bitsNat ((List.range (32 * m.words)).map (fun k => (srcNat p t a m.words c).testBit (32 * m.words - 1 - k)))))

/-- R316, R317, R318: block 0x3_. The immediate is sign-extended, but for ORI and the shifts; LDK, LDKH, MOV copy; MORT interleaves. -/
def Obligations.immediate_block_results : Prop :=
  (∀ n d a i, RegOp (.addi n d a i) d 1 (fun p t c => (srcWord p t a 0 c + BitVec.signExtend 32 i).toNat)) ∧
  (∀ n d a i, RegOp (.muli n d a i) d 1 (fun p t c => (srcWord p t a 0 c * BitVec.signExtend 32 i).toNat)) ∧
  (∀ n d a i, RegOp (.andi n d a i) d 1 (fun p t c => (srcWord p t a 0 c &&& BitVec.signExtend 32 i).toNat)) ∧
  (∀ n d a i, RegOp (.ori n d a i) d 1 (fun p t c => (srcWord p t a 0 c).toNat ||| i.toNat)) ∧
  (∀ n d a i, RegOp (.xori n d a i) d 1 (fun p t c => (srcWord p t a 0 c ^^^ BitVec.signExtend 32 i).toNat)) ∧
  (∀ n d a i, RegOp (.shli n d a i) d 1 (fun p t c =>
    if 32 ≤ i.toNat then 0 else (srcWord p t a 0 c).toNat * 2 ^ i.toNat % 2 ^ 32)) ∧
  (∀ n d a i, RegOp (.shri n d a i) d 1 (fun p t c => if 32 ≤ i.toNat then 0 else (srcWord p t a 0 c).toNat / 2 ^ i.toNat)) ∧
  (∀ n d a i, RegOp (.sari n d a i) d 1 (fun p t c =>
    if 32 ≤ i.toNat then (if (srcWord p t a 0 c).toInt < 0 then 2 ^ 32 - 1 else 0)
    else ((srcWord p t a 0 c).toInt / 2 ^ i.toNat % 2 ^ 32).toNat)) ∧
  (∀ n d a i, RegOp (.cmpieq n d a i) d 1 (fun p t c => if srcWord p t a 0 c = BitVec.signExtend 32 i then 1 else 0)) ∧
  (∀ n d a i, RegOp (.cmpilt n d a i) d 1 (fun p t c => if (srcWord p t a 0 c).toInt < i.toInt then 1 else 0)) ∧
  (∀ n d a i, RegOp (.cmpiltn n d a i) d 1 (fun p t c =>
    if (srcWord p t a 0 c).toNat < (BitVec.signExtend 32 i).toNat then 1 else 0)) ∧
  (∀ n d a i, RegOp (.mini n d a i) d 1 (fun p t c =>
    if (srcWord p t a 0 c).toInt < i.toInt then (srcWord p t a 0 c).toNat else (BitVec.signExtend 32 i).toNat)) ∧
  (∀ n d i, RegOp (.ldk n d i) d 1 (fun _ _ _ => i.toNat)) ∧
  (∀ n d i, RegOp (.ldkh n d i) d 1 (fun p t _ => i.toNat * 2 ^ 16 + (dstWord p t d 0).toNat % 2 ^ 16)) ∧
  (∀ n d a m, RegOp (.mov n d a m) d m.words (fun p t c => srcNat p t a m.words c)) ∧
  (∀ n d a b, RegOp (.mort n d a b .d2) d 1 (fun p t c =>
    bitsNat ((List.range 32).map (fun k => (if k % 2 = 0 then srcWord p t a 0 c else srcWord p t b 0 c).toNat.testBit (k / 2))))) ∧
  (∀ n d a b, RegOp (.mort n d a b .d3) d 1 (fun p t c =>
    bitsNat ((List.range 30).map (fun k =>
      (if k % 3 = 0 then srcWord p t a 0 c else if k % 3 = 1 then srcWord p t b 0 c else dstWord p t d 0).toNat.testBit (k / 3)))))

/-- R338 to R349: block 0x4_. Whole-path instructions compute from the registers of the path's active threads in thread order;
QSWP and QRED read the whole quad (R347); `rank` counts the active threads below. -/
def Obligations.through_time_block_results : Prop :=
  (∀ a s p, Clear (.seedc a) s p → exec (.seedc a) s = .next (modGrp s p.b p.g (fun y =>
    advance p.L { y with r := { y.r with seed := srcWord p p.low a 0 0 } }))) ∧
  (∀ n d s p, Clear (.rdtail n d) s p → p.P.r.tailOpen = false → ∃ y, exec (.rdtail n d) s = .next (modGrp s p.b p.g (fun _ => y)) ∧
    RegDone (.rdtail n d) p p.G d 1 (fun _ => p.P.r.tail.toNat) false y) ∧
  (∀ n d s p, Clear (.rdtail n d) s p → p.P.r.tailOpen = true → ∃ w y, (w = p.P.r.tail ∨ w = 0) ∧
    exec (.rdtail n d) s = .next (modGrp { s with free := s.free + 1 } p.b p.g (fun _ => y)) ∧
    RegDone (.rdtail n d) p p.G d 1 (fun _ => w.toNat) false y) ∧
  (∀ n d a, PathOp (.red n d a .add) d (fun p _ => (p.L.map (fun t => srcWord p t a 0 0)).sum)) ∧
  (∀ n d a, PathOp (.red n d a .or) d (fun p _ => (p.L.map (fun t => srcWord p t a 0 0)).foldr (· ||| ·) 0)) ∧
  (∀ n d a m, m = .mini ∨ m = .maxi → PathOp (.red n d a m) d (fun p _ => foldPath (redOp m) (p.L.map (fun t => srcWord p t a 0 0)))) ∧
  (∀ n d a m, PathOp (.redf n d a m) d (fun p _ => canon32 (foldPath (redfOp m) (p.L.map (fun t => srcWord p t a 0 0))))) ∧
  (∀ n d a b m, PathOp (.tshb n d a b m) d (fun p t =>
    let k := (srcWord p p.low b 0 0).toNat
    if k ≤ rankOf p t then srcWord p (p.L.getD (rankOf p t - k) 0) a 0 0 else if m = .z then 0 else p.P.r.seed)) ∧
  (∀ n d a b m, PathOp (.tshf n d a b m) d (fun p t =>
    let k := (srcWord p p.low b 0 0).toNat
    if rankOf p t + k < p.L.length then srcWord p (p.L.getD (rankOf p t + k) 0) a 0 0 else if m = .z then 0 else p.P.r.seed)) ∧
  (∀ n d a b, PathOp (.tbcst n d a b) d (fun p _ =>
    if (srcWord p p.low b 0 0).toNat ∈ p.L then srcWord p (srcWord p p.low b 0 0).toNat a 0 0 else 0)) ∧
  (∀ n d a, PathOp (.poll n d a .each) d (fun p _ => if ∀ t ∈ p.L, srcWord p t a 0 0 ≠ 0 then 1 else 0)) ∧
  (∀ n d a, PathOp (.poll n d a .some) d (fun p _ => if ∃ t ∈ p.L, srcWord p t a 0 0 ≠ 0 then 1 else 0)) ∧
  (∀ n d a, PathOp (.poll n d a .bits) d (fun p _ => listMask (p.L.filter (fun t => srcWord p t a 0 0 != 0)))) ∧
  (∀ n d a, PathOp (.poll n d a .same) d (fun p _ => if ∀ t ∈ p.L, ∀ u ∈ p.L, srcWord p t a 0 0 = srcWord p u a 0 0 then 1 else 0)) ∧
  (∀ n d a m, PathOp (.qswp n d a m) d (fun p t =>
    srcWord p (match m with | .x => t ^^^ 1 | .y => t ^^^ 2 | .d => t ^^^ 3 | .b0 => t - t % 4) a 0 0)) ∧
  (∀ n d a, PathOp (.qred n d a .add) d (fun p t =>
    srcWord p (t / 4 * 4) a 0 0 + srcWord p (t / 4 * 4 + 1) a 0 0 + srcWord p (t / 4 * 4 + 2) a 0 0 + srcWord p (t / 4 * 4 + 3) a 0 0)) ∧
  (∀ n d a, PathOp (.qred n d a .fadd) d (fun p t =>
    canon32 (f32add (f32add (f32add (srcWord p (t / 4 * 4) a 0 0) (srcWord p (t / 4 * 4 + 1) a 0 0)) (srcWord p (t / 4 * 4 + 2) a 0 0))
      (srcWord p (t / 4 * 4 + 3) a 0 0)))) ∧
  (∀ n d a m, m = .fmin ∨ m = .fmax → PathOp (.qred n d a m) d (fun p t =>
    let f := if m = .fmin then f32min else f32max
    f (f (f (srcWord p (t / 4 * 4) a 0 0) (srcWord p (t / 4 * 4 + 1) a 0 0)) (srcWord p (t / 4 * 4 + 2) a 0 0)) (srcWord p (t / 4 * 4 + 3) a 0 0))) ∧
  (∀ n d, PathOp (.help n d) d (fun p t => listMask ((List.range 4).filter (fun k => t / 4 * 4 + k ∉ p.L)))) ∧
  (∀ n d a b m, RegOp (.cellh n d a b m) d 1 (fun p t c => (cellKey m (srcWord p t a 0 c) (srcWord p t b 0 c)).toNat)) ∧
  (∀ n d, RegOp (.tmask n d .act) d 1 (fun p _ _ => p.mask.toNat)) ∧
  (∀ n d, RegOp (.tmask n d .live) d 1 (fun p _ _ => (listMask p.P.liveList).toNat)) ∧
  (∀ n d a m, PathOp (.tpos n d a m) d (fun p t =>
    BitVec.ofNat 32 (p.L.filter (fun u => (u < t ∨ (u = t ∧ m = .inc)) ∧ srcWord p u a 0 0 ≠ 0)).length))

/-- R319 to R328: block 0x5_. One rounding of the exact value (R238) in the mode of M; FMIN, FMAX and FCMP order; FSGN and the
packed halves. -/
def Obligations.float_block_results : Prop :=
  (∀ n d a b m, RegOp (.fadd n d a b m) d 1 (fun p t c => on32 (fadd fp32 m) (srcWord p t a 0 c) (srcWord p t b 0 c))) ∧
  (∀ n d a b m, RegOp (.fsub n d a b m) d 1 (fun p t c => on32 (fsub fp32 m) (srcWord p t a 0 c) (srcWord p t b 0 c))) ∧
  (∀ n d a b m, RegOp (.fmul n d a b m) d 1 (fun p t c => on32 (fmul fp32 m) (srcWord p t a 0 c) (srcWord p t b 0 c))) ∧
  (∀ n d a b m, RegOp (.ffma n d a b m) d 1 (fun p t c =>
    on32 (fun x y => ffma fp32 m x y (dstWord p t d 0).toNat) (srcWord p t a 0 c) (srcWord p t b 0 c))) ∧
  (∀ n d a b, RegOp (.fmin n d a b) d 1 (fun p t c => on32 (fminmax fp32 false) (srcWord p t a 0 c) (srcWord p t b 0 c))) ∧
  (∀ n d a b, RegOp (.fmax n d a b) d 1 (fun p t c => on32 (fminmax fp32 true) (srcWord p t a 0 c) (srcWord p t b 0 c))) ∧
  (∀ n d a b m, RegOp (.fcmp n d a b m) d 1 (fun p t c =>
    if fcmp fp32 m (srcWord p t a 0 c).toNat (srcWord p t b 0 c).toNat then 1 else 0)) ∧
  (∀ n d a b m, RegOp (.fsgn n d a b m) d 1 (fun p t c =>
    let x := (srcWord p t a 0 c).toNat
    let sb := (srcWord p t b 0 c).toNat / 2 ^ 31
    match m with | .copy => x % 2 ^ 31 + 2 ^ 31 * sb | .xor => x % 2 ^ 31 + 2 ^ 31 * ((x / 2 ^ 31 + sb) % 2))) ∧
  (∀ n d a b m, RegOp (.pkadd n d a b m) d 1 (fun p t c =>
    both16 (fun x y _ => fadd (pkFmt m) (pkRnd m) x y) (srcWord p t a 0 c) (srcWord p t b 0 c) 0)) ∧
  (∀ n d a b m, RegOp (.pkmul n d a b m) d 1 (fun p t c =>
    both16 (fun x y _ => fmul (pkFmt m) (pkRnd m) x y) (srcWord p t a 0 c) (srcWord p t b 0 c) 0)) ∧
  (∀ n d a b m, RegOp (.pkfma n d a b m) d 1 (fun p t c =>
    both16 (ffma (pkFmt m) (pkRnd m)) (srcWord p t a 0 c) (srcWord p t b 0 c) (dstWord p t d 0))) ∧
  (∀ n d a b m, RegOp (.fdiv n d a b m) d 1 (fun p t c => on32 (fdiv fp32 m) (srcWord p t a 0 c) (srcWord p t b 0 c))) ∧
  (∀ n d a m, RegOp (.fsqrt n d a m) d 1 (fun p t c => on32 (fun x _ => fsqrt fp32 m x) (srcWord p t a 0 c) 0)) ∧
  (∀ n d a m, RegOp (.frnd n d a m) d 1 (fun p t c => on32 (fun x _ => frnd fp32 m x) (srcWord p t a 0 c) 0)) ∧
  (∀ n d a, RegOp (.fclass n d a) d 1 (fun p t c => on32 (fun x _ => 2 ^ fclass fp32 x) (srcWord p t a 0 c) 0)) ∧
  (∀ n d a b m, RegOp (.fscl n d a b m) d 1 (fun p t c => fscl fp32 m (srcWord p t a 0 c).toNat (srcWord p t b 0 c).toInt))

/-- R329, R330, R331: block 0x6_. The special functions of one FP32 value and the FP64 operations on register pairs. -/
def Obligations.special_and_double_block_results : Prop :=
  (∀ n d a, RegOp (.frcp n d a) d 1 (fun p t c => fdiv fp32 .rn 0x3F800000 (srcWord p t a 0 c).toNat)) ∧
  (∀ n d a, RegOp (.frsq n d a) d 1 (fun p t c => frsq (srcWord p t a 0 c).toNat)) ∧
  (∀ n d a, RegOp (.fex2 n d a) d 1 (fun p t c => fex2 (srcWord p t a 0 c).toNat)) ∧
  (∀ n d a, RegOp (.flg2 n d a) d 1 (fun p t c => flg2 (srcWord p t a 0 c).toNat)) ∧
  (∀ n d a, RegOp (.fsin n d a) d 1 (fun p t c => fsin (srcWord p t a 0 c).toNat)) ∧
  (∀ n d a, RegOp (.ftanh n d a) d 1 (fun p t c => ftanh (srcWord p t a 0 c).toNat)) ∧
  (∀ n d a b m, RegOp (.dadd n d a b m) d 2 (fun p t _ => fadd fp64 m (src64 p t a).toNat (src64 p t b).toNat)) ∧
  (∀ n d a b m, RegOp (.dsub n d a b m) d 2 (fun p t _ => fsub fp64 m (src64 p t a).toNat (src64 p t b).toNat)) ∧
  (∀ n d a b m, RegOp (.dmul n d a b m) d 2 (fun p t _ => fmul fp64 m (src64 p t a).toNat (src64 p t b).toNat)) ∧
  (∀ n d a b m, RegOp (.dfma n d a b m) d 2 (fun p t _ => ffma fp64 m (src64 p t a).toNat (src64 p t b).toNat (dstNat p t d 2))) ∧
  (∀ n d a b m, RegOp (.ddiv n d a b m) d 2 (fun p t _ => fdiv fp64 m (src64 p t a).toNat (src64 p t b).toNat)) ∧
  (∀ n d a m, RegOp (.dsqrt n d a m) d 2 (fun p t _ => fsqrt fp64 m (src64 p t a).toNat)) ∧
  (∀ n d a b m, RegOp (.dmin n d a b m) d 2 (fun p t _ => fminmax fp64 (m == .max) (src64 p t a).toNat (src64 p t b).toNat)) ∧
  (∀ n d a b m, RegOp (.dcmp n d a b m) d 1 (fun p t _ => if fcmp fp64 m (src64 p t a).toNat (src64 p t b).toNat then 1 else 0))

/-- R332 to R337: block 0x7_. Conversions with one rounding, saturation where the form says so, packing and unpacking. -/
def Obligations.convert_block_results : Prop :=
  (∀ n d a k t j f, RegOp (.cvt n d a k t j f) d 1 (fun p u c => convert (cvtFmt j) (cvtFmt f) k t (srcWord p u a 0 c).toNat)) ∧
  (∀ n d a t j f, RegOp (.cvtz n d a t j f) d 1 (fun p u c => convert (cvtFmt j) (cvtFmt f) .rz t (srcWord p u a 0 c).toNat)) ∧
  (∀ n d a t j f, RegOp (.cvtu n d a t j f) d 1 (fun p u c =>
    let x := IFmt.read (cvtuFmt f) (srcWord p u a 0 c).toNat
    let z := if t then IFmt.clamp (cvtuFmt j) x else IFmt.wrap (cvtuFmt j) x
    (z % 2 ^ 32).toNat)) ∧
  (∀ n d a k t j f, RegOp (.cvtd n d a k t j f) d j.words (fun p u c =>
    convert (cvtdFmt j) (cvtdFmt f) k t (srcNat p u a f.words c))) ∧
  (∀ n d a b m, RegOp (.pack n d a b m) d 1 (fun p t c =>
    let x := (srcWord p t a 0 c).toNat
    let y := (srcWord p t b 0 c).toNat
    match m with | .lo => y % 2 ^ 16 * 2 ^ 16 + x % 2 ^ 16 | .hi => y / 2 ^ 16 * 2 ^ 16 + x / 2 ^ 16)) ∧
  (∀ n d a m, RegOp (.unpk n d a m) d 1 (fun p t c =>
    let x := (srcWord p t a 0 c).toNat
    let lo := x % 2 ^ 16
    let hi := x / 2 ^ 16
    match m with
    | .e0 => lo | .e1 => hi
    | .e0s => if lo < 2 ^ 15 then lo else 2 ^ 32 - 2 ^ 16 + lo
    | .e1s => if hi < 2 ^ 15 then hi else 2 ^ 32 - 2 ^ 16 + hi)) ∧
  (∀ n d a b m, RegOp (.pk8 n d a b m) d 1 (fun p t c =>
    (dstWord p t d 0).toNat % 2 ^ 16 * 2 ^ 16 + toFp8 m (srcWord p t b 0 c) * 2 ^ 8 + toFp8 m (srcWord p t a 0 c))) ∧
  (∀ n d a b m, RegOp (.upk8 n d a b m) d 1 (fun p t c =>
    fp8To32 (if m = .e4m3 then e4m3 else e5m2) ((srcWord p t a 0 c).toNat / 2 ^ (8 * ((srcWord p t b 0 c).toNat % 4)) % 2 ^ 8)))

/-! Control. -/

/-- R303, R304: NOP goes on; BRA, RET, JMPR and the conditional branches send each active thread to its address, and change
nothing else: no register, no latch, no flag. H changes no result. -/
def Obligations.branches_move_only_the_pc : Prop :=
  ThrOp .nop id (fun _ _ x => { x with pc := x.pc + 4 }) ∧
  (∀ d, JumpOp (.bra d) (fun p _ => branchAddr p.pc d)) ∧
  (∀ a, JumpOp (.ret a) (fun p t => srcWord p t a 0 0)) ∧
  (∀ a m, JumpOp (.jmpr a m) (fun p t => if m = .rel then p.pc + srcWord p t a 0 0 else srcWord p t a 0 0)) ∧
  (∀ h a d, JumpOp (.brz h a d) (fun p t => if srcWord p t a 0 0 = 0 then branchAddr p.pc d else p.pc + 4)) ∧
  (∀ h a d, JumpOp (.brnz h a d) (fun p t => if srcWord p t a 0 0 ≠ 0 then branchAddr p.pc d else p.pc + 4)) ∧
  (∀ h a d, JumpOp (.brlt h a d) (fun p t => if (srcWord p t a 0 0).toInt < 0 then branchAddr p.pc d else p.pc + 4)) ∧
  (∀ h a d, JumpOp (.brge h a d) (fun p t => if 0 ≤ (srcWord p t a 0 0).toInt then branchAddr p.pc d else p.pc + 4))

/-- R304, R306: CALL writes pc + 4 and goes to its target; LOOP writes its counter less one, pushes it, and branches unless it
is zero: each is a register instruction (`RegDone`) whose active threads then go where the rule says. -/
def Obligations.call_and_loop_write_and_jump : Prop :=
  (∀ n d a m s p, Clear (.call n d a m) s p → ∃ z y, exec (.call n d a m) s = .next (modGrp s p.b p.g (fun _ => y)) ∧
    RegDone (.call n d a m) p p.G d 1 (fun _ => (p.pc + 4).toNat) false z ∧
    ThrDone p z (fun t x => { x with pc :=
      let v := srcWord p t a 0 (if t = p.low then chainStart p else p.pc + 4)
      if m = .rel then p.pc + v else v }) y) ∧
  (∀ a d s p, Clear (.loop a d) s p → ∃ z y, exec (.loop a d) s = .next (modGrp s p.b p.g (fun _ => y)) ∧
    RegDone (.loop a d) p p.G (match a with | .v i => .v i | .s i => .s i | _ => .discard) 1
      (fun t => (srcWord p (execOf (.loop a d) p (fun _ _ => 0) t).1 a 0 0 - 1).toNat) false z ∧
    ThrDone p z (fun t x => { x with pc := if srcWord p t a 0 0 = 1 then p.pc + 4 else branchAddr p.pc d }) y)

/-- R305, R309: MEET sets the meeting register of its threads, or clears it; WINB sets the windows; each goes on. -/
def Obligations.meet_and_winb_results : Prop :=
  (∀ d, ThrOp (.meet d) id (fun p _ x => { x with pc := x.pc + 4, meet := if d = 0 then none else some (branchAddr p.pc d) })) ∧
  (∀ vq sq, ThrOp (.winb vq sq) (fun y => { y with r := { y.r with vw := 16 * vq.val, sw := 32 * sq.val } })
    (fun _ _ x => { x with pc := x.pc + 4 }))

/-- R307, R177, R178: REPACK records the continuing addresses and, while a thread of the group has still to arrive, its threads stay
there and nothing else changes. Once every live thread of the block stands at it, every one of them goes on at its continuing
address, with its meeting register, its region entry and its skip count, in a slot of its own thread index that is its own home's. -/
def Obligations.repack_waits_then_continues : Prop :=
  (∀ a d s p, Clear (.repack a d) s p → OthersRun p → SomeStay p →
    ∃ y, exec (.repack a d) s = .next (modGrp s p.b p.g (fun _ => y)) ∧
      ThrDone p p.G (fun t x => { x with cont := some (branchAddr p.pc d + srcWord p t a 0 0) }) y) ∧
  (∀ a d s p, Clear (.repack a d) s p → MapOk p.B → (∀ y ∈ p.B.groups, y.thr.length = 32) →
    (∀ (k : Nat) (y : Group) (u : Nat) (z : Thread), p.B.groups[k]? = some y → y.thr[u]? = some z → z.live = true →
      z.pc = p.pc ∧ (z.cont.isSome = true ∨ (k = p.g ∧ u ∈ p.L)) ∧
      ∃ w, p.B.groups[homeOf p.B k u]? = some w ∧ w.q.status ≠ .exited) →
    (∃ (u : Nat) (z : Thread), u ∈ p.L ∧ p.G.thr[u]? = some z ∧ z.live = true) →
    ∃ t x, exec (.repack a d) s = .next t ∧ t.mem = s.mem ∧ t.blk? p.b = some x ∧
      ∀ (k : Nat) (y : Group) (u : Nat) (z : Thread), p.B.groups[k]? = some y → y.thr[u]? = some z → z.live = true →
        ∃ j w, x.groups[j]? = some w ∧ homeOf x j u = homeOf p.B k u ∧ w.thr[u]? = some { z with
          pc := if k = p.g ∧ u ∈ p.L then branchAddr p.pc d + srcWord p u a 0 0 else z.cont.getD 0
          cont := none, latch := [], event := false })

/-- R308, R119: EXIT clears the live bits of its threads, which leave their meeting addresses. While another thread of the group
lives, nothing else changes. With the group's last thread, and nothing of it outstanding, the group has exited. -/
def Obligations.exit_ends_threads_and_group : Prop :=
  (∀ s p, Clear .exit s p → OthersRun p → SomeStay p → p.G.handler = none →
    ∃ y, exec .exit s = .next (modGrp s p.b p.g (fun _ => y)) ∧
      ThrDone p p.G (fun _ x => { x with live := false, meet := none, skip := 0 }) y) ∧
  (∀ s p, Clear .exit s p → OthersRun p → (∃ (k : Nat) (y : Group) (u : Nat) (z : Thread), k ≠ p.g ∧ p.B.groups[k]? = some y ∧ u < 32 ∧ y.thr[u]? = some z ∧
      z.live = true ∧ z.cont = none ∧ y.q.status ≠ .exited) →
    p.B.map = [] → p.G.handler = none → (∀ u, p.G.liveT u = true → u ∈ p.L) → p.G.q.status ≠ .exited →
    journaling p.G = false → p.G.log = [] → engineQuiet p.G = true → p.G.e.prom = 0 → p.G.e.mma = none →
    ∃ t y, exec .exit s = .next t ∧ t.mem = s.mem ∧ t.grp? p.b p.g = some y ∧ y.q.status = .exited ∧ y.liveList = [] ∧
      y.r = p.G.r ∧ (∀ k, k ≠ p.g → t.grp? p.b k = s.grp? p.b k))

/-! Memory. In each statement the access of thread `t` stands at the address R350 gives it; `Served` says that each access of the
path reaches its place (`Look`), and `h` names the places. -/

/-- R350, R353, R352: block 0x8_ loads. The address is the 64-bit pair A plus the sign-extended immediate or register; LDB, LDH
extend by zero, LDBS, LDHS by sign; LDD and LDQ fill 2 and 4 registers; LDX's width is M's. Every byte of memory is unchanged. -/
def Obligations.device_loads : Prop :=
  (∀ d a i, LoadOp (.ldb d a i) d ⟨.dev, 1, .load, fun p t => (src64 p t a + i.signExtend 64).toNat⟩ false true) ∧
  (∀ d a i, LoadOp (.ldbs d a i) d ⟨.dev, 1, .load, fun p t => (src64 p t a + i.signExtend 64).toNat⟩ true true) ∧
  (∀ d a i, LoadOp (.ldh d a i) d ⟨.dev, 2, .load, fun p t => (src64 p t a + i.signExtend 64).toNat⟩ false true) ∧
  (∀ d a i, LoadOp (.ldhs d a i) d ⟨.dev, 2, .load, fun p t => (src64 p t a + i.signExtend 64).toNat⟩ true true) ∧
  (∀ d a i, LoadOp (.ldw d a i) d ⟨.dev, 4, .load, fun p t => (src64 p t a + i.signExtend 64).toNat⟩ false true) ∧
  (∀ d a i, LoadOp (.ldd d a i) d ⟨.dev, 8, .load, fun p t => (src64 p t a + i.signExtend 64).toNat⟩ false true) ∧
  (∀ d a i, LoadOp (.ldq d a i) d ⟨.dev, 16, .load, fun p t => (src64 p t a + i.signExtend 64).toNat⟩ false true) ∧
  (∀ d a b m, LoadOp (.ldx d a b m) d
    ⟨.dev, (match m with | .b32 => 4 | .b64 => 8 | .b128 => 16 | .n16 => 2), .load,
      fun p t => (src64 p t a + (srcWord p t b 0 0).signExtend 64).toNat⟩ false true)

/-- R350, R353: block 0x8_ stores. The low byte, the low half, the word, or 2 or 4 registers of the D field stand at the address;
every other byte of memory, every register and every flag is unchanged. -/
def Obligations.device_stores : Prop :=
  (∀ e a i, StoreOp (.stb e a i) e ⟨.dev, 1, .store, fun p t => (src64 p t a + i.signExtend 64).toNat⟩) ∧
  (∀ e a i, StoreOp (.sth e a i) e ⟨.dev, 2, .store, fun p t => (src64 p t a + i.signExtend 64).toNat⟩) ∧
  (∀ e a i, StoreOp (.stw e a i) e ⟨.dev, 4, .store, fun p t => (src64 p t a + i.signExtend 64).toNat⟩) ∧
  (∀ e a i, StoreOp (.std e a i) e ⟨.dev, 8, .store, fun p t => (src64 p t a + i.signExtend 64).toNat⟩) ∧
  (∀ e a i, StoreOp (.stq e a i) e ⟨.dev, 16, .store, fun p t => (src64 p t a + i.signExtend 64).toNat⟩) ∧
  (∀ e a b m, StoreOp (.stx e a b m) e
    ⟨.dev, (match m with | .b32 => 4 | .b64 => 8 | .b128 => 16 | .n16 => 2), .store,
      fun p t => (src64 p t a + (srcWord p t b 0 0).signExtend 64).toNat⟩)

/-- R354, R356: LDU, and the loads of scratch, layer and window space. LDU and the window loads return what stands in memory
whatever the group's view holds. -/
def Obligations.atomic_and_local_loads : Prop :=
  (∀ d a i, LoadOp (.ldu d a i) d ⟨.dev, 4, .ldu, fun p t => (src64 p t a + i.signExtend 64).toNat⟩ false false) ∧
  (∀ d a i, LoadOp (.lds d a i) d ⟨.scr, 4, .load, fun p t => (srcWord p t a 0 0 + i.signExtend 32).toNat⟩ false true) ∧
  (∀ d a b m, LoadOp (.ldsx d a b m) d
    ⟨.scr, (match m with | .b32 => 4 | .b64 => 8 | .b128 => 16 | .n16 => 2), .load,
      fun p t => (srcWord p t a 0 0 + srcWord p t b 0 0).toNat⟩ false true) ∧
  (∀ d a i, LoadOp (.ldl d a i) d ⟨.lay, 4, .load, fun p t => (srcWord p t a 0 0 + i.signExtend 32).toNat⟩ false true) ∧
  (∀ d a b m, LoadOp (.ldlb d a b m) d
    ⟨.lay, (match m with | .b64 => 8 | .b128 => 16), .load, fun p t => (srcWord p t a 0 0 + srcWord p t b 0 0).toNat⟩ false true) ∧
  (∀ d a b m, LoadOp (.ldhw d a b m) d
    ⟨.win, (match m with | .b32 => 4 | .b64 => 8 | .n8 => 1 | .n16 => 2), .load,
      fun p t => (srcWord p t a 0 0 + srcWord p t b 0 0).toNat⟩ false false)

/-- R356: the stores of scratch, layer and window space. -/
def Obligations.local_stores : Prop :=
  (∀ e a i, StoreOp (.sts e a i) e ⟨.scr, 4, .store, fun p t => (srcWord p t a 0 0 + i.signExtend 32).toNat⟩) ∧
  (∀ e a b m, StoreOp (.stsx e a b m) e
    ⟨.scr, (match m with | .b32 => 4 | .b64 => 8 | .b128 => 16 | .n16 => 2), .store,
      fun p t => (srcWord p t a 0 0 + srcWord p t b 0 0).toNat⟩) ∧
  (∀ e a i, StoreOp (.stl e a i) e ⟨.lay, 4, .store, fun p t => (srcWord p t a 0 0 + i.signExtend 32).toNat⟩) ∧
  (∀ e a b m, StoreOp (.stlb e a b m) e
    ⟨.lay, (match m with | .b64 => 8 | .b128 => 16), .store, fun p t => (srcWord p t a 0 0 + srcWord p t b 0 0).toNat⟩) ∧
  (∀ e a b m, StoreOp (.sthw e a b m) e
    ⟨.win, (match m with | .b32 => 4 | .b64 => 8 | .n8 => 1 | .n16 => 2), .store,
      fun p t => (srcWord p t a 0 0 + srcWord p t b 0 0).toNat⟩)

/-- R360, R361: block 0xA_. Each atomic answers the old value and stores the new one of R361's table: a compare that fails leaves
the location; 64-bit forms are 8 bytes wide, all others 4; ASADD, ASMIN and ASCAS act on scratch. -/
def Obligations.atomic_results : Prop :=
  (∀ d a b m, AtomicOp (.aadd d a b m) d b ⟨.dev, if m = .b64 then 8 else 4, .atomic, fun p t => (src64 p t a).toNat⟩
    (fun x y _ => some ((x + y) % 2 ^ (if m = .b64 then 64 else 32)))) ∧
  (∀ d a b m, AtomicOp (.amin d a b m) d b ⟨.dev, if m = .i64 then 8 else 4, .atomic, fun p t => (src64 p t a).toNat⟩
    (fun x y _ => let w := if m = .i64 then 64 else 32
      some (if (BitVec.ofNat w y).toInt < (BitVec.ofNat w x).toInt then y else x))) ∧
  (∀ d a b m, AtomicOp (.aminn d a b m) d b ⟨.dev, if m = .n64 then 8 else 4, .atomic, fun p t => (src64 p t a).toNat⟩
    (fun x y _ => some (if y < x then y else x))) ∧
  (∀ d a b m, AtomicOp (.amax d a b m) d b ⟨.dev, if m = .i64 then 8 else 4, .atomic, fun p t => (src64 p t a).toNat⟩
    (fun x y _ => let w := if m = .i64 then 64 else 32
      some (if (BitVec.ofNat w x).toInt < (BitVec.ofNat w y).toInt then y else x))) ∧
  (∀ d a b m, AtomicOp (.amaxn d a b m) d b ⟨.dev, if m = .n64 then 8 else 4, .atomic, fun p t => (src64 p t a).toNat⟩
    (fun x y _ => some (if x < y then y else x))) ∧
  (∀ d a b m, AtomicOp (.aand d a b m) d b ⟨.dev, if m = .b64 then 8 else 4, .atomic, fun p t => (src64 p t a).toNat⟩
    (fun x y _ => some (x &&& y))) ∧
  (∀ d a b m, AtomicOp (.aor d a b m) d b ⟨.dev, if m = .b64 then 8 else 4, .atomic, fun p t => (src64 p t a).toNat⟩
    (fun x y _ => some (x ||| y))) ∧
  (∀ d a b m, AtomicOp (.axor d a b m) d b ⟨.dev, if m = .b64 then 8 else 4, .atomic, fun p t => (src64 p t a).toNat⟩
    (fun x y _ => some (x ^^^ y))) ∧
  (∀ d a b m, AtomicOp (.axch d a b m) d b ⟨.dev, if m = .b64 then 8 else 4, .atomic, fun p t => (src64 p t a).toNat⟩
    (fun _ y _ => some y)) ∧
  (∀ d a b m, AtomicOp (.acas d a b m) d b ⟨.dev, if m = .b64 then 8 else 4, .atomic, fun p t => (src64 p t a).toNat⟩
    (fun x y z => if x = z then some y else none)) ∧
  (∀ d a b m, AtomicOp (.afadd d a b m) d b ⟨.dev, 4, .atomic, fun p t => (src64 p t a).toNat⟩
    (fun x y _ => some (match m with
      | .f32 => fadd fp32 .rn x y
      | .f16x2 => fadd fp16 .rn (x % 2 ^ 16) (y % 2 ^ 16) + 2 ^ 16 * fadd fp16 .rn (x / 2 ^ 16) (y / 2 ^ 16)
      | .bf16x2 => fadd bf16 .rn (x % 2 ^ 16) (y % 2 ^ 16) + 2 ^ 16 * fadd bf16 .rn (x / 2 ^ 16) (y / 2 ^ 16)))) ∧
  (∀ d a b m, AtomicOp (.afmin d a b m) d b ⟨.dev, 4, .atomic, fun p t => (src64 p t a).toNat⟩
    (fun x y _ => some (fminmax fp32 (m == .max) x y))) ∧
  (∀ d a b m, AtomicOp (.ainc d a b m) d b ⟨.dev, 4, .atomic, fun p t => (src64 p t a).toNat⟩
    (fun x y _ => some (match m with
      | .inc => if y ≤ x then 0 else x + 1
      | .dec => if x = 0 ∨ y < x then y else x - 1))) ∧
  (∀ d a b m, AtomicOp (.asadd d a b m) d b ⟨.scr, 4, .atomic, fun p t => (srcWord p t a 0 0).toNat⟩
    (fun x y _ => some (match m with | .i32 => (x + y) % 2 ^ 32 | .f32 => fadd fp32 .rn x y))) ∧
  (∀ d a b m, AtomicOp (.asmin d a b m) d b ⟨.scr, 4, .atomic, fun p t => (srcWord p t a 0 0).toNat⟩
    (fun x y _ => some (match m with
      | .i32 => if (BitVec.ofNat 32 y).toInt < (BitVec.ofNat 32 x).toInt then y else x
      | .n32 => if y < x then y else x))) ∧
  (∀ d a b m, AtomicOp (.ascas d a b m) d b ⟨.scr, if m = .b64 then 8 else 4, .atomic, fun p t => (srcWord p t a 0 0).toNat⟩
    (fun x y z => if x = z then some y else none))

/-- R357, R190: ALLOC, LIFE and FREE on scratch and layer granules: ALLOC and LIFE give each granule the class and the lifetime
from now on, and a W granule its span, ALLOC and FREE leave its bytes zero, LIFE keeps them, FREE marks it freed; every other byte of memory is unchanged. -/
def Obligations.lifetime_results : Prop :=
  (∀ a b m, LifetimeOp (.alloc a b m) a b m true (fun g _ etm =>
    { cls := g.cls, start := etm, spanEnd := (etm + (if g.cls = 3 then g.lifew / 2 ^ 16 * 6250000 else 0) : Nat), freed := false, written := false,
      expiry := (etm + g.lifew % 2 ^ 16 * 6250 + (if g.cls = 3 then g.lifew / 2 ^ 16 * 6250000 else 0) : Nat) })) ∧
  (∀ a b m, LifetimeOp (.life a b m) a b m false (fun g x etm =>
    { cls := g.cls, start := etm, spanEnd := (etm + (if g.cls = 3 then g.lifew / 2 ^ 16 * 6250000 else 0) : Nat), freed := false, written := x.written && !x.freed,
      expiry := (etm + g.lifew % 2 ^ 16 * 6250 + (if g.cls = 3 then g.lifew / 2 ^ 16 * 6250000 else 0) : Nat) })) ∧
  (∀ a b m, LifetimeOp (.free a b m) a b m true (fun _ x _ => { x with freed := true }))

/-- R359, R376, R384: EXPQ writes class, state and remaining time of each thread's granule; MMAQ writes the gang register with BUSY
and VALID; QSTAT writes the ring's occupancy or an index. -/
def Obligations.state_queries : Prop :=
  (∀ d a m, LateOp (.expq d a m) d (fun p s u =>
    let ea := (srcWord p (servedBy (.expq d a m) p u) a 0 0).toNat
    let g := match m with | .scr => scrGran p.B ea | .lay => layGran (s.cluster (clusterOf p.B.core)) ea
    let now := match m with | .scr => s.etm p.B.core | .lay => s.etm (layCore s (clusterOf p.B.core) ea)
    let past : Bool := g.cls ≠ 0 ∧ g.expiry ≤ (now : Int)
    BitVec.ofNat 32 (g.cls * 2 ^ 30 + (if g.freed then 2 else if past then 1 else if g.written then 0 else 3) * 2 ^ 28 +
      (if g.freed || past then 0 else if g.cls = 0 then 0x3FFFFFF else Nat.min 0x3FFFFFF ((g.expiry - now).toNat / 6250))))) ∧
  (∀ d, LateOp (.mmaq d) d (fun p _ _ =>
    let busy := if p.G.e.mma = none then 0 else 2 ^ 19
    match p.G.e.gang with
    | none => BitVec.ofNat 32 busy
    | some x => BitVec.ofNat 32 ((x.members.length - 1) * 2 ^ 29 + x.accb * 2 ^ 20 + busy + 2 ^ 18 + x.rq * 2 ^ 9 + x.cm))) ∧
  (∀ d a m, LateOp (.qstat d a m) d (fun p s _ =>
    let q := (s.cluster (clusterOf p.B.core)).queue ((srcWord p p.low a 0 0).toNat % 16)
    match m with | .occ => q.putix - q.freeix | .put => q.putix | .free => q.freeix))

/-- R355, R216, R229: PREF takes the distinct 64 KiB pages of its threads' addresses, counts each page that stays outstanding, notes
its deadline and goes on; a page that does not stay only decrements at once. While the counter stands at 255 it waits; that it also
waits where its pages would take the counter past 255 is the model's choice (log entry 7). -/
def Obligations.pref_requests : Prop :=
  ∀ a b s p, Clear (.pref a b) s p →
    let l := prefPages p a b
    let stay := l.filter (fun x => prefStays s p.B.ctx x.1)
    (l.map (·.1)).Nodup ∧ (∀ t ∈ accThreads (.pref a b) p, src64 p t a &&& ~~~0xFFFF#64 ∈ l.map (·.1)) ∧
    (∀ x ∈ l, ∃ t ∈ p.L, x.1 = src64 p t a &&& ~~~0xFFFF#64 ∧ x.2 = (srcWord p t b 0 0).toNat) ∧
    (p.G.e.prom = 255 ∨ 255 < p.G.e.prom + stay.length → exec (.pref a b) s = .next s) ∧
    (p.G.e.prom ≠ 255 → p.G.e.prom + stay.length ≤ 255 → s.latent = [] → ∃ y, exec (.pref a b) s = .next (modGrp s p.b p.g (fun _ => y)) ∧
      ThrDone p { p.G with e := { p.G.e with
          prom := p.G.e.prom + stay.length
          prefs := p.G.e.prefs ++ stay.map (fun x =>
            { page := x.1, deadline := s.etm p.B.core + (x.2 * 25 + 3) / 4, counted := true, waited := false, copyWaited := false }) } }
        (fun _ x => { x with pc := x.pc + 4 }) y)

/-- R363, R220, R221, R227, R366, R229: PUB at `.blk` or wider records a publish of everything the group has stored; ACQ ends read
stability; FENCE only goes on; each leaves registers and memory unchanged. WAIT goes on once its counter is at the threshold
or below, and until then changes nothing. -/
def Obligations.publish_acquire_fence_and_wait : Prop :=
  (∀ sc s p, Clear (.pub sc) s p → ∃ t y, exec (.pub sc) s = .next t ∧ GoneOn p s t y ∧ y.c = p.G.c ∧
    t.pubs = match sc with
      | .thr => s.pubs | .quad => s.pubs | .grp => s.pubs
      | _ => { who := p.G.uid, stamp := s.stamp, members := instanceOf s p.b p.B p.G.uid sc, scope := sc, clock := clockOf s p.G,
               scr := scrClockOf s p.G, scrOnly := false, blk := p.b, core := p.B.core, troupe := (p.B.inst, p.B.node, p.B.troupe),
               join := false } :: s.pubs) ∧
  (∀ sc s p, Clear (.acq sc) s p → ∃ t y, exec (.acq sc) s = .next t ∧ GoneOn p s t y ∧ y.c.stable = [] ∧ y.c.acq = s.stamp ∧
    t.stamp = s.stamp + 1 ∧ t.pubs = s.pubs ∧ t.hist = s.hist) ∧
  ThrOp .fence id (fun _ _ x => { x with pc := x.pc + 4 }) ∧
  (∀ k n s p, Clear (.wait k n) s p →
    let c := match k with | .copy => p.G.e.copy | .gath => p.G.e.gath | .coll => p.G.e.coll | .prom => p.G.e.prom
    (c ≤ n.toNat → ∃ y, exec (.wait k n) s = .next (modGrp s p.b p.g (fun _ => y)) ∧ ThrDone p p.G (fun _ x => { x with pc := x.pc + 4 }) y) ∧
    (n.toNat < c → exec (.wait k n) s = .next s))

/-- R364, R226, R180: the arrivals of a group whose live threads have all met at the instruction. BARA arrives and goes on; BAR arrives
and waits, and with a scope first publishes, once the engine operations of the group have completed (R365); BARW waits for its last
arrival, and goes on at once where none is open. In a packed block BAR makes every home group whose threads have met at it arrive. -/
def Obligations.barrier_arrivals : Prop :=
  (∀ pub id s p, Clear (.bara pub id) s p → p.B.map = [] → homeMeets p.B p.pc p.g = true → arrivedOpen p.B id.val p.g = false →
    (insertNat (barrierOf p.B id.val).arrived p.g).length < p.B.h.groups →
    ∃ t x y, exec (.bara pub id) s = .next t ∧ t.blk? p.b = some x ∧ x.groups[p.g]? = some y ∧ AllGone p.G y ∧ y.r = p.G.r ∧ t.mem = s.mem ∧
      (barrierOf x id.val).arrived = insertNat (barrierOf p.B id.val).arrived p.g ∧ (barrierOf x id.val).gen = (barrierOf p.B id.val).gen ∧
      arrivedOpen x id.val p.g = true) ∧
  (∀ id s p, Clear (.bar none id) s p → p.B.map = [] → homeMeets p.B p.pc p.g = true → arrivedOpen p.B id.val p.g = false →
    (insertNat (barrierOf p.B id.val).arrived p.g).length < p.B.h.groups →
    ∃ t x, exec (.bar none id) s = .next t ∧ t.blk? p.b = some x ∧ x.groups = p.B.groups ∧ t.mem = s.mem ∧
      tget? x.bwait p.g = some { id := id.val, pub := none, whole := true } ∧
      (barrierOf x id.val).arrived = insertNat (barrierOf p.B id.val).arrived p.g) ∧
  (∀ sc id s p, Clear (.bar (some sc) id) s p → p.B.map = [] →
    (boundaryReady p.B p.g p.pc = false → exec (.bar (some sc) id) s = .next s) ∧
    (boundaryReady p.B p.g p.pc = true → arrivedOpen p.B id.val p.g = false →
      (insertNat (barrierOf p.B id.val).arrived p.g).length < p.B.h.groups →
      ∃ t x r, exec (.bar (some sc) id) s = .next t ∧ t.blk? p.b = some x ∧ x.groups = p.B.groups ∧ t.mem = s.mem ∧
        t.pubs = r :: s.pubs ∧ r.who = p.G.uid ∧ r.scope = pubScope sc ∧ r.stamp = s.stamp ∧ r.scrOnly = false ∧
        tget? x.bwait p.g = some { id := id.val, pub := some sc, whole := true } ∧
        (barrierOf x id.val).arrived = insertNat (barrierOf p.B id.val).arrived p.g)) ∧
  (∀ pub id s p, Clear (.barw pub id) s p → p.B.map = [] → homeMeets p.B p.pc p.g = true →
    (barrierOf p.B id.val).arrived.length < p.B.h.groups →
    (arrivedOpen p.B id.val p.g = true → ∃ t x, exec (.barw pub id) s = .next t ∧ t.blk? p.b = some x ∧ x.groups = p.B.groups ∧
      tget? x.bwait p.g = some { id := id.val, pub := pub, whole := false } ∧ t.mem = s.mem) ∧
    (arrivedOpen p.B id.val p.g = false → ∃ t y, exec (.barw pub id) s = .next t ∧ t.grp? p.b p.g = some y ∧ AllGone p.G y ∧
      y.r = p.G.r ∧ t.mem = s.mem ∧ ∀ c ∈ y.c.stable, pub = none ∧ c ∈ p.G.c.stable)) ∧
  (∀ id s p, Clear (.bar none id) s p → p.B.map ≠ [] → ∃ t x, exec (.bar none id) s = .next t ∧ t.blk? p.b = some x ∧
    x.groups = p.B.groups ∧ x.map = p.B.map ∧ t.mem = s.mem ∧
    ∀ g, g < p.B.groups.length → homeMeets p.B p.pc g = true → arrivedOpen p.B id.val g = false →
      tget? x.bwait g = some { id := id.val, pub := none, whole := true } ∧ g ∈ (barrierOf x id.val).arrived)

/-- R364, R365, R180: the arrival that completes the count, by BARA or by BAR, releases the generation: it advances, no group is counted
arrived in the new one, the group goes on, and so does every group that waits for this barrier; a BAR with a scope begins a new
phase. A release ends packing. -/
def Obligations.barrier_release : Prop :=
  (∀ i pub (id : Fin 16) s p, i = .bara pub id ∨ (pub = none ∧ i = .bar none id) → Clear i s p → p.B.map = [] → homeMeets p.B p.pc p.g = true →
    arrivedOpen p.B id.val p.g = false → (p.B.bwait.map (·.1)).Nodup → (∀ c ∈ p.B.bwait, c.2.id = id.val → c.2.pub = none) →
    p.G.q.status ≠ .exited → p.G.liveList ≠ [] → p.B.h.groups ≤ (insertNat (barrierOf p.B id.val).arrived p.g).length →
    ∃ t x y, exec i s = .next t ∧ t.blk? p.b = some x ∧ x.groups[p.g]? = some y ∧ t.mem = s.mem ∧
      (barrierOf x id.val).gen = (barrierOf p.B id.val).gen + 1 ∧ (barrierOf x id.val).arrived = [] ∧ tget? x.bwait p.g = none ∧
      arrivedOpen x id.val p.g = false ∧ AllGone p.G y ∧ y.r = p.G.r ∧
      ∀ (k : Nat) (z : Group) (w : BarWait), k ≠ p.g → p.B.groups[k]? = some z → (k, w) ∈ p.B.bwait → w.id = id.val → z.q.status ≠ .exited →
        z.liveList ≠ [] → ∃ v, x.groups[k]? = some v ∧ AllGone z v ∧ v.r = z.r ∧ tget? x.bwait k = none) ∧
  (∀ sc (id : Fin 16) s p, Clear (.bar (some sc) id) s p → p.B.map = [] → boundaryReady p.B p.g p.pc = true → arrivedOpen p.B id.val p.g = false →
    p.B.bwait = [] → p.G.q.status ≠ .exited → p.B.h.groups ≤ (insertNat (barrierOf p.B id.val).arrived p.g).length →
    ∃ t x y, exec (.bar (some sc) id) s = .next t ∧ t.blk? p.b = some x ∧ x.groups[p.g]? = some y ∧
      (barrierOf x id.val).gen = (barrierOf p.B id.val).gen + 1 ∧ (barrierOf x id.val).arrived = [] ∧ tget? x.bwait p.g = none ∧
      y.r.phx = p.G.r.phx + 1 ∧ ∀ (u : Nat) (z : Thread), u < 32 → p.G.thr[u]? = some z → z.live = true →
        ∃ w, y.thr[u]? = some w ∧ w.pc = z.pc + 4 ∧ w.latch = [] ∧ w.live = true) ∧
  (∀ s b x id, s.blk? b = some x → x.h.groups ≤ (barrierOf x id).arrived.length → (∀ c ∈ x.bwait, c.2.id = id → c.2.pub = none) →
    (∃ z ∈ (unpack x).groups, z.q.status ≠ .exited ∧ z.liveList ≠ []) → ∃ y, (tryRelease s b id).blk? b = some y ∧ y.map = [] ∧
      (barrierOf y id).gen = (barrierOf x id).gen + 1 ∧ (barrierOf y id).arrived = [])

/-- R365, R114, R116: PHASE, for a group of an unpacked block all of whose threads have met and whose engine operations have
completed: a new phase begins; the live threads stand past the instruction with empty latch stacks; windows, seed, flags and the
CARRY registers keep their values, and every engine counter is zero. -/
def Obligations.phase_boundary : Prop :=
  ∀ sc s p, Clear (.phase sc) s p → p.B.map = [] → boundaryReady p.B p.g p.pc = true →
    ∃ t y, exec (.phase sc) s = .next t ∧ t.grp? p.b p.g = some y ∧ y.r.phx = p.G.r.phx + 1 ∧
      (∀ (u : Nat) (z : Thread), u < 32 → p.G.thr[u]? = some z → z.live = true →
        ∃ w, y.thr[u]? = some w ∧ w.pc = z.pc + 4 ∧ w.latch = [] ∧ w.event = false ∧ w.live = true ∧ w.meet = z.meet) ∧
      y.r.vw = p.G.r.vw ∧ y.r.sw = p.G.r.sw ∧ y.r.seed = p.G.r.seed ∧ y.r.sticky = p.G.r.sticky ∧
      (∀ r ∈ carryList p.B.h false, ∀ u, u < 32 → wget y.r.v (32 * r + u) = wget p.G.r.v (32 * r + u)) ∧
      (∀ r ∈ carryList p.B.h true, wget y.r.s r = wget p.G.r.s r) ∧
      y.e.copy = 0 ∧ y.e.gath = 0 ∧ y.e.coll = 0 ∧ y.e.prom = 0 ∧ y.c.stable = [] ∧
      ∀ k j, k ≠ p.b → t.grp? k j = s.grp? k j

/-- R369, R370: GANG sets the gang register from its operands. R375: ACCZ zeroes the slice once no operation is in flight, for every
thread index of it, live or not, and changes no other register. -/
def Obligations.gang_and_accz : Prop :=
  (∀ a b s p, Clear (.gang a b) s p → ∃ y, exec (.gang a b) s = .next (modGrp s p.b p.g (fun _ => y)) ∧
    let w := (srcWord p p.low b 0 0).toNat
    let m := (src64 p p.low a).toNat
    let x : Gang := { members := (List.range (w / 2 ^ 29 + 1)).map (fun k => (m / 2 ^ (8 * k + 5) % 8, m / 2 ^ (8 * k) % 32)),
                      accb := w / 2 ^ 20 % 2 ^ 9, rq := w / 2 ^ 9 % 2 ^ 5, cm := w % 2 ^ 6 }
    ThrDone p { p.G with e := { p.G.e with gang := some x } } (fun _ x => { x with pc := x.pc + 4 }) y) ∧
  (∀ s p x, Clear .accz s p → p.G.e.gang = some x → p.G.e.mma = none → ∃ y, exec .accz s = .next (modGrp s p.b p.g (fun _ => y)) ∧
    (∀ u r j, u ≤ x.rq → r < 4 → j ≤ x.cm → wget y.r.v (32 * (x.accb + 64 * r + j) + u) = 0) ∧
    (∀ q, (∀ u r j, u ≤ x.rq → r < 4 → j ≤ x.cm → q ≠ 32 * (x.accb + 64 * r + j) + u) → wget y.r.v q = wget p.G.r.v q) ∧
    (∀ u ∈ p.L, y.thr[u]? = (p.G.thr[u]?).map (fun z => { z with pc := z.pc + 4 })) ∧ (∀ u, u ∉ p.L → y.thr[u]? = p.G.thr[u]?) ∧
    y.r = { p.G.r with v := y.r.v }) ∧
  (∀ s p x f, Clear .accz s p → p.G.e.gang = some x → p.G.e.mma = some f → exec .accz s = .next s)

/-- R368, R369, R371, R372, R374, R181: a matrix operation of a solo gang register is in flight with its slice. A gang member that has met
waits in the rendezvous latch, and changes nothing else, until every member of the list stands at the same instruction; with the
last of them every member's slice is in flight, with the number of members in the status word. -/
def Obligations.matrix_operations : Prop :=
  ((∀ d a b m, MmaOp (.mma d a b m) d) ∧ (∀ d a b m, MmaOp (.mmas d a b m) d) ∧ (∀ d a b m, MmaOp (.mmaf d a b m) d)) ∧
  ((∀ d a b m, MmaWaits (.mma d a b m)) ∧ (∀ d a b m, MmaWaits (.mmas d a b m)) ∧ (∀ d a b m, MmaWaits (.mmaf d a b m))) ∧
  ((∀ d a b m, MmaMeets (.mma d a b m)) ∧ (∀ d a b m, MmaMeets (.mmas d a b m)) ∧ (∀ d a b m, MmaMeets (.mmaf d a b m)))

/-- R377, R246, R247, R229: CPY and CPYT start a copy, which a descriptor error ends with CAUSE DESC and nothing moved; at a full counter they
wait. R251,
R377, R229: GATH whose reads can all be performed reads its rows: memory and registers are unchanged, its writes are left to the
engine, and the gather counter is incremented; where a page is not present, it is logged, counted and goes on. -/
def Obligations.copies_and_gathers_start : Prop :=
  ((∀ d a, CopyOp (.cpy d a) d a false) ∧ (∀ d a, CopyOp (.cpyt d a) d a true) ∧
   (∀ d a s p, Clear (.cpy d a) s p → p.G.e.copy = 255 → exec (.cpy d a) s = .next s) ∧
   (∀ d a s p, Clear (.cpyt d a) s p → p.G.e.copy = 255 → exec (.cpyt d a) s = .next s) ∧
   (∀ b (g : Nat) (w : Group) k o s, s.grp? b g = some w → w.e.ops.findIdx? isCopy = some k → w.e.ops[k]? = some o → o.bad = true →
     o.fin = none → o.susp = none → w.liveList ≠ [] → w.q.rollback = false → (∀ r, o.dst ≠ some (.v r)) →
     ∃ t z, exec (.copyComplete b g) s = .next t ∧ t.grp? b g = some z ∧ t.mem = s.mem ∧ z.e.copy = w.e.copy - 1 ∧
       z.e.ops = w.e.ops.eraseIdx k ∧
       Ended w z o.dst (BitVec.ofNat 32 (o.sect * 2 ^ 8 + (if o.poisoned then 2 ^ 4 else 0) + 1))) ∧
   (∀ x l, copyBad x (copyD false l) = true ↔
     let ctl := dw l 5
     let sp (n : Nat) := ctl / 2 ^ n % 4
     ctl / 2 ^ 18 ≠ 0 ∨ ctl % 16 ≠ 0 ∨ ctl / 2 ^ 4 % 2 ^ 6 ≠ 0 ∨ dw l 0 % 16 ≠ 0 ∨ dw l 2 % 16 ≠ 0 ∨ dw l 4 % 16 ≠ 0 ∨ 2 ^ 24 < dw l 4 ∨
     (if sp 10 = 0 then canonical (BitVec.ofNat 64 (dw l 0 + 2 ^ 32 * dw l 1)) = false else dw l 1 ≠ 0) ∨
     (if sp 12 = 0 then canonical (BitVec.ofNat 64 (dw l 2 + 2 ^ 32 * dw l 3)) = false else dw l 3 ≠ 0) ∨
     (ctl / 2 ^ 14 % 2 = 1 ∧ (sp 12 ≠ 1 ∨ ctl / 2 ^ 15 % 8 = troupeRel x ∨ troupeCount x ≤ ctl / 2 ^ 15 % 8))) ∧
   (∀ x l, let c := copyD true l
     copyBad x c = true ↔ c.zeroBad = true ∨ addrBad c.ssp c.src = true ∨ addrBad c.dsp c.dst = true ∨ c.pitch % 16 ≠ 0 ∨
       c.layout = 3 ∨ 13 ≤ c.fmt ∨ (c.layout = 2 ∧ c.fmt ≠ 0) ∨ c.dsp = .dev ∨ c.dsp = .win ∨ ¬(1 ≤ c.cols ∧ c.cols ≤ 4096) ∨
       ¬(1 ≤ c.rows ∧ c.rows ≤ 4096) ∨ (sfSparse c.fmt = true ∧ (c.cols % 8 ≠ 0 ∨ c.metaOff % 16 ≠ 0)) ∨
       (sfSparse c.fmt = false ∧ c.metaOff ≠ 0) ∨
       (c.mcast = true ∧ (c.dsp ≠ .scr ∨ c.mblk = troupeRel x ∨ troupeCount x ≤ c.mblk)))) ∧
  ((∀ d a s p h, Clear (.gath d a) s p → findSel (.gath d a) s = s → p.G.e.gath < 255 → gathLook p s (gathD (descWords p a 5)) = .ok h →
     ∃ t y, exec (.gath d a) s = .next t ∧ t.grp? p.b p.g = some y ∧ t.mem = s.mem ∧ y.r = { p.G.r with sticky := y.r.sticky } ∧
       (∀ u ∈ p.L, (y.thr[u]?).map (·.pc) = (p.G.thr[u]?).map (fun z => z.pc + 4)) ∧ (∀ u, u ∉ p.L → y.thr[u]? = p.G.thr[u]?) ∧
       y.e.gath = p.G.e.gath + 1 ∧ y.e.ops.length = p.G.e.ops.length + 1 ∧
       ∃ o ∈ y.e.ops, o.i = .gath d a ∧ o.desc = descWords p a 5 ∧ o.dst = dstReg p.P d ∧
         o.data.length = (gathD (descWords p a 5)).rows * (gathD (descWords p a 5)).rowb) ∧
   (∀ d a s p page, Clear (.gath d a) s p → findSel (.gath d a) s = s → p.G.e.gath < 255 →
     gathLook p s (gathD (descWords p a 5)) = .notPresent page →
     ∃ t y, exec (.gath d a) s = .next t ∧ t.grp? p.b p.g = some y ∧ t.mem = s.mem ∧ y.r.v = p.G.r.v ∧ y.r.s = p.G.r.s ∧
       (∀ u ∈ p.L, (y.thr[u]?).map (·.pc) = (p.G.thr[u]?).map (fun z => z.pc + 4)) ∧ y.e.gath = p.G.e.gath + 1 ∧
       ∃ e ∈ y.log, e.i = .gath d a ∧ e.pc = p.pc ∧ ∃ x ∈ e.thr, x.t = p.low ∧ x.data = descWords p a 5) ∧
   (∀ d a s p, Clear (.gath d a) s p → findSel (.gath d a) s = s → p.G.e.gath = 255 → exec (.gath d a) s = .next s))

/-- R368, R378, R379, R57: COLL waits for every live thread of its group; then it starts a collective with the communicator's
sequence number, which it advances, and counts it. -/
def Obligations.collective_starts : Prop :=
  (∀ d a m s p, Clear (.coll d a m) s p → (∀ u, p.G.liveT u = true → p.G.pcOf u = p.pc) → p.G.e.coll < 255 →
    ∃ t y c, exec (.coll d a m) s = .next t ∧ t.grp? p.b p.g = some y ∧ t.mem = s.mem ∧ y.r = p.G.r ∧ y.e.coll = p.G.e.coll + 1 ∧
      tget? t.colls s.nextColl = some c ∧ c.op = m ∧ c.blk = p.b ∧ c.grp = p.g ∧ c.uid = p.G.uid ∧
      c.src = BitVec.ofNat 64 ((srcWord p p.low a 0 0).toNat + 2 ^ 32 * (srcWord p p.low a 1 0).toNat) ∧
      c.dst = BitVec.ofNat 64 ((srcWord p p.low a 2 0).toNat + 2 ^ 32 * (srcWord p p.low a 3 0).toNat) ∧
      c.n = (srcWord p p.low a 4 0).toNat ∧ c.comm = (srcWord p p.low a 5 0).toNat / 2 ^ 24 ∧
      (∀ k, tget? s.comms c.comm = some k → c.seq = k.seq ∧ tget? t.comms c.comm = some { k with seq := k.seq + 1 }) ∧
      (tget? s.comms c.comm = none → c.bad = true) ∧
      ∀ (u : Nat) (z : Thread), u < 32 → p.G.thr[u]? = some z → z.live = true → y.pcOf u = z.pc + 4) ∧
  (∀ d a m s p, Clear (.coll d a m) s p → p.G.e.coll = 255 → exec (.coll d a m) s = .next s) ∧
  (∀ d a m s p u, Clear (.coll d a m) s p → u < 32 → p.G.liveT u = true → p.G.pcOf u ≠ p.pc → exec (.coll d a m) s = .next s)

/-- R381, R380, R123: QPUT and QMPUT put every record of the path in order, or nothing. -/
def Obligations.queue_puts : Prop :=
  (∀ a b, PutOp (.qput a b) a b) ∧ (∀ e a b, PutOp (.qmput e a b) a b)

/-- R382, R380, R124, R125: the threads of a path take the oldest unbound records of their core's window, one each in thread order, which are
then bound to them; with none they get the empty mark; a record to be delivered again goes to its thread again; the `.stage` form
takes from the lowest queue of the context whose stage the core serves. R383, R386: QREL of threads without a bound record changes
no queue and goes on; YIELD only asks to be passed over. -/
def Obligations.queue_takes_releases_and_yield : Prop :=
  ((∀ d a, TakeOp (.qtakeQ d a) false d (fun p _ => some ((srcWord p p.low a 0 0).toNat % 16))) ∧
   (∀ d, TakeOp (.qtakeStage d) true d (fun p s =>
     if (s.core p.B.core).cstage.getLsbD 4 = true then none
     else (List.range 16).find? (fun n => let q := (s.cluster (clusterOf p.B.core)).queue n
       q.en && q.owner == p.B.ctx && q.stage == (s.core p.B.core).cstage.toNat % 16)))) ∧
  ((∀ a s p, Clear (.qrel a) s p →
     (∀ (u : Nat) (n : Nat) (j : Nat) (l : List WinRec) (r : WinRec), u ∈ p.L → (j, l) ∈ (queueOf p s n).windows → r ∈ l →
       r.bound ≠ some (p.b, homeOf p.B p.g u, u)) →
     ∃ t y, exec (.qrel a) s = .next t ∧ GoneOn p s t y ∧ t.clusters = s.clusters) ∧
   (∀ a s p r, Clear (.qrel a) s p → p.L = [p.low] → p.B.map = [] →
     let n := (srcWord p p.low a 0 0).toNat % 16
     let q := (s.cluster (clusterOf p.B.core)).queue n
     let j := p.B.core % 8
     q.en = true → q.owner = p.B.ctx → q.mode = false → q.windows = [(j, [r])] → r.bound = some (p.b, p.g, p.low) →
     ∃ t y, exec (.qrel a) s = .next t ∧ t.grp? p.b p.g = some y ∧ t.mem = s.mem ∧ y.r = p.G.r ∧
       tget (queueOf p t n).windows j [] = [] ∧
       ∀ z, tget? q.slots (r.ix % 2 ^ (q.size + 1)) = some z → ∃ w, tget? (queueOf p t n).slots (r.ix % 2 ^ (q.size + 1)) = some w ∧
         w.mask = z.mask &&& ~~~(1#8 <<< j) ∧ w.data = z.data ∧ w.free = decide (w.mask = 0)) ∧
   ThrOp .yieldI (fun y => { y with q := { y.q with passed := true } }) (fun _ _ x => { x with pc := x.pc + 4 }))

/-- R127, R385, R128: SPAWN adds one to its continuation's COUNT and JOIN takes one away, each thread of the path in turn; a COUNT of zero, or
for SPAWN of all ones, stays and sets JOINERR. A JOIN that reaches zero enqueues the continuation's record in the queue that it
names, or, where that is full, leaves it to wait there and sets JOINERR. -/
def Obligations.continuation_counts : Prop :=
  (∀ a, ContOp (.spawn a) a none (fun n => if n = 0 ∨ n = 2 ^ 32 - 1 then none else some (n + 1))) ∧
  (∀ a sc, ContOp (.join a sc) a (some sc) (fun n => if n = 0 then none else some (n - 1))) ∧
  (∀ a sc s p h, Clear (.join a sc) s p → findSel (.join a sc) s = s → p.L = [p.low] → contLook p s a p.low ≠ .wait →
    contMet (.join a sc) a (some sc) p s 0 = .ok h → h.hold = none → leNat (mgetN s.mem h.loc 4) = 1 →
    let l := mgetN s.mem h.loc 64
    let n := leNat ((l.drop 4).take 1) % 16
    let k := leNat ((l.drop 5).take 1)
    let q := (s.cluster k).queue n
    let out := leBytes 8 (eaDev a p p.low) ++ l.drop 8
    k < 96 → q.en = true → q.owner = p.B.ctx →
    ((q.putix - q.freeix).toNat < queueSlots q → q.contq = [] → ∃ t z, exec (.join a sc) s = .next t ∧
      ((t.cluster k).queue n).putix = q.putix + 1 ∧ tget? ((t.cluster k).queue n).slots (slotIx q q.putix) = some z ∧ z.data = out) ∧
    (queueSlots q ≤ (q.putix - q.freeix).toNat ∨ q.contq ≠ [] → ∃ t y ws, exec (.join a sc) s = .next t ∧ t.grp? p.b p.g = some y ∧
      y.r.sticky.getLsbD 5 = true ∧ ((t.cluster k).queue n).contq = q.contq ++ [(out, ws)] ∧ ((t.cluster k).queue n).putix = q.putix))

/-! Faults, traps and the system block. -/

/-- R147, R148, R149, R150: for every instruction word, where the first thread of the path meets a precise fault and the group has a
handler and is not in it: nothing of the instruction commits, and the group enters the handler (`Handled`). A BKPT or WATCH
under debug attach is not meant. -/
def Obligations.faults_enter_the_handler : Prop :=
  ∀ i s p k aux addr, opcode i ≠ 256 → findSel i s = s → pass? s = some p → p.judged = false →
    condAt p i (extraOf i p s) p.low = some (.fault k aux addr) → k ≠ .replay → ((k = .bkpt ∨ k = .watch) → debugOn s p.B = false) →
    p.B.h.traph ≠ 0 → p.G.handler = none →
    ∃ t, exec i s = .next t ∧
      Handled s t p k (listMask (p.L.filter (fun u => match condAt p i (extraOf i p s) u with
        | some (.fault c _ _) => c == k | _ => false))) aux addr

/-- R388, R399, R264: TRAP, BKPT and a reserved encoding fault for every active thread: TRAP writes A to TCODE and raises TRAP, BKPT
raises BKPT, both with AUX zero; a reserved encoding raises ILLOP with AUX the word. -/
def Obligations.trap_bkpt_and_reserved_words_fault : Prop :=
  (∀ a s p, pass? s = some p → p.judged = false → fieldCond p (.trap a) = none → (∀ u ∈ p.L, latchCond p (.trap a) u = none) →
    p.B.h.traph ≠ 0 → p.G.handler = none →
    ∃ t y, exec (.trap a) s = .next t ∧ Handled s t p .trap (listMask p.L) 0 0 ∧ t.grp? p.b p.g = some y ∧
      y.r.tcode = srcWord p p.low a 0 0) ∧
  (∀ c s p, pass? s = some p → p.judged = false → fieldCond p (.bkpt c) = none → p.P.d.skip ≠ some p.pc → debugOn s p.B = false →
    p.B.h.traph ≠ 0 → p.G.handler = none →
    ∃ t, exec (.bkpt c) s = .next t ∧ Handled s t p .bkpt (listMask p.L) 0 0) ∧
  (∀ w s p, pass? s = some p → p.judged = false → p.B.h.traph ≠ 0 → p.G.handler = none →
    ∃ t, exec (.reservedEncoding w) s = .next t ∧ Handled s t p .illop (listMask p.L) w 0)

/-- R151: the same fault of a kernel without a handler, or inside it: an entry of KIND 0x01 with the frame goes to the trap ring of the
context's port, and the group parks until it is consumed. Memory and registers are as they were. -/
def Obligations.unhandled_fault_parks : Prop :=
  ∀ i s p k aux addr, opcode i ≠ 256 → findSel i s = s → pass? s = some p → p.judged = false →
    condAt p i (extraOf i p s) p.low = some (.fault k aux addr) → debugOn s p.B = false →
    (p.B.h.traph = 0 ∨ p.G.handler ≠ none) →
    ∃ t y o l, exec i s = .next t ∧ t.grp? p.b p.g = some y ∧ t.mem = s.mem ∧ y.r.v = p.G.r.v ∧ y.r.s = p.G.r.s ∧
      y.q.status = .parked (.entry (ctxPort s p.B.ctx) 0) o ∧ (∀ u, y.pcOf u = p.G.pcOf u) ∧
      y.r.frame.getD 0 0 = BitVec.ofNat 32 (kindCode k + 2 ^ 8 * p.low + 2 ^ 16 * (if p.upper then 1 else 0) +
        2 ^ 24 * (if p.G.handler = none then 0 else 1)) ∧
      (t.port (ctxPort s p.B.ctx)).trap.held = (s.port (ctxPort s p.B.ctx)).trap.held ++ [{ own := true, grp := some (p.b, p.g), bytes := l }] ∧
      l.take 1 = [1] ∧ l.drop 32 = wordsBytes y.r.frame

/-- R399, R402, R404: under debug attach BKPT halts the group where it stands, and posts its code. -/
def Obligations.breakpoint_halts_under_debug : Prop :=
  ∀ c s p, pass? s = some p → p.judged = false → fieldCond p (.bkpt c) = none → p.P.d.skip ≠ some p.pc → debugOn s p.B = true →
    (s.port (ctxPort s p.B.ctx)).dbg.posts.length < 64 →
    ∃ t y w l, exec (.bkpt c) s = .next t ∧ t.grp? p.b p.g = some y ∧ y.q.status = .halted w ∧ t.mem = s.mem ∧ y.r.v = p.G.r.v ∧
      (∀ u, y.pcOf u = p.G.pcOf u) ∧
      (t.port (ctxPort s p.B.ctx)).dbg.posts = (s.port (ctxPort s p.B.ctx)).dbg.posts ++ [l] ∧
      l.take 1 = [2] ∧ (l.drop 16).take 4 = leBytes 4 c.toNat

/-- R389: the return that completes, once every live handler thread has reached one, by this path or before it (`rets`): each of them
goes to PCOFF, or to PCOFF + 4 if its own return was `.next`; handler state ends; registers and memory are unchanged. While a live
handler thread is short of a return, the path's threads wait at theirs. -/
def Obligations.handler_return : Prop :=
  (∀ (next : Bool) s p h, Clear (if next then .trapNext else .trapRet) s p → p.G.handler = some h →
    (∀ u, u < 32 → p.G.liveT u = true → h.mask.getLsbD u = true → u ∈ p.L ∨ ∃ r ∈ h.rets, r.1 = u) →
    ∃ y, exec (if next then .trapNext else .trapRet) s = .next (modGrp s p.b p.g (fun _ => y)) ∧
      y = { p.G with handler := none, thr := y.thr } ∧
      ∀ (u : Nat) (z : Thread), u < 32 → p.G.thr[u]? = some z → y.thr[u]? = some (if z.live = true ∧ h.mask.getLsbD u = true
        then { z with pc := if (u, true) ∈ h.rets ∨ (next = true ∧ u ∈ p.L) then h.pcoff + 4 else h.pcoff } else z)) ∧
  (∀ (next : Bool) s p h u, Clear (if next then .trapNext else .trapRet) s p → p.G.handler = some h →
    u < 32 → p.G.liveT u = true → h.mask.getLsbD u = true → u ∉ p.L → (∀ r ∈ h.rets, r.1 ≠ u) →
    exec (if next then .trapNext else .trapRet) s = .next (modGrp s p.b p.g (fun y =>
      { y with handler := some { h with rets := h.rets ++ p.L.map (fun t => (t, next)) } })))

/-- R391, R392, R393: LIVE with its entry in memory only goes on; REGION sets each active thread's region entry to the next
instruction; ASSAY writes whether the phase is still journaled, and `.off` ends that. -/
def Obligations.tables_and_assay : Prop :=
  (∀ i s p l, Clear (.live i) s p → liveEntry p s i.toNat = .bytes l →
    ∃ t y, exec (.live i) s = .next t ∧ GoneOn p s t y ∧ y = { p.G with thr := y.thr } ∧ t = { s with blocks := t.blocks, migs := t.migs }) ∧
  (∀ i s p l, Clear (.region i) s p → regionEntry p s i.toNat = .bytes l →
    ∃ t y, exec (.region i) s = .next t ∧ GoneOn p s t y ∧
      ∀ u ∈ p.L, (y.thr[u]?).map (·.region) = (p.G.thr[u]?).map (fun z =>
        { pc := z.pc + 4, meet := z.meet, vw := p.G.r.vw, sw := p.G.r.sw,
          endOff := some (BitVec.ofNat 32 (leNat ((l.drop 4).take 4))), tick := s.now })) ∧
  (∀ d m s p, Clear (.assay d m) s p → ∃ t y, exec (.assay d m) s = .next t ∧ t.grp? p.b p.g = some y ∧ t.mem = s.mem ∧
    RegDone (.assay d m) p { p.G with a := y.a } d 1 (fun _ => if p.G.a.selected ∧ p.G.a.unassayable = false then 1 else 0) false y ∧
    y.a.selected = p.G.a.selected ∧ (m = .off → p.G.a.selected = true → y.a.unassayable = true))

/-- R395, R396, R397, R120, R125, R196: RDSR reads the register's value; a low word latches the high word, and a high word is that latch. WRSR of
STICKY clears the bits written as one; of a high word stages it; of CSTAGE and FMCTL takes effect for the owner of an enabled queue, and
else sets QCFG; of a bank's mode starts its drain, or sets MODECFG; of a queue's descriptor sets the queue, waits for a bank that drains
for the context, or sets QCFG. -/
def Obligations.special_registers : Prop :=
  (∀ n d i s p, Clear (.rdsr n d i) s p → ∃ t y, exec (.rdsr n d i) s = .next t ∧ t.grp? p.b p.g = some y ∧ t.mem = s.mem ∧
    RegDone (.rdsr n d i) p
      { p.G with a := y.a, r := { p.G.r with
          rlatch := if srWide i.toNat = true then BitVec.ofNat 32 (srValue s p.B p.G i.toNat p.off / 2 ^ 32) else p.G.r.rlatch } }
      d 1 (fun _ => if srHigh i.toNat then p.G.r.rlatch.toNat else srValue s p.B p.G i.toNat p.off % 2 ^ 32) false y) ∧
  (∀ e s p, Clear (.wrsr e 9) s p → ∃ y, exec (.wrsr e 9) s = .next (modGrp s p.b p.g (fun _ => y)) ∧
    ThrDone p { p.G with r := { p.G.r with sticky := p.G.r.sticky &&& ~~~((srcWord p p.low e 0 0).setWidth 9) } }
      (fun _ x => { x with pc := x.pc + 4 }) y) ∧
  (∀ e i s p, Clear (.wrsr e i) s p → srHigh i.toNat = true → ∃ t y, exec (.wrsr e i) s = .next t ∧ t.grp? p.b p.g = some y ∧
    t.mem = s.mem ∧ t.clusters = s.clusters ∧ y.r = { p.G.r with wlatch := some (i.toNat - 1, srcWord p p.low e 0 0) } ∧
    ∀ u ∈ p.L, (y.thr[u]?).map (·.pc) = (p.G.thr[u]?).map (fun z => z.pc + 4)) ∧
  (∀ e s p, Clear (.wrsr e 0x105) s p → ∃ t y, exec (.wrsr e 0x105) s = .next t ∧ t.grp? p.b p.g = some y ∧ t.mem = s.mem ∧
    (∀ u ∈ p.L, (y.thr[u]?).map (·.pc) = (p.G.thr[u]?).map (fun z => z.pc + 4)) ∧
    (if ownsQueue s (clusterOf p.B.core) p.B.ctx = true
     then (t.core p.B.core).cstage = (srcWord p p.low e 0 0).setWidth 5 ∧ y.r = p.G.r
     else (t.core p.B.core).cstage = (s.core p.B.core).cstage ∧ y.r = { p.G.r with sticky := p.G.r.sticky ||| 0x80 })) ∧
  (∀ e s p, Clear (.wrsr e 0x240) s p → ∃ t y, exec (.wrsr e 0x240) s = .next t ∧ t.grp? p.b p.g = some y ∧ t.mem = s.mem ∧
    let w := (srcWord p p.low e 0 0).toNat
    if ownsQueue s (clusterOf p.B.core) p.B.ctx = true
    then t.cluster (clusterOf p.B.core) = { s.cluster (clusterOf p.B.core) with
        fmEn := decide (w / 2 ^ 31 = 1), fmHi := w / 2 ^ 20 % 2 ^ 4, fmLo := w / 2 ^ 16 % 2 ^ 4, fmHold := w % 2 ^ 16 } ∧ y.r = p.G.r
    else t.cluster (clusterOf p.B.core) = s.cluster (clusterOf p.B.core) ∧ y.r = { p.G.r with sticky := p.G.r.sticky ||| 0x80 }) ∧
  (∀ e (n : Fin 16) s p, Clear (.wrsr e (BitVec.ofNat 16 (0x280 + 2 * n.val))) s p → ∃ t y,
    exec (.wrsr e (BitVec.ofNat 16 (0x280 + 2 * n.val))) s = .next t ∧ t.grp? p.b p.g = some y ∧ t.mem = s.mem ∧
    let z := (s.cluster (clusterOf p.B.core)).bank n.val
    let l := stagedFor p.G (0x280 + 2 * n.val)
    let m := (match l with | some h => h.toNat / 2 ^ 30 | none => z.mode.toNat) % 4
    let may := (z.mode = 0 ∧ (m = 1 ∨ m = 2) ∨ z.owner = p.B.ctx ∧ m ≤ 2) ∧ z.drain = false ∧
      ¬(z.mode = 2 ∧ m ≠ 2 ∧ (List.range 16).any (fun q => ((s.cluster (clusterOf p.B.core)).queue q).en &&
        ((s.cluster (clusterOf p.B.core)).queue q).bank == n.val) = true)
    y.r = { p.G.r with wlatch := (if l.isSome = true then none else p.G.r.wlatch), sticky := if may then p.G.r.sticky else p.G.r.sticky ||| 0x100 } ∧
    (∀ k, k ≠ n.val → (t.cluster (clusterOf p.B.core)).bank k = (s.cluster (clusterOf p.B.core)).bank k) ∧
    (t.cluster (clusterOf p.B.core)).bank n.val = if may then (if z.mode.toNat = m then z
      else { z with drain := true, drainAt := s.now, nextMode := BitVec.ofNat 2 m, nextOwner := if m = 0 then 0xFFFFFFFF else p.B.ctx }) else z) ∧
  (∀ e (n : Fin 16) s p, Clear (.wrsr e (BitVec.ofNat 16 (0x200 + 2 * n.val))) s p → p.G.q.status = .active →
    let q := (s.cluster (clusterOf p.B.core)).queue n.val
    let l := stagedFor p.G (0x200 + 2 * n.val)
    let v := (match l with | some h => h.toNat | none => qdWord q / 2 ^ 32) * 2 ^ 32 + (srcWord p p.low e 0 0).toNat
    let z := (s.cluster (clusterOf p.B.core)).bank (v / 2 ^ 58 % 16)
    let twice := q.en = true ∧ v / 2 ^ 63 % 2 = 1
    let past := 2 ^ 22 < v / 2 ^ 52 % 2 ^ 6 * 2 ^ 16 + 2 ^ (v / 2 ^ 48 % 2 ^ 4 + 1) * 64
    let mine := z.mode = 2 ∧ z.owner = p.B.ctx ∧ z.drain = false
    let soon := z.drain = true ∧ z.nextMode = 2 ∧ z.nextOwner = p.B.ctx
    (¬twice → soon → exec (.wrsr e (BitVec.ofNat 16 (0x200 + 2 * n.val))) s = .next s) ∧
    (twice ∨ ¬soon → ∃ t y, exec (.wrsr e (BitVec.ofNat 16 (0x200 + 2 * n.val))) s = .next t ∧ t.grp? p.b p.g = some y ∧ t.mem = s.mem ∧
      y.r = { p.G.r with wlatch := (if l.isSome = true then none else p.G.r.wlatch),
                         sticky := if twice ∨ ¬mine ∨ past then p.G.r.sticky ||| 0x80 else p.G.r.sticky } ∧
      (∀ k, k ≠ n.val → (t.cluster (clusterOf p.B.core)).queue k = (s.cluster (clusterOf p.B.core)).queue k) ∧
      (t.cluster (clusterOf p.B.core)).queue n.val = if twice ∨ ¬mine then q else
        let u := { q with en := decide (v / 2 ^ 63 % 2 = 1 ∧ ¬past), mode := decide (v / 2 ^ 62 % 2 = 1), bank := v / 2 ^ 58 % 16,
                          off := v / 2 ^ 52 % 2 ^ 6, size := v / 2 ^ 48 % 2 ^ 4, cmask := BitVec.ofNat 8 (v / 2 ^ 40), stage := v / 2 ^ 36 % 2 ^ 4 }
        if u.en = true then { u with owner := p.B.ctx, putix := 0, freeix := 0, slots := [], windows := [], contq := [] } else u)) ∧
  (∀ s x y, srValue s x y 0 = (y.r.frame.getD 0 0).toNat ∧ srValue s x y 8 = y.r.tcode.toNat ∧ srValue s x y 9 = y.r.sticky.toNat ∧
    srValue s x y 0xA = x.ctx.toNat ∧ srValue s x y 0x104 = y.q.lane * 2 ^ 16 + clusterOf x.core * 2 ^ 8 + x.core % 8)

/-- R402, R400, R407, R408, R405: DBGM without debug behaviour only goes on, with it it posts, and `.halt` halts; WATCH writes its slot;
SLEEP of zero only goes on, else it parks past the instruction until its deadline; CLASS is a hint; BKPT executes under a RESUME with SKIP. -/
def Obligations.debug_sleep_and_class : Prop :=
  (∀ a m s p, Clear (.dbgm a m) s p → debugOn s p.B = false → ∃ t y, exec (.dbgm a m) s = .next t ∧ GoneOn p s t y) ∧
  (∀ a s p, Clear (.dbgm a .post) s p → debugOn s p.B = true → (s.port (ctxPort s p.B.ctx)).dbg.posts.length < 64 →
    ∃ t y l, exec (.dbgm a .post) s = .next t ∧ GoneOn p s t y ∧
      (t.port (ctxPort s p.B.ctx)).dbg.posts = (s.port (ctxPort s p.B.ctx)).dbg.posts ++ [l] ∧ l.take 1 = [1] ∧
      (l.drop 16).take 4 = leBytes 4 (srcWord p p.low a 0 0).toNat) ∧
  (∀ a s p, Clear (.dbgm a .halt) s p → debugOn s p.B = true → ∃ t y w, exec (.dbgm a .halt) s = .next t ∧ t.grp? p.b p.g = some y ∧
    y.q.status = .halted w ∧ y.r = p.G.r ∧ t.mem = s.mem ∧
    ∀ u ∈ p.L, (y.thr[u]?).map (·.pc) = (p.G.thr[u]?).map (fun z => z.pc + 4)) ∧
  (∀ a b m s p, Clear (.watch a b m) s p → ∃ t y, exec (.watch a b m) s = .next t ∧ GoneOn p s t y ∧
    let w := (srcWord p p.low b 0 0).toNat
    let z : Option Watch := match m with
      | .clr => none
      | .r => some { addr := src64 p p.low a, size := w / 2 % 32, onR := true, onW := false }
      | .w => some { addr := src64 p p.low a, size := w / 2 % 32, onR := false, onW := true }
      | .rw => some { addr := src64 p p.low a, size := w / 2 % 32, onR := true, onW := true }
    y.d = if w % 2 = 1 then { p.G.d with w1 := z } else { p.G.d with w0 := z }) ∧
  (∀ a s p, Clear (.sleep a) s p → srcWord p p.low a 0 0 = 0 →
    ∃ y, exec (.sleep a) s = .next (modGrp s p.b p.g (fun _ => y)) ∧ ThrDone p p.G (fun _ x => { x with pc := x.pc + 4 }) y) ∧
  (∀ a s p, Clear (.sleep a) s p → srcWord p p.low a 0 0 ≠ 0 → ∃ t y o, exec (.sleep a) s = .next t ∧ t.grp? p.b p.g = some y ∧
    y.q.status = .parked (.sleep (s.etm p.B.core + ((srcWord p p.low a 0 0).toNat * 25 + 3) / 4)) o ∧ y.r = p.G.r ∧ t.mem = s.mem ∧
    ∀ u ∈ p.L, (y.thr[u]?).map (·.pc) = (p.G.thr[u]?).map (fun z => z.pc + 4)) ∧
  (∀ c, ThrOp (.clas c) (fun y => { y with q := { y.q with hint := some c } }) (fun _ _ x => { x with pc := x.pc + 4 })) ∧
  (∀ c, ThrOp (.bkpt c) (fun y => { y with d := { y.d with skip := none } }) (fun _ _ x => { x with pc := x.pc + 4 }))

/-! The host's requests and the device's own steps: each statement says what the event does where its condition holds. -/

/-- R89, R90, R91, R88: the mailbox commands of contexts, cluster sets, debug and communicators. -/
def Obligations.mailbox_settings : Prop :=
  MailOp .ctxNew false false (fun l => namedOnly [(0, 1), (8, 28)] l && decide (fieldN l 0 1 < 16)) (fun hp l s =>
    let w := tget s.sh.tenants (fieldN l 0 1) 0
    let cbase := BitVec.ofNat 64 (fieldN l 16 8)
    if ¬(w.getLsbD 31 = true ∧ w.getLsbD 30 = (hp == .B)) then (2, [], s)
    else if ¬(canonical cbase = true ∧ fieldN l 16 8 % 65536 = 0 ∧ fieldN l 24 8 % 65536 = 0 ∧ fieldN l 32 4 ≠ 0 ∧
      fieldN l 24 8 + 65536 * fieldN l 32 4 ≤ hbmEnd) then (3, [], s)
    else if 4096 ≤ s.ctxs.length then (7, [], s)
    else
      let c : Context :=
        { tenant := fieldN l 0 1, port := hp, root := BitVec.ofNat 64 (fieldN l 8 8), cbase := cbase, recbase := fieldN l 24 8,
          recsize := fieldN l 32 4, killed := false, unrecoverable := false, preq := [], lastInst := none, lastClock := [] }
      (0, leBytes 4 (freeCtx s), { s with ctxs := tset s.ctxs (freeCtx s) c })) ∧
  (∀ s : State, s.ctxs.length < 4096 → 1 ≤ freeCtx s ∧ freeCtx s ≤ 4096 ∧ tget? s.ctxs (freeCtx s) = none ∧
    ∀ n, 1 ≤ n → n < freeCtx s → tget? s.ctxs n ≠ none) ∧
  MailOp .ctxEnd false false (namedOnly [(0, 4)]) (fun hp l s =>
    match tget? s.ctxs (fieldN l 0 4) with
    | none => (5, [], s)
    | some c =>
      if c.port ≠ hp then (2, [], s)
      else if s.insts.any (fun i => i.2.ctx == BitVec.ofNat 32 (fieldN l 0 4)) = true then (1, [], s)
      else (0, [], endCtx s (BitVec.ofNat 32 (fieldN l 0 4)))) ∧
  (∀ (s : State) (ctx : Word), (endCtx s ctx).ctxs = tdel s.ctxs ctx.toNat ∧
    (∀ hp g, g ∈ ((endCtx s ctx).port hp).sub.graphs ↔ g ∈ (s.port hp).sub.graphs ∧ g.2.ctx ≠ ctx) ∧
    (∀ k n q, tget? ((endCtx s ctx).cluster k).queues n = some q → q.en = true → q.owner ≠ ctx) ∧
    (∀ k n b, tget? ((endCtx s ctx).cluster k).banks n = some b → b.drain = false → b.mode ≠ 0 → b.owner ≠ ctx)) ∧
  MailOp .setClu true false (fun l => namedOnly [(0, 1), (4, 12)] l && decide (fieldN l 0 1 < 16)) (fun _ l s =>
    if s.ctxs.any (fun c => c.2.tenant == fieldN l 0 1) = true then (1, [], s)
    else (0, [], markShared { s with sh := { s.sh with cluset := tset s.sh.cluset (fieldN l 0 1) (BitVec.ofNat 96 (fieldN l 4 12)) } })) ∧
  MailOp .getClu false false (fun l => namedOnly [(0, 1)] l && decide (fieldN l 0 1 < 16)) (fun _ l s =>
    (0, leBytes 12 (tget s.sh.cluset (fieldN l 0 1) 0).toNat, s)) ∧
  MailOp .debugCmd true false (fun l => namedOnly [(0, 2)] l && decide (fieldN l 0 1 < 2) && decide (fieldN l 1 1 < 2)) (fun _ l s =>
    let p : HPort := if fieldN l 0 1 = 0 then .A else .B
    let c := (s.port p).dbg.ctx
    (0, [], attachDebug (modDbg (if fieldN l 1 1 = 0 ∧ c ≠ 0xFFFFFFFF then resumeAll s c else s) p (fun d => { d with en := fieldN l 1 1 == 1 })))) ∧
  MailOp .commSet true false (fun l => namedOnly [(0, 2), (4, 2 * fieldN l 1 1)] l) (fun _ l s =>
    let n := fieldN l 1 1
    let ids := (List.range n).map (fun i => fieldN l (4 + 2 * i) 2)
    if n < 2 ∨ 64 < n ∨ (∃ d ∈ ids, 4096 ≤ d ∨ d = 0xFFF) ∨ ids.eraseDups.length ≠ n ∨ s.sh.devid.toNat ∉ ids then (3, [], s)
    else if s.colls.any (fun c => c.2.comm == fieldN l 0 1) = true then (1, [], s)
    else (0, [], { s with comms := tset s.comms (fieldN l 0 1) { ids := ids.foldl insertNat [], seq := 0, heard := [] } })) ∧
  MailOp .commClr true false (namedOnly [(0, 1)]) (fun _ l s =>
    if s.colls.any (fun c => c.2.comm == fieldN l 0 1) = true then (1, [], s)
    else if tget? s.comms (fieldN l 0 1) = none then (5, [], s)
    else (0, [], { s with comms := tdel s.comms (fieldN l 0 1) }))

/-- R89, R90, R26, R28, R31, R42, R86, R87, R92: the mailbox commands of rails, accounts, identity and firmware, and a code that R90
does not list; a write of USSCMD waits in the order of acceptance and is performed as its row, and while one of the port is in progress
another is refused and the buffer is closed. What the fuses and keys hold, and the salt of a report's signature, are
free (log entry 6). The model's choice: SETRAIL between a regulator that is on and one that is off loses the cluster's tiers (log
entry 25), an unlisted code answers BADOP even while BOOTFAIL is 1, and the order of the other refusals (log entry 24). -/
def Obligations.mailbox_rails_identity_and_firmware : Prop :=
  MailOp .setRail true false (fun l => namedOnly [(0, 2)] l && decide (fieldN l 0 1 < 96) && decide (fieldN l 1 1 < 4)) (fun _ l s =>
    let k := fieldN l 0 1
    let x := fieldN l 1 1
    if (residents s).any (fun b => clusterOf b.2.core == k) = true then (1, [], s)
    else
      let u := powerRails (modCluster s k (fun c => { c with rail := x }))
      (0, [], markShared (if (s.reg (s.cluster k).rail).on = !(s.reg x).shut then u else loseClusters u [k]))) ∧
  (∀ (s : State) x, x < 4 → ((powerRails s).reg x).on = true ↔ (s.reg x).shut = false ∧ ∃ k, k < 96 ∧ (s.cluster k).rail = x) ∧
  MailOp .railOn true false (fun l => namedOnly [(0, 1)] l && decide (fieldN l 0 1 < 4)) (fun _ l s =>
    let x := fieldN l 0 1
    (0, [], if (s.reg x).shut = false then s
      else loseClusters (powerRails (modReg s x (fun r => { r with shut := false }))) ((List.range 96).filter (fun k => (s.cluster k).rail == x)))) ∧
  MailOp .setSlope true false (fun l => namedOnly [(0, 1), (4, 4)] l && decide (fieldN l 0 1 < 4)) (fun _ l s =>
    (0, [], modReg s (fieldN l 0 1) (fun r => { r with slope := if fieldN l 4 4 < 50 then 50 else if 1000 < fieldN l 4 4 then 1000 else fieldN l 4 4 }))) ∧
  MailOp .clrAcct true false (fun l => namedOnly [(0, 1)] l && decide (fieldN l 0 1 ≤ 16)) (fun _ l s =>
    (0, [], { s with sh := { s.sh with enacct := tset s.sh.enacct (fieldN l 0 1) 0 } })) ∧
  MailOp .identCmd false true (namedOnly []) (fun _ _ s =>
    let cert := Config.idCert.take 3576
    (0, leBytes 512 idModulus ++ leBytes 4 65537 ++ leBytes 4 cert.length ++ cert, s)) ∧
  MailOp .attest false false (namedOnly [(0, 32)]) (fun _ l s =>
    let r := reportBytes s (l.take 32)
    (0, r ++ signReport s.free r, { s with free := s.free + 1 })) ∧
  MailOp .imgBegin true true (fun l => namedOnly [(0, 1), (4, 4)] l && decide (fieldN l 0 1 < 2) && decide (fieldN l 4 4 ≤ 2 ^ 24)) (fun _ l s =>
    (0, [], { s with boot := { s.boot with staged := some { kind := fieldN l 0 1, total := fieldN l 4 4, bytes := [], filled := [] } } })) ∧
  MailOp .imgData true true (fun l => namedOnly [(0, 4), (8, l.length - 8)] l && decide (8 ≤ l.length) && l.length % 8 == 0) (fun _ l s =>
    match s.boot.staged with
    | none => (3, [], s)
    | some i =>
      if i.total < fieldN l 0 4 + (l.length - 8) then (3, [], s)
      else
        let j := { i with bytes := msetN i.bytes (fieldN l 0 4) (l.drop 8), filled := addRange (fieldN l 0 4) (l.length - 8) i.filled }
        (0, [], { s with boot := { s.boot with staged := some j } })) ∧
  MailOp .imgEnd true true (namedOnly []) (fun _ _ s =>
    match stagedImage s.boot with
    | none => (6, [], s)
    | some k => (0, [], install k s)) ∧
  MailOp .commitCmd true false (namedOnly []) (fun _ _ s =>
    (0, [], { s with boot := { s.boot with
      usMin := BitVec.ofNat 32 (max s.boot.usMin.toNat s.boot.usVer.toNat), cpMin := BitVec.ofNat 32 (max s.boot.cpMin.toNat s.boot.cpVer.toNat) } })) ∧
  (∀ hp tag len op s, s.up = true ∨ s.boot.failed = true → (∀ c ∈ s.sh.mail, c.1 ≠ hp) →
    ∃ t, exec (.mailboxBadop hp tag len op) s = .next t ∧ Answered hp tag 4 [] s t) ∧
  (∀ hp (v : BitVec 64) s, s.up = true ∨ s.boot.failed = true →
    ((∀ c ∈ s.sh.mail, c.1 ≠ hp) →
      exec (.registerWrite hp 0x40000 8 v) s = .next { s with sh := { s.sh with mail := s.sh.mail ++ [(hp, v)] } }) ∧
    ((∃ c ∈ s.sh.mail, c.1 = hp) →
      (∀ i ∈ [Instr.registerWrite hp 0x40000 8 v, .ctxNew hp (hi32 v) (v.setWidth 13), .commitCmd hp (hi32 v) (v.setWidth 13)],
        exec i s = .next (modHost s hp (fun h => { h with denied := true }))) ∧
      exec (.registerWrite hp 0x41000 4 v) s = .next s ∧ regValue s hp (.ussbuf 0) = 0 ∧
      ((s.port hp).reg.urlen ≤ 4096 → (s.port hp).reg.ustatus < 2 ^ 8 → regValue s hp .ussstat / 2 ^ 31 % 2 = 1))) ∧
  (∀ hp (v : BitVec 64) r s, s.sh.mail = (hp, v) :: r → (∀ c ∈ r, c.1 ≠ hp) → v &&& 0xE000FF00 = 0 →
    let u : State := { s with sh := { s.sh with mail := r } }
    let tag := hi32 v
    let len : BitVec 13 := (v >>> 16).setWidth 13
    let rows := [(1, Instr.ctxNew hp tag len), (2, .ctxEnd hp tag len), (0x10, .setClu hp tag len), (0x11, .getClu hp tag len),
      (0x12, .setRail hp tag len), (0x13, .railOn hp tag len), (0x14, .setSlope hp tag len), (0x15, .clrAcct hp tag len),
      (0x16, .debugCmd hp tag len), (0x17, .commSet hp tag len), (0x18, .commClr hp tag len), (0x20, .identCmd hp tag len),
      (0x21, .attest hp tag len), (0x30, .imgBegin hp tag len), (0x31, .imgData hp tag len), (0x32, .imgEnd hp tag len),
      (0x33, .commitCmd hp tag len)]
    (∀ c ∈ rows, v.toNat % 256 = c.1 → exec c.2 u = .next (act .mail s)) ∧
    ((∀ c ∈ rows, v.toNat % 256 ≠ c.1) → exec (.mailboxBadop hp tag len (v.setWidth 8)) u = .next (act .mail s)))

/-- R88, R213, R32, R35, R53, R44: a register of the manager port: from the other port it only sets HOSTSTAT.DENIED; a tenant's
registers change only while the tenant has no resident context, DEVID only while there is none at all. The model's choice: a write of
MIGPOOL ends every promotion of the tenant (log entry 27), and one of UVCTL that enables the controller starts its count and its
interval anew (log entry 38). -/
def Obligations.manager_registers : Prop :=
  (∀ hp s, s.up = true → s.sh.mgr ≠ hp →
    let t := modHost s hp (fun h => { h with denied := true })
    (∀ k v, exec (.tenantWrite hp k v) s = .next t) ∧ (∀ f v, exec (.winownWrite hp f v) s = .next t) ∧
    (∀ k v, exec (.migpoolWrite hp k v) s = .next t) ∧ (∀ x v, exec (.uvctlWrite hp x v) s = .next t) ∧
    (∀ v, exec (.devidWrite hp v) s = .next t) ∧ ∀ p, exec (.portTrain hp p) s = .next t) ∧
  (∀ hp s, s.up = true → s.sh.mgr = hp →
    (∀ (k : Fin 16) v, exec (.tenantWrite hp k v) s = .next
      (if ∃ c ∈ s.ctxs, c.2.tenant = k.val then modHost s hp (fun h => { h with denied := true })
       else { s with sh := { s.sh with tenants := tset s.sh.tenants k.val (v &&& 0xC0000000) } })) ∧
    (∀ (f : Fin 128) v, exec (.winownWrite hp f v) s = .next
      (if (f.val < 64 ↔ hp = .B) ∨ (∃ c ∈ s.ctxs, c.2.tenant = (tget s.sh.winown f.val 0).toNat ∨ c.2.tenant = v.toNat % 16)
       then modHost s hp (fun h => { h with denied := true })
       else { s with sh := { s.sh with winown := tset s.sh.winown f.val (v.setWidth 4) } })) ∧
    (∀ (k : Fin 16) v, (∃ c ∈ s.ctxs, c.2.tenant = k.val) →
      exec (.migpoolWrite hp k v) s = .next (modHost s hp (fun h => { h with denied := true }))) ∧
    (∀ (k : Fin 16) v, (¬∃ c ∈ s.ctxs, c.2.tenant = k.val) → ∃ t, exec (.migpoolWrite hp k v) s = .next t ∧
      (let past := hbmEnd < (v.toNat / 2 ^ 30 % 2 ^ 12 + v.toNat / 2 ^ 42 % 2 ^ 10) * 2 ^ 30
       t.sh = { s.sh with migpool := tset s.sh.migpool k.val (v &&& (if past then 0x000FFFFFC0000000 else 0x800FFFFFC0000000)) }) ∧
      (∀ m ∈ t.migs, m.tenant ≠ k.val) ∧ ((∀ m ∈ s.migs, m.tenant ≠ k.val) → t = { s with sh := t.sh })) ∧
    (∀ x v, exec (.uvctlWrite hp x v) s = .next (modReg s x.val (fun r =>
      { r with uvEn := v.getLsbD 31, interval := BitVec.ofNat 8 (v.toNat / 2 ^ 8), celim := v.setWidth 8,
               step := if v.getLsbD 31 = true then r.step else 0, uvAt := if v.getLsbD 31 = true ∧ r.uvEn = false then s.now else r.uvAt,
               ceCount := if v.getLsbD 31 = true ∧ r.uvEn = false then 0 else r.ceCount }))) ∧
    (∀ v, exec (.devidWrite hp v) s = .next (if s.ctxs = [] then { s with sh := { s.sh with devid := v.setWidth 12 } } else s)))

/-- R23, R22, R28, R30, R33, R43: bring-up completes where both images run or verify, and clears everything but host memory; the hot
marks of a die; a shut rail loses its clusters' tiers, clocks and blocks and leaves every other cluster; a thermal shutdown loses all;
ballast leaves every clock where it is; the voltage step; an account that has used nothing is charged nothing. What energy the
metering finds for each kind of use is free (log entry 6). The model's choice: after a shutdown CYC and ETM are zero, and the blocks
are saved in form 4 from that moment on (log entry 31). -/
def Obligations.power_events : Prop :=
  (∀ s, s.boot.done = false → s.boot.failed = false → ∃ t, exec .bringUp s = .next t ∧
    let ok := (s.boot.usHash ≠ [] ∨ imageOk s.boot.usImg 0 s.boot.usMin = true) ∧
      (s.boot.cpHash ≠ [] ∨ imageOk s.boot.cpImg 1 s.boot.cpMin = true)
    (t.boot.done = true ↔ ok) ∧ (t.boot.failed = true ↔ ¬ok) ∧ (∀ hp, (t.port hp).reg.bootfail = t.boot.failed) ∧
    (t.boot.done = true → t.boot.upAt = s.now ∧ t.boot.count = s.boot.count + 1 ∧ t.poison = [] ∧
      ∀ a, mget t.mem a = if 2 ^ 66 ≤ a ∧ a < 2 ^ 68 then mget s.mem a else 0)) ∧
  (∀ (die : Fin 8) s, exec (.thermalHot die) s = .next { s with sh := { s.sh with hot := tset s.sh.hot die.val true } } ∧
    exec (.thermalCool die) s = .next { s with sh := { s.sh with hot := tdel s.sh.hot die.val } }) ∧
  (∀ (x : Fin 4) s, s.up = true → (s.reg x.val).on = true → s.sh.railsOff = false → ∃ t, exec (.railShutdown x) s = .next t ∧
    (t.reg x.val).on = false ∧ (t.reg x.val).shut = true ∧ (t.reg x.val).step = 0 ∧
    (∀ k, (k < 96 ∧ (s.cluster k).rail = x.val → (t.cluster k).banks = [] ∧ (t.cluster k).grans = [] ∧ (t.cluster k).queues = [] ∧
        (t.cluster k).rail = x.val ∧ (∀ c, clusterOf c = k → t.etm c = 0 ∧ t.cyc c = 0) ∧
        (tget? s.clusters k ≠ none → ∀ a, layLoc k 0 ≤ a → a < layLoc k 0 + 2 ^ 26 → mget t.mem a = 0)) ∧
      ((s.cluster k).rail ≠ x.val → t.cluster k = s.cluster k)) ∧
    (∀ b y, s.blk? b = some y → y.life = .resident → (s.cluster (clusterOf y.core)).rail = x.val →
      ∃ z, t.blk? b = some z ∧ z.life = .saved ∧ z.form = 4) ∧
    (∀ k b c, k < 96 → (s.cluster k).rail = x.val → b ∈ (s.cluster k).banks → b.2.mode ≠ 0 → s.ctx? b.2.owner = some c →
      ∃ d, t.ctx? b.2.owner = some d ∧ d.unrecoverable = true)) ∧
  (∀ die temp s, s.sh.railsOff = false → ∃ t, exec (.thermalShutdown die temp) s = .next t ∧ t.sh.railsOff = true ∧
    (∀ b y, s.blk? b = some y → y.life = .resident → ∃ z, t.blk? b = some z ∧ z.life = .saved ∧ z.form = 4) ∧
    ∀ hp, (s.port hp).trap.en = true → (s.port hp).trap.held = [] → ringUsed (s.port hp).trap < ringSize (s.port hp).trap →
      ∃ e, (t.port hp).trap.held = [{ own := false, grp := none, bytes := e }] ∧ e.take 2 = [9, 2] ∧
        (e.drop 32).take 4 = [BitVec.ofNat 8 die.val, 0] ++ leBytes 2 temp.toNat) ∧
  (∀ (x : Fin 4) s, ∃ t, exec (.ballastInjection x) s = .next t ∧ t = { s with cores := t.cores, free := s.free + 1, meter := t.meter } ∧
    ∀ c, t.cyc c = s.cyc c ∧ t.etm c = s.etm c ∧
      t.core c = { s.core c with tail := (t.core c).tail, cyc := (t.core c).cyc, sync := (t.core c).sync }) ∧
  (∀ (x : Fin 4) s, ∃ n, exec (.undervoltInterval x) s = .next (modReg s x.val (fun r => { r with step := n, ceCount := 0 })) ∧
    let r := s.reg x.val
    if ¬(r.uvEn = true ∧ r.shared = false ∧ ∀ c ∈ residents s, (s.cluster (clusterOf c.2.core)).rail = x.val → c.2.opts.underv = true)
    then n = 0
    else if r.celim.toNat < r.ceCount then n = r.step - 1
    else n = if r.step < 12 then r.step + 1 else r.step) ∧
  (∀ s, ∃ t, exec .energyMeter s = .next t ∧ t = { s with meter := [], sh := { s.sh with enacct := t.sh.enacct } } ∧
    ∀ k, k < 17 → (tget t.sh.enacct k 0).toNat = min (2 ^ 64 - 1) ((tget s.sh.enacct k 0).toNat + energyOf s k) ∧
      (k < 16 → (∀ u, u < 102 → tget s.meter (32 * u + k) 0 = 0) → energyOf s k = 0))

/-- R65, R192, R61, R64, R67, R75, R166, R74: patrol and refresh change no value, and poison a sector where they find an
uncorrectable error, refresh only what R190 and R192 refresh; a failed in-field test is recorded and retires its lane, the fifth its core; a late quarantine has
the core's blocks leave at their next point; a matrix unit reset 100 µs after it stopped leaves accumulators as they were; the Assayer's jobs. The model's
choice: an undetected error makes a wrong digest, and any other re-run the right one (log entry 13), and which entry a reset writes
(log entry 28). -/
def Obligations.reliability_events : Prop :=
  (∀ k s, (16 * k ∉ s.latent → exec (.patrolScrub k) s = .next s) ∧
    (16 * k ∈ s.latent → ∃ t, exec (.patrolScrub k) s = .next t ∧ t.mem = s.mem ∧ t.blocks = s.blocks ∧ 16 * k ∈ t.poison ∧ 16 * k ∉ t.latent)) ∧
  (∀ n s, (refreshes s (4096 * n) = false → exec (.refresh n) s = .next s) ∧
    (refreshes s (4096 * n) = true → ∃ t, exec (.refresh n) s = .next t ∧ t.mem = s.mem ∧ t.clusters = s.clusters ∧ t.blocks = s.blocks ∧
      ∀ j, j < 256 → 4096 * n + 16 * j ∉ t.latent ∧ (4096 * n + 16 * j ∈ s.latent → 4096 * n + 16 * j ∈ t.poison))) ∧
  (∀ b x o (s : State), s.blk? b = some x → x.life = .resident → o < 2 ^ 23 → (refreshes s (scrLoc b o) = true ↔
    let g := scrGran x o
    g.freed = false ∧ (tget s.sh.hot (placeOf s (scrLoc b o)).die false = true ∨ g.cls = 0 ∨ (g.cls = 3 ∧ (s.etm x.core : Int) < g.spanEnd)))) ∧
  (∀ core lane s, exec (.inFieldTest core lane false) s = .next s) ∧
  (∀ core (lane : Fin 64) s, core < 768 → (s.core (holder s core)).enabled = true → ∃ t, exec (.inFieldTest core lane true) s = .next t ∧
    let c := holder s core
    let p := tget (s.core c).spares lane.val lane.val
    tget? (t.core c).resid p = some (s.etm c) ∧ t.mem = s.mem ∧
    (sparesUsed (s.core c) < 4 → tget? (t.core c).spares lane.val = some (64 + sparesUsed (s.core c)) ∧ (t.core c).enabled = true) ∧
    (4 ≤ sparesUsed (s.core c) → (t.core c).enabled = false)) ∧
  (∀ core s, (s.core core).quar = true → (s.core core).quarAt + usTicks 200 ≤ s.now →
    (∃ c ∈ residents s, c.2.core = core ∧ c.2.relocate = false) → ∃ t, exec (.quarantineTimeout core) s = .next t ∧
      (∀ b x, s.blk? b = some x → x.life = .resident → x.core = core → t.blk? b = some { x with relocate := true }) ∧
      (∀ b, (∀ c ∈ residents s, c.1 = b → c.2.core ≠ core) → t.blk? b = s.blk? b) ∧ t = { s with blocks := t.blocks }) ∧
  (∀ core (part : Fin 4) s, (∃ b x, ∃ g : Nat, ∃ y : Group, ∃ f since, s.blk? b = some x ∧ x.life = .resident ∧ x.core = core ∧ x.groups[g]? = some y ∧
      y.e.mma = some f ∧ partOf y.q.lane = part.val ∧ f.stuck = some since ∧ since + usTicks 100 ≤ s.etm core) → ∃ t, exec (.matrixUnitReset core part) s = .next t ∧ t.mem = s.mem ∧
    (∃ hp e r, (t.port hp).trap.held = (s.port hp).trap.held ++ e :: r ∧ e.bytes.take 2 = [5, 0]) ∧
    ∀ b x (g : Nat) (y : Group) f, s.blk? b = some x → x.life = .resident → x.core = core → x.groups[g]? = some y → y.e.mma = some f → partOf y.q.lane = part.val →
      ∃ z, t.grp? b g = some z ∧ z.e.mma = none ∧ z.r.v = y.r.v ∧ z.r.s = y.r.s ∧ z.r.sticky = y.r.sticky ||| 0x40) ∧
  (∀ n j s, tget? s.jobs n = some j → s.now < j.endAt + msTicks 50 →
    (j.replay = none → assayCores s j.tenant [clusterOf j.core] ≠ [] → ∃ t c d, exec (.assayReplay n) s = .next t ∧
      tget? t.jobs n = some { j with replay := some (c, d) } ∧ coreTakes s c = true ∧ clusterOf c ≠ clusterOf j.core ∧
      (c ∉ s.silent → immStale s j = false → d = j.truth) ∧ t.mem = s.mem ∧ t.blocks = s.blocks) ∧
    (∀ r, j.replay = some r → j.differs = false → ∃ t, exec (.assayCompare n) s = .next t ∧ t.mem = s.mem ∧ t.blocks = s.blocks ∧
      if r.2 = j.digest then tget? t.jobs n = none ∧ t.sh.cntMatch = (if s.sh.cntMatch = 0xFFFF then 0xFFFF else s.sh.cntMatch + 1)
      else tget? t.jobs n = some { j with differs := true } ∧
        t.sh.cntMismatch = (if s.sh.cntMismatch = 0xFFFF then 0xFFFF else s.sh.cntMismatch + 1)) ∧
    (∀ r, j.replay = some r → j.differs = true → clusterOf r.1 ≠ clusterOf j.core →
      assayCores s j.tenant [clusterOf j.core, clusterOf r.1] ≠ [] → ∃ t c d, exec (.assayThirdRun n) s = .next t ∧ tget? t.jobs n = none ∧
        clusterOf c ≠ clusterOf j.core ∧ clusterOf c ≠ clusterOf r.1 ∧ t.mem = s.mem ∧
        (d = j.digest → (t.core r.1).score = min 1023 ((s.core r.1).score + 256)) ∧
        (d ≠ j.digest → d = r.2 → (t.core j.core).score = min 1023 ((s.core j.core).score + 256)) ∧
        (d ≠ j.digest → d ≠ r.2 → (t.core j.core).score = min 1023 ((s.core j.core).score + 128) ∧
          (t.core r.1).score = min 1023 ((s.core r.1).score + 128)))) ∧
  (∀ n j s, tget? s.jobs n = some j → j.endAt + msTicks 50 ≤ s.now → ∃ t, exec (.assayBoundExpiry n) s = .next t ∧ tget? t.jobs n = none ∧
    t.mem = s.mem ∧
    (j.replay = none ∨ j.differs = false → t.sh.cntSkipped = if s.sh.cntSkipped = 0xFFFF then 0xFFFF else s.sh.cntSkipped + 1) ∧
    (∀ r, j.replay = some r → j.differs = true → clusterOf r.1 ≠ clusterOf j.core →
      (t.core j.core).score = min 1023 ((s.core j.core).score + 128) ∧ (t.core r.1).score = min 1023 ((s.core r.1).score + 128)))

/-- R45 to R50, R52: a flit of a sequenced type with a valid CRC and the expected SEQ is delivered, forwarded or discarded; one with
another SEQ is ignored; a bad CRC is answered with one NAK; an Idle flit brings its ACK and its credits; a NAK replays. A sent flit
carries the next SEQ and a fresh CRC, and is kept; a flit of the device itself joins the send queue of its route with HOPS 15. That a
delivered memory request leaves memory as it was is the model's choice (log entry 15); so is what the expected SEQ of an Idle or NAK
flit is, that a flit sent again carries the ACK of the moment, and what a NAK with nothing kept counts (log entry 45). -/
def Obligations.link_flits : Prop :=
  (∀ (p : Fin 12) f s, (s.link p.val).up = true → (s.link p.val).training = false →
    (flitValid f = false → ∃ t, exec (.flitReceive p f) s = .next t ∧ t = { s with links := t.links } ∧
      (t.link p.val).rx = (s.link p.val).rx ∧ (t.link p.val).rxSeq = (s.link p.val).rxSeq ∧ (t.link p.val).naked = true ∧
      (if (s.link p.val).naked = true then (t.link p.val).out = (s.link p.val).out
       else ∃ g, (t.link p.val).out = (s.link p.val).out ++ [g] ∧ g.take 1 = [7] ∧ flitValid g = true)) ∧
    (flitValid f = true → flitType f ≠ 0 → flitType f ≠ 7 →
      (flitSeq f ≠ (s.link p.val).rxSeq + 1 → exec (.flitReceive p f) s = .next s) ∧
      (flitSeq f = (s.link p.val).rxSeq + 1 → ∃ t, exec (.flitReceive p f) s = .next t ∧ (t.link p.val).rxSeq = flitSeq f ∧
        (t.link p.val).naked = false ∧
        (flitOk f = false → (t.link p.val).badtype = true ∧ (t.link p.val).rx = (s.link p.val).rx) ∧
        (flitOk f = true → s.sh.devid ≠ 0xFFF → flitDst f = s.sh.devid.toNat → (t.link p.val).rx = (s.link p.val).rx ++ [f] ∧
          (flitType f ≠ 5 → t.mem = s.mem)) ∧
        (flitOk f = true → s.sh.devid ≠ 0xFFF → flitDst f ≠ s.sh.devid.toNat →
          let q := (tget s.sh.rtab (flitDst f / 8) 0xFFFFFFFF).toNat / 2 ^ (4 * (flitDst f % 8)) % 16
          (t.link p.val).rx = (s.link p.val).rx ∧
          (flitHops f ≠ 0 → q < 12 → (s.link q).up = true → (t.link q).sendq = (s.link q).sendq ++ [(some p.val, f.take 1 ++ [BitVec.ofNat 8 (flitHops f - 1)] ++ f.drop 2)]) ∧
          (flitHops f = 0 ∨ 12 ≤ q ∨ (s.link q).up = false → (t.link p.val).noroute = true ∧
            (flitType f ≠ 4 → flitType f ≠ 5 → ∀ k, (t.link k).sendq = (s.link k).sendq))))) ∧
    (flitValid f = true → flitType f = 0 ∨ flitType f = 7 → flitSeq f ≠ (s.link p.val).rxSeq + 1 → exec (.flitReceive p f) s = .next s) ∧
    (flitValid f = true → flitOk f = true → flitType f = 0 → flitSeq f = (s.link p.val).rxSeq + 1 → ∃ t, exec (.flitReceive p f) s = .next t ∧ t = { s with links := t.links } ∧
      (let n := (flitAck f - (s.link p.val).ackd).toNat
       (t.link p.val).replay = if n ≤ (s.link p.val).replay.length then (s.link p.val).replay.drop n else (s.link p.val).replay) ∧
      tget (t.link p.val).credits (fieldN f 6 1 / 64) 0 = min 64 (tget (s.link p.val).credits (fieldN f 6 1 / 64) 0 + fieldN f 6 1 % 64)) ∧
    (flitValid f = true → flitOk f = true → flitType f = 7 → flitSeq f = (s.link p.val).rxSeq + 1 → flitAck f = (s.link p.val).ackd → (s.link p.val).noProg < 8 →
      ∃ t, exec (.flitReceive p f) s = .next t ∧ (t.link p.val).out = (s.link p.val).out ++ resent (s.link p.val) ∧
        (t.link p.val).replays = min 0xFFFF ((s.link p.val).replays + 1))) ∧
  (∀ (l : Link) (k : Nat) g, l.replay[k]? = some g → g.length = 256 → ∃ h, (resent l)[k]? = some h ∧ flitValid h = true ∧
    flitSeq h = flitSeq g ∧ flitAck h = l.rxSeq ∧ flitType h = flitType g ∧ (h.drop 6).take 242 = (g.drop 6).take 242) ∧
  (∀ (p : Fin 12) o f r vc s, (s.link p.val).up = true → (s.link p.val).training = false → (s.link p.val).replay.length < 512 →
    (s.link p.val).sendq = (o, f) :: r → f.length = 256 → flitVc (flitType f) = some vc → 0 < tget (s.link p.val).credits vc 0 →
    s.sh.devid ≠ 0xFFF → ∃ t g, exec (.flitSend p) s = .next t ∧ t = { s with links := t.links } ∧ (t.link p.val).sendq = r ∧
      (t.link p.val).out = (s.link p.val).out ++ [g] ∧ (t.link p.val).replay = (s.link p.val).replay ++ [g] ∧
      (t.link p.val).txSeq = (s.link p.val).txSeq + 1 ∧ tget (t.link p.val).credits vc 0 = tget (s.link p.val).credits vc 0 - 1 ∧
      flitValid g = true ∧ flitSeq g = (s.link p.val).txSeq ∧ flitAck g = (s.link p.val).rxSeq ∧ flitType g = flitType f ∧
      (g.drop 7).take 241 = (f.drop 7).take 241) ∧
  (∀ (p : Fin 12) s, (s.link p.val).up = true → (s.link p.val).training = false → (s.link p.val).sendq = [] →
    (∃ c ∈ (s.link p.val).owed, 0 < c.2) → ∃ t g, exec (.flitSend p) s = .next t ∧ t = { s with links := t.links } ∧
      (t.link p.val).out = (s.link p.val).out ++ [g] ∧ flitType g = 0 ∧ flitValid g = true ∧ flitSeq g = (s.link p.val).txSeq ∧
      (t.link p.val).txSeq = (s.link p.val).txSeq ∧ (t.link p.val).replay = (s.link p.val).replay) ∧
  (∀ type dst tag l (s : State), type < 8 → dst < 4096 → l.length ≤ 232 →
    let q := (tget s.sh.rtab (dst / 8) 0xFFFFFFFF).toNat / 2 ^ (4 * (dst % 8)) % 16
    q < 12 → (s.link q).up = true → ∃ t f, originate s type dst tag l = (true, t) ∧ t = { s with links := t.links } ∧
      (t.link q).sendq = (s.link q).sendq ++ [(none, f)] ∧ f.length = 248 ∧ flitType f = type ∧ flitHops f = 15 ∧ flitDst f = dst ∧
      (f.drop 16).take l.length = l)

/-- R48, R49, R51, R53, R55, R58, R59, R60: replays and retraining of a port, its training by the manager; how a collective completes and how
it is aborted, each once the group's older ones have. That the peers' contributions and the end of a training arrive as events is the model's choice
(log entry 12); so are what a training leaves of REPLAYS, of the credits, of the flits kept and of the acknowledgement timer, and the
send queue of a link that fails (log entry 45), and the layout of the flits that spread an abort (log entry 44). -/
def Obligations.port_and_collective_events : Prop :=
  (∀ (p : Fin 12) s, (s.link p.val).up = true → (s.link p.val).training = false → (s.link p.val).replay ≠ [] →
    let l := s.link p.val
    (s.now < l.ackAt + usTicks 1 → exec (.ackTimeout p) s = .next s) ∧
    (l.ackAt + usTicks 1 ≤ s.now → exec (.ackTimeout p) s = .next (modLink s p.val (fun _ =>
      if l.noProg < 8 then { l with replays := min 0xFFFF (l.replays + 1), noProg := l.noProg + 1, ackAt := s.now, out := l.out ++ resent l }
      else { l with noProg := 0, training := true, retrains := 0, trainAt := s.now })))) ∧
  (∀ (p : Fin 12) s, (s.link p.val).up = true → (s.link p.val).training = true →
    (s.now < (s.link p.val).trainAt + usTicks 100 → exec (.retrainTimeout p) s = .next s)) ∧
  (∀ (p : Fin 12) s, (s.link p.val).up = true → (s.link p.val).training = true → (s.link p.val).trainAt + usTicks 100 ≤ s.now →
    ((s.link p.val).retrains < 2 → exec (.retrainTimeout p) s = .next (modLink s p.val (fun l => { l with retrains := l.retrains + 1, trainAt := s.now }))) ∧
    (2 ≤ (s.link p.val).retrains → ∃ t, exec (.retrainTimeout p) s = .next t ∧ (t.link p.val).up = false ∧ (t.link p.val).training = false ∧
      (t.link p.val).replay = [] ∧ (t.link p.val).sendq = [] ∧
      (∀ k, k ≠ p.val → (t.link k).up = (s.link k).up ∧ (t.link k).replay = (s.link k).replay ∧ (t.link k).rx = (s.link k).rx) ∧
      (∀ cid c, (cid, c) ∈ s.colls → usesPort s p.val c = true → ∀ d, tget? t.colls cid = some d → d.fin ≠ none))) ∧
  (∀ (p : Fin 12) (vc : Fin 4) n s, (s.link p.val).up = true → tget? (s.link p.val).starve vc.val = some n →
    (n + msTicks 1 ≤ s.now → exec (.creditStall p vc) s = .next (modLink s p.val (fun l => { l with stall := true }))) ∧
    (s.now < n + msTicks 1 → exec (.creditStall p vc) s = .next s)) ∧
  (∀ now l vc, vc < 4 → tget? (noteStarve now l).starve vc =
    if (∃ f ∈ l.sendq, flitVc (flitType f.2) = some vc) ∧ tget l.credits vc 0 = 0 then some ((tget? l.starve vc).getD now) else none) ∧
  (∀ hp (p : Fin 12) s, s.up = true → s.sh.mgr = hp → (s.link p.val).en = false → ∃ t, exec (.portTrain hp p) s = .next t ∧
    t = { s with links := t.links } ∧ (t.link p.val).en = true ∧ (t.link p.val).training = true ∧ (t.link p.val).up = false ∧
    (t.link p.val).txSeq = 0 ∧ (t.link p.val).rxSeq = 0xFFFF ∧ (t.link p.val).replay = [] ∧ ∀ k, k ≠ p.val → t.link k = s.link k) ∧
  (∀ (p : Fin 12) s, (s.link p.val).training = true → ∃ t, exec (.portTrained p) s = .next t ∧ t = { s with links := t.links } ∧
    (t.link p.val).up = true ∧ (t.link p.val).training = false ∧ (t.link p.val).replays = 0 ∧
    (t.link p.val).out = (s.link p.val).out ++ resent (s.link p.val) ∧
    ∀ vc, vc < 4 → tget (t.link p.val).credits vc 0 = if (s.link p.val).up = true then tget (s.link p.val).credits vc 0 else 64) ∧
  (∀ cid c x y o k p xs peers bad s, CollOf s cid c x y o → c.bad = false → c.susp = none → x.life = .resident → s.ctx? x.ctx = some k →
    engPass s c.blk c.grp = some p →
    let i := collRank s c
    let n := collSize c.fmt * c.n
    let own := if c.op = .bc ∧ i ≠ c.root then (.ok [] false, [], s) else engRun s p .dev c.src.toNat n n []
    own.1 = .ok [] false → contributions c (collIds s c).length i own.2.1 peers bad = some xs →
    let res := collResult c (collIds s c).length i xs
    let u := findDest own.2.2 p.B.ctx k c res.length
    let bad0 := if c.op = .bc then (xs.getD c.root []).any (fun b => b.2) else xs.any (fun l => l.any (fun b => b.2))
    collCheck u k c res.length = .ok → ∃ t, exec (.collectiveComplete cid peers bad) s = .next t ∧
      t.mem = (collWrite p cid (collPieces c.dst.toNat res (ceilDiv res.length 16)) (note 96 (ctxTenant u p.B.ctx) res.length u)).mem ∧
      t.links = s.links ∧
      CollEnded t cid c y o (BitVec.ofNat 32 (c.seq.toNat % 2 ^ 24 * 2 ^ 8 + if bad0 = true then 2 ^ 4 else 0))) ∧
  (∀ cid (cause : BitVec 4) c x y o s, CollOf s cid c x y o → 1 ≤ cause.toNat → cause.toNat ≤ 5 →
    ∃ t, exec (.collectiveAbort cid cause) s = .next t ∧ CollAborted s t cid c x y o cause.toNat ∧ t.links = s.links) ∧
  (∀ cid (cause : BitVec 4) c y q s, tget? s.colls cid = some c → c.fin = none → s.grp? c.blk c.grp = some y → y.uid = c.uid →
    y.e.ops.find? isColl = some q → q.cid ≠ cid → 1 ≤ cause.toNat → cause.toNat ≤ 5 → ∃ t n, n < 2 ∧ exec (.collectiveAbort cid cause) s = .next t ∧
      tget? t.colls cid = some { c with fin := some (BitVec.ofNat 32 (c.seq.toNat % 2 ^ 24 * 2 ^ 8 + 2 ^ 4 * n + cause.toNat)) } ∧ t.blocks = s.blocks) ∧
  (∀ cid (cause : BitVec 4) s, cause.toNat = 0 ∨ 5 < cause.toNat → exec (.collectiveAbort cid cause) s = .next s) ∧
  (∀ cid c x y o s, CollOf s cid c x y o → c.since + msTicks 50 ≤ s.now →
    ∃ t, exec (.collectiveTimeout cid) s = .next t ∧ CollAborted s t cid c x y o 4 ∧ t.links = (collSpread s 1 4 c).2.links) ∧
  (∀ cid c s, tget? s.colls cid = some c → s.now < c.since + msTicks 50 → exec (.collectiveTimeout cid) s = .next s)

/-- R78, R7, R79: reads and writes of BAR A: the read latch, halves of 64-bit registers, action registers, RO and RW1C fields, and the
shared blocks, which only the manager port writes; the trigger's fields (R93); TRRIX and SUBSEQ (R158, R84). -/
def Obligations.bar_a_accesses : Prop :=
  (∀ hp (off : BitVec 26) n s, s.up = true →
    ((n ≠ 4 ∧ n ≠ 8) ∨ off.toNat % n ≠ 0 →
      exec (.readLatchLoad hp off n) s = .next (modHost s hp (fun h => { h with resp := List.replicate n 0, respPoison := false, badacc := true }))) ∧
    (off.toNat % 4 = 0 → regAt off.toNat = none →
      exec (.readLatchLoad hp off 4) s = .next (modHost s hp (fun h => { h with resp := [0, 0, 0, 0], respPoison := false }))) ∧
    (∀ r, off.toNat % 4 = 0 → regAt off.toNat = some r → r.wide = false →
      exec (.readLatchLoad hp off 4) s = .next (modHost s hp (fun h => { h with resp := leBytes 4 (regValue s hp r), respPoison := false }))) ∧
    (∀ r, off.toNat % 8 = 0 → regAt off.toNat = some r → r.wide = true → regAt (off.toNat + 4) = some r →
      exec (.readLatchLoad hp off 8) s = .next (modHost s hp (fun h => { h with resp := leBytes 8 (regValue s hp r), respPoison := false })) ∧
      exec (.readLatchLoad hp off 4) s = .next (modHost s hp (fun h =>
        { h with resp := leBytes 4 (regValue s hp r), respPoison := false,
                 rlatch := some (off.toNat, BitVec.ofNat 32 (regValue s hp r / 2 ^ 32)) })) ∧
      exec (.readLatchLoad hp (off + 4) 4) s = .next (modHost s hp (fun h =>
        { h with resp := (match (s.port hp).reg.rlatch with
                    | some (o, w) => if o = off.toNat then leBytes 4 w.toNat else leBytes 4 (regValue s hp r / 2 ^ 32)
                    | none => leBytes 4 (regValue s hp r / 2 ^ 32)), respPoison := false })))) ∧
  (∀ hp (off : BitVec 26) n v s, s.up = true →
    ((n ≠ 4 ∧ n ≠ 8) ∨ off.toNat % n ≠ 0 → exec (.registerWrite hp off n v) s = .next (modHost s hp (fun h => { h with badacc := true }))) ∧
    (∀ r, off.toNat % 4 = 0 → regAt off.toNat = some r → r.action = true →
      exec (.registerWrite hp off 4 v) s = .next (modHost s hp (fun h => { h with badacc := true }))) ∧
    (off.toNat % 4 = 0 → regAt off.toNat = none → exec (.registerWrite hp off 4 v) s = .next
      (if 0x100000 ≤ off.toNat ∧ off.toNat < 0x600000 ∧ s.sh.mgr ≠ hp then modHost s hp (fun h => { h with denied := true }) else s))) ∧
  (∀ hp (v : BitVec 64) s, s.up = true →
    let n := v.toNat
    let q := BitVec.ofNat 32 (n / 2 ^ 32)
    let g := BitVec.ofNat 10 (n / 2 ^ 18)
    exec (.registerWrite hp 0 8 v) s =
      if n / 2 ^ 28 % 4 = 0 then exec (.triggerLaunch hp q (v.getLsbD 31) (v.getLsbD 30) g (BitVec.ofNat 18 n)) s
      else if n / 2 ^ 28 % 4 = 1 then exec (.triggerLoad hp q g (BitVec.ofNat 18 n)) s
      else if n / 2 ^ 28 % 4 = 2 then exec (.triggerUnload hp q g) s
      else exec (.triggerBadop hp q g) s) ∧
  (∀ hp (v : BitVec 64) s, s.up = true →
    let old := (s.port hp).sub.crbase
    exec (.registerWrite hp 0x48 8 v) s = .next (modSub s hp (fun q => { q with crbase := v &&& 0xFFFFFFFFFFFFFFC0 })) ∧
    exec (.registerWrite hp 0x48 4 v) s = .next (modSub s hp (fun q =>
      { q with crbase := ((old &&& 0xFFFFFFFF00000000) ||| (v &&& 0xFFFFFFFF)) &&& 0xFFFFFFFFFFFFFFC0 })) ∧
    exec (.registerWrite hp 0x4C 4 v) s = .next (modSub s hp (fun q =>
      { q with crbase := ((v <<< 32) ||| (old &&& 0xFFFFFFFF)) &&& 0xFFFFFFFFFFFFFFC0 })) ∧
    exec (.registerWrite hp 0x58 4 v) s = .next (modSub s hp (fun q => { q with crd := v.setWidth 32 })) ∧
    exec (.registerWrite hp 0x60 4 v) s = .next s ∧
    exec (.registerWrite hp 0x30000 4 v) s = .next (modHost s hp (fun h =>
      { h with unbacked := h.unbacked && !v.getLsbD 4, seqerr := h.seqerr && !v.getLsbD 3, denied := h.denied && !v.getLsbD 2,
               badacc := h.badacc && !v.getLsbD 1 })) ∧
    exec (.registerWrite hp 0x500000 4 v) s = .next
      (if s.sh.mgr = hp then { s with sh := { s.sh with mgr := if v.getLsbD 0 = true then .B else .A } }
       else modHost s hp (fun h => { h with denied := true }))) ∧
  (∀ hp (v : Word) s, s.up = true →
    exec (.subseqWrite hp v) s = .next (if (s.port hp).sub.open1 = [] then modSub s hp (fun q => { q with subseq := v }) else s) ∧
    ((s.port hp).trap.open1 = [] → exec (.trrixWrite hp v) s = .next (modTrap s hp (fun r => { r with rix := v }))) ∧
    (∀ n b g x c, (s.port hp).trap.open1 = [(n, b, g)] → v ≠ n → (v - n).toNat < 2 ^ 31 → s.blk? b = some x → s.ctx? x.ctx = some c →
      ∃ t d, exec (.trrixWrite hp v) s = .next t ∧ (t.port hp).trap.rix = v ∧ (t.port hp).trap.open1 = [] ∧ t.ctx? x.ctx = some d ∧
        d.killed = true))

/-- R81, R82, R212, R61, R77: BAR B reads and writes the port's half of the coherent window; BAR C, up to its size, reads and writes
physical memory and does its AtomicOps; an unbacked address reads zero and sets UNBACKED. No stated read finds a latent error.
That an access past BAR C's size and a misaligned AtomicOp do nothing is the model's choice (log entry 21); so is the strap that gives that
size (log entry 46). -/
def Obligations.bar_b_and_bar_c_accesses : Prop :=
  (∀ hp (off : BitVec 22) n s, s.up = true → s.latent = [] → off.toNat + n ≤ 2 ^ 22 →
    exec (.hostWindowAccess hp off (.read n)) s = .next (modHost s hp (fun h =>
      { h with resp := mgetN s.mem (winLoc (halfOff hp off.toNat)) n, respPoison := poisoned s (winLoc (halfOff hp off.toNat)) n }))) ∧
  (∀ hp (off : BitVec 22) l s, s.up = true → off.toNat + l.length ≤ 2 ^ 22 → ∃ t, exec (.hostWindowAccess hp off (.write l)) s = .next t ∧
    t = { s with mem := t.mem, hist := t.hist } ∧ mgetN t.mem (winLoc (halfOff hp off.toNat)) l.length = l ∧
    ∀ a, a < winLoc (halfOff hp off.toNat) ∨ winLoc (halfOff hp off.toNat) + l.length ≤ a → mget t.mem a = mget s.mem a) ∧
  (∀ hp (fn1 : Bool) (off : BitVec 42) n s, s.up = true →
    let pa := (if fn1 then (s.port hp).reg.apbase1 else (s.port hp).reg.apbase0).toNat * 2 ^ 30 + off.toNat
    let k := min n (0x30000000000 - pa)
    let has := (fn1 = true → Config.bifurcated (hp == .B) = true) ∧
      off.toNat + n ≤ 2 ^ (30 + if fn1 then (s.port hp).reg.barC1 else (s.port hp).reg.barC0)
    (¬has → exec (.hostRawRead hp fn1 off n) s = .next s) ∧
    (has → s.latent = [] → s.hist = [] → exec (.hostRawRead hp fn1 off n) s = .next (modHost s hp (fun h =>
      { h with resp := mgetN s.mem pa k ++ List.replicate (n - k) 0, respPoison := poisoned s pa k, unbacked := h.unbacked || decide (k < n) }))) ∧
    (has → 0x30000000000 ≤ pa → 0 < n → exec (.hostRawRead hp fn1 off n) s = .next (modHost s hp (fun h =>
      { h with resp := List.replicate n 0, respPoison := false, unbacked := true })))) ∧
  (∀ hp (fn1 : Bool) (off : BitVec 42) l s, s.up = true →
    let pa := (if fn1 then (s.port hp).reg.apbase1 else (s.port hp).reg.apbase0).toNat * 2 ^ 30 + off.toNat
    let k := min l.length (0x30000000000 - pa)
    let has := (fn1 = true → Config.bifurcated (hp == .B) = true) ∧
      off.toNat + l.length ≤ 2 ^ (30 + if fn1 then (s.port hp).reg.barC1 else (s.port hp).reg.barC0)
    (¬has → exec (.hostRawWrite hp fn1 off l) s = .next s) ∧
    (has → ∃ t, exec (.hostRawWrite hp fn1 off l) s = .next t ∧
      t = { modHost s hp (fun h => { h with unbacked := h.unbacked || decide (k < l.length) }) with
            mem := t.mem, hist := t.hist, stamp := t.stamp, poison := t.poison, latent := t.latent } ∧
      mgetN t.mem pa k = l.take k ∧ (∀ p, p ∈ t.poison ↔ p ∈ s.poison ∧ ¬(pa ≤ p ∧ p + 16 ≤ pa + k)) ∧
      ∀ a, a < pa ∨ pa + k ≤ a → mget t.mem a = mget s.mem a)) ∧
  (∀ hp (fn1 : Bool) (off : BitVec 42) op n s, s.up = true → s.latent = [] →
    let pa := (if fn1 then (s.port hp).reg.apbase1 else (s.port hp).reg.apbase0).toNat * 2 ^ 30 + off.toNat
    (n = match op with | .fetchAdd w _ => if w then 8 else 4 | .swap w _ => if w then 8 else 4 | .cas w _ _ => if w then 8 else 4) →
    let has := (fn1 = true → Config.bifurcated (hp == .B) = true) ∧
      off.toNat + n ≤ 2 ^ (30 + if fn1 then (s.port hp).reg.barC1 else (s.port hp).reg.barC0)
    (¬has ∨ pa % n ≠ 0 → exec (.hostAtomicOp hp fn1 off op) s = .next s) ∧
    (has → pa % n = 0 → 0x30000000000 ≤ pa → exec (.hostAtomicOp hp fn1 off op) s = .next (modHost s hp (fun h =>
      { h with resp := List.replicate n 0, respPoison := false, unbacked := true }))) ∧
    (has → pa % n = 0 → pa < 0x30000000000 → poisoned s pa n = true → exec (.hostAtomicOp hp fn1 off op) s = .next (modHost s hp (fun h =>
      { h with resp := mgetN s.mem pa n, respPoison := true }))) ∧
    (has → pa % n = 0 → pa < 0x30000000000 → poisoned s pa n = false → ∃ t, exec (.hostAtomicOp hp fn1 off op) s = .next t ∧
      (t.port hp).reg.resp = mgetN s.mem pa n ∧ (t.port hp).reg.respPoison = false ∧
      leNat (mgetN t.mem pa n) = (let old := leNat (mgetN s.mem pa n)
        match op with
        | .fetchAdd _ v => (old + v.toNat) % 2 ^ (8 * n)
        | .swap _ v => v.toNat % 2 ^ (8 * n)
        | .cas _ c v => if old = c.toNat % 2 ^ (8 * n) then v.toNat % 2 ^ (8 * n) else old) ∧
      ∀ a, a < pa ∨ pa + n ≤ a → mget t.mem a = mget s.mem a))

/-- R83, R94, R97, R98, R99, R101, R104: submissions with the expected number: loads and unloads, launches and what ends them at
acceptance; the start of an instance patches its graph; a node's dispatch makes its blocks Ready, fails it, or retires an empty one.
That a killed context is judged before a patch error, and that before a full device, and a bad header before the count, is the model's choice
(log entry 36). -/
def Obligations.launch_events : Prop :=
  (∀ hp (q : Word) s, s.up = true → (s.port hp).sub.subseq ≠ q →
    let t := modHost s hp (fun h => { h with seqerr := true })
    (∀ a b g o, exec (.triggerLaunch hp q a b g o) s = .next t) ∧ (∀ g o, exec (.triggerLoad hp q g o) s = .next t) ∧
    (∀ g, exec (.triggerUnload hp q g) s = .next t) ∧ ∀ g, exec (.triggerBadop hp q g) s = .next t) ∧
  (∀ hp (q : Word) s, s.up = true → (s.port hp).sub.subseq = q →
    let u := (s.port hp).sub
    let done (g st : Nat) : CompRec := { cseq := 0, sseq := q, kind := 0, status := st, graph := g, bytes := 0, time := s.now, stamp := 0 }
    let idle (g : Nat) : Prop := ∀ c ∈ s.insts, ¬(c.2.port = hp ∧ c.2.graph = g)
    (∀ (g : BitVec 10), ∃ t, exec (.triggerBadop hp q g) s = .next t ∧ (t.port hp).sub =
      { u with subseq := q + 1, waiting := u.waiting ++ [done g.toNat 2], open1 := u.open1.filter (fun x => x != q) }) ∧
    (∀ (g : BitVec 10), ∃ t, exec (.triggerUnload hp q g) s = .next t ∧
      (¬idle g.toNat → (t.port hp).sub = { u with subseq := q + 1, loadGraph := g, loadStat := 1 }) ∧
      (idle g.toNat → tget? u.graphs g.toNat = none → (t.port hp).sub = { u with subseq := q + 1, loadGraph := g, loadStat := 6 }) ∧
      (idle g.toNat → tget? u.graphs g.toNat ≠ none →
        (t.port hp).sub = { u with subseq := q + 1, loadGraph := g, loadStat := 0, graphs := tdel u.graphs g.toNat })) ∧
    (∀ (g : BitVec 10) o, ∃ t, exec (.triggerLoad hp q g o) s = .next t ∧
      (¬idle g.toNat → (t.port hp).sub = { u with subseq := q + 1, loadGraph := g, loadStat := 1 }) ∧
      (idle g.toNat → parseGraph s hp (16 * o.toNat) = none → (t.port hp).sub = { u with subseq := q + 1, loadGraph := g, loadStat := 2 }) ∧
      (∀ x, idle g.toNat → parseGraph s hp (16 * o.toNat) = some x →
        ((∀ c, s.ctx? x.ctx = some c → c.killed = true ∨ c.port ≠ hp) → (t.port hp).sub = { u with subseq := q + 1, loadGraph := g, loadStat := 3 }) ∧
        (∀ c, s.ctx? x.ctx = some c → c.killed = false → c.port = hp →
          ((∃ n ∈ x.nodes, tenantBound s hp n.opts.tenant = false) → (t.port hp).sub = { u with subseq := q + 1, loadGraph := g, loadStat := 4 }) ∧
          ((∀ n ∈ x.nodes, tenantBound s hp n.opts.tenant = true) →
            (t.port hp).sub = if 16384 < ((tdel u.graphs g.toNat).foldl (fun k c => k + c.2.nodes.length) 0) + x.nodes.length
              then { u with subseq := q + 1, loadGraph := g, loadStat := 5 }
              else { u with subseq := q + 1, loadGraph := g, loadStat := 0, graphs := tset u.graphs g.toNat x })))) ∧
    (∀ (g : BitVec 10) a b o, tget? u.graphs g.toNat = none → ∃ t, exec (.triggerLaunch hp q a b g o) s = .next t ∧ (t.port hp).sub =
      { u with subseq := q + 1, waiting := u.waiting ++ [done g.toNat 1], open1 := u.open1.filter (fun x => x != q) }) ∧
    (∀ (g : BitVec 10) a b (o : BitVec 18) x, tget? u.graphs g.toNat = some x →
      let l := winLoc (halfOff hp (16 * o.toNat))
      let n := leNat (mgetN s.mem l 4)
      let ent (k : Nat) : Nat := leNat (mgetN s.mem (l + 16 + 8 * k) 8)
      let bad := 1024 < n ∨ leNat (mgetN s.mem (l + 4) 12) ≠ 0 ∨ 2 ^ 22 < 16 * o.toNat + 16 + 8 * n ∨
        ∃ k, k < n ∧ (ent k / 2 ^ 16 % 2 ^ 16 ≠ 0 ∨ 16 * x.nodes.length ≤ ent k % 2 ^ 16)
      let full := 65536 ≤ (s.insts.filter (fun c => c.2.port == hp)).length
      let Fails (st : Nat) : Prop := ∃ t, exec (.triggerLaunch hp q a b g o) s = .next t ∧ t.mem = s.mem ∧ t.insts = s.insts ∧ (t.port hp).sub =
        { u with subseq := q + 1, waiting := u.waiting ++ [done g.toNat st], open1 := u.open1.filter (fun x => x != q) }
      ((∀ c, s.ctx? x.ctx = some c → c.killed = true) → Fails 7) ∧
      (∀ c, s.ctx? x.ctx = some c → c.killed = false → (a = true → bad → Fails 3) ∧ ((a = true → ¬bad) → full → Fails 4) ∧
        ((a = true → ¬bad) → ¬full → ∃ t i, exec (.triggerLaunch hp q a b g o) s = .next t ∧ t.mem = s.mem ∧
          (t.port hp).sub = { u with subseq := q + 1, open1 := u.open1 ++ [q] } ∧ tget? t.insts s.nextInst = some i ∧ i.ctx = x.ctx ∧
          i.port = hp ∧ i.sseq = q ∧ i.graph = g.toNat ∧ i.order = b ∧ i.started = false ∧
          i.patch = if a = true then (List.range n).map (fun k => (ent k % 2 ^ 16, BitVec.ofNat 32 (ent k / 2 ^ 32))) else [])))) ∧
  (∀ hp (q : Word) s, s.up = false → (∀ a b g o, exec (.triggerLaunch hp q a b g o) s = .next s) ∧ (∀ g o, exec (.triggerLoad hp q g o) s = .next s) ∧
    (∀ g, exec (.triggerUnload hp q g) s = .next s) ∧ ∀ g, exec (.triggerBadop hp q g) s = .next s) ∧
  (∀ n i x s, instStartable s n = true → tget? s.insts n = some i → tget? (s.port i.port).sub.graphs i.graph = some x →
    ∃ t y, exec (.instStart n) s = .next t ∧ tget? (t.port i.port).sub.graphs i.graph = some y ∧
      y.ctx = x.ctx ∧ y.nodes.length = x.nodes.length ∧
      (∀ k m, x.nodes[k]? = some m → ∃ m', y.nodes[k]? = some m' ∧ m' = { m with args := m'.args } ∧ m'.args.length = m.args.length ∧
        ∀ j, j < 16 → j < m.args.length →
          m'.args[j]? = match (i.patch.filter (fun e => e.1 == 16 * k + j)).getLast? with | some e => some e.2 | none => m.args[j]?) ∧
      tget? t.insts n = some { i with nodes := y.nodes, started := true, disp := y.nodes.map (fun _ => false), ret := y.nodes.map (fun _ => false) }) ∧
  (∀ n s, instStartable s n = false → exec (.instStart n) s = .next s) ∧
  (∀ n k i x c s, tget? s.insts n = some i → nodeReady s i k = true → i.nodes[k]? = some x → s.ctx? i.ctx = some c →
    let u := findDispatch s i x
    let Dispatched (h : Header) (m : Nat) : Prop := ∃ t, exec (.nodeDispatch n k) s = .next t ∧ t.mem = u.mem ∧
      t.blocks.length = u.blocks.length + m ∧
      ∀ j, j < m → ∃ y, t.blocks[u.blocks.length + j]? = some (u.nextBlk + j, y) ∧ y.life = .ready ∧ y.idx = j ∧ y.count = m ∧
        y.ctx = i.ctx ∧ y.h = h ∧ y.args = x.args ∧ y.troupe = j / h.troupe
    let Failed (st : Nat) : Prop := ∃ t, exec (.nodeDispatch n k) s = .next t ∧
      (∀ j, tget? t.insts n = some j → j.status = st ∧ t.blocks = u.blocks) ∧
      ((∀ d ∈ i.disp, d = false) → tget? t.insts n = none ∧ ∃ r, (t.port i.port).sub.waiting = (u.port i.port).sub.waiting ++ [r] ∧
        r.sseq = i.sseq ∧ r.kind = 0 ∧ r.status = st)
    (s.latent = [] → u = s) ∧
    (readHeader u c x.khdr = none → Failed 5) ∧
    (∀ h, readHeader u c x.khdr = some h → x.blocks.getLsbD 63 = false → Dispatched h (x.blocks.toNat % 2 ^ 32 + 1)) ∧
    (∀ h, readHeader u c x.khdr = some h → x.blocks.getLsbD 63 = true →
      (∀ pa l, access u c .read x.countVa = .ok pa l →
        (poisoned u pa 4 = true → Failed 6) ∧
        (poisoned u pa 4 = false → let m := leNat ((locs pa 4).map (publishedByte u))
          (0 < m → Dispatched h m) ∧
          (m = 0 → ∃ t, exec (.nodeDispatch n k) s = .next t ∧ t.mem = u.mem ∧
            ∀ j, tget? t.insts n = some j → j.disp = i.disp.set k true ∧
              ((∀ z ∈ u.blocks, ¬(z.2.inst = n ∧ z.2.node = k)) → i.ret.getD k true = false → j.ret = i.ret.set k true)))) ∧
      ((∀ pa l, access u c .read x.countVa ≠ .ok pa l) → Failed 6))) ∧
  (∀ n k i s, tget? s.insts n = some i → nodeReady s i k = false → exec (.nodeDispatch n k) s = .next s)

/-- R83, R85, R84, R158: flush commands are accepted in sequence; the flush at the head of a port is judged in R85's order; one that is
carried out whole copies its bytes. Records are rewritten from CRREPLAY and written in order, each where R84 says; a trap entry is
written and WIX advances. That CRREPLAY appends to the records still to be rewritten, and that LOST is set where nothing is kept, is the
model's choice (log entry 22). -/
def Obligations.flush_and_record_events : Prop :=
  (∀ hp (o : Bool) (n : Word) s, s.up = true →
    let u := (s.port hp).sub
    let q := u.fl0.setWidth 32
    let new (d : Nat) : Flush := { sseq := q, ctx := BitVec.ofNat 32 (u.fl0.toNat / 2 ^ 32), daddr := u.fl1, haddr := u.fl2, dir := d, len := n.toNat, order := o, stamp := s.stamp }
    let Took (t : State) (d : Nat) : Prop := t.mem = s.mem ∧ t.stamp = s.stamp + 1 ∧
      (t.port hp).sub = { u with subseq := q + 1, flushes := u.flushes ++ [new d], open1 := u.open1 ++ [q] }
    if u.subseq = q then
      (∃ t, exec (.flushDeviceToHost hp o n) s = .next t ∧ Took t 0) ∧ (∃ t, exec (.flushHostToDevice hp o n) s = .next t ∧ Took t 1) ∧
      (∀ d : BitVec 8, ∃ t, exec (.flushBadDir hp d o n) s = .next t ∧ Took t d.toNat)
    else
      let t := modHost s hp (fun h => { h with seqerr := true })
      exec (.flushDeviceToHost hp o n) s = .next t ∧ exec (.flushHostToDevice hp o n) s = .next t ∧
      ∀ d, exec (.flushBadDir hp d o n) s = .next t) ∧
  (∀ hp f r s, (s.port hp).sub.flushes = f :: r → (f.order = true → (s.port hp).sub.open1.head? = some f.sseq) →
    let Ends (t : State) (st n : Nat) : Prop := (t.port hp).sub.flushes = r ∧ ∃ x, (t.port hp).sub.waiting = (s.port hp).sub.waiting ++ [x] ∧
      x.sseq = f.sseq ∧ x.kind = 1 ∧ x.status = st ∧ x.bytes = n ∧ x.graph = 0
    let bad := f.daddr.toNat % 16 ≠ 0 ∨ f.haddr.toNat % 16 ≠ 0 ∨ f.len % 16 ≠ 0 ∨ canonical f.daddr = false ∨ 2 ≤ f.dir
    (bad → ∃ t, exec (.flushComplete hp) s = .next t ∧ t.mem = s.mem ∧ Ends t 1 0) ∧
    (¬bad → (∀ c, s.ctx? f.ctx = some c → c.killed = true) → ∃ t, exec (.flushComplete hp) s = .next t ∧ t.mem = s.mem ∧ Ends t 5 0) ∧
    (∀ c, ¬bad → s.ctx? f.ctx = some c → c.killed = false →
      (f.len = 0 → ∃ t, exec (.flushComplete hp) s = .next t ∧ t.mem = s.mem ∧ Ends t 0 0) ∧
      (∀ pa l, f.len ≠ 0 → f.daddr.toNat % 2 ^ 16 + f.len ≤ 2 ^ 16 → f.haddr.toNat + f.len ≤ 2 ^ 64 → pa + f.len ≤ 2 ^ 42 → pa % 16 = 0 →
        access s c (if f.dir = 0 then .read else .flush) f.daddr = .ok pa l → s.latent = [] → s.hist = [] →
        (s.port hp).sub.hosterr = none → (∀ m ∈ s.migs, m.transit = false) →
        let h := hostLoc hp f.haddr.toNat
        let src := if f.dir = 0 then pa else h
        let dst := if f.dir = 0 then h else pa
        ∃ t, exec (.flushComplete hp) s = .next t ∧ mgetN t.mem dst f.len = mgetN s.mem src f.len ∧
          (∀ a, a < dst ∨ dst + f.len ≤ a → mget t.mem a = mget s.mem a) ∧
          Ends t (if ∃ j, j < f.len / 16 ∧ src + 16 * j ∈ s.poison then 4 else 0) f.len) ∧
      (access s c (if f.dir = 0 then .read else .flush) f.daddr = .notPresent → f.len ≠ 0 → s.latent = [] →
        ∃ t, exec (.flushComplete hp) s = .next t ∧ t.mem = s.mem ∧ Ends t 2 0) ∧
      (access s c (if f.dir = 0 then .read else .flush) f.daddr ∈ [Acc.perm, .poisoned] → f.len ≠ 0 → s.latent = [] →
        ∃ t, exec (.flushComplete hp) s = .next t ∧ t.mem = s.mem ∧ Ends t 3 0))) ∧
  (∀ hp (v : Word) s, s.up = true →
    let u := (s.port hp).sub
    exec (.crReplay hp v) s = .next (modSub s hp (fun q =>
      if (v - u.cmpseq - 1).toNat < 2 ^ 31 then q
      else if (u.cmpseq - v).toNat + 1 ≤ u.kept.length
      then { q with replaying := u.replaying ++ u.kept.drop (u.kept.length - ((u.cmpseq - v).toNat + 1)) }
      else { q with replaying := u.replaying ++ u.kept, lost := true }))) ∧
  (∀ hp x r s,
    let u := (s.port hp).sub
    let size := 2 ^ (max 4 u.crcfg.toNat)
    let Wrote (t : State) (z : CompRec) : Prop :=
      let a := hostLoc hp ((u.crbase.toNat + z.cseq.toNat % size * 32) % 2 ^ 64)
      mgetN t.mem a 32 = leBytes 4 z.cseq.toNat ++ leBytes 4 z.sseq.toNat ++ [BitVec.ofNat 8 z.kind, BitVec.ofNat 8 z.status, 0, 0] ++
        leBytes 4 z.graph ++ leBytes 8 z.bytes ++ leBytes 8 z.time ∧
      (∀ q, q < a ∨ a + 32 ≤ q → mget t.mem q = mget s.mem q) ∧ (t.port hp).reg.msi0 = (s.port hp).reg.msi0 + 1
    (u.replaying = [] → u.waiting = x :: r → (u.cmpseq + 1 - u.crd).toNat < size → ∃ t, exec (.completionRecordWrite hp) s = .next t ∧
      (t.port hp).sub.waiting = r ∧ (t.port hp).sub.cmpseq = u.cmpseq + 1 ∧ Wrote t { x with cseq := u.cmpseq + 1, time := s.now } ∧
      (u.kept.length < 256 → (t.port hp).sub.kept = u.kept ++ [{ x with cseq := u.cmpseq + 1, time := s.now }])) ∧
    (u.replaying = x :: r → (x.cseq - u.crd).toNat < size → ∃ t, exec (.completionRecordWrite hp) s = .next t ∧
      (t.port hp).sub = { u with replaying := r } ∧ Wrote t x) ∧
    (u.replaying = [] → u.waiting = x :: r → size ≤ (u.cmpseq + 1 - u.crd).toNat → exec (.completionRecordWrite hp) s = .next s)) ∧
  (∀ hp h r s,
    let u := (s.port hp).trap
    u.en = true → u.held = h :: r → (u.wix - u.rix).toNat < ringSize u → h.bytes.length = 64 →
    u.base.toNat + 64 * ringSize u ≤ backedEnd → ∃ t, exec (.trapEntryWrite hp) s = .next t ∧
      (let a := u.base.toNat + u.wix.toNat % ringSize u * 64
       mgetN t.mem a 64 = h.bytes ∧ ∀ q, q < a ∨ a + 64 ≤ q → mget t.mem q = mget s.mem q) ∧
      (t.port hp).trap.held = r ∧ (t.port hp).trap.wix = u.wix + 1 ∧ (t.port hp).reg.msi1 = (s.port hp).reg.msi1 + 1 ∧
      (∀ b g, h.grp = some (b, g) → (u.wix, b, g) ∈ (t.port hp).trap.open1))

/-- R403, R404, R405: the debug registers: what a port may attach to, and its commands on the named group of the attached context: a
refusal where none is attached, the group is not there, or it is not Halted; else their effect and STATUS 0. The model's choice: an unlisted
command answers BADOP whatever is attached, and which of several blocks with one index a command names (log entry 26), and which group gives
up its slot at a resume (log entry 18). -/
def Obligations.debugger_events : Prop :=
  (∀ hp (v : Word) s, s.up = true →
    let d := (s.port hp).dbg
    let may := d.en = true ∧ (v = 0xFFFFFFFF ∨ ∃ c, s.ctx? v = some c ∧ c.port = hp ∧ tenantBound s hp c.tenant = true)
    (¬may → exec (.dbgctxWrite hp v) s = .next (modHost s hp (fun h => { h with denied := true }))) ∧
    (may → ∃ t, exec (.dbgctxWrite hp v) s = .next t ∧ (t.port hp).dbg = { d with ctx := v } ∧ t.mem = s.mem ∧
      (d.ctx = v ∨ d.ctx = 0xFFFFFFFF → t.blocks = s.blocks) ∧
      (d.ctx ≠ v → d.ctx ≠ 0xFFFFFFFF → ∀ b x (g : Nat) (y : Group) w, s.blk? b = some x → x.life = .resident ∨ x.life = .saved → x.ctx = d.ctx →
        x.groups[g]? = some y → y.q.status = .halted w → ∃ z, t.grp? b g = some z ∧ z.r = y.r ∧ z.thr = y.thr ∧
          (z.q.status = .active ∨ z.q.status = .pending)))) ∧
  (∀ hp s, s.up = true → exec (.dbgPop hp) s = .next (modDbg s hp (fun d => { d with posts := d.posts.drop 1 }))) ∧
  (∀ hp op s, s.up = true → exec (.dbgBadop hp op) s = .next (modDbg s hp (fun d => { d with done := true, status := 4 }))) ∧
  (∀ hp c s, s.up = true → (s.port hp).dbg.en = false ∨ (s.port hp).dbg.ctx = 0xFFFFFFFF →
    ∀ i ∈ [Instr.dbgHalt hp c, .dbgResume hp c, .dbgStep hp c, .dbgRdv hp c, .dbgWrv hp c, .dbgRds hp c, .dbgWrs hp c],
      exec i s = .next (modDbg s hp (fun d => { d with done := true, status := 5 }))) ∧
  (∀ hp c s, s.up = true → (s.port hp).dbg.en = true → (s.port hp).dbg.ctx ≠ 0xFFFFFFFF →
    (∀ z ∈ residents s, ¬(z.2.ctx = (s.port hp).dbg.ctx ∧ BitVec.ofNat 32 z.2.idx = c.block ∧ z.2.opts.debug = true)) →
    ∀ i ∈ [Instr.dbgResume hp c, .dbgStep hp c, .dbgRdv hp c, .dbgWrv hp c, .dbgRds hp c, .dbgWrs hp c],
      exec i s = .next (modDbg s hp (fun d => { d with done := true, status := 2 }))) ∧
  (∀ hp (c : DbgArg) s b x y, s.up = true → (s.port hp).dbg.en = true → (s.port hp).dbg.ctx ≠ 0xFFFFFFFF →
    dbgBlock s (s.port hp).dbg.ctx c = some (b, x) → s.blk? b = some x → x.groups[c.group.val]? = some y → y.q.status ≠ .exited →
    let Did (i : Instr) (f : Group → Group) : Prop :=
      exec i s = .next (modDbg (modGrp s b c.group.val f) hp (fun d => { d with done := true, status := 0 }))
    let Ends (i : Instr) (st : Nat) : Prop := exec i s = .next (modDbg s hp (fun d => { d with done := true, status := st }))
    (c.block ≠ 0xFFFFFFFF → Did (.dbgHalt hp c) (fun y => { y with d := { y.d with haltReq := true } })) ∧
    ((∀ w, y.q.status ≠ .halted w) →
      ∀ i ∈ [Instr.dbgResume hp c, .dbgStep hp c, .dbgRdv hp c, .dbgWrv hp c, .dbgRds hp c, .dbgWrs hp c], Ends i 1) ∧
    (∀ w, y.q.status = .halted w →
      let u := if w = true ∧ slotFree s x y = false then yieldSlot s x y else s
      let Back (i : Instr) (step : Bool) : Prop :=
        exec i s = .next (modDbg (modGrp u b c.group.val (fun y => { y with
          q := { y.q with status := if w = true then .active else .pending, ready := none, forced := false }
          d := { y.d with skip := if c.skip = true then some y.d.haltPc else none, step := step } })) hp (fun d => { d with done := true, status := 0 }))
      Back (.dbgResume hp c) false ∧ Back (.dbgStep hp c) true ∧
      (∀ b' (g' : Nat) (y' : Group), s.grp? b' g' = some y' → u.grp? b' g' = some y' ∨
        u.grp? b' g' = some { y' with q := { y'.q with status := .pending } }) ∧
      (x.h.vregs ≤ c.reg.toNat → Ends (.dbgRdv hp c) 3 ∧ Ends (.dbgWrv hp c) 3) ∧
      (x.h.sregs ≤ c.reg.toNat → Ends (.dbgRds hp c) 3 ∧ Ends (.dbgWrs hp c) 3) ∧
      (c.reg.toNat < x.h.vregs → exec (.dbgRdv hp c) s = .next (modDbg s hp (fun d =>
          { d with data := (wget y.r.v (32 * c.reg.toNat + c.thread.val)).setWidth 64, done := true, status := 0 })) ∧
        Did (.dbgWrv hp c) (fun y => { y with r := { y.r with
          v := wset y.r.v (32 * c.reg.toNat + c.thread.val) ((s.port hp).dbg.data.setWidth 32) } })) ∧
      (c.reg.toNat < x.h.sregs → exec (.dbgRds hp c) s = .next (modDbg s hp (fun d =>
          { d with data := (wget y.r.s c.reg.toNat).setWidth 64, done := true, status := 0 })) ∧
        Did (.dbgWrs hp c) (fun y => { y with r := { y.r with s := wset y.r.s c.reg.toNat ((s.port hp).dbg.data.setWidth 32) } })))) ∧
  (∀ hp (c : DbgArg) s, s.up = true → (s.port hp).dbg.en = true → (s.port hp).dbg.ctx ≠ 0xFFFFFFFF → c.block = 0xFFFFFFFF →
    (∃ z ∈ residents s, z.2.ctx = (s.port hp).dbg.ctx ∧ z.2.opts.debug = true) → ∃ t, exec (.dbgHalt hp c) s = .next t ∧
      (t.port hp).dbg.status = 0 ∧ (t.port hp).dbg.done = true ∧
      ∀ b x (g : Nat) (y : Group), s.blk? b = some x → x.life = .resident → x.ctx = (s.port hp).dbg.ctx → x.opts.debug = true →
        x.groups[g]? = some y → y.q.status ≠ .exited → ∃ z, t.grp? b g = some z ∧ z.d.haltReq = true ∧ z.r = y.r ∧ z.thr = y.thr)

/-- R209, R154, R143, R214, R215, R216, R165: invalidations; a replay of a page fault wakes what waits for its token; promotions and the
switch of a page move its bytes; late PREFs; a re-issued access; a kill frees what the context held. -/
def Obligations.translation_and_kill_events : Prop :=
  (∀ hp va s, s.up = true →
    let own := ∃ c, s.ctx? (s.port hp).reg.invctx = some c ∧ c.port = hp
    let t := modHost s hp (fun h => { h with denied := true })
    let u (page : Option Nat) : State := modHost s hp (fun h => { h with invbusy := true, invof := (h.invctx, page) })
    ((s.port hp).reg.invbusy = true ∨ ¬own → exec (.invalidateAll hp) s = .next t ∧ exec (.invalidatePage hp va) s = .next t) ∧
    ((s.port hp).reg.invbusy = false → own → exec (.invalidateAll hp) s = .next (u none) ∧
      exec (.invalidatePage hp va) s = .next (u (some (va.toNat / 2 ^ 16))))) ∧
  (∀ hp s,
    let w := (s.port hp).reg.invof
    let waits := ∃ m ∈ s.migs, ∃ h ∈ m.held, (∃ x, s.blk? h.1 = some x ∧ x.ctx = w.1) ∧
      ∀ page, w.2 = some page → ∃ a ∈ h.2.2.thr, a.addr.toNat / 2 ^ 16 % 2 ^ 41 = page
    (waits → exec (.invalidateComplete hp) s = .next s) ∧
    (¬waits → exec (.invalidateComplete hp) s = .next (modHost s hp (fun h => { h with invbusy := false })))) ∧
  (∀ hp s, s.up = true →
    let Woken (k : Word) (t : State) : Prop := t.mem = s.mem ∧ (∀ f ∈ t.pfaults, f.token ≠ k) ∧ (∀ f ∈ s.pfaults, f.token ≠ k → f ∈ t.pfaults) ∧
      ∀ b x (g : Nat) (y : Group), s.blk? b = some x → x.groups[g]? = some y → ∃ z, t.grp? b g = some z ∧ z.r = y.r ∧
        (∀ e ∈ z.log, e.token = k → e.woken = true) ∧ (∀ o ∈ z.e.ops, o.susp ≠ some k) ∧
        ∀ o, x.life = .resident → y.q.status = .parked (.page k) o → z.q.status = .pending
    let Here (f : PFault) : Prop := ctxPort s f.ctx = hp ∧ ∀ h ∈ (s.port hp).trap.held, ¬(h.bytes.take 1 = [2] ∧ fieldN h.bytes 40 4 = f.token.toNat)
    (∀ k f, s.pfaults.find? (fun f => f.token == k) = some f → Here f → ∃ t, exec (.replayByToken hp k) s = .next t ∧ Woken k t) ∧
    (∀ k, (∀ f ∈ s.pfaults, f.token ≠ k) → exec (.replayByToken hp k) s = .next s) ∧
    (∀ (va : BitVec 57) f, s.pfaults.find? (fun f => f.ctx == (s.port hp).trap.rctx && f.page == (va.signExtend 64 &&& ~~~0xFFFF#64)) = some f →
      Here f → ∃ t, exec (.replayByPage hp va) s = .next t ∧ Woken f.token t)) ∧
  (∀ ctx va s c home f, s.latent = [] → promotable s ctx va = some (c, home) → freeFrame s c.tenant = some f →
    let m : Mig := { tenant := c.tenant, ctx := ctx, vpage := va &&& ~~~0xFFFF#64, home := home, frame := f, transit := true,
                     used := s.now, dirty := false, held := [] }
    exec (.migrationPromote ctx va) s = .next { s with migs := s.migs ++ [m] } ∧ (∀ z ∈ s.migs, z.tenant = c.tenant → z.frame ≠ f)) ∧
  (∀ k m s, s.memCanon → s.migs[k]? = some m → m.transit = true → m.held = [] → s.latent = [] → m.home + 2 ^ 16 ≤ 2 ^ 42 →
    m.frame + 2 ^ 16 ≤ 2 ^ 42 → m.home + 2 ^ 16 ≤ m.frame ∨ m.frame + 2 ^ 16 ≤ m.home → ∃ t, exec (.pageSwitch k) s = .next t ∧
      mgetN t.mem m.frame (2 ^ 16) = mgetN s.mem m.home (2 ^ 16) ∧
      (∀ a, a < 2 ^ 42 → a < m.frame ∨ m.frame + 2 ^ 16 ≤ a → mget t.mem a = mget s.mem a) ∧
      t.migs = s.migs.map (fun z => if z.home = m.home then { z with transit := false, used := s.now, held := [] } else z)) ∧
  (∀ b x (g : Nat) (y : Group) s, s.blk? b = some x → x.life = .resident → x.groups[g]? = some y → y.liveList ≠ [] →
    exec (.prefDeadline b g) s = .next (modGrp s b g (fun y =>
      let late (r : Pref) : Bool := decide (r.deadline ≤ s.etm x.core)
      let e := { y.e with prom := y.e.prom - (y.e.prefs.filter (fun r => late r && r.counted)).length,
                          prefs := (y.e.prefs.filter (fun r => !late r || r.waited || r.copyWaited)).map (fun r => if late r then { r with counted := false } else r) }
      { y with e := e }))) ∧
  (∀ b (g : Nat) p (y : Group) e r x m s, latePass s b g = some p → p.B.life = .resident → s.grp? b g = some y → y.log = e :: r → e.woken = true →
    e.acc ≠ 3 → e.thr = [x] → memOf e.i = some m → s.latent = [] → y.liveList ≠ [] → y.q.rollback = false →
    (∀ h, redoLook s p e x = .ok h → h.hold = none → h.imm = false → ∃ t z, exec (.loggedReissue b g) s = .next t ∧ t.grp? b g = some z ∧ z.log = r ∧
      t.mem = (lateAccess s b g e x h).mem ∧ z.thr = y.thr ∧
      (m.kind = .store → m.space ≠ .win → h.lapsed = false → t.mem = msetN s.mem h.loc (storeBytes m.n x.data))) ∧
    (∀ q, redoLook s p e x = .notPresent q → y.q.status = .pending ∨ y.q.status = .active → ∃ t z o, exec (.loggedReissue b g) s = .next t ∧
      t.grp? b g = some z ∧ t.mem = s.mem ∧ z.r = y.r ∧
      z.q.status = .parked (.page (pageFault s b g e.acc x.addr).1) o ∧
      z.log = { e with thr := [x], token := (pageFault s b g e.acc x.addr).1, woken := false } :: r)) ∧
  (∀ hp ctx s, s.up = true →
    ((∀ c, s.ctx? ctx = some c → c.port ≠ hp) → exec (.ctxKill hp ctx) s = .next (modHost s hp (fun h => { h with denied := true }))) ∧
    (∀ c, s.ctx? ctx = some c → c.port = hp → c.killed = true → exec (.ctxKill hp ctx) s = .next s) ∧
    (∀ c, s.ctx? ctx = some c → c.port = hp → c.killed = false → ∃ t d, exec (.ctxKill hp ctx) s = .next t ∧
      t.ctx? ctx = some d ∧ d.killed = true ∧ (∀ z ∈ t.blocks, z.2.ctx ≠ ctx) ∧ (∀ z ∈ t.insts, z.2.ctx ≠ ctx) ∧ (∀ f ∈ t.pfaults, f.ctx ≠ ctx) ∧
      (∀ n i, (n, i) ∈ s.insts → i.ctx = ctx → ∃ r ∈ (t.port i.port).sub.waiting, r.sseq = i.sseq ∧ r.kind = 0 ∧ r.status = 7) ∧
      (∀ k n q, tget? (t.cluster k).queues n = some q → q.en = true → q.owner ≠ ctx) ∧
      (∀ k n b, tget? (t.cluster k).banks n = some b → b.drain = false → b.mode ≠ 0 → b.owner ≠ ctx) ∧
      (∀ b x, s.blk? b = some x → x.ctx = ctx → ∀ a, scrLoc b 0 ≤ a → a < scrLoc b 0 + 2 ^ 23 → mget t.mem a = 0) ∧
      (∀ b x, s.blk? b = some x → x.ctx ≠ ctx → t.blk? b = some x)))

/-- R112, R110, R103, R155, R118, R164, R28, R162, R165: the placement of a troupe of one block, saves, restores and relocations of a
block, and pre-emption requests. Where a placed block may go is a core that takes blocks on a cluster of its tenant. The model's own choices: the order
in which clusters and tenants are served (log entry 33), the forms and the layout of a saved frame (30), account 16 for a save that no tenant
asked for (6), and one KIND 0x08 entry for each late request, which then counts no further (35). -/
def Obligations.block_events : Prop :=
  (∀ (k : Fin 96) s, s.up = true →
    ((∀ t, headTroupe s t = none) → exec (.troupePlace k) s = .next s) ∧
    (∀ t r b x, serviceOrder s k.val = t :: r → headTroupe s t = some (b, x) → s.blk? b = some x → x.life = .ready → mates s x = [(b, x)] →
      placeTroupe s t x ≠ none → ∃ u z, exec (.troupePlace k) s = .next u ∧ u.blk? b = some z ∧ z.life = .resident ∧ coreTakes s z.core = true ∧
        clusterOf z.core ∈ tenantClusters s t ∧ (u.cluster (clusterOf z.core)).lastTenant = some t ∧ z.groups.length = x.h.groups ∧
        ∀ (g : Nat) (y : Group), z.groups[g]? = some y → y.q.status = .pending ∧ y.r.vw = 0 ∧ y.r.sw = 0 ∧ y.r.v = [] ∧ y.r.sticky = 0 ∧
          y.r.phx = 0 ∧ y.e.gang = none ∧
          (∀ n : Nat, n < x.h.sregs → wget y.r.s n = if n < 16 then x.args.getD n 0 else if n = 16 then BitVec.ofNat 32 x.idx
            else if n = 17 then BitVec.ofNat 32 (x.idx / 2 ^ 32) else if n = 18 then BitVec.ofNat 32 x.troupe
            else if n = 19 then BitVec.ofNat 32 x.count else 0) ∧
          ∀ u : Nat, u < 32 → y.liveT u = true ∧ y.pcOf u = x.h.entry)) ∧
  (∀ b (g : Nat) x (y : Group) m s, canReturn s b g = some m → s.blk? b = some x → x.groups[g]? = some y → s.latent = [] →
    let a := x.slot + groupFrameOff { x with groups := x.groups.map (setStatus .pending) } g
    let n := 128 * x.h.vregs + 4 * x.h.sregs
    poisoned s a n = false → ∃ t w z, exec (.groupRestore b g) s = .next t ∧
      t.blk? b = some w ∧ g ∉ w.wholeSaved ∧ w.groups[g]? = some z ∧ z.q.status = .pending ∧ z.q.lane = laneOf m g ∧ t.mem = s.mem ∧
      z.r = (loadRegs (mgetN s.mem a n) x (emptyLatches (setStatus .pending y))).r) ∧
  (∀ b x s, canSave s b = true → s.blk? b = some x → x.slot + 64 ≤ backedEnd → ∃ t z, exec (.blockSave b) s = .next t ∧ t.blk? b = some z ∧
    z.life = .saved ∧ 1 ≤ z.form ∧ z.form ≤ 3 ∧ z.wholeSaved = [] ∧
    mgetN t.mem x.slot 12 = leBytes 8 x.idx ++ [BitVec.ofNat 8 x.h.groups, BitVec.ofNat 8 z.form, 0, 0] ∧
    ∀ (g : Nat) (y : Group), x.groups[g]? = some y → ∃ w, z.groups[g]? = some w ∧ w.r = y.r ∧ w.thr = y.thr) ∧
  (∀ b x s, s.blk? b = some x → x.life = .saved → waiting s x = true → mates s x = [(b, x)] → placeTroupe s x.opts.tenant x ≠ none →
    let i : Instr := if x.form = 4 then .railLossResume b else .blockRestore b
    ∃ t z, exec i s = .next t ∧ t.blk? b = some z ∧ z.life = .resident ∧ coreTakes s z.core = true ∧
      clusterOf z.core ∈ tenantClusters s x.opts.tenant ∧
      (x.form = 4 → ∀ (g : Nat) (y : Group), x.groups[g]? = some y → y.q.status ≠ .exited → y.r.phx = 0 → ∃ w, z.groups[g]? = some w ∧
        w.r.phx = 0 ∧ w.r.vw = 0 ∧ w.r.sw = 0 ∧ ∀ u : Nat, u < 32 → w.liveT u = true ∧ w.pcOf u = x.h.entry)) ∧
  (∀ b c s, c ∈ relocateTo s b → ∃ t z, exec (.blockRelocate b c) s = .next t ∧ t.blk? b = some z ∧ z.life = .resident ∧ z.core = c) ∧
  (∀ hp ctx s, s.up = true →
    ((∀ c, s.ctx? ctx = some c → c.port ≠ hp) → exec (.preemptRequest hp ctx) s = .next (modHost s hp (fun h => { h with denied := true }))) ∧
    (∀ c, s.ctx? ctx = some c → c.port = hp →
      ((∀ z ∈ residents s, z.2.ctx ≠ ctx) → exec (.preemptRequest hp ctx) s = .next s) ∧
      ((∃ b x, s.blk? b = some x ∧ x.life = .resident ∧ x.ctx = ctx) → ∃ t l, exec (.preemptRequest hp ctx) s = .next t ∧
        t.ctx? ctx = some { c with preq := c.preq.filter (reqPending s) ++ [(s.now, l)] } ∧
        ∀ b x, s.blk? b = some x → x.life = .resident → x.ctx = ctx → x.placed ∈ l ∧
          t.blk? b = some { x with preempt := true, preBy := if x.preempt = true then x.preBy else 16 }))) ∧
  (∀ ctx c k r s, s.ctx? ctx = some c → c.preq[k]? = some r → r.1 + usTicks 200 ≤ s.now → reqPending s r = true →
    (∀ q ∈ c.preq.take k, s.now < q.1 + usTicks 200 ∨ reqPending s q = false) → ∃ t, exec (.preemptTimeout ctx) s = .next t ∧ t.blocks = s.blocks ∧
      t.ctx? ctx = some { c with preq := c.preq.eraseIdx k } ∧
      ((s.port c.port).trap.en = true → (s.port c.port).trap.held = [] → ringUsed (s.port c.port).trap < ringSize (s.port c.port).trap →
        ∃ e, (t.port c.port).trap.held = [e] ∧ e.bytes.take 2 = [8, 1]))

/-- R136, R137, R143, R132, R372, R377, R161, R126, R382, R128, R197: the bounds of issue, wakes and returns, completions of matrix and
engine operations, the watchdogs, and the events of queues and banks. -/
def Obligations.core_and_queue_events : Prop :=
  (∀ b x (g : Nat) (y : Group) n s, s.blk? b = some x → x.life = .resident → x.groups[g]? = some y → y.q.forced = false → y.q.ready = some n →
    n + 4096 ≤ s.cyc x.core →
    let t := modGrp s b g (fun y => { y with q := { y.q with forced := true } })
    (y.q.status = .active → exec (.activeReadyBound b g) s = .next t) ∧ (y.q.status = .pending → exec (.pendingReadyBound b g) s = .next t)) ∧
  (∀ c w s, (s.core c).win = some w → w.endAt ≤ s.cyc c → exec (.classWindowEnd c) s = .next (modCore s c (fun k => { k with win := none }))) ∧
  (∀ c s, ∃ t, exec (.sleepWake c) s = .next t ∧ t = { s with blocks := t.blocks, cores := t.cores } ∧
    (∀ b x (g : Nat) (y : Group) d o, s.blk? b = some x → x.life = .resident → x.core = c → x.groups[g]? = some y →
      y.q.status = .parked (.sleep d) o → d ≤ s.etm c → ∃ z, t.grp? b g = some z ∧ z.q.status = .pending ∧ z.r = y.r ∧ z.thr = y.thr) ∧
    (∀ b x (g : Nat) (y : Group), s.blk? b = some x → x.groups[g]? = some y → (∀ k o, y.q.status ≠ .parked k o) → t.grp? b g = some y)) ∧
  (∀ b (g : Nat) (y : Group) k r s, s.grp? b g = some y → y.e.returns = k :: r → exec (.memoryReturn b g) s =
    .next (modGrp s b g (fun y => { y with e := { y.e with
      vpend := k.1.foldl List.erase y.e.vpend, spend := k.2.foldl List.erase y.e.spend, returns := r } }))) ∧
  (∀ b x (g : Nat) (y : Group) f s, s.blk? b = some x → x.groups[g]? = some y → y.e.mma = some f →
    (s.cyc x.core < f.endAt ∨ f.stuck ≠ none → exec (.mmaComplete b g) s = .next s) ∧
    (f.endAt ≤ s.cyc x.core → f.stuck = none → x.opts.paired = false ∨ f.mates.all (mmaEnded s f) = true → y.liveList ≠ [] → ∃ z,
    exec (.mmaComplete b g) s = .next (writeAway b f.away (modGrp s b g (fun _ => z))) ∧
    z.e.mma = none ∧ z.thr = y.thr ∧
    ((∀ r, f.dst ≠ some (.v r)) → z.r.v = f.res.foldl (fun v c => wset v c.1 c.2) y.r.v) ∧
    (∀ r, f.dst = some (.s r) → wget z.r.s r = f.status ∧ ∀ k, k ≠ r → wget z.r.s k = wget y.r.s k) ∧
    z.r.sticky = y.r.sticky ||| (if f.status.getLsbD 1 = true then 2 else 0) ||| (if f.status.getLsbD 2 = true then 4 else 0))) ∧
  (∀ b (g : Nat) (w y : Group) k o cause s, s.grp? b g = some w → (transfer s b g k).grp? b g = some y → y.e.ops[k]? = some o →
    o.fin = some cause → y.liveList ≠ [] → y.q.rollback = false → (∀ r, o.dst ≠ some (.v r)) →
    let u := BitVec.ofNat 32 (o.sect * 2 ^ 8 + (if o.poisoned then 2 ^ 4 else 0) + cause)
    (w.e.ops.findIdx? isCopy = some k → ∃ t z, exec (.copyComplete b g) s = .next t ∧ t.grp? b g = some z ∧ Ended y z o.dst u ∧
      z.e.copy = y.e.copy - 1 ∧ z.e.ops = y.e.ops.eraseIdx k ∧ t.mem = (transfer s b g k).mem) ∧
    (w.e.ops.findIdx? isGath = some k → (∀ e ∈ w.log, e.acc ≠ 3) → ∃ t z, exec (.gatherComplete b g) s = .next t ∧ t.grp? b g = some z ∧
      Ended y z o.dst u ∧ z.e.gath = y.e.gath - 1 ∧ z.e.ops = y.e.ops.eraseIdx k ∧ t.mem = (transfer s b g k).mem)) ∧
  (∀ b (g : Nat) (w : Group) p o r d a s, s.grp? b g = some w → engPass s b g = some p → w.e.ops = o :: r → o.i = .cpy d a →
    o.fin = none → o.susp = none → o.bad = false → o.pos = 0 → o.part = 0 → o.poisoned = false → w.liveList ≠ [] → w.q.rollback = false →
    (∀ r, o.dst ≠ some (.v r)) → s.hist = [] → s.latent = [] → s.poison = [] →
    let c := copyD false o.desc
    c.ssp = .scr → c.dsp = .scr → c.len = 16 → c.mcast = false → granAt s p .scr c.src = .live → granAt s p .scr c.dst = .live →
    (∀ j v, j < 16 → tget? w.c.stable (scrLoc b c.src + j) = some v → v = mget s.mem (scrLoc b c.src + j)) →
    ∃ t z, exec (.copyComplete b g) s = .next t ∧ t.grp? b g = some z ∧ z.e.copy = w.e.copy - 1 ∧ z.e.ops = r ∧
      Ended w z o.dst (BitVec.ofNat 32 (min 0xFFFFFF (o.sect + 1) * 2 ^ 8)) ∧
      mgetN t.mem (scrLoc b c.dst) 16 = mgetN s.mem (scrLoc b c.src) 16 ∧
      ∀ q, q < scrLoc b c.dst ∨ scrLoc b c.dst + 16 ≤ q → mget t.mem q = mget s.mem q) ∧
  (∀ b x n s, s.blk? b = some x → barLate s b n = true → (∃ c, s.ctx? x.ctx = some c ∧ c.killed = false) →
    ∃ t e, exec (.barrierWatchdog b n) s = .next t ∧ (t.port (ctxPort s x.ctx)).trap.held.getLast? = some e ∧ e.bytes.take 2 = [3, 1] ∧
      ∃ d, t.ctx? x.ctx = some d ∧ d.killed = true) ∧
  (∀ b x (g : Nat) s, s.blk? b = some x → rdvLate s b g = true → (∃ c, s.ctx? x.ctx = some c ∧ c.killed = false) →
    ∃ t e, exec (.rendezvousWatchdog b g) s = .next t ∧ (t.port (ctxPort s x.ctx)).trap.held.getLast? = some e ∧ e.bytes.take 2 = [4, 1] ∧
      ∃ d, t.ctx? x.ctx = some d ∧ d.killed = true) ∧
  (∀ (k : Fin 96) s,
    let x := s.cluster k.val
    (x.fmEn = false → exec (.foremanEvaluate k) s = .next s) ∧
    (∀ q st c, x.fmEn = true → fullest x ((List.range 16).filter (fun q => (x.queue q).en && atLeast16 (x.queue q) x.fmHi)) = some q →
      lowestStage x ((List.range 16).filter (fun st => st != (x.queue q).stage && stageLow x st && decide (2 ≤ (stageCores s k.val st).length))) = some st →
      ((stageCores s k.val st).filter (fun c => match (s.core c).moved with | some t => decide (t + usTicks x.fmHold ≤ s.now) | none => true)).getLast? = some c →
      ∃ t, exec (.foremanEvaluate k) s = .next t ∧ (t.core c).cstage = BitVec.ofNat 5 (x.queue q).stage ∧ (t.core c).moved = some s.now ∧
        (∀ d, d ≠ c → t.core d = s.core d) ∧ t.blocks = s.blocks ∧ t.mem = s.mem)) ∧
  (∀ c (n : Fin 16) s,
    let q := (s.cluster (clusterOf c)).queue n.val
    let old := tget q.windows (c % 8) []
    q.en = true → q.mode = false → ∃ t new, exec (.queueWindowRefill c n) s = .next t ∧
      (t.cluster (clusterOf c)).queue n.val = { q with windows := tset q.windows (c % 8) (old ++ new) } ∧ t.mem = s.mem ∧ t.blocks = s.blocks ∧
      new.length ≤ 64 - old.length ∧
      (∀ r ∈ new, r.bound = none ∧ ∃ z, tget? q.slots (r.ix % 2 ^ (q.size + 1)) = some z ∧ z.data = r.data ∧ z.mask.getLsbD (c % 8) = true) ∧
      (old = [] → ∀ z, 0 < (q.putix - q.freeix).toNat → tget? q.slots (q.freeix.toNat % 2 ^ (q.size + 1)) = some z → z.mask.getLsbD (c % 8) = true →
        new.head? = some { ix := q.freeix.toNat, data := z.data, writers := z.writers, bound := none })) ∧
  (∀ (k : Fin 96) (n : Fin 16) d r s,
    let q := (s.cluster k.val).queue n.val
    q.en = true → (q.putix - q.freeix).toNat < 2 ^ (q.size + 1) → q.contq = d :: r → ∃ t z, exec (.continuationEnqueue k n) s = .next t ∧
      ((t.cluster k.val).queue n.val).contq = r ∧ ((t.cluster k.val).queue n.val).putix = q.putix + 1 ∧
      tget? ((t.cluster k.val).queue n.val).slots (q.putix.toNat % 2 ^ (q.size + 1)) = some z ∧ z.data = d.1 ∧ z.writers = d.2 ∧ t.mem = s.mem) ∧
  (∀ (k : Fin 96) (n : Fin 16) s, ((s.cluster k.val).bank n.val).drain = true → ∃ t, exec (.bankDrainComplete k n) s = .next t ∧
    (let u := (s.cluster k.val).bank n.val
     (t.cluster k.val).bank n.val = { u with mode := u.nextMode, owner := u.nextOwner, drain := false }) ∧
    (∀ m, m ≠ n.val → (t.cluster k.val).bank m = (s.cluster k.val).bank m) ∧
    ∀ a, mget t.mem a = if layLoc k.val (n.val * 2 ^ 22) ≤ a ∧ a < layLoc k.val ((n.val + 1) * 2 ^ 22) then 0 else mget s.mem a)

/-- R253 to R257, R264, R268 to R286: the decoder reads back every well-formed instruction that the encoder writes, with every operand;
and a word that decodes is the word of what it decodes to, so that no bit of a word is dropped. -/
def Obligations.decode_and_encode_agree : Prop :=
  (∀ i, i.isWord = true → i.wf = true → (∀ w, i ≠ .reservedEncoding w) → decode (encode i) = .ok i) ∧
  (∀ w i, decode w = .ok i → encode i = w ∧ i.isWord = true)

/-- R253, R268 to R286: words written out from the tables, one of each block of opcodes at least, decode to their instructions, and a
word of a reserved opcode to none. -/
def Obligations.words_decode : Prop :=
  decode 0x01000002 = .ok (.bra 2) ∧ decode 0x09700005 = .ok (.meet 5) ∧
  decode 0x1401040C = .ok (.div false (.v 1) (.v 2) (.v 3) .i32) ∧ decode 0x1001040D = .ok (.add false (.v 1) (.v 2) (.v 3) .i32sat) ∧
  decode 0x2901040C = .ok (.rot false (.v 1) (.v 2) (.v 3) .l32) ∧ decode 0x30040601 = .ok (.addi false (.v 4) (.v 3) 1) ∧
  decode 0x425109C0 = .ok (.red false (.s 1) (.v 4) .add) ∧ decode 0x5BB0B083 = .ok (.fdiv true (.v 48) (.s 8) (.v 32) .rd) ∧
  decode 0x65B0B1C0 = .ok (.ftanh true (.v 48) (.s 8)) ∧ decode 0x74B0B081 = .ok (.pack true (.v 48) (.s 8) (.v 32) .hi) ∧
  decode 0x9140B1FC = .ok (.sts (.v 64) (.s 8) (-4)) ∧
  decode 0xB7700000 = .ok (.wait .copy 0) ∧ decode 0x840605FC = .ok (.ldw (.v 6) (.v 2) (-4)) ∧
  decode 0xA0080410 = .ok (.aadd (.v 8) (.v 2) (.v 4) .b32) ∧ decode 0xC870E1C0 = .ok .accz ∧
  decode 0xD110A5C0 = .ok (.qtakeQ (.v 16) (.s 2)) ∧ decode 0xE4540000 = .ok (.rdsr false (.s 4) 0) ∧
  (∀ i, decode 0xF0000000 ≠ .ok i)

/-- The memory invariant of the model: every step from a state whose memory is in its canonical form leaves it so. -/
def Obligations.memory_stays_canonical : Prop :=
  ∀ s t, s.memCanon → step s = .next t → t.memCanon

/-- R7, R15, R25, R31, R35, R39, R42, R53, R70, R76, R80, R84, R88, R89, R95, R120, R125, R157, R196, R209, R213, R397, R403: what the
register maps give for reset, on every port, core, cluster, regulator and link; and the memory is in its canonical form. -/
def Obligations.reset_values : Prop :=
  let s := State.reset
  s.memCanon ∧ s.now = 0 ∧
  (∀ hp, (∀ r ∈ [BReg.loadstat, .subseq, .crbase, .crd, .crstat, .invctx, .invstat, .trbase, .trwix, .trrix, .trstat, .trrctx, .dbgctl, .dbgstat,
      .dbgdata, .dbgres, .apbase0, .apbase1, .ussstat, .assaycnt, .partctl], regValue s hp r = 0) ∧
    regValue s hp .crcfg = 8 ∧ regValue s hp .cmpseq = 0xFFFFFFFF ∧ regValue s hp .trcfg = 8 ∧ regValue s hp .trwd = 0xA0064 ∧
    regValue s hp .dbgctx = 0xFFFFFFFF ∧ regValue s hp .devid = 0xFFF ∧ regValue s hp .assayctl = 4 ∧ regValue s hp .hoststat / 2 = 0 ∧
    (∀ k, regValue s hp (.dbgrec k) = 0 ∧ regValue s hp (.rtab k) = 0xFFFFFFFF ∧ regValue s hp (.lnkctl k) = 0 ∧ regValue s hp (.lnkstat k) = 0 ∧
      regValue s hp (.enacct k) = 0 ∧ regValue s hp (.tenant k) = 0 ∧ regValue s hp (.winown k) = 0 ∧ regValue s hp (.migpool k) = 0 ∧
      regValue s hp (.balslope k) = 250 ∧ regValue s hp (.uvctl k) / 2 ^ 31 = 0 ∧ regValue s hp (.uvctl k) % 2 ^ 20 = 0xA04)) ∧
  (∀ c, (s.core c).cstage = 0x10 ∧ (s.core c).quar = false ∧ (s.core c).score = 0 ∧ (s.core c).passes = 0 ∧ s.cyc c = 0 ∧ s.etm c = 0 ∧
    (c < 768 → (s.core c).lfsr = 0xACE1 ^^^ BitVec.ofNat 16 c)) ∧
  (∀ k, k < 96 → (s.cluster k).rail = k / 12 / 2 ∧ (s.cluster k).fmEn = false ∧ (s.cluster k).fmHi = 12 ∧ (s.cluster k).fmLo = 2 ∧
    (s.cluster k).fmHold = 50 ∧ (∀ b, ((s.cluster k).bank b).mode = 0 ∧ ((s.cluster k).bank b).drain = false ∧
      ((s.cluster k).bank b).owner = 0xFFFFFFFF) ∧
    ∀ q, ((s.cluster k).queue q).en = false ∧ ((s.cluster k).queue q).mode = false ∧ ((s.cluster k).queue q).bank = 0 ∧
      ((s.cluster k).queue q).off = 0 ∧ ((s.cluster k).queue q).size = 0 ∧ ((s.cluster k).queue q).cmask = 0 ∧
      ((s.cluster k).queue q).stage = 0 ∧ ((s.cluster k).queue q).owner = 0 ∧ ((s.cluster k).queue q).putix = 0 ∧
      ((s.cluster k).queue q).freeix = 0)

/-- R139, R168, R263: a step runs the decoded instruction. Where nothing else is due and a lane that has a pass to issue takes a group
with one path and no access to re-issue, and the bytes at the path's program counter, in the memory its context maps them to, decode to instruction `i`, the
step is `exec i` on the selected path, between what begins a pass and what ends it; memory and the group's registers are those
of the settled state. That the device does one act a step, and which lane comes first, is the model's choice (log entry 1). -/
def Obligations.step_runs_the_decoded_instruction : Prop :=
  ∀ (s : State) (o : Act) (r : List Act) (k l : Nat) (w : State) (z : Spot) (a : Path) (c : Context) (pa : Nat) (n : Leaf) (i : Instr),
    s.inputs = [] → s.boot.done = true → due (settleAll s) = [] → issueActs (settleAll s) = o :: r →
    chooseFrom (settleAll s) o (o :: r) = (.issue k l, w) → pick w k l = some z → w.latent = [] →
    w.blk? z.b = some z.x → z.x.groups[z.g]? = some z.y → (∀ e ∈ z.y.log, e.woken = false) →
    let q := planOf w z.x z.g z.y
    q.paths = [a] → w.ctx? z.x.ctx = some c → access w c .fetch (fetchVa z.x a.pc) = .ok pa n → poisoned w pa 4 = false →
    decode (BitVec.ofNat 32 (leNat (mgetN w.mem pa 4))) = .ok i →
    let u := passBegun z q w
    u.mem = w.mem ∧ ∃ x y v, u.blk? z.b = some x ∧ x.groups[z.g]? = some y ∧ y.r = z.y.r ∧ (∀ n, y.pcOf n = z.y.pcOf n) ∧
      exec i { u with sel := some (soleSel z.b z.g a.ts) } = .next v ∧
      step s = .next (passEnded z x { q with y := y } (endOf 0 (judgeSide u x z.b z.g y false a)) (w.cyc z.x.core) v)

/-- No instruction and no step is stuck: `exec` answers a next state for every row of the table in every state, but for a machine
instruction while no pass is selected (R139), which the device never runs so; and every step answers a next state. -/
def Obligations.every_step_answers : Prop :=
  (∀ i s, (∃ t, exec i s = .next t) ∨ (i.isWord = true ∧ exec i s = .fault .noPass)) ∧ ∀ s, Safe s
end

