-- ==== Sys2Proof/Laws/Table.lean ====
section
/-! SUPPORT. Laws of tables and of sparse memory: reading after writing, and the canonical forms. -/

namespace Sys2Proof.Laws
open Sys2Proof.Machine

/-! Tables. -/

theorem tget?_tset_same {α : Type} (t : Table α) (i : Nat) (v : α) : tget? (tset t i v) i = some v := by
  induction t with
  | nil => simp [tset, tget?]
  | cons c r ih =>
    obtain ⟨k, w⟩ := c
    unfold tset
    split
    · simp [tget?]
    · split
      · simp [tget?]
      · rename_i h _; simp [tget?, h, ih]

theorem tget?_tset_ne {α : Type} (t : Table α) (i j : Nat) (v : α) (h : j ≠ i) : tget? (tset t i v) j = tget? t j := by
  induction t with
  | nil => simp [tset, tget?, h]
  | cons c r ih =>
    obtain ⟨k, w⟩ := c
    unfold tset
    split
    · rename_i e; subst e; simp [tget?, h]
    · split
      · simp [tget?, h]
      · simp [tget?, ih]

/-- Reading a table after a write. -/
theorem tget?_tset {α : Type} (t : Table α) (i j : Nat) (v : α) : tget? (tset t i v) j = if j = i then some v else tget? t j := by
  split
  · rename_i h; subst h; exact tget?_tset_same t _ v
  · rename_i h; exact tget?_tset_ne t i j v h

/-- Reading a table after a removal. -/
theorem tget?_tdel {α : Type} (t : Table α) (i j : Nat) : tget? (tdel t i) j = if j = i then none else tget? t j := by
  induction t with
  | nil => simp [tdel, tget?]
  | cons c r ih =>
    obtain ⟨k, w⟩ := c
    unfold tdel
    split
    · rename_i e; subst e; rw [ih]; split <;> simp_all [tget?]
    · rename_i e; simp only [tget?, ih]; split <;> split <;> simp_all

@[simp] theorem tget_tset_same {α : Type} (t : Table α) (i : Nat) (v d : α) : tget (tset t i v) i d = v := by
  simp [tget, tget?_tset]

theorem tget_tset_ne {α : Type} (t : Table α) (i j : Nat) (v d : α) (h : j ≠ i) : tget (tset t i v) j d = tget t j d := by
  simp [tget, tget?_tset, h]

theorem wget_wset (t : Table Word) (i j : Nat) (v : Word) : wget (wset t i v) j = if j = i then v else wget t j := by
  unfold wget wset tget
  split
  · rename_i h; rw [tget?_tdel]; split <;> simp_all
  · rw [tget?_tset]; split <;> simp_all

/-! Rising keys. -/

/-- Every key of the table is above `n`. -/
def above {α : Type} (n : Nat) (t : Table α) : Prop := ∀ c ∈ t, n < c.1

theorem tsorted_cons {α : Type} (k : Nat) (w : α) (r : Table α) : tsorted ((k, w) :: r) = true ↔ above k r ∧ tsorted r = true := by
  induction r generalizing k w with
  | nil => simp [tsorted, above]
  | cons c q ih =>
    obtain ⟨j, x⟩ := c
    simp only [tsorted, Bool.and_eq_true, decide_eq_true_eq, ih j x]
    constructor
    · rintro ⟨h, ha, hs⟩
      refine ⟨?_, ha, hs⟩
      intro c hc
      rcases List.mem_cons.1 hc with rfl | hc
      · exact h
      · exact Nat.lt_trans h (ha c hc)
    · rintro ⟨h, hs⟩
      exact ⟨h _ (List.mem_cons_self ..), hs⟩

theorem above_tset {α : Type} {n : Nat} {t : Table α} (h : above n t) (i : Nat) (v : α) (hi : n < i) : above n (tset t i v) := by
  induction t with
  | nil => intro c hc; simp [tset] at hc; subst hc; exact hi
  | cons c r ih =>
    obtain ⟨k, w⟩ := c
    have hr : above n r := fun c hc => h c (List.mem_cons_of_mem _ hc)
    have hk : n < k := h (k, w) (List.mem_cons_self ..)
    unfold tset
    intro c hc
    split at hc
    · rcases List.mem_cons.1 hc with rfl | hc
      · exact hi
      · exact hr c hc
    · split at hc
      · rcases List.mem_cons.1 hc with rfl | hc
        · exact hi
        · exact h c hc
      · rcases List.mem_cons.1 hc with rfl | hc
        · exact hk
        · exact ih hr c hc

theorem above_tdel {α : Type} {n : Nat} {t : Table α} (h : above n t) (i : Nat) : above n (tdel t i) := by
  induction t with
  | nil => simpa [tdel] using h
  | cons c r ih =>
    obtain ⟨k, w⟩ := c
    have hr : above n r := fun c hc => h c (List.mem_cons_of_mem _ hc)
    unfold tdel
    split
    · exact ih hr
    · intro c hc
      rcases List.mem_cons.1 hc with rfl | hc
      · exact h _ (List.mem_cons_self ..)
      · exact ih hr c hc

theorem tsorted_tset {α : Type} (t : Table α) (i : Nat) (v : α) (h : tsorted t = true) : tsorted (tset t i v) = true := by
  induction t with
  | nil => simp [tset, tsorted]
  | cons c r ih =>
    obtain ⟨k, w⟩ := c
    have hc := (tsorted_cons k w r).1 h
    unfold tset
    split
    · rename_i e; subst e; exact (tsorted_cons _ _ _).2 hc
    · split
      · rename_i hlt
        refine (tsorted_cons _ _ _).2 ⟨?_, h⟩
        intro c hm
        rcases List.mem_cons.1 hm with rfl | hm
        · exact hlt
        · exact Nat.lt_trans hlt (hc.1 c hm)
      · rename_i hne hnlt
        exact (tsorted_cons _ _ _).2 ⟨above_tset hc.1 i v (by omega), ih hc.2⟩

theorem tsorted_tdel {α : Type} (t : Table α) (i : Nat) (h : tsorted t = true) : tsorted (tdel t i) = true := by
  induction t with
  | nil => simp [tdel, tsorted]
  | cons c r ih =>
    obtain ⟨k, w⟩ := c
    have hc := (tsorted_cons k w r).1 h
    unfold tdel
    split
    · exact ih hc.2
    · exact (tsorted_cons _ _ _).2 ⟨above_tdel hc.1 i, ih hc.2⟩

theorem tsorted_filter {α : Type} (p : Nat × α → Bool) (t : Table α) (h : tsorted t = true) : tsorted (t.filter p) = true := by
  induction t with
  | nil => simp [tsorted]
  | cons c r ih =>
    obtain ⟨k, w⟩ := c
    have hc := (tsorted_cons k w r).1 h
    rw [List.filter_cons]
    split
    · exact (tsorted_cons _ _ _).2 ⟨fun c hm => hc.1 c (List.mem_filter.1 hm).1, ih hc.2⟩
    · exact ih hc.2

/-! Memory. -/

theorem mget_mset (m : List Host.Cell) (a x : Nat) (v : Byte) : mget (mset m a v) x = if x = a then v else mget m x := by
  unfold mget mset tget
  split
  · rename_i h; rw [tget?_tdel]; split <;> simp_all
  · rw [tget?_tset]; split <;> simp_all

/-- A write of bytes leaves every other byte as it was. -/
theorem mget_msetN_out (bs : List Byte) : ∀ (m : List Host.Cell) (a x : Nat), (x < a ∨ a + bs.length ≤ x) → mget (msetN m a bs) x = mget m x := by
  induction bs with
  | nil => intro m a x _; rfl
  | cons b r ih =>
    intro m a x h
    simp only [List.length_cons] at h
    rw [msetN, ih _ _ _ (by omega), mget_mset]
    split
    · omega
    · rfl

/-- A read after a write of bytes gives what was written. -/
theorem mgetN_msetN_same (bs : List Byte) : ∀ (m : List Host.Cell) (a : Nat), mgetN (msetN m a bs) a bs.length = bs := by
  induction bs with
  | nil => intro m a; rfl
  | cons b r ih =>
    intro m a
    simp only [List.length_cons, mgetN, msetN, ih]
    congr 1
    rw [mget_msetN_out r _ _ _ (Or.inl (Nat.lt_succ_self a)), mget_mset]
    simp

theorem mem_tdel {α : Type} {t : Table α} {i : Nat} {c : Nat × α} (h : c ∈ tdel t i) : c ∈ t := by
  induction t with
  | nil => simp [tdel] at h
  | cons d r ih =>
    obtain ⟨k, w⟩ := d
    unfold tdel at h
    split at h
    · exact List.mem_cons_of_mem _ (ih h)
    · rcases List.mem_cons.1 h with rfl | h
      · exact List.mem_cons_self ..
      · exact List.mem_cons_of_mem _ (ih h)

theorem mem_tset {α : Type} {t : Table α} {i : Nat} {v : α} {c : Nat × α} (h : c ∈ tset t i v) : c = (i, v) ∨ c ∈ t := by
  induction t with
  | nil => simp [tset] at h; exact Or.inl h
  | cons d r ih =>
    obtain ⟨k, w⟩ := d
    unfold tset at h
    split at h
    · rcases List.mem_cons.1 h with rfl | h
      · exact Or.inl rfl
      · exact Or.inr (List.mem_cons_of_mem _ h)
    · split at h
      · rcases List.mem_cons.1 h with rfl | h
        · exact Or.inl rfl
        · exact Or.inr h
      · rcases List.mem_cons.1 h with rfl | h
        · exact Or.inr (List.mem_cons_self ..)
        · rcases ih h with e | h
          · exact Or.inl e
          · exact Or.inr (List.mem_cons_of_mem _ h)

theorem memOk_iff (m : List Host.Cell) : memOk m = true ↔ tsorted m = true ∧ ∀ c ∈ m, c.2 ≠ 0 := by
  simp [memOk, List.all_eq_true]

/-- Writing a byte keeps the canonical form. -/
theorem memOk_mset (m : List Host.Cell) (a : Nat) (v : Byte) (h : memOk m = true) : memOk (mset m a v) = true := by
  rw [memOk_iff] at *
  unfold mset
  split
  · exact ⟨tsorted_tdel _ _ h.1, fun c hc => h.2 c (mem_tdel hc)⟩
  · rename_i hv
    refine ⟨tsorted_tset _ _ _ h.1, fun c hc => ?_⟩
    rcases mem_tset hc with rfl | hc
    · exact hv
    · exact h.2 c hc

/-- Writing bytes keeps the canonical form. -/
theorem memOk_msetN (bs : List Byte) : ∀ (m : List Host.Cell) (a : Nat), memOk m = true → memOk (msetN m a bs) = true := by
  induction bs with
  | nil => intro m a h; exact h
  | cons b r ih => intro m a h; exact ih _ _ (memOk_mset m a b h)

/-- Keeping some of the bytes keeps the canonical form. -/
theorem memOk_filter (p : Host.Cell → Bool) (m : List Host.Cell) (h : memOk m = true) : memOk (m.filter p) = true := by
  rw [memOk_iff] at *
  exact ⟨tsorted_filter p m h.1, fun c hc => h.2 c (List.mem_filter.1 hc).1⟩

/-- Zeroing a range keeps the canonical form. -/
theorem memOk_mzero (m : List Host.Cell) (a n : Nat) (h : memOk m = true) : memOk (mzero m a n) = true := memOk_filter _ m h

/-! Lists. -/

theorem getElem?_lmod {α : Type} (l : List α) (i j : Nat) (f : α → α) : (lmod l i f)[j]? = if j = i then (l[j]?).map f else l[j]? := by
  induction l generalizing i j with
  | nil => simp [lmod]
  | cons x r ih =>
    cases i with
    | zero => cases j <;> simp [lmod]
    | succ n => cases j <;> simp [lmod, ih]

@[simp] theorem length_lmod {α : Type} (l : List α) (i : Nat) (f : α → α) : (lmod l i f).length = l.length := by
  induction l generalizing i with
  | nil => simp [lmod]
  | cons x r ih => cases i <;> simp [lmod, ih]

end Sys2Proof.Laws
end

