-- ==== Sys2Proof/Laws/State.lean ====
section
/-! SUPPORT. What each update of the state leaves as it was, field by field; and reading a part after it has been changed. -/

namespace Sys2Proof.Laws
open Sys2Proof.Machine

/-! setBlk changes blocks. -/

@[simp] theorem setBlk_now (s : State) (b : Nat) (x : Block) : (setBlk s b x).now = s.now := rfl
@[simp] theorem setBlk_boot (s : State) (b : Nat) (x : Block) : (setBlk s b x).boot = s.boot := rfl
@[simp] theorem setBlk_mem (s : State) (b : Nat) (x : Block) : (setBlk s b x).mem = s.mem := rfl
@[simp] theorem setBlk_poison (s : State) (b : Nat) (x : Block) : (setBlk s b x).poison = s.poison := rfl
@[simp] theorem setBlk_latent (s : State) (b : Nat) (x : Block) : (setBlk s b x).latent = s.latent := rfl
@[simp] theorem setBlk_hist (s : State) (b : Nat) (x : Block) : (setBlk s b x).hist = s.hist := rfl
@[simp] theorem setBlk_pubs (s : State) (b : Nat) (x : Block) : (setBlk s b x).pubs = s.pubs := rfl
@[simp] theorem setBlk_stamp (s : State) (b : Nat) (x : Block) : (setBlk s b x).stamp = s.stamp := rfl
@[simp] theorem setBlk_flushed (s : State) (b : Nat) (x : Block) : (setBlk s b x).flushed = s.flushed := rfl
@[simp] theorem setBlk_cores (s : State) (b : Nat) (x : Block) : (setBlk s b x).cores = s.cores := rfl
@[simp] theorem setBlk_clusters (s : State) (b : Nat) (x : Block) : (setBlk s b x).clusters = s.clusters := rfl
@[simp] theorem setBlk_regs (s : State) (b : Nat) (x : Block) : (setBlk s b x).regs = s.regs := rfl
@[simp] theorem setBlk_portA (s : State) (b : Nat) (x : Block) : (setBlk s b x).portA = s.portA := rfl
@[simp] theorem setBlk_portB (s : State) (b : Nat) (x : Block) : (setBlk s b x).portB = s.portB := rfl
@[simp] theorem setBlk_links (s : State) (b : Nat) (x : Block) : (setBlk s b x).links = s.links := rfl
@[simp] theorem setBlk_sh (s : State) (b : Nat) (x : Block) : (setBlk s b x).sh = s.sh := rfl
@[simp] theorem setBlk_ctxs (s : State) (b : Nat) (x : Block) : (setBlk s b x).ctxs = s.ctxs := rfl
@[simp] theorem setBlk_insts (s : State) (b : Nat) (x : Block) : (setBlk s b x).insts = s.insts := rfl
@[simp] theorem setBlk_comms (s : State) (b : Nat) (x : Block) : (setBlk s b x).comms = s.comms := rfl
@[simp] theorem setBlk_colls (s : State) (b : Nat) (x : Block) : (setBlk s b x).colls = s.colls := rfl
@[simp] theorem setBlk_pfaults (s : State) (b : Nat) (x : Block) : (setBlk s b x).pfaults = s.pfaults := rfl
@[simp] theorem setBlk_nextToken (s : State) (b : Nat) (x : Block) : (setBlk s b x).nextToken = s.nextToken := rfl
@[simp] theorem setBlk_migs (s : State) (b : Nat) (x : Block) : (setBlk s b x).migs = s.migs := rfl
@[simp] theorem setBlk_reported (s : State) (b : Nat) (x : Block) : (setBlk s b x).reported = s.reported := rfl
@[simp] theorem setBlk_silent (s : State) (b : Nat) (x : Block) : (setBlk s b x).silent = s.silent := rfl
@[simp] theorem setBlk_jobs (s : State) (b : Nat) (x : Block) : (setBlk s b x).jobs = s.jobs := rfl
@[simp] theorem setBlk_nextBlk (s : State) (b : Nat) (x : Block) : (setBlk s b x).nextBlk = s.nextBlk := rfl
@[simp] theorem setBlk_nextInst (s : State) (b : Nat) (x : Block) : (setBlk s b x).nextInst = s.nextInst := rfl
@[simp] theorem setBlk_nextUid (s : State) (b : Nat) (x : Block) : (setBlk s b x).nextUid = s.nextUid := rfl
@[simp] theorem setBlk_nextColl (s : State) (b : Nat) (x : Block) : (setBlk s b x).nextColl = s.nextColl := rfl
@[simp] theorem setBlk_nextJob (s : State) (b : Nat) (x : Block) : (setBlk s b x).nextJob = s.nextJob := rfl
@[simp] theorem setBlk_sel (s : State) (b : Nat) (x : Block) : (setBlk s b x).sel = s.sel := rfl
@[simp] theorem setBlk_inputs (s : State) (b : Nat) (x : Block) : (setBlk s b x).inputs = s.inputs := rfl
@[simp] theorem setBlk_free (s : State) (b : Nat) (x : Block) : (setBlk s b x).free = s.free := rfl

/-! setCore changes cores. -/

@[simp] theorem setCore_now (s : State) (c : Nat) (k : Core) : (setCore s c k).now = s.now := rfl
@[simp] theorem setCore_boot (s : State) (c : Nat) (k : Core) : (setCore s c k).boot = s.boot := rfl
@[simp] theorem setCore_mem (s : State) (c : Nat) (k : Core) : (setCore s c k).mem = s.mem := rfl
@[simp] theorem setCore_poison (s : State) (c : Nat) (k : Core) : (setCore s c k).poison = s.poison := rfl
@[simp] theorem setCore_latent (s : State) (c : Nat) (k : Core) : (setCore s c k).latent = s.latent := rfl
@[simp] theorem setCore_hist (s : State) (c : Nat) (k : Core) : (setCore s c k).hist = s.hist := rfl
@[simp] theorem setCore_pubs (s : State) (c : Nat) (k : Core) : (setCore s c k).pubs = s.pubs := rfl
@[simp] theorem setCore_stamp (s : State) (c : Nat) (k : Core) : (setCore s c k).stamp = s.stamp := rfl
@[simp] theorem setCore_flushed (s : State) (c : Nat) (k : Core) : (setCore s c k).flushed = s.flushed := rfl
@[simp] theorem setCore_clusters (s : State) (c : Nat) (k : Core) : (setCore s c k).clusters = s.clusters := rfl
@[simp] theorem setCore_regs (s : State) (c : Nat) (k : Core) : (setCore s c k).regs = s.regs := rfl
@[simp] theorem setCore_portA (s : State) (c : Nat) (k : Core) : (setCore s c k).portA = s.portA := rfl
@[simp] theorem setCore_portB (s : State) (c : Nat) (k : Core) : (setCore s c k).portB = s.portB := rfl
@[simp] theorem setCore_links (s : State) (c : Nat) (k : Core) : (setCore s c k).links = s.links := rfl
@[simp] theorem setCore_sh (s : State) (c : Nat) (k : Core) : (setCore s c k).sh = s.sh := rfl
@[simp] theorem setCore_ctxs (s : State) (c : Nat) (k : Core) : (setCore s c k).ctxs = s.ctxs := rfl
@[simp] theorem setCore_insts (s : State) (c : Nat) (k : Core) : (setCore s c k).insts = s.insts := rfl
@[simp] theorem setCore_blocks (s : State) (c : Nat) (k : Core) : (setCore s c k).blocks = s.blocks := rfl
@[simp] theorem setCore_comms (s : State) (c : Nat) (k : Core) : (setCore s c k).comms = s.comms := rfl
@[simp] theorem setCore_colls (s : State) (c : Nat) (k : Core) : (setCore s c k).colls = s.colls := rfl
@[simp] theorem setCore_pfaults (s : State) (c : Nat) (k : Core) : (setCore s c k).pfaults = s.pfaults := rfl
@[simp] theorem setCore_nextToken (s : State) (c : Nat) (k : Core) : (setCore s c k).nextToken = s.nextToken := rfl
@[simp] theorem setCore_migs (s : State) (c : Nat) (k : Core) : (setCore s c k).migs = s.migs := rfl
@[simp] theorem setCore_reported (s : State) (c : Nat) (k : Core) : (setCore s c k).reported = s.reported := rfl
@[simp] theorem setCore_silent (s : State) (c : Nat) (k : Core) : (setCore s c k).silent = s.silent := rfl
@[simp] theorem setCore_jobs (s : State) (c : Nat) (k : Core) : (setCore s c k).jobs = s.jobs := rfl
@[simp] theorem setCore_nextBlk (s : State) (c : Nat) (k : Core) : (setCore s c k).nextBlk = s.nextBlk := rfl
@[simp] theorem setCore_nextInst (s : State) (c : Nat) (k : Core) : (setCore s c k).nextInst = s.nextInst := rfl
@[simp] theorem setCore_nextUid (s : State) (c : Nat) (k : Core) : (setCore s c k).nextUid = s.nextUid := rfl
@[simp] theorem setCore_nextColl (s : State) (c : Nat) (k : Core) : (setCore s c k).nextColl = s.nextColl := rfl
@[simp] theorem setCore_nextJob (s : State) (c : Nat) (k : Core) : (setCore s c k).nextJob = s.nextJob := rfl
@[simp] theorem setCore_sel (s : State) (c : Nat) (k : Core) : (setCore s c k).sel = s.sel := rfl
@[simp] theorem setCore_inputs (s : State) (c : Nat) (k : Core) : (setCore s c k).inputs = s.inputs := rfl
@[simp] theorem setCore_free (s : State) (c : Nat) (k : Core) : (setCore s c k).free = s.free := rfl

/-! modCore changes cores. -/

@[simp] theorem modCore_now (s : State) (c : Nat) (f : Core → Core) : (modCore s c f).now = s.now := rfl
@[simp] theorem modCore_boot (s : State) (c : Nat) (f : Core → Core) : (modCore s c f).boot = s.boot := rfl
@[simp] theorem modCore_mem (s : State) (c : Nat) (f : Core → Core) : (modCore s c f).mem = s.mem := rfl
@[simp] theorem modCore_poison (s : State) (c : Nat) (f : Core → Core) : (modCore s c f).poison = s.poison := rfl
@[simp] theorem modCore_latent (s : State) (c : Nat) (f : Core → Core) : (modCore s c f).latent = s.latent := rfl
@[simp] theorem modCore_hist (s : State) (c : Nat) (f : Core → Core) : (modCore s c f).hist = s.hist := rfl
@[simp] theorem modCore_pubs (s : State) (c : Nat) (f : Core → Core) : (modCore s c f).pubs = s.pubs := rfl
@[simp] theorem modCore_stamp (s : State) (c : Nat) (f : Core → Core) : (modCore s c f).stamp = s.stamp := rfl
@[simp] theorem modCore_flushed (s : State) (c : Nat) (f : Core → Core) : (modCore s c f).flushed = s.flushed := rfl
@[simp] theorem modCore_clusters (s : State) (c : Nat) (f : Core → Core) : (modCore s c f).clusters = s.clusters := rfl
@[simp] theorem modCore_regs (s : State) (c : Nat) (f : Core → Core) : (modCore s c f).regs = s.regs := rfl
@[simp] theorem modCore_portA (s : State) (c : Nat) (f : Core → Core) : (modCore s c f).portA = s.portA := rfl
@[simp] theorem modCore_portB (s : State) (c : Nat) (f : Core → Core) : (modCore s c f).portB = s.portB := rfl
@[simp] theorem modCore_links (s : State) (c : Nat) (f : Core → Core) : (modCore s c f).links = s.links := rfl
@[simp] theorem modCore_sh (s : State) (c : Nat) (f : Core → Core) : (modCore s c f).sh = s.sh := rfl
@[simp] theorem modCore_ctxs (s : State) (c : Nat) (f : Core → Core) : (modCore s c f).ctxs = s.ctxs := rfl
@[simp] theorem modCore_insts (s : State) (c : Nat) (f : Core → Core) : (modCore s c f).insts = s.insts := rfl
@[simp] theorem modCore_blocks (s : State) (c : Nat) (f : Core → Core) : (modCore s c f).blocks = s.blocks := rfl
@[simp] theorem modCore_comms (s : State) (c : Nat) (f : Core → Core) : (modCore s c f).comms = s.comms := rfl
@[simp] theorem modCore_colls (s : State) (c : Nat) (f : Core → Core) : (modCore s c f).colls = s.colls := rfl
@[simp] theorem modCore_pfaults (s : State) (c : Nat) (f : Core → Core) : (modCore s c f).pfaults = s.pfaults := rfl
@[simp] theorem modCore_nextToken (s : State) (c : Nat) (f : Core → Core) : (modCore s c f).nextToken = s.nextToken := rfl
@[simp] theorem modCore_migs (s : State) (c : Nat) (f : Core → Core) : (modCore s c f).migs = s.migs := rfl
@[simp] theorem modCore_reported (s : State) (c : Nat) (f : Core → Core) : (modCore s c f).reported = s.reported := rfl
@[simp] theorem modCore_silent (s : State) (c : Nat) (f : Core → Core) : (modCore s c f).silent = s.silent := rfl
@[simp] theorem modCore_jobs (s : State) (c : Nat) (f : Core → Core) : (modCore s c f).jobs = s.jobs := rfl
@[simp] theorem modCore_nextBlk (s : State) (c : Nat) (f : Core → Core) : (modCore s c f).nextBlk = s.nextBlk := rfl
@[simp] theorem modCore_nextInst (s : State) (c : Nat) (f : Core → Core) : (modCore s c f).nextInst = s.nextInst := rfl
@[simp] theorem modCore_nextUid (s : State) (c : Nat) (f : Core → Core) : (modCore s c f).nextUid = s.nextUid := rfl
@[simp] theorem modCore_nextColl (s : State) (c : Nat) (f : Core → Core) : (modCore s c f).nextColl = s.nextColl := rfl
@[simp] theorem modCore_nextJob (s : State) (c : Nat) (f : Core → Core) : (modCore s c f).nextJob = s.nextJob := rfl
@[simp] theorem modCore_sel (s : State) (c : Nat) (f : Core → Core) : (modCore s c f).sel = s.sel := rfl
@[simp] theorem modCore_inputs (s : State) (c : Nat) (f : Core → Core) : (modCore s c f).inputs = s.inputs := rfl
@[simp] theorem modCore_free (s : State) (c : Nat) (f : Core → Core) : (modCore s c f).free = s.free := rfl

/-! setCluster changes clusters. -/

@[simp] theorem setCluster_now (s : State) (k : Nat) (x : Cluster) : (setCluster s k x).now = s.now := rfl
@[simp] theorem setCluster_boot (s : State) (k : Nat) (x : Cluster) : (setCluster s k x).boot = s.boot := rfl
@[simp] theorem setCluster_mem (s : State) (k : Nat) (x : Cluster) : (setCluster s k x).mem = s.mem := rfl
@[simp] theorem setCluster_poison (s : State) (k : Nat) (x : Cluster) : (setCluster s k x).poison = s.poison := rfl
@[simp] theorem setCluster_latent (s : State) (k : Nat) (x : Cluster) : (setCluster s k x).latent = s.latent := rfl
@[simp] theorem setCluster_hist (s : State) (k : Nat) (x : Cluster) : (setCluster s k x).hist = s.hist := rfl
@[simp] theorem setCluster_pubs (s : State) (k : Nat) (x : Cluster) : (setCluster s k x).pubs = s.pubs := rfl
@[simp] theorem setCluster_stamp (s : State) (k : Nat) (x : Cluster) : (setCluster s k x).stamp = s.stamp := rfl
@[simp] theorem setCluster_flushed (s : State) (k : Nat) (x : Cluster) : (setCluster s k x).flushed = s.flushed := rfl
@[simp] theorem setCluster_cores (s : State) (k : Nat) (x : Cluster) : (setCluster s k x).cores = s.cores := rfl
@[simp] theorem setCluster_regs (s : State) (k : Nat) (x : Cluster) : (setCluster s k x).regs = s.regs := rfl
@[simp] theorem setCluster_portA (s : State) (k : Nat) (x : Cluster) : (setCluster s k x).portA = s.portA := rfl
@[simp] theorem setCluster_portB (s : State) (k : Nat) (x : Cluster) : (setCluster s k x).portB = s.portB := rfl
@[simp] theorem setCluster_links (s : State) (k : Nat) (x : Cluster) : (setCluster s k x).links = s.links := rfl
@[simp] theorem setCluster_sh (s : State) (k : Nat) (x : Cluster) : (setCluster s k x).sh = s.sh := rfl
@[simp] theorem setCluster_ctxs (s : State) (k : Nat) (x : Cluster) : (setCluster s k x).ctxs = s.ctxs := rfl
@[simp] theorem setCluster_insts (s : State) (k : Nat) (x : Cluster) : (setCluster s k x).insts = s.insts := rfl
@[simp] theorem setCluster_blocks (s : State) (k : Nat) (x : Cluster) : (setCluster s k x).blocks = s.blocks := rfl
@[simp] theorem setCluster_comms (s : State) (k : Nat) (x : Cluster) : (setCluster s k x).comms = s.comms := rfl
@[simp] theorem setCluster_colls (s : State) (k : Nat) (x : Cluster) : (setCluster s k x).colls = s.colls := rfl
@[simp] theorem setCluster_pfaults (s : State) (k : Nat) (x : Cluster) : (setCluster s k x).pfaults = s.pfaults := rfl
@[simp] theorem setCluster_nextToken (s : State) (k : Nat) (x : Cluster) : (setCluster s k x).nextToken = s.nextToken := rfl
@[simp] theorem setCluster_migs (s : State) (k : Nat) (x : Cluster) : (setCluster s k x).migs = s.migs := rfl
@[simp] theorem setCluster_reported (s : State) (k : Nat) (x : Cluster) : (setCluster s k x).reported = s.reported := rfl
@[simp] theorem setCluster_silent (s : State) (k : Nat) (x : Cluster) : (setCluster s k x).silent = s.silent := rfl
@[simp] theorem setCluster_jobs (s : State) (k : Nat) (x : Cluster) : (setCluster s k x).jobs = s.jobs := rfl
@[simp] theorem setCluster_nextBlk (s : State) (k : Nat) (x : Cluster) : (setCluster s k x).nextBlk = s.nextBlk := rfl
@[simp] theorem setCluster_nextInst (s : State) (k : Nat) (x : Cluster) : (setCluster s k x).nextInst = s.nextInst := rfl
@[simp] theorem setCluster_nextUid (s : State) (k : Nat) (x : Cluster) : (setCluster s k x).nextUid = s.nextUid := rfl
@[simp] theorem setCluster_nextColl (s : State) (k : Nat) (x : Cluster) : (setCluster s k x).nextColl = s.nextColl := rfl
@[simp] theorem setCluster_nextJob (s : State) (k : Nat) (x : Cluster) : (setCluster s k x).nextJob = s.nextJob := rfl
@[simp] theorem setCluster_sel (s : State) (k : Nat) (x : Cluster) : (setCluster s k x).sel = s.sel := rfl
@[simp] theorem setCluster_inputs (s : State) (k : Nat) (x : Cluster) : (setCluster s k x).inputs = s.inputs := rfl
@[simp] theorem setCluster_free (s : State) (k : Nat) (x : Cluster) : (setCluster s k x).free = s.free := rfl

/-! modCluster changes clusters. -/

@[simp] theorem modCluster_now (s : State) (k : Nat) (f : Cluster → Cluster) : (modCluster s k f).now = s.now := rfl
@[simp] theorem modCluster_boot (s : State) (k : Nat) (f : Cluster → Cluster) : (modCluster s k f).boot = s.boot := rfl
@[simp] theorem modCluster_mem (s : State) (k : Nat) (f : Cluster → Cluster) : (modCluster s k f).mem = s.mem := rfl
@[simp] theorem modCluster_poison (s : State) (k : Nat) (f : Cluster → Cluster) : (modCluster s k f).poison = s.poison := rfl
@[simp] theorem modCluster_latent (s : State) (k : Nat) (f : Cluster → Cluster) : (modCluster s k f).latent = s.latent := rfl
@[simp] theorem modCluster_hist (s : State) (k : Nat) (f : Cluster → Cluster) : (modCluster s k f).hist = s.hist := rfl
@[simp] theorem modCluster_pubs (s : State) (k : Nat) (f : Cluster → Cluster) : (modCluster s k f).pubs = s.pubs := rfl
@[simp] theorem modCluster_stamp (s : State) (k : Nat) (f : Cluster → Cluster) : (modCluster s k f).stamp = s.stamp := rfl
@[simp] theorem modCluster_flushed (s : State) (k : Nat) (f : Cluster → Cluster) : (modCluster s k f).flushed = s.flushed := rfl
@[simp] theorem modCluster_cores (s : State) (k : Nat) (f : Cluster → Cluster) : (modCluster s k f).cores = s.cores := rfl
@[simp] theorem modCluster_regs (s : State) (k : Nat) (f : Cluster → Cluster) : (modCluster s k f).regs = s.regs := rfl
@[simp] theorem modCluster_portA (s : State) (k : Nat) (f : Cluster → Cluster) : (modCluster s k f).portA = s.portA := rfl
@[simp] theorem modCluster_portB (s : State) (k : Nat) (f : Cluster → Cluster) : (modCluster s k f).portB = s.portB := rfl
@[simp] theorem modCluster_links (s : State) (k : Nat) (f : Cluster → Cluster) : (modCluster s k f).links = s.links := rfl
@[simp] theorem modCluster_sh (s : State) (k : Nat) (f : Cluster → Cluster) : (modCluster s k f).sh = s.sh := rfl
@[simp] theorem modCluster_ctxs (s : State) (k : Nat) (f : Cluster → Cluster) : (modCluster s k f).ctxs = s.ctxs := rfl
@[simp] theorem modCluster_insts (s : State) (k : Nat) (f : Cluster → Cluster) : (modCluster s k f).insts = s.insts := rfl
@[simp] theorem modCluster_blocks (s : State) (k : Nat) (f : Cluster → Cluster) : (modCluster s k f).blocks = s.blocks := rfl
@[simp] theorem modCluster_comms (s : State) (k : Nat) (f : Cluster → Cluster) : (modCluster s k f).comms = s.comms := rfl
@[simp] theorem modCluster_colls (s : State) (k : Nat) (f : Cluster → Cluster) : (modCluster s k f).colls = s.colls := rfl
@[simp] theorem modCluster_pfaults (s : State) (k : Nat) (f : Cluster → Cluster) : (modCluster s k f).pfaults = s.pfaults := rfl
@[simp] theorem modCluster_nextToken (s : State) (k : Nat) (f : Cluster → Cluster) : (modCluster s k f).nextToken = s.nextToken := rfl
@[simp] theorem modCluster_migs (s : State) (k : Nat) (f : Cluster → Cluster) : (modCluster s k f).migs = s.migs := rfl
@[simp] theorem modCluster_reported (s : State) (k : Nat) (f : Cluster → Cluster) : (modCluster s k f).reported = s.reported := rfl
@[simp] theorem modCluster_silent (s : State) (k : Nat) (f : Cluster → Cluster) : (modCluster s k f).silent = s.silent := rfl
@[simp] theorem modCluster_jobs (s : State) (k : Nat) (f : Cluster → Cluster) : (modCluster s k f).jobs = s.jobs := rfl
@[simp] theorem modCluster_nextBlk (s : State) (k : Nat) (f : Cluster → Cluster) : (modCluster s k f).nextBlk = s.nextBlk := rfl
@[simp] theorem modCluster_nextInst (s : State) (k : Nat) (f : Cluster → Cluster) : (modCluster s k f).nextInst = s.nextInst := rfl
@[simp] theorem modCluster_nextUid (s : State) (k : Nat) (f : Cluster → Cluster) : (modCluster s k f).nextUid = s.nextUid := rfl
@[simp] theorem modCluster_nextColl (s : State) (k : Nat) (f : Cluster → Cluster) : (modCluster s k f).nextColl = s.nextColl := rfl
@[simp] theorem modCluster_nextJob (s : State) (k : Nat) (f : Cluster → Cluster) : (modCluster s k f).nextJob = s.nextJob := rfl
@[simp] theorem modCluster_sel (s : State) (k : Nat) (f : Cluster → Cluster) : (modCluster s k f).sel = s.sel := rfl
@[simp] theorem modCluster_inputs (s : State) (k : Nat) (f : Cluster → Cluster) : (modCluster s k f).inputs = s.inputs := rfl
@[simp] theorem modCluster_free (s : State) (k : Nat) (f : Cluster → Cluster) : (modCluster s k f).free = s.free := rfl

/-! modBank changes clusters. -/

@[simp] theorem modBank_now (s : State) (k b : Nat) (f : Bank → Bank) : (modBank s k b f).now = s.now := rfl
@[simp] theorem modBank_boot (s : State) (k b : Nat) (f : Bank → Bank) : (modBank s k b f).boot = s.boot := rfl
@[simp] theorem modBank_mem (s : State) (k b : Nat) (f : Bank → Bank) : (modBank s k b f).mem = s.mem := rfl
@[simp] theorem modBank_poison (s : State) (k b : Nat) (f : Bank → Bank) : (modBank s k b f).poison = s.poison := rfl
@[simp] theorem modBank_latent (s : State) (k b : Nat) (f : Bank → Bank) : (modBank s k b f).latent = s.latent := rfl
@[simp] theorem modBank_hist (s : State) (k b : Nat) (f : Bank → Bank) : (modBank s k b f).hist = s.hist := rfl
@[simp] theorem modBank_pubs (s : State) (k b : Nat) (f : Bank → Bank) : (modBank s k b f).pubs = s.pubs := rfl
@[simp] theorem modBank_stamp (s : State) (k b : Nat) (f : Bank → Bank) : (modBank s k b f).stamp = s.stamp := rfl
@[simp] theorem modBank_flushed (s : State) (k b : Nat) (f : Bank → Bank) : (modBank s k b f).flushed = s.flushed := rfl
@[simp] theorem modBank_cores (s : State) (k b : Nat) (f : Bank → Bank) : (modBank s k b f).cores = s.cores := rfl
@[simp] theorem modBank_regs (s : State) (k b : Nat) (f : Bank → Bank) : (modBank s k b f).regs = s.regs := rfl
@[simp] theorem modBank_portA (s : State) (k b : Nat) (f : Bank → Bank) : (modBank s k b f).portA = s.portA := rfl
@[simp] theorem modBank_portB (s : State) (k b : Nat) (f : Bank → Bank) : (modBank s k b f).portB = s.portB := rfl
@[simp] theorem modBank_links (s : State) (k b : Nat) (f : Bank → Bank) : (modBank s k b f).links = s.links := rfl
@[simp] theorem modBank_sh (s : State) (k b : Nat) (f : Bank → Bank) : (modBank s k b f).sh = s.sh := rfl
@[simp] theorem modBank_ctxs (s : State) (k b : Nat) (f : Bank → Bank) : (modBank s k b f).ctxs = s.ctxs := rfl
@[simp] theorem modBank_insts (s : State) (k b : Nat) (f : Bank → Bank) : (modBank s k b f).insts = s.insts := rfl
@[simp] theorem modBank_blocks (s : State) (k b : Nat) (f : Bank → Bank) : (modBank s k b f).blocks = s.blocks := rfl
@[simp] theorem modBank_comms (s : State) (k b : Nat) (f : Bank → Bank) : (modBank s k b f).comms = s.comms := rfl
@[simp] theorem modBank_colls (s : State) (k b : Nat) (f : Bank → Bank) : (modBank s k b f).colls = s.colls := rfl
@[simp] theorem modBank_pfaults (s : State) (k b : Nat) (f : Bank → Bank) : (modBank s k b f).pfaults = s.pfaults := rfl
@[simp] theorem modBank_nextToken (s : State) (k b : Nat) (f : Bank → Bank) : (modBank s k b f).nextToken = s.nextToken := rfl
@[simp] theorem modBank_migs (s : State) (k b : Nat) (f : Bank → Bank) : (modBank s k b f).migs = s.migs := rfl
@[simp] theorem modBank_reported (s : State) (k b : Nat) (f : Bank → Bank) : (modBank s k b f).reported = s.reported := rfl
@[simp] theorem modBank_silent (s : State) (k b : Nat) (f : Bank → Bank) : (modBank s k b f).silent = s.silent := rfl
@[simp] theorem modBank_jobs (s : State) (k b : Nat) (f : Bank → Bank) : (modBank s k b f).jobs = s.jobs := rfl
@[simp] theorem modBank_nextBlk (s : State) (k b : Nat) (f : Bank → Bank) : (modBank s k b f).nextBlk = s.nextBlk := rfl
@[simp] theorem modBank_nextInst (s : State) (k b : Nat) (f : Bank → Bank) : (modBank s k b f).nextInst = s.nextInst := rfl
@[simp] theorem modBank_nextUid (s : State) (k b : Nat) (f : Bank → Bank) : (modBank s k b f).nextUid = s.nextUid := rfl
@[simp] theorem modBank_nextColl (s : State) (k b : Nat) (f : Bank → Bank) : (modBank s k b f).nextColl = s.nextColl := rfl
@[simp] theorem modBank_nextJob (s : State) (k b : Nat) (f : Bank → Bank) : (modBank s k b f).nextJob = s.nextJob := rfl
@[simp] theorem modBank_sel (s : State) (k b : Nat) (f : Bank → Bank) : (modBank s k b f).sel = s.sel := rfl
@[simp] theorem modBank_inputs (s : State) (k b : Nat) (f : Bank → Bank) : (modBank s k b f).inputs = s.inputs := rfl
@[simp] theorem modBank_free (s : State) (k b : Nat) (f : Bank → Bank) : (modBank s k b f).free = s.free := rfl

/-! modQueue changes clusters. -/

@[simp] theorem modQueue_now (s : State) (k q : Nat) (f : Queue → Queue) : (modQueue s k q f).now = s.now := rfl
@[simp] theorem modQueue_boot (s : State) (k q : Nat) (f : Queue → Queue) : (modQueue s k q f).boot = s.boot := rfl
@[simp] theorem modQueue_mem (s : State) (k q : Nat) (f : Queue → Queue) : (modQueue s k q f).mem = s.mem := rfl
@[simp] theorem modQueue_poison (s : State) (k q : Nat) (f : Queue → Queue) : (modQueue s k q f).poison = s.poison := rfl
@[simp] theorem modQueue_latent (s : State) (k q : Nat) (f : Queue → Queue) : (modQueue s k q f).latent = s.latent := rfl
@[simp] theorem modQueue_hist (s : State) (k q : Nat) (f : Queue → Queue) : (modQueue s k q f).hist = s.hist := rfl
@[simp] theorem modQueue_pubs (s : State) (k q : Nat) (f : Queue → Queue) : (modQueue s k q f).pubs = s.pubs := rfl
@[simp] theorem modQueue_stamp (s : State) (k q : Nat) (f : Queue → Queue) : (modQueue s k q f).stamp = s.stamp := rfl
@[simp] theorem modQueue_flushed (s : State) (k q : Nat) (f : Queue → Queue) : (modQueue s k q f).flushed = s.flushed := rfl
@[simp] theorem modQueue_cores (s : State) (k q : Nat) (f : Queue → Queue) : (modQueue s k q f).cores = s.cores := rfl
@[simp] theorem modQueue_regs (s : State) (k q : Nat) (f : Queue → Queue) : (modQueue s k q f).regs = s.regs := rfl
@[simp] theorem modQueue_portA (s : State) (k q : Nat) (f : Queue → Queue) : (modQueue s k q f).portA = s.portA := rfl
@[simp] theorem modQueue_portB (s : State) (k q : Nat) (f : Queue → Queue) : (modQueue s k q f).portB = s.portB := rfl
@[simp] theorem modQueue_links (s : State) (k q : Nat) (f : Queue → Queue) : (modQueue s k q f).links = s.links := rfl
@[simp] theorem modQueue_sh (s : State) (k q : Nat) (f : Queue → Queue) : (modQueue s k q f).sh = s.sh := rfl
@[simp] theorem modQueue_ctxs (s : State) (k q : Nat) (f : Queue → Queue) : (modQueue s k q f).ctxs = s.ctxs := rfl
@[simp] theorem modQueue_insts (s : State) (k q : Nat) (f : Queue → Queue) : (modQueue s k q f).insts = s.insts := rfl
@[simp] theorem modQueue_blocks (s : State) (k q : Nat) (f : Queue → Queue) : (modQueue s k q f).blocks = s.blocks := rfl
@[simp] theorem modQueue_comms (s : State) (k q : Nat) (f : Queue → Queue) : (modQueue s k q f).comms = s.comms := rfl
@[simp] theorem modQueue_colls (s : State) (k q : Nat) (f : Queue → Queue) : (modQueue s k q f).colls = s.colls := rfl
@[simp] theorem modQueue_pfaults (s : State) (k q : Nat) (f : Queue → Queue) : (modQueue s k q f).pfaults = s.pfaults := rfl
@[simp] theorem modQueue_nextToken (s : State) (k q : Nat) (f : Queue → Queue) : (modQueue s k q f).nextToken = s.nextToken := rfl
@[simp] theorem modQueue_migs (s : State) (k q : Nat) (f : Queue → Queue) : (modQueue s k q f).migs = s.migs := rfl
@[simp] theorem modQueue_reported (s : State) (k q : Nat) (f : Queue → Queue) : (modQueue s k q f).reported = s.reported := rfl
@[simp] theorem modQueue_silent (s : State) (k q : Nat) (f : Queue → Queue) : (modQueue s k q f).silent = s.silent := rfl
@[simp] theorem modQueue_jobs (s : State) (k q : Nat) (f : Queue → Queue) : (modQueue s k q f).jobs = s.jobs := rfl
@[simp] theorem modQueue_nextBlk (s : State) (k q : Nat) (f : Queue → Queue) : (modQueue s k q f).nextBlk = s.nextBlk := rfl
@[simp] theorem modQueue_nextInst (s : State) (k q : Nat) (f : Queue → Queue) : (modQueue s k q f).nextInst = s.nextInst := rfl
@[simp] theorem modQueue_nextUid (s : State) (k q : Nat) (f : Queue → Queue) : (modQueue s k q f).nextUid = s.nextUid := rfl
@[simp] theorem modQueue_nextColl (s : State) (k q : Nat) (f : Queue → Queue) : (modQueue s k q f).nextColl = s.nextColl := rfl
@[simp] theorem modQueue_nextJob (s : State) (k q : Nat) (f : Queue → Queue) : (modQueue s k q f).nextJob = s.nextJob := rfl
@[simp] theorem modQueue_sel (s : State) (k q : Nat) (f : Queue → Queue) : (modQueue s k q f).sel = s.sel := rfl
@[simp] theorem modQueue_inputs (s : State) (k q : Nat) (f : Queue → Queue) : (modQueue s k q f).inputs = s.inputs := rfl
@[simp] theorem modQueue_free (s : State) (k q : Nat) (f : Queue → Queue) : (modQueue s k q f).free = s.free := rfl

/-! modReg changes regs. -/

@[simp] theorem modReg_now (s : State) (x : Nat) (f : Regulator → Regulator) : (modReg s x f).now = s.now := rfl
@[simp] theorem modReg_boot (s : State) (x : Nat) (f : Regulator → Regulator) : (modReg s x f).boot = s.boot := rfl
@[simp] theorem modReg_mem (s : State) (x : Nat) (f : Regulator → Regulator) : (modReg s x f).mem = s.mem := rfl
@[simp] theorem modReg_poison (s : State) (x : Nat) (f : Regulator → Regulator) : (modReg s x f).poison = s.poison := rfl
@[simp] theorem modReg_latent (s : State) (x : Nat) (f : Regulator → Regulator) : (modReg s x f).latent = s.latent := rfl
@[simp] theorem modReg_hist (s : State) (x : Nat) (f : Regulator → Regulator) : (modReg s x f).hist = s.hist := rfl
@[simp] theorem modReg_pubs (s : State) (x : Nat) (f : Regulator → Regulator) : (modReg s x f).pubs = s.pubs := rfl
@[simp] theorem modReg_stamp (s : State) (x : Nat) (f : Regulator → Regulator) : (modReg s x f).stamp = s.stamp := rfl
@[simp] theorem modReg_flushed (s : State) (x : Nat) (f : Regulator → Regulator) : (modReg s x f).flushed = s.flushed := rfl
@[simp] theorem modReg_cores (s : State) (x : Nat) (f : Regulator → Regulator) : (modReg s x f).cores = s.cores := rfl
@[simp] theorem modReg_clusters (s : State) (x : Nat) (f : Regulator → Regulator) : (modReg s x f).clusters = s.clusters := rfl
@[simp] theorem modReg_portA (s : State) (x : Nat) (f : Regulator → Regulator) : (modReg s x f).portA = s.portA := rfl
@[simp] theorem modReg_portB (s : State) (x : Nat) (f : Regulator → Regulator) : (modReg s x f).portB = s.portB := rfl
@[simp] theorem modReg_links (s : State) (x : Nat) (f : Regulator → Regulator) : (modReg s x f).links = s.links := rfl
@[simp] theorem modReg_sh (s : State) (x : Nat) (f : Regulator → Regulator) : (modReg s x f).sh = s.sh := rfl
@[simp] theorem modReg_ctxs (s : State) (x : Nat) (f : Regulator → Regulator) : (modReg s x f).ctxs = s.ctxs := rfl
@[simp] theorem modReg_insts (s : State) (x : Nat) (f : Regulator → Regulator) : (modReg s x f).insts = s.insts := rfl
@[simp] theorem modReg_blocks (s : State) (x : Nat) (f : Regulator → Regulator) : (modReg s x f).blocks = s.blocks := rfl
@[simp] theorem modReg_comms (s : State) (x : Nat) (f : Regulator → Regulator) : (modReg s x f).comms = s.comms := rfl
@[simp] theorem modReg_colls (s : State) (x : Nat) (f : Regulator → Regulator) : (modReg s x f).colls = s.colls := rfl
@[simp] theorem modReg_pfaults (s : State) (x : Nat) (f : Regulator → Regulator) : (modReg s x f).pfaults = s.pfaults := rfl
@[simp] theorem modReg_nextToken (s : State) (x : Nat) (f : Regulator → Regulator) : (modReg s x f).nextToken = s.nextToken := rfl
@[simp] theorem modReg_migs (s : State) (x : Nat) (f : Regulator → Regulator) : (modReg s x f).migs = s.migs := rfl
@[simp] theorem modReg_reported (s : State) (x : Nat) (f : Regulator → Regulator) : (modReg s x f).reported = s.reported := rfl
@[simp] theorem modReg_silent (s : State) (x : Nat) (f : Regulator → Regulator) : (modReg s x f).silent = s.silent := rfl
@[simp] theorem modReg_jobs (s : State) (x : Nat) (f : Regulator → Regulator) : (modReg s x f).jobs = s.jobs := rfl
@[simp] theorem modReg_nextBlk (s : State) (x : Nat) (f : Regulator → Regulator) : (modReg s x f).nextBlk = s.nextBlk := rfl
@[simp] theorem modReg_nextInst (s : State) (x : Nat) (f : Regulator → Regulator) : (modReg s x f).nextInst = s.nextInst := rfl
@[simp] theorem modReg_nextUid (s : State) (x : Nat) (f : Regulator → Regulator) : (modReg s x f).nextUid = s.nextUid := rfl
@[simp] theorem modReg_nextColl (s : State) (x : Nat) (f : Regulator → Regulator) : (modReg s x f).nextColl = s.nextColl := rfl
@[simp] theorem modReg_nextJob (s : State) (x : Nat) (f : Regulator → Regulator) : (modReg s x f).nextJob = s.nextJob := rfl
@[simp] theorem modReg_sel (s : State) (x : Nat) (f : Regulator → Regulator) : (modReg s x f).sel = s.sel := rfl
@[simp] theorem modReg_inputs (s : State) (x : Nat) (f : Regulator → Regulator) : (modReg s x f).inputs = s.inputs := rfl
@[simp] theorem modReg_free (s : State) (x : Nat) (f : Regulator → Regulator) : (modReg s x f).free = s.free := rfl

/-! modLink changes links. -/

@[simp] theorem modLink_now (s : State) (p : Nat) (f : Link → Link) : (modLink s p f).now = s.now := rfl
@[simp] theorem modLink_boot (s : State) (p : Nat) (f : Link → Link) : (modLink s p f).boot = s.boot := rfl
@[simp] theorem modLink_mem (s : State) (p : Nat) (f : Link → Link) : (modLink s p f).mem = s.mem := rfl
@[simp] theorem modLink_poison (s : State) (p : Nat) (f : Link → Link) : (modLink s p f).poison = s.poison := rfl
@[simp] theorem modLink_latent (s : State) (p : Nat) (f : Link → Link) : (modLink s p f).latent = s.latent := rfl
@[simp] theorem modLink_hist (s : State) (p : Nat) (f : Link → Link) : (modLink s p f).hist = s.hist := rfl
@[simp] theorem modLink_pubs (s : State) (p : Nat) (f : Link → Link) : (modLink s p f).pubs = s.pubs := rfl
@[simp] theorem modLink_stamp (s : State) (p : Nat) (f : Link → Link) : (modLink s p f).stamp = s.stamp := rfl
@[simp] theorem modLink_flushed (s : State) (p : Nat) (f : Link → Link) : (modLink s p f).flushed = s.flushed := rfl
@[simp] theorem modLink_cores (s : State) (p : Nat) (f : Link → Link) : (modLink s p f).cores = s.cores := rfl
@[simp] theorem modLink_clusters (s : State) (p : Nat) (f : Link → Link) : (modLink s p f).clusters = s.clusters := rfl
@[simp] theorem modLink_regs (s : State) (p : Nat) (f : Link → Link) : (modLink s p f).regs = s.regs := rfl
@[simp] theorem modLink_portA (s : State) (p : Nat) (f : Link → Link) : (modLink s p f).portA = s.portA := rfl
@[simp] theorem modLink_portB (s : State) (p : Nat) (f : Link → Link) : (modLink s p f).portB = s.portB := rfl
@[simp] theorem modLink_sh (s : State) (p : Nat) (f : Link → Link) : (modLink s p f).sh = s.sh := rfl
@[simp] theorem modLink_ctxs (s : State) (p : Nat) (f : Link → Link) : (modLink s p f).ctxs = s.ctxs := rfl
@[simp] theorem modLink_insts (s : State) (p : Nat) (f : Link → Link) : (modLink s p f).insts = s.insts := rfl
@[simp] theorem modLink_blocks (s : State) (p : Nat) (f : Link → Link) : (modLink s p f).blocks = s.blocks := rfl
@[simp] theorem modLink_comms (s : State) (p : Nat) (f : Link → Link) : (modLink s p f).comms = s.comms := rfl
@[simp] theorem modLink_colls (s : State) (p : Nat) (f : Link → Link) : (modLink s p f).colls = s.colls := rfl
@[simp] theorem modLink_pfaults (s : State) (p : Nat) (f : Link → Link) : (modLink s p f).pfaults = s.pfaults := rfl
@[simp] theorem modLink_nextToken (s : State) (p : Nat) (f : Link → Link) : (modLink s p f).nextToken = s.nextToken := rfl
@[simp] theorem modLink_migs (s : State) (p : Nat) (f : Link → Link) : (modLink s p f).migs = s.migs := rfl
@[simp] theorem modLink_reported (s : State) (p : Nat) (f : Link → Link) : (modLink s p f).reported = s.reported := rfl
@[simp] theorem modLink_silent (s : State) (p : Nat) (f : Link → Link) : (modLink s p f).silent = s.silent := rfl
@[simp] theorem modLink_jobs (s : State) (p : Nat) (f : Link → Link) : (modLink s p f).jobs = s.jobs := rfl
@[simp] theorem modLink_nextBlk (s : State) (p : Nat) (f : Link → Link) : (modLink s p f).nextBlk = s.nextBlk := rfl
@[simp] theorem modLink_nextInst (s : State) (p : Nat) (f : Link → Link) : (modLink s p f).nextInst = s.nextInst := rfl
@[simp] theorem modLink_nextUid (s : State) (p : Nat) (f : Link → Link) : (modLink s p f).nextUid = s.nextUid := rfl
@[simp] theorem modLink_nextColl (s : State) (p : Nat) (f : Link → Link) : (modLink s p f).nextColl = s.nextColl := rfl
@[simp] theorem modLink_nextJob (s : State) (p : Nat) (f : Link → Link) : (modLink s p f).nextJob = s.nextJob := rfl
@[simp] theorem modLink_sel (s : State) (p : Nat) (f : Link → Link) : (modLink s p f).sel = s.sel := rfl
@[simp] theorem modLink_inputs (s : State) (p : Nat) (f : Link → Link) : (modLink s p f).inputs = s.inputs := rfl
@[simp] theorem modLink_free (s : State) (p : Nat) (f : Link → Link) : (modLink s p f).free = s.free := rfl

/-! modSh changes sh. -/

@[simp] theorem modSh_now (s : State) (f : Shared → Shared) : (modSh s f).now = s.now := rfl
@[simp] theorem modSh_boot (s : State) (f : Shared → Shared) : (modSh s f).boot = s.boot := rfl
@[simp] theorem modSh_mem (s : State) (f : Shared → Shared) : (modSh s f).mem = s.mem := rfl
@[simp] theorem modSh_poison (s : State) (f : Shared → Shared) : (modSh s f).poison = s.poison := rfl
@[simp] theorem modSh_latent (s : State) (f : Shared → Shared) : (modSh s f).latent = s.latent := rfl
@[simp] theorem modSh_hist (s : State) (f : Shared → Shared) : (modSh s f).hist = s.hist := rfl
@[simp] theorem modSh_pubs (s : State) (f : Shared → Shared) : (modSh s f).pubs = s.pubs := rfl
@[simp] theorem modSh_stamp (s : State) (f : Shared → Shared) : (modSh s f).stamp = s.stamp := rfl
@[simp] theorem modSh_flushed (s : State) (f : Shared → Shared) : (modSh s f).flushed = s.flushed := rfl
@[simp] theorem modSh_cores (s : State) (f : Shared → Shared) : (modSh s f).cores = s.cores := rfl
@[simp] theorem modSh_clusters (s : State) (f : Shared → Shared) : (modSh s f).clusters = s.clusters := rfl
@[simp] theorem modSh_regs (s : State) (f : Shared → Shared) : (modSh s f).regs = s.regs := rfl
@[simp] theorem modSh_portA (s : State) (f : Shared → Shared) : (modSh s f).portA = s.portA := rfl
@[simp] theorem modSh_portB (s : State) (f : Shared → Shared) : (modSh s f).portB = s.portB := rfl
@[simp] theorem modSh_links (s : State) (f : Shared → Shared) : (modSh s f).links = s.links := rfl
@[simp] theorem modSh_ctxs (s : State) (f : Shared → Shared) : (modSh s f).ctxs = s.ctxs := rfl
@[simp] theorem modSh_insts (s : State) (f : Shared → Shared) : (modSh s f).insts = s.insts := rfl
@[simp] theorem modSh_blocks (s : State) (f : Shared → Shared) : (modSh s f).blocks = s.blocks := rfl
@[simp] theorem modSh_comms (s : State) (f : Shared → Shared) : (modSh s f).comms = s.comms := rfl
@[simp] theorem modSh_colls (s : State) (f : Shared → Shared) : (modSh s f).colls = s.colls := rfl
@[simp] theorem modSh_pfaults (s : State) (f : Shared → Shared) : (modSh s f).pfaults = s.pfaults := rfl
@[simp] theorem modSh_nextToken (s : State) (f : Shared → Shared) : (modSh s f).nextToken = s.nextToken := rfl
@[simp] theorem modSh_migs (s : State) (f : Shared → Shared) : (modSh s f).migs = s.migs := rfl
@[simp] theorem modSh_reported (s : State) (f : Shared → Shared) : (modSh s f).reported = s.reported := rfl
@[simp] theorem modSh_silent (s : State) (f : Shared → Shared) : (modSh s f).silent = s.silent := rfl
@[simp] theorem modSh_jobs (s : State) (f : Shared → Shared) : (modSh s f).jobs = s.jobs := rfl
@[simp] theorem modSh_nextBlk (s : State) (f : Shared → Shared) : (modSh s f).nextBlk = s.nextBlk := rfl
@[simp] theorem modSh_nextInst (s : State) (f : Shared → Shared) : (modSh s f).nextInst = s.nextInst := rfl
@[simp] theorem modSh_nextUid (s : State) (f : Shared → Shared) : (modSh s f).nextUid = s.nextUid := rfl
@[simp] theorem modSh_nextColl (s : State) (f : Shared → Shared) : (modSh s f).nextColl = s.nextColl := rfl
@[simp] theorem modSh_nextJob (s : State) (f : Shared → Shared) : (modSh s f).nextJob = s.nextJob := rfl
@[simp] theorem modSh_sel (s : State) (f : Shared → Shared) : (modSh s f).sel = s.sel := rfl
@[simp] theorem modSh_inputs (s : State) (f : Shared → Shared) : (modSh s f).inputs = s.inputs := rfl
@[simp] theorem modSh_free (s : State) (f : Shared → Shared) : (modSh s f).free = s.free := rfl

/-! setPort changes portA or portB. -/

@[simp] theorem setPort_now (s : State) (hp : HPort) (x : Port) : (setPort s hp x).now = s.now := by cases hp <;> rfl
@[simp] theorem setPort_boot (s : State) (hp : HPort) (x : Port) : (setPort s hp x).boot = s.boot := by cases hp <;> rfl
@[simp] theorem setPort_mem (s : State) (hp : HPort) (x : Port) : (setPort s hp x).mem = s.mem := by cases hp <;> rfl
@[simp] theorem setPort_poison (s : State) (hp : HPort) (x : Port) : (setPort s hp x).poison = s.poison := by cases hp <;> rfl
@[simp] theorem setPort_latent (s : State) (hp : HPort) (x : Port) : (setPort s hp x).latent = s.latent := by cases hp <;> rfl
@[simp] theorem setPort_hist (s : State) (hp : HPort) (x : Port) : (setPort s hp x).hist = s.hist := by cases hp <;> rfl
@[simp] theorem setPort_pubs (s : State) (hp : HPort) (x : Port) : (setPort s hp x).pubs = s.pubs := by cases hp <;> rfl
@[simp] theorem setPort_stamp (s : State) (hp : HPort) (x : Port) : (setPort s hp x).stamp = s.stamp := by cases hp <;> rfl
@[simp] theorem setPort_flushed (s : State) (hp : HPort) (x : Port) : (setPort s hp x).flushed = s.flushed := by cases hp <;> rfl
@[simp] theorem setPort_cores (s : State) (hp : HPort) (x : Port) : (setPort s hp x).cores = s.cores := by cases hp <;> rfl
@[simp] theorem setPort_clusters (s : State) (hp : HPort) (x : Port) : (setPort s hp x).clusters = s.clusters := by cases hp <;> rfl
@[simp] theorem setPort_regs (s : State) (hp : HPort) (x : Port) : (setPort s hp x).regs = s.regs := by cases hp <;> rfl
@[simp] theorem setPort_links (s : State) (hp : HPort) (x : Port) : (setPort s hp x).links = s.links := by cases hp <;> rfl
@[simp] theorem setPort_sh (s : State) (hp : HPort) (x : Port) : (setPort s hp x).sh = s.sh := by cases hp <;> rfl
@[simp] theorem setPort_ctxs (s : State) (hp : HPort) (x : Port) : (setPort s hp x).ctxs = s.ctxs := by cases hp <;> rfl
@[simp] theorem setPort_insts (s : State) (hp : HPort) (x : Port) : (setPort s hp x).insts = s.insts := by cases hp <;> rfl
@[simp] theorem setPort_blocks (s : State) (hp : HPort) (x : Port) : (setPort s hp x).blocks = s.blocks := by cases hp <;> rfl
@[simp] theorem setPort_comms (s : State) (hp : HPort) (x : Port) : (setPort s hp x).comms = s.comms := by cases hp <;> rfl
@[simp] theorem setPort_colls (s : State) (hp : HPort) (x : Port) : (setPort s hp x).colls = s.colls := by cases hp <;> rfl
@[simp] theorem setPort_pfaults (s : State) (hp : HPort) (x : Port) : (setPort s hp x).pfaults = s.pfaults := by cases hp <;> rfl
@[simp] theorem setPort_nextToken (s : State) (hp : HPort) (x : Port) : (setPort s hp x).nextToken = s.nextToken := by cases hp <;> rfl
@[simp] theorem setPort_migs (s : State) (hp : HPort) (x : Port) : (setPort s hp x).migs = s.migs := by cases hp <;> rfl
@[simp] theorem setPort_reported (s : State) (hp : HPort) (x : Port) : (setPort s hp x).reported = s.reported := by cases hp <;> rfl
@[simp] theorem setPort_silent (s : State) (hp : HPort) (x : Port) : (setPort s hp x).silent = s.silent := by cases hp <;> rfl
@[simp] theorem setPort_jobs (s : State) (hp : HPort) (x : Port) : (setPort s hp x).jobs = s.jobs := by cases hp <;> rfl
@[simp] theorem setPort_nextBlk (s : State) (hp : HPort) (x : Port) : (setPort s hp x).nextBlk = s.nextBlk := by cases hp <;> rfl
@[simp] theorem setPort_nextInst (s : State) (hp : HPort) (x : Port) : (setPort s hp x).nextInst = s.nextInst := by cases hp <;> rfl
@[simp] theorem setPort_nextUid (s : State) (hp : HPort) (x : Port) : (setPort s hp x).nextUid = s.nextUid := by cases hp <;> rfl
@[simp] theorem setPort_nextColl (s : State) (hp : HPort) (x : Port) : (setPort s hp x).nextColl = s.nextColl := by cases hp <;> rfl
@[simp] theorem setPort_nextJob (s : State) (hp : HPort) (x : Port) : (setPort s hp x).nextJob = s.nextJob := by cases hp <;> rfl
@[simp] theorem setPort_sel (s : State) (hp : HPort) (x : Port) : (setPort s hp x).sel = s.sel := by cases hp <;> rfl
@[simp] theorem setPort_inputs (s : State) (hp : HPort) (x : Port) : (setPort s hp x).inputs = s.inputs := by cases hp <;> rfl
@[simp] theorem setPort_free (s : State) (hp : HPort) (x : Port) : (setPort s hp x).free = s.free := by cases hp <;> rfl

/-! modPort changes portA or portB. -/

@[simp] theorem modPort_now (s : State) (hp : HPort) (f : Port → Port) : (modPort s hp f).now = s.now := setPort_now ..
@[simp] theorem modPort_boot (s : State) (hp : HPort) (f : Port → Port) : (modPort s hp f).boot = s.boot := setPort_boot ..
@[simp] theorem modPort_mem (s : State) (hp : HPort) (f : Port → Port) : (modPort s hp f).mem = s.mem := setPort_mem ..
@[simp] theorem modPort_poison (s : State) (hp : HPort) (f : Port → Port) : (modPort s hp f).poison = s.poison := setPort_poison ..
@[simp] theorem modPort_latent (s : State) (hp : HPort) (f : Port → Port) : (modPort s hp f).latent = s.latent := setPort_latent ..
@[simp] theorem modPort_hist (s : State) (hp : HPort) (f : Port → Port) : (modPort s hp f).hist = s.hist := setPort_hist ..
@[simp] theorem modPort_pubs (s : State) (hp : HPort) (f : Port → Port) : (modPort s hp f).pubs = s.pubs := setPort_pubs ..
@[simp] theorem modPort_stamp (s : State) (hp : HPort) (f : Port → Port) : (modPort s hp f).stamp = s.stamp := setPort_stamp ..
@[simp] theorem modPort_flushed (s : State) (hp : HPort) (f : Port → Port) : (modPort s hp f).flushed = s.flushed := setPort_flushed ..
@[simp] theorem modPort_cores (s : State) (hp : HPort) (f : Port → Port) : (modPort s hp f).cores = s.cores := setPort_cores ..
@[simp] theorem modPort_clusters (s : State) (hp : HPort) (f : Port → Port) : (modPort s hp f).clusters = s.clusters := setPort_clusters ..
@[simp] theorem modPort_regs (s : State) (hp : HPort) (f : Port → Port) : (modPort s hp f).regs = s.regs := setPort_regs ..
@[simp] theorem modPort_links (s : State) (hp : HPort) (f : Port → Port) : (modPort s hp f).links = s.links := setPort_links ..
@[simp] theorem modPort_sh (s : State) (hp : HPort) (f : Port → Port) : (modPort s hp f).sh = s.sh := setPort_sh ..
@[simp] theorem modPort_ctxs (s : State) (hp : HPort) (f : Port → Port) : (modPort s hp f).ctxs = s.ctxs := setPort_ctxs ..
@[simp] theorem modPort_insts (s : State) (hp : HPort) (f : Port → Port) : (modPort s hp f).insts = s.insts := setPort_insts ..
@[simp] theorem modPort_blocks (s : State) (hp : HPort) (f : Port → Port) : (modPort s hp f).blocks = s.blocks := setPort_blocks ..
@[simp] theorem modPort_comms (s : State) (hp : HPort) (f : Port → Port) : (modPort s hp f).comms = s.comms := setPort_comms ..
@[simp] theorem modPort_colls (s : State) (hp : HPort) (f : Port → Port) : (modPort s hp f).colls = s.colls := setPort_colls ..
@[simp] theorem modPort_pfaults (s : State) (hp : HPort) (f : Port → Port) : (modPort s hp f).pfaults = s.pfaults := setPort_pfaults ..
@[simp] theorem modPort_nextToken (s : State) (hp : HPort) (f : Port → Port) : (modPort s hp f).nextToken = s.nextToken := setPort_nextToken ..
@[simp] theorem modPort_migs (s : State) (hp : HPort) (f : Port → Port) : (modPort s hp f).migs = s.migs := setPort_migs ..
@[simp] theorem modPort_reported (s : State) (hp : HPort) (f : Port → Port) : (modPort s hp f).reported = s.reported := setPort_reported ..
@[simp] theorem modPort_silent (s : State) (hp : HPort) (f : Port → Port) : (modPort s hp f).silent = s.silent := setPort_silent ..
@[simp] theorem modPort_jobs (s : State) (hp : HPort) (f : Port → Port) : (modPort s hp f).jobs = s.jobs := setPort_jobs ..
@[simp] theorem modPort_nextBlk (s : State) (hp : HPort) (f : Port → Port) : (modPort s hp f).nextBlk = s.nextBlk := setPort_nextBlk ..
@[simp] theorem modPort_nextInst (s : State) (hp : HPort) (f : Port → Port) : (modPort s hp f).nextInst = s.nextInst := setPort_nextInst ..
@[simp] theorem modPort_nextUid (s : State) (hp : HPort) (f : Port → Port) : (modPort s hp f).nextUid = s.nextUid := setPort_nextUid ..
@[simp] theorem modPort_nextColl (s : State) (hp : HPort) (f : Port → Port) : (modPort s hp f).nextColl = s.nextColl := setPort_nextColl ..
@[simp] theorem modPort_nextJob (s : State) (hp : HPort) (f : Port → Port) : (modPort s hp f).nextJob = s.nextJob := setPort_nextJob ..
@[simp] theorem modPort_sel (s : State) (hp : HPort) (f : Port → Port) : (modPort s hp f).sel = s.sel := setPort_sel ..
@[simp] theorem modPort_inputs (s : State) (hp : HPort) (f : Port → Port) : (modPort s hp f).inputs = s.inputs := setPort_inputs ..
@[simp] theorem modPort_free (s : State) (hp : HPort) (f : Port → Port) : (modPort s hp f).free = s.free := setPort_free ..

/-! modHost changes portA or portB. -/

@[simp] theorem modHost_now (s : State) (hp : HPort) (f : HostRegs → HostRegs) : (modHost s hp f).now = s.now := setPort_now ..
@[simp] theorem modHost_boot (s : State) (hp : HPort) (f : HostRegs → HostRegs) : (modHost s hp f).boot = s.boot := setPort_boot ..
@[simp] theorem modHost_mem (s : State) (hp : HPort) (f : HostRegs → HostRegs) : (modHost s hp f).mem = s.mem := setPort_mem ..
@[simp] theorem modHost_poison (s : State) (hp : HPort) (f : HostRegs → HostRegs) : (modHost s hp f).poison = s.poison := setPort_poison ..
@[simp] theorem modHost_latent (s : State) (hp : HPort) (f : HostRegs → HostRegs) : (modHost s hp f).latent = s.latent := setPort_latent ..
@[simp] theorem modHost_hist (s : State) (hp : HPort) (f : HostRegs → HostRegs) : (modHost s hp f).hist = s.hist := setPort_hist ..
@[simp] theorem modHost_pubs (s : State) (hp : HPort) (f : HostRegs → HostRegs) : (modHost s hp f).pubs = s.pubs := setPort_pubs ..
@[simp] theorem modHost_stamp (s : State) (hp : HPort) (f : HostRegs → HostRegs) : (modHost s hp f).stamp = s.stamp := setPort_stamp ..
@[simp] theorem modHost_flushed (s : State) (hp : HPort) (f : HostRegs → HostRegs) : (modHost s hp f).flushed = s.flushed := setPort_flushed ..
@[simp] theorem modHost_cores (s : State) (hp : HPort) (f : HostRegs → HostRegs) : (modHost s hp f).cores = s.cores := setPort_cores ..
@[simp] theorem modHost_clusters (s : State) (hp : HPort) (f : HostRegs → HostRegs) : (modHost s hp f).clusters = s.clusters := setPort_clusters ..
@[simp] theorem modHost_regs (s : State) (hp : HPort) (f : HostRegs → HostRegs) : (modHost s hp f).regs = s.regs := setPort_regs ..
@[simp] theorem modHost_links (s : State) (hp : HPort) (f : HostRegs → HostRegs) : (modHost s hp f).links = s.links := setPort_links ..
@[simp] theorem modHost_sh (s : State) (hp : HPort) (f : HostRegs → HostRegs) : (modHost s hp f).sh = s.sh := setPort_sh ..
@[simp] theorem modHost_ctxs (s : State) (hp : HPort) (f : HostRegs → HostRegs) : (modHost s hp f).ctxs = s.ctxs := setPort_ctxs ..
@[simp] theorem modHost_insts (s : State) (hp : HPort) (f : HostRegs → HostRegs) : (modHost s hp f).insts = s.insts := setPort_insts ..
@[simp] theorem modHost_blocks (s : State) (hp : HPort) (f : HostRegs → HostRegs) : (modHost s hp f).blocks = s.blocks := setPort_blocks ..
@[simp] theorem modHost_comms (s : State) (hp : HPort) (f : HostRegs → HostRegs) : (modHost s hp f).comms = s.comms := setPort_comms ..
@[simp] theorem modHost_colls (s : State) (hp : HPort) (f : HostRegs → HostRegs) : (modHost s hp f).colls = s.colls := setPort_colls ..
@[simp] theorem modHost_pfaults (s : State) (hp : HPort) (f : HostRegs → HostRegs) : (modHost s hp f).pfaults = s.pfaults := setPort_pfaults ..
@[simp] theorem modHost_nextToken (s : State) (hp : HPort) (f : HostRegs → HostRegs) : (modHost s hp f).nextToken = s.nextToken := setPort_nextToken ..
@[simp] theorem modHost_migs (s : State) (hp : HPort) (f : HostRegs → HostRegs) : (modHost s hp f).migs = s.migs := setPort_migs ..
@[simp] theorem modHost_reported (s : State) (hp : HPort) (f : HostRegs → HostRegs) : (modHost s hp f).reported = s.reported := setPort_reported ..
@[simp] theorem modHost_silent (s : State) (hp : HPort) (f : HostRegs → HostRegs) : (modHost s hp f).silent = s.silent := setPort_silent ..
@[simp] theorem modHost_jobs (s : State) (hp : HPort) (f : HostRegs → HostRegs) : (modHost s hp f).jobs = s.jobs := setPort_jobs ..
@[simp] theorem modHost_nextBlk (s : State) (hp : HPort) (f : HostRegs → HostRegs) : (modHost s hp f).nextBlk = s.nextBlk := setPort_nextBlk ..
@[simp] theorem modHost_nextInst (s : State) (hp : HPort) (f : HostRegs → HostRegs) : (modHost s hp f).nextInst = s.nextInst := setPort_nextInst ..
@[simp] theorem modHost_nextUid (s : State) (hp : HPort) (f : HostRegs → HostRegs) : (modHost s hp f).nextUid = s.nextUid := setPort_nextUid ..
@[simp] theorem modHost_nextColl (s : State) (hp : HPort) (f : HostRegs → HostRegs) : (modHost s hp f).nextColl = s.nextColl := setPort_nextColl ..
@[simp] theorem modHost_nextJob (s : State) (hp : HPort) (f : HostRegs → HostRegs) : (modHost s hp f).nextJob = s.nextJob := setPort_nextJob ..
@[simp] theorem modHost_sel (s : State) (hp : HPort) (f : HostRegs → HostRegs) : (modHost s hp f).sel = s.sel := setPort_sel ..
@[simp] theorem modHost_inputs (s : State) (hp : HPort) (f : HostRegs → HostRegs) : (modHost s hp f).inputs = s.inputs := setPort_inputs ..
@[simp] theorem modHost_free (s : State) (hp : HPort) (f : HostRegs → HostRegs) : (modHost s hp f).free = s.free := setPort_free ..

/-! modSub changes portA or portB. -/

@[simp] theorem modSub_now (s : State) (hp : HPort) (f : Subm → Subm) : (modSub s hp f).now = s.now := setPort_now ..
@[simp] theorem modSub_boot (s : State) (hp : HPort) (f : Subm → Subm) : (modSub s hp f).boot = s.boot := setPort_boot ..
@[simp] theorem modSub_mem (s : State) (hp : HPort) (f : Subm → Subm) : (modSub s hp f).mem = s.mem := setPort_mem ..
@[simp] theorem modSub_poison (s : State) (hp : HPort) (f : Subm → Subm) : (modSub s hp f).poison = s.poison := setPort_poison ..
@[simp] theorem modSub_latent (s : State) (hp : HPort) (f : Subm → Subm) : (modSub s hp f).latent = s.latent := setPort_latent ..
@[simp] theorem modSub_hist (s : State) (hp : HPort) (f : Subm → Subm) : (modSub s hp f).hist = s.hist := setPort_hist ..
@[simp] theorem modSub_pubs (s : State) (hp : HPort) (f : Subm → Subm) : (modSub s hp f).pubs = s.pubs := setPort_pubs ..
@[simp] theorem modSub_stamp (s : State) (hp : HPort) (f : Subm → Subm) : (modSub s hp f).stamp = s.stamp := setPort_stamp ..
@[simp] theorem modSub_flushed (s : State) (hp : HPort) (f : Subm → Subm) : (modSub s hp f).flushed = s.flushed := setPort_flushed ..
@[simp] theorem modSub_cores (s : State) (hp : HPort) (f : Subm → Subm) : (modSub s hp f).cores = s.cores := setPort_cores ..
@[simp] theorem modSub_clusters (s : State) (hp : HPort) (f : Subm → Subm) : (modSub s hp f).clusters = s.clusters := setPort_clusters ..
@[simp] theorem modSub_regs (s : State) (hp : HPort) (f : Subm → Subm) : (modSub s hp f).regs = s.regs := setPort_regs ..
@[simp] theorem modSub_links (s : State) (hp : HPort) (f : Subm → Subm) : (modSub s hp f).links = s.links := setPort_links ..
@[simp] theorem modSub_sh (s : State) (hp : HPort) (f : Subm → Subm) : (modSub s hp f).sh = s.sh := setPort_sh ..
@[simp] theorem modSub_ctxs (s : State) (hp : HPort) (f : Subm → Subm) : (modSub s hp f).ctxs = s.ctxs := setPort_ctxs ..
@[simp] theorem modSub_insts (s : State) (hp : HPort) (f : Subm → Subm) : (modSub s hp f).insts = s.insts := setPort_insts ..
@[simp] theorem modSub_blocks (s : State) (hp : HPort) (f : Subm → Subm) : (modSub s hp f).blocks = s.blocks := setPort_blocks ..
@[simp] theorem modSub_comms (s : State) (hp : HPort) (f : Subm → Subm) : (modSub s hp f).comms = s.comms := setPort_comms ..
@[simp] theorem modSub_colls (s : State) (hp : HPort) (f : Subm → Subm) : (modSub s hp f).colls = s.colls := setPort_colls ..
@[simp] theorem modSub_pfaults (s : State) (hp : HPort) (f : Subm → Subm) : (modSub s hp f).pfaults = s.pfaults := setPort_pfaults ..
@[simp] theorem modSub_nextToken (s : State) (hp : HPort) (f : Subm → Subm) : (modSub s hp f).nextToken = s.nextToken := setPort_nextToken ..
@[simp] theorem modSub_migs (s : State) (hp : HPort) (f : Subm → Subm) : (modSub s hp f).migs = s.migs := setPort_migs ..
@[simp] theorem modSub_reported (s : State) (hp : HPort) (f : Subm → Subm) : (modSub s hp f).reported = s.reported := setPort_reported ..
@[simp] theorem modSub_silent (s : State) (hp : HPort) (f : Subm → Subm) : (modSub s hp f).silent = s.silent := setPort_silent ..
@[simp] theorem modSub_jobs (s : State) (hp : HPort) (f : Subm → Subm) : (modSub s hp f).jobs = s.jobs := setPort_jobs ..
@[simp] theorem modSub_nextBlk (s : State) (hp : HPort) (f : Subm → Subm) : (modSub s hp f).nextBlk = s.nextBlk := setPort_nextBlk ..
@[simp] theorem modSub_nextInst (s : State) (hp : HPort) (f : Subm → Subm) : (modSub s hp f).nextInst = s.nextInst := setPort_nextInst ..
@[simp] theorem modSub_nextUid (s : State) (hp : HPort) (f : Subm → Subm) : (modSub s hp f).nextUid = s.nextUid := setPort_nextUid ..
@[simp] theorem modSub_nextColl (s : State) (hp : HPort) (f : Subm → Subm) : (modSub s hp f).nextColl = s.nextColl := setPort_nextColl ..
@[simp] theorem modSub_nextJob (s : State) (hp : HPort) (f : Subm → Subm) : (modSub s hp f).nextJob = s.nextJob := setPort_nextJob ..
@[simp] theorem modSub_sel (s : State) (hp : HPort) (f : Subm → Subm) : (modSub s hp f).sel = s.sel := setPort_sel ..
@[simp] theorem modSub_inputs (s : State) (hp : HPort) (f : Subm → Subm) : (modSub s hp f).inputs = s.inputs := setPort_inputs ..
@[simp] theorem modSub_free (s : State) (hp : HPort) (f : Subm → Subm) : (modSub s hp f).free = s.free := setPort_free ..

/-! modTrap changes portA or portB. -/

@[simp] theorem modTrap_now (s : State) (hp : HPort) (f : TrapRing → TrapRing) : (modTrap s hp f).now = s.now := setPort_now ..
@[simp] theorem modTrap_boot (s : State) (hp : HPort) (f : TrapRing → TrapRing) : (modTrap s hp f).boot = s.boot := setPort_boot ..
@[simp] theorem modTrap_mem (s : State) (hp : HPort) (f : TrapRing → TrapRing) : (modTrap s hp f).mem = s.mem := setPort_mem ..
@[simp] theorem modTrap_poison (s : State) (hp : HPort) (f : TrapRing → TrapRing) : (modTrap s hp f).poison = s.poison := setPort_poison ..
@[simp] theorem modTrap_latent (s : State) (hp : HPort) (f : TrapRing → TrapRing) : (modTrap s hp f).latent = s.latent := setPort_latent ..
@[simp] theorem modTrap_hist (s : State) (hp : HPort) (f : TrapRing → TrapRing) : (modTrap s hp f).hist = s.hist := setPort_hist ..
@[simp] theorem modTrap_pubs (s : State) (hp : HPort) (f : TrapRing → TrapRing) : (modTrap s hp f).pubs = s.pubs := setPort_pubs ..
@[simp] theorem modTrap_stamp (s : State) (hp : HPort) (f : TrapRing → TrapRing) : (modTrap s hp f).stamp = s.stamp := setPort_stamp ..
@[simp] theorem modTrap_flushed (s : State) (hp : HPort) (f : TrapRing → TrapRing) : (modTrap s hp f).flushed = s.flushed := setPort_flushed ..
@[simp] theorem modTrap_cores (s : State) (hp : HPort) (f : TrapRing → TrapRing) : (modTrap s hp f).cores = s.cores := setPort_cores ..
@[simp] theorem modTrap_clusters (s : State) (hp : HPort) (f : TrapRing → TrapRing) : (modTrap s hp f).clusters = s.clusters := setPort_clusters ..
@[simp] theorem modTrap_regs (s : State) (hp : HPort) (f : TrapRing → TrapRing) : (modTrap s hp f).regs = s.regs := setPort_regs ..
@[simp] theorem modTrap_links (s : State) (hp : HPort) (f : TrapRing → TrapRing) : (modTrap s hp f).links = s.links := setPort_links ..
@[simp] theorem modTrap_sh (s : State) (hp : HPort) (f : TrapRing → TrapRing) : (modTrap s hp f).sh = s.sh := setPort_sh ..
@[simp] theorem modTrap_ctxs (s : State) (hp : HPort) (f : TrapRing → TrapRing) : (modTrap s hp f).ctxs = s.ctxs := setPort_ctxs ..
@[simp] theorem modTrap_insts (s : State) (hp : HPort) (f : TrapRing → TrapRing) : (modTrap s hp f).insts = s.insts := setPort_insts ..
@[simp] theorem modTrap_blocks (s : State) (hp : HPort) (f : TrapRing → TrapRing) : (modTrap s hp f).blocks = s.blocks := setPort_blocks ..
@[simp] theorem modTrap_comms (s : State) (hp : HPort) (f : TrapRing → TrapRing) : (modTrap s hp f).comms = s.comms := setPort_comms ..
@[simp] theorem modTrap_colls (s : State) (hp : HPort) (f : TrapRing → TrapRing) : (modTrap s hp f).colls = s.colls := setPort_colls ..
@[simp] theorem modTrap_pfaults (s : State) (hp : HPort) (f : TrapRing → TrapRing) : (modTrap s hp f).pfaults = s.pfaults := setPort_pfaults ..
@[simp] theorem modTrap_nextToken (s : State) (hp : HPort) (f : TrapRing → TrapRing) : (modTrap s hp f).nextToken = s.nextToken := setPort_nextToken ..
@[simp] theorem modTrap_migs (s : State) (hp : HPort) (f : TrapRing → TrapRing) : (modTrap s hp f).migs = s.migs := setPort_migs ..
@[simp] theorem modTrap_reported (s : State) (hp : HPort) (f : TrapRing → TrapRing) : (modTrap s hp f).reported = s.reported := setPort_reported ..
@[simp] theorem modTrap_silent (s : State) (hp : HPort) (f : TrapRing → TrapRing) : (modTrap s hp f).silent = s.silent := setPort_silent ..
@[simp] theorem modTrap_jobs (s : State) (hp : HPort) (f : TrapRing → TrapRing) : (modTrap s hp f).jobs = s.jobs := setPort_jobs ..
@[simp] theorem modTrap_nextBlk (s : State) (hp : HPort) (f : TrapRing → TrapRing) : (modTrap s hp f).nextBlk = s.nextBlk := setPort_nextBlk ..
@[simp] theorem modTrap_nextInst (s : State) (hp : HPort) (f : TrapRing → TrapRing) : (modTrap s hp f).nextInst = s.nextInst := setPort_nextInst ..
@[simp] theorem modTrap_nextUid (s : State) (hp : HPort) (f : TrapRing → TrapRing) : (modTrap s hp f).nextUid = s.nextUid := setPort_nextUid ..
@[simp] theorem modTrap_nextColl (s : State) (hp : HPort) (f : TrapRing → TrapRing) : (modTrap s hp f).nextColl = s.nextColl := setPort_nextColl ..
@[simp] theorem modTrap_nextJob (s : State) (hp : HPort) (f : TrapRing → TrapRing) : (modTrap s hp f).nextJob = s.nextJob := setPort_nextJob ..
@[simp] theorem modTrap_sel (s : State) (hp : HPort) (f : TrapRing → TrapRing) : (modTrap s hp f).sel = s.sel := setPort_sel ..
@[simp] theorem modTrap_inputs (s : State) (hp : HPort) (f : TrapRing → TrapRing) : (modTrap s hp f).inputs = s.inputs := setPort_inputs ..
@[simp] theorem modTrap_free (s : State) (hp : HPort) (f : TrapRing → TrapRing) : (modTrap s hp f).free = s.free := setPort_free ..

/-! modDbg changes portA or portB. -/

@[simp] theorem modDbg_now (s : State) (hp : HPort) (f : Dbg → Dbg) : (modDbg s hp f).now = s.now := setPort_now ..
@[simp] theorem modDbg_boot (s : State) (hp : HPort) (f : Dbg → Dbg) : (modDbg s hp f).boot = s.boot := setPort_boot ..
@[simp] theorem modDbg_mem (s : State) (hp : HPort) (f : Dbg → Dbg) : (modDbg s hp f).mem = s.mem := setPort_mem ..
@[simp] theorem modDbg_poison (s : State) (hp : HPort) (f : Dbg → Dbg) : (modDbg s hp f).poison = s.poison := setPort_poison ..
@[simp] theorem modDbg_latent (s : State) (hp : HPort) (f : Dbg → Dbg) : (modDbg s hp f).latent = s.latent := setPort_latent ..
@[simp] theorem modDbg_hist (s : State) (hp : HPort) (f : Dbg → Dbg) : (modDbg s hp f).hist = s.hist := setPort_hist ..
@[simp] theorem modDbg_pubs (s : State) (hp : HPort) (f : Dbg → Dbg) : (modDbg s hp f).pubs = s.pubs := setPort_pubs ..
@[simp] theorem modDbg_stamp (s : State) (hp : HPort) (f : Dbg → Dbg) : (modDbg s hp f).stamp = s.stamp := setPort_stamp ..
@[simp] theorem modDbg_flushed (s : State) (hp : HPort) (f : Dbg → Dbg) : (modDbg s hp f).flushed = s.flushed := setPort_flushed ..
@[simp] theorem modDbg_cores (s : State) (hp : HPort) (f : Dbg → Dbg) : (modDbg s hp f).cores = s.cores := setPort_cores ..
@[simp] theorem modDbg_clusters (s : State) (hp : HPort) (f : Dbg → Dbg) : (modDbg s hp f).clusters = s.clusters := setPort_clusters ..
@[simp] theorem modDbg_regs (s : State) (hp : HPort) (f : Dbg → Dbg) : (modDbg s hp f).regs = s.regs := setPort_regs ..
@[simp] theorem modDbg_links (s : State) (hp : HPort) (f : Dbg → Dbg) : (modDbg s hp f).links = s.links := setPort_links ..
@[simp] theorem modDbg_sh (s : State) (hp : HPort) (f : Dbg → Dbg) : (modDbg s hp f).sh = s.sh := setPort_sh ..
@[simp] theorem modDbg_ctxs (s : State) (hp : HPort) (f : Dbg → Dbg) : (modDbg s hp f).ctxs = s.ctxs := setPort_ctxs ..
@[simp] theorem modDbg_insts (s : State) (hp : HPort) (f : Dbg → Dbg) : (modDbg s hp f).insts = s.insts := setPort_insts ..
@[simp] theorem modDbg_blocks (s : State) (hp : HPort) (f : Dbg → Dbg) : (modDbg s hp f).blocks = s.blocks := setPort_blocks ..
@[simp] theorem modDbg_comms (s : State) (hp : HPort) (f : Dbg → Dbg) : (modDbg s hp f).comms = s.comms := setPort_comms ..
@[simp] theorem modDbg_colls (s : State) (hp : HPort) (f : Dbg → Dbg) : (modDbg s hp f).colls = s.colls := setPort_colls ..
@[simp] theorem modDbg_pfaults (s : State) (hp : HPort) (f : Dbg → Dbg) : (modDbg s hp f).pfaults = s.pfaults := setPort_pfaults ..
@[simp] theorem modDbg_nextToken (s : State) (hp : HPort) (f : Dbg → Dbg) : (modDbg s hp f).nextToken = s.nextToken := setPort_nextToken ..
@[simp] theorem modDbg_migs (s : State) (hp : HPort) (f : Dbg → Dbg) : (modDbg s hp f).migs = s.migs := setPort_migs ..
@[simp] theorem modDbg_reported (s : State) (hp : HPort) (f : Dbg → Dbg) : (modDbg s hp f).reported = s.reported := setPort_reported ..
@[simp] theorem modDbg_silent (s : State) (hp : HPort) (f : Dbg → Dbg) : (modDbg s hp f).silent = s.silent := setPort_silent ..
@[simp] theorem modDbg_jobs (s : State) (hp : HPort) (f : Dbg → Dbg) : (modDbg s hp f).jobs = s.jobs := setPort_jobs ..
@[simp] theorem modDbg_nextBlk (s : State) (hp : HPort) (f : Dbg → Dbg) : (modDbg s hp f).nextBlk = s.nextBlk := setPort_nextBlk ..
@[simp] theorem modDbg_nextInst (s : State) (hp : HPort) (f : Dbg → Dbg) : (modDbg s hp f).nextInst = s.nextInst := setPort_nextInst ..
@[simp] theorem modDbg_nextUid (s : State) (hp : HPort) (f : Dbg → Dbg) : (modDbg s hp f).nextUid = s.nextUid := setPort_nextUid ..
@[simp] theorem modDbg_nextColl (s : State) (hp : HPort) (f : Dbg → Dbg) : (modDbg s hp f).nextColl = s.nextColl := setPort_nextColl ..
@[simp] theorem modDbg_nextJob (s : State) (hp : HPort) (f : Dbg → Dbg) : (modDbg s hp f).nextJob = s.nextJob := setPort_nextJob ..
@[simp] theorem modDbg_sel (s : State) (hp : HPort) (f : Dbg → Dbg) : (modDbg s hp f).sel = s.sel := setPort_sel ..
@[simp] theorem modDbg_inputs (s : State) (hp : HPort) (f : Dbg → Dbg) : (modDbg s hp f).inputs = s.inputs := setPort_inputs ..
@[simp] theorem modDbg_free (s : State) (hp : HPort) (f : Dbg → Dbg) : (modDbg s hp f).free = s.free := setPort_free ..

/-! modCtx changes ctxs. -/

@[simp] theorem modCtx_now (s : State) (c : Word) (f : Context → Context) : (modCtx s c f).now = s.now := by unfold modCtx; split <;> rfl
@[simp] theorem modCtx_boot (s : State) (c : Word) (f : Context → Context) : (modCtx s c f).boot = s.boot := by unfold modCtx; split <;> rfl
@[simp] theorem modCtx_mem (s : State) (c : Word) (f : Context → Context) : (modCtx s c f).mem = s.mem := by unfold modCtx; split <;> rfl
@[simp] theorem modCtx_poison (s : State) (c : Word) (f : Context → Context) : (modCtx s c f).poison = s.poison := by unfold modCtx; split <;> rfl
@[simp] theorem modCtx_latent (s : State) (c : Word) (f : Context → Context) : (modCtx s c f).latent = s.latent := by unfold modCtx; split <;> rfl
@[simp] theorem modCtx_hist (s : State) (c : Word) (f : Context → Context) : (modCtx s c f).hist = s.hist := by unfold modCtx; split <;> rfl
@[simp] theorem modCtx_pubs (s : State) (c : Word) (f : Context → Context) : (modCtx s c f).pubs = s.pubs := by unfold modCtx; split <;> rfl
@[simp] theorem modCtx_stamp (s : State) (c : Word) (f : Context → Context) : (modCtx s c f).stamp = s.stamp := by unfold modCtx; split <;> rfl
@[simp] theorem modCtx_flushed (s : State) (c : Word) (f : Context → Context) : (modCtx s c f).flushed = s.flushed := by unfold modCtx; split <;> rfl
@[simp] theorem modCtx_cores (s : State) (c : Word) (f : Context → Context) : (modCtx s c f).cores = s.cores := by unfold modCtx; split <;> rfl
@[simp] theorem modCtx_clusters (s : State) (c : Word) (f : Context → Context) : (modCtx s c f).clusters = s.clusters := by unfold modCtx; split <;> rfl
@[simp] theorem modCtx_regs (s : State) (c : Word) (f : Context → Context) : (modCtx s c f).regs = s.regs := by unfold modCtx; split <;> rfl
@[simp] theorem modCtx_portA (s : State) (c : Word) (f : Context → Context) : (modCtx s c f).portA = s.portA := by unfold modCtx; split <;> rfl
@[simp] theorem modCtx_portB (s : State) (c : Word) (f : Context → Context) : (modCtx s c f).portB = s.portB := by unfold modCtx; split <;> rfl
@[simp] theorem modCtx_links (s : State) (c : Word) (f : Context → Context) : (modCtx s c f).links = s.links := by unfold modCtx; split <;> rfl
@[simp] theorem modCtx_sh (s : State) (c : Word) (f : Context → Context) : (modCtx s c f).sh = s.sh := by unfold modCtx; split <;> rfl
@[simp] theorem modCtx_insts (s : State) (c : Word) (f : Context → Context) : (modCtx s c f).insts = s.insts := by unfold modCtx; split <;> rfl
@[simp] theorem modCtx_blocks (s : State) (c : Word) (f : Context → Context) : (modCtx s c f).blocks = s.blocks := by unfold modCtx; split <;> rfl
@[simp] theorem modCtx_comms (s : State) (c : Word) (f : Context → Context) : (modCtx s c f).comms = s.comms := by unfold modCtx; split <;> rfl
@[simp] theorem modCtx_colls (s : State) (c : Word) (f : Context → Context) : (modCtx s c f).colls = s.colls := by unfold modCtx; split <;> rfl
@[simp] theorem modCtx_pfaults (s : State) (c : Word) (f : Context → Context) : (modCtx s c f).pfaults = s.pfaults := by unfold modCtx; split <;> rfl
@[simp] theorem modCtx_nextToken (s : State) (c : Word) (f : Context → Context) : (modCtx s c f).nextToken = s.nextToken := by unfold modCtx; split <;> rfl
@[simp] theorem modCtx_migs (s : State) (c : Word) (f : Context → Context) : (modCtx s c f).migs = s.migs := by unfold modCtx; split <;> rfl
@[simp] theorem modCtx_reported (s : State) (c : Word) (f : Context → Context) : (modCtx s c f).reported = s.reported := by unfold modCtx; split <;> rfl
@[simp] theorem modCtx_silent (s : State) (c : Word) (f : Context → Context) : (modCtx s c f).silent = s.silent := by unfold modCtx; split <;> rfl
@[simp] theorem modCtx_jobs (s : State) (c : Word) (f : Context → Context) : (modCtx s c f).jobs = s.jobs := by unfold modCtx; split <;> rfl
@[simp] theorem modCtx_nextBlk (s : State) (c : Word) (f : Context → Context) : (modCtx s c f).nextBlk = s.nextBlk := by unfold modCtx; split <;> rfl
@[simp] theorem modCtx_nextInst (s : State) (c : Word) (f : Context → Context) : (modCtx s c f).nextInst = s.nextInst := by unfold modCtx; split <;> rfl
@[simp] theorem modCtx_nextUid (s : State) (c : Word) (f : Context → Context) : (modCtx s c f).nextUid = s.nextUid := by unfold modCtx; split <;> rfl
@[simp] theorem modCtx_nextColl (s : State) (c : Word) (f : Context → Context) : (modCtx s c f).nextColl = s.nextColl := by unfold modCtx; split <;> rfl
@[simp] theorem modCtx_nextJob (s : State) (c : Word) (f : Context → Context) : (modCtx s c f).nextJob = s.nextJob := by unfold modCtx; split <;> rfl
@[simp] theorem modCtx_sel (s : State) (c : Word) (f : Context → Context) : (modCtx s c f).sel = s.sel := by unfold modCtx; split <;> rfl
@[simp] theorem modCtx_inputs (s : State) (c : Word) (f : Context → Context) : (modCtx s c f).inputs = s.inputs := by unfold modCtx; split <;> rfl
@[simp] theorem modCtx_free (s : State) (c : Word) (f : Context → Context) : (modCtx s c f).free = s.free := by unfold modCtx; split <;> rfl

/-! modBlk changes blocks. -/

@[simp] theorem modBlk_now (s : State) (b : Nat) (f : Block → Block) : (modBlk s b f).now = s.now := by unfold modBlk; split <;> rfl
@[simp] theorem modBlk_boot (s : State) (b : Nat) (f : Block → Block) : (modBlk s b f).boot = s.boot := by unfold modBlk; split <;> rfl
@[simp] theorem modBlk_mem (s : State) (b : Nat) (f : Block → Block) : (modBlk s b f).mem = s.mem := by unfold modBlk; split <;> rfl
@[simp] theorem modBlk_poison (s : State) (b : Nat) (f : Block → Block) : (modBlk s b f).poison = s.poison := by unfold modBlk; split <;> rfl
@[simp] theorem modBlk_latent (s : State) (b : Nat) (f : Block → Block) : (modBlk s b f).latent = s.latent := by unfold modBlk; split <;> rfl
@[simp] theorem modBlk_hist (s : State) (b : Nat) (f : Block → Block) : (modBlk s b f).hist = s.hist := by unfold modBlk; split <;> rfl
@[simp] theorem modBlk_pubs (s : State) (b : Nat) (f : Block → Block) : (modBlk s b f).pubs = s.pubs := by unfold modBlk; split <;> rfl
@[simp] theorem modBlk_stamp (s : State) (b : Nat) (f : Block → Block) : (modBlk s b f).stamp = s.stamp := by unfold modBlk; split <;> rfl
@[simp] theorem modBlk_flushed (s : State) (b : Nat) (f : Block → Block) : (modBlk s b f).flushed = s.flushed := by unfold modBlk; split <;> rfl
@[simp] theorem modBlk_cores (s : State) (b : Nat) (f : Block → Block) : (modBlk s b f).cores = s.cores := by unfold modBlk; split <;> rfl
@[simp] theorem modBlk_clusters (s : State) (b : Nat) (f : Block → Block) : (modBlk s b f).clusters = s.clusters := by unfold modBlk; split <;> rfl
@[simp] theorem modBlk_regs (s : State) (b : Nat) (f : Block → Block) : (modBlk s b f).regs = s.regs := by unfold modBlk; split <;> rfl
@[simp] theorem modBlk_portA (s : State) (b : Nat) (f : Block → Block) : (modBlk s b f).portA = s.portA := by unfold modBlk; split <;> rfl
@[simp] theorem modBlk_portB (s : State) (b : Nat) (f : Block → Block) : (modBlk s b f).portB = s.portB := by unfold modBlk; split <;> rfl
@[simp] theorem modBlk_links (s : State) (b : Nat) (f : Block → Block) : (modBlk s b f).links = s.links := by unfold modBlk; split <;> rfl
@[simp] theorem modBlk_sh (s : State) (b : Nat) (f : Block → Block) : (modBlk s b f).sh = s.sh := by unfold modBlk; split <;> rfl
@[simp] theorem modBlk_ctxs (s : State) (b : Nat) (f : Block → Block) : (modBlk s b f).ctxs = s.ctxs := by unfold modBlk; split <;> rfl
@[simp] theorem modBlk_insts (s : State) (b : Nat) (f : Block → Block) : (modBlk s b f).insts = s.insts := by unfold modBlk; split <;> rfl
@[simp] theorem modBlk_comms (s : State) (b : Nat) (f : Block → Block) : (modBlk s b f).comms = s.comms := by unfold modBlk; split <;> rfl
@[simp] theorem modBlk_colls (s : State) (b : Nat) (f : Block → Block) : (modBlk s b f).colls = s.colls := by unfold modBlk; split <;> rfl
@[simp] theorem modBlk_pfaults (s : State) (b : Nat) (f : Block → Block) : (modBlk s b f).pfaults = s.pfaults := by unfold modBlk; split <;> rfl
@[simp] theorem modBlk_nextToken (s : State) (b : Nat) (f : Block → Block) : (modBlk s b f).nextToken = s.nextToken := by unfold modBlk; split <;> rfl
@[simp] theorem modBlk_migs (s : State) (b : Nat) (f : Block → Block) : (modBlk s b f).migs = s.migs := by unfold modBlk; split <;> rfl
@[simp] theorem modBlk_reported (s : State) (b : Nat) (f : Block → Block) : (modBlk s b f).reported = s.reported := by unfold modBlk; split <;> rfl
@[simp] theorem modBlk_silent (s : State) (b : Nat) (f : Block → Block) : (modBlk s b f).silent = s.silent := by unfold modBlk; split <;> rfl
@[simp] theorem modBlk_jobs (s : State) (b : Nat) (f : Block → Block) : (modBlk s b f).jobs = s.jobs := by unfold modBlk; split <;> rfl
@[simp] theorem modBlk_nextBlk (s : State) (b : Nat) (f : Block → Block) : (modBlk s b f).nextBlk = s.nextBlk := by unfold modBlk; split <;> rfl
@[simp] theorem modBlk_nextInst (s : State) (b : Nat) (f : Block → Block) : (modBlk s b f).nextInst = s.nextInst := by unfold modBlk; split <;> rfl
@[simp] theorem modBlk_nextUid (s : State) (b : Nat) (f : Block → Block) : (modBlk s b f).nextUid = s.nextUid := by unfold modBlk; split <;> rfl
@[simp] theorem modBlk_nextColl (s : State) (b : Nat) (f : Block → Block) : (modBlk s b f).nextColl = s.nextColl := by unfold modBlk; split <;> rfl
@[simp] theorem modBlk_nextJob (s : State) (b : Nat) (f : Block → Block) : (modBlk s b f).nextJob = s.nextJob := by unfold modBlk; split <;> rfl
@[simp] theorem modBlk_sel (s : State) (b : Nat) (f : Block → Block) : (modBlk s b f).sel = s.sel := by unfold modBlk; split <;> rfl
@[simp] theorem modBlk_inputs (s : State) (b : Nat) (f : Block → Block) : (modBlk s b f).inputs = s.inputs := by unfold modBlk; split <;> rfl
@[simp] theorem modBlk_free (s : State) (b : Nat) (f : Block → Block) : (modBlk s b f).free = s.free := by unfold modBlk; split <;> rfl

/-! modGrp changes blocks. -/

@[simp] theorem modGrp_now (s : State) (b g : Nat) (f : Group → Group) : (modGrp s b g f).now = s.now := modBlk_now ..
@[simp] theorem modGrp_boot (s : State) (b g : Nat) (f : Group → Group) : (modGrp s b g f).boot = s.boot := modBlk_boot ..
@[simp] theorem modGrp_mem (s : State) (b g : Nat) (f : Group → Group) : (modGrp s b g f).mem = s.mem := modBlk_mem ..
@[simp] theorem modGrp_poison (s : State) (b g : Nat) (f : Group → Group) : (modGrp s b g f).poison = s.poison := modBlk_poison ..
@[simp] theorem modGrp_latent (s : State) (b g : Nat) (f : Group → Group) : (modGrp s b g f).latent = s.latent := modBlk_latent ..
@[simp] theorem modGrp_hist (s : State) (b g : Nat) (f : Group → Group) : (modGrp s b g f).hist = s.hist := modBlk_hist ..
@[simp] theorem modGrp_pubs (s : State) (b g : Nat) (f : Group → Group) : (modGrp s b g f).pubs = s.pubs := modBlk_pubs ..
@[simp] theorem modGrp_stamp (s : State) (b g : Nat) (f : Group → Group) : (modGrp s b g f).stamp = s.stamp := modBlk_stamp ..
@[simp] theorem modGrp_flushed (s : State) (b g : Nat) (f : Group → Group) : (modGrp s b g f).flushed = s.flushed := modBlk_flushed ..
@[simp] theorem modGrp_cores (s : State) (b g : Nat) (f : Group → Group) : (modGrp s b g f).cores = s.cores := modBlk_cores ..
@[simp] theorem modGrp_clusters (s : State) (b g : Nat) (f : Group → Group) : (modGrp s b g f).clusters = s.clusters := modBlk_clusters ..
@[simp] theorem modGrp_regs (s : State) (b g : Nat) (f : Group → Group) : (modGrp s b g f).regs = s.regs := modBlk_regs ..
@[simp] theorem modGrp_portA (s : State) (b g : Nat) (f : Group → Group) : (modGrp s b g f).portA = s.portA := modBlk_portA ..
@[simp] theorem modGrp_portB (s : State) (b g : Nat) (f : Group → Group) : (modGrp s b g f).portB = s.portB := modBlk_portB ..
@[simp] theorem modGrp_links (s : State) (b g : Nat) (f : Group → Group) : (modGrp s b g f).links = s.links := modBlk_links ..
@[simp] theorem modGrp_sh (s : State) (b g : Nat) (f : Group → Group) : (modGrp s b g f).sh = s.sh := modBlk_sh ..
@[simp] theorem modGrp_ctxs (s : State) (b g : Nat) (f : Group → Group) : (modGrp s b g f).ctxs = s.ctxs := modBlk_ctxs ..
@[simp] theorem modGrp_insts (s : State) (b g : Nat) (f : Group → Group) : (modGrp s b g f).insts = s.insts := modBlk_insts ..
@[simp] theorem modGrp_comms (s : State) (b g : Nat) (f : Group → Group) : (modGrp s b g f).comms = s.comms := modBlk_comms ..
@[simp] theorem modGrp_colls (s : State) (b g : Nat) (f : Group → Group) : (modGrp s b g f).colls = s.colls := modBlk_colls ..
@[simp] theorem modGrp_pfaults (s : State) (b g : Nat) (f : Group → Group) : (modGrp s b g f).pfaults = s.pfaults := modBlk_pfaults ..
@[simp] theorem modGrp_nextToken (s : State) (b g : Nat) (f : Group → Group) : (modGrp s b g f).nextToken = s.nextToken := modBlk_nextToken ..
@[simp] theorem modGrp_migs (s : State) (b g : Nat) (f : Group → Group) : (modGrp s b g f).migs = s.migs := modBlk_migs ..
@[simp] theorem modGrp_reported (s : State) (b g : Nat) (f : Group → Group) : (modGrp s b g f).reported = s.reported := modBlk_reported ..
@[simp] theorem modGrp_silent (s : State) (b g : Nat) (f : Group → Group) : (modGrp s b g f).silent = s.silent := modBlk_silent ..
@[simp] theorem modGrp_jobs (s : State) (b g : Nat) (f : Group → Group) : (modGrp s b g f).jobs = s.jobs := modBlk_jobs ..
@[simp] theorem modGrp_nextBlk (s : State) (b g : Nat) (f : Group → Group) : (modGrp s b g f).nextBlk = s.nextBlk := modBlk_nextBlk ..
@[simp] theorem modGrp_nextInst (s : State) (b g : Nat) (f : Group → Group) : (modGrp s b g f).nextInst = s.nextInst := modBlk_nextInst ..
@[simp] theorem modGrp_nextUid (s : State) (b g : Nat) (f : Group → Group) : (modGrp s b g f).nextUid = s.nextUid := modBlk_nextUid ..
@[simp] theorem modGrp_nextColl (s : State) (b g : Nat) (f : Group → Group) : (modGrp s b g f).nextColl = s.nextColl := modBlk_nextColl ..
@[simp] theorem modGrp_nextJob (s : State) (b g : Nat) (f : Group → Group) : (modGrp s b g f).nextJob = s.nextJob := modBlk_nextJob ..
@[simp] theorem modGrp_sel (s : State) (b g : Nat) (f : Group → Group) : (modGrp s b g f).sel = s.sel := modBlk_sel ..
@[simp] theorem modGrp_inputs (s : State) (b g : Nat) (f : Group → Group) : (modGrp s b g f).inputs = s.inputs := modBlk_inputs ..
@[simp] theorem modGrp_free (s : State) (b g : Nat) (f : Group → Group) : (modGrp s b g f).free = s.free := modBlk_free ..

/-! modInst changes insts. -/

@[simp] theorem modInst_now (s : State) (n : Nat) (f : Inst → Inst) : (modInst s n f).now = s.now := by unfold modInst; split <;> rfl
@[simp] theorem modInst_boot (s : State) (n : Nat) (f : Inst → Inst) : (modInst s n f).boot = s.boot := by unfold modInst; split <;> rfl
@[simp] theorem modInst_mem (s : State) (n : Nat) (f : Inst → Inst) : (modInst s n f).mem = s.mem := by unfold modInst; split <;> rfl
@[simp] theorem modInst_poison (s : State) (n : Nat) (f : Inst → Inst) : (modInst s n f).poison = s.poison := by unfold modInst; split <;> rfl
@[simp] theorem modInst_latent (s : State) (n : Nat) (f : Inst → Inst) : (modInst s n f).latent = s.latent := by unfold modInst; split <;> rfl
@[simp] theorem modInst_hist (s : State) (n : Nat) (f : Inst → Inst) : (modInst s n f).hist = s.hist := by unfold modInst; split <;> rfl
@[simp] theorem modInst_pubs (s : State) (n : Nat) (f : Inst → Inst) : (modInst s n f).pubs = s.pubs := by unfold modInst; split <;> rfl
@[simp] theorem modInst_stamp (s : State) (n : Nat) (f : Inst → Inst) : (modInst s n f).stamp = s.stamp := by unfold modInst; split <;> rfl
@[simp] theorem modInst_flushed (s : State) (n : Nat) (f : Inst → Inst) : (modInst s n f).flushed = s.flushed := by unfold modInst; split <;> rfl
@[simp] theorem modInst_cores (s : State) (n : Nat) (f : Inst → Inst) : (modInst s n f).cores = s.cores := by unfold modInst; split <;> rfl
@[simp] theorem modInst_clusters (s : State) (n : Nat) (f : Inst → Inst) : (modInst s n f).clusters = s.clusters := by unfold modInst; split <;> rfl
@[simp] theorem modInst_regs (s : State) (n : Nat) (f : Inst → Inst) : (modInst s n f).regs = s.regs := by unfold modInst; split <;> rfl
@[simp] theorem modInst_portA (s : State) (n : Nat) (f : Inst → Inst) : (modInst s n f).portA = s.portA := by unfold modInst; split <;> rfl
@[simp] theorem modInst_portB (s : State) (n : Nat) (f : Inst → Inst) : (modInst s n f).portB = s.portB := by unfold modInst; split <;> rfl
@[simp] theorem modInst_links (s : State) (n : Nat) (f : Inst → Inst) : (modInst s n f).links = s.links := by unfold modInst; split <;> rfl
@[simp] theorem modInst_sh (s : State) (n : Nat) (f : Inst → Inst) : (modInst s n f).sh = s.sh := by unfold modInst; split <;> rfl
@[simp] theorem modInst_ctxs (s : State) (n : Nat) (f : Inst → Inst) : (modInst s n f).ctxs = s.ctxs := by unfold modInst; split <;> rfl
@[simp] theorem modInst_blocks (s : State) (n : Nat) (f : Inst → Inst) : (modInst s n f).blocks = s.blocks := by unfold modInst; split <;> rfl
@[simp] theorem modInst_comms (s : State) (n : Nat) (f : Inst → Inst) : (modInst s n f).comms = s.comms := by unfold modInst; split <;> rfl
@[simp] theorem modInst_colls (s : State) (n : Nat) (f : Inst → Inst) : (modInst s n f).colls = s.colls := by unfold modInst; split <;> rfl
@[simp] theorem modInst_pfaults (s : State) (n : Nat) (f : Inst → Inst) : (modInst s n f).pfaults = s.pfaults := by unfold modInst; split <;> rfl
@[simp] theorem modInst_nextToken (s : State) (n : Nat) (f : Inst → Inst) : (modInst s n f).nextToken = s.nextToken := by unfold modInst; split <;> rfl
@[simp] theorem modInst_migs (s : State) (n : Nat) (f : Inst → Inst) : (modInst s n f).migs = s.migs := by unfold modInst; split <;> rfl
@[simp] theorem modInst_reported (s : State) (n : Nat) (f : Inst → Inst) : (modInst s n f).reported = s.reported := by unfold modInst; split <;> rfl
@[simp] theorem modInst_silent (s : State) (n : Nat) (f : Inst → Inst) : (modInst s n f).silent = s.silent := by unfold modInst; split <;> rfl
@[simp] theorem modInst_jobs (s : State) (n : Nat) (f : Inst → Inst) : (modInst s n f).jobs = s.jobs := by unfold modInst; split <;> rfl
@[simp] theorem modInst_nextBlk (s : State) (n : Nat) (f : Inst → Inst) : (modInst s n f).nextBlk = s.nextBlk := by unfold modInst; split <;> rfl
@[simp] theorem modInst_nextInst (s : State) (n : Nat) (f : Inst → Inst) : (modInst s n f).nextInst = s.nextInst := by unfold modInst; split <;> rfl
@[simp] theorem modInst_nextUid (s : State) (n : Nat) (f : Inst → Inst) : (modInst s n f).nextUid = s.nextUid := by unfold modInst; split <;> rfl
@[simp] theorem modInst_nextColl (s : State) (n : Nat) (f : Inst → Inst) : (modInst s n f).nextColl = s.nextColl := by unfold modInst; split <;> rfl
@[simp] theorem modInst_nextJob (s : State) (n : Nat) (f : Inst → Inst) : (modInst s n f).nextJob = s.nextJob := by unfold modInst; split <;> rfl
@[simp] theorem modInst_sel (s : State) (n : Nat) (f : Inst → Inst) : (modInst s n f).sel = s.sel := by unfold modInst; split <;> rfl
@[simp] theorem modInst_inputs (s : State) (n : Nat) (f : Inst → Inst) : (modInst s n f).inputs = s.inputs := by unfold modInst; split <;> rfl
@[simp] theorem modInst_free (s : State) (n : Nat) (f : Inst → Inst) : (modInst s n f).free = s.free := by unfold modInst; split <;> rfl

/-! Reading a part after it has been changed. -/

theorem blk?_setBlk (s : State) (b k : Nat) (x : Block) : (setBlk s b x).blk? k = if k = b then some x else s.blk? k := tget?_tset ..

theorem blk?_modBlk (s : State) (b k : Nat) (f : Block → Block) : (modBlk s b f).blk? k = if k = b then (s.blk? b).map f else s.blk? k := by
  unfold modBlk
  split
  · rename_i x h; rw [blk?_setBlk, h]; rfl
  · rename_i h; split
    · rename_i e; subst e; simp [h]
    · rfl

@[simp] theorem blk?_modBlk_same (s : State) (b : Nat) (f : Block → Block) : (modBlk s b f).blk? b = (s.blk? b).map f := by simp [blk?_modBlk]

/-- A group after it has been changed, and every other group. -/
theorem grp?_modGrp (s : State) (b g k j : Nat) (f : Group → Group) :
    (modGrp s b g f).grp? k j = if k = b ∧ j = g then (s.grp? b g).map f else s.grp? k j := by
  unfold State.grp? modGrp
  rw [blk?_modBlk]
  by_cases hk : k = b
  · subst hk
    cases h : s.blk? k with
    | none => simp
    | some x => by_cases hj : j = g <;> simp [getElem?_lmod, hj]
  · simp [hk]

@[simp] theorem grp?_modGrp_same (s : State) (b g : Nat) (f : Group → Group) : (modGrp s b g f).grp? b g = (s.grp? b g).map f := by
  simp [grp?_modGrp]

/-- A block keeps everything but its groups when one of them changes. -/
theorem blk?_modGrp (s : State) (b g : Nat) (f : Group → Group) :
    (modGrp s b g f).blk? b = (s.blk? b).map (fun x => { x with groups := lmod x.groups g f }) := blk?_modBlk_same ..

theorem blk?_modGrp_ne (s : State) (b g k : Nat) (f : Group → Group) (h : k ≠ b) : (modGrp s b g f).blk? k = s.blk? k := by
  simp [modGrp, blk?_modBlk, h]

@[simp] theorem cluster_modCluster (s : State) (k : Nat) (f : Cluster → Cluster) : (modCluster s k f).cluster k = f (s.cluster k) := by
  simp [State.cluster, modCluster, setCluster]

@[simp] theorem reg_modReg (s : State) (x : Nat) (f : Regulator → Regulator) : (modReg s x f).reg x = f (s.reg x) := by
  simp [State.reg, modReg]

@[simp] theorem link_modLink (s : State) (p : Nat) (f : Link → Link) : (modLink s p f).link p = f (s.link p) := by
  simp [State.link, modLink]

@[simp] theorem port_setPort (s : State) (hp : HPort) (x : Port) : (setPort s hp x).port hp = x := by cases hp <;> rfl

@[simp] theorem port_modPort (s : State) (hp : HPort) (f : Port → Port) : (modPort s hp f).port hp = f (s.port hp) := port_setPort ..

@[simp] theorem ctx?_modCtx (s : State) (c : Word) (f : Context → Context) : (modCtx s c f).ctx? c = (s.ctx? c).map f := by
  unfold modCtx
  split
  · rename_i x h; rw [h]; simp [State.ctx?, tget?_tset]
  · rename_i h; simp [h]

/-- The core after it has been changed. -/
@[simp] theorem core_setCore (s : State) (c : Nat) (k : Core) : (setCore s c k).core c = k := by simp [State.core, setCore]

@[simp] theorem core_modCore (s : State) (c : Nat) (f : Core → Core) : (modCore s c f).core c = f (s.core c) := core_setCore ..

end Sys2Proof.Laws
end

