-- ==== Sys2Proof/Laws/Canon.lean ====
section
/-! SUPPORT. Folds and choices: what they leave of the memory, and that they keep its canonical form. -/

namespace Sys2Proof.Laws
open Sys2Proof.Machine

@[simp] theorem ite_mem (c : Prop) [Decidable c] (s t : State) : (if c then s else t).mem = if c then s.mem else t.mem := by split <;> rfl

@[simp] theorem memOk_ite (c : Prop) [Decidable c] (a b : List Host.Cell) (ha : memOk a = true) (hb : memOk b = true) :
    memOk (if c then a else b) = true := by split <;> assumption

@[simp] theorem memOk_msetN_simp (m : List Host.Cell) (a : Nat) (bs : List Byte) (h : memOk m = true) : memOk (msetN m a bs) = true :=
  memOk_msetN bs m a h

@[simp] theorem memOk_mset_simp (m : List Host.Cell) (a : Nat) (v : Byte) (h : memOk m = true) : memOk (mset m a v) = true := memOk_mset m a v h

@[simp] theorem memOk_mzero_simp (m : List Host.Cell) (a n : Nat) (h : memOk m = true) : memOk (mzero m a n) = true := memOk_mzero m a n h

@[simp] theorem memOk_filter_simp (p : Host.Cell → Bool) (m : List Host.Cell) (h : memOk m = true) : memOk (m.filter p) = true := memOk_filter p m h

@[simp] theorem memOk_cells (f : Host.Cell → Nat) (g : Host.Cell → Byte) (l : List Host.Cell) (m : List Host.Cell) (h : memOk m = true) :
    memOk (l.foldl (fun m c => mset m (f c) (g c)) m) = true := by
  induction l generalizing m with
  | nil => exact h
  | cons c r ih => exact ih _ (memOk_mset _ _ _ h)

/-- A fold of steps that leave a measure of the state as it was leaves it as it was. -/
theorem foldS_same {α σ β : Type} (μ : σ → β) (f : α → σ → σ) (hf : ∀ a s, μ (f a s) = μ s) (l : List α) (s : σ) : μ (foldS f l s) = μ s := by
  induction l generalizing s with
  | nil => rfl
  | cons a r ih => exact (ih _).trans (hf a s)

/-- A fold of steps that keep a property keeps it. -/
theorem foldS_keeps {α σ : Type} (P : σ → Prop) (f : α → σ → σ) (hf : ∀ a s, P s → P (f a s)) (l : List α) (s : σ) (h : P s) : P (foldS f l s) := by
  induction l generalizing s with
  | nil => exact h
  | cons a r ih => exact ih _ (hf a s h)

theorem foldl_keeps {α σ : Type} (P : σ → Prop) (f : σ → α → σ) (hf : ∀ s a, P s → P (f s a)) (l : List α) (s : σ) (h : P s) : P (l.foldl f s) := by
  induction l generalizing s with
  | nil => exact h
  | cons a r ih => exact ih _ (hf s a h)

@[simp] theorem foldS_mem {α : Type} (f : α → State → State) (hf : ∀ a s, (f a s).mem = s.mem) (l : List α) (s : State) :
    (foldS f l s).mem = s.mem := foldS_same State.mem f hf l s

@[simp] theorem foldS_canon {α : Type} (f : α → State → State) (hf : ∀ a s, memOk s.mem = true → memOk (f a s).mem = true) (l : List α) (s : State)
    (hm : memOk s.mem = true) : memOk (foldS f l s).mem = true := foldS_keeps (fun s => memOk s.mem = true) f hf l s hm

@[simp] theorem foldl_mem {α : Type} (f : State → α → State) (hf : ∀ s a, (f s a).mem = s.mem) (l : List α) (s : State) :
    (l.foldl f s).mem = s.mem := by
  induction l generalizing s with
  | nil => rfl
  | cons a r ih => exact (ih _).trans (hf s a)

@[simp] theorem foldl_canon {α : Type} (f : State → α → State) (hf : ∀ s a, memOk s.mem = true → memOk (f s a).mem = true) (l : List α) (s : State)
    (hm : memOk s.mem = true) : memOk (l.foldl f s).mem = true := foldl_keeps (fun s => memOk s.mem = true) f hf l s hm

@[simp] theorem foldl2_mem {α β : Type} (f : β × State → α → β × State) (hf : ∀ z a, (f z a).2.mem = z.2.mem) (l : List α) (z : β × State) :
    (l.foldl f z).2.mem = z.2.mem := by
  induction l generalizing z with
  | nil => rfl
  | cons a r ih => exact (ih _).trans (hf z a)

@[simp] theorem foldl2_canon {α β : Type} (f : β × State → α → β × State) (hf : ∀ z a, memOk z.2.mem = true → memOk (f z a).2.mem = true)
    (l : List α) (z : β × State) (hm : memOk z.2.mem = true) : memOk (l.foldl f z).2.mem = true :=
  foldl_keeps (fun z => memOk z.2.mem = true) f hf l z hm

@[simp] theorem foldSRedo_canon {α : Type} (f : α → Redo → Redo) (hf : ∀ a r, memOk r.s.mem = true → memOk (f a r).s.mem = true) (l : List α) (r : Redo)
    (hm : memOk r.s.mem = true) : memOk (foldS f l r).s.mem = true := foldS_keeps (fun r => memOk r.s.mem = true) f hf l r hm

@[simp] theorem foldSXfer_canon {α : Type} (f : α → Xfer → Xfer) (hf : ∀ a r, memOk r.s.mem = true → memOk (f a r).s.mem = true) (l : List α) (r : Xfer)
    (hm : memOk r.s.mem = true) : memOk (foldS f l r).s.mem = true := foldS_keeps (fun r => memOk r.s.mem = true) f hf l r hm

/-- What a runs of a pass keeps, whatever the effect keeps. -/
theorem next_inj {s t : State} (h : (Host.Outcome.next s : Out) = .next t) : s = t := by injection h

end Sys2Proof.Laws
end

