-- ==== Sys2Proof/Laws/Pass.lean ====
section
/-! SUPPORT. What a pass that meets no condition leaves of its group: the one lemma over every register instruction. -/

namespace Sys2Proof.Laws
open Sys2Proof.Machine

/-- Where no condition holds, an instruction has its effect. -/
theorem runPass_clear {i : Instr} {s : State} {p : Pass} (h : Clear i s p) {extra : Pass → State → Nat → Option Cond}
    (hx : extra p s = extraOf i p s) (eff : Pass → State → State) : runPass i extra eff s = .next (eff p s) := by
  have hj : judge p i (extra p s) = .ok := by
    unfold judge
    have : p.L.find? (fun t => (condAt p i (extra p s) t).isSome) = none := by
      rw [List.find?_eq_none]
      intro t ht
      rw [hx, h.2 t ht]
      simp
    rw [this]
  unfold runPass
  rw [h.1]
  simp only [hj]
  split <;> rfl

theorem blk?_of_grp? {s : State} {b g : Nat} {y : Group} (h : s.grp? b g = some y) :
    ∃ x, s.blk? b = some x ∧ x.groups[g]? = some y := by
  unfold State.grp? at h
  split at h
  · exact ⟨_, ‹_›, h⟩
  · cases h

theorem lmod_const {α : Type} (l : List α) (i : Nat) (f : α → α) (x : α) (h : l[i]? = some x) : lmod l i f = lmod l i (fun _ => f x) := by
  induction l generalizing i with
  | nil => rfl
  | cons a r ih =>
    cases i with
    | zero => simp at h; subst h; rfl
    | succ i => simp at h; simp [lmod, ih i h]

/-- Changing a group is replacing it. -/
theorem modGrp_const {s : State} {b g : Nat} {y : Group} (h : s.grp? b g = some y) (f : Group → Group) :
    modGrp s b g f = modGrp s b g (fun _ => f y) := by
  obtain ⟨x, hx, hy⟩ := blk?_of_grp? h
  unfold modGrp modBlk
  simp only [hx]
  rw [lmod_const _ _ f y hy]

/-- The selected pass: its group is the resident one, and its threads are a mask's. -/
theorem pass?_some {s : State} {p : Pass} (h : pass? s = some p) : s.grp? p.b p.g = some p.G ∧ p.L = maskList p.mask ∧ p.L ≠ [] := by
  unfold pass? at h
  split at h
  · cases h
  · rename_i e he
    split at h
    · cases h
    · rename_i x hx
      split at h
      · cases h
      · rename_i y hy
        split at h
        · rename_i hc
          simp at hc
          cases h
          refine ⟨?_, rfl, by simpa using hc.2⟩
          simp [State.grp?, hx, hy]
        · cases h

theorem maskList_lt {m : BitVec 32} {t : Nat} (h : t ∈ maskList m) : t < 32 := by
  unfold maskList at h
  exact List.mem_range.1 (List.mem_filter.1 h).1

theorem maskList_nodup (m : BitVec 32) : (maskList m).Nodup := List.Pairwise.filter _ List.nodup_range

/-! Single operations on a group. -/

theorem modThr_thr (t u : Nat) (f : Thread → Thread) (y : Group) :
    (modThr t f y).thr[u]? = if u = t then (y.thr[u]?).map f else y.thr[u]? := by
  simp [modThr, getElem?_lmod]

theorem modThr_frame (t : Nat) (f : Thread → Thread) (y : Group) : modThr t f y = { y with thr := (modThr t f y).thr } := rfl

/-- What writing the words of a result to a vector register of thread `t` leaves. -/
theorem setReg_v (t r : Nat) (ws : List Word) (y : Group) :
    (∃ v, setReg t (.v r) ws y = { y with r := { y.r with v := v } }) ∧
    (∀ k, k < ws.length → wget (setReg t (.v r) ws y).r.v (32 * (r + k) + t) = ws.getD k 0) ∧
    (∀ q, (∀ k, k < ws.length → q ≠ 32 * (r + k) + t) → wget (setReg t (.v r) ws y).r.v q = wget y.r.v q) := by
  induction ws generalizing r y with
  | nil => exact ⟨⟨y.r.v, rfl⟩, fun k h => by simp at h, fun q _ => rfl⟩
  | cons w ws ih =>
    obtain ⟨⟨v, hv⟩, hs, hk⟩ := ih (r + 1) { y with r := { y.r with v := wset y.r.v (32 * r + t) w } }
    refine ⟨⟨v, hv⟩, fun k h => ?_, fun q h => ?_⟩
    · cases k with
      | zero =>
        show wget (setReg t (.v (r + 1)) ws _).r.v _ = _
        rw [hk _ (fun k _ => by omega)]
        simp [wget_wset]
      | succ k =>
        have := hs k (by simpa using h)
        show wget (setReg t (.v (r + 1)) ws _).r.v _ = _
        rw [show 32 * (r + (k + 1)) + t = 32 * (r + 1 + k) + t by omega, this]
        simp
    · show wget (setReg t (.v (r + 1)) ws _).r.v _ = _
      rw [hk q (fun k hk => by have := h (k + 1) (by simpa using hk); omega)]
      have := h 0 (by simp)
      simp only [wget_wset]
      rw [if_neg (by simpa using this)]

/-- What writing the words of a result to a scalar register leaves. -/
theorem setReg_s (t r : Nat) (ws : List Word) (y : Group) :
    (∃ v, setReg t (.s r) ws y = { y with r := { y.r with s := v } }) ∧
    (∀ k, k < ws.length → wget (setReg t (.s r) ws y).r.s (r + k) = ws.getD k 0) ∧
    (∀ q, (∀ k, k < ws.length → q ≠ r + k) → wget (setReg t (.s r) ws y).r.s q = wget y.r.s q) := by
  induction ws generalizing r y with
  | nil => exact ⟨⟨y.r.s, rfl⟩, fun k h => by simp at h, fun q _ => rfl⟩
  | cons w ws ih =>
    obtain ⟨⟨v, hv⟩, hs, hk⟩ := ih (r + 1) { y with r := { y.r with s := wset y.r.s r w } }
    refine ⟨⟨v, hv⟩, fun k h => ?_, fun q h => ?_⟩
    · cases k with
      | zero =>
        show wget (setReg t (.s (r + 1)) ws _).r.s _ = _
        rw [hk _ (fun k _ => by omega)]
        simp [wget_wset]
      | succ k =>
        have := hs k (by simpa using h)
        show wget (setReg t (.s (r + 1)) ws _).r.s _ = _
        rw [show r + (k + 1) = r + 1 + k by omega, this]
        simp
    · show wget (setReg t (.s (r + 1)) ws _).r.s _ = _
      rw [hk q (fun k hk => by have := h (k + 1) (by simpa using hk); omega)]
      have := h 0 (by simp)
      simp only [wget_wset]
      rw [if_neg (by simpa using this)]

/-- A fold of results: `ws t` written and `push t` pushed for each thread of a list. -/
def writes (P : Group) (n : Bool) (d : Dst) (ws : Nat → List Word) (push : Nat → Word) (ts : List Nat) (y : Group) : Group :=
  ts.foldl (fun y t => writeOp P n d t (ws t) (push t) y) y

/-- One result. -/
theorem writeOp_done (P : Group) (n : Bool) (d : Dst) (t : Nat) (ws : List Word) (push : Word) (y : Group) :
    let z := writeOp P n d t ws push y
    (∀ u, z.thr[u]? = if u = t then (y.thr[u]?).map (fun x => { x with latch := (push :: x.latch).take 8 }) else y.thr[u]?) ∧
    (z = { y with thr := z.thr, r := { y.r with v := z.r.v, s := z.r.s } }) ∧
    (n = false → ∀ r, dstReg P d = some (.v r) → ∀ k < ws.length, wget z.r.v (32 * (r + k) + t) = ws.getD k 0) ∧
    (n = false → ∀ r, dstReg P d = some (.s r) → ∀ k < ws.length, wget z.r.s (r + k) = ws.getD k 0) ∧
    (∀ q, (n = false → ∀ r, dstReg P d = some (.v r) → ∀ k < ws.length, q ≠ 32 * (r + k) + t) → wget z.r.v q = wget y.r.v q) ∧
    (∀ q, (n = false → ∀ r, dstReg P d = some (.s r) → ∀ k < ws.length, q ≠ r + k) → wget z.r.s q = wget y.r.s q) := by
  intro z
  cases n with
  | true =>
    refine ⟨fun u => modThr_thr t u _ y, rfl, by simp, by simp, fun q _ => rfl, fun q _ => rfl⟩
  | false =>
    cases hd : dstReg P d with
    | none =>
      have hz : z = pushLatch t push y := by simp [z, writeOp, hd]
      rw [hz]
      exact ⟨fun u => modThr_thr t u _ y, rfl, by simp, by simp, fun q _ => rfl, fun q _ => rfl⟩
    | some r =>
      have hz : z = setReg t r ws (pushLatch t push y) := by simp [z, writeOp, hd]
      rw [hz]
      cases r with
      | v r =>
        obtain ⟨⟨v, hv⟩, hs, hk⟩ := setReg_v t r ws (pushLatch t push y)
        refine ⟨fun u => ?_, ?_, ?_, by simp, ?_, ?_⟩
        · rw [hv]; exact modThr_thr t u _ y
        · rw [hv]; rfl
        · intro _ r' hr' k hkl; simp at hr'; subst hr'; exact hs k hkl
        · intro q hq; exact hk q (hq rfl r rfl)
        · intro q _; rw [hv]; rfl
      | s r =>
        obtain ⟨⟨v, hv⟩, hs, hk⟩ := setReg_s t r ws (pushLatch t push y)
        refine ⟨fun u => ?_, ?_, by simp, ?_, ?_, ?_⟩
        · rw [hv]; exact modThr_thr t u _ y
        · rw [hv]; rfl
        · intro _ r' hr' k hkl; simp at hr'; subst hr'; exact hs k hkl
        · intro q _; rw [hv]; rfl
        · intro q hq; exact hk q (hq rfl r rfl)

/-- The results of a path's threads. -/
theorem writes_done (P : Group) (n : Bool) (d : Dst) (len : Nat) (ws : Nat → List Word) (push : Nat → Word) (hl : ∀ t, (ws t).length = len)
    (ts : List Nat) (hn : ts.Nodup) (hb : ∀ t ∈ ts, t < 32) (y : Group) :
    let z := writes P n d ws push ts y
    (∀ u, z.thr[u]? = if u ∈ ts then (y.thr[u]?).map (fun x => { x with latch := (push u :: x.latch).take 8 }) else y.thr[u]?) ∧
    (z = { y with thr := z.thr, r := { y.r with v := z.r.v, s := z.r.s } }) ∧
    (n = false → ∀ r, dstReg P d = some (.v r) → ∀ t ∈ ts, ∀ k < len, wget z.r.v (32 * (r + k) + t) = (ws t).getD k 0) ∧
    (n = false → ts ≠ [] → ∀ r, dstReg P d = some (.s r) → ∀ k < len, wget z.r.s (r + k) = (ws (ts.getLastD 0)).getD k 0) ∧
    (∀ q, (n = false → ∀ r, dstReg P d = some (.v r) → ∀ t ∈ ts, ∀ k < len, q ≠ 32 * (r + k) + t) → wget z.r.v q = wget y.r.v q) ∧
    (∀ q, (n = false → ∀ r, dstReg P d = some (.s r) → ∀ k < len, q ≠ r + k) → wget z.r.s q = wget y.r.s q) := by
  induction ts generalizing y with
  | nil => exact ⟨fun u => by simp [writes], rfl, by simp, by simp, fun q _ => rfl, fun q _ => rfl⟩
  | cons t ts ih =>
    intro z
    obtain ⟨h1, h2, h3, h4, h5, h6⟩ := writeOp_done P n d t (ws t) (push t) y
    obtain ⟨i1, i2, i3, i4, i5, i6⟩ := ih (List.nodup_cons.1 hn).2 (fun u hu => hb u (List.mem_cons_of_mem _ hu))
      (writeOp P n d t (ws t) (push t) y)
    have ht : t ∉ ts := (List.nodup_cons.1 hn).1
    have hz : z = writes P n d ws push ts (writeOp P n d t (ws t) (push t) y) := rfl
    rw [hz]
    rw [hl t] at h3 h4 h5 h6
    refine ⟨fun u => ?_, ?_, ?_, ?_, ?_, ?_⟩
    · rw [i1 u, h1 u]
      by_cases hu : u = t
      · subst hu; simp [ht]
      · simp [hu]
    · rw [i2, h2]
    · intro hnf r hr u hu k hk
      rcases List.mem_cons.1 hu with rfl | hu
      · rw [i5 _ (fun _ r' hr' t' ht' k' hk' => ?_)]
        · exact h3 hnf r hr k hk
        · have : t' ≠ u := fun h => ht (h ▸ ht')
          have := hb t' (List.mem_cons_of_mem _ ht')
          have := hb u (by simp)
          omega
      · exact i3 hnf r hr u hu k hk
    · intro hnf _ r hr k hk
      cases ts with
      | nil => exact h4 hnf r hr k hk
      | cons a l =>
        rw [i4 hnf (by simp) r hr k hk]
        rfl
    · intro q hq
      rw [i5 q (fun hnf r hr u hu => hq hnf r hr u (List.mem_cons_of_mem _ hu)), h5 q (fun hnf r hr => hq hnf r hr t (by simp))]
    · intro q hq
      rw [i6 q hq, h6 q hq]

theorem advance_thr (ts : List Nat) (hn : ts.Nodup) (y : Group) (u : Nat) :
    (advance ts y).thr[u]? = if u ∈ ts then (y.thr[u]?).map (fun x => { x with pc := x.pc + 4 }) else y.thr[u]? := by
  induction ts generalizing y with
  | nil => simp [advance]
  | cons t ts ih =>
    have ht : t ∉ ts := (List.nodup_cons.1 hn).1
    show (advance ts (modThr t _ y)).thr[u]? = _
    rw [ih (List.nodup_cons.1 hn).2, modThr_thr]
    by_cases hu : u = t
    · subst hu; simp [ht]
    · simp [hu]

theorem advance_frame (ts : List Nat) (y : Group) : advance ts y = { y with thr := (advance ts y).thr } := by
  induction ts generalizing y with
  | nil => rfl
  | cons t ts ih => exact ih (modThr t _ y)

/-! The DIVZ flag. -/

theorem setReg_sticky (b : Bool) (t : Nat) (r : PReg) (ws : List Word) (y : Group) :
    setReg t r ws (setStickyIf b .divz y) = setStickyIf b .divz (setReg t r ws y) := by
  cases b with
  | false => rfl
  | true =>
    induction ws generalizing r y with
    | nil => rfl
    | cons w ws ih =>
      cases r with
      | v r => exact ih (.v (r + 1)) { y with r := { y.r with v := wset y.r.v (32 * r + t) w } }
      | s r => exact ih (.s (r + 1)) { y with r := { y.r with s := wset y.r.s r w } }

theorem writeOp_sticky (b : Bool) (P : Group) (n : Bool) (d : Dst) (t : Nat) (ws : List Word) (push : Word) (y : Group) :
    writeOp P n d t ws push (setStickyIf b .divz y) = setStickyIf b .divz (writeOp P n d t ws push y) := by
  have hp : pushLatch t push (setStickyIf b .divz y) = setStickyIf b .divz (pushLatch t push y) := by cases b <;> rfl
  unfold writeOp
  rw [hp]
  cases n with
  | true => rfl
  | false =>
    cases dstReg P d with
    | none => rfl
    | some r => exact setReg_sticky b t r ws _

theorem sticky_sticky (a b : Bool) (y : Group) : setStickyIf a .divz (setStickyIf b .divz y) = setStickyIf (a || b) .divz y := by
  cases a <;> cases b <;> try rfl
  simp [setStickyIf, setSticky, BitVec.or_assoc]

theorem writes_sticky (b : Bool) (P : Group) (n : Bool) (d : Dst) (ws : Nat → List Word) (push : Nat → Word) (ts : List Nat) (y : Group) :
    writes P n d ws push ts (setStickyIf b .divz y) = setStickyIf b .divz (writes P n d ws push ts y) := by
  induction ts generalizing y with
  | nil => rfl
  | cons t ts ih =>
    show writes P n d ws push ts (writeOp P n d t (ws t) (push t) (setStickyIf b .divz y)) = _
    rw [writeOp_sticky, ih]; rfl

/-- A path's executions one after the other: the results with each thread's value of `prv`, and the last result. -/
theorem runThreads_done (P : Group) (n : Bool) (d : Dst) (len : Nat) (f : Nat → Word → Res) (F : Nat → Word → Nat) (G : Nat → Word → Bool)
    (hf : ∀ t c, f t c = { words := natWords len (F t c), push := BitVec.ofNat 32 (F t c), divz := G t c })
    (cv : Nat → Word) (ts : List Nat) (hn : ts.Nodup) (c : Word) (y : Group)
    (hc : ∀ t ∈ ts, cv t = ((chainVals F c ts).lookup t).getD 0) :
    runThreads P n d f ts c y =
      (setStickyIf (ts.any (fun t => G t (cv t))) .divz
        (writes P n d (fun t => natWords len (F t (cv t))) (fun t => BitVec.ofNat 32 (F t (cv t))) ts y),
       if ts = [] then c else BitVec.ofNat 32 (F (ts.getLastD 0) (cv (ts.getLastD 0)))) := by
  induction ts generalizing c y with
  | nil => rfl
  | cons t ts ih =>
    have ht : t ∉ ts := (List.nodup_cons.1 hn).1
    have h0 : cv t = c := by rw [hc t (by simp)]; simp [chainVals]
    have h1 : ∀ u ∈ ts, cv u = ((chainVals F (BitVec.ofNat 32 (F t c)) ts).lookup u).getD 0 := by
      intro u hu
      rw [hc u (List.mem_cons_of_mem _ hu)]
      have : (u == t) = false := by simp; rintro rfl; exact ht hu
      simp [chainVals, List.lookup, this]
    unfold runThreads
    simp only [hf]
    rw [ih (List.nodup_cons.1 hn).2 _ _ h1]
    refine Prod.ext ?_ ?_
    · rw [writes_sticky, sticky_sticky, ← h0]
      show setStickyIf _ .divz (writes P n d _ _ ts _) = setStickyIf _ .divz (writes P n d _ _ ts _)
      congr 1
      simp [Bool.or_comm]
    · cases ts with
      | nil => simp [h0]
      | cons a l => simp

theorem natWords_length (n x : Nat) : (natWords n x).length = n := by
  induction n generalizing x with
  | zero => rfl
  | succ n ih => simp [natWords, ih]

theorem natWords_getD (n x k : Nat) (h : k < n) : (natWords n x).getD k 0 = BitVec.ofNat 32 (x / 2 ^ (32 * k)) := by
  induction n generalizing x k with
  | zero => omega
  | succ n ih =>
    cases k with
    | zero => simp [natWords]
    | succ k =>
      have := ih (x / 2 ^ 32) k (by omega)
      simp only [natWords, List.getD_cons_succ]
      rw [this, Nat.div_div_eq_div_mul, ← Nat.pow_add, show 32 + 32 * k = 32 * (k + 1) by omega]

theorem writeAll_writes (P : Group) (n : Bool) (d : Dst) (q : Res) (ts : List Nat) (y : Group) :
    writeAll P n d q ts y = writes P n d (fun _ => q.words) (fun _ => q.push) ts (setStickyIf q.divz .divz y) := rfl

/-- The group after results and flag: everything `RegDone` says but the through-time state. -/
theorem done_of_writes {i : Instr} {p : Pass} {d : Dst} {len : Nat} {val : Nat → Nat} {dz : Bool} {w x : Group}
    (hL : p.L = maskList p.mask)
    (hw : w = setStickyIf dz .divz (writes p.P i.noWrite d (fun t => natWords len (val t)) (fun t => BitVec.ofNat 32 (val t)) p.L x))
    (hne : p.L ≠ []) (r : Word × Bool × List Resume)
    (hr : r = chainAfter i p (BitVec.ofNat 32 (val (p.L.getLastD 0))) x.r) :
    RegDone i p x d len val dz (advance p.L { w with r := { w.r with tail := r.1, tailOpen := r.2.1, resume := r.2.2 } }) := by
  have hn : p.L.Nodup := by rw [hL]; exact maskList_nodup _
  have hb : ∀ t ∈ p.L, t < 32 := by intro t ht; rw [hL] at ht; exact maskList_lt ht
  obtain ⟨h1, h2, h3, h4, h5, h6⟩ := writes_done p.P i.noWrite d len (fun t => natWords len (val t)) (fun t => BitVec.ofNat 32 (val t))
    (fun t => natWords_length _ _) p.L hn hb x
  generalize hz : writes p.P i.noWrite d (fun t => natWords len (val t)) (fun t => BitVec.ofNat 32 (val t)) p.L x = z at *
  have hwz : w = { z with r := { z.r with sticky := if dz then z.r.sticky ||| 1 else z.r.sticky } } := by
    rw [hw]; cases dz <;> rfl
  have hst : z.r.sticky = x.r.sticky := by rw [h2]
  have hthr : ∀ u, (advance p.L { w with r := { w.r with tail := r.1, tailOpen := r.2.1, resume := r.2.2 } }).thr[u]? =
      if u ∈ p.L then (x.thr[u]?).map (fun z => { z with pc := z.pc + 4, latch := (BitVec.ofNat 32 (val u) :: z.latch).take 8 })
      else x.thr[u]? := by
    intro u
    rw [advance_thr _ hn]
    have : w.thr = z.thr := by rw [hwz]
    simp only [this, h1 u]
    split
    · cases x.thr[u]? <;> rfl
    · rfl
  have hf := advance_frame p.L { w with r := { w.r with tail := r.1, tailOpen := r.2.1, resume := r.2.2 } }
  generalize hy : advance p.L { w with r := { w.r with tail := r.1, tailOpen := r.2.1, resume := r.2.2 } } = y at *
  have hv : y.r.v = z.r.v := by rw [hf, hwz]
  have hs : y.r.s = z.r.s := by rw [hf, hwz]
  refine ⟨?_, ?_, ?_, ?_, ?_, ?_, ?_, ?_, ?_⟩
  · intro hN q hq t ht k hk
    rw [hv, h3 hN q hq t ht k hk]; exact natWords_getD _ _ _ hk
  · intro hN q hq k hk
    rw [hs, h4 hN hne q hq k hk]; exact natWords_getD _ _ _ hk
  · intro q hq; rw [hv]; exact h5 q hq
  · intro q hq; rw [hs]; exact h6 q hq
  · intro t ht; rw [hthr t, if_pos ht]
  · intro t ht; rw [hthr t, if_neg ht]
  · rw [hf, hwz]; simp only [hst]
  · rw [hf, ← hr]
  · rw [hf, hwz, h2]

/-- A register instruction on its path. -/
theorem aluEff_done {i : Instr} {s : State} {p : Pass} (hp : pass? s = some p) (d : Dst) (len : Nat) (f : Pass → Nat → Word → Res)
    (F : Nat → Word → Nat) (G : Nat → Word → Bool)
    (hf : ∀ t c, f p t c = { words := natWords len (F t c), push := BitVec.ofNat 32 (F t c), divz := G t c })
    (hx : i.xclass ≠ .whole) :
    ∃ y, aluEff i d f p s = modGrp s p.b p.g (fun _ => y) ∧
      RegDone i p p.G d len (fun t => F (execOf i p F t).1 (execOf i p F t).2)
        (p.L.any (fun t => G (execOf i p F t).1 (execOf i p F t).2)) y := by
  obtain ⟨hg, hL, hne⟩ := pass?_some hp
  have hn : p.L.Nodup := by rw [hL]; exact maskList_nodup _
  unfold aluEff
  rw [modGrp_const hg]
  refine ⟨_, rfl, ?_⟩
  cases hc : i.xclass with
  | whole => exact absurd hc hx
  | uniform =>
    have he : ∀ t, execOf i p F t = (p.low, 0) := by intro t; simp [execOf, hc]
    simp only [he]
    have hany : p.L.any (fun _ => G p.low 0) = G p.low 0 := by
      cases hl : p.L with
      | nil => exact absurd hl hne
      | cons a l => cases h : G p.low 0 <;> simp
    rw [hany]
    have hw := done_of_writes (i := i) (p := p) (x := p.G) (d := d) (len := len) (val := fun _ => F p.low 0) (dz := G p.low 0) hL
      (w := writeAll p.P i.noWrite d (f p p.low 0) p.L p.G)
      (by rw [writeAll_writes, hf, writes_sticky]) hne
      (p.G.r.tail, p.G.r.tailOpen, p.G.r.resume) (by simp [chainAfter, hc])
    have hfr : ∀ (w : Group), w.r.tail = p.G.r.tail → w.r.tailOpen = p.G.r.tailOpen → w.r.resume = p.G.r.resume →
        { w with r := { w.r with tail := p.G.r.tail, tailOpen := p.G.r.tailOpen, resume := p.G.r.resume } } = w := by
      intro w a b c; rw [← a, ← b, ← c]
    have hwd := writes_done p.P i.noWrite d len (fun _ => (f p p.low 0).words) (fun _ => (f p p.low 0).push)
      (fun _ => by rw [hf]; exact natWords_length _ _) p.L hn (by intro t ht; rw [hL] at ht; exact maskList_lt ht) p.G
    have hfrm := hwd.2.1
    rw [hfr] at hw
    · exact hw
    all_goals
      rw [writeAll_writes, writes_sticky, hfrm]
      cases (f p p.low 0).divz <;> rfl
  | perThread =>
    have he : ∀ t, execOf i p F t = (t, ((chainVals F (chainStart p) p.L).lookup t).getD 0) := by intro t; simp [execOf, hc]
    simp only [he]
    have hrt := runThreads_done p.P i.noWrite d len (f p) F G hf (fun t => ((chainVals F (chainStart p) p.L).lookup t).getD 0) p.L hn
      (chainStart p) p.G (fun t _ => rfl)
    rw [if_neg hne] at hrt
    have hwd := writes_done p.P i.noWrite d len (fun t => natWords len (F t (((chainVals F (chainStart p) p.L).lookup t).getD 0)))
      (fun t => BitVec.ofNat 32 (F t (((chainVals F (chainStart p) p.L).lookup t).getD 0)))
      (fun _ => natWords_length _ _) p.L hn (by intro t ht; rw [hL] at ht; exact maskList_lt ht) p.G
    have hfrm := hwd.2.1
    have key := fun r hr => done_of_writes (i := i) (p := p) (x := p.G) (d := d) (len := len)
      (val := fun t => F t (((chainVals F (chainStart p) p.L).lookup t).getD 0))
      (dz := p.L.any (fun t => G t (((chainVals F (chainStart p) p.L).lookup t).getD 0))) hL rfl hne r hr
    have e1 : (setStickyIf (p.L.any (fun t => G t (((chainVals F (chainStart p) p.L).lookup t).getD 0))) .divz
        (writes p.P i.noWrite d (fun t => natWords len (F t (((chainVals F (chainStart p) p.L).lookup t).getD 0)))
          (fun t => BitVec.ofNat 32 (F t (((chainVals F (chainStart p) p.L).lookup t).getD 0))) p.L p.G)).r.tail = p.G.r.tail ∧
      (setStickyIf (p.L.any (fun t => G t (((chainVals F (chainStart p) p.L).lookup t).getD 0))) .divz
        (writes p.P i.noWrite d (fun t => natWords len (F t (((chainVals F (chainStart p) p.L).lookup t).getD 0)))
          (fun t => BitVec.ofNat 32 (F t (((chainVals F (chainStart p) p.L).lookup t).getD 0))) p.L p.G)).r.tailOpen = p.G.r.tailOpen ∧
      (setStickyIf (p.L.any (fun t => G t (((chainVals F (chainStart p) p.L).lookup t).getD 0))) .divz
        (writes p.P i.noWrite d (fun t => natWords len (F t (((chainVals F (chainStart p) p.L).lookup t).getD 0)))
          (fun t => BitVec.ofNat 32 (F t (((chainVals F (chainStart p) p.L).lookup t).getD 0))) p.L p.G)).r.resume = p.G.r.resume := by
      rw [hfrm]
      cases (p.L.any (fun t => G t (((chainVals F (chainStart p) p.L).lookup t).getD 0))) <;> exact ⟨rfl, rfl, rfl⟩
    have hk := key _ rfl
    simp only [hrt]
    generalize hW : setStickyIf (p.L.any (fun t => G t (((chainVals F (chainStart p) p.L).lookup t).getD 0))) .divz
        (writes p.P i.noWrite d (fun t => natWords len (F t (((chainVals F (chainStart p) p.L).lookup t).getD 0)))
          (fun t => BitVec.ofNat 32 (F t (((chainVals F (chainStart p) p.L).lookup t).getD 0))) p.L p.G) = W at *
    obtain ⟨a, b, c⟩ := e1
    unfold chainAfter at hk
    by_cases hpr : readsPrv i = true
    · simp only [hc, hpr, and_self, if_true] at hk ⊢
      unfold chainEnd
      cases hcut : p.cut with
      | true => simp only [hcut, if_true] at hk ⊢; rw [← a, ← b, ← c] at hk; exact hk
      | false => simp only [hcut] at hk ⊢; rw [← c] at hk; exact hk
    · simp only [hpr, Bool.false_eq_true, and_false, if_false] at hk ⊢
      rw [← a, ← b, ← c] at hk
      exact hk

/-- An instruction of the plain rule (R170) is not whole-path. -/
theorem xclass_std {i : Instr} (h : (shape i).rule = .std) : i.xclass ≠ .whole := by
  unfold Instr.xclass
  rw [h]
  show (if (shape i).anyThread then XClass.perThread else XClass.uniform) ≠ .whole
  split <;> simp

/-- An instruction of block 0x4_ is whole-path but for the three that R338 makes uniform. -/
theorem xclass_thru {i : Instr} {k : Nat} (h : (shape i).rule = .thru) (hk : opcode i = k) (h1 : k ≠ 0x40 ∧ k ≠ 0x41 ∧ k ≠ 0x4C) :
    i.xclass = .whole := by
  unfold Instr.xclass
  rw [h, hk]
  show (match k with | 0x40 => XClass.uniform | 0x41 => .uniform | 0x4C => .uniform | _ => .whole) = .whole
  split <;> simp_all

/-- A register-to-register instruction. -/
theorem regOpZ_of {i : Instr} {d : Dst} {len : Nat} {f : Pass → Nat → Word → Res} {F : Pass → Nat → Word → Nat}
    {G : Pass → Nat → Word → Bool} (he : ∀ s, exec i s = runAlu i d f s)
    (hx0 : ∀ p s t, extraOf i p s t = none) (hx : i.xclass ≠ .whole)
    (hf : ∀ p t c, f p t c = { words := natWords len (F p t c), push := BitVec.ofNat 32 (F p t c), divz := G p t c }) :
    RegOpZ i d len F G := by
  intro s p h
  obtain ⟨y, hy, hd⟩ := aluEff_done h.1 d len f (F p) (G p) (hf p) hx
  refine ⟨y, ?_, hd⟩
  rw [he, runAlu, runPass_clear h (by funext t; rw [hx0]; rfl), hy]

/-- The same without the flag. -/
theorem regOp_of {i : Instr} {d : Dst} {len : Nat} {f : Pass → Nat → Word → Res} {F : Pass → Nat → Word → Nat}
    (he : ∀ s, exec i s = runAlu i d f s) (hx0 : ∀ p s t, extraOf i p s t = none) (hx : i.xclass ≠ .whole)
    (hf : ∀ p t c, f p t c = { words := natWords len (F p t c), push := BitVec.ofNat 32 (F p t c), divz := false }) :
    RegOp i d len F := regOpZ_of he hx0 hx hf

theorem res1_eq {w : Word} {x : Nat} (h : w = BitVec.ofNat 32 x) :
    res1 w = { words := natWords 1 x, push := BitVec.ofNat 32 x, divz := false } := by
  subst h; rfl

theorem resN_eq (n x : Nat) : resN n x = { words := natWords n x, push := BitVec.ofNat 32 x, divz := false } := rfl

/-- A whole-path instruction whose results follow the threads of the path. -/
theorem pathOp_of {i : Instr} {d : Dst} {f : Pass → List (Nat × Word)} {F : Pass → Nat → Word} (he : ∀ s, exec i s = runWhole i d f s)
    (hx0 : ∀ p s t, extraOf i p s t = none) (hx : i.xclass ≠ .perThread) (hf : ∀ s p, pass? s = some p → f p = p.L.map (fun t => (t, F p t))) :
    PathOp i d F := by
  intro s p h
  obtain ⟨hg, hL, hne⟩ := pass?_some h.1
  rw [he, runWhole, runPass_clear h (by funext t; rw [hx0]; rfl)]
  unfold wholeEff
  rw [modGrp_const hg]
  refine ⟨_, rfl, ?_⟩
  have hw : (f p).foldl (fun y r => writeOp p.P i.noWrite d r.1 [r.2] r.2 y) p.G =
      writes p.P i.noWrite d (fun t => natWords 1 (F p t).toNat) (fun t => BitVec.ofNat 32 (F p t).toNat) p.L p.G := by
    rw [hf s p h.1, List.foldl_map]
    simp [writes, natWords]
  have key := done_of_writes (i := i) (p := p) (x := p.G) (d := d) (len := 1) (val := fun t => (F p t).toNat) (dz := false) hL rfl hne
    (p.G.r.tail, p.G.r.tailOpen, p.G.r.resume) (by simp [chainAfter, hx])
  rw [hw]
  have hwd := (writes_done p.P i.noWrite d 1 (fun t => natWords 1 (F p t).toNat) (fun t => BitVec.ofNat 32 (F p t).toNat)
      (fun _ => natWords_length _ _) p.L (by rw [hL]; exact maskList_nodup _) (by intro t ht; rw [hL] at ht; exact maskList_lt ht) p.G).2.1
  generalize writes p.P i.noWrite d (fun t => natWords 1 (F p t).toNat) (fun t => BitVec.ofNat 32 (F p t).toNat) p.L p.G = W at *
  have e : { (setStickyIf false .divz W) with r := { (setStickyIf false .divz W).r with tail := p.G.r.tail, tailOpen := p.G.r.tailOpen, resume := p.G.r.resume } } = W := by
    show { W with r := { W.r with tail := p.G.r.tail, tailOpen := p.G.r.tailOpen, resume := p.G.r.resume } } = W
    rw [hwd]
  rw [e] at key
  exact key

end Sys2Proof.Laws
end

