-- ==== Sys2Proof/Laws/Access.lean ====
section
/-! SUPPORT. What one access of a path leaves, and what a path's accesses leave together. -/

namespace Sys2Proof.Laws
open Sys2Proof.Machine

theorem frame_refl {s : State} {b g : Nat} {y : Group} (h : s.grp? b g = some y) : AccessFrame s s b g y y :=
  ⟨rfl, h, fun _ _ _ => rfl, fun _ x hx => ⟨x, hx, rfl⟩, fun _ => rfl, rfl⟩

theorem frame_trans {s t u : State} {b g : Nat} {x y z : Group} (h : AccessFrame s t b g x y) (k : AccessFrame t u b g y z) :
    AccessFrame s u b g x z := by
  refine ⟨?_, k.grp, fun i j e => (k.others i j e).trans (h.others i j e), fun i x hx => ?_, fun i => ?_, ?_⟩
  · rw [k.rest, h.rest]
  · obtain ⟨w, hw, ew⟩ := h.blk i x hx
    obtain ⟨v, hv, ev⟩ := k.blk i w hw
    exact ⟨v, hv, by rw [ev, ew]⟩
  · rw [k.clu i, h.clu i]
  · rw [k.view, h.view]

/-- Changing what an access may change of its group. -/
theorem frame_modGrp {s : State} {b g : Nat} {y : Group} (h : s.grp? b g = some y) (f : Group → Group)
    (hf : f y = { y with c := (f y).c, a := (f y).a, r := { y.r with sticky := (f y).r.sticky } }) :
    AccessFrame s (modGrp s b g f) b g y (f y) := by
  obtain ⟨x, hx, hy⟩ := blk?_of_grp? h
  refine ⟨?_, ?_, ?_, ?_, ?_, hf⟩
  · unfold modGrp modBlk; rw [hx]; rfl
  · rw [grp?_modGrp_same, h]; rfl
  · intro k j e; rw [grp?_modGrp, if_neg e]
  · intro k z hz
    by_cases hk : k = b
    · subst hk
      rw [hx] at hz; cases hz
      exact ⟨_, by rw [blk?_modGrp, hx]; rfl, rfl⟩
    · exact ⟨z, by rw [blk?_modGrp_ne _ _ _ _ _ hk]; exact hz, rfl⟩
  · intro k; unfold State.cluster; rw [modGrp_clusters]

/-- Changing memory and its records. -/
theorem frame_mem {s t : State} {b g : Nat} {y : Group} (h : s.grp? b g = some y)
    (e : t = { s with mem := t.mem, hist := t.hist, stamp := t.stamp, poison := t.poison, latent := t.latent, migs := t.migs, free := t.free }) :
    AccessFrame s t b g y y := by
  have hb : ∀ k, t.blk? k = s.blk? k := by intro k; rw [e]; rfl
  have hg : ∀ k j, t.grp? k j = s.grp? k j := by intro k j; unfold State.grp?; rw [hb]
  refine ⟨?_, by rw [hg, h], fun k j _ => hg k j, fun k x hx => ⟨x, by rw [hb, hx], rfl⟩, fun k => ?_, rfl⟩
  · rw [e]
  · have : t.clusters = s.clusters := by rw [e]
    unfold State.cluster; rw [this]

theorem frame_touchMig {s : State} {b g : Nat} {y : Group} (h : s.grp? b g = some y) (home : Option Nat) (wr : Bool) :
    AccessFrame s (touchMig s home wr) b g y y := by
  refine frame_mem h ?_
  cases home <;> rfl

theorem frame_digest {s : State} {b g : Nat} {y : Group} (h : s.grp? b g = some y) (l : List Byte) :
    ∃ z, AccessFrame s (digest s b g l) b g y z ∧ z.c = y.c ∧ z.r = y.r := by
  unfold digest
  refine ⟨_, frame_modGrp h _ ?_, ?_, ?_⟩
  all_goals (split <;> rfl)

theorem frame_digestAccess {s : State} {b g : Nat} {y : Group} (h : s.grp? b g = some y) (i : Instr) (m : Mem) (ea : Nat) (data cmp : List Word) :
    ∃ z, AccessFrame s (digestAccess s b g i m ea data cmp) b g y z ∧ z.c = y.c ∧ z.r = y.r := by
  unfold digestAccess
  cases m.kind
  · exact ⟨y, frame_refl h, rfl, rfl⟩
  · exact frame_digest h _
  · exact frame_digest h _
  · exact ⟨y, frame_refl h, rfl, rfl⟩

theorem digestAccess_same (s : State) (b g : Nat) (i : Instr) (m : Mem) (ea : Nat) (data cmp : List Word) :
    (digestAccess s b g i m ea data cmp).hist = s.hist ∧ (digestAccess s b g i m ea data cmp).stamp = s.stamp ∧
    (digestAccess s b g i m ea data cmp).poison = s.poison ∧ (digestAccess s b g i m ea data cmp).clusters = s.clusters ∧
    (digestAccess s b g i m ea data cmp).mem = s.mem := by
  unfold digestAccess
  cases m.kind <;> (unfold digest; try simp)

theorem frame_writeLoc {s : State} {b g : Nat} {y : Group} (h : s.grp? b g = some y) (who : Nat) (k : WKind) (a : Nat) (bs : List Byte) :
    AccessFrame s (writeLoc s who k a bs) b g y y := frame_mem h rfl

theorem foldCons_keep {α : Type} (f : Cons → α → Cons) (l : List α) (y : Group) :
    ({ y with c := l.foldl f y.c } : Group) = { y with c := l.foldl f y.c, a := y.a, r := { y.r with sticky := y.r.sticky } } := rfl

theorem frame_ownWrite {s : State} {b g : Nat} {y : Group} (h : s.grp? b g = some y) (k : WKind) (a : Nat) (bs : List Byte) :
    ∃ z, AccessFrame s (ownWrite s b g k a bs) b g y z ∧ z.r = y.r ∧ (ownWrite s b g k a bs).mem = msetN s.mem a bs := by
  unfold ownWrite
  rw [h]
  have h1 := frame_writeLoc h y.uid k a bs
  exact ⟨_, frame_trans h1 (frame_modGrp h1.grp _ rfl), rfl, by simp [writeLoc]⟩

theorem frame_winStore {s : State} {b g : Nat} {y : Group} (h : s.grp? b g = some y) (uid a : Nat) (bs : List Byte) :
    AccessFrame s (winStore s uid a bs) b g y y := frame_mem h rfl

theorem frame_markWritten {s : State} {b g : Nat} {y : Group} (h : s.grp? b g = some y) (sp : Space) (ea : Nat) :
    AccessFrame s (markWritten s b sp ea) b g y y := by
  unfold markWritten
  cases sp
  · exact frame_refl h
  · obtain ⟨x, hx, hy⟩ := blk?_of_grp? h
    unfold markScr
    have hk : ∀ k j, (modBlk s b (fun x => { x with grans := tset x.grans (ea / 4096) { scrGran x ea with written := true }, dirty := insertNat x.dirty (ea / 4096) })).grp? k j = s.grp? k j := by
      intro k j
      unfold State.grp?
      rw [blk?_modBlk]
      by_cases hk : k = b
      · subst hk; rw [if_pos rfl, hx]; rfl
      · rw [if_neg hk]
    refine ⟨?_, by rw [hk, h], fun k j _ => hk k j, fun k z hz => ?_, fun k => ?_, rfl⟩
    · unfold modBlk; rw [hx]; rfl
    · by_cases hk : k = b
      · subst hk
        rw [hx] at hz; cases hz
        exact ⟨_, by rw [blk?_modBlk_same, hx]; rfl, rfl⟩
      · exact ⟨z, by rw [blk?_modBlk, if_neg hk]; exact hz, rfl⟩
    · unfold State.cluster; rw [modBlk_clusters]
  · obtain ⟨x, hx, hy⟩ := blk?_of_grp? h
    simp only [hx]
    unfold markLay
    refine ⟨rfl, h, fun _ _ _ => rfl, fun _ x hx => ⟨x, hx, rfl⟩, fun k => ?_, rfl⟩
    unfold State.cluster modCluster setCluster
    show tget (tset _ _ _) _ _ = _
    unfold tget
    rw [tget?_tset]
    split
    · rename_i e; subst e; rfl
    · rfl
  · exact frame_refl h

@[simp] theorem markWritten_keeps_mem (s : State) (b : Nat) (sp : Space) (ea : Nat) : (markWritten s b sp ea).mem = s.mem := by
  unfold markWritten
  cases sp <;> simp [markScr, markLay]
  split <;> simp

theorem frame_atomicAt {s : State} {b g : Nat} {y : Group} (h : s.grp? b g = some y) (a n : Nat) (f : Nat → Option Nat) :
    ∃ z, AccessFrame s (atomicAt s b g a n f).2 b g y z ∧ z.r = y.r ∧ (atomicAt s b g a n f).1 = leNat (mgetN s.mem a n) ∧
      (atomicAt s b g a n f).2.mem = (match f (leNat (mgetN s.mem a n)) with | some v => msetN s.mem a (leBytes n v) | none => s.mem) := by
  unfold atomicAt
  rw [h]
  simp only
  have kb : ∀ (F : Group → Group) (l : List Byte),
      F y = { y with c := (F y).c, a := (F y).a, r := { y.r with sticky := (F y).r.sticky } } → (F y).r = y.r →
      ∃ z, AccessFrame s (ownWrite (modGrp s b g F) b g .atomic a l) b g y z ∧ z.r = y.r ∧
        leNat (mgetN s.mem a n) = leNat (mgetN s.mem a n) ∧ (ownWrite (modGrp s b g F) b g .atomic a l).mem = msetN s.mem a l := by
    intro F l e er
    have h1 := frame_modGrp h F e
    obtain ⟨z, hz, hr, hm⟩ := frame_ownWrite h1.grp .atomic a l
    exact ⟨z, frame_trans h1 hz, hr.trans er, rfl, by rw [hm, modGrp_mem]⟩
  have kd : ∀ (F G : Group → Group) (w : Nat) (l : List Byte),
      F y = { y with c := (F y).c, a := (F y).a, r := { y.r with sticky := (F y).r.sticky } } → (F y).r = y.r →
      G (F y) = { F y with c := (G (F y)).c, a := (G (F y)).a, r := { (F y).r with sticky := (G (F y)).r.sticky } } → (G (F y)).r = (F y).r →
      ∃ z, AccessFrame s (modGrp (writeLoc (modGrp s b g F) w .atomic a l) b g G) b g y z ∧ z.r = y.r ∧
        leNat (mgetN s.mem a n) = leNat (mgetN s.mem a n) ∧ (modGrp (writeLoc (modGrp s b g F) w .atomic a l) b g G).mem = msetN s.mem a l := by
    intro F G w l e er e' er'
    have h1 := frame_modGrp h F e
    have h2 := frame_writeLoc h1.grp w .atomic a l
    exact ⟨_, frame_trans h1 (frame_trans h2 (frame_modGrp h2.grp G e')), er'.trans er, rfl, by rw [modGrp_mem]; simp [writeLoc]⟩
  have kc : ∀ (F G : Group → Group),
      F y = { y with c := (F y).c, a := (F y).a, r := { y.r with sticky := (F y).r.sticky } } → (F y).r = y.r →
      G (F y) = { F y with c := (G (F y)).c, a := (G (F y)).a, r := { (F y).r with sticky := (G (F y)).r.sticky } } → (G (F y)).r = (F y).r →
      ∃ z, AccessFrame s (modGrp (modGrp s b g F) b g G) b g y z ∧ z.r = y.r ∧
        leNat (mgetN s.mem a n) = leNat (mgetN s.mem a n) ∧ (modGrp (modGrp s b g F) b g G).mem = s.mem := by
    intro F G e er e' er'
    have h1 := frame_modGrp h F e
    exact ⟨_, frame_trans h1 (frame_modGrp h1.grp G e'), er'.trans er, rfl, by simp⟩
  cases hf : f (leNat (mgetN s.mem a n)) with
  | none =>
    simp only
    by_cases hb : bankLoc a = true
    · rw [if_pos hb]
      exact kc _ _ rfl rfl rfl rfl
    · rw [if_neg hb]
      exact ⟨_, frame_modGrp h _ rfl, rfl, rfl, by simp⟩
  | some v =>
    simp only
    by_cases hb : bankLoc a = true
    · rw [if_pos hb]
      exact kb _ (leBytes n v) rfl rfl
    · rw [if_neg hb]
      exact kd _ _ y.uid (leBytes n v) rfl rfl rfl rfl

theorem chooseFrom_frame {α : Type} {s : State} {b g : Nat} {y : Group} (h : s.grp? b g = some y) (d : α) (l : List α) :
    AccessFrame s (chooseFrom s d l).2 b g y y := by
  refine frame_mem h ?_
  match l with
  | [] => rfl
  | [x] => rfl
  | x :: z :: r => rfl

theorem chooseFrom_same {α : Type} (s : State) (d : α) (l : List α) :
    (chooseFrom s d l).2.mem = s.mem ∧ (chooseFrom s d l).2.hist = s.hist ∧ (chooseFrom s d l).2.stamp = s.stamp ∧
    (chooseFrom s d l).2.poison = s.poison ∧ (chooseFrom s d l).2.clusters = s.clusters := by
  match l with
  | [] => exact ⟨rfl, rfl, rfl, rfl, rfl⟩
  | [x] => exact ⟨rfl, rfl, rfl, rfl, rfl⟩
  | x :: z :: r => exact ⟨rfl, rfl, rfl, rfl, rfl⟩

theorem frame_plainLoad {s : State} {b g : Nat} {y : Group} (h : s.grp? b g = some y) (a n : Nat) :
    ∃ z, AccessFrame s (plainLoad s b g a n).2 b g y z ∧ z.r = y.r ∧ (plainLoad s b g a n).2.mem = s.mem ∧
      (plainLoad s b g a n).2.hist = s.hist ∧ (plainLoad s b g a n).2.stamp = s.stamp ∧ (plainLoad s b g a n).2.poison = s.poison ∧
      (plainLoad s b g a n).2.clusters = s.clusters ∧ (plainLoad s b g a n).1.length = n := by
  unfold plainLoad
  rw [h]
  simp only
  have h1 := chooseFrom_frame h none (wholeTimes s y a n)
  obtain ⟨e1, e2, e3, e4, e5⟩ := chooseFrom_same s none (wholeTimes s y a n)
  refine ⟨_, frame_trans h1 (frame_modGrp h1.grp _ rfl), rfl, ?_, ?_, ?_, ?_, ?_, ?_⟩
  · rw [modGrp_mem, e1]
  · rw [modGrp_hist, e2]
  · rw [modGrp_stamp, e3]
  · rw [modGrp_poison, e4]
  · rw [modGrp_clusters, e5]
  · simp [gotAt, locs]

/-! One access and the accesses of a path. -/

/-- The flag an access sets. -/
def accFlag (m : Mem) (h : Hit) : BitVec 9 :=
  if h.lapsed then (if m.kind.reads then 8 else 0)
  else if (m.kind = .load ∧ m.space ≠ .win ∨ m.kind = .ldu) ∧ h.alt = true then 16 else 0

/-- Memory after an access. -/
def accMem (i : Instr) (m : Mem) (h : Hit) (data cmp : List Word) (mem : List Host.Cell) : List Host.Cell :=
  if h.lapsed then mem
  else match m.kind with
    | .load => mem
    | .ldu => mem
    | .store => msetN mem h.loc (storeBytes m.n data)
    | .atomic => match atomicNew i (leNat (mgetN mem h.loc m.n)) (leNat (storeBytes m.n data)) (leNat (storeBytes m.n cmp)) with
      | some v => msetN mem h.loc (leBytes m.n v)
      | none => mem

theorem leBytes_length (n x : Nat) : (leBytes n x).length = n := by
  induction n generalizing x with
  | zero => rfl
  | succ n ih => simp [leBytes, ih]

theorem mgetN_length (m : List Host.Cell) (a n : Nat) : (mgetN m a n).length = n := by
  induction n generalizing a with
  | zero => rfl
  | succ n ih => simp [mgetN, ih]

/-- A performed access. -/
theorem frame_perform {s : State} {b g : Nat} {y : Group} (hg : s.grp? b g = some y) (i : Instr) (m : Mem) (ea : Nat) (h : Hit)
    (data cmp : List Word) :
    ∃ z, AccessFrame s (perform s b g i m ea h data cmp).2 b g y z ∧ z.r = { y.r with sticky := y.r.sticky ||| accFlag m h } ∧
      (perform s b g i m ea h data cmp).2.mem = accMem i m h data cmp s.mem ∧
      (m.kind.reads = true → (perform s b g i m ea h data cmp).1.length = m.n) ∧
      (m.kind.writes = false → (perform s b g i m ea h data cmp).2.hist = s.hist ∧ (perform s b g i m ea h data cmp).2.stamp = s.stamp ∧
        (perform s b g i m ea h data cmp).2.poison = s.poison ∧ (perform s b g i m ea h data cmp).2.clusters = s.clusters) := by
  have h0 : ∀ r : GRegs, { r with sticky := r.sticky ||| (0 : BitVec 9) } = r := by intro r; simp
  unfold perform
  by_cases hl : h.lapsed = true
  · simp only [hl, if_true]
    unfold accFlag accMem
    simp only [hl, if_true]
    cases hr : m.kind.reads with
    | true =>
      simp only [if_true]
      exact ⟨_, frame_modGrp hg _ rfl, rfl, modGrp_mem .., fun _ => by simp, fun _ => ⟨modGrp_hist .., modGrp_stamp .., modGrp_poison .., modGrp_clusters ..⟩⟩
    | false =>
      simp only [Bool.false_eq_true, if_false]
      exact ⟨y, frame_refl hg, (h0 _).symm, trivial, fun h => absurd h (by simp), fun _ => by simp⟩
  · simp only [hl]
    unfold accFlag accMem
    simp only [hl, Bool.false_eq_true, if_false]
    have ht := frame_touchMig hg h.home m.kind.writes
    have e : (touchMig s h.home m.kind.writes).mem = s.mem ∧ (touchMig s h.home m.kind.writes).hist = s.hist ∧
        (touchMig s h.home m.kind.writes).stamp = s.stamp ∧ (touchMig s h.home m.kind.writes).poison = s.poison ∧
        (touchMig s h.home m.kind.writes).clusters = s.clusters := by
      cases h.home <;> exact ⟨rfl, rfl, rfl, rfl, rfl⟩
    generalize touchMig s h.home m.kind.writes = u at *
    cases hk : m.kind with
    | load =>
      simp only
      by_cases hw : m.space = .win
      · simp only [hw, BEq.rfl, if_true]
        refine ⟨_, frame_trans ht (frame_modGrp ht.grp _ rfl), ?_, ?_, fun _ => mgetN_length _ _ _, fun _ => ⟨?_, ?_, ?_, ?_⟩⟩
        · simp
        · unfold winLoad; rw [modGrp_mem, e.1]
        · unfold winLoad; rw [modGrp_hist, e.2.1]
        · unfold winLoad; rw [modGrp_stamp, e.2.2.1]
        · unfold winLoad; rw [modGrp_poison, e.2.2.2.1]
        · unfold winLoad; rw [modGrp_clusters, e.2.2.2.2]
      · have hw' : (m.space == .win) = false := by simpa using hw
        simp only [hw', Bool.false_eq_true, if_false]
        obtain ⟨z, hz, hr, h1, h2, h3, h4, h5, h6⟩ := frame_plainLoad ht.grp h.loc m.n
        by_cases ha : h.alt = true
        · simp only [ha, if_true]
          refine ⟨_, frame_trans ht (frame_trans hz (frame_modGrp hz.grp _ rfl)), ?_, ?_, fun _ => h6, fun _ => ⟨?_, ?_, ?_, ?_⟩⟩
          · unfold setSticky
            rw [hr]; simp [stickyBit, hw]
          · rw [modGrp_mem, h1, e.1]
          · rw [modGrp_hist, h2, e.2.1]
          · rw [modGrp_stamp, h3, e.2.2.1]
          · rw [modGrp_poison, h4, e.2.2.2.1]
          · rw [modGrp_clusters, h5, e.2.2.2.2]
        · simp only [ha, Bool.false_eq_true, if_false]
          refine ⟨z, frame_trans ht hz, ?_, h1.trans e.1, fun _ => h6, fun _ => ⟨h2.trans e.2.1, h3.trans e.2.2.1, h4.trans e.2.2.2.1, h5.trans e.2.2.2.2⟩⟩
          rw [hr]; simp
    | ldu =>
      simp only
      obtain ⟨z, hz, hr, h1, h2⟩ := frame_atomicAt ht.grp h.loc m.n (fun _ => none)
      have : (atomicAt u b g h.loc m.n (fun _ => none)).2.hist = u.hist ∧ (atomicAt u b g h.loc m.n (fun _ => none)).2.stamp = u.stamp ∧
          (atomicAt u b g h.loc m.n (fun _ => none)).2.poison = u.poison ∧ (atomicAt u b g h.loc m.n (fun _ => none)).2.clusters = u.clusters := by
        unfold atomicAt; rw [ht.grp]; simp only; split <;> simp
      by_cases ha : h.alt = true
      · simp only [ha, if_true]
        refine ⟨_, frame_trans ht (frame_trans hz (frame_modGrp hz.grp _ rfl)), ?_, ?_, fun _ => leBytes_length _ _, fun _ => ⟨?_, ?_, ?_, ?_⟩⟩
        · unfold setSticky
          rw [hr]; simp [stickyBit]
        · rw [modGrp_mem, h2]; exact e.1
        · rw [modGrp_hist]; exact this.1.trans e.2.1
        · rw [modGrp_stamp]; exact this.2.1.trans e.2.2.1
        · rw [modGrp_poison]; exact this.2.2.1.trans e.2.2.2.1
        · rw [modGrp_clusters]; exact this.2.2.2.trans e.2.2.2.2
      · simp only [ha, Bool.false_eq_true, if_false]
        refine ⟨z, frame_trans ht hz, ?_, ?_, fun _ => leBytes_length _ _, fun _ => ?_⟩
        · rw [hr]; simp
        · rw [h2]; exact e.1
        · exact ⟨this.1.trans e.2.1, this.2.1.trans e.2.2.1, this.2.2.1.trans e.2.2.2.1, this.2.2.2.trans e.2.2.2.2⟩
    | store =>
      simp only
      by_cases hw : m.space = .win
      · simp only [hw, BEq.rfl, if_true]
        refine ⟨y, frame_trans ht (frame_winStore ht.grp _ _ _), ?_, ?_, fun h => absurd h (by simp [MKind.reads]), fun h => absurd h (by simp [MKind.writes])⟩
        · simp
        · simp [winStore, winWrite, e.1]
      · have hw' : (m.space == .win) = false := by simpa using hw
        simp only [hw', Bool.false_eq_true, if_false]
        obtain ⟨z, hz, hr, hm⟩ := frame_ownWrite ht.grp .store h.loc (storeBytes m.n data)
        refine ⟨z, frame_trans ht (frame_trans hz (frame_markWritten hz.grp _ _)), ?_, ?_, fun h => absurd h (by simp [MKind.reads]), fun h => absurd h (by simp [MKind.writes])⟩
        · rw [hr]; simp
        · rw [markWritten_keeps_mem, hm, e.1]
    | atomic =>
      simp only
      obtain ⟨z, hz, hr, h1, h2⟩ := frame_atomicAt ht.grp h.loc m.n (fun old => atomicNew i old (leNat (storeBytes m.n data)) (leNat (storeBytes m.n cmp)))
      refine ⟨z, frame_trans ht (frame_trans hz (frame_markWritten hz.grp _ _)), ?_, ?_, fun _ => leBytes_length _ _, fun h => absurd h (by simp [MKind.writes])⟩
      · rw [hr]; simp
      · rw [markWritten_keeps_mem, h2, e.1]

/-- The place where an access is performed: after its entry in the digest stream. -/
def turnOf (i : Instr) (q : MemI) (p : Pass) (t : Nat) (s : State) : State :=
  digestAccess s p.b p.g i q.m (q.m.ea p t) (q.data p t) (q.cmp p t)

theorem accessOne_ok {i : Instr} {q : MemI} {p : Pass} {t : Nat} {r : List (Nat × List Byte × Option Nat) × State} {h : Hit}
    (hm : look p (turnOf i q p t r.2) q.m t = .ok h) (hh : h.hold = none) :
    accessOne i q p t r = (r.1 ++ [(t, (perform (turnOf i q p t r.2) p.b p.g i q.m (q.m.ea p t) h (q.data p t) (q.cmp p t)).1, if h.imm then some (q.m.ea p t) else none)],
      (perform (turnOf i q p t r.2) p.b p.g i q.m (q.m.ea p t) h (q.data p t) (q.cmp p t)).2) := by
  unfold turnOf at hm
  unfold accessOne turnOf
  simp only [hm, hh]

/-- The accesses of a path up to the k-th. -/
def accRun (i : Instr) (q : MemI) (p : Pass) (s : State) (k : Nat) : List (Nat × List Byte × Option Nat) × State :=
  ((accThreads i p).take k).foldl (fun r t => accessOne i q p t r) ([], s)

theorem accRun_state (i : Instr) (q : MemI) (p : Pass) (s : State) (k : Nat) : (accRun i q p s k).2 = before i q p s k := rfl

theorem accRun_succ {i : Instr} {q : MemI} {p : Pass} {s : State} {k : Nat} (hk : k < (accThreads i p).length) :
    accRun i q p s (k + 1) = accessOne i q p ((accThreads i p).getD k 0) (accRun i q p s k) := by
  unfold accRun
  rw [List.take_add_one, List.foldl_append]
  have : (accThreads i p)[k]? = some ((accThreads i p).getD k 0) := by simp [List.getD, List.getElem?_eq_getElem hk]
  rw [this]; rfl

/-- The bytes that the k-th access returned. -/
def accVal (i : Instr) (q : MemI) (p : Pass) (s : State) (h : Nat → Hit) (k : Nat) : List Byte :=
  let t := (accThreads i p).getD k 0
  (perform (turnOf i q p t (before i q p s k)) p.b p.g i q.m (q.m.ea p t) (h k) (q.data p t) (q.cmp p t)).1

theorem accRun_step {i : Instr} {q : MemI} {p : Pass} {s : State} {h : Nat → Hit} (hs : Served i q p s h) {k : Nat}
    (hk : k < (accThreads i p).length) :
    accRun i q p s (k + 1) = ((accRun i q p s k).1 ++ [((accThreads i p).getD k 0, accVal i q p s h k, if (h k).imm then some (q.m.ea p ((accThreads i p).getD k 0)) else none)],
      (perform (turnOf i q p ((accThreads i p).getD k 0) (before i q p s k)) p.b p.g i q.m (q.m.ea p ((accThreads i p).getD k 0)) (h k)
        (q.data p ((accThreads i p).getD k 0)) (q.cmp p ((accThreads i p).getD k 0))).2) := by
  rw [accRun_succ hk]
  exact accessOne_ok (r := accRun i q p s k) (h := h k) (hs.2 k hk).1 (hs.2 k hk).2

/-- What the accesses up to the k-th leave. -/
theorem accRun_done {i : Instr} {q : MemI} {p : Pass} {s : State} {h : Nat → Hit} (hs : Served i q p s h)
    (hg : s.grp? p.b p.g = some p.G) (k : Nat) (hk : k ≤ (accThreads i p).length) :
    ∃ z, AccessFrame s (before i q p s k) p.b p.g p.G z ∧
      z.r = { p.G.r with sticky := (List.range k).foldl (fun f j => f ||| accFlag q.m (h j)) p.G.r.sticky } ∧
      (accRun i q p s k).1 = (List.range k).map (fun j => ((accThreads i p).getD j 0, accVal i q p s h j, if (h j).imm then some (q.m.ea p ((accThreads i p).getD j 0)) else none)) ∧
      (q.m.kind.writes = false → (before i q p s k).hist = s.hist ∧ (before i q p s k).stamp = s.stamp ∧
        (before i q p s k).poison = s.poison ∧ (before i q p s k).clusters = s.clusters ∧ (before i q p s k).mem = s.mem) ∧
      (∀ j, j < k → (before i q p s (j + 1)).mem = accMem i q.m (h j) (q.data p ((accThreads i p).getD j 0)) (q.cmp p ((accThreads i p).getD j 0))
        (before i q p s j).mem) ∧
      (q.m.kind.reads = true → ∀ j, j < k → (accVal i q p s h j).length = q.m.n) := by
  induction k with
  | zero => exact ⟨p.G, frame_refl hg, rfl, rfl, fun _ => ⟨rfl, rfl, rfl, rfl, rfl⟩, fun j hj => absurd hj (by omega), fun _ j hj => absurd hj (by omega)⟩
  | succ k ih =>
    obtain ⟨z, hf, hr, hl, hw, hm, hn⟩ := ih (by omega)
    have hkl : k < (accThreads i p).length := by omega
    have hst := accRun_step hs hkl
    have hb : before i q p s (k + 1) = (accRun i q p s (k + 1)).2 := rfl
    obtain ⟨d, hd, _, hdr⟩ := frame_digestAccess hf.grp i q.m (q.m.ea p ((accThreads i p).getD k 0)) (q.data p ((accThreads i p).getD k 0)) (q.cmp p ((accThreads i p).getD k 0))
    obtain ⟨s1, s2, s3, s4, s5⟩ := digestAccess_same (before i q p s k) p.b p.g i q.m (q.m.ea p ((accThreads i p).getD k 0)) (q.data p ((accThreads i p).getD k 0)) (q.cmp p ((accThreads i p).getD k 0))
    obtain ⟨y, hy, hyr, hym, hyn, hyw⟩ := frame_perform hd.grp i q.m (q.m.ea p ((accThreads i p).getD k 0)) (h k) (q.data p ((accThreads i p).getD k 0)) (q.cmp p ((accThreads i p).getD k 0))
    have hmem : (before i q p s (k + 1)).mem = accMem i q.m (h k) (q.data p ((accThreads i p).getD k 0)) (q.cmp p ((accThreads i p).getD k 0)) (before i q p s k).mem := by
      rw [hb, hst]; exact hym.trans (by rw [s5])
    refine ⟨y, ?_, ?_, ?_, ?_, ?_, ?_⟩
    · rw [hb, hst]; exact frame_trans hf (frame_trans hd hy)
    · rw [hyr, hdr, hr, List.range_succ, List.foldl_append]; rfl
    · rw [hst, hl, List.range_succ, List.map_append]; rfl
    · intro hkw
      obtain ⟨w1, w2, w3, w4, w5⟩ := hw hkw
      obtain ⟨v1, v2, v3, v4⟩ := hyw hkw
      rw [hmem]
      rw [hb, hst]
      refine ⟨v1.trans (s1.trans w1), v2.trans (s2.trans w2), v3.trans (s3.trans w3), v4.trans (s4.trans w4), ?_⟩
      unfold accMem
      cases hkind : q.m.kind <;> simp_all [MKind.writes]
    · intro j hj
      rcases Nat.lt_succ_iff_lt_or_eq.1 hj with hj | rfl
      · exact hm j hj
      · exact hmem
    · intro hkr j hj
      rcases Nat.lt_succ_iff_lt_or_eq.1 hj with hj | rfl
      · exact hn hkr j hj
      · exact hyn hkr

end Sys2Proof.Laws
end

