-- ==== Sys2Proof/Laws/Canon1.lean ====
section
/-! SUPPORT. What each operation leaves of the memory; those that write keep its canonical form. -/

namespace Sys2Proof.Laws
open Sys2Proof.Machine

@[simp] theorem choose_mem (s : State) (n : Nat)  : (choose s n).2.mem = s.mem := by
  unfold choose; split <;> simp [*]

@[simp] theorem chooseFrom_mem {α : Type} (s : State) (d : α) (y0 : List α)  : (chooseFrom s d y0).2.mem = s.mem := by
  unfold chooseFrom; split <;> simp [*]

@[simp] theorem occupy_mem (c : Nat) (lanes : List Nat) (n : Nat) (works : List (TClass × Nat × Nat)) (s : State)  : (occupy c lanes n works s).mem = s.mem := by
  simp [occupy]

@[simp] theorem note_mem (kind acct n : Nat) (s : State)  : (note kind acct n s).mem = s.mem := by
  simp [note]

@[simp] theorem setPoison_mem (s : State) (l : List Nat)  : (setPoison s l).mem = s.mem := by
  simp [setPoison]

@[simp] theorem writeLoc_canon (s : State) (who : Nat) (kind : WKind) (a : Nat) (bs : List Byte)  (hm : memOk s.mem = true) : memOk (writeLoc s who kind a bs).mem = true := by
  simp [writeLoc, *]

@[simp] theorem clearRange_canon (s : State) (a n : Nat)  (hm : memOk s.mem = true) : memOk (clearRange s a n).mem = true := by
  simp [clearRange, *]

@[simp] theorem publish_mem (s : State) (b g : Nat) (sc : Scope) (join : Bool) : (publish s b g sc join).mem = s.mem := by
  unfold publish; repeat' split
  all_goals simp [*]

@[simp] theorem publishScratch_mem (s : State) (b g : Nat)  : (publishScratch s b g).mem = s.mem := by
  unfold publishScratch; repeat' split
  all_goals simp [*]

@[simp] theorem acquire_mem (s : State) (b g : Nat) (sc : Scope)  : (acquire s b g sc).mem = s.mem := by
  unfold acquire; repeat' split
  all_goals simp [*]

@[simp] theorem plainLoad_mem (s : State) (b g : Nat) (a n : Nat)  : (plainLoad s b g a n).2.mem = s.mem := by
  unfold plainLoad; split <;> simp [*]

@[simp] theorem ownWrite_canon (s : State) (b g : Nat) (kind : WKind) (a : Nat) (bs : List Byte)  (hm : memOk s.mem = true) : memOk (ownWrite s b g kind a bs).mem = true := by
  unfold ownWrite; split <;> simp [*]

@[simp] theorem engWrite_canon (s : State) (b g op : Nat) (a : Nat) (bs : List Byte)  (hm : memOk s.mem = true) : memOk (engWrite s b g op a bs).mem = true := by
  unfold engWrite; split <;> simp [*]

@[simp] theorem finWrites_mem (s : State) (b g op : Nat)  : (finWrites s b g op).mem = s.mem := by
  unfold finWrites; split <;> simp [*]

@[simp] theorem dropWrites_mem (s : State) (uid : Nat)  : (dropWrites s uid).mem = s.mem := by
  simp [dropWrites]

@[simp] theorem atomicAt_canon (s : State) (b g : Nat) (a n : Nat) (f : Nat → Option Nat)  (hm : memOk s.mem = true) : memOk (atomicAt s b g a n f).2.mem = true := by
  simp only [atomicAt]; repeat' split
  all_goals simp_all

@[simp] theorem markScr_mem (s : State) (b o : Nat)  : (markScr s b o).mem = s.mem := by
  simp [markScr]

@[simp] theorem markLay_mem (s : State) (k a : Nat)  : (markLay s k a).mem = s.mem := by
  simp [markLay]

@[simp] theorem postTrap_mem (s : State) (hp : HPort) (h : Held)  : (postTrap s hp h).mem = s.mem := by
  simp [postTrap]

@[simp] theorem postBoth_mem (s : State) (bytes : List Byte)  : (postBoth s bytes).mem = s.mem := by
  simp [postBoth]

@[simp] theorem postRecord_mem (s : State) (ctx : Option Word) (mk : Nat → Word → List Byte)  : (postRecord s ctx mk).mem = s.mem := by
  unfold postRecord; repeat' split
  all_goals simp [*]

@[simp] theorem debugPost_mem (s : State) (hp : HPort) (post : List Byte)  : (debugPost s hp post).mem = s.mem := by
  simp [debugPost]

@[simp] theorem leaveLane_mem (s : State) (b g : Nat)  : (leaveLane s b g).mem = s.mem := by
  unfold leaveLane; split <;> simp [*]

@[simp] theorem park_mem (s : State) (b g : Nat) (key : ParkKey)  : (park s b g key).mem = s.mem := by
  unfold park; split <;> simp [*]

@[simp] theorem wakeCore_mem (s : State) (c : Nat) (p : ParkKey → Bool)  : (wakeCore s c p).mem = s.mem := by
  simp only [wakeCore]; split
  · rfl
  · rw [foldS_mem]
    intro a s
    split
    · split <;> simp
    · rfl

@[simp] theorem wakeAll_mem (s : State) (p : ParkKey → Bool)  : (wakeAll s p).mem = s.mem := by
  simp [wakeAll]

@[simp] theorem unassayable_mem (s : State) (b g : Nat)  : (unassayable s b g).mem = s.mem := by
  unfold unassayable; split <;> simp [*]

@[simp] theorem journal_mem (s : State) (b g : Nat) (mask : BitVec 32) (vals : List (List Byte))  : (journal s b g mask vals).mem = s.mem := by
  unfold journal; split <;> simp [*]

@[simp] theorem shiftJournal_mem (s : State) (b g at0 : Nat) (d : Int)  : (shiftJournal s b g at0 d).mem = s.mem := by
  simp [shiftJournal]

@[simp] theorem notePlaces_mem (s : State) (b g : Nat) (i : Instr) (pc : Word) (l : List (Nat × Nat × Nat))  : (notePlaces s b g i pc l).mem = s.mem := by
  simp [notePlaces]

@[simp] theorem insertEntries_mem (s : State) (b g at0 : Nat) (l : List Byte)  : (insertEntries s b g at0 l).mem = s.mem := by
  unfold insertEntries; split <;> simp [*]

@[simp] theorem journalEntry_mem (s : State) (b g : Nat) (i : Instr) (pc : Word) (items : List (Nat × List Byte × Bool)) (front : Option Nat )  : (journalEntry s b g i pc items front).mem = s.mem := by
  unfold journalEntry; repeat' split
  all_goals simp [*]

@[simp] theorem journalItems_mem (s : State) (b g : Nat) (upper : Bool) (i : Instr) (pc : Word) (items : List (Nat × List Byte × Bool))  : (journalItems s b g upper i pc items).mem = s.mem := by
  unfold journalItems; repeat' split
  all_goals simp [*]

@[simp] theorem openBoth_mem (s : State) (b g : Nat)  : (openBoth s b g).mem = s.mem := by
  simp [openBoth]

@[simp] theorem closeBoth_mem (s : State) (b g : Nat) (front : Bool → Option Nat) (of : Bool → Instr × Word)  : (closeBoth s b g front of).mem = s.mem := by
  unfold closeBoth; repeat' split
  all_goals simp [*]

@[simp] theorem fillEntry_mem (s : State) (b g : Nat) (at0 : Option (Nat × Nat)) (bs : List Byte)  : (fillEntry s b g at0 bs).mem = s.mem := by
  unfold fillEntry; split <;> simp [*]

@[simp] theorem leaveEntry_mem (s : State) (b g : Nat) (at0 : Option (Nat × Nat)) (t n : Nat)  : (leaveEntry s b g at0 t n).mem = s.mem := by
  unfold leaveEntry; split <;> simp [*]

@[simp] theorem keepImm_mem (s : State) (b g : Nat) (l : List (Nat × List Byte))  : (keepImm s b g l).mem = s.mem := by
  simp [keepImm]

@[simp] theorem digest_mem (s : State) (b g : Nat) (entry : List Byte)  : (digest s b g entry).mem = s.mem := by
  simp [digest]

@[simp] theorem moveRegion_mem (s : State) (b g : Nat) (ts : List Nat)  : (moveRegion s b g ts).mem = s.mem := by
  simp [moveRegion]

@[simp] theorem rollbackNow_mem (s : State) (b g : Nat)  : (rollbackNow s b g).mem = s.mem := by
  unfold rollbackNow; split <;> simp [*]

@[simp] theorem rollback_mem (s : State) (b g : Nat)  : (rollback s b g).mem = s.mem := by
  unfold rollback; split <;> simp [*]

@[simp] theorem unhandled_mem (s : State) (b g : Nat) (x : Block) (y : Group) (frame : List Word)  : (unhandled s b g x y frame).mem = s.mem := by
  simp [unhandled]

@[simp] theorem debugHalt_mem (s : State) (b g : Nat) (x : Block) (y : Group) (kind t : Nat) (pc val : Word)  : (debugHalt s b g x y kind t pc val).mem = s.mem := by
  simp [debugHalt]

@[simp] theorem takeFault_mem (s : State) (b g : Nat) (k : FKind) (j : Nat) (upper : Bool) (pc : Word) (mask : BitVec 32) (aux : Word) (addr : BitVec 64) (val : Word) (low : Nat) :
    (takeFault s b g k j upper pc mask aux addr val low).mem = s.mem := by
  unfold takeFault; repeat' split
  all_goals simp [*]

@[simp] theorem aluEff_mem (i : Instr) (d : Dst) (f : Pass → Nat → Word → Res) (p : Pass) (s : State)  : (aluEff i d f p s).mem = s.mem := by
  simp [aluEff]

@[simp] theorem wholeEff_mem (i : Instr) (d : Dst) (f : Pass → List (Nat × Word)) (p : Pass) (s : State)  : (wholeEff i d f p s).mem = s.mem := by
  simp [wholeEff]

@[simp] theorem cutSel_mem (s : State) (p : Pass) (ts : List Nat) (cut : Bool)  : (cutSel s p ts cut).mem = s.mem := by
  simp [cutSel]

@[simp] theorem commitBelow_mem (i : Instr) (eff : Pass → State → State) (p : Pass) (j : Nat) (faulting : Bool) (s : State) (heff : ∀ (a0 : Pass) (s : State), (eff a0 s).mem = s.mem) : (commitBelow i eff p j faulting s).mem = s.mem := by
  simp only [commitBelow]; repeat' split
  all_goals simp_all

theorem commitBelow_canon (i : Instr) (eff : Pass → State → State) (heff : ∀ p s, memOk s.mem = true → memOk (eff p s).mem = true)
    (p : Pass) (j : Nat) (faulting : Bool) (s : State) (hm : memOk s.mem = true) : memOk (commitBelow i eff p j faulting s).mem = true := by
  unfold commitBelow
  extract_lets below all ts s'
  split
  · simp [hm]
  · split
    · exact heff _ _ (by simpa [s', cutSel] using hm)
    · simpa [s', cutSel] using hm

@[simp] theorem faultPre_mem (i : Instr) (k : FKind) (p : Pass) (s : State)  : (faultPre i k p s).mem = s.mem := by
  unfold faultPre; split <;> simp [*]

/-- An instruction keeps the canonical form of the memory if its effect does. -/
theorem runPass_canon (i : Instr) (extra : Pass → State → Nat → Option Cond) (eff : Pass → State → State)
    (heff : ∀ p s, memOk s.mem = true → memOk (eff p s).mem = true) (s t : State) (h : runPass i extra eff s = .next t)
    (hm : memOk s.mem = true) : memOk t.mem = true := by
  unfold runPass at h
  split at h
  · cases h
  · split at h
    · rw [← next_inj h]; exact heff _ _ hm
    · split at h <;> rw [← next_inj h]
      · exact heff _ _ hm
      · simp [*]
      · simp only [takeFault_mem, faultPre_mem, modGrp_mem]
        exact commitBelow_canon _ _ heff _ _ _ _ hm

theorem runAlu_canon (i : Instr) (d : Dst) (f : Pass → Nat → Word → Res) (s t : State) (h : runAlu i d f s = .next t)
    (hm : memOk s.mem = true) : memOk t.mem = true := runPass_canon _ _ _ (by intro p s hs; simpa using hs) _ _ h hm

theorem runWhole_canon (i : Instr) (d : Dst) (f : Pass → List (Nat × Word)) (s t : State) (h : runWhole i d f s = .next t)
    (hm : memOk s.mem = true) : memOk t.mem = true := runPass_canon _ _ _ (by intro p s hs; simpa using hs) _ _ h hm

@[simp] theorem groupEff_mem (f : Pass → Group → Group) (p : Pass) (s : State)  : (groupEff f p s).mem = s.mem := by
  simp [groupEff]

@[simp] theorem tripRail_mem (s : State) (x : Nat)  : (tripRail s x).2.mem = s.mem := by
  unfold tripRail; split <;> simp [*]

@[simp] theorem underTrip_mem (s : State) (loc : Nat)  : (underTrip s loc).2.mem = s.mem := by
  unfold underTrip; repeat' split
  all_goals simp [*]

@[simp] theorem reportPage_mem (s : State) (loc : Nat)  : (reportPage s loc).2.mem = s.mem := by
  simp only [reportPage]; repeat' split
  all_goals simp_all

@[simp] theorem findErrorFor_mem (s : State) (loc sev time : Nat) (ctx : Option Word) (own : Nat)  : (findErrorFor s loc sev time ctx own).mem = s.mem := by
  unfold findErrorFor; split <;> simp [*]

@[simp] theorem findError_mem (s : State) (loc sev time : Nat) (ctx : Option Word)  : (findError s loc sev time ctx).mem = s.mem := by
  simp [findError]

@[simp] theorem findErrors_mem (s : State) (a n sev time : Nat) (ctx : Option Word)  : (findErrors s a n sev time ctx).mem = s.mem := by
  simp [findErrors]

@[simp] theorem findRead_mem (s : State) (pa : Nat) (alt : Option Nat) (n time : Nat) (ctx : Option Word)  : (findRead s pa alt n time ctx).mem = s.mem := by
  unfold findRead; repeat' split
  all_goals simp [*]

@[simp] theorem findWalk_mem (s : State) (c : Context) (va : BitVec 64) (time : Nat) (ctx : Word) : (findWalk s c va time ctx).mem = s.mem := by
  simp only [findWalk]; split
  · rfl
  · exact foldS_mem _ (fun a t => by simp) _ _
@[simp] theorem findWalks_mem (s : State) (c : Context) (va : BitVec 64) (n time : Nat) (ctx : Word) :
    (findWalks s c va n time ctx).mem = s.mem := by
  simp only [findWalks]; split
  · rfl
  · exact foldS_mem _ (fun a t => by simp) _ _
@[simp] theorem findFor_mem (p : Pass) (m : Mem) (s : State)  : (findFor p m s).mem = s.mem := by
  unfold findFor
  split
  · rfl
  · refine foldS_mem _ ?_ _ _
    intro t s
    dsimp only
    repeat' split
    all_goals simp

@[simp] theorem findSpan_mem (p : Pass) (x : Span) (s : State)  : (findSpan p x s).mem = s.mem := by
  simp [findSpan]

@[simp] theorem findMig_mem (s : State) (c : Context) (y : Group) (etm : Nat) (l : Leaf) (ea n pa time : Nat) (ctx : Word) :
    (findMig s c y etm l ea n pa time ctx).mem = s.mem := by
  unfold findMig; split <;> simp

@[simp] theorem findGath_mem (p : Pass) (g : GathD) (s : State)  : (findGath p g s).mem = s.mem := by
  unfold findGath
  extract_lets s1 iv
  refine (foldS_mem _ ?_ _ _).trans (by simp [s1])
  intro i s
  split
  · rfl
  · split
    · simp
    · refine foldS_mem _ ?_ _ _
      intro k s
      dsimp only
      split
      · rfl
      · split <;> simp

@[simp] theorem findMma_mem (p : Pass) (d : MmaD) (x : Gang) (s : State)  : (findMma p d x s).mem = s.mem := by
  simp [findMma]

@[simp] theorem findCont_mem (a : Src) (p : Pass) (s : State)  : (findCont a p s).mem = s.mem := by
  unfold findCont
  refine foldS_mem _ ?_ _ _
  intro t s
  dsimp only
  repeat' split
  all_goals simp

@[simp] theorem findTab_mem (p : Pass) (va : BitVec 64) (k : Nat) (s : State)  : (findTab p va k s).mem = s.mem := by
  unfold findTab
  split
  · rfl
  · refine foldS_mem _ ?_ _ _
    intro k s
    dsimp only
    split <;> simp

@[simp] theorem findAll_mem (i : Instr) (p : Pass) (s : State)  : (findAll i p s).mem = s.mem := by
  unfold findAll; repeat' split
  all_goals simp [*]

@[simp] theorem findSel_mem (i : Instr) (s : State)  : (findSel i s).mem = s.mem := by
  unfold findSel; split <;> simp [*]

end Sys2Proof.Laws
end

