-- ==== Sys2Proof/Laws/Canon2.lean ====
section
/-! SUPPORT. What each operation leaves of the memory; those that write keep its canonical form. -/

namespace Sys2Proof.Laws
open Sys2Proof.Machine

theorem execAdd_canon (n : Bool) (d : Dst) (a b : Src) (m : Ari) (s : State)  (nx : State) (h : execAdd n d a b m s = .next nx) (hm : memOk s.mem = true) : memOk nx.mem = true := by
  unfold execAdd at h; exact runAlu_canon _ _ _ _ _ h hm

theorem execSub_canon (n : Bool) (d : Dst) (a b : Src) (m : Ari) (s : State)  (nx : State) (h : execSub n d a b m s = .next nx) (hm : memOk s.mem = true) : memOk nx.mem = true := by
  unfold execSub at h; exact runAlu_canon _ _ _ _ _ h hm

theorem execMul_canon (n : Bool) (d : Dst) (a b : Src) (m : Ari) (s : State)  (nx : State) (h : execMul n d a b m s = .next nx) (hm : memOk s.mem = true) : memOk nx.mem = true := by
  unfold execMul at h; exact runAlu_canon _ _ _ _ _ h hm

theorem execMad_canon (n : Bool) (d : Dst) (a b : Src) (m : Ari) (s : State)  (nx : State) (h : execMad n d a b m s = .next nx) (hm : memOk s.mem = true) : memOk nx.mem = true := by
  unfold execMad at h; exact runAlu_canon _ _ _ _ _ h hm

theorem execDiv_canon (n : Bool) (d : Dst) (a b : Src) (m : Int4) (s : State)  (nx : State) (h : execDiv n d a b m s = .next nx) (hm : memOk s.mem = true) : memOk nx.mem = true := by
  unfold execDiv at h; exact runAlu_canon _ _ _ _ _ h hm

theorem execRem_canon (n : Bool) (d : Dst) (a b : Src) (m : Int4) (s : State)  (nx : State) (h : execRem n d a b m s = .next nx) (hm : memOk s.mem = true) : memOk nx.mem = true := by
  unfold execRem at h; exact runAlu_canon _ _ _ _ _ h hm

theorem execMin_canon (n : Bool) (d : Dst) (a b : Src) (m : Int4) (s : State)  (nx : State) (h : execMin n d a b m s = .next nx) (hm : memOk s.mem = true) : memOk nx.mem = true := by
  unfold execMin at h; exact runAlu_canon _ _ _ _ _ h hm

theorem execMax_canon (n : Bool) (d : Dst) (a b : Src) (m : Int4) (s : State)  (nx : State) (h : execMax n d a b m s = .next nx) (hm : memOk s.mem = true) : memOk nx.mem = true := by
  unfold execMax at h; exact runAlu_canon _ _ _ _ _ h hm

theorem execAbs_canon (n : Bool) (d : Dst) (a : Src) (m : Un3) (s : State)  (nx : State) (h : execAbs n d a m s = .next nx) (hm : memOk s.mem = true) : memOk nx.mem = true := by
  unfold execAbs at h; exact runAlu_canon _ _ _ _ _ h hm

theorem execNeg_canon (n : Bool) (d : Dst) (a : Src) (m : Un3) (s : State)  (nx : State) (h : execNeg n d a m s = .next nx) (hm : memOk s.mem = true) : memOk nx.mem = true := by
  unfold execNeg at h; exact runAlu_canon _ _ _ _ _ h hm

theorem execCmp_canon (n : Bool) (d : Dst) (a b : Src) (m : CmpM) (s : State)  (nx : State) (h : execCmp n d a b m s = .next nx) (hm : memOk s.mem = true) : memOk nx.mem = true := by
  unfold execCmp at h; exact runAlu_canon _ _ _ _ _ h hm

theorem execCmpe_canon (n : Bool) (d : Dst) (a b : Src) (m : CmpeM) (s : State)  (nx : State) (h : execCmpe n d a b m s = .next nx) (hm : memOk s.mem = true) : memOk nx.mem = true := by
  unfold execCmpe at h; exact runAlu_canon _ _ _ _ _ h hm

theorem execSel_canon (n : Bool) (d : Dst) (a b : Src) (m : W2) (s : State)  (nx : State) (h : execSel n d a b m s = .next nx) (hm : memOk s.mem = true) : memOk nx.mem = true := by
  unfold execSel at h; exact runAlu_canon _ _ _ _ _ h hm

theorem execLea_canon (n : Bool) (d : Dst) (a b : Src) (m : Scale) (s : State)  (nx : State) (h : execLea n d a b m s = .next nx) (hm : memOk s.mem = true) : memOk nx.mem = true := by
  unfold execLea at h; exact runAlu_canon _ _ _ _ _ h hm

theorem execMulw_canon (n : Bool) (d : Dst) (a b : Src) (m : MulwM) (s : State)  (nx : State) (h : execMulw n d a b m s = .next nx) (hm : memOk s.mem = true) : memOk nx.mem = true := by
  unfold execMulw at h; exact runAlu_canon _ _ _ _ _ h hm

theorem execClamp_canon (n : Bool) (d : Dst) (a b : Src) (m : Sgn32) (s : State)  (nx : State) (h : execClamp n d a b m s = .next nx) (hm : memOk s.mem = true) : memOk nx.mem = true := by
  unfold execClamp at h; exact runAlu_canon _ _ _ _ _ h hm

theorem execAnd_canon (n : Bool) (d : Dst) (a b : Src) (m : W2) (s : State)  (nx : State) (h : execAnd n d a b m s = .next nx) (hm : memOk s.mem = true) : memOk nx.mem = true := by
  unfold execAnd at h; exact runAlu_canon _ _ _ _ _ h hm

theorem execOr_canon (n : Bool) (d : Dst) (a b : Src) (m : W2) (s : State)  (nx : State) (h : execOr n d a b m s = .next nx) (hm : memOk s.mem = true) : memOk nx.mem = true := by
  unfold execOr at h; exact runAlu_canon _ _ _ _ _ h hm

theorem execXor_canon (n : Bool) (d : Dst) (a b : Src) (m : W2) (s : State)  (nx : State) (h : execXor n d a b m s = .next nx) (hm : memOk s.mem = true) : memOk nx.mem = true := by
  unfold execXor at h; exact runAlu_canon _ _ _ _ _ h hm

theorem execAndn_canon (n : Bool) (d : Dst) (a b : Src) (m : W2) (s : State)  (nx : State) (h : execAndn n d a b m s = .next nx) (hm : memOk s.mem = true) : memOk nx.mem = true := by
  unfold execAndn at h; exact runAlu_canon _ _ _ _ _ h hm

theorem execOrn_canon (n : Bool) (d : Dst) (a b : Src) (m : W2) (s : State)  (nx : State) (h : execOrn n d a b m s = .next nx) (hm : memOk s.mem = true) : memOk nx.mem = true := by
  unfold execOrn at h; exact runAlu_canon _ _ _ _ _ h hm

theorem execXnor_canon (n : Bool) (d : Dst) (a b : Src) (m : W2) (s : State)  (nx : State) (h : execXnor n d a b m s = .next nx) (hm : memOk s.mem = true) : memOk nx.mem = true := by
  unfold execXnor at h; exact runAlu_canon _ _ _ _ _ h hm

theorem execShl_canon (n : Bool) (d : Dst) (a b : Src) (m : W2) (s : State)  (nx : State) (h : execShl n d a b m s = .next nx) (hm : memOk s.mem = true) : memOk nx.mem = true := by
  unfold execShl at h; exact runAlu_canon _ _ _ _ _ h hm

theorem execShr_canon (n : Bool) (d : Dst) (a b : Src) (m : W2) (s : State)  (nx : State) (h : execShr n d a b m s = .next nx) (hm : memOk s.mem = true) : memOk nx.mem = true := by
  unfold execShr at h; exact runAlu_canon _ _ _ _ _ h hm

theorem execSar_canon (n : Bool) (d : Dst) (a b : Src) (m : W2) (s : State)  (nx : State) (h : execSar n d a b m s = .next nx) (hm : memOk s.mem = true) : memOk nx.mem = true := by
  unfold execSar at h; exact runAlu_canon _ _ _ _ _ h hm

theorem execRot_canon (n : Bool) (d : Dst) (a b : Src) (m : RotM) (s : State)  (nx : State) (h : execRot n d a b m s = .next nx) (hm : memOk s.mem = true) : memOk nx.mem = true := by
  unfold execRot at h; exact runAlu_canon _ _ _ _ _ h hm

theorem execExtf_canon (n : Bool) (d : Dst) (a b : Src) (m : ExtfM) (s : State)  (nx : State) (h : execExtf n d a b m s = .next nx) (hm : memOk s.mem = true) : memOk nx.mem = true := by
  unfold execExtf at h; exact runAlu_canon _ _ _ _ _ h hm

theorem execDepf_canon (n : Bool) (d : Dst) (a b : Src) (s : State)  (nx : State) (h : execDepf n d a b s = .next nx) (hm : memOk s.mem = true) : memOk nx.mem = true := by
  unfold execDepf at h; exact runAlu_canon _ _ _ _ _ h hm

theorem execPopc_canon (n : Bool) (d : Dst) (a : Src) (m : W2) (s : State)  (nx : State) (h : execPopc n d a m s = .next nx) (hm : memOk s.mem = true) : memOk nx.mem = true := by
  unfold execPopc at h; exact runAlu_canon _ _ _ _ _ h hm

theorem execClz_canon (n : Bool) (d : Dst) (a : Src) (m : W2) (s : State)  (nx : State) (h : execClz n d a m s = .next nx) (hm : memOk s.mem = true) : memOk nx.mem = true := by
  unfold execClz at h; exact runAlu_canon _ _ _ _ _ h hm

theorem execCtz_canon (n : Bool) (d : Dst) (a : Src) (m : W2) (s : State)  (nx : State) (h : execCtz n d a m s = .next nx) (hm : memOk s.mem = true) : memOk nx.mem = true := by
  unfold execCtz at h; exact runAlu_canon _ _ _ _ _ h hm

theorem execBrev_canon (n : Bool) (d : Dst) (a : Src) (m : W2) (s : State)  (nx : State) (h : execBrev n d a m s = .next nx) (hm : memOk s.mem = true) : memOk nx.mem = true := by
  unfold execBrev at h; exact runAlu_canon _ _ _ _ _ h hm

theorem execAddi_canon (n : Bool) (d : Dst) (a : Src) (i : BitVec 9) (s : State)  (nx : State) (h : execAddi n d a i s = .next nx) (hm : memOk s.mem = true) : memOk nx.mem = true := by
  unfold execAddi at h; exact runAlu_canon _ _ _ _ _ h hm

theorem execMuli_canon (n : Bool) (d : Dst) (a : Src) (i : BitVec 9) (s : State)  (nx : State) (h : execMuli n d a i s = .next nx) (hm : memOk s.mem = true) : memOk nx.mem = true := by
  unfold execMuli at h; exact runAlu_canon _ _ _ _ _ h hm

theorem execAndi_canon (n : Bool) (d : Dst) (a : Src) (i : BitVec 9) (s : State)  (nx : State) (h : execAndi n d a i s = .next nx) (hm : memOk s.mem = true) : memOk nx.mem = true := by
  unfold execAndi at h; exact runAlu_canon _ _ _ _ _ h hm

theorem execOri_canon (n : Bool) (d : Dst) (a : Src) (i : BitVec 9) (s : State)  (nx : State) (h : execOri n d a i s = .next nx) (hm : memOk s.mem = true) : memOk nx.mem = true := by
  unfold execOri at h; exact runAlu_canon _ _ _ _ _ h hm

theorem execXori_canon (n : Bool) (d : Dst) (a : Src) (i : BitVec 9) (s : State)  (nx : State) (h : execXori n d a i s = .next nx) (hm : memOk s.mem = true) : memOk nx.mem = true := by
  unfold execXori at h; exact runAlu_canon _ _ _ _ _ h hm

theorem execShli_canon (n : Bool) (d : Dst) (a : Src) (i : BitVec 9) (s : State)  (nx : State) (h : execShli n d a i s = .next nx) (hm : memOk s.mem = true) : memOk nx.mem = true := by
  unfold execShli at h; exact runAlu_canon _ _ _ _ _ h hm

theorem execShri_canon (n : Bool) (d : Dst) (a : Src) (i : BitVec 9) (s : State)  (nx : State) (h : execShri n d a i s = .next nx) (hm : memOk s.mem = true) : memOk nx.mem = true := by
  unfold execShri at h; exact runAlu_canon _ _ _ _ _ h hm

theorem execSari_canon (n : Bool) (d : Dst) (a : Src) (i : BitVec 9) (s : State)  (nx : State) (h : execSari n d a i s = .next nx) (hm : memOk s.mem = true) : memOk nx.mem = true := by
  unfold execSari at h; exact runAlu_canon _ _ _ _ _ h hm

theorem execCmpieq_canon (n : Bool) (d : Dst) (a : Src) (i : BitVec 9) (s : State)  (nx : State) (h : execCmpieq n d a i s = .next nx) (hm : memOk s.mem = true) : memOk nx.mem = true := by
  unfold execCmpieq at h; exact runAlu_canon _ _ _ _ _ h hm

theorem execCmpilt_canon (n : Bool) (d : Dst) (a : Src) (i : BitVec 9) (s : State)  (nx : State) (h : execCmpilt n d a i s = .next nx) (hm : memOk s.mem = true) : memOk nx.mem = true := by
  unfold execCmpilt at h; exact runAlu_canon _ _ _ _ _ h hm

theorem execCmpiltn_canon (n : Bool) (d : Dst) (a : Src) (i : BitVec 9) (s : State)  (nx : State) (h : execCmpiltn n d a i s = .next nx) (hm : memOk s.mem = true) : memOk nx.mem = true := by
  unfold execCmpiltn at h; exact runAlu_canon _ _ _ _ _ h hm

theorem execMini_canon (n : Bool) (d : Dst) (a : Src) (i : BitVec 9) (s : State)  (nx : State) (h : execMini n d a i s = .next nx) (hm : memOk s.mem = true) : memOk nx.mem = true := by
  unfold execMini at h; exact runAlu_canon _ _ _ _ _ h hm

theorem execLdk_canon (n : Bool) (d : Dst) (i : BitVec 16) (s : State)  (nx : State) (h : execLdk n d i s = .next nx) (hm : memOk s.mem = true) : memOk nx.mem = true := by
  unfold execLdk at h; exact runAlu_canon _ _ _ _ _ h hm

theorem execLdkh_canon (n : Bool) (d : Dst) (i : BitVec 16) (s : State)  (nx : State) (h : execLdkh n d i s = .next nx) (hm : memOk s.mem = true) : memOk nx.mem = true := by
  unfold execLdkh at h; exact runAlu_canon _ _ _ _ _ h hm

theorem execMov_canon (n : Bool) (d : Dst) (a : Src) (m : MovM) (s : State)  (nx : State) (h : execMov n d a m s = .next nx) (hm : memOk s.mem = true) : memOk nx.mem = true := by
  unfold execMov at h; exact runAlu_canon _ _ _ _ _ h hm

theorem execMort_canon (n : Bool) (d : Dst) (a b : Src) (m : DimM) (s : State)  (nx : State) (h : execMort n d a b m s = .next nx) (hm : memOk s.mem = true) : memOk nx.mem = true := by
  unfold execMort at h; exact runAlu_canon _ _ _ _ _ h hm

theorem execSeedc_canon (a : Src) (s : State)  (nx : State) (h : execSeedc a s = .next nx) (hm : memOk s.mem = true) : memOk nx.mem = true := by
  unfold execSeedc at h; refine runPass_canon _ _ _ ?_ _ _ h hm
  intro p s hs; simp [*]

theorem execRdtail_canon (n : Bool) (d : Dst) (s : State)  (nx : State) (h : execRdtail n d s = .next nx) (hm : memOk s.mem = true) : memOk nx.mem = true := by
  unfold execRdtail at h; refine runPass_canon _ _ _ ?_ _ _ h hm
  intro p s hs; simp [*]

theorem execRed_canon (n : Bool) (d : Dst) (a : Src) (m : RedM) (s : State)  (nx : State) (h : execRed n d a m s = .next nx) (hm : memOk s.mem = true) : memOk nx.mem = true := by
  unfold execRed at h; refine runPass_canon _ _ _ ?_ _ _ h hm
  intro p s hs; simp [*]

theorem execRedf_canon (n : Bool) (d : Dst) (a : Src) (m : RedfM) (s : State)  (nx : State) (h : execRedf n d a m s = .next nx) (hm : memOk s.mem = true) : memOk nx.mem = true := by
  unfold execRedf at h; refine runPass_canon _ _ _ ?_ _ _ h hm
  intro p s hs; simp [*]

theorem execTshb_canon (n : Bool) (d : Dst) (a b : Src) (m : FillM) (s : State)  (nx : State) (h : execTshb n d a b m s = .next nx) (hm : memOk s.mem = true) : memOk nx.mem = true := by
  unfold execTshb at h; refine runPass_canon _ _ _ ?_ _ _ h hm
  intro p s hs; simp [*]

theorem execTshf_canon (n : Bool) (d : Dst) (a b : Src) (m : FillM) (s : State)  (nx : State) (h : execTshf n d a b m s = .next nx) (hm : memOk s.mem = true) : memOk nx.mem = true := by
  unfold execTshf at h; refine runPass_canon _ _ _ ?_ _ _ h hm
  intro p s hs; simp [*]

theorem execTbcst_canon (n : Bool) (d : Dst) (a b : Src) (s : State)  (nx : State) (h : execTbcst n d a b s = .next nx) (hm : memOk s.mem = true) : memOk nx.mem = true := by
  unfold execTbcst at h; refine runPass_canon _ _ _ ?_ _ _ h hm
  intro p s hs; simp [*]

theorem execPoll_canon (n : Bool) (d : Dst) (a : Src) (m : PollM) (s : State)  (nx : State) (h : execPoll n d a m s = .next nx) (hm : memOk s.mem = true) : memOk nx.mem = true := by
  unfold execPoll at h; refine runPass_canon _ _ _ ?_ _ _ h hm
  intro p s hs; simp [*]

theorem execQswp_canon (n : Bool) (d : Dst) (a : Src) (m : QswpM) (s : State)  (nx : State) (h : execQswp n d a m s = .next nx) (hm : memOk s.mem = true) : memOk nx.mem = true := by
  unfold execQswp at h; refine runPass_canon _ _ _ ?_ _ _ h hm
  intro p s hs; simp [*]

theorem execQred_canon (n : Bool) (d : Dst) (a : Src) (m : QredM) (s : State)  (nx : State) (h : execQred n d a m s = .next nx) (hm : memOk s.mem = true) : memOk nx.mem = true := by
  unfold execQred at h; refine runPass_canon _ _ _ ?_ _ _ h hm
  intro p s hs; simp [*]

theorem execHelp_canon (n : Bool) (d : Dst) (s : State)  (nx : State) (h : execHelp n d s = .next nx) (hm : memOk s.mem = true) : memOk nx.mem = true := by
  unfold execHelp at h; refine runPass_canon _ _ _ ?_ _ _ h hm
  intro p s hs; simp [*]

theorem execCellh_canon (n : Bool) (d : Dst) (a b : Src) (m : DimM) (s : State)  (nx : State) (h : execCellh n d a b m s = .next nx) (hm : memOk s.mem = true) : memOk nx.mem = true := by
  unfold execCellh at h; exact runAlu_canon _ _ _ _ _ h hm

theorem execTmask_canon (n : Bool) (d : Dst) (m : TmaskM) (s : State)  (nx : State) (h : execTmask n d m s = .next nx) (hm : memOk s.mem = true) : memOk nx.mem = true := by
  unfold execTmask at h; exact runAlu_canon _ _ _ _ _ h hm

theorem execTpos_canon (n : Bool) (d : Dst) (a : Src) (m : TposM) (s : State)  (nx : State) (h : execTpos n d a m s = .next nx) (hm : memOk s.mem = true) : memOk nx.mem = true := by
  unfold execTpos at h; refine runPass_canon _ _ _ ?_ _ _ h hm
  intro p s hs; simp [*]

theorem execFadd_canon (n : Bool) (d : Dst) (a b : Src) (m : Rnd) (s : State)  (nx : State) (h : execFadd n d a b m s = .next nx) (hm : memOk s.mem = true) : memOk nx.mem = true := by
  unfold execFadd at h; exact runAlu_canon _ _ _ _ _ h hm

theorem execFsub_canon (n : Bool) (d : Dst) (a b : Src) (m : Rnd) (s : State)  (nx : State) (h : execFsub n d a b m s = .next nx) (hm : memOk s.mem = true) : memOk nx.mem = true := by
  unfold execFsub at h; exact runAlu_canon _ _ _ _ _ h hm

theorem execFmul_canon (n : Bool) (d : Dst) (a b : Src) (m : Rnd) (s : State)  (nx : State) (h : execFmul n d a b m s = .next nx) (hm : memOk s.mem = true) : memOk nx.mem = true := by
  unfold execFmul at h; exact runAlu_canon _ _ _ _ _ h hm

theorem execFfma_canon (n : Bool) (d : Dst) (a b : Src) (m : Rnd) (s : State)  (nx : State) (h : execFfma n d a b m s = .next nx) (hm : memOk s.mem = true) : memOk nx.mem = true := by
  unfold execFfma at h; exact runAlu_canon _ _ _ _ _ h hm

theorem execFmin_canon (n : Bool) (d : Dst) (a b : Src) (s : State)  (nx : State) (h : execFmin n d a b s = .next nx) (hm : memOk s.mem = true) : memOk nx.mem = true := by
  unfold execFmin at h; exact runAlu_canon _ _ _ _ _ h hm

theorem execFmax_canon (n : Bool) (d : Dst) (a b : Src) (s : State)  (nx : State) (h : execFmax n d a b s = .next nx) (hm : memOk s.mem = true) : memOk nx.mem = true := by
  unfold execFmax at h; exact runAlu_canon _ _ _ _ _ h hm

theorem execFcmp_canon (n : Bool) (d : Dst) (a b : Src) (m : Fcc) (s : State)  (nx : State) (h : execFcmp n d a b m s = .next nx) (hm : memOk s.mem = true) : memOk nx.mem = true := by
  unfold execFcmp at h; exact runAlu_canon _ _ _ _ _ h hm

theorem execFsgn_canon (n : Bool) (d : Dst) (a b : Src) (m : FsgnM) (s : State)  (nx : State) (h : execFsgn n d a b m s = .next nx) (hm : memOk s.mem = true) : memOk nx.mem = true := by
  unfold execFsgn at h; exact runAlu_canon _ _ _ _ _ h hm

theorem execPkadd_canon (n : Bool) (d : Dst) (a b : Src) (m : PkM) (s : State)  (nx : State) (h : execPkadd n d a b m s = .next nx) (hm : memOk s.mem = true) : memOk nx.mem = true := by
  unfold execPkadd at h; exact runAlu_canon _ _ _ _ _ h hm

theorem execPkmul_canon (n : Bool) (d : Dst) (a b : Src) (m : PkM) (s : State)  (nx : State) (h : execPkmul n d a b m s = .next nx) (hm : memOk s.mem = true) : memOk nx.mem = true := by
  unfold execPkmul at h; exact runAlu_canon _ _ _ _ _ h hm

theorem execPkfma_canon (n : Bool) (d : Dst) (a b : Src) (m : PkM) (s : State)  (nx : State) (h : execPkfma n d a b m s = .next nx) (hm : memOk s.mem = true) : memOk nx.mem = true := by
  unfold execPkfma at h; exact runAlu_canon _ _ _ _ _ h hm

theorem execFdiv_canon (n : Bool) (d : Dst) (a b : Src) (m : Rnd) (s : State)  (nx : State) (h : execFdiv n d a b m s = .next nx) (hm : memOk s.mem = true) : memOk nx.mem = true := by
  unfold execFdiv at h; exact runAlu_canon _ _ _ _ _ h hm

theorem execFsqrt_canon (n : Bool) (d : Dst) (a : Src) (m : Rnd) (s : State)  (nx : State) (h : execFsqrt n d a m s = .next nx) (hm : memOk s.mem = true) : memOk nx.mem = true := by
  unfold execFsqrt at h; exact runAlu_canon _ _ _ _ _ h hm

theorem execFrnd_canon (n : Bool) (d : Dst) (a : Src) (m : Rnd) (s : State)  (nx : State) (h : execFrnd n d a m s = .next nx) (hm : memOk s.mem = true) : memOk nx.mem = true := by
  unfold execFrnd at h; exact runAlu_canon _ _ _ _ _ h hm

theorem execFclass_canon (n : Bool) (d : Dst) (a : Src) (s : State)  (nx : State) (h : execFclass n d a s = .next nx) (hm : memOk s.mem = true) : memOk nx.mem = true := by
  unfold execFclass at h; exact runAlu_canon _ _ _ _ _ h hm

theorem execFscl_canon (n : Bool) (d : Dst) (a b : Src) (m : Rnd) (s : State)  (nx : State) (h : execFscl n d a b m s = .next nx) (hm : memOk s.mem = true) : memOk nx.mem = true := by
  unfold execFscl at h; exact runAlu_canon _ _ _ _ _ h hm

theorem execDadd_canon (n : Bool) (d : Dst) (a b : Src) (m : Rnd) (s : State)  (nx : State) (h : execDadd n d a b m s = .next nx) (hm : memOk s.mem = true) : memOk nx.mem = true := by
  unfold execDadd at h; exact runAlu_canon _ _ _ _ _ h hm

theorem execDsub_canon (n : Bool) (d : Dst) (a b : Src) (m : Rnd) (s : State)  (nx : State) (h : execDsub n d a b m s = .next nx) (hm : memOk s.mem = true) : memOk nx.mem = true := by
  unfold execDsub at h; exact runAlu_canon _ _ _ _ _ h hm

theorem execDmul_canon (n : Bool) (d : Dst) (a b : Src) (m : Rnd) (s : State)  (nx : State) (h : execDmul n d a b m s = .next nx) (hm : memOk s.mem = true) : memOk nx.mem = true := by
  unfold execDmul at h; exact runAlu_canon _ _ _ _ _ h hm

theorem execDfma_canon (n : Bool) (d : Dst) (a b : Src) (m : Rnd) (s : State)  (nx : State) (h : execDfma n d a b m s = .next nx) (hm : memOk s.mem = true) : memOk nx.mem = true := by
  unfold execDfma at h; exact runAlu_canon _ _ _ _ _ h hm

theorem execDdiv_canon (n : Bool) (d : Dst) (a b : Src) (m : Rnd) (s : State)  (nx : State) (h : execDdiv n d a b m s = .next nx) (hm : memOk s.mem = true) : memOk nx.mem = true := by
  unfold execDdiv at h; exact runAlu_canon _ _ _ _ _ h hm

theorem execDsqrt_canon (n : Bool) (d : Dst) (a : Src) (m : Rnd) (s : State)  (nx : State) (h : execDsqrt n d a m s = .next nx) (hm : memOk s.mem = true) : memOk nx.mem = true := by
  unfold execDsqrt at h; exact runAlu_canon _ _ _ _ _ h hm

theorem execDmin_canon (n : Bool) (d : Dst) (a b : Src) (m : MinMax) (s : State)  (nx : State) (h : execDmin n d a b m s = .next nx) (hm : memOk s.mem = true) : memOk nx.mem = true := by
  unfold execDmin at h; exact runAlu_canon _ _ _ _ _ h hm

theorem execDcmp_canon (n : Bool) (d : Dst) (a b : Src) (m : Fcc) (s : State)  (nx : State) (h : execDcmp n d a b m s = .next nx) (hm : memOk s.mem = true) : memOk nx.mem = true := by
  unfold execDcmp at h; exact runAlu_canon _ _ _ _ _ h hm

theorem execFrcp_canon (n : Bool) (d : Dst) (a : Src) (s : State)  (nx : State) (h : execFrcp n d a s = .next nx) (hm : memOk s.mem = true) : memOk nx.mem = true := by
  unfold execFrcp at h; exact runAlu_canon _ _ _ _ _ h hm

theorem execFrsq_canon (n : Bool) (d : Dst) (a : Src) (s : State)  (nx : State) (h : execFrsq n d a s = .next nx) (hm : memOk s.mem = true) : memOk nx.mem = true := by
  unfold execFrsq at h; exact runAlu_canon _ _ _ _ _ h hm

theorem execFex2_canon (n : Bool) (d : Dst) (a : Src) (s : State)  (nx : State) (h : execFex2 n d a s = .next nx) (hm : memOk s.mem = true) : memOk nx.mem = true := by
  unfold execFex2 at h; exact runAlu_canon _ _ _ _ _ h hm

theorem execFlg2_canon (n : Bool) (d : Dst) (a : Src) (s : State)  (nx : State) (h : execFlg2 n d a s = .next nx) (hm : memOk s.mem = true) : memOk nx.mem = true := by
  unfold execFlg2 at h; exact runAlu_canon _ _ _ _ _ h hm

theorem execFsin_canon (n : Bool) (d : Dst) (a : Src) (s : State)  (nx : State) (h : execFsin n d a s = .next nx) (hm : memOk s.mem = true) : memOk nx.mem = true := by
  unfold execFsin at h; exact runAlu_canon _ _ _ _ _ h hm

theorem execFtanh_canon (n : Bool) (d : Dst) (a : Src) (s : State)  (nx : State) (h : execFtanh n d a s = .next nx) (hm : memOk s.mem = true) : memOk nx.mem = true := by
  unfold execFtanh at h; exact runAlu_canon _ _ _ _ _ h hm

theorem execCvt_canon (n : Bool) (d : Dst) (a : Src) (k : Rnd) (t : Bool) (j f : FmtF) (s : State)  (nx : State) (h : execCvt n d a k t j f s = .next nx) (hm : memOk s.mem = true) : memOk nx.mem = true := by
  unfold execCvt at h; exact runAlu_canon _ _ _ _ _ h hm

theorem execCvtz_canon (n : Bool) (d : Dst) (a : Src) (t : Bool) (j f : FmtF) (s : State)  (nx : State) (h : execCvtz n d a t j f s = .next nx) (hm : memOk s.mem = true) : memOk nx.mem = true := by
  unfold execCvtz at h; exact runAlu_canon _ _ _ _ _ h hm

theorem execCvtu_canon (n : Bool) (d : Dst) (a : Src) (t : Bool) (j f : FmtU) (s : State)  (nx : State) (h : execCvtu n d a t j f s = .next nx) (hm : memOk s.mem = true) : memOk nx.mem = true := by
  unfold execCvtu at h; exact runAlu_canon _ _ _ _ _ h hm

theorem execCvtd_canon (n : Bool) (d : Dst) (a : Src) (k : Rnd) (t : Bool) (j f : FmtD) (s : State)  (nx : State) (h : execCvtd n d a k t j f s = .next nx) (hm : memOk s.mem = true) : memOk nx.mem = true := by
  unfold execCvtd at h; exact runAlu_canon _ _ _ _ _ h hm

theorem execPack_canon (n : Bool) (d : Dst) (a b : Src) (m : HalfM) (s : State)  (nx : State) (h : execPack n d a b m s = .next nx) (hm : memOk s.mem = true) : memOk nx.mem = true := by
  unfold execPack at h; exact runAlu_canon _ _ _ _ _ h hm

theorem execUnpk_canon (n : Bool) (d : Dst) (a : Src) (m : UnpkM) (s : State)  (nx : State) (h : execUnpk n d a m s = .next nx) (hm : memOk s.mem = true) : memOk nx.mem = true := by
  unfold execUnpk at h; exact runAlu_canon _ _ _ _ _ h hm

theorem execPk8_canon (n : Bool) (d : Dst) (a b : Src) (m : Pk8M) (s : State)  (nx : State) (h : execPk8 n d a b m s = .next nx) (hm : memOk s.mem = true) : memOk nx.mem = true := by
  unfold execPk8 at h; exact runAlu_canon _ _ _ _ _ h hm

theorem execUpk8_canon (n : Bool) (d : Dst) (a b : Src) (m : F8) (s : State)  (nx : State) (h : execUpk8 n d a b m s = .next nx) (hm : memOk s.mem = true) : memOk nx.mem = true := by
  unfold execUpk8 at h; exact runAlu_canon _ _ _ _ _ h hm

@[simp] theorem tryRepack_mem (s : State) (b : Nat)  : (tryRepack s b).mem = s.mem := by
  simp [tryRepack]

@[simp] theorem devWrite_canon (s : State) (a : Nat) (bs : List Byte)  (hm : memOk s.mem = true) : memOk (devWrite s a bs).mem = true := by
  simp [devWrite, *]

@[simp] theorem moveBytes_canon (s : State) (ctx : Word) (src dst n : Nat)  (hm : memOk s.mem = true) : memOk (moveBytes s ctx src dst n).mem = true := by
  simp [moveBytes, *]

@[simp] theorem writeShadow_canon (s : State) (b : Nat)  (hm : memOk s.mem = true) : memOk (writeShadow s b).mem = true := by
  unfold writeShadow
  split
  · exact hm
  · simp only [modBlk_mem]
    refine foldS_canon _ ?_ _ _ hm
    intro g s hs
    split
    · simp [hs]
    · exact hs

@[simp] theorem assayStart_mem (s : State) (b g : Nat)  : (assayStart s b g).mem = s.mem := by
  unfold assayStart; repeat' split
  all_goals simp [*]

@[simp] theorem countSkipped_mem (s : State)  : (countSkipped s).mem = s.mem := by
  simp [countSkipped]

@[simp] theorem wrongDigest_mem (s : State) (d : List Byte)  : (wrongDigest s d).2.mem = s.mem := by
  simp [wrongDigest]

@[simp] theorem assayEnd_mem (s : State) (b g : Nat) (pc : Word)  : (assayEnd s b g pc).mem = s.mem := by
  simp only [assayEnd]; repeat' split
  all_goals simp_all

@[simp] theorem dropBut_mem (s : State) (b g : Nat) (keepV keepS : List Nat)  : (dropBut s b g keepV keepS).mem = s.mem := by
  unfold dropBut; split <;> simp [*]

@[simp] theorem dropRegs_mem (s : State) (b g : Nat)  : (dropRegs s b g).mem = s.mem := by
  unfold dropRegs; split <;> simp [*]

@[simp] theorem stopHere_mem (s : State) (b g : Nat) (entry : Option (List Byte))  : (stopHere s b g entry).mem = s.mem := by
  unfold stopHere; split <;> simp [*]

@[simp] theorem passBoundary_canon (s : State) (b g : Nat) (sc : Scope)  (hm : memOk s.mem = true) : memOk (passBoundary s b g sc).mem = true := by
  simp only [passBoundary]; repeat' split
  all_goals simp_all

@[simp] theorem boundary_canon (s : State) (b g : Nat) (sc : Scope)  (hm : memOk s.mem = true) : memOk (boundary s b g sc).mem = true := by
  simp [boundary, *]

@[simp] theorem publishNode_mem (s : State) (n node : Nat) (sc : Scope)  : (publishNode s n node sc).mem = s.mem := by
  simp [publishNode]

@[simp] theorem reportDone_mem (s : State) (hp : HPort) (r : CompRec)  : (reportDone s hp r).mem = s.mem := by
  simp [reportDone]

@[simp] theorem finishInst_mem (s : State) (n : Nat)  : (finishInst s n).mem = s.mem := by
  unfold finishInst; split <;> simp [*]

@[simp] theorem finishNode_mem (s : State) (n node : Nat)  : (finishNode s n node).mem = s.mem := by
  unfold finishNode; split <;> simp [*]

@[simp] theorem finishGroup_canon (s : State) (b g : Nat)  (hm : memOk s.mem = true) : memOk (finishGroup s b g).mem = true := by
  simp only [finishGroup]; repeat' split
  all_goals simp_all

@[simp] theorem finishBlock_canon (s : State) (b : Nat)  (hm : memOk s.mem = true) : memOk (finishBlock s b).mem = true := by
  simp only [finishBlock]; repeat' split
  all_goals simp_all

@[simp] theorem joinLinks_mem (s : State) (b g : Nat) (pub : Option PubScope) (links : List ArrLink)  : (joinLinks s b g pub links).mem = s.mem := by
  unfold joinLinks; repeat' split
  all_goals simp [*]

@[simp] theorem acquireScratch_mem (s : State) (b g : Nat)  : (acquireScratch s b g).mem = s.mem := by
  unfold acquireScratch; repeat' split
  all_goals simp [*]

@[simp] theorem barRelease_canon (s : State) (b g : Nat) (w : BarWait)  (hm : memOk s.mem = true) : memOk (barRelease s b g w).mem = true := by
  unfold barRelease; repeat' split
  all_goals simp [*]

@[simp] theorem tryRelease_canon (s : State) (b id : Nat)  (hm : memOk s.mem = true) : memOk (tryRelease s b id).mem = true := by
  unfold tryRelease
  split
  · exact hm
  · extract_lets r x1 x2
    split
    · exact hm
    · apply finishBlock_canon
      refine foldS_canon _ ?_ _ _ (by simpa using hm)
      intro c s hs
      split
      · simp [hs]
      · exact hs

@[simp] theorem releaseDue_canon (s : State) (b : Nat)  (hm : memOk s.mem = true) : memOk (releaseDue s b).mem = true := by
  simp only [releaseDue]; repeat' split
  all_goals simp_all

@[simp] theorem arrive_mem (s : State) (b g id : Nat) (pub : Option PubScope)  : (arrive s b g id pub).mem = s.mem := by
  unfold arrive; repeat' split
  all_goals simp [*]

@[simp] theorem jumpEff_mem (f : Pass → Nat → Word) (p : Pass) (s : State)  : (jumpEff f p s).mem = s.mem := by
  simp [jumpEff]

theorem execNop_canon (s : State)  (nx : State) (h : execNop s = .next nx) (hm : memOk s.mem = true) : memOk nx.mem = true := by
  unfold execNop at h; refine runPass_canon _ _ _ ?_ _ _ h hm
  intro p s hs; simp [*]

theorem execBra_canon (d : BitVec 24) (s : State)  (nx : State) (h : execBra d s = .next nx) (hm : memOk s.mem = true) : memOk nx.mem = true := by
  unfold execBra at h; refine runPass_canon _ _ _ ?_ _ _ h hm
  intro p s hs; simp [*]

theorem execCall_canon (n : Bool) (d : Dst) (a : Src) (m : Tgt) (s : State)  (nx : State) (h : execCall n d a m s = .next nx) (hm : memOk s.mem = true) : memOk nx.mem = true := by
  unfold execCall at h; refine runPass_canon _ _ _ ?_ _ _ h hm
  intro p s hs; simp [*]

theorem execRet_canon (a : Src) (s : State)  (nx : State) (h : execRet a s = .next nx) (hm : memOk s.mem = true) : memOk nx.mem = true := by
  unfold execRet at h; refine runPass_canon _ _ _ ?_ _ _ h hm
  intro p s hs; simp [*]

theorem execJmpr_canon (a : Src) (m : Tgt) (s : State)  (nx : State) (h : execJmpr a m s = .next nx) (hm : memOk s.mem = true) : memOk nx.mem = true := by
  unfold execJmpr at h; refine runPass_canon _ _ _ ?_ _ _ h hm
  intro p s hs; simp [*]

theorem execBrz_canon (h : Bool) (a : Src) (d : BitVec 16) (s : State)  (nx : State) (h : execBrz h a d s = .next nx) (hm : memOk s.mem = true) : memOk nx.mem = true := by
  unfold execBrz at h; refine runPass_canon _ _ _ ?_ _ _ h hm
  intro p s hs; simp [*]

theorem execBrnz_canon (h : Bool) (a : Src) (d : BitVec 16) (s : State)  (nx : State) (h : execBrnz h a d s = .next nx) (hm : memOk s.mem = true) : memOk nx.mem = true := by
  unfold execBrnz at h; refine runPass_canon _ _ _ ?_ _ _ h hm
  intro p s hs; simp [*]

theorem execBrlt_canon (h : Bool) (a : Src) (d : BitVec 16) (s : State)  (nx : State) (h : execBrlt h a d s = .next nx) (hm : memOk s.mem = true) : memOk nx.mem = true := by
  unfold execBrlt at h; refine runPass_canon _ _ _ ?_ _ _ h hm
  intro p s hs; simp [*]

theorem execBrge_canon (h : Bool) (a : Src) (d : BitVec 16) (s : State)  (nx : State) (h : execBrge h a d s = .next nx) (hm : memOk s.mem = true) : memOk nx.mem = true := by
  unfold execBrge at h; refine runPass_canon _ _ _ ?_ _ _ h hm
  intro p s hs; simp [*]

theorem execMeet_canon (d : BitVec 16) (s : State)  (nx : State) (h : execMeet d s = .next nx) (hm : memOk s.mem = true) : memOk nx.mem = true := by
  unfold execMeet at h; refine runPass_canon _ _ _ ?_ _ _ h hm
  intro p s hs; simp [*]

@[simp] theorem repackEff_canon (a : Src) (d : BitVec 16) (p : Pass) (s : State)  (hm : memOk s.mem = true) : memOk (repackEff a d p s).mem = true := by
  simp [repackEff, *]

theorem execRepack_canon (a : Src) (d : BitVec 16) (s : State)  (nx : State) (h : execRepack a d s = .next nx) (hm : memOk s.mem = true) : memOk nx.mem = true := by
  unfold execRepack at h; refine runPass_canon _ _ _ ?_ _ _ h hm
  intro p s hs; simp [*]

theorem execLoop_canon (a : Src) (d : BitVec 16) (s : State)  (nx : State) (h : execLoop a d s = .next nx) (hm : memOk s.mem = true) : memOk nx.mem = true := by
  unfold execLoop at h; refine runPass_canon _ _ _ ?_ _ _ h hm
  intro p s hs; simp [*]

@[simp] theorem exitEff_canon (p : Pass) (s : State)  (hm : memOk s.mem = true) : memOk (exitEff p s).mem = true := by
  simp [exitEff, *]

theorem execExit_canon (s : State)  (nx : State) (h : execExit s = .next nx) (hm : memOk s.mem = true) : memOk nx.mem = true := by
  unfold execExit at h; refine runPass_canon _ _ _ ?_ _ _ h hm
  intro p s hs; simp [*]

theorem execWinb_canon (vq : Fin 28) (sq : Fin 6) (s : State)  (nx : State) (h : execWinb vq sq s = .next nx) (hm : memOk s.mem = true) : memOk nx.mem = true := by
  unfold execWinb at h; refine runPass_canon _ _ _ ?_ _ _ h hm
  intro p s hs; simp [*]

@[simp] theorem touchMig_mem (s : State) (home : Option Nat) (wr : Bool)  : (touchMig s home wr).mem = s.mem := by
  unfold touchMig; split <;> simp [*]

@[simp] theorem touchRead_mem (ctx : Word) (need : Need) (va : BitVec 64) (s : State)  : (touchRead ctx need va s).mem = s.mem := by
  unfold touchRead; repeat' split
  all_goals simp [*]

@[simp] theorem markWritten_mem (s : State) (b : Nat) (sp : Space) (ea : Nat)  : (markWritten s b sp ea).mem = s.mem := by
  unfold markWritten; repeat' split
  all_goals simp [*]

@[simp] theorem winWrite_canon (s : State) (a : Nat) (bs : List Byte)  (hm : memOk s.mem = true) : memOk (winWrite s a bs).mem = true := by
  simp [winWrite, *]

@[simp] theorem winStore_canon (s : State) (uid a : Nat) (bs : List Byte)  (hm : memOk s.mem = true) : memOk (winStore s uid a bs).mem = true := by
  simp [winStore, *]

@[simp] theorem winLoad_mem (s : State) (b g a n : Nat)  : (winLoad s b g a n).2.mem = s.mem := by
  simp [winLoad]

@[simp] theorem perform_canon (s : State) (b g : Nat) (i : Instr) (m : Mem) (ea : Nat) (h : Hit) (data cmp : List Word)  (hm : memOk s.mem = true) : memOk (perform s b g i m ea h data cmp).2.mem = true := by
  unfold perform; repeat' split
  all_goals simp [*]

@[simp] theorem pageFault_mem (s : State) (b g acc : Nat) (va : BitVec 64)  : (pageFault s b g acc va).2.mem = s.mem := by
  unfold pageFault; repeat' split
  all_goals simp [*]

@[simp] theorem logAccess_mem (s : State) (b g : Nat) (i : Instr) (pc : Word) (acc : Nat) (ea : BitVec 64) (dst : Option PReg) (n : Nat) (ts : List Nat) (x : LogThr)  : (logAccess s b g i pc acc ea dst n ts x).mem = s.mem := by
  simp [logAccess]

@[simp] theorem holdAccess_mem (s : State) (b g : Nat) (i : Instr) (pc : Word) (home : Nat) (ea : BitVec 64) (dst : Option PReg) (n : Nat) (ts : List Nat) (x : LogThr)  : (holdAccess s b g i pc home ea dst n ts x).mem = s.mem := by
  simp [holdAccess]

@[simp] theorem digestAccess_mem (s : State) (b g : Nat) (i : Instr) (m : Mem) (ea : Nat) (data cmp : List Word)  : (digestAccess s b g i m ea data cmp).mem = s.mem := by
  unfold digestAccess; split <;> simp [*]

@[simp] theorem accessOne_canon (i : Instr) (q : MemI) (p : Pass) (t : Nat) (r : List (Nat × List Byte × Option Nat) × State)  (hm : memOk r.2.mem = true) : memOk (accessOne i q p t r).2.mem = true := by
  simp only [accessOne]; repeat' split
  all_goals simp_all

@[simp] theorem journalPath_mem (s : State) (p : Pass) (i : Instr) (vals : List (Nat × List Byte × Option Nat)) (late : List Nat) (n : Nat)  : (journalPath s p i vals late n).mem = s.mem := by
  simp [journalPath]

@[simp] theorem countBytes_mem (ctx : Word) (sp : Space) (n : Nat) (s : State)  : (countBytes ctx sp n s).mem = s.mem := by
  simp [countBytes]

@[simp] theorem memEff_canon (i : Instr) (q : MemI) (p : Pass) (s : State)  (hm : memOk s.mem = true) : memOk (memEff i q p s).mem = true := by
  simp only [memEff]; repeat' split
  all_goals simp_all

theorem runMem_canon (i : Instr) (q : MemI) (s : State)  (nx : State) (h : runMem i q s = .next nx) (hm : memOk s.mem = true) : memOk nx.mem = true := by
  unfold runMem at h
  exact runPass_canon _ _ _ (by intro p s hs; simp [hs]) _ _ h (by simpa using hm)

theorem loadI_canon (i : Instr) (d : Dst) (s : State)  (nx : State) (h : loadI i d s = .next nx) (hm : memOk s.mem = true) : memOk nx.mem = true := by
  unfold loadI at h
  split at h
  · exact runMem_canon _ _ _ _ h hm
  · rw [← next_inj h]; exact hm

theorem storeI_canon (i : Instr) (e : Src) (s : State)  (nx : State) (h : storeI i e s = .next nx) (hm : memOk s.mem = true) : memOk nx.mem = true := by
  unfold storeI at h
  split at h
  · exact runMem_canon _ _ _ _ h hm
  · rw [← next_inj h]; exact hm

theorem atomicI_canon (i : Instr) (d : Dst) (b : Src) (s : State)  (nx : State) (h : atomicI i d b s = .next nx) (hm : memOk s.mem = true) : memOk nx.mem = true := by
  unfold atomicI at h
  split at h
  · exact runMem_canon _ _ _ _ h hm
  · rw [← next_inj h]; exact hm

end Sys2Proof.Laws
end

