-- ==== Sys2Proof/Laws/Canon3.lean ====
section
/-! SUPPORT. What each operation leaves of the memory; those that write keep its canonical form. -/

namespace Sys2Proof.Laws
open Sys2Proof.Machine

@[simp] theorem ownSoFar_mem (uid : Nat) (s : State)  : (ownSoFar uid s).mem = s.mem := by
  simp [ownSoFar]

@[simp] theorem engLoad_mem (s : State) (b g : Nat) (gath : Bool) (sp : Space) (loc n : Nat)  : (engLoad s b g gath sp loc n).2.mem = s.mem := by
  unfold engLoad; repeat' split
  all_goals simp [*]

@[simp] theorem markWaited_mem (copy : Bool) (b g : Nat) (pages : List (BitVec 64)) (s : State)  : (markWaited copy b g pages s).mem = s.mem := by
  simp [markWaited]

@[simp] theorem engReadDev_mem (s : State) (p : Pass) (a n : Nat)  : (engReadDev s p a n).2.mem = s.mem := by
  simp only [engReadDev]; repeat' split
  all_goals simp_all

@[simp] theorem engReadBank_mem (s : State) (p : Pass) (gath : Bool) (sp : Space) (a n : Nat)  : (engReadBank s p gath sp a n).2.mem = s.mem := by
  unfold engReadBank; repeat' split
  all_goals simp [*]

@[simp] theorem engRead_mem (s : State) (p : Pass) (sp : Space) (a n : Nat)  : (engRead s p sp a n).2.mem = s.mem := by
  unfold engRead; split <;> simp [*]

@[simp] theorem engRun_mem (s : State) (p : Pass) (sp : Space) (a n : Nat) (y0 : Nat) (y1 : (List (Byte × Bool)))  : (engRun s p sp a n y0 y1).2.2.mem = s.mem := by
  induction y0 generalizing s a n y1 with
  | zero => rfl
  | succ k ih =>
    unfold engRun
    split
    · rfl
    · extract_lets m
      have e := engRead_mem s p sp a m
      split
      · rename_i h; rw [ih]; rw [h] at e; exact e
      · rename_i h; rw [h] at e; exact e

@[simp] theorem engWriteBank_canon (s : State) (p : Pass) (own : Nat × Nat) (op : Nat) (sp : Space) (a : Nat) (bs : List Byte) (bad : Bool)  (hm : memOk s.mem = true) : memOk (engWriteBank s p own op sp a bs bad).2.2.mem = true := by
  unfold engWriteBank; repeat' split
  all_goals simp [*]

@[simp] theorem engWriteDev_canon (s : State) (p : Pass) (op : Nat) (a : Nat) (bs : List Byte) (bad : Bool)  (hm : memOk s.mem = true) : memOk (engWriteDev s p op a bs bad).2.2.mem = true := by
  simp only [engWriteDev]; repeat' split
  all_goals simp_all

@[simp] theorem writePiece_canon (p q : Pass) (sp : Space) (x : Nat × List Byte × Bool × Bool) (z : Xfer)  (hm : memOk z.s.mem = true) : memOk (writePiece p q sp x z).s.mem = true := by
  unfold writePiece; repeat' split
  all_goals simp [*]

@[simp] theorem writeAllTo_canon (p : Pass) (c : CopyD) (ps : List (Nat × List Byte × Bool × Bool)) (z : Xfer)  (hm : memOk z.s.mem = true) : memOk (writeAllTo p c ps z).s.mem = true := by
  simp only [writeAllTo]; repeat' split
  all_goals simp_all

@[simp] theorem cpyStep_canon (p : Pass) (c : CopyD) (k : Nat) (z : Xfer)  (hm : memOk z.s.mem = true) : memOk (cpyStep p c k z).s.mem = true := by
  unfold cpyStep
  have e := engRead_mem z.s p c.ssp (c.src + 16 * k) 16
  split <;> rename_i h <;> rw [h] at e <;> simp only at e
  · apply writeAllTo_canon; simp [e, hm]
  · simp [e, hm]
  · simp [e, hm]
  · simp [e, hm]

@[simp] theorem cpytStep_canon (p : Pass) (c : CopyD) (r : Nat) (z : Xfer)  (hm : memOk z.s.mem = true) : memOk (cpytStep p c r z).s.mem = true := by
  simp only [cpytStep]; repeat' split
  all_goals simp_all

@[simp] theorem copyRun_canon (p : Pass) (c : CopyD) (k : Nat) (y0 : Nat) (y1 : Xfer)  (hm : memOk y1.s.mem = true) : memOk (copyRun p c k y0 y1).2.s.mem = true := by
  induction y0 generalizing k y1 with
  | zero => exact hm
  | succ n ih =>
    unfold copyRun
    extract_lets w
    have hw : memOk w.s.mem = true := by simp only [w]; split <;> simp [hm]
    split
    · exact ih _ _ hw
    · exact hw

@[simp] theorem gathWrites_canon (p : Pass) (a : Nat) (cause : Nat) (y0 : List (List Byte)) (y1 : Xfer)  (hm : memOk y1.s.mem = true) : memOk (gathWrites p a cause y0 y1).2.s.mem = true := by
  induction y0 generalizing a cause y1 with
  | nil => exact hm
  | cons b r ih => unfold gathWrites; exact ih _ _ _ (by simp [hm])

@[simp] theorem transfer_canon (s : State) (b g k : Nat)  (hm : memOk s.mem = true) : memOk (transfer s b g k).mem = true := by
  unfold transfer; repeat' split
  all_goals simp [*]

@[simp] theorem afterEngine_canon (s : State) (b g : Nat)  (hm : memOk s.mem = true) : memOk (afterEngine s b g).mem = true := by
  unfold afterEngine; split <;> simp [*]

@[simp] theorem reserveToken_mem (s : State) (b g : Nat) (dst : Option PReg) (mask : BitVec 32)  : (reserveToken s b g dst mask).2.mem = s.mem := by
  simp only [reserveToken]; repeat' split
  all_goals simp_all

@[simp] theorem deliver_canon (s : State) (b g k : Nat) (dec : GEng → GEng)  (hm : memOk s.mem = true) : memOk (deliver s b g k dec).mem = true := by
  simp only [deliver]; repeat' split
  all_goals simp_all

theorem execLdb_canon (d : Dst) (a : Src) (i : BitVec 9) (s : State)  (nx : State) (h : execLdb d a i s = .next nx) (hm : memOk s.mem = true) : memOk nx.mem = true := by
  unfold execLdb at h; first | exact loadI_canon _ _ _ _ h hm | exact storeI_canon _ _ _ _ h hm | exact atomicI_canon _ _ _ _ _ h hm | exact runWhole_canon _ _ _ _ _ h hm

theorem execLdbs_canon (d : Dst) (a : Src) (i : BitVec 9) (s : State)  (nx : State) (h : execLdbs d a i s = .next nx) (hm : memOk s.mem = true) : memOk nx.mem = true := by
  unfold execLdbs at h; first | exact loadI_canon _ _ _ _ h hm | exact storeI_canon _ _ _ _ h hm | exact atomicI_canon _ _ _ _ _ h hm | exact runWhole_canon _ _ _ _ _ h hm

theorem execLdh_canon (d : Dst) (a : Src) (i : BitVec 9) (s : State)  (nx : State) (h : execLdh d a i s = .next nx) (hm : memOk s.mem = true) : memOk nx.mem = true := by
  unfold execLdh at h; first | exact loadI_canon _ _ _ _ h hm | exact storeI_canon _ _ _ _ h hm | exact atomicI_canon _ _ _ _ _ h hm | exact runWhole_canon _ _ _ _ _ h hm

theorem execLdhs_canon (d : Dst) (a : Src) (i : BitVec 9) (s : State)  (nx : State) (h : execLdhs d a i s = .next nx) (hm : memOk s.mem = true) : memOk nx.mem = true := by
  unfold execLdhs at h; first | exact loadI_canon _ _ _ _ h hm | exact storeI_canon _ _ _ _ h hm | exact atomicI_canon _ _ _ _ _ h hm | exact runWhole_canon _ _ _ _ _ h hm

theorem execLdw_canon (d : Dst) (a : Src) (i : BitVec 9) (s : State)  (nx : State) (h : execLdw d a i s = .next nx) (hm : memOk s.mem = true) : memOk nx.mem = true := by
  unfold execLdw at h; first | exact loadI_canon _ _ _ _ h hm | exact storeI_canon _ _ _ _ h hm | exact atomicI_canon _ _ _ _ _ h hm | exact runWhole_canon _ _ _ _ _ h hm

theorem execLdd_canon (d : Dst) (a : Src) (i : BitVec 9) (s : State)  (nx : State) (h : execLdd d a i s = .next nx) (hm : memOk s.mem = true) : memOk nx.mem = true := by
  unfold execLdd at h; first | exact loadI_canon _ _ _ _ h hm | exact storeI_canon _ _ _ _ h hm | exact atomicI_canon _ _ _ _ _ h hm | exact runWhole_canon _ _ _ _ _ h hm

theorem execLdq_canon (d : Dst) (a : Src) (i : BitVec 9) (s : State)  (nx : State) (h : execLdq d a i s = .next nx) (hm : memOk s.mem = true) : memOk nx.mem = true := by
  unfold execLdq at h; first | exact loadI_canon _ _ _ _ h hm | exact storeI_canon _ _ _ _ h hm | exact atomicI_canon _ _ _ _ _ h hm | exact runWhole_canon _ _ _ _ _ h hm

theorem execStb_canon (e a : Src) (i : BitVec 9) (s : State)  (nx : State) (h : execStb e a i s = .next nx) (hm : memOk s.mem = true) : memOk nx.mem = true := by
  unfold execStb at h; refine runPass_canon _ _ _ ?_ _ _ h (by simp [*])
  intro p s hs; simp only []; repeat' split
  all_goals simp [*]

theorem execSth_canon (e a : Src) (i : BitVec 9) (s : State)  (nx : State) (h : execSth e a i s = .next nx) (hm : memOk s.mem = true) : memOk nx.mem = true := by
  unfold execSth at h; refine runPass_canon _ _ _ ?_ _ _ h (by simp [*])
  intro p s hs; simp only []; repeat' split
  all_goals simp [*]

theorem execStw_canon (e a : Src) (i : BitVec 9) (s : State)  (nx : State) (h : execStw e a i s = .next nx) (hm : memOk s.mem = true) : memOk nx.mem = true := by
  unfold execStw at h; refine runPass_canon _ _ _ ?_ _ _ h (by simp [*])
  intro p s hs; simp only []; repeat' split
  all_goals simp [*]

theorem execStd_canon (e a : Src) (i : BitVec 9) (s : State)  (nx : State) (h : execStd e a i s = .next nx) (hm : memOk s.mem = true) : memOk nx.mem = true := by
  unfold execStd at h; refine runPass_canon _ _ _ ?_ _ _ h (by simp [*])
  intro p s hs; simp only []; repeat' split
  all_goals simp [*]

theorem execStq_canon (e a : Src) (i : BitVec 9) (s : State)  (nx : State) (h : execStq e a i s = .next nx) (hm : memOk s.mem = true) : memOk nx.mem = true := by
  unfold execStq at h; refine runPass_canon _ _ _ ?_ _ _ h (by simp [*])
  intro p s hs; simp only []; repeat' split
  all_goals simp [*]

theorem execLdx_canon (d : Dst) (a b : Src) (m : Wid) (s : State)  (nx : State) (h : execLdx d a b m s = .next nx) (hm : memOk s.mem = true) : memOk nx.mem = true := by
  unfold execLdx at h; first | exact loadI_canon _ _ _ _ h hm | exact storeI_canon _ _ _ _ h hm | exact atomicI_canon _ _ _ _ _ h hm | exact runWhole_canon _ _ _ _ _ h hm

theorem execStx_canon (e a b : Src) (m : Wid) (s : State)  (nx : State) (h : execStx e a b m s = .next nx) (hm : memOk s.mem = true) : memOk nx.mem = true := by
  unfold execStx at h; refine runPass_canon _ _ _ ?_ _ _ h (by simp [*])
  intro p s hs; simp only []; repeat' split
  all_goals simp [*]

theorem execLdu_canon (d : Dst) (a : Src) (i : BitVec 9) (s : State)  (nx : State) (h : execLdu d a i s = .next nx) (hm : memOk s.mem = true) : memOk nx.mem = true := by
  unfold execLdu at h; first | exact loadI_canon _ _ _ _ h hm | exact storeI_canon _ _ _ _ h hm | exact atomicI_canon _ _ _ _ _ h hm | exact runWhole_canon _ _ _ _ _ h hm

@[simp] theorem prefEff_mem (a b : Src) (p : Pass) (s : State)  : (prefEff a b p s).mem = s.mem := by
  unfold prefEff; repeat' split
  all_goals simp [*]

theorem execPref_canon (a b : Src) (s : State)  (nx : State) (h : execPref a b s = .next nx) (hm : memOk s.mem = true) : memOk nx.mem = true := by
  unfold execPref at h; refine runPass_canon _ _ _ ?_ _ _ h hm
  intro p s hs; simp [*]

theorem execLds_canon (d : Dst) (a : Src) (i : BitVec 9) (s : State)  (nx : State) (h : execLds d a i s = .next nx) (hm : memOk s.mem = true) : memOk nx.mem = true := by
  unfold execLds at h; first | exact loadI_canon _ _ _ _ h hm | exact storeI_canon _ _ _ _ h hm | exact atomicI_canon _ _ _ _ _ h hm | exact runWhole_canon _ _ _ _ _ h hm

theorem execSts_canon (e a : Src) (i : BitVec 9) (s : State)  (nx : State) (h : execSts e a i s = .next nx) (hm : memOk s.mem = true) : memOk nx.mem = true := by
  unfold execSts at h; refine runPass_canon _ _ _ ?_ _ _ h (by simp [*])
  intro p s hs; simp only []; repeat' split
  all_goals simp [*]

theorem execLdsx_canon (d : Dst) (a b : Src) (m : Wid) (s : State)  (nx : State) (h : execLdsx d a b m s = .next nx) (hm : memOk s.mem = true) : memOk nx.mem = true := by
  unfold execLdsx at h; first | exact loadI_canon _ _ _ _ h hm | exact storeI_canon _ _ _ _ h hm | exact atomicI_canon _ _ _ _ _ h hm | exact runWhole_canon _ _ _ _ _ h hm

theorem execStsx_canon (e a b : Src) (m : Wid) (s : State)  (nx : State) (h : execStsx e a b m s = .next nx) (hm : memOk s.mem = true) : memOk nx.mem = true := by
  unfold execStsx at h; refine runPass_canon _ _ _ ?_ _ _ h (by simp [*])
  intro p s hs; simp only []; repeat' split
  all_goals simp [*]

theorem execLdl_canon (d : Dst) (a : Src) (i : BitVec 9) (s : State)  (nx : State) (h : execLdl d a i s = .next nx) (hm : memOk s.mem = true) : memOk nx.mem = true := by
  unfold execLdl at h; first | exact loadI_canon _ _ _ _ h hm | exact storeI_canon _ _ _ _ h hm | exact atomicI_canon _ _ _ _ _ h hm | exact runWhole_canon _ _ _ _ _ h hm

theorem execStl_canon (e a : Src) (i : BitVec 9) (s : State)  (nx : State) (h : execStl e a i s = .next nx) (hm : memOk s.mem = true) : memOk nx.mem = true := by
  unfold execStl at h; refine runPass_canon _ _ _ ?_ _ _ h (by simp [*])
  intro p s hs; simp only []; repeat' split
  all_goals simp [*]

theorem execLdlb_canon (d : Dst) (a b : Src) (m : BlkW) (s : State)  (nx : State) (h : execLdlb d a b m s = .next nx) (hm : memOk s.mem = true) : memOk nx.mem = true := by
  unfold execLdlb at h; first | exact loadI_canon _ _ _ _ h hm | exact storeI_canon _ _ _ _ h hm | exact atomicI_canon _ _ _ _ _ h hm | exact runWhole_canon _ _ _ _ _ h hm

theorem execStlb_canon (e a b : Src) (m : BlkW) (s : State)  (nx : State) (h : execStlb e a b m s = .next nx) (hm : memOk s.mem = true) : memOk nx.mem = true := by
  unfold execStlb at h; refine runPass_canon _ _ _ ?_ _ _ h (by simp [*])
  intro p s hs; simp only []; repeat' split
  all_goals simp [*]

theorem execLdhw_canon (d : Dst) (a b : Src) (m : HwM) (s : State)  (nx : State) (h : execLdhw d a b m s = .next nx) (hm : memOk s.mem = true) : memOk nx.mem = true := by
  unfold execLdhw at h; first | exact loadI_canon _ _ _ _ h hm | exact storeI_canon _ _ _ _ h hm | exact atomicI_canon _ _ _ _ _ h hm | exact runWhole_canon _ _ _ _ _ h hm

theorem execSthw_canon (e a b : Src) (m : HwM) (s : State)  (nx : State) (h : execSthw e a b m s = .next nx) (hm : memOk s.mem = true) : memOk nx.mem = true := by
  unfold execSthw at h; refine runPass_canon _ _ _ ?_ _ _ h (by simp [*])
  intro p s hs; simp only []; repeat' split
  all_goals simp [*]

@[simp] theorem granOne_canon (p : Pass) (op : LifeOp) (m : Spc) (cls lifew : Nat) (a : Nat) (s : State)  (hm : memOk s.mem = true) : memOk (granOne p op m cls lifew a s).mem = true := by
  unfold granOne
  cases op <;> cases m <;> simp only [modBlk_mem, modCluster_mem] <;> first | exact hm | exact ownWrite_canon _ _ _ _ _ _ (by simpa using hm) | simpa using hm

@[simp] theorem granEff_canon (op : LifeOp) (a b : Src) (m : Spc) (p : Pass) (s : State)  (hm : memOk s.mem = true) : memOk (granEff op a b m p s).mem = true := by
  simp only [granEff]; repeat' split
  all_goals simp_all

theorem execAlloc_canon (a b : Src) (m : Spc) (s : State)  (nx : State) (h : execAlloc a b m s = .next nx) (hm : memOk s.mem = true) : memOk nx.mem = true := by
  unfold execAlloc at h; refine runPass_canon _ _ _ ?_ _ _ h hm
  intro p s hs; simp [*]

theorem execFree_canon (a b : Src) (m : Spc) (s : State)  (nx : State) (h : execFree a b m s = .next nx) (hm : memOk s.mem = true) : memOk nx.mem = true := by
  unfold execFree at h; refine runPass_canon _ _ _ ?_ _ _ h hm
  intro p s hs; simp [*]

theorem execLife_canon (a b : Src) (m : Spc) (s : State)  (nx : State) (h : execLife a b m s = .next nx) (hm : memOk s.mem = true) : memOk nx.mem = true := by
  unfold execLife at h; refine runPass_canon _ _ _ ?_ _ _ h hm
  intro p s hs; simp [*]

@[simp] theorem expqEff_mem (d : Dst) (a : Src) (m : Spc) (p : Pass) (s : State)  : (expqEff d a m p s).mem = s.mem := by
  simp [expqEff]

theorem execExpq_canon (d : Dst) (a : Src) (m : Spc) (s : State)  (nx : State) (h : execExpq d a m s = .next nx) (hm : memOk s.mem = true) : memOk nx.mem = true := by
  unfold execExpq at h; refine runPass_canon _ _ _ ?_ _ _ h hm
  intro p s hs; simp [*]

theorem execAadd_canon (d : Dst) (a b : Src) (m : W2) (s : State)  (nx : State) (h : execAadd d a b m s = .next nx) (hm : memOk s.mem = true) : memOk nx.mem = true := by
  unfold execAadd at h; refine runPass_canon _ _ _ ?_ _ _ h (by simp [*])
  intro p s hs; simp only []; repeat' split
  all_goals simp [*]

theorem execAmin_canon (d : Dst) (a b : Src) (m : AtI) (s : State)  (nx : State) (h : execAmin d a b m s = .next nx) (hm : memOk s.mem = true) : memOk nx.mem = true := by
  unfold execAmin at h; refine runPass_canon _ _ _ ?_ _ _ h (by simp [*])
  intro p s hs; simp only []; repeat' split
  all_goals simp [*]

theorem execAminn_canon (d : Dst) (a b : Src) (m : AtN) (s : State)  (nx : State) (h : execAminn d a b m s = .next nx) (hm : memOk s.mem = true) : memOk nx.mem = true := by
  unfold execAminn at h; refine runPass_canon _ _ _ ?_ _ _ h (by simp [*])
  intro p s hs; simp only []; repeat' split
  all_goals simp [*]

theorem execAmax_canon (d : Dst) (a b : Src) (m : AtI) (s : State)  (nx : State) (h : execAmax d a b m s = .next nx) (hm : memOk s.mem = true) : memOk nx.mem = true := by
  unfold execAmax at h; refine runPass_canon _ _ _ ?_ _ _ h (by simp [*])
  intro p s hs; simp only []; repeat' split
  all_goals simp [*]

theorem execAmaxn_canon (d : Dst) (a b : Src) (m : AtN) (s : State)  (nx : State) (h : execAmaxn d a b m s = .next nx) (hm : memOk s.mem = true) : memOk nx.mem = true := by
  unfold execAmaxn at h; refine runPass_canon _ _ _ ?_ _ _ h (by simp [*])
  intro p s hs; simp only []; repeat' split
  all_goals simp [*]

theorem execAand_canon (d : Dst) (a b : Src) (m : W2) (s : State)  (nx : State) (h : execAand d a b m s = .next nx) (hm : memOk s.mem = true) : memOk nx.mem = true := by
  unfold execAand at h; refine runPass_canon _ _ _ ?_ _ _ h (by simp [*])
  intro p s hs; simp only []; repeat' split
  all_goals simp [*]

theorem execAor_canon (d : Dst) (a b : Src) (m : W2) (s : State)  (nx : State) (h : execAor d a b m s = .next nx) (hm : memOk s.mem = true) : memOk nx.mem = true := by
  unfold execAor at h; refine runPass_canon _ _ _ ?_ _ _ h (by simp [*])
  intro p s hs; simp only []; repeat' split
  all_goals simp [*]

theorem execAxor_canon (d : Dst) (a b : Src) (m : W2) (s : State)  (nx : State) (h : execAxor d a b m s = .next nx) (hm : memOk s.mem = true) : memOk nx.mem = true := by
  unfold execAxor at h; refine runPass_canon _ _ _ ?_ _ _ h (by simp [*])
  intro p s hs; simp only []; repeat' split
  all_goals simp [*]

theorem execAxch_canon (d : Dst) (a b : Src) (m : W2) (s : State)  (nx : State) (h : execAxch d a b m s = .next nx) (hm : memOk s.mem = true) : memOk nx.mem = true := by
  unfold execAxch at h; refine runPass_canon _ _ _ ?_ _ _ h (by simp [*])
  intro p s hs; simp only []; repeat' split
  all_goals simp [*]

theorem execAcas_canon (d : Dst) (a b : Src) (m : W2) (s : State)  (nx : State) (h : execAcas d a b m s = .next nx) (hm : memOk s.mem = true) : memOk nx.mem = true := by
  unfold execAcas at h; refine runPass_canon _ _ _ ?_ _ _ h (by simp [*])
  intro p s hs; simp only []; repeat' split
  all_goals simp [*]

theorem execAfadd_canon (d : Dst) (a b : Src) (m : AfaddM) (s : State)  (nx : State) (h : execAfadd d a b m s = .next nx) (hm : memOk s.mem = true) : memOk nx.mem = true := by
  unfold execAfadd at h; refine runPass_canon _ _ _ ?_ _ _ h (by simp [*])
  intro p s hs; simp only []; repeat' split
  all_goals simp [*]

theorem execAfmin_canon (d : Dst) (a b : Src) (m : MinMax) (s : State)  (nx : State) (h : execAfmin d a b m s = .next nx) (hm : memOk s.mem = true) : memOk nx.mem = true := by
  unfold execAfmin at h; refine runPass_canon _ _ _ ?_ _ _ h (by simp [*])
  intro p s hs; simp only []; repeat' split
  all_goals simp [*]

theorem execAinc_canon (d : Dst) (a b : Src) (m : IncM) (s : State)  (nx : State) (h : execAinc d a b m s = .next nx) (hm : memOk s.mem = true) : memOk nx.mem = true := by
  unfold execAinc at h; refine runPass_canon _ _ _ ?_ _ _ h (by simp [*])
  intro p s hs; simp only []; repeat' split
  all_goals simp [*]

theorem execAsadd_canon (d : Dst) (a b : Src) (m : AsaddM) (s : State)  (nx : State) (h : execAsadd d a b m s = .next nx) (hm : memOk s.mem = true) : memOk nx.mem = true := by
  unfold execAsadd at h; refine runPass_canon _ _ _ ?_ _ _ h (by simp [*])
  intro p s hs; simp only []; repeat' split
  all_goals simp [*]

theorem execAsmin_canon (d : Dst) (a b : Src) (m : Sgn32) (s : State)  (nx : State) (h : execAsmin d a b m s = .next nx) (hm : memOk s.mem = true) : memOk nx.mem = true := by
  unfold execAsmin at h; refine runPass_canon _ _ _ ?_ _ _ h (by simp [*])
  intro p s hs; simp only []; repeat' split
  all_goals simp [*]

theorem execAscas_canon (d : Dst) (a b : Src) (m : W2) (s : State)  (nx : State) (h : execAscas d a b m s = .next nx) (hm : memOk s.mem = true) : memOk nx.mem = true := by
  unfold execAscas at h; refine runPass_canon _ _ _ ?_ _ _ h (by simp [*])
  intro p s hs; simp only []; repeat' split
  all_goals simp [*]

theorem execPub_canon (sc : Scope) (s : State)  (nx : State) (h : execPub sc s = .next nx) (hm : memOk s.mem = true) : memOk nx.mem = true := by
  unfold execPub at h; refine runPass_canon _ _ _ ?_ _ _ h hm
  intro p s hs; simp [*]

theorem execAcq_canon (sc : Scope) (s : State)  (nx : State) (h : execAcq sc s = .next nx) (hm : memOk s.mem = true) : memOk nx.mem = true := by
  unfold execAcq at h; refine runPass_canon _ _ _ ?_ _ _ h hm
  intro p s hs; simp [*]

theorem execFence_canon (s : State)  (nx : State) (h : execFence s = .next nx) (hm : memOk s.mem = true) : memOk nx.mem = true := by
  unfold execFence at h; refine runPass_canon _ _ _ ?_ _ _ h hm
  intro p s hs; simp [*]

@[simp] theorem baraHome_mem (id : Nat) (pub : Option PubScope) (b g : Nat) (s : State)  : (baraHome id pub b g s).mem = s.mem := by
  unfold baraHome; split <;> simp [*]

@[simp] theorem barwHome_mem (id : Nat) (pub : Option PubScope) (b g : Nat) (s : State)  : (barwHome id pub b g s).mem = s.mem := by
  unfold barwHome; repeat' split
  all_goals simp [*]

@[simp] theorem barHome_mem (id : Nat) (pub : Option PubScope) (b g : Nat) (s : State)  : (barHome id pub b g s).mem = s.mem := by
  unfold barHome; split <;> simp [*]

@[simp] theorem barEff_canon (f : Nat → Nat → State → State) (id : Nat) (p : Pass) (s : State) (hf : ∀ (a0 : Nat) (a1 : Nat) (s : State), memOk s.mem = true → memOk (f a0 a1 s).mem = true) (hm : memOk s.mem = true) : memOk (barEff f id p s).mem = true := by
  unfold barEff
  have h := foldS_canon _ (fun g s hs => hf p.b g s hs) (homesAt p.B p.g p.pc) s hm
  dsimp only
  split
  · exact tryRelease_canon _ _ _ h
  · exact h

theorem execBara_canon (pub : Option PubScope) (id : Fin 16) (s : State)  (nx : State) (h : execBara pub id s = .next nx) (hm : memOk s.mem = true) : memOk nx.mem = true := by
  unfold execBara at h; refine runPass_canon _ _ _ ?_ _ _ h hm
  intro p s hs; simp [*]

theorem execBarw_canon (pub : Option PubScope) (id : Fin 16) (s : State)  (nx : State) (h : execBarw pub id s = .next nx) (hm : memOk s.mem = true) : memOk nx.mem = true := by
  unfold execBarw at h; refine runPass_canon _ _ _ ?_ _ _ h hm
  intro p s hs; simp [*]

@[simp] theorem barWholeEff_canon (id : Nat) (pub : Option PubScope) (p : Pass) (s : State)  (hm : memOk s.mem = true) : memOk (barWholeEff id pub p s).mem = true := by
  unfold barWholeEff; repeat' split
  all_goals simp [*]

theorem execBar_canon (pub : Option PubScope) (id : Fin 16) (s : State)  (nx : State) (h : execBar pub id s = .next nx) (hm : memOk s.mem = true) : memOk nx.mem = true := by
  unfold execBar at h; refine runPass_canon _ _ _ ?_ _ _ h hm
  intro p s hs; simp [*]

@[simp] theorem phaseEff_canon (sc : Scope) (p : Pass) (s : State)  (hm : memOk s.mem = true) : memOk (phaseEff sc p s).mem = true := by
  simp only [phaseEff]; repeat' split
  all_goals simp_all

theorem execPhase_canon (sc : Scope) (s : State)  (nx : State) (h : execPhase sc s = .next nx) (hm : memOk s.mem = true) : memOk nx.mem = true := by
  unfold execPhase at h; refine runPass_canon _ _ _ ?_ _ _ h hm
  intro p s hs; simp [*]

@[simp] theorem waitEff_mem (k : EngC) (n : BitVec 8) (p : Pass) (s : State)  : (waitEff k n p s).mem = s.mem := by
  simp [waitEff]

theorem execWait_canon (k : EngC) (th : BitVec 8) (s : State)  (nx : State) (h : execWait k th s = .next nx) (hm : memOk s.mem = true) : memOk nx.mem = true := by
  unfold execWait at h; refine runPass_canon _ _ _ ?_ _ _ h hm
  intro p s hs; simp [*]

@[simp] theorem gathPiece_mem (p : Pass) (s : State) (scr : Bool) (a : Nat)  : (gathPiece p s scr a).2.mem = s.mem := by
  unfold gathPiece
  have e := engReadBank_mem s p true .scr a 16
  split
  · split <;> rename_i h <;> rw [h] at e <;> exact e
  · split
    · rfl
    · split
      · simp only; split <;> simp
      · rfl

@[simp] theorem readIv_mem (p : Pass) (idx rows : Nat) (s : State)  : (readIv p idx rows s).mem = s.mem := by
  unfold readIv; split <;> simp [*]

@[simp] theorem gathBytes_mem (p : Pass) (g : GathD) (s : State)  : (gathBytes p g s).2.mem = s.mem := by
  unfold gathBytes
  extract_lets iv s1 s2
  refine (foldl2_mem _ ?_ _ _).trans (by simp only [s2, s1]; split <;> simp)
  intro z i
  split
  · rfl
  · refine foldl2_mem _ ?_ _ _
    intro z k
    simp

@[simp] theorem gathJournal_mem (s : State) (p : Pass) (o : EngOp) (l : List Byte) (y0 : Option Nat)  : (gathJournal s p o l y0).2.mem = s.mem := by
  unfold gathJournal; split <;> simp [*]

@[simp] theorem gathCommit_mem (i : Instr) (p : Pass) (o : EngOp) (at0 : Option Nat) (s : State)  : (gathCommit i p o at0 s).mem = s.mem := by
  simp [gathCommit]

@[simp] theorem gathEff_mem (d : Dst) (a : Src) (p : Pass) (s : State)  : (gathEff d a p s).mem = s.mem := by
  simp only [gathEff]; repeat' split
  all_goals simp_all

theorem execGath_canon (d : Dst) (a : Src) (s : State)  (nx : State) (h : execGath d a s = .next nx) (hm : memOk s.mem = true) : memOk nx.mem = true := by
  unfold execGath at h
  refine runPass_canon _ _ _ ?_ _ _ h (by simpa using hm)
  intro p s hs; simpa using hs

@[simp] theorem copyEff_mem (i : Instr) (t : Bool) (d : Dst) (a : Src) (p : Pass) (s : State)  : (copyEff i t d a p s).mem = s.mem := by
  simp [copyEff]

theorem execCpy_canon (d : Dst) (a : Src) (s : State)  (nx : State) (h : execCpy d a s = .next nx) (hm : memOk s.mem = true) : memOk nx.mem = true := by
  unfold execCpy at h; refine runPass_canon _ _ _ ?_ _ _ h hm
  intro p s hs; simp [*]

theorem execCpyt_canon (d : Dst) (a : Src) (s : State)  (nx : State) (h : execCpyt d a s = .next nx) (hm : memOk s.mem = true) : memOk nx.mem = true := by
  unfold execCpyt at h; refine runPass_canon _ _ _ ?_ _ _ h hm
  intro p s hs; simp [*]

@[simp] theorem collEff_mem (d : Dst) (a : Src) (m : CollM) (p : Pass) (s : State)  : (collEff d a m p s).mem = s.mem := by
  simp [collEff]

theorem execColl_canon (d : Dst) (a : Src) (m : CollM) (s : State)  (nx : State) (h : execColl d a m s = .next nx) (hm : memOk s.mem = true) : memOk nx.mem = true := by
  unfold execColl at h; refine runPass_canon _ _ _ ?_ _ _ h hm
  intro p s hs; simp [*]

@[simp] theorem issueSlice_mem (b g : Nat) (ms : List (Nat × Nat)) (w : MmaWait) (s : State)  : (issueSlice b g ms w s).mem = s.mem := by
  simp only [issueSlice]; repeat' split
  all_goals simp_all

@[simp] theorem memberFault_mem (m : Nat × Nat) (s : State)  : (memberFault m s).mem = s.mem := by
  unfold memberFault; split <;> simp [*]

@[simp] theorem rendezvous_mem (s : State) (b g : Nat)  : (rendezvous s b g).mem = s.mem := by
  simp only [rendezvous]
  have hf (ms : List (Nat × Nat)) : (foldS (fun (m : Nat × Nat) s => match memberArgs s m.1 m.2 with
      | some z => findMma z.1 z.2.2.1 z.2.2.2 s | none => s) ms s).mem = s.mem := foldS_mem _ (fun m s => by split <;> simp) _ _
  split
  · exact hf _
  · split
    · rw [foldS_mem _ (fun m s => memberFault_mem m s)]; exact hf _
    · rw [foldS_mem _ (fun m s => by repeat' split
                                     all_goals simp)]; exact hf _

@[simp] theorem mmaEff_mem (i : Instr) (p : Pass) (s : State)  : (mmaEff i p s).mem = s.mem := by
  unfold mmaEff; split <;> simp [*]

theorem execMma_canon (d : Dst) (a b : Src) (m : MmaM) (s : State)  (nx : State) (h : execMma d a b m s = .next nx) (hm : memOk s.mem = true) : memOk nx.mem = true := by
  unfold execMma at h; exact runPass_canon _ _ _ (by intro p s hs; simp [*]) _ _ h (by simpa using hm)

theorem execMmas_canon (d : Dst) (a b : Src) (m : F8P) (s : State)  (nx : State) (h : execMmas d a b m s = .next nx) (hm : memOk s.mem = true) : memOk nx.mem = true := by
  unfold execMmas at h; exact runPass_canon _ _ _ (by intro p s hs; simp [*]) _ _ h (by simpa using hm)

theorem execMmaf_canon (d : Dst) (a b : Src) (m : F8P) (s : State)  (nx : State) (h : execMmaf d a b m s = .next nx) (hm : memOk s.mem = true) : memOk nx.mem = true := by
  unfold execMmaf at h; exact runPass_canon _ _ _ (by intro p s hs; simp [*]) _ _ h (by simpa using hm)

theorem execGang_canon (a b : Src) (s : State)  (nx : State) (h : execGang a b s = .next nx) (hm : memOk s.mem = true) : memOk nx.mem = true := by
  unfold execGang at h; refine runPass_canon _ _ _ ?_ _ _ h hm
  intro p s hs; simp [*]

@[simp] theorem acczEff_mem (p : Pass) (s : State)  : (acczEff p s).mem = s.mem := by
  unfold acczEff; split <;> simp [*]

theorem execAccz_canon (s : State)  (nx : State) (h : execAccz s = .next nx) (hm : memOk s.mem = true) : memOk nx.mem = true := by
  unfold execAccz at h; refine runPass_canon _ _ _ ?_ _ _ h hm
  intro p s hs; simp [*]

@[simp] theorem mmaqEff_mem (d : Dst) (p : Pass) (s : State)  : (mmaqEff d p s).mem = s.mem := by
  simp [mmaqEff]

theorem execMmaq_canon (d : Dst) (s : State)  (nx : State) (h : execMmaq d s = .next nx) (hm : memOk s.mem = true) : memOk nx.mem = true := by
  unfold execMmaq at h; refine runPass_canon _ _ _ ?_ _ _ h hm
  intro p s hs; simp [*]

@[simp] theorem wakeQueue_mem (s : State) (k q : Nat)  : (wakeQueue s k q).mem = s.mem := by
  simp [wakeQueue]

@[simp] theorem enqueueRec_mem (s : State) (k n : Nat) (data : List Byte) (mask : BitVec 8) (ws : List (Nat × Nat))  : (enqueueRec s k n data mask ws).mem = s.mem := by
  simp [enqueueRec]

@[simp] theorem putEff_mem (a b : Src) (mask : Pass → Nat → Option (BitVec 8)) (p : Pass) (s : State)  : (putEff a b mask p s).mem = s.mem := by
  simp [putEff]

theorem execQput_canon (a b : Src) (s : State)  (nx : State) (h : execQput a b s = .next nx) (hm : memOk s.mem = true) : memOk nx.mem = true := by
  unfold execQput at h; refine runPass_canon _ _ _ ?_ _ _ h hm
  intro p s hs; simp [*]

theorem execQmput_canon (e a b : Src) (s : State)  (nx : State) (h : execQmput e a b s = .next nx) (hm : memOk s.mem = true) : memOk nx.mem = true := by
  unfold execQmput at h; refine runPass_canon _ _ _ ?_ _ _ h hm
  intro p s hs; simp [*]

@[simp] theorem takeThread_mem (st : Bool) (p : Pass) (n : Option Nat) (r : List (Nat × List Word) × State) (t : Nat) :
    (takeThread st p n r t).2.mem = r.2.mem := by
  unfold takeThread; split
  · rfl
  · split <;> simp

@[simp] theorem takeEff_mem (i : Instr) (st : Bool) (d : Dst) (sel : Pass → State → Option Nat) (p : Pass) (s : State) :
    (takeEff i st d sel p s).mem = s.mem := by
  have hr (n : Option Nat) : (p.L.foldl (takeThread st p n) ([], s)).2.mem = s.mem := foldl2_mem _ (fun z t => takeThread_mem _ _ _ z t) _ _
  simp only [takeEff, modGrp_mem]
  cases sel p s with
  | none => exact (journalItems_mem ..).trans (hr none)
  | some n =>
    dsimp only
    split
    · exact (wakeQueue_mem ..).trans ((journalItems_mem ..).trans (hr _))
    · exact (journalItems_mem ..).trans (hr _)

theorem execQtakeQ_canon (d : Dst) (a : Src) (s : State)  (nx : State) (h : execQtakeQ d a s = .next nx) (hm : memOk s.mem = true) : memOk nx.mem = true := by
  unfold execQtakeQ at h; refine runPass_canon _ _ _ ?_ _ _ h hm
  intro p s hs; simp [*]

theorem execQtakeStage_canon (d : Dst) (s : State)  (nx : State) (h : execQtakeStage d s = .next nx) (hm : memOk s.mem = true) : memOk nx.mem = true := by
  unfold execQtakeStage at h; refine runPass_canon _ _ _ ?_ _ _ h hm
  intro p s hs; simp [*]

@[simp] theorem relOne_mem (p : Pass) (a : Src) (t : Nat) (s : State)  : (relOne p a t s).mem = s.mem := by
  simp only [relOne]; repeat' split
  all_goals simp_all

@[simp] theorem relEff_mem (a : Src) (p : Pass) (s : State)  : (relEff a p s).mem = s.mem := by
  simp [relEff]

theorem execQrel_canon (a : Src) (s : State)  (nx : State) (h : execQrel a s = .next nx) (hm : memOk s.mem = true) : memOk nx.mem = true := by
  unfold execQrel at h; refine runPass_canon _ _ _ ?_ _ _ h hm
  intro p s hs; simp [*]

@[simp] theorem qstatEff_mem (d : Dst) (a : Src) (m : QstatM) (p : Pass) (s : State)  : (qstatEff d a m p s).mem = s.mem := by
  simp [qstatEff]

theorem execQstat_canon (d : Dst) (a : Src) (m : QstatM) (s : State)  (nx : State) (h : execQstat d a m s = .next nx) (hm : memOk s.mem = true) : memOk nx.mem = true := by
  unfold execQstat at h; refine runPass_canon _ _ _ ?_ _ _ h hm
  intro p s hs; simp [*]

@[simp] theorem dropEntry_mem (s : State) (b g : Nat) (va : BitVec 64)  : (dropEntry s b g va).mem = s.mem := by
  unfold dropEntry; split <;> simp [*]

@[simp] theorem releaseCont_mem (s : State) (b g : Nat) (loc : Nat) (va : BitVec 64)  : (releaseCont s b g loc va).mem = s.mem := by
  simp [releaseCont]

@[simp] theorem contPerform_canon (s : State) (b g : Nat) (join : Bool) (h : Hit) (va : BitVec 64)  (hm : memOk s.mem = true) : memOk (contPerform s b g join h va).mem = true := by
  simp [contPerform, *]

@[simp] theorem contOne_canon (i : Instr) (a : Src) (p : Pass) (t : Nat) (s : State)  (hm : memOk s.mem = true) : memOk (contOne i a p t s).mem = true := by
  simp only [contOne]; repeat' split
  all_goals simp_all

@[simp] theorem contEff_canon (i : Instr) (a : Src) (pub : Option Scope) (p : Pass) (s : State)  (hm : memOk s.mem = true) : memOk (contEff i a pub p s).mem = true := by
  simp only [contEff]; repeat' split
  all_goals simp_all

theorem execSpawn_canon (a : Src) (s : State)  (nx : State) (h : execSpawn a s = .next nx) (hm : memOk s.mem = true) : memOk nx.mem = true := by
  unfold execSpawn at h; exact runPass_canon _ _ _ (by intro p s hs; simp [*]) _ _ h (by simpa using hm)

theorem execJoin_canon (a : Src) (sc : Scope) (s : State)  (nx : State) (h : execJoin a sc s = .next nx) (hm : memOk s.mem = true) : memOk nx.mem = true := by
  unfold execJoin at h; exact runPass_canon _ _ _ (by intro p s hs; simp [*]) _ _ h (by simpa using hm)

theorem execYieldI_canon (s : State)  (nx : State) (h : execYieldI s = .next nx) (hm : memOk s.mem = true) : memOk nx.mem = true := by
  unfold execYieldI at h; refine runPass_canon _ _ _ ?_ _ _ h hm
  intro p s hs; simp [*]

theorem execTrap_canon (a : Src) (s : State)  (nx : State) (h : execTrap a s = .next nx) (hm : memOk s.mem = true) : memOk nx.mem = true := by
  unfold execTrap at h; refine runPass_canon _ _ _ ?_ _ _ h hm
  intro p s hs; simp [*]

@[simp] theorem retEff_mem (next : Bool) (p : Pass) (s : State)  : (retEff next p s).mem = s.mem := by
  simp [retEff]

theorem execTrapRet_canon (s : State)  (nx : State) (h : execTrapRet s = .next nx) (hm : memOk s.mem = true) : memOk nx.mem = true := by
  unfold execTrapRet at h; refine runPass_canon _ _ _ ?_ _ _ h hm
  intro p s hs; simp [*]

theorem execTrapNext_canon (s : State)  (nx : State) (h : execTrapNext s = .next nx) (hm : memOk s.mem = true) : memOk nx.mem = true := by
  unfold execTrapNext at h; refine runPass_canon _ _ _ ?_ _ _ h hm
  intro p s hs; simp [*]

@[simp] theorem tabPark_mem (s : State) (b g : Nat) (page : BitVec 64)  : (tabPark s b g page).mem = s.mem := by
  simp [tabPark]

@[simp] theorem liveEff_mem (i : BitVec 16) (p : Pass) (s : State)  : (liveEff i p s).mem = s.mem := by
  unfold liveEff; split <;> simp [*]

theorem execLive_canon (i : BitVec 16) (s : State)  (nx : State) (h : execLive i s = .next nx) (hm : memOk s.mem = true) : memOk nx.mem = true := by
  unfold execLive at h; refine runPass_canon _ _ _ ?_ _ _ h hm
  intro p s hs; simp [*]

@[simp] theorem regionEff_mem (i : BitVec 16) (p : Pass) (s : State)  : (regionEff i p s).mem = s.mem := by
  unfold regionEff; split <;> simp [*]

theorem execRegion_canon (i : BitVec 16) (s : State)  (nx : State) (h : execRegion i s = .next nx) (hm : memOk s.mem = true) : memOk nx.mem = true := by
  unfold execRegion at h; refine runPass_canon _ _ _ ?_ _ _ h hm
  intro p s hs; simp [*]

@[simp] theorem assayEff_mem (d : Dst) (m : AssayM) (p : Pass) (s : State)  : (assayEff d m p s).mem = s.mem := by
  unfold assayEff; repeat' split
  all_goals simp [*]

theorem execAssay_canon (d : Dst) (m : AssayM) (s : State)  (nx : State) (h : execAssay d m s = .next nx) (hm : memOk s.mem = true) : memOk nx.mem = true := by
  unfold execAssay at h; refine runPass_canon _ _ _ ?_ _ _ h hm
  intro p s hs; simp [*]

@[simp] theorem rdsrEff_mem (nw : Bool) (d : Dst) (i : BitVec 16) (p : Pass) (s : State)  : (rdsrEff nw d i p s).mem = s.mem := by
  simp [rdsrEff]

theorem execRdsr_canon (n : Bool) (d : Dst) (i : BitVec 16) (s : State)  (nx : State) (h : execRdsr n d i s = .next nx) (hm : memOk s.mem = true) : memOk nx.mem = true := by
  unfold execRdsr at h; refine runPass_canon _ _ _ ?_ _ _ h hm
  intro p s hs; simp [*]

theorem writeQd_mem (s : State) (b g q v : Nat) (x : Block)  (t : State) (h : writeQd s b g q v x = some t) : t.mem = s.mem := by
  unfold writeQd at h
  extract_lets k old bank bad at h
  split at h
  · cases h; simp [bad]
  · split at h
    · cases h
    · split at h
      · cases h; simp [bad]
      · rename_i q1 q2 _ _ _
        simp only [Option.some.injEq] at h
        rw [← h]
        simp only [ite_mem, wakeQueue_mem, ite_self, bad, q1, q2, modGrp_mem, modQueue_mem]

@[simp] theorem writeBmode_mem (s : State) (b g n v : Nat) (x : Block)  : (writeBmode s b g n v x).mem = s.mem := by
  simp [writeBmode]

@[simp] theorem dropUntaken_mem (s : State) (core : Nat)  : (dropUntaken s core).mem = s.mem := by
  simp [dropUntaken]

@[simp] theorem writeCstage_mem (s : State) (core : Nat) (v : Word)  : (writeCstage s core v).mem = s.mem := by
  simp [writeCstage]

@[simp] theorem writeFmctl_mem (s : State) (k : Nat) (v : Nat)  : (writeFmctl s k v).mem = s.mem := by
  simp [writeFmctl]

theorem srWrite_mem (s : State) (b g : Nat) (x : Block) (y : Group) (n : Nat) (w : Word)  (t : State) (h : srWrite s b g x y n w = some t) : t.mem = s.mem := by
  unfold srWrite at h
  extract_lets k qcfg staged hi v use at h
  split at h
  · cases h; simp
  · split at h
    · cases h; split <;> simp [qcfg]
    · split at h
      · cases h; split <;> simp [qcfg]
      · split at h
        · split at h
          · rename_i q
            cases h; simp only [use]; split <;> simp [writeQd_mem _ _ _ _ _ _ _ q]
          · cases h
        · cases h; simp only [use]; split <;> simp

@[simp] theorem wrsrEff_mem (e : Src) (i : BitVec 16) (p : Pass) (s : State)  : (wrsrEff e i p s).mem = s.mem := by
  unfold wrsrEff
  simp only
  split
  · rfl
  · rename_i t h
    have ht : t.mem = s.mem := by
      split at h
      · cases h; simp
      · exact srWrite_mem _ _ _ _ _ _ _ _ h
    simp only [modGrp_mem]
    split <;> simp [ht]

theorem execWrsr_canon (e : Src) (i : BitVec 16) (s : State)  (nx : State) (h : execWrsr e i s = .next nx) (hm : memOk s.mem = true) : memOk nx.mem = true := by
  unfold execWrsr at h; refine runPass_canon _ _ _ ?_ _ _ h hm
  intro p s hs; simp [*]

theorem execBkpt_canon (i : BitVec 16) (s : State)  (nx : State) (h : execBkpt i s = .next nx) (hm : memOk s.mem = true) : memOk nx.mem = true := by
  unfold execBkpt at h; refine runPass_canon _ _ _ ?_ _ _ h hm
  intro p s hs; simp [*]

@[simp] theorem haltGroup_mem (s : State) (b g : Nat) (pc : Word)  : (haltGroup s b g pc).mem = s.mem := by
  unfold haltGroup; split <;> simp [*]

@[simp] theorem dbgmEff_mem (a : Src) (m : DbgmM) (p : Pass) (s : State)  : (dbgmEff a m p s).mem = s.mem := by
  unfold dbgmEff; split <;> simp [*]

theorem execDbgm_canon (a : Src) (m : DbgmM) (s : State)  (nx : State) (h : execDbgm a m s = .next nx) (hm : memOk s.mem = true) : memOk nx.mem = true := by
  unfold execDbgm at h; refine runPass_canon _ _ _ ?_ _ _ h hm
  intro p s hs; simp [*]

theorem execWatch_canon (a b : Src) (m : WatchM) (s : State)  (nx : State) (h : execWatch a b m s = .next nx) (hm : memOk s.mem = true) : memOk nx.mem = true := by
  unfold execWatch at h; refine runPass_canon _ _ _ ?_ _ _ h hm
  intro p s hs; simp [*]

@[simp] theorem sleepEff_mem (a : Src) (p : Pass) (s : State)  : (sleepEff a p s).mem = s.mem := by
  simp [sleepEff]

theorem execSleep_canon (a : Src) (s : State)  (nx : State) (h : execSleep a s = .next nx) (hm : memOk s.mem = true) : memOk nx.mem = true := by
  unfold execSleep at h; refine runPass_canon _ _ _ ?_ _ _ h hm
  intro p s hs; simp [*]

theorem execClas_canon (c : TClass) (s : State)  (nx : State) (h : execClas c s = .next nx) (hm : memOk s.mem = true) : memOk nx.mem = true := by
  unfold execClas at h; refine runPass_canon _ _ _ ?_ _ _ h hm
  intro p s hs; simp [*]

theorem execReservedEncoding_canon (w : Word) (s : State)  (nx : State) (h : execReservedEncoding w s = .next nx) (hm : memOk s.mem = true) : memOk nx.mem = true := by
  unfold execReservedEncoding at h; refine runPass_canon _ _ _ ?_ _ _ h hm
  intro p s hs; simp [*]

end Sys2Proof.Laws
end

