-- ==== Sys2Proof/Laws/Canon4.lean ====
section
/-! SUPPORT. What each operation leaves of the memory; those that write keep its canonical form. -/

namespace Sys2Proof.Laws
open Sys2Proof.Machine

theorem accept_mem (s : State) (hp : HPort) (sseq : Word)  (nx : State) (h : accept s hp sseq = some nx) : nx.mem = s.mem := by
  unfold accept at h
  split at h
  · cases h; simp
  · cases h

@[simp] theorem seqErr_mem (s : State) (hp : HPort)  : (seqErr s hp).mem = s.mem := by
  simp [seqErr]

theorem submit_canon (s : State) (hp : HPort) (sseq : Word) (f : State → State) (hf : ∀ s, memOk s.mem = true → memOk (f s).mem = true)
    (nx : State) (h : submit s hp sseq f = .next nx) (hm : memOk s.mem = true) : memOk nx.mem = true := by
  unfold submit at h
  rw [← next_inj h]
  split
  · exact hm
  · split
    · rename_i h; exact hf _ (by rw [accept_mem _ _ _ _ h]; exact hm)
    · simp [hm]

@[simp] theorem setLoadStat_mem (s : State) (hp : HPort) (g st : Nat)  : (setLoadStat s hp g st).mem = s.mem := by
  simp [setLoadStat]

theorem execTriggerLoad_canon (hp : HPort) (sseq : Word) (graph : BitVec 10) (ploff : BitVec 18) (s : State)  (nx : State) (h : execTriggerLoad hp sseq graph ploff s = .next nx) (hm : memOk s.mem = true) : memOk nx.mem = true := by
  unfold execTriggerLoad at h
  refine submit_canon _ _ _ _ ?_ _ h hm
  intro s hs; simp only; split <;> simp [hs]

theorem execTriggerUnload_canon (hp : HPort) (sseq : Word) (graph : BitVec 10) (s : State)  (nx : State) (h : execTriggerUnload hp sseq graph s = .next nx) (hm : memOk s.mem = true) : memOk nx.mem = true := by
  unfold execTriggerUnload at h
  refine submit_canon _ _ _ _ ?_ _ h hm
  intro s hs; simp only; repeat' split
  all_goals simp [hs]

@[simp] theorem launchFails_mem (s : State) (hp : HPort) (sseq : Word) (g st : Nat)  : (launchFails s hp sseq g st).mem = s.mem := by
  simp [launchFails]

@[simp] theorem launch_mem (s : State) (hp : HPort) (sseq : Word) (patch order : Bool) (g o : Nat)  : (launch s hp sseq patch order g o).mem = s.mem := by
  simp only [launch]; repeat' split
  all_goals simp_all

theorem execTriggerLaunch_canon (hp : HPort) (sseq : Word) (patch order : Bool) (graph : BitVec 10) (ploff : BitVec 18) (s : State)  (nx : State) (h : execTriggerLaunch hp sseq patch order graph ploff s = .next nx) (hm : memOk s.mem = true) : memOk nx.mem = true := by
  unfold execTriggerLaunch at h
  refine submit_canon _ _ _ _ ?_ _ h hm
  intro s hs; simp [hs]

theorem execTriggerBadop_canon (hp : HPort) (sseq : Word) (graph : BitVec 10) (s : State)  (nx : State) (h : execTriggerBadop hp sseq graph s = .next nx) (hm : memOk s.mem = true) : memOk nx.mem = true := by
  unfold execTriggerBadop at h
  refine submit_canon _ _ _ _ ?_ _ h hm
  intro s hs; simp [hs]

theorem execInstStart_canon (inst : Nat) (s : State)  (nx : State) (h : execInstStart inst s = .next nx) (hm : memOk s.mem = true) : memOk nx.mem = true := by
  unfold execInstStart at h; rw [← next_inj h]; repeat' split
  all_goals simp [*]

@[simp] theorem cpFind_mem (s : State) (ctx : Word) (c : Context) (va : BitVec 64) (n : Nat)  : (cpFind s ctx c va n).mem = s.mem := by
  unfold cpFind; dsimp only; split <;> simp [*]

@[simp] theorem failNode_mem (s : State) (n st : Nat)  : (failNode s n st).mem = s.mem := by
  simp [failNode]

@[simp] theorem dispatchNode_mem (s : State) (n k : Nat) (i : Inst) (x : GNode) (h : Header) (count : Nat)  : (dispatchNode s n k i x h count).mem = s.mem := by
  simp [dispatchNode]

@[simp] theorem findDispatch_mem (s : State) (i : Inst) (x : GNode)  : (findDispatch s i x).mem = s.mem := by
  simp only [findDispatch]; repeat' split
  all_goals simp_all

theorem execNodeDispatch_canon (inst node : Nat) (s : State)  (nx : State) (h : execNodeDispatch inst node s = .next nx) (hm : memOk s.mem = true) : memOk nx.mem = true := by
  unfold execNodeDispatch at h
  rw [← next_inj h]
  split
  · exact hm
  · split
    · exact hm
    · split
      · simp only
        split
        · simp [hm]
        · split
          · simp [hm]
          · split <;> simp [hm]
      · exact hm

@[simp] theorem uvCheck_mem (s : State) (x : Nat)  : (uvCheck s x).mem = s.mem := by
  simp [uvCheck]

@[simp] theorem countPlaced_mem (s : State) (c n : Nat)  : (countPlaced s c n).mem = s.mem := by
  simp [countPlaced]

@[simp] theorem takeGrans_mem (n : Nat) (used l : List Nat) (s : State)  : (takeGrans n used l s).2.mem = s.mem := by
  induction n generalizing used l s with
  | zero => rfl
  | succ n ih => unfold takeGrans; simp only; rw [ih]; simp

@[simp] theorem takeMore_mem (s : State) (c n : Nat)  : (takeMore s c n).2.mem = s.mem := by
  simp [takeMore]

@[simp] theorem takeStore_mem (s : State) (c : Nat) (x : Block)  : (takeStore s c x).2.mem = s.mem := by
  simp [takeStore]

@[simp] theorem placeNew_canon (s : State) (b c : Nat)  (hm : memOk s.mem = true) : memOk (placeNew s b c).mem = true := by
  unfold placeNew; repeat' split
  all_goals simp [*]

@[simp] theorem openBytes_mem (s : State) (n : Nat)  : (openBytes s n).2.mem = s.mem := by
  simp [openBytes]

@[simp] theorem writeOpen_canon (s : State) (a n : Nat)  (hm : memOk s.mem = true) : memOk (writeOpen s a n).mem = true := by
  simp [writeOpen, *]

@[simp] theorem saveGroup_canon (x : Block) (z : Nat × Group) (s : State)  (hm : memOk s.mem = true) : memOk (saveGroup x z s).mem = true := by
  simp [saveGroup, *]

@[simp] theorem saveFrame_canon (s : State) (b : Nat)  (hm : memOk s.mem = true) : memOk (saveFrame s b).mem = true := by
  unfold saveFrame
  split
  · exact hm
  · refine foldS_canon _ (fun g s hs => saveGroup_canon _ _ _ hs) _ _ (foldS_canon _ (fun r s hs => moveBytes_canon _ _ _ _ _ hs) _ _ ?_)
    simp [hm]

@[simp] theorem forGroups_mem (s : State) (b : Nat) (f : Nat → State → State) (hf : ∀ (a0 : Nat) (s : State), (f a0 s).mem = s.mem) : (forGroups s b f).mem = s.mem := by
  unfold forGroups; split <;> simp [*]

@[simp] theorem forGroups_canon (s : State) (b : Nat) (f : Nat → State → State) (hf : ∀ (a0 : Nat) (s : State), memOk s.mem = true → memOk (f a0 s).mem = true) (hm : memOk s.mem = true) : memOk (forGroups s b f).mem = true := by
  simp only [forGroups]; repeat' split
  all_goals simp_all

@[simp] theorem saveBlock_canon (s : State) (b : Nat)  (hm : memOk s.mem = true) : memOk (saveBlock s b).mem = true := by
  simp only [saveBlock]; repeat' split
  all_goals simp_all

@[simp] theorem readSaved_mem (s : State) (ctx : Word) (a n : Nat)  : (readSaved s ctx a n).2.mem = s.mem := by
  simp only [readSaved]; repeat' split
  all_goals simp_all

@[simp] theorem restoreRegs_mem (s : State) (b g : Nat) (same : Bool)  : (restoreRegs s b g same).mem = s.mem := by
  unfold restoreRegs; repeat' split
  all_goals simp [*]

@[simp] theorem refillShadow_canon (s : State) (b : Nat)  (hm : memOk s.mem = true) : memOk (refillShadow s b).mem = true := by
  unfold refillShadow
  split
  · exact hm
  · simp only [modBlk_mem]
    refine foldS_canon _ ?_ _ _ (by simp [hm])
    intro r s hs
    split
    · exact moveBytes_canon _ _ _ _ _ hs
    · exact hs

@[simp] theorem restoreRanges_canon (s : State) (b : Nat) (same : Bool)  (hm : memOk s.mem = true) : memOk (restoreRanges s b same).mem = true := by
  unfold restoreRanges
  split
  · exact hm
  · simp only [modBlk_mem]
    have hl (l : List Nat) : memOk (foldS (fun a s => let k := choose s 2
        if same && k.1 == 0 then k.2 else { k.2 with mem := mset k.2.mem a 0 }) l s).mem = true := by
      refine foldS_canon _ ?_ _ _ hm
      intro a s hs
      have hc : memOk (choose s 2).2.mem = true := by simpa using hs
      simp only
      split
      · exact hc
      · exact memOk_mset_simp (choose s 2).2.mem a 0 hc
    refine foldS_canon _ (fun r s hs => moveBytes_canon _ _ _ _ _ hs) _ _ ?_
    split
    · exact hl _
    · refine foldS_canon _ ?_ _ _ (hl _)
      intro r s hs
      split
      · exact moveBytes_canon _ _ _ _ _ hs
      · exact hs

@[simp] theorem settleGroups_mem (s : State) (b c : Nat) (m : List (Nat × Nat))  : (settleGroups s b c m).mem = s.mem := by
  simp [settleGroups]

@[simp] theorem replayGroup_mem (s : State) (b g : Nat)  : (replayGroup s b g).mem = s.mem := by
  unfold replayGroup; repeat' split
  all_goals simp [*]

@[simp] theorem replayPhases_mem (s : State) (b : Nat)  : (replayPhases s b).mem = s.mem := by
  simp [replayPhases]

@[simp] theorem restoreBlock_canon (s : State) (b c : Nat)  (hm : memOk s.mem = true) : memOk (restoreBlock s b c).mem = true := by
  unfold restoreBlock; repeat' split
  all_goals simp [*]

@[simp] theorem placeOn_canon (s : State) (bs : List (Nat × Block)) (cs : List Nat)  (hm : memOk s.mem = true) : memOk (placeOn s bs cs).mem = true := by
  unfold placeOn
  refine foldS_canon _ ?_ _ _ hm
  intro z s hs
  split
  · simp [hs]
  · simp [hs]

theorem placeTroupe_canon (s : State) (t : Nat) (x : Block)  (nx : State) (h : placeTroupe s t x = some nx) (hm : memOk s.mem = true) : memOk nx.mem = true := by
  unfold placeTroupe at h
  simp only at h
  split at h
  · cases h
  · split at h
    · cases h
    · cases h; simp [hm]

@[simp] theorem without_mem (s : State) (bs : List Nat)  : (without s bs).mem = s.mem := by
  simp [without]

@[simp] theorem wantPreempt_mem (acct : Nat) (s : State) (bs : List Nat)  : (wantPreempt acct s bs).mem = s.mem := by
  simp [wantPreempt]

@[simp] theorem troupePreempt_mem (s : State) (t : Nat) (x : Block)  : (troupePreempt s t x).mem = s.mem := by
  simp only [troupePreempt]; repeat' split
  all_goals simp_all

@[simp] theorem saveWhole_canon (s : State) (t b g : Nat)  (hm : memOk s.mem = true) : memOk (saveWhole s t b g).mem = true := by
  simp only [saveWhole]; repeat' split
  all_goals simp_all

theorem saveUntil_canon (s : State) (t : Nat) (x : Block) (y0 : List (Nat × Nat))  (nx : State) (h : saveUntil s t x y0 = some nx) (hm : memOk s.mem = true) : memOk nx.mem = true := by
  induction y0 generalizing s with
  | nil => exact placeTroupe_canon _ _ _ _ h hm
  | cons c r ih =>
    unfold saveUntil at h
    split at h
    · rename_i q; cases h; exact placeTroupe_canon _ _ _ _ q hm
    · exact ih _ h (by simp [hm])

theorem serveTenant_canon (s : State) (t : Nat) (hm : memOk s.mem = true) :
    memOk (serveTenant s t).2.mem = true ∧ ∀ nx, (serveTenant s t).1 = some nx → memOk nx.mem = true := by
  have hk : memOk (if (wholeCandidates s t).isEmpty then (0, s) else choose s 2).2.mem = true := by split <;> simp [hm]
  unfold serveTenant
  split
  · exact ⟨hm, fun nx h => by cases h⟩
  · split
    · rename_i q; exact ⟨placeTroupe_canon _ _ _ _ q hm, fun nx h => by cases h; exact placeTroupe_canon _ _ _ _ q hm⟩
    · dsimp only
      generalize (if (wholeCandidates s t).isEmpty then (0, s) else choose s 2) = k at hk ⊢
      generalize e : (if k.1 = 1 then saveUntil k.2 t _ (wholeCandidates s t) else none) = r
      cases r with
      | none => exact ⟨by simp [hk], fun nx h => by cases h⟩
      | some w =>
        have hq : memOk w.mem = true := by
          split at e
          · exact saveUntil_canon _ _ _ _ _ e hk
          · cases e
        exact ⟨hq, fun nx h => by cases h; exact hq⟩

@[simp] theorem serve_canon (s : State) (y0 : List Nat)  (hm : memOk s.mem = true) : memOk (serve s y0).mem = true := by
  induction y0 generalizing s with
  | nil => exact hm
  | cons t r ih =>
    unfold serve
    have z := serveTenant_canon s t hm
    simp only
    split
    · rename_i q; exact z.2 _ q
    · exact ih _ z.1

theorem execTroupePlace_canon (cluster : Fin 96) (s : State)  (nx : State) (h : execTroupePlace cluster s = .next nx) (hm : memOk s.mem = true) : memOk nx.mem = true := by
  unfold execTroupePlace at h; rw [← next_inj h]; simp [*]

theorem execBlockSave_canon (blk : Nat) (s : State)  (nx : State) (h : execBlockSave blk s = .next nx) (hm : memOk s.mem = true) : memOk nx.mem = true := by
  unfold execBlockSave at h; rw [← next_inj h]; repeat' split
  all_goals simp [*]

theorem execBlockRestore_canon (blk : Nat) (s : State)  (nx : State) (h : execBlockRestore blk s = .next nx) (hm : memOk s.mem = true) : memOk nx.mem = true := by
  unfold execBlockRestore at h
  rw [← next_inj h]
  split
  · exact hm
  · split
    · cases q : placeTroupe s _ _ with
      | none => exact hm
      | some t => exact placeTroupe_canon _ _ _ _ q hm
    · exact hm

theorem execRailLossResume_canon (blk : Nat) (s : State)  (nx : State) (h : execRailLossResume blk s = .next nx) (hm : memOk s.mem = true) : memOk nx.mem = true := by
  unfold execRailLossResume at h
  rw [← next_inj h]
  split
  · exact hm
  · split
    · cases q : placeTroupe s _ _ with
      | none => exact hm
      | some t => exact placeTroupe_canon _ _ _ _ q hm
    · exact hm

theorem execBlockRelocate_canon (blk core : Nat) (s : State)  (nx : State) (h : execBlockRelocate blk core s = .next nx) (hm : memOk s.mem = true) : memOk nx.mem = true := by
  unfold execBlockRelocate at h; rw [← next_inj h]; repeat' split
  all_goals simp [*]

theorem execGroupRestore_canon (blk grp : Nat) (s : State)  (nx : State) (h : execGroupRestore blk grp s = .next nx) (hm : memOk s.mem = true) : memOk nx.mem = true := by
  unfold execGroupRestore at h; rw [← next_inj h]; repeat' split
  all_goals simp [*]

@[simp] theorem enqueue_mem (s : State) (q : Nat) (f : Option Nat × List Byte)  : (enqueue s q f).mem = s.mem := by
  simp [enqueue]

@[simp] theorem originate_mem (s : State) (type dst tag : Nat) (payload : List Byte)  : (originate s type dst tag payload).2.mem = s.mem := by
  simp only [originate]; repeat' split
  all_goals simp_all

@[simp] theorem collLeave_canon (s : State) (cid : Nat) (c : Coll) (w : Word)  (hm : memOk s.mem = true) : memOk (collLeave s cid c w).mem = true := by
  simp only [collLeave]; repeat' split
  all_goals simp_all

@[simp] theorem collDrain_canon (b g : Nat) (y0 : List EngOp) (s : State)  (hm : memOk s.mem = true) : memOk (collDrain b g y0 s).mem = true := by
  induction y0 generalizing s with
  | nil => exact hm
  | cons o r ih => unfold collDrain; repeat' split
                   · exact ih _ (by simp [hm])
                   all_goals exact hm

@[simp] theorem collEnd_canon (s : State) (cid : Nat) (c : Coll) (w : Word)  (hm : memOk s.mem = true) : memOk (collEnd s cid c w).mem = true := by
  simp only [collEnd]; repeat' split
  all_goals simp_all

@[simp] theorem collPoison_mem (s : State) (c : Coll)  : (collPoison s c).2.mem = s.mem := by
  simp only [collPoison]; repeat' split
  all_goals simp_all

@[simp] theorem collEntry_mem (s : State) (ctx : Word) (c : Coll) (w : Word)  : (collEntry s ctx c w).mem = s.mem := by
  simp [collEntry]

@[simp] theorem collAbort_canon (s : State) (cid cause : Nat)  (hm : memOk s.mem = true) : memOk (collAbort s cid cause).mem = true := by
  unfold collAbort; repeat' split
  all_goals simp [*]

@[simp] theorem collSpread_mem (s : State) (kind cause : Nat) (c : Coll)  : (collSpread s kind cause c).2.mem = s.mem := by
  simp [collSpread]

@[simp] theorem collCast_canon (s : State) (cid cause : Nat)  (hm : memOk s.mem = true) : memOk (collCast s cid cause).mem = true := by
  unfold collCast; split <;> simp [*]

@[simp] theorem collHeard_canon (s : State) (cid : Nat) (l : List Byte)  (hm : memOk s.mem = true) : memOk (collHeard s cid l).mem = true := by
  unfold collHeard; repeat' split
  all_goals simp [*]

@[simp] theorem collHear_canon (s : State) (f : List Byte)  (hm : memOk s.mem = true) : memOk (collHear s f).mem = true := by
  simp only [collHear]; repeat' split
  all_goals simp_all

@[simp] theorem collTell_canon (s : State) (cid : Nat)  (hm : memOk s.mem = true) : memOk (collTell s cid).mem = true := by
  simp only [collTell]; repeat' split
  all_goals simp_all

@[simp] theorem collSuspend_mem (s : State) (cid acc : Nat) (c : Coll) (va : BitVec 64)  : (collSuspend s cid acc c va).mem = s.mem := by
  simp [collSuspend]

@[simp] theorem findDest_mem (s : State) (ctx : Word) (k : Context) (c : Coll) (n : Nat)  : (findDest s ctx k c n).mem = s.mem := by
  simp [findDest]

@[simp] theorem collWrite_canon (p : Pass) (cid : Nat) (y0 : List (Nat × List (Byte × Bool))) (s : State)  (hm : memOk s.mem = true) : memOk (collWrite p cid y0 s).mem = true := by
  induction y0 generalizing s with
  | nil => exact hm
  | cons c r ih => obtain ⟨a, l⟩ := c; unfold collWrite; exact ih _ (by simp [hm])

@[simp] theorem collRun_canon (s : State) (cid : Nat) (c : Coll) (p : Pass) (k : Context) (peers : List (List Byte)) (bad : List (List Nat))  (hm : memOk s.mem = true) : memOk (collRun s cid c p k peers bad).mem = true := by
  simp only [collRun]
  generalize ho : (if (c.op == .bc && collRank s c != c.root) = true then ((EngRead.ok [] false, [], s) : EngRead × List (Byte × Bool) × State)
      else engRun s p .dev c.src.toNat (collSize c.fmt * c.n) (collSize c.fmt * c.n) []) = own
  have hm : memOk own.2.2.mem = true := by
    rw [← ho]; split
    · exact hm
    · rw [engRun_mem]; exact hm
  repeat' split
  all_goals simp [hm]

theorem execCollectiveComplete_canon (cid : Nat) (peers : List (List Byte)) (bad : List (List Nat)) (s : State)  (nx : State) (h : execCollectiveComplete cid peers bad s = .next nx) (hm : memOk s.mem = true) : memOk nx.mem = true := by
  unfold execCollectiveComplete at h; rw [← next_inj h]; repeat' split
  all_goals simp [*]

theorem execCollectiveAbort_canon (cid : Nat) (cause : BitVec 4) (s : State)  (nx : State) (h : execCollectiveAbort cid cause s = .next nx) (hm : memOk s.mem = true) : memOk nx.mem = true := by
  unfold execCollectiveAbort at h; rw [← next_inj h]; simp [*]

theorem execCollectiveTimeout_canon (cid : Nat) (s : State)  (nx : State) (h : execCollectiveTimeout cid s = .next nx) (hm : memOk s.mem = true) : memOk nx.mem = true := by
  unfold execCollectiveTimeout at h; rw [← next_inj h]; repeat' split
  all_goals simp [*]

@[simp] theorem endTiers_mem (s : State) (ctx : Word)  : (endTiers s ctx).mem = s.mem := by
  simp [endTiers]

@[simp] theorem dropEntries_mem (s : State) (ctx : Word) (hp : HPort)  : (dropEntries s ctx hp).mem = s.mem := by
  simp [dropEntries]

@[simp] theorem killInsts_mem (s : State) (ctx : Word)  : (killInsts s ctx).mem = s.mem := by
  simp [killInsts]

@[simp] theorem freeBlocks_canon (s : State) (ctx : Word)  (hm : memOk s.mem = true) : memOk (freeBlocks s ctx).mem = true := by
  simp only [freeBlocks]; repeat' split
  all_goals simp_all

@[simp] theorem killColls_mem (s : State) (ctx : Word)  : (killColls s ctx).mem = s.mem := by
  unfold killColls
  refine foldS_mem _ ?_ _ _
  intro c s
  split
  · split <;> simp
  · rfl

@[simp] theorem kill_canon (s : State) (ctx : Word)  (hm : memOk s.mem = true) : memOk (kill s ctx).mem = true := by
  unfold kill; split <;> simp [*]

@[simp] theorem denied_mem (s : State) (hp : HPort)  : (denied s hp).mem = s.mem := by
  simp [denied]

theorem execCtxKill_canon (hp : HPort) (ctx : Word) (s : State)  (nx : State) (h : execCtxKill hp ctx s = .next nx) (hm : memOk s.mem = true) : memOk nx.mem = true := by
  unfold execCtxKill at h; rw [← next_inj h]; repeat' split
  all_goals simp [*]

theorem execPreemptRequest_canon (hp : HPort) (ctx : Word) (s : State)  (nx : State) (h : execPreemptRequest hp ctx s = .next nx) (hm : memOk s.mem = true) : memOk nx.mem = true := by
  unfold execPreemptRequest at h; rw [← next_inj h]; simp [*]

theorem execPreemptTimeout_canon (ctx : Word) (s : State)  (nx : State) (h : execPreemptTimeout ctx s = .next nx) (hm : memOk s.mem = true) : memOk nx.mem = true := by
  unfold execPreemptTimeout at h; rw [← next_inj h]; repeat' split
  all_goals simp [*]

theorem execTrapEntryWrite_canon (hp : HPort) (s : State)  (nx : State) (h : execTrapEntryWrite hp s = .next nx) (hm : memOk s.mem = true) : memOk nx.mem = true := by
  unfold execTrapEntryWrite at h
  rw [← next_inj h]
  split
  · exact hm
  · simp only
    split
    · exact hm
    · split <;> simp [hm]

theorem execTrrixWrite_canon (hp : HPort) (v : Word) (s : State)  (nx : State) (h : execTrrixWrite hp v s = .next nx) (hm : memOk s.mem = true) : memOk nx.mem = true := by
  unfold execTrrixWrite at h
  rw [← next_inj h]
  split
  · exact hm
  · exact foldS_canon _ (fun c s hs => kill_canon _ _ hs) _ _ (by simpa using hm)

theorem execBarrierWatchdog_canon (blk bar : Nat) (s : State)  (nx : State) (h : execBarrierWatchdog blk bar s = .next nx) (hm : memOk s.mem = true) : memOk nx.mem = true := by
  unfold execBarrierWatchdog at h; rw [← next_inj h]; repeat' split
  all_goals simp [*]

theorem execRendezvousWatchdog_canon (blk grp : Nat) (s : State)  (nx : State) (h : execRendezvousWatchdog blk grp s = .next nx) (hm : memOk s.mem = true) : memOk nx.mem = true := by
  unfold execRendezvousWatchdog at h; rw [← next_inj h]; repeat' split
  all_goals simp [*]

@[simp] theorem freeBuffer_mem (s : State) (p : Nat) (f : List Byte)  : (freeBuffer s p f).mem = s.mem := by
  unfold freeBuffer; split <;> simp [*]

@[simp] theorem noteColl_mem (s : State) (f : List Byte)  : (noteColl s f).mem = s.mem := by
  unfold noteColl; repeat' split
  all_goals simp [*]

@[simp] theorem noRoute_canon (s : State) (p : Nat) (f : List Byte)  (hm : memOk s.mem = true) : memOk (noRoute s p f).mem = true := by
  simp only [noRoute]; repeat' split
  all_goals simp_all

@[simp] theorem routeFlit_canon (s : State) (p : Nat) (f : List Byte)  (hm : memOk s.mem = true) : memOk (routeFlit s p f).mem = true := by
  simp only [routeFlit]; repeat' split
  all_goals simp_all

@[simp] theorem nakFlit_mem (s : State) (p : Nat)  : (nakFlit s p).mem = s.mem := by
  simp [nakFlit]

@[simp] theorem takeFlit_canon (s : State) (p : Nat) (f : List Byte)  (hm : memOk s.mem = true) : memOk (takeFlit s p f).mem = true := by
  unfold takeFlit; repeat' split
  all_goals simp [*]

theorem execFlitReceive_canon (p : Fin 12) (flit : List Byte) (s : State)  (nx : State) (h : execFlitReceive p flit s = .next nx) (hm : memOk s.mem = true) : memOk nx.mem = true := by
  unfold execFlitReceive at h; rw [← next_inj h]; repeat' split
  all_goals simp [*]

theorem execFlitSend_canon (p : Fin 12) (s : State)  (nx : State) (h : execFlitSend p s = .next nx) (hm : memOk s.mem = true) : memOk nx.mem = true := by
  unfold execFlitSend at h
  rw [← next_inj h]
  split
  · exact hm
  · simp only
    repeat' split
    all_goals simp [hm]

theorem execAckTimeout_canon (p : Fin 12) (s : State)  (nx : State) (h : execAckTimeout p s = .next nx) (hm : memOk s.mem = true) : memOk nx.mem = true := by
  unfold execAckTimeout at h; rw [← next_inj h]; simp [*]

@[simp] theorem linkDown_canon (s : State) (p : Nat)  (hm : memOk s.mem = true) : memOk (linkDown s p).mem = true := by
  unfold linkDown
  refine foldS_canon _ ?_ _ _ (foldS_canon _ ?_ _ _ (by simpa using hm))
  · intro c s hs; split
    · simp [hs]
    · exact hs
  · intro c s hs; split
    · simp [hs]
    · exact hs

theorem execRetrainTimeout_canon (p : Fin 12) (s : State)  (nx : State) (h : execRetrainTimeout p s = .next nx) (hm : memOk s.mem = true) : memOk nx.mem = true := by
  unfold execRetrainTimeout at h
  rw [← next_inj h]
  repeat' split
  all_goals simp [hm]

theorem execCreditStall_canon (p : Fin 12) (vc : Fin 4) (s : State)  (nx : State) (h : execCreditStall p vc s = .next nx) (hm : memOk s.mem = true) : memOk nx.mem = true := by
  unfold execCreditStall at h; rw [← next_inj h]; simp [*]

@[simp] theorem asManager_mem (s : State) (hp : HPort) (f : State → State) (hf : ∀ (s : State), (f s).mem = s.mem) : (asManager s hp f).mem = s.mem := by
  unfold asManager; split <;> simp [*]

@[simp] theorem asManager_canon (s : State) (hp : HPort) (f : State → State) (hf : ∀ (s : State), memOk s.mem = true → memOk (f s).mem = true) (hm : memOk s.mem = true) : memOk (asManager s hp f).mem = true := by
  unfold asManager; split <;> simp [*]

theorem execPortTrain_canon (hp : HPort) (p : Fin 12) (s : State)  (nx : State) (h : execPortTrain hp p s = .next nx) (hm : memOk s.mem = true) : memOk nx.mem = true := by
  unfold execPortTrain at h
  rw [← next_inj h]
  exact asManager_canon _ _ _ (fun s hs => by simp [hs]) hm

theorem execPortTrained_canon (p : Fin 12) (s : State)  (nx : State) (h : execPortTrained p s = .next nx) (hm : memOk s.mem = true) : memOk nx.mem = true := by
  unfold execPortTrained at h; rw [← next_inj h]; simp [*]

theorem execDevidWrite_canon (hp : HPort) (v : Word) (s : State)  (nx : State) (h : execDevidWrite hp v s = .next nx) (hm : memOk s.mem = true) : memOk nx.mem = true := by
  unfold execDevidWrite at h; rw [← next_inj h]; simp [*]

theorem execThermalHot_canon (die : Fin 8) (s : State)  (nx : State) (h : execThermalHot die s = .next nx) (hm : memOk s.mem = true) : memOk nx.mem = true := by
  unfold execThermalHot at h; rw [← next_inj h]; simp [*]

theorem execThermalCool_canon (die : Fin 8) (s : State)  (nx : State) (h : execThermalCool die s = .next nx) (hm : memOk s.mem = true) : memOk nx.mem = true := by
  unfold execThermalCool at h; rw [← next_inj h]; simp [*]

@[simp] theorem loseClusters_canon (s : State) (ks : List Nat)  (hm : memOk s.mem = true) : memOk (loseClusters s ks).mem = true := by
  unfold loseClusters
  simp only
  refine foldS_canon _ ?_ _ _ (foldS_canon _ ?_ _ _ (foldS_canon _ ?_ _ _ hm)) <;> (intro b s hs; simp [hs])

@[simp] theorem railEntry_mem (s : State) (x : Nat) (ctx : Word) (unrec : Bool)  : (railEntry s x ctx unrec).mem = s.mem := by
  unfold railEntry; split <;> simp [*]

@[simp] theorem strand_mem (s : State) (ctx : Word)  : (strand s ctx).mem = s.mem := by
  simp [strand]

@[simp] theorem shutRail_canon (s : State) (x : Nat)  (hm : memOk s.mem = true) : memOk (shutRail s x).mem = true := by
  simp [shutRail, *]

theorem execRailShutdown_canon (x : Fin 4) (s : State)  (nx : State) (h : execRailShutdown x s = .next nx) (hm : memOk s.mem = true) : memOk nx.mem = true := by
  unfold execRailShutdown at h; rw [← next_inj h]; simp [*]

theorem execThermalShutdown_canon (die : Fin 8) (temp : BitVec 16) (s : State)  (nx : State) (h : execThermalShutdown die temp s = .next nx) (hm : memOk s.mem = true) : memOk nx.mem = true := by
  unfold execThermalShutdown at h; rw [← next_inj h]; simp [*]

theorem execBallastInjection_canon (x : Fin 4) (s : State)  (nx : State) (h : execBallastInjection x s = .next nx) (hm : memOk s.mem = true) : memOk nx.mem = true := by
  unfold execBallastInjection at h; rw [← next_inj h]; simp [*]

theorem execUndervoltInterval_canon (x : Fin 4) (s : State)  (nx : State) (h : execUndervoltInterval x s = .next nx) (hm : memOk s.mem = true) : memOk nx.mem = true := by
  unfold execUndervoltInterval at h; rw [← next_inj h]; simp [*]

theorem execEnergyMeter_canon (s : State)  (nx : State) (h : execEnergyMeter s = .next nx) (hm : memOk s.mem = true) : memOk nx.mem = true := by
  unfold execEnergyMeter at h; rw [← next_inj h]; simp [*]

@[simp] theorem coreRecord_mem (s : State) (kind sev unit c lane : Nat)  : (coreRecord s kind sev unit c lane).mem = s.mem := by
  simp [coreRecord]

@[simp] theorem laneRecord_mem (s : State) (kind sev c lane : Nat) (ctx : Option Word)  : (laneRecord s kind sev c lane ctx).mem = s.mem := by
  simp [laneRecord]

@[simp] theorem replaceCore_mem (s : State) (c : Nat)  : (replaceCore s c).mem = s.mem := by
  simp [replaceCore]

@[simp] theorem newAge_mem (s : State) (c b g : Nat)  : (newAge s c b g).mem = s.mem := by
  simp [newAge]

@[simp] theorem retireFor_mem (keep : Nat → Nat → Bool) (s : State) (c lane : Nat)  : (retireFor keep s c lane).mem = s.mem := by
  simp [retireFor]

@[simp] theorem retireLane_mem (s : State) (c lane : Nat)  : (retireLane s c lane).mem = s.mem := by
  simp [retireLane]

@[simp] theorem countResidue_mem (s : State) (c lane : Nat) (ctx : Option Word)  : (countResidue s c lane ctx).mem = s.mem := by
  simp [countResidue]

@[simp] theorem residueFail_mem (s : State) (c lane : Nat) (ctx : Option Word)  : (residueFail s c lane ctx).mem = s.mem := by
  simp [residueFail]

theorem execInFieldTest_canon (core : Nat) (lane : Fin 64) (fails : Bool) (s : State)  (nx : State) (h : execInFieldTest core lane fails s = .next nx) (hm : memOk s.mem = true) : memOk nx.mem = true := by
  unfold execInFieldTest at h; rw [← next_inj h]; simp [*]

theorem execPatrolScrub_canon (sector : Nat) (s : State)  (nx : State) (h : execPatrolScrub sector s = .next nx) (hm : memOk s.mem = true) : memOk nx.mem = true := by
  unfold execPatrolScrub at h; rw [← next_inj h]; simp [*]

theorem execRefresh_canon (granule : Nat) (s : State)  (nx : State) (h : execRefresh granule s = .next nx) (hm : memOk s.mem = true) : memOk nx.mem = true := by
  unfold execRefresh at h; rw [← next_inj h]; simp [*]

@[simp] theorem refreshDie_mem (d : Nat) (s : State)  : (refreshDie d s).mem = s.mem := by
  simp [refreshDie]

@[simp] theorem patrolRound_mem (k : Nat) (s : State)  : (patrolRound k s).mem = s.mem := by
  simp [patrolRound]

@[simp] theorem assayRun_mem (s : State) (c : Nat) (j : AJob)  : (assayRun s c j).2.mem = s.mem := by
  simp only [assayRun]; repeat' split
  all_goals simp_all

@[simp] theorem setJob_mem (s : State) (n : Nat) (j : AJob)  : (setJob s n j).mem = s.mem := by
  simp [setJob]

@[simp] theorem endJob_mem (s : State) (n : Nat) (j : AJob)  : (endJob s n j).mem = s.mem := by
  simp [endJob]

theorem execAssayReplay_canon (job : Nat) (s : State)  (nx : State) (h : execAssayReplay job s = .next nx) (hm : memOk s.mem = true) : memOk nx.mem = true := by
  unfold execAssayReplay at h; rw [← next_inj h]; repeat' split
  all_goals simp [*]

@[simp] theorem addPoints_mem (s : State) (c n : Nat)  : (addPoints s c n).mem = s.mem := by
  simp [addPoints]

@[simp] theorem addPass_mem (s : State) (c : Nat)  : (addPass s c).mem = s.mem := by
  simp [addPass]

@[simp] theorem quarantine_mem (s : State) (c : Nat)  : (quarantine s c).mem = s.mem := by
  simp [quarantine]

@[simp] theorem assayRecord_mem (s : State) (j : AJob) (r : Nat × List Byte) (third : Option Nat) (outcome : Nat)  : (assayRecord s j r third outcome).mem = s.mem := by
  simp [assayRecord]

theorem execAssayCompare_canon (job : Nat) (s : State)  (nx : State) (h : execAssayCompare job s = .next nx) (hm : memOk s.mem = true) : memOk nx.mem = true := by
  unfold execAssayCompare at h; rw [← next_inj h]; repeat' split
  all_goals simp [*]

@[simp] theorem resolveAssay_mem (s : State) (job : Nat) (j : AJob) (r : Nat × List Byte) (third : Option (Nat × List Byte))  : (resolveAssay s job j r third).mem = s.mem := by
  unfold resolveAssay; repeat' split
  all_goals simp [*]

theorem execAssayThirdRun_canon (job : Nat) (s : State)  (nx : State) (h : execAssayThirdRun job s = .next nx) (hm : memOk s.mem = true) : memOk nx.mem = true := by
  unfold execAssayThirdRun at h; rw [← next_inj h]; repeat' split
  all_goals simp [*]

theorem execAssayBoundExpiry_canon (job : Nat) (s : State)  (nx : State) (h : execAssayBoundExpiry job s = .next nx) (hm : memOk s.mem = true) : memOk nx.mem = true := by
  unfold execAssayBoundExpiry at h; rw [← next_inj h]; repeat' split
  all_goals simp [*]

theorem execQuarantineTimeout_canon (core : Nat) (s : State)  (nx : State) (h : execQuarantineTimeout core s = .next nx) (hm : memOk s.mem = true) : memOk nx.mem = true := by
  unfold execQuarantineTimeout at h; rw [← next_inj h]; simp [*]

end Sys2Proof.Laws
end

