-- ==== Sys2Proof/Laws/Canon5.lean ====
section
/-! SUPPORT. What each operation leaves of the memory; those that write keep its canonical form. -/

namespace Sys2Proof.Laws
open Sys2Proof.Machine

@[simp] theorem respond_mem (s : State) (hp : HPort) (l : List Byte) (bad : Bool)  : (respond s hp l bad).mem = s.mem := by
  simp [respond]

@[simp] theorem hostErrors_mem (s : State) (a n : Nat)  : (hostErrors s a n).mem = s.mem := by
  simp [hostErrors]

@[simp] theorem winUnits_canon (a : Nat) (l : List Byte) (o : Nat) (y0 : Nat) (s : State)  (hm : memOk s.mem = true) : memOk (winUnits a l o y0 s).mem = true := by
  induction y0 generalizing o s with
  | zero => exact hm
  | succ k ih => unfold winUnits; split
                 · exact hm
                 · exact ih _ _ (by simp [hm])

theorem execHostWindowAccess_canon (hp : HPort) (off : BitVec 22) (acc : HostAcc) (s : State)  (nx : State) (h : execHostWindowAccess hp off acc s = .next nx) (hm : memOk s.mem = true) : memOk nx.mem = true := by
  unfold execHostWindowAccess at h; rw [← next_inj h]; repeat' split
  all_goals simp [*]

@[simp] theorem setUnbacked_mem (s : State) (hp : HPort) (pa n : Nat)  : (setUnbacked s hp pa n).mem = s.mem := by
  simp [setUnbacked]

@[simp] theorem memRead_mem (s : State) (sectors : List (Nat × Nat))  : (memRead s sectors).2.mem = s.mem := by
  simp [memRead]

theorem execHostRawRead_canon (hp : HPort) (fn1 : Bool) (off : BitVec 42) (len : Nat) (s : State)  (nx : State) (h : execHostRawRead hp fn1 off len s = .next nx) (hm : memOk s.mem = true) : memOk nx.mem = true := by
  unfold execHostRawRead at h; rw [← next_inj h]; simp [*]

theorem execHostRawWrite_canon (hp : HPort) (fn1 : Bool) (off : BitVec 42) (data : List Byte) (s : State)  (nx : State) (h : execHostRawWrite hp fn1 off data s = .next nx) (hm : memOk s.mem = true) : memOk nx.mem = true := by
  unfold execHostRawWrite at h; rw [← next_inj h]; simp [*]

theorem execHostAtomicOp_canon (hp : HPort) (fn1 : Bool) (off : BitVec 42) (op : HostAtom) (s : State)  (nx : State) (h : execHostAtomicOp hp fn1 off op s = .next nx) (hm : memOk s.mem = true) : memOk nx.mem = true := by
  unfold execHostAtomicOp at h
  rw [← next_inj h]
  simp only
  repeat' split
  all_goals first | exact hm | (apply writeLoc_canon; simp [hm]) | simp [hm]

theorem flushCommand_canon (s : State) (hp : HPort) (dir : Nat) (order : Bool) (len : Word)  (nx : State) (h : flushCommand s hp dir order len = .next nx) (hm : memOk s.mem = true) : memOk nx.mem = true := by
  unfold flushCommand at h; refine submit_canon _ _ _ _ ?_ _ h hm; intro s hs; (try simp only []); repeat' split
  all_goals simp [hs]

theorem execFlushDeviceToHost_canon (hp : HPort) (order : Bool) (len : Word) (s : State)  (nx : State) (h : execFlushDeviceToHost hp order len s = .next nx) (hm : memOk s.mem = true) : memOk nx.mem = true := by
  unfold execFlushDeviceToHost at h; refine submit_canon _ _ _ _ ?_ _ h hm; intro s hs; (try simp only []); repeat' split
  all_goals simp [hs]

theorem execFlushHostToDevice_canon (hp : HPort) (order : Bool) (len : Word) (s : State)  (nx : State) (h : execFlushHostToDevice hp order len s = .next nx) (hm : memOk s.mem = true) : memOk nx.mem = true := by
  unfold execFlushHostToDevice at h; refine submit_canon _ _ _ _ ?_ _ h hm; intro s hs; (try simp only []); repeat' split
  all_goals simp [hs]

theorem execFlushBadDir_canon (hp : HPort) (dir : BitVec 8) (order : Bool) (len : Word) (s : State)  (nx : State) (h : execFlushBadDir hp dir order len s = .next nx) (hm : memOk s.mem = true) : memOk nx.mem = true := by
  unfold execFlushBadDir at h; refine submit_canon _ _ _ _ ?_ _ h hm; intro s hs; (try simp only []); repeat' split
  all_goals simp [hs]

@[simp] theorem flushOutSector_canon (s : State) (accepted pa out : Nat)  (hm : memOk s.mem = true) : memOk (flushOutSector s accepted pa out).mem = true := by
  simp [flushOutSector, *]

@[simp] theorem flushInSector_canon (s : State) (pa from1 : Nat)  (hm : memOk s.mem = true) : memOk (flushInSector s pa from1).mem = true := by
  simp [flushInSector, *]

@[simp] theorem flushMove_canon (s : State) (hp : HPort) (f : Flush) (l : List (Nat × Nat))  (hm : memOk s.mem = true) : memOk (flushMove s hp f l).mem = true := by
  simp only [flushMove]; repeat' split
  all_goals simp_all

@[simp] theorem flushTouch_mem (s : State) (wr : Bool) (pieces : List (Nat × Nat))  : (flushTouch s wr pieces).mem = s.mem := by
  simp [flushTouch]

@[simp] theorem flushDone_mem (s : State) (hp : HPort) (f : Flush) (st n : Nat)  : (flushDone s hp f st n).mem = s.mem := by
  simp [flushDone]

@[simp] theorem runFlush_canon (s : State) (hp : HPort) (f : Flush)  (hm : memOk s.mem = true) : memOk (runFlush s hp f).mem = true := by
  unfold runFlush
  split
  · simp [hm]
  · split
    · simp [hm]
    · split
      · simp [hm]
      · split
        · simp [hm]
        · dsimp only
          rename_i c _ _ _
          have hw : memOk (findWalks s c f.daddr f.len s.now f.ctx).mem = true := by simp [hm]
          rw [ite_mem]
          apply memOk_ite _ _ _ hw
          rw [flushDone_mem]
          apply flushMove_canon
          rw [flushTouch_mem, note_mem, ite_mem]
          apply memOk_ite _ _ _ ?_ hw
          exact foldS_canon _ (fun c s hs => by simp [hs]) _ _ hw

theorem execFlushComplete_canon (hp : HPort) (s : State)  (nx : State) (h : execFlushComplete hp s = .next nx) (hm : memOk s.mem = true) : memOk nx.mem = true := by
  unfold execFlushComplete at h; rw [← next_inj h]; repeat' split
  all_goals simp [*]

theorem execSubseqWrite_canon (hp : HPort) (v : Word) (s : State)  (nx : State) (h : execSubseqWrite hp v s = .next nx) (hm : memOk s.mem = true) : memOk nx.mem = true := by
  unfold execSubseqWrite at h; rw [← next_inj h]; simp [*]

theorem execCrReplay_canon (hp : HPort) (v : Word) (s : State)  (nx : State) (h : execCrReplay hp v s = .next nx) (hm : memOk s.mem = true) : memOk nx.mem = true := by
  unfold execCrReplay at h; rw [← next_inj h]; simp [*]

theorem execCompletionRecordWrite_canon (hp : HPort) (s : State)  (nx : State) (h : execCompletionRecordWrite hp s = .next nx) (hm : memOk s.mem = true) : memOk nx.mem = true := by
  unfold execCompletionRecordWrite at h; rw [← next_inj h]; repeat' split
  all_goals simp [*]

@[simp] theorem movePage_canon (s : State) (a b : Nat)  (hm : memOk s.mem = true) : memOk (movePage s a b).mem = true := by
  simp [movePage, *]

@[simp] theorem returnPage_mem (s : State) (a b : Nat)  : (returnPage s a b).mem = s.mem := by
  simp [returnPage]

@[simp] theorem demote_canon (s : State) (m : Mig)  (hm : memOk s.mem = true) : memOk (demote s m).mem = true := by
  simp [demote, *]

theorem execMigrationPromote_canon (ctx : Word) (va : BitVec 64) (s : State)  (nx : State) (h : execMigrationPromote ctx va s = .next nx) (hm : memOk s.mem = true) : memOk nx.mem = true := by
  unfold execMigrationPromote at h; simp only at h; rw [← next_inj h]; repeat' split
  all_goals simp_all

@[simp] theorem lateWrite_mem (s : State) (b : Nat) (e : LogEntry) (x : LogThr) (ws : List Word)  : (lateWrite s b e x ws).mem = s.mem := by
  unfold lateWrite; repeat' split
  all_goals simp [*]

@[simp] theorem lateJournal_mem (s : State) (b g : Nat) (e : LogEntry) (x : LogThr) (imm : Option Nat) (bs : List Byte)  : (lateJournal s b g e x imm bs).mem = s.mem := by
  unfold lateJournal; split <;> simp [*]

@[simp] theorem lateAccess_canon (s : State) (b g : Nat) (e : LogEntry) (x : LogThr) (h : Hit)  (hm : memOk s.mem = true) : memOk (lateAccess s b g e x h).mem = true := by
  unfold lateAccess; repeat' split
  all_goals simp [*]

@[simp] theorem heldOne_canon (m : Mig) (b g : Nat) (e : LogEntry) (x : LogThr) (s : State)  (hm : memOk s.mem = true) : memOk (heldOne m b g e x s).mem = true := by
  simp only [heldOne]; repeat' split
  all_goals simp_all

@[simp] theorem performHeld_canon (m : Mig) (s : State)  (hm : memOk s.mem = true) : memOk (performHeld m s).mem = true := by
  unfold performHeld
  refine foldS_canon _ ?_ _ _ hm
  intro h s hs
  refine foldS_canon _ ?_ _ _ hs
  intro x s hs
  simp [hs]

@[simp] theorem switchPrefs_mem (s : State) (home : Nat)  : (switchPrefs s home).mem = s.mem := by
  simp [switchPrefs]

theorem execPageSwitch_canon (idx : Nat) (s : State)  (nx : State) (h : execPageSwitch idx s = .next nx) (hm : memOk s.mem = true) : memOk nx.mem = true := by
  unfold execPageSwitch at h
  rw [← next_inj h]
  split
  · exact hm
  · split
    · exact hm
    · refine foldS_canon _ (fun c s hs => by simp [hs]) _ _ (performHeld_canon _ _ ?_)
      simp [hm]

theorem execPrefDeadline_canon (blk grp : Nat) (s : State)  (nx : State) (h : execPrefDeadline blk grp s = .next nx) (hm : memOk s.mem = true) : memOk nx.mem = true := by
  unfold execPrefDeadline at h; rw [← next_inj h]; repeat' split
  all_goals simp [*]

theorem execTenantWrite_canon (hp : HPort) (k : Fin 16) (v : Word) (s : State)  (nx : State) (h : execTenantWrite hp k v s = .next nx) (hm : memOk s.mem = true) : memOk nx.mem = true := by
  unfold execTenantWrite at h; rw [← next_inj h]; simp [*]

theorem execWinownWrite_canon (hp : HPort) (f : Fin 128) (v : Word) (s : State)  (nx : State) (h : execWinownWrite hp f v s = .next nx) (hm : memOk s.mem = true) : memOk nx.mem = true := by
  unfold execWinownWrite at h; rw [← next_inj h]; simp [*]

theorem execMigpoolWrite_canon (hp : HPort) (k : Fin 16) (v : BitVec 64) (s : State)  (nx : State) (h : execMigpoolWrite hp k v s = .next nx) (hm : memOk s.mem = true) : memOk nx.mem = true := by
  unfold execMigpoolWrite at h
  rw [← next_inj h]
  refine asManager_canon _ _ _ ?_ hm
  intro s hs
  split
  · simp [hs]
  · simp only [modSh_mem]
    refine foldS_canon _ ?_ _ _ hs
    intro m s hs
    split
    · simp [hs]
    · exact hs

theorem execUvctlWrite_canon (hp : HPort) (x : Fin 4) (v : Word) (s : State)  (nx : State) (h : execUvctlWrite hp x v s = .next nx) (hm : memOk s.mem = true) : memOk nx.mem = true := by
  unfold execUvctlWrite at h
  rw [← next_inj h]
  exact asManager_canon _ _ _ (fun s hs => by simp [hs]) hm

@[simp] theorem invalidate_mem (s : State) (hp : HPort) (page : Option Nat)  : (invalidate s hp page).mem = s.mem := by
  simp [invalidate]

theorem execInvalidateAll_canon (hp : HPort) (s : State)  (nx : State) (h : execInvalidateAll hp s = .next nx) (hm : memOk s.mem = true) : memOk nx.mem = true := by
  unfold execInvalidateAll at h; rw [← next_inj h]; simp [*]

theorem execInvalidatePage_canon (hp : HPort) (va : BitVec 57) (s : State)  (nx : State) (h : execInvalidatePage hp va s = .next nx) (hm : memOk s.mem = true) : memOk nx.mem = true := by
  unfold execInvalidatePage at h; rw [← next_inj h]; simp [*]

theorem execInvalidateComplete_canon (hp : HPort) (s : State)  (nx : State) (h : execInvalidateComplete hp s = .next nx) (hm : memOk s.mem = true) : memOk nx.mem = true := by
  unfold execInvalidateComplete at h; rw [← next_inj h]; simp [*]

@[simp] theorem replayFault_mem (s : State) (hp : HPort) (f : PFault)  : (replayFault s hp f).mem = s.mem := by
  simp [replayFault]

theorem execReplayByToken_canon (hp : HPort) (token : Word) (s : State)  (nx : State) (h : execReplayByToken hp token s = .next nx) (hm : memOk s.mem = true) : memOk nx.mem = true := by
  unfold execReplayByToken at h; rw [← next_inj h]; repeat' split
  all_goals simp [*]

theorem execReplayByPage_canon (hp : HPort) (va : BitVec 57) (s : State)  (nx : State) (h : execReplayByPage hp va s = .next nx) (hm : memOk s.mem = true) : memOk nx.mem = true := by
  unfold execReplayByPage at h; rw [← next_inj h]; repeat' split
  all_goals simp [*]

theorem execActiveReadyBound_canon (blk grp : Nat) (s : State)  (nx : State) (h : execActiveReadyBound blk grp s = .next nx) (hm : memOk s.mem = true) : memOk nx.mem = true := by
  unfold execActiveReadyBound at h; rw [← next_inj h]; simp [*]

theorem execPendingReadyBound_canon (blk grp : Nat) (s : State)  (nx : State) (h : execPendingReadyBound blk grp s = .next nx) (hm : memOk s.mem = true) : memOk nx.mem = true := by
  unfold execPendingReadyBound at h; rw [← next_inj h]; simp [*]

theorem execClassWindowEnd_canon (core : Nat) (s : State)  (nx : State) (h : execClassWindowEnd core s = .next nx) (hm : memOk s.mem = true) : memOk nx.mem = true := by
  unfold execClassWindowEnd at h; rw [← next_inj h]; simp [*]

theorem execSleepWake_canon (core : Nat) (s : State)  (nx : State) (h : execSleepWake core s = .next nx) (hm : memOk s.mem = true) : memOk nx.mem = true := by
  unfold execSleepWake at h; rw [← next_inj h]; simp [*]

@[simp] theorem lateErrors_mem (s : State) (p : Pass) (m : Mem) (x : LogThr)  : (lateErrors s p m x).mem = s.mem := by
  simp [lateErrors]

@[simp] theorem redoOne_canon (b g k : Nat) (e : LogEntry) (x : LogThr) (r : Redo)  (hm : memOk r.s.mem = true) : memOk (redoOne b g k e x r).s.mem = true := by
  simp only [redoOne]; repeat' split
  all_goals simp_all

@[simp] theorem redoGath_mem (s : State) (b g : Nat) (e : LogEntry) (x : LogThr)  : (redoGath s b g e x).s.mem = s.mem := by
  unfold redoGath
  dsimp only
  repeat' split
  all_goals simp

@[simp] theorem reissue_canon (s : State) (b g k : Nat) (e : LogEntry) (y : Group)  (hm : memOk s.mem = true) : memOk (reissue s b g k e y).mem = true := by
  have hr : memOk (if e.acc = 3 then (match e.thr with
      | x :: _ => redoGath s b g e x | [] => { s := s, left := [], token := e.token, woken := e.woken, bad := none })
    else foldS (fun x r => redoOne b g k e x r) e.thr { s := s, left := [], token := e.token, woken := e.woken, bad := none } : Redo).s.mem = true := by
    split
    · split
      · rw [redoGath_mem]; exact hm
      · exact hm
    · exact foldSRedo_canon _ (fun x r hr => redoOne_canon _ _ _ _ _ _ hr) _ _ hm
  unfold reissue
  dsimp only
  generalize (if e.acc = 3 then (match e.thr with
      | x :: _ => redoGath s b g e x | [] => { s := s, left := [], token := e.token, woken := e.woken, bad := none })
    else foldS (fun x r => redoOne b g k e x r) e.thr { s := s, left := [], token := e.token, woken := e.woken, bad := none } : Redo) = r at hr ⊢
  repeat' split
  all_goals simp [hr]

theorem execLoggedReissue_canon (blk grp : Nat) (s : State)  (nx : State) (h : execLoggedReissue blk grp s = .next nx) (hm : memOk s.mem = true) : memOk nx.mem = true := by
  unfold execLoggedReissue at h; rw [← next_inj h]; repeat' split
  all_goals simp [*]

theorem execMemoryReturn_canon (blk grp : Nat) (s : State)  (nx : State) (h : execMemoryReturn blk grp s = .next nx) (hm : memOk s.mem = true) : memOk nx.mem = true := by
  unfold execMemoryReturn at h; rw [← next_inj h]; simp [*]

@[simp] theorem writeAway_mem (b : Nat) (l : List (Nat × Nat × Word)) (s : State)  : (writeAway b l s).mem = s.mem := by
  simp [writeAway]

theorem execMmaComplete_canon (blk grp : Nat) (s : State)  (nx : State) (h : execMmaComplete blk grp s = .next nx) (hm : memOk s.mem = true) : memOk nx.mem = true := by
  unfold execMmaComplete at h; rw [← next_inj h]; repeat' split
  all_goals simp [*]

@[simp] theorem unpendAway_mem (b : Nat) (l : List (Nat × Nat × Word)) (s : State)  : (unpendAway b l s).mem = s.mem := by
  simp [unpendAway]

@[simp] theorem mmaAbandon_mem (s : State) (b g : Nat)  : (mmaAbandon s b g).mem = s.mem := by
  unfold mmaAbandon; repeat' split
  all_goals simp [*]

@[simp] theorem hangUnit_mem (core part : Nat) (s : State)  : (hangUnit core part s).mem = s.mem := by
  simp [hangUnit]

theorem execMatrixUnitReset_canon (core : Nat) (part : Fin 4) (s : State)  (nx : State) (h : execMatrixUnitReset core part s = .next nx) (hm : memOk s.mem = true) : memOk nx.mem = true := by
  unfold execMatrixUnitReset at h; simp only at h; rw [← next_inj h]; repeat' split
  all_goals simp_all

theorem execCopyComplete_canon (blk grp : Nat) (s : State)  (nx : State) (h : execCopyComplete blk grp s = .next nx) (hm : memOk s.mem = true) : memOk nx.mem = true := by
  unfold execCopyComplete at h; rw [← next_inj h]; repeat' split
  all_goals simp [*]

theorem execGatherComplete_canon (blk grp : Nat) (s : State)  (nx : State) (h : execGatherComplete blk grp s = .next nx) (hm : memOk s.mem = true) : memOk nx.mem = true := by
  unfold execGatherComplete at h; rw [← next_inj h]; repeat' split
  all_goals simp [*]

theorem execForemanEvaluate_canon (cluster : Fin 96) (s : State)  (nx : State) (h : execForemanEvaluate cluster s = .next nx) (hm : memOk s.mem = true) : memOk nx.mem = true := by
  unfold execForemanEvaluate at h
  rw [← next_inj h]
  simp only
  split
  · exact hm
  · split
    · exact hm
    · split
      · exact hm
      · split
        · exact hm
        · simp [hm]

theorem execQueueWindowRefill_canon (core : Nat) (q : Fin 16) (s : State)  (nx : State) (h : execQueueWindowRefill core q s = .next nx) (hm : memOk s.mem = true) : memOk nx.mem = true := by
  unfold execQueueWindowRefill at h; rw [← next_inj h]; simp [*]

theorem execContinuationEnqueue_canon (cluster : Fin 96) (q : Fin 16) (s : State)  (nx : State) (h : execContinuationEnqueue cluster q s = .next nx) (hm : memOk s.mem = true) : memOk nx.mem = true := by
  unfold execContinuationEnqueue at h; rw [← next_inj h]; dsimp only; repeat' split
  all_goals simp [*]

theorem execBankDrainComplete_canon (cluster : Fin 96) (bank : Fin 16) (s : State)  (nx : State) (h : execBankDrainComplete cluster bank s = .next nx) (hm : memOk s.mem = true) : memOk nx.mem = true := by
  unfold execBankDrainComplete at h; rw [← next_inj h]; simp [*]

@[simp] theorem yieldSlot_mem (s : State) (x : Block) (y : Group)  : (yieldSlot s x y).mem = s.mem := by
  refine foldS_mem _ (fun l s => ?_) _ _
  simp only
  repeat' split
  all_goals simp

@[simp] theorem resumeGroup_mem (skip step : Bool) (b g : Nat) (s : State)  : (resumeGroup skip step b g s).mem = s.mem := by
  unfold resumeGroup; repeat' split
  all_goals simp [*]

@[simp] theorem resumeAll_mem (s : State) (ctx : Word)  : (resumeAll s ctx).mem = s.mem := by
  simp [resumeAll]

theorem execDbgctxWrite_canon (hp : HPort) (v : Word) (s : State)  (nx : State) (h : execDbgctxWrite hp v s = .next nx) (hm : memOk s.mem = true) : memOk nx.mem = true := by
  unfold execDbgctxWrite at h; rw [← next_inj h]; simp [*]

theorem execDbgPop_canon (hp : HPort) (s : State)  (nx : State) (h : execDbgPop hp s = .next nx) (hm : memOk s.mem = true) : memOk nx.mem = true := by
  unfold execDbgPop at h; rw [← next_inj h]; simp [*]

@[simp] theorem dbgEnd_mem (st : Nat) (hp : HPort) (s : State)  : (dbgEnd st hp s).mem = s.mem := by
  simp [dbgEnd]

theorem dbgCommand_canon (hp : HPort) (a : DbgArg) (halted : Bool) (f : Nat → Block → Group → State → Nat × State) (s : State) (hf : ∀ (a0 : Nat) (a1 : Block) (a2 : Group) (s : State), memOk s.mem = true → memOk (f a0 a1 a2 s).2.mem = true) (nx : State) (h : dbgCommand hp a halted f s = .next nx) (hm : memOk s.mem = true) : memOk nx.mem = true := by
  unfold dbgCommand at h; rw [← next_inj h]; repeat' split
  all_goals simp [*]

@[simp] theorem haltAll_mem (s : State) (ctx : Word)  : (haltAll s ctx).mem = s.mem := by
  simp [haltAll]

theorem execDbgHalt_canon (hp : HPort) (cmd : DbgArg) (s : State)  (nx : State) (h : execDbgHalt hp cmd s = .next nx) (hm : memOk s.mem = true) : memOk nx.mem = true := by
  unfold execDbgHalt at h
  split at h
  · rw [← next_inj h]
    repeat' split
    all_goals simp [hm]
  · refine dbgCommand_canon _ _ _ _ _ ?_ _ h hm
    intro b x y s hs
    simp [hs]

theorem execDbgResume_canon (hp : HPort) (cmd : DbgArg) (s : State)  (nx : State) (h : execDbgResume hp cmd s = .next nx) (hm : memOk s.mem = true) : memOk nx.mem = true := by
  unfold execDbgResume at h; rw [← next_inj h]; repeat' split
  all_goals simp [*]

theorem execDbgStep_canon (hp : HPort) (cmd : DbgArg) (s : State)  (nx : State) (h : execDbgStep hp cmd s = .next nx) (hm : memOk s.mem = true) : memOk nx.mem = true := by
  unfold execDbgStep at h; rw [← next_inj h]; repeat' split
  all_goals simp [*]

@[simp] theorem dbgRead_mem (hp : HPort) (past : Bool) (w : Word) (s : State)  : (dbgRead hp past w s).2.mem = s.mem := by
  unfold dbgRead; split <;> simp [*]

theorem execDbgRdv_canon (hp : HPort) (cmd : DbgArg) (s : State)  (nx : State) (h : execDbgRdv hp cmd s = .next nx) (hm : memOk s.mem = true) : memOk nx.mem = true := by
  unfold execDbgRdv at h; rw [← next_inj h]; repeat' split
  all_goals simp [*]

theorem execDbgRds_canon (hp : HPort) (cmd : DbgArg) (s : State)  (nx : State) (h : execDbgRds hp cmd s = .next nx) (hm : memOk s.mem = true) : memOk nx.mem = true := by
  unfold execDbgRds at h; rw [← next_inj h]; repeat' split
  all_goals simp [*]

theorem execDbgWrv_canon (hp : HPort) (cmd : DbgArg) (s : State)  (nx : State) (h : execDbgWrv hp cmd s = .next nx) (hm : memOk s.mem = true) : memOk nx.mem = true := by
  unfold execDbgWrv at h; refine dbgCommand_canon _ _ _ _ _ ?_ _ h hm; intro b x y s hs; (try simp only []); repeat' split
  all_goals simp [hs]

theorem execDbgWrs_canon (hp : HPort) (cmd : DbgArg) (s : State)  (nx : State) (h : execDbgWrs hp cmd s = .next nx) (hm : memOk s.mem = true) : memOk nx.mem = true := by
  unfold execDbgWrs at h; refine dbgCommand_canon _ _ _ _ _ ?_ _ h hm; intro b x y s hs; (try simp only []); repeat' split
  all_goals simp [hs]

theorem execDbgBadop_canon (hp : HPort) (_op : BitVec 4) (s : State)  (nx : State) (h : execDbgBadop hp _op s = .next nx) (hm : memOk s.mem = true) : memOk nx.mem = true := by
  unfold execDbgBadop at h; rw [← next_inj h]; simp [*]

@[simp] theorem finishBoot_canon (s : State)  (hm : memOk s.mem = true) : memOk (finishBoot s).mem = true := by
  simp [finishBoot, *]

@[simp] theorem failBoot_mem (s : State)  : (failBoot s).mem = s.mem := by
  simp [failBoot]

@[simp] theorem tryBoot_canon (s : State)  (hm : memOk s.mem = true) : memOk (tryBoot s).mem = true := by
  simp only [tryBoot]; repeat' split
  all_goals simp_all

theorem execBringUp_canon (s : State)  (nx : State) (h : execBringUp s = .next nx) (hm : memOk s.mem = true) : memOk nx.mem = true := by
  unfold execBringUp at h; rw [← next_inj h]; simp [*]

@[simp] theorem install_canon (k : Nat × List Byte) (s : State)  (hm : memOk s.mem = true) : memOk (install k s).mem = true := by
  simp [install, *]

@[simp] theorem powerCycle_canon (s : State)  (hm : memOk s.mem = true) : memOk (powerCycle s).mem = true := by
  simp [powerCycle, *]

@[simp] theorem answer_mem (hp : HPort) (tag : Word) (st : Nat) (resp : List Byte) (s : State)  : (answer hp tag st resp s).mem = s.mem := by
  simp [answer]

theorem mailbox_canon (hp : HPort) (tag : Word) (len : BitVec 13) (mgr boot : Bool) (ok : List Byte → Bool) (f : List Byte → State → Ans)
    (hf : ∀ l s, memOk s.mem = true → memOk (f l s).s.mem = true) (s nx : State) (h : mailbox hp tag len mgr boot ok f s = .next nx)
    (hm : memOk s.mem = true) : memOk nx.mem = true := by
  unfold mailbox at h
  rw [← next_inj h]
  simp only
  repeat' split
  all_goals simp [hm, hf]

theorem execCtxNew_canon (hp : HPort) (tag : Word) (len : BitVec 13) (s : State)  (nx : State) (h : execCtxNew hp tag len s = .next nx) (hm : memOk s.mem = true) : memOk nx.mem = true := by
  unfold execCtxNew at h; refine mailbox_canon _ _ _ _ _ _ _ ?_ _ _ h hm; intro l s hs; (try simp only []); repeat' split
  all_goals simp [ans, hs]

@[simp] theorem endCtx_mem (s : State) (ctx : Word)  : (endCtx s ctx).mem = s.mem := by
  simp [endCtx]

theorem execCtxEnd_canon (hp : HPort) (tag : Word) (len : BitVec 13) (s : State)  (nx : State) (h : execCtxEnd hp tag len s = .next nx) (hm : memOk s.mem = true) : memOk nx.mem = true := by
  unfold execCtxEnd at h; refine mailbox_canon _ _ _ _ _ _ _ ?_ _ _ h hm; intro l s hs; (try simp only []); repeat' split
  all_goals simp [ans, hs]

@[simp] theorem markShared_mem (s : State)  : (markShared s).mem = s.mem := by
  simp [markShared]

theorem execSetClu_canon (hp : HPort) (tag : Word) (len : BitVec 13) (s : State)  (nx : State) (h : execSetClu hp tag len s = .next nx) (hm : memOk s.mem = true) : memOk nx.mem = true := by
  unfold execSetClu at h; refine mailbox_canon _ _ _ _ _ _ _ ?_ _ _ h hm; intro l s hs; (try simp only []); repeat' split
  all_goals simp [ans, hs]

theorem execGetClu_canon (hp : HPort) (tag : Word) (len : BitVec 13) (s : State)  (nx : State) (h : execGetClu hp tag len s = .next nx) (hm : memOk s.mem = true) : memOk nx.mem = true := by
  unfold execGetClu at h; rw [← next_inj h]; simp [*]

@[simp] theorem powerRails_mem (s : State)  : (powerRails s).mem = s.mem := by
  unfold powerRails; rw [foldS_mem]; intro x s; rfl

@[simp] theorem setRailOf_canon (s : State) (k x : Nat)  (hm : memOk s.mem = true) : memOk (setRailOf s k x).mem = true := by
  simp [setRailOf, *]

theorem execSetRail_canon (hp : HPort) (tag : Word) (len : BitVec 13) (s : State)  (nx : State) (h : execSetRail hp tag len s = .next nx) (hm : memOk s.mem = true) : memOk nx.mem = true := by
  unfold execSetRail at h; refine mailbox_canon _ _ _ _ _ _ _ ?_ _ _ h hm; intro l s hs; (try simp only []); repeat' split
  all_goals simp [ans, hs]

theorem execRailOn_canon (hp : HPort) (tag : Word) (len : BitVec 13) (s : State)  (nx : State) (h : execRailOn hp tag len s = .next nx) (hm : memOk s.mem = true) : memOk nx.mem = true := by
  unfold execRailOn at h; refine mailbox_canon _ _ _ _ _ _ _ ?_ _ _ h hm; intro l s hs; (try simp only []); repeat' split
  all_goals simp [ans, hs]

theorem execSetSlope_canon (hp : HPort) (tag : Word) (len : BitVec 13) (s : State)  (nx : State) (h : execSetSlope hp tag len s = .next nx) (hm : memOk s.mem = true) : memOk nx.mem = true := by
  unfold execSetSlope at h; refine mailbox_canon _ _ _ _ _ _ _ ?_ _ _ h hm; intro l s hs; (try simp only []); repeat' split
  all_goals simp [ans, hs]

theorem execClrAcct_canon (hp : HPort) (tag : Word) (len : BitVec 13) (s : State)  (nx : State) (h : execClrAcct hp tag len s = .next nx) (hm : memOk s.mem = true) : memOk nx.mem = true := by
  unfold execClrAcct at h; refine mailbox_canon _ _ _ _ _ _ _ ?_ _ _ h hm; intro l s hs; (try simp only []); repeat' split
  all_goals simp [ans, hs]

@[simp] theorem attachDebug_mem (s : State)  : (attachDebug s).mem = s.mem := by
  simp [attachDebug]

@[simp] theorem setDebug_mem (s : State) (p : HPort) (en : Bool)  : (setDebug s p en).mem = s.mem := by
  simp [setDebug]

theorem execDebugCmd_canon (hp : HPort) (tag : Word) (len : BitVec 13) (s : State)  (nx : State) (h : execDebugCmd hp tag len s = .next nx) (hm : memOk s.mem = true) : memOk nx.mem = true := by
  unfold execDebugCmd at h; refine mailbox_canon _ _ _ _ _ _ _ ?_ _ _ h hm; intro l s hs; (try simp only []); repeat' split
  all_goals simp [ans, hs]

theorem execCommSet_canon (hp : HPort) (tag : Word) (len : BitVec 13) (s : State)  (nx : State) (h : execCommSet hp tag len s = .next nx) (hm : memOk s.mem = true) : memOk nx.mem = true := by
  unfold execCommSet at h; refine mailbox_canon _ _ _ _ _ _ _ ?_ _ _ h hm; intro l s hs; (try simp only []); repeat' split
  all_goals simp [ans, hs]

theorem execCommClr_canon (hp : HPort) (tag : Word) (len : BitVec 13) (s : State)  (nx : State) (h : execCommClr hp tag len s = .next nx) (hm : memOk s.mem = true) : memOk nx.mem = true := by
  unfold execCommClr at h; refine mailbox_canon _ _ _ _ _ _ _ ?_ _ _ h hm; intro l s hs; (try simp only []); repeat' split
  all_goals simp [ans, hs]

theorem execIdentCmd_canon (hp : HPort) (tag : Word) (len : BitVec 13) (s : State)  (nx : State) (h : execIdentCmd hp tag len s = .next nx) (hm : memOk s.mem = true) : memOk nx.mem = true := by
  unfold execIdentCmd at h; rw [← next_inj h]; simp [*]

theorem execAttest_canon (hp : HPort) (tag : Word) (len : BitVec 13) (s : State)  (nx : State) (h : execAttest hp tag len s = .next nx) (hm : memOk s.mem = true) : memOk nx.mem = true := by
  unfold execAttest at h; rw [← next_inj h]; simp [*]

theorem execImgBegin_canon (hp : HPort) (tag : Word) (len : BitVec 13) (s : State)  (nx : State) (h : execImgBegin hp tag len s = .next nx) (hm : memOk s.mem = true) : memOk nx.mem = true := by
  unfold execImgBegin at h; refine mailbox_canon _ _ _ _ _ _ _ ?_ _ _ h hm; intro l s hs; (try simp only []); repeat' split
  all_goals simp [ans, hs]

theorem execImgData_canon (hp : HPort) (tag : Word) (len : BitVec 13) (s : State)  (nx : State) (h : execImgData hp tag len s = .next nx) (hm : memOk s.mem = true) : memOk nx.mem = true := by
  unfold execImgData at h; refine mailbox_canon _ _ _ _ _ _ _ ?_ _ _ h hm; intro l s hs; (try simp only []); repeat' split
  all_goals simp [ans, hs]

theorem execImgEnd_canon (hp : HPort) (tag : Word) (len : BitVec 13) (s : State)  (nx : State) (h : execImgEnd hp tag len s = .next nx) (hm : memOk s.mem = true) : memOk nx.mem = true := by
  unfold execImgEnd at h; refine mailbox_canon _ _ _ _ _ _ _ ?_ _ _ h hm; intro l s hs; (try simp only []); repeat' split
  all_goals simp [ans, hs]

theorem execCommitCmd_canon (hp : HPort) (tag : Word) (len : BitVec 13) (s : State)  (nx : State) (h : execCommitCmd hp tag len s = .next nx) (hm : memOk s.mem = true) : memOk nx.mem = true := by
  unfold execCommitCmd at h; refine mailbox_canon _ _ _ _ _ _ _ ?_ _ _ h hm; intro l s hs; (try simp only []); repeat' split
  all_goals simp [ans, hs]

theorem execMailboxBadop_canon (hp : HPort) (tag : Word) (_len : BitVec 13) (_op : BitVec 8) (s : State)  (nx : State) (h : execMailboxBadop hp tag _len _op s = .next nx) (hm : memOk s.mem = true) : memOk nx.mem = true := by
  unfold execMailboxBadop at h; rw [← next_inj h]; repeat' split
  all_goals simp [*]

theorem mailCommand_canon (hp : HPort) (tag : Word) (len : BitVec 13) (op : Nat) (s : State)  (nx : State) (h : mailCommand hp tag len op s = .next nx) (hm : memOk s.mem = true) : memOk nx.mem = true := by
  unfold mailCommand at h
  split at h
  · exact execCtxNew_canon _ _ _ _ _ h hm
  · exact execCtxEnd_canon _ _ _ _ _ h hm
  · exact execSetClu_canon _ _ _ _ _ h hm
  · exact execGetClu_canon _ _ _ _ _ h hm
  · exact execSetRail_canon _ _ _ _ _ h hm
  · exact execRailOn_canon _ _ _ _ _ h hm
  · exact execSetSlope_canon _ _ _ _ _ h hm
  · exact execClrAcct_canon _ _ _ _ _ h hm
  · exact execDebugCmd_canon _ _ _ _ _ h hm
  · exact execCommSet_canon _ _ _ _ _ h hm
  · exact execCommClr_canon _ _ _ _ _ h hm
  · exact execIdentCmd_canon _ _ _ _ _ h hm
  · exact execAttest_canon _ _ _ _ _ h hm
  · exact execImgBegin_canon _ _ _ _ _ h hm
  · exact execImgData_canon _ _ _ _ _ h hm
  · exact execImgEnd_canon _ _ _ _ _ h hm
  · exact execCommitCmd_canon _ _ _ _ _ h hm
  · exact execMailboxBadop_canon _ _ _ _ _ _ h hm

@[simp] theorem mailRun_canon (hp : HPort) (w : BitVec 64) (s : State)  (hm : memOk s.mem = true) : memOk (mailRun hp w s).mem = true := by
  unfold mailRun
  dsimp only
  repeat' split
  · exact hm
  · simp [hm]
  · rename_i h; exact mailCommand_canon _ _ _ _ _ _ h hm
  · exact hm

@[simp] theorem performMail_canon (s : State)  (hm : memOk s.mem = true) : memOk (performMail s).mem = true := by
  unfold performMail
  split <;> simp [hm]

@[simp] theorem submitMail_mem (hp : HPort) (w : BitVec 64) (s : State)  : (submitMail hp w s).mem = s.mem := by
  unfold submitMail
  repeat' split
  all_goals simp

@[simp] theorem read4_mem (s : State) (hp : HPort) (off : Nat)  : (read4 s hp off).2.mem = s.mem := by
  unfold read4; repeat' split
  all_goals simp [*]

@[simp] theorem badAccess_mem (s : State) (hp : HPort)  : (badAccess s hp).mem = s.mem := by
  simp [badAccess]

theorem execReadLatchLoad_canon (hp : HPort) (off : BitVec 26) (size : Nat) (s : State)  (nx : State) (h : execReadLatchLoad hp off size s = .next nx) (hm : memOk s.mem = true) : memOk nx.mem = true := by
  unfold execReadLatchLoad at h; rw [← next_inj h]; simp [*]

@[simp] theorem nextOf_canon (f : State → Out) (hf : ∀ s nx, f s = .next nx → memOk s.mem = true → memOk nx.mem = true) (s : State)
    (hm : memOk s.mem = true) : memOk (nextOf f s).mem = true := by
  unfold nextOf
  split
  · rename_i h; exact hf _ _ h hm
  · exact hm

@[simp] theorem writeTrigger_canon (hp : HPort) (v : Nat) (s : State)  (hm : memOk s.mem = true) : memOk (writeTrigger hp v s).mem = true := by
  unfold writeTrigger
  split
  · exact nextOf_canon _ (fun _ _ h hs => execTriggerLaunch_canon _ _ _ _ _ _ _ _ h hs) _ hm
  · exact nextOf_canon _ (fun _ _ h hs => execTriggerLoad_canon _ _ _ _ _ _ h hs) _ hm
  · exact nextOf_canon _ (fun _ _ h hs => execTriggerUnload_canon _ _ _ _ _ h hs) _ hm
  · exact nextOf_canon _ (fun _ _ h hs => execTriggerBadop_canon _ _ _ _ _ h hs) _ hm

@[simp] theorem writeFlush_canon (hp : HPort) (k : Nat) (m v : BitVec 64) (s : State)  (hm : memOk s.mem = true) : memOk (writeFlush hp k m v s).mem = true := by
  unfold writeFlush
  split
  · dsimp only; split <;> simp [hm]
  · dsimp only; split <;> simp [hm]
  · dsimp only; split <;> simp [hm]
  · dsimp only
    split
    · exact nextOf_canon _ (fun _ _ h hs => execFlushDeviceToHost_canon _ _ _ _ _ h hs) _ hm
    · exact nextOf_canon _ (fun _ _ h hs => execFlushHostToDevice_canon _ _ _ _ _ h hs) _ hm
    · exact nextOf_canon _ (fun _ _ h hs => execFlushBadDir_canon _ _ _ _ _ _ h hs) _ hm

@[simp] theorem writeDbgcmd_canon (hp : HPort) (v : Nat) (s : State)  (hm : memOk s.mem = true) : memOk (writeDbgcmd hp v s).mem = true := by
  unfold writeDbgcmd
  split
  · exact nextOf_canon _ (fun _ _ h hs => execDbgHalt_canon _ _ _ _ h hs) _ hm
  · exact nextOf_canon _ (fun _ _ h hs => execDbgResume_canon _ _ _ _ h hs) _ hm
  · exact nextOf_canon _ (fun _ _ h hs => execDbgStep_canon _ _ _ _ h hs) _ hm
  · exact nextOf_canon _ (fun _ _ h hs => execDbgRdv_canon _ _ _ _ h hs) _ hm
  · exact nextOf_canon _ (fun _ _ h hs => execDbgWrv_canon _ _ _ _ h hs) _ hm
  · exact nextOf_canon _ (fun _ _ h hs => execDbgRds_canon _ _ _ _ h hs) _ hm
  · exact nextOf_canon _ (fun _ _ h hs => execDbgWrs_canon _ _ _ _ h hs) _ hm
  · exact nextOf_canon _ (fun _ _ h hs => execDbgBadop_canon _ _ _ _ h hs) _ hm

@[simp] theorem writeLnkctl_canon (hp : HPort) (p : Nat) (v : Nat) (s : State)  (hm : memOk s.mem = true) : memOk (writeLnkctl hp p v s).mem = true := by
  unfold writeLnkctl
  split
  · exact asManager_canon _ _ _ (fun s hs => by simp [hs]) hm
  · refine asManager_canon _ _ _ ?_ hm
    intro s hs
    split <;> simp [hs]

@[simp] theorem writeTrreplay_canon (hp : HPort) (v : Nat) (s : State)  (hm : memOk s.mem = true) : memOk (writeTrreplay hp v s).mem = true := by
  unfold writeTrreplay
  refine nextOf_canon _ ?_ _ hm
  intro s nx h hs
  split at h
  · exact execReplayByToken_canon _ _ _ _ h hs
  · exact execReplayByPage_canon _ _ _ _ h hs

@[simp] theorem writeTrrctx_mem (hp : HPort) (v : Word) (s : State)  : (writeTrrctx hp v s).mem = s.mem := by
  simp [writeTrrctx]

@[simp] theorem writeReg_canon (hp : HPort) (r : BReg) (m v : BitVec 64) (s : State)  (hm : memOk s.mem = true) : memOk (writeReg hp r m v s).mem = true := by
  have inval (c : Bool) (w : BitVec 57) : memOk (nextOf (if c then execInvalidateAll hp else execInvalidatePage hp w) s).mem = true := by
    cases c
    · exact nextOf_canon (execInvalidatePage hp w) (fun _ _ h hs => execInvalidatePage_canon _ _ _ _ h hs) _ hm
    · exact nextOf_canon (execInvalidateAll hp) (fun _ _ h hs => execInvalidateAll_canon _ _ _ h hs) _ hm
  have mgr (f : State → State) (hf : ∀ s, (f s).mem = s.mem) : memOk (asManager s hp f).mem = true := by rw [asManager_mem _ _ _ hf]; exact hm
  cases r with
  | trigger => exact writeTrigger_canon _ _ _ hm
  | loadstat => exact hm
  | subseq => exact nextOf_canon _ (fun _ _ h hs => execSubseqWrite_canon _ _ _ _ h hs) _ hm
  | crbase => exact (modSub_mem ..).symm ▸ hm
  | crcfg => exact (modSub_mem ..).symm ▸ hm
  | crd => exact (modSub_mem ..).symm ▸ hm
  | crreplay => exact nextOf_canon _ (fun _ _ h hs => execCrReplay_canon _ _ _ _ h hs) _ hm
  | cmpseq => exact hm
  | crstat => exact (modSub_mem ..).symm ▸ hm
  | invctx => exact (modHost_mem ..).symm ▸ hm
  | invaddr => exact inval _ _
  | invstat => exact hm
  | flush _ => exact writeFlush_canon _ _ _ _ _ hm
  | trbase => exact (modTrap_mem ..).symm ▸ hm
  | trcfg => exact (modTrap_mem ..).symm ▸ hm
  | trwix => exact hm
  | trrix => exact nextOf_canon _ (fun _ _ h hs => execTrrixWrite_canon _ _ _ _ h hs) _ hm
  | trstat => exact (modTrap_mem ..).symm ▸ hm
  | trrctx => show memOk (writeTrrctx hp (lo32 v) s).mem = true; simp [hm]
  | trreplay => exact writeTrreplay_canon _ _ _ hm
  | trwd => exact (modTrap_mem ..).symm ▸ hm
  | ctxkill => exact nextOf_canon _ (fun _ _ h hs => execCtxKill_canon _ _ _ _ h hs) _ hm
  | preq => exact nextOf_canon _ (fun _ _ h hs => execPreemptRequest_canon _ _ _ _ h hs) _ hm
  | dbgctl => exact hm
  | dbgctx => exact nextOf_canon _ (fun _ _ h hs => execDbgctxWrite_canon _ _ _ _ h hs) _ hm
  | dbgstat => exact (modDbg_mem ..).symm ▸ hm
  | dbgrec _ => exact hm
  | dbgpop => exact nextOf_canon _ (fun _ _ h hs => execDbgPop_canon _ _ _ h hs) _ hm
  | dbgcmd => exact writeDbgcmd_canon _ _ _ hm
  | dbgdata => exact (modDbg_mem ..).symm ▸ hm
  | dbgres => exact hm
  | hoststat => exact (modHost_mem ..).symm ▸ hm
  | apbase0 => exact (modHost_mem ..).symm ▸ hm
  | apbase1 => exact (modHost_mem ..).symm ▸ hm
  | msix _ => exact (modHost_mem ..).symm ▸ hm
  | msixPend => exact hm
  | usscmd => exact (submitMail_mem ..).symm ▸ hm
  | ussstat => exact hm
  | ussbuf _ => unfold writeReg; dsimp only; split; exact hm; exact (modHost_mem ..).symm ▸ hm
  | railmap _ => exact mgr _ (fun _ => rfl)
  | balslope _ => exact mgr _ (fun _ => rfl)
  | uvctl _ => exact nextOf_canon _ (fun _ _ h hs => execUvctlWrite_canon _ _ _ _ _ h hs) _ hm
  | enacct _ => exact mgr _ (fun _ => rfl)
  | devid => exact nextOf_canon _ (fun _ _ h hs => execDevidWrite_canon _ _ _ _ h hs) _ hm
  | rtab _ => exact mgr _ (fun _ => modSh_mem ..)
  | lnkctl _ => exact writeLnkctl_canon _ _ _ _ hm
  | lnkstat _ => exact mgr _ (fun _ => modLink_mem ..)
  | assayctl => exact mgr _ (fun _ => modSh_mem ..)
  | assaycnt => exact mgr _ (fun _ => modSh_mem ..)
  | susp _ => exact mgr _ (fun _ => rfl)
  | dieinfo _ => exact mgr _ (fun _ => rfl)
  | cyc _ => exact mgr _ (fun _ => rfl)
  | etm _ => exact mgr _ (fun _ => rfl)
  | partctl => exact mgr _ (fun _ => modSh_mem ..)
  | tenant _ => exact nextOf_canon _ (fun _ _ h hs => execTenantWrite_canon _ _ _ _ _ h hs) _ hm
  | winown _ => exact nextOf_canon _ (fun _ _ h hs => execWinownWrite_canon _ _ _ _ _ h hs) _ hm
  | migpool _ => exact nextOf_canon _ (fun _ _ h hs => execMigpoolWrite_canon _ _ _ _ _ h hs) _ hm

@[simp] theorem write4_canon (hp : HPort) (off : Nat) (v : Word) (s : State)  (hm : memOk s.mem = true) : memOk (write4 hp off v s).mem = true := by
  unfold write4; repeat' split
  all_goals simp [*]

@[simp] theorem write8_canon (hp : HPort) (off : Nat) (v : BitVec 64) (s : State)  (hm : memOk s.mem = true) : memOk (write8 hp off v s).mem = true := by
  unfold write8; repeat' split
  all_goals simp [*]

theorem execRegisterWrite_canon (hp : HPort) (off : BitVec 26) (size : Nat) (v : BitVec 64) (s : State)  (nx : State) (h : execRegisterWrite hp off size v s = .next nx) (hm : memOk s.mem = true) : memOk nx.mem = true := by
  unfold execRegisterWrite at h; rw [← next_inj h]; repeat' split
  all_goals simp [*]

end Sys2Proof.Laws
end

