-- ==== Sys2Proof/Laws/Canon6.lean ====
section
/-! SUPPORT. What each operation leaves of the memory; those that write keep its canonical form. -/

namespace Sys2Proof.Laws
open Sys2Proof.Machine

@[simp] theorem fetchFind_mem (s : State) (x : Block) (pc : Word)  : (fetchFind s x pc).mem = s.mem := by
  unfold fetchFind; dsimp only; repeat' split
  all_goals simp [*]

@[simp] theorem holdTimers_mem (dt : Nat) (s : State)  : (holdTimers dt s).mem = s.mem := by
  simp [holdTimers]

@[simp] theorem advanceTime_mem (dt : Nat) (s : State)  : (advanceTime dt s).mem = s.mem := by
  simp [advanceTime]

@[simp] theorem settleUnits_mem (c : Nat) (s : State)  : (settleUnits c s).mem = s.mem := by
  simp [settleUnits]

@[simp] theorem commandHalt_mem (s : State) (b g : Nat)  : (commandHalt s b g).mem = s.mem := by
  unfold commandHalt; repeat' split
  all_goals simp [*]

@[simp] theorem settleGroup_mem (c : Nat) (z : Spot) (s : State)  : (settleGroup c z s).mem = s.mem := by
  unfold settleGroup; dsimp only; repeat' split
  all_goals simp [*]

@[simp] theorem setActive_mem (c : Nat) (on : Bool) (z : Spot) (s : State)  : (setActive c on z s).mem = s.mem := by
  simp [setActive]

@[simp] theorem makeRoom_mem (c : Nat) (zs : List Spot) (z : Spot) (s : State)  : (makeRoom c zs z s).mem = s.mem := by
  unfold makeRoom
  refine foldS_mem _ ?_ _ _
  intro l s
  repeat' split
  all_goals simp

@[simp] theorem exchange_mem (c : Nat) (z : Spot) (s : State)  : (exchange c z s).mem = s.mem := by
  unfold exchange
  dsimp only
  repeat' split
  all_goals (try simp)
  refine foldS_mem _ ?_ _ _
  intro o s
  split <;> simp

@[simp] theorem fillSets_mem (c : Nat) (s : State)  : (fillSets c s).mem = s.mem := by
  simp [fillSets]

@[simp] theorem settleWindow_mem (c : Nat) (s : State)  : (settleWindow c s).mem = s.mem := by
  simp only [settleWindow]; repeat' split
  all_goals simp_all

@[simp] theorem settleRails_mem (s : State)  : (settleRails s).mem = s.mem := by
  simp [settleRails]

@[simp] theorem settleCore_mem (c : Nat) (s : State)  : (settleCore c s).mem = s.mem := by
  simp [settleCore]

@[simp] theorem settleAll_mem (s : State)  : (settleAll s).mem = s.mem := by
  simp [settleAll]

/-- Every instruction and every event keeps the canonical form of the memory. -/
theorem exec_canon (i : Instr) (s : State) (nx : State) (hx : exec i s = .next nx) (hm : memOk s.mem = true) : memOk nx.mem = true := by
  cases i with
  | nop => exact execNop_canon s _ hx hm
  | bra p => exact execBra_canon p s _ hx hm
  | call n d a m => exact execCall_canon n d a m s _ hx hm
  | ret a => exact execRet_canon a s _ hx hm
  | jmpr a m => exact execJmpr_canon a m s _ hx hm
  | brz h a p => exact execBrz_canon h a p s _ hx hm
  | brnz h a p => exact execBrnz_canon h a p s _ hx hm
  | brlt h a p => exact execBrlt_canon h a p s _ hx hm
  | brge h a p => exact execBrge_canon h a p s _ hx hm
  | meet p => exact execMeet_canon p s _ hx hm
  | repack a p => exact execRepack_canon a p s _ hx hm
  | loop a p => exact execLoop_canon a p s _ hx hm
  | exit => exact execExit_canon s _ hx hm
  | winb vq sq => exact execWinb_canon vq sq s _ hx hm
  | add n d a b m => exact execAdd_canon n d a b m s _ hx hm
  | sub n d a b m => exact execSub_canon n d a b m s _ hx hm
  | mul n d a b m => exact execMul_canon n d a b m s _ hx hm
  | mad n d a b m => exact execMad_canon n d a b m s _ hx hm
  | div n d a b m => exact execDiv_canon n d a b m s _ hx hm
  | rem n d a b m => exact execRem_canon n d a b m s _ hx hm
  | min n d a b m => exact execMin_canon n d a b m s _ hx hm
  | max n d a b m => exact execMax_canon n d a b m s _ hx hm
  | abs n d a m => exact execAbs_canon n d a m s _ hx hm
  | neg n d a m => exact execNeg_canon n d a m s _ hx hm
  | cmp n d a b m => exact execCmp_canon n d a b m s _ hx hm
  | cmpe n d a b m => exact execCmpe_canon n d a b m s _ hx hm
  | sel n d a b m => exact execSel_canon n d a b m s _ hx hm
  | lea n d a b m => exact execLea_canon n d a b m s _ hx hm
  | mulw n d a b m => exact execMulw_canon n d a b m s _ hx hm
  | clamp n d a b m => exact execClamp_canon n d a b m s _ hx hm
  | and n d a b m => exact execAnd_canon n d a b m s _ hx hm
  | or n d a b m => exact execOr_canon n d a b m s _ hx hm
  | xor n d a b m => exact execXor_canon n d a b m s _ hx hm
  | andn n d a b m => exact execAndn_canon n d a b m s _ hx hm
  | orn n d a b m => exact execOrn_canon n d a b m s _ hx hm
  | xnor n d a b m => exact execXnor_canon n d a b m s _ hx hm
  | shl n d a b m => exact execShl_canon n d a b m s _ hx hm
  | shr n d a b m => exact execShr_canon n d a b m s _ hx hm
  | sar n d a b m => exact execSar_canon n d a b m s _ hx hm
  | rot n d a b m => exact execRot_canon n d a b m s _ hx hm
  | extf n d a b m => exact execExtf_canon n d a b m s _ hx hm
  | depf n d a b => exact execDepf_canon n d a b s _ hx hm
  | popc n d a m => exact execPopc_canon n d a m s _ hx hm
  | clz n d a m => exact execClz_canon n d a m s _ hx hm
  | ctz n d a m => exact execCtz_canon n d a m s _ hx hm
  | brev n d a m => exact execBrev_canon n d a m s _ hx hm
  | addi n d a im => exact execAddi_canon n d a im s _ hx hm
  | muli n d a im => exact execMuli_canon n d a im s _ hx hm
  | andi n d a im => exact execAndi_canon n d a im s _ hx hm
  | ori n d a im => exact execOri_canon n d a im s _ hx hm
  | xori n d a im => exact execXori_canon n d a im s _ hx hm
  | shli n d a im => exact execShli_canon n d a im s _ hx hm
  | shri n d a im => exact execShri_canon n d a im s _ hx hm
  | sari n d a im => exact execSari_canon n d a im s _ hx hm
  | cmpieq n d a im => exact execCmpieq_canon n d a im s _ hx hm
  | cmpilt n d a im => exact execCmpilt_canon n d a im s _ hx hm
  | cmpiltn n d a im => exact execCmpiltn_canon n d a im s _ hx hm
  | mini n d a im => exact execMini_canon n d a im s _ hx hm
  | ldk n d im => exact execLdk_canon n d im s _ hx hm
  | ldkh n d im => exact execLdkh_canon n d im s _ hx hm
  | mov n d a m => exact execMov_canon n d a m s _ hx hm
  | mort n d a b m => exact execMort_canon n d a b m s _ hx hm
  | seedc a => exact execSeedc_canon a s _ hx hm
  | rdtail n d => exact execRdtail_canon n d s _ hx hm
  | red n d a m => exact execRed_canon n d a m s _ hx hm
  | redf n d a m => exact execRedf_canon n d a m s _ hx hm
  | tshb n d a b m => exact execTshb_canon n d a b m s _ hx hm
  | tshf n d a b m => exact execTshf_canon n d a b m s _ hx hm
  | tbcst n d a b => exact execTbcst_canon n d a b s _ hx hm
  | poll n d a m => exact execPoll_canon n d a m s _ hx hm
  | qswp n d a m => exact execQswp_canon n d a m s _ hx hm
  | qred n d a m => exact execQred_canon n d a m s _ hx hm
  | help n d => exact execHelp_canon n d s _ hx hm
  | cellh n d a b m => exact execCellh_canon n d a b m s _ hx hm
  | tmask n d m => exact execTmask_canon n d m s _ hx hm
  | tpos n d a m => exact execTpos_canon n d a m s _ hx hm
  | fadd n d a b m => exact execFadd_canon n d a b m s _ hx hm
  | fsub n d a b m => exact execFsub_canon n d a b m s _ hx hm
  | fmul n d a b m => exact execFmul_canon n d a b m s _ hx hm
  | ffma n d a b m => exact execFfma_canon n d a b m s _ hx hm
  | fmin n d a b => exact execFmin_canon n d a b s _ hx hm
  | fmax n d a b => exact execFmax_canon n d a b s _ hx hm
  | fcmp n d a b m => exact execFcmp_canon n d a b m s _ hx hm
  | fsgn n d a b m => exact execFsgn_canon n d a b m s _ hx hm
  | pkadd n d a b m => exact execPkadd_canon n d a b m s _ hx hm
  | pkmul n d a b m => exact execPkmul_canon n d a b m s _ hx hm
  | pkfma n d a b m => exact execPkfma_canon n d a b m s _ hx hm
  | fdiv n d a b m => exact execFdiv_canon n d a b m s _ hx hm
  | fsqrt n d a m => exact execFsqrt_canon n d a m s _ hx hm
  | frnd n d a m => exact execFrnd_canon n d a m s _ hx hm
  | fclass n d a => exact execFclass_canon n d a s _ hx hm
  | fscl n d a b m => exact execFscl_canon n d a b m s _ hx hm
  | frcp n d a => exact execFrcp_canon n d a s _ hx hm
  | frsq n d a => exact execFrsq_canon n d a s _ hx hm
  | fex2 n d a => exact execFex2_canon n d a s _ hx hm
  | flg2 n d a => exact execFlg2_canon n d a s _ hx hm
  | fsin n d a => exact execFsin_canon n d a s _ hx hm
  | ftanh n d a => exact execFtanh_canon n d a s _ hx hm
  | dadd n d a b m => exact execDadd_canon n d a b m s _ hx hm
  | dsub n d a b m => exact execDsub_canon n d a b m s _ hx hm
  | dmul n d a b m => exact execDmul_canon n d a b m s _ hx hm
  | dfma n d a b m => exact execDfma_canon n d a b m s _ hx hm
  | ddiv n d a b m => exact execDdiv_canon n d a b m s _ hx hm
  | dsqrt n d a m => exact execDsqrt_canon n d a m s _ hx hm
  | dmin n d a b m => exact execDmin_canon n d a b m s _ hx hm
  | dcmp n d a b m => exact execDcmp_canon n d a b m s _ hx hm
  | cvt n d a k t j f => exact execCvt_canon n d a k t j f s _ hx hm
  | cvtz n d a t j f => exact execCvtz_canon n d a t j f s _ hx hm
  | cvtu n d a t j f => exact execCvtu_canon n d a t j f s _ hx hm
  | cvtd n d a k t j f => exact execCvtd_canon n d a k t j f s _ hx hm
  | pack n d a b m => exact execPack_canon n d a b m s _ hx hm
  | unpk n d a m => exact execUnpk_canon n d a m s _ hx hm
  | pk8 n d a b m => exact execPk8_canon n d a b m s _ hx hm
  | upk8 n d a b m => exact execUpk8_canon n d a b m s _ hx hm
  | ldb d a im => exact execLdb_canon d a im s _ hx hm
  | ldbs d a im => exact execLdbs_canon d a im s _ hx hm
  | ldh d a im => exact execLdh_canon d a im s _ hx hm
  | ldhs d a im => exact execLdhs_canon d a im s _ hx hm
  | ldw d a im => exact execLdw_canon d a im s _ hx hm
  | ldd d a im => exact execLdd_canon d a im s _ hx hm
  | ldq d a im => exact execLdq_canon d a im s _ hx hm
  | stb e a im => exact execStb_canon e a im s _ hx hm
  | sth e a im => exact execSth_canon e a im s _ hx hm
  | stw e a im => exact execStw_canon e a im s _ hx hm
  | std e a im => exact execStd_canon e a im s _ hx hm
  | stq e a im => exact execStq_canon e a im s _ hx hm
  | ldx d a b m => exact execLdx_canon d a b m s _ hx hm
  | stx e a b m => exact execStx_canon e a b m s _ hx hm
  | ldu d a im => exact execLdu_canon d a im s _ hx hm
  | pref a b => exact execPref_canon a b s _ hx hm
  | lds d a im => exact execLds_canon d a im s _ hx hm
  | sts e a im => exact execSts_canon e a im s _ hx hm
  | ldsx d a b m => exact execLdsx_canon d a b m s _ hx hm
  | stsx e a b m => exact execStsx_canon e a b m s _ hx hm
  | ldl d a im => exact execLdl_canon d a im s _ hx hm
  | stl e a im => exact execStl_canon e a im s _ hx hm
  | ldlb d a b m => exact execLdlb_canon d a b m s _ hx hm
  | stlb e a b m => exact execStlb_canon e a b m s _ hx hm
  | ldhw d a b m => exact execLdhw_canon d a b m s _ hx hm
  | sthw e a b m => exact execSthw_canon e a b m s _ hx hm
  | alloc a b m => exact execAlloc_canon a b m s _ hx hm
  | free a b m => exact execFree_canon a b m s _ hx hm
  | life a b m => exact execLife_canon a b m s _ hx hm
  | expq d a m => exact execExpq_canon d a m s _ hx hm
  | aadd d a b m => exact execAadd_canon d a b m s _ hx hm
  | amin d a b m => exact execAmin_canon d a b m s _ hx hm
  | aminn d a b m => exact execAminn_canon d a b m s _ hx hm
  | amax d a b m => exact execAmax_canon d a b m s _ hx hm
  | amaxn d a b m => exact execAmaxn_canon d a b m s _ hx hm
  | aand d a b m => exact execAand_canon d a b m s _ hx hm
  | aor d a b m => exact execAor_canon d a b m s _ hx hm
  | axor d a b m => exact execAxor_canon d a b m s _ hx hm
  | axch d a b m => exact execAxch_canon d a b m s _ hx hm
  | acas d a b m => exact execAcas_canon d a b m s _ hx hm
  | afadd d a b m => exact execAfadd_canon d a b m s _ hx hm
  | afmin d a b m => exact execAfmin_canon d a b m s _ hx hm
  | ainc d a b m => exact execAinc_canon d a b m s _ hx hm
  | asadd d a b m => exact execAsadd_canon d a b m s _ hx hm
  | asmin d a b m => exact execAsmin_canon d a b m s _ hx hm
  | ascas d a b m => exact execAscas_canon d a b m s _ hx hm
  | pub sc => exact execPub_canon sc s _ hx hm
  | acq sc => exact execAcq_canon sc s _ hx hm
  | fence => exact execFence_canon s _ hx hm
  | bar pub id => exact execBar_canon pub id s _ hx hm
  | bara pub id => exact execBara_canon pub id s _ hx hm
  | barw pub id => exact execBarw_canon pub id s _ hx hm
  | phase sc => exact execPhase_canon sc s _ hx hm
  | wait k th => exact execWait_canon k th s _ hx hm
  | mma d a b m => exact execMma_canon d a b m s _ hx hm
  | mmas d a b m => exact execMmas_canon d a b m s _ hx hm
  | mmaf d a b m => exact execMmaf_canon d a b m s _ hx hm
  | gang a b => exact execGang_canon a b s _ hx hm
  | gath d a => exact execGath_canon d a s _ hx hm
  | cpy d a => exact execCpy_canon d a s _ hx hm
  | cpyt d a => exact execCpyt_canon d a s _ hx hm
  | coll d a m => exact execColl_canon d a m s _ hx hm
  | accz => exact execAccz_canon s _ hx hm
  | mmaq d => exact execMmaq_canon d s _ hx hm
  | qput a b => exact execQput_canon a b s _ hx hm
  | qtakeQ d a => exact execQtakeQ_canon d a s _ hx hm
  | qtakeStage d => exact execQtakeStage_canon d s _ hx hm
  | qmput e a b => exact execQmput_canon e a b s _ hx hm
  | qrel a => exact execQrel_canon a s _ hx hm
  | spawn a => exact execSpawn_canon a s _ hx hm
  | join a sc => exact execJoin_canon a sc s _ hx hm
  | qstat d a m => exact execQstat_canon d a m s _ hx hm
  | yieldI => exact execYieldI_canon s _ hx hm
  | trap a => exact execTrap_canon a s _ hx hm
  | trapRet => exact execTrapRet_canon s _ hx hm
  | trapNext => exact execTrapNext_canon s _ hx hm
  | live im => exact execLive_canon im s _ hx hm
  | region im => exact execRegion_canon im s _ hx hm
  | assay d m => exact execAssay_canon d m s _ hx hm
  | rdsr n d im => exact execRdsr_canon n d im s _ hx hm
  | wrsr e im => exact execWrsr_canon e im s _ hx hm
  | bkpt im => exact execBkpt_canon im s _ hx hm
  | dbgm a m => exact execDbgm_canon a m s _ hx hm
  | watch a b m => exact execWatch_canon a b m s _ hx hm
  | sleep a => exact execSleep_canon a s _ hx hm
  | clas c => exact execClas_canon c s _ hx hm
  | reservedEncoding w => exact execReservedEncoding_canon w s _ hx hm
  | bringUp => exact execBringUp_canon s _ hx hm
  | thermalHot die => exact execThermalHot_canon die s _ hx hm
  | thermalShutdown die temp => exact execThermalShutdown_canon die temp s _ hx hm
  | railShutdown x => exact execRailShutdown_canon x s _ hx hm
  | railLossResume blk => exact execRailLossResume_canon blk s _ hx hm
  | ballastInjection x => exact execBallastInjection_canon x s _ hx hm
  | undervoltInterval x => exact execUndervoltInterval_canon x s _ hx hm
  | energyMeter => exact execEnergyMeter_canon s _ hx hm
  | patrolScrub sector => exact execPatrolScrub_canon sector s _ hx hm
  | refresh granule => exact execRefresh_canon granule s _ hx hm
  | assayReplay job => exact execAssayReplay_canon job s _ hx hm
  | assayCompare job => exact execAssayCompare_canon job s _ hx hm
  | assayThirdRun job => exact execAssayThirdRun_canon job s _ hx hm
  | assayBoundExpiry job => exact execAssayBoundExpiry_canon job s _ hx hm
  | quarantineTimeout core => exact execQuarantineTimeout_canon core s _ hx hm
  | flitReceive p flit => exact execFlitReceive_canon p flit s _ hx hm
  | flitSend p => exact execFlitSend_canon p s _ hx hm
  | ackTimeout p => exact execAckTimeout_canon p s _ hx hm
  | retrainTimeout p => exact execRetrainTimeout_canon p s _ hx hm
  | creditStall p vc => exact execCreditStall_canon p vc s _ hx hm
  | portTrain hp p => exact execPortTrain_canon hp p s _ hx hm
  | devidWrite hp v => exact execDevidWrite_canon hp v s _ hx hm
  | collectiveComplete cid peers bad => exact execCollectiveComplete_canon cid peers bad s _ hx hm
  | collectiveAbort cid cause => exact execCollectiveAbort_canon cid cause s _ hx hm
  | collectiveTimeout cid => exact execCollectiveTimeout_canon cid s _ hx hm
  | readLatchLoad hp off size => exact execReadLatchLoad_canon hp off size s _ hx hm
  | hostWindowAccess hp off acc => exact execHostWindowAccess_canon hp off acc s _ hx hm
  | hostRawRead hp fn1 off len => exact execHostRawRead_canon hp fn1 off len s _ hx hm
  | hostRawWrite hp fn1 off data => exact execHostRawWrite_canon hp fn1 off data s _ hx hm
  | hostAtomicOp hp fn1 off op => exact execHostAtomicOp_canon hp fn1 off op s _ hx hm
  | triggerLaunch hp sseq patch order graph ploff => exact execTriggerLaunch_canon hp sseq patch order graph ploff s _ hx hm
  | triggerLoad hp sseq graph ploff => exact execTriggerLoad_canon hp sseq graph ploff s _ hx hm
  | triggerUnload hp sseq graph => exact execTriggerUnload_canon hp sseq graph s _ hx hm
  | triggerBadop hp sseq graph => exact execTriggerBadop_canon hp sseq graph s _ hx hm
  | flushDeviceToHost hp order len => exact execFlushDeviceToHost_canon hp order len s _ hx hm
  | flushHostToDevice hp order len => exact execFlushHostToDevice_canon hp order len s _ hx hm
  | flushBadDir hp dir order len => exact execFlushBadDir_canon hp dir order len s _ hx hm
  | flushComplete hp => exact execFlushComplete_canon hp s _ hx hm
  | subseqWrite hp v => exact execSubseqWrite_canon hp v s _ hx hm
  | crReplay hp v => exact execCrReplay_canon hp v s _ hx hm
  | completionRecordWrite hp => exact execCompletionRecordWrite_canon hp s _ hx hm
  | ctxNew hp tag len => exact execCtxNew_canon hp tag len s _ hx hm
  | ctxEnd hp tag len => exact execCtxEnd_canon hp tag len s _ hx hm
  | setClu hp tag len => exact execSetClu_canon hp tag len s _ hx hm
  | getClu hp tag len => exact execGetClu_canon hp tag len s _ hx hm
  | setRail hp tag len => exact execSetRail_canon hp tag len s _ hx hm
  | railOn hp tag len => exact execRailOn_canon hp tag len s _ hx hm
  | setSlope hp tag len => exact execSetSlope_canon hp tag len s _ hx hm
  | clrAcct hp tag len => exact execClrAcct_canon hp tag len s _ hx hm
  | debugCmd hp tag len => exact execDebugCmd_canon hp tag len s _ hx hm
  | commSet hp tag len => exact execCommSet_canon hp tag len s _ hx hm
  | commClr hp tag len => exact execCommClr_canon hp tag len s _ hx hm
  | identCmd hp tag len => exact execIdentCmd_canon hp tag len s _ hx hm
  | attest hp tag len => exact execAttest_canon hp tag len s _ hx hm
  | imgBegin hp tag len => exact execImgBegin_canon hp tag len s _ hx hm
  | imgData hp tag len => exact execImgData_canon hp tag len s _ hx hm
  | imgEnd hp tag len => exact execImgEnd_canon hp tag len s _ hx hm
  | commitCmd hp tag len => exact execCommitCmd_canon hp tag len s _ hx hm
  | mailboxBadop hp tag len op => exact execMailboxBadop_canon hp tag len op s _ hx hm
  | tenantWrite hp k v => exact execTenantWrite_canon hp k v s _ hx hm
  | winownWrite hp f v => exact execWinownWrite_canon hp f v s _ hx hm
  | migpoolWrite hp k v => exact execMigpoolWrite_canon hp k v s _ hx hm
  | uvctlWrite hp x v => exact execUvctlWrite_canon hp x v s _ hx hm
  | invalidateAll hp => exact execInvalidateAll_canon hp s _ hx hm
  | invalidatePage hp va => exact execInvalidatePage_canon hp va s _ hx hm
  | invalidateComplete hp => exact execInvalidateComplete_canon hp s _ hx hm
  | replayByToken hp token => exact execReplayByToken_canon hp token s _ hx hm
  | replayByPage hp va => exact execReplayByPage_canon hp va s _ hx hm
  | ctxKill hp ctx => exact execCtxKill_canon hp ctx s _ hx hm
  | preemptRequest hp ctx => exact execPreemptRequest_canon hp ctx s _ hx hm
  | trrixWrite hp v => exact execTrrixWrite_canon hp v s _ hx hm
  | trapEntryWrite hp => exact execTrapEntryWrite_canon hp s _ hx hm
  | preemptTimeout ctx => exact execPreemptTimeout_canon ctx s _ hx hm
  | dbgctxWrite hp v => exact execDbgctxWrite_canon hp v s _ hx hm
  | dbgPop hp => exact execDbgPop_canon hp s _ hx hm
  | dbgHalt hp cmd => exact execDbgHalt_canon hp cmd s _ hx hm
  | dbgResume hp cmd => exact execDbgResume_canon hp cmd s _ hx hm
  | dbgStep hp cmd => exact execDbgStep_canon hp cmd s _ hx hm
  | dbgRdv hp cmd => exact execDbgRdv_canon hp cmd s _ hx hm
  | dbgWrv hp cmd => exact execDbgWrv_canon hp cmd s _ hx hm
  | dbgRds hp cmd => exact execDbgRds_canon hp cmd s _ hx hm
  | dbgWrs hp cmd => exact execDbgWrs_canon hp cmd s _ hx hm
  | dbgBadop hp op => exact execDbgBadop_canon hp op s _ hx hm
  | registerWrite hp off size v => exact execRegisterWrite_canon hp off size v s _ hx hm
  | instStart inst => exact execInstStart_canon inst s _ hx hm
  | nodeDispatch inst node => exact execNodeDispatch_canon inst node s _ hx hm
  | troupePlace cluster => exact execTroupePlace_canon cluster s _ hx hm
  | groupRestore blk grp => exact execGroupRestore_canon blk grp s _ hx hm
  | blockSave blk => exact execBlockSave_canon blk s _ hx hm
  | blockRestore blk => exact execBlockRestore_canon blk s _ hx hm
  | blockRelocate blk core => exact execBlockRelocate_canon blk core s _ hx hm
  | activeReadyBound blk grp => exact execActiveReadyBound_canon blk grp s _ hx hm
  | pendingReadyBound blk grp => exact execPendingReadyBound_canon blk grp s _ hx hm
  | classWindowEnd core => exact execClassWindowEnd_canon core s _ hx hm
  | sleepWake core => exact execSleepWake_canon core s _ hx hm
  | loggedReissue blk grp => exact execLoggedReissue_canon blk grp s _ hx hm
  | memoryReturn blk grp => exact execMemoryReturn_canon blk grp s _ hx hm
  | mmaComplete blk grp => exact execMmaComplete_canon blk grp s _ hx hm
  | matrixUnitReset core part => exact execMatrixUnitReset_canon core part s _ hx hm
  | copyComplete blk grp => exact execCopyComplete_canon blk grp s _ hx hm
  | gatherComplete blk grp => exact execGatherComplete_canon blk grp s _ hx hm
  | migrationPromote ctx va => exact execMigrationPromote_canon ctx va s _ hx hm
  | pageSwitch idx => exact execPageSwitch_canon idx s _ hx hm
  | prefDeadline blk grp => exact execPrefDeadline_canon blk grp s _ hx hm
  | barrierWatchdog blk bar => exact execBarrierWatchdog_canon blk bar s _ hx hm
  | rendezvousWatchdog blk grp => exact execRendezvousWatchdog_canon blk grp s _ hx hm
  | foremanEvaluate cluster => exact execForemanEvaluate_canon cluster s _ hx hm
  | queueWindowRefill core q => exact execQueueWindowRefill_canon core q s _ hx hm
  | continuationEnqueue cluster q => exact execContinuationEnqueue_canon cluster q s _ hx hm
  | bankDrainComplete cluster bank => exact execBankDrainComplete_canon cluster bank s _ hx hm
  | portTrained p => exact execPortTrained_canon p s _ hx hm
  | thermalCool die => exact execThermalCool_canon die s _ hx hm
  | inFieldTest core lane fails => exact execInFieldTest_canon core lane fails s _ hx hm

theorem outState_canon (o : Out) (s : State) (ho : ∀ nx, o = .next nx → memOk s.mem = true → memOk nx.mem = true) (hm : memOk s.mem = true) :
    memOk (outState o s).mem = true := by
  unfold outState
  split
  · exact ho _ rfl hm
  · exact hm

/-- The state that an instruction leaves. -/
@[simp] theorem outState_exec_canon (i : Instr) (s : State) (hm : memOk s.mem = true) : memOk (outState (exec i s) s).mem = true :=
  outState_canon _ _ (fun _ h => exec_canon i s _ h) hm

@[simp] theorem runSide_canon (b g : Nat) (pre : Group) (d : Side) (ts : List Nat) (cut : Bool) (s : State)  (hm : memOk s.mem = true) : memOk (runSide b g pre d ts cut s).mem = true := by
  simp [runSide, *]

@[simp] theorem inSlots_mem (sides : List Side) (each : Side → Nat → State → State) (all : Side → State → State) (s : State) (heach : ∀ (a0 : Side) (a1 : Nat) (s : State), (each a0 a1 s).mem = s.mem) (hall : ∀ (a0 : Side) (s : State), (all a0 s).mem = s.mem) : (inSlots sides each all s).mem = s.mem := by
  unfold inSlots; repeat' split
  all_goals simp [*]

@[simp] theorem inSlots_canon (sides : List Side) (each : Side → Nat → State → State) (all : Side → State → State) (s : State)
    (heach : ∀ (a0 : Side) (a1 : Nat) (s : State), memOk s.mem = true → memOk (each a0 a1 s).mem = true)
    (hall : ∀ (a0 : Side) (s : State), memOk s.mem = true → memOk (all a0 s).mem = true) (hm : memOk s.mem = true) :
    memOk (inSlots sides each all s).mem = true := by
  unfold inSlots
  refine foldS_canon _ (fun t s hs => foldS_canon _ (fun d s hs => ?_) _ _ hs) _ _ hm
  repeat' split
  all_goals first | exact hs | exact heach _ _ _ hs | exact hall _ _ hs

@[simp] theorem bySlots_mem (a c : Side) (each : Side → Nat → State → State) (all : Side → State → State) (s : State) (heach : ∀ (a0 : Side) (a1 : Nat) (s : State), (each a0 a1 s).mem = s.mem) (hall : ∀ (a0 : Side) (s : State), (all a0 s).mem = s.mem) : (bySlots a c each all s).mem = s.mem := by
  unfold bySlots; split <;> simp [*]

@[simp] theorem bySlots_canon (a c : Side) (each : Side → Nat → State → State) (all : Side → State → State) (s : State) (heach : ∀ (a0 : Side) (a1 : Nat) (s : State), memOk s.mem = true → memOk (each a0 a1 s).mem = true) (hall : ∀ (a0 : Side) (s : State), memOk s.mem = true → memOk (all a0 s).mem = true) (hm : memOk s.mem = true) : memOk (bySlots a c each all s).mem = true := by
  simp only [bySlots]; repeat' split
  all_goals simp_all

@[simp] theorem serveSlot_canon (b g : Nat) (pre : Group) (d : Side) (ts : List Nat) (s : State)  (hm : memOk s.mem = true) : memOk (serveSlot b g pre d ts s).mem = true := by
  simp [serveSlot, *]

@[simp] theorem slotPass_mem (b g : Nat) (a c : Side) (each : Side → Nat → State → State) (all : Side → State → State) (s : State) (heach : ∀ (a0 : Side) (a1 : Nat) (s : State), (each a0 a1 s).mem = s.mem) (hall : ∀ (a0 : Side) (s : State), (all a0 s).mem = s.mem) : (slotPass b g a c each all s).mem = s.mem := by
  unfold slotPass; repeat' split
  all_goals simp [*]

@[simp] theorem slotPass_canon (b g : Nat) (a c : Side) (each : Side → Nat → State → State) (all : Side → State → State) (s : State) (heach : ∀ (a0 : Side) (a1 : Nat) (s : State), memOk s.mem = true → memOk (each a0 a1 s).mem = true) (hall : ∀ (a0 : Side) (s : State), memOk s.mem = true → memOk (all a0 s).mem = true) (hm : memOk s.mem = true) : memOk (slotPass b g a c each all s).mem = true := by
  simp only [slotPass]; repeat' split
  all_goals simp_all

@[simp] theorem runSides_canon (x : Block) (b g : Nat) (pre : Group) (a c : Side) (s : State)  (hm : memOk s.mem = true) : memOk (runSides x b g pre a c s).mem = true := by
  unfold runSides
  refine slotPass_canon _ _ _ _ _ _ _ (fun d t s hs => ?_) (fun d s hs => ?_) hm
  · split <;> simp [hs]
  · split <;> simp [hs]

@[simp] theorem commitSide_canon (x : Block) (b g : Nat) (y : Group) (j : Nat) (faulting : Bool) (upper : Bool) (a : Path) (s : State)  (hm : memOk s.mem = true) : memOk (commitSide x b g y j faulting upper a s).mem = true := by
  unfold commitSide
  split
  · exact commitBelow_canon _ _ (fun _ s hs => by simp [hs]) _ _ _ _ hm
  · exact hm

@[simp] theorem commitSides_canon (x : Block) (b g : Nat) (y : Group) (j : Nat) (up : Bool) (a c : Path) (s : State)  (hm : memOk s.mem = true) : memOk (commitSides x b g y j up a c s).mem = true := by
  simp only [commitSides]; split
  · refine slotPass_canon _ _ _ _ _ _ _ (fun d t s hs => ?_) (fun d s hs => ?_) hm
    · split <;> simp [hs]
    · repeat' split
      all_goals simp [hs]
  · simp [hm]

@[simp] theorem faultPass_mem (x : Block) (b g : Nat) (y : Group) (k : FKind) (j : Nat) (mask : BitVec 32) (aux : Word) (addr : BitVec 64) (up : Bool) (a : Path) (commit : State → State) (s : State) (hcommit : ∀ (s : State), (commit s).mem = s.mem) : (faultPass x b g y k j mask aux addr up a commit s).mem = s.mem := by
  unfold faultPass; split <;> simp [*]

@[simp] theorem faultPass_canon (x : Block) (b g : Nat) (y : Group) (k : FKind) (j : Nat) (mask : BitVec 32) (aux : Word) (addr : BitVec 64) (up : Bool) (a : Path) (commit : State → State) (s : State) (hcommit : ∀ (s : State), memOk s.mem = true → memOk (commit s).mem = true) (hm : memOk s.mem = true) : memOk (faultPass x b g y k j mask aux addr up a commit s).mem = true := by
  unfold faultPass; split <;> simp [*]

@[simp] theorem findPath_mem (x : Block) (b g : Nat) (y : Group) (a : Path) (s : State)  : (findPath x b g y a s).mem = s.mem := by
  unfold findPath; split <;> simp [*]

@[simp] theorem runOne_canon (x : Block) (b g : Nat) (y : Group) (a : Path) (s : State)  (hm : memOk s.mem = true) : memOk (runOne x b g y a s).2.mem = true := by
  unfold runOne; split <;> simp [*]

@[simp] theorem runTwo_canon (x : Block) (b g : Nat) (y : Group) (a c : Path) (s : State)  (hm : memOk s.mem = true) : memOk (runTwo x b g y a c s).2.mem = true := by
  simp only [runTwo]; repeat' split
  all_goals simp_all

@[simp] theorem runPaths_canon (x : Block) (b g : Nat) (q : Plan) (s : State)  (hm : memOk s.mem = true) : memOk (runPaths x b g q s).2.mem = true := by
  unfold runPaths; split <;> simp [*]

@[simp] theorem clearPassed_mem (c lane : Nat) (s : State)  : (clearPassed c lane s).mem = s.mem := by
  simp [clearPassed]

@[simp] theorem refreshHolds_mem (s : State) (b : Nat)  : (refreshHolds s b).mem = s.mem := by
  simp [refreshHolds]

@[simp] theorem notePass_mem (x : Block) (q : Plan) (lanes : Nat) (s : State)  : (notePass x q lanes s).mem = s.mem := by
  simp [notePass]

@[simp] theorem takeLanes_mem (c b g : Nat) (lanes : List Nat) (s : State)  : (takeLanes c b g lanes s).mem = s.mem := by
  simp [takeLanes]

@[simp] theorem afterPass_mem (x : Block) (b g : Nat) (q : Plan) (s : State)  : (afterPass x b g q s).mem = s.mem := by
  simp only [afterPass]; repeat' split
  all_goals simp_all

@[simp] theorem issuePaths_canon (b g : Nat) (x : Block) (y : Group) (s : State)  (hm : memOk s.mem = true) : memOk (issuePaths b g x y s).mem = true := by
  have hz : memOk (foldS (fun (a : Path) s => touchRead x.ctx .fetch (fetchVa x a.pc) (fetchFind s x a.pc)) (planOf s x g y).paths s).mem = true := by
    rw [foldS_mem _ (fun a s => by simp)]; exact hm
  unfold issuePaths
  extract_lets q lanes z q2 s1 s2 s3 c0 s4 x2 q3 r s5 s6 s7
  have h4 : memOk s4.mem = true := by
    simp only [s4, s3, s2, s1, takeLanes_mem, notePass_mem, occupy_mem, modGrp_mem, clearPassed_mem]; exact hz
  have h6 : memOk s6.mem = true := by
    simp only [s6]
    exact runPaths_canon _ _ _ _ _ h4
  have h7 : memOk s7.mem = true := by simp only [s7, modGrp_mem]; exact h6
  rw [refreshHolds_mem]
  split
  · exact releaseDue_canon _ _ (by simpa using h7)
  · exact h7

@[simp] theorem issueRedo_canon (b g : Nat) (x : Block) (y : Group) (s : State)  (hm : memOk s.mem = true) : memOk (issueRedo b g x y s).mem = true := by
  unfold issueRedo
  dsimp only
  split
  · split
    · simp only [modGrp_mem]; exact outState_canon _ _ (fun _ h hs => execLoggedReissue_canon b g _ _ h hs) (by simp [hm])
    · simp only [leaveLane_mem, modGrp_mem]; exact outState_canon _ _ (fun _ h hs => execLoggedReissue_canon b g _ _ h hs) (by simp [hm])
  · simp only [modGrp_mem]; exact outState_canon _ _ (fun _ h hs => execLoggedReissue_canon b g _ _ h hs) (by simp [hm])

@[simp] theorem issuePass_canon (b g : Nat) (x : Block) (y : Group) (s : State)  (hm : memOk s.mem = true) : memOk (issuePass b g x y s).mem = true := by
  unfold issuePass; split <;> simp [hm]

@[simp] theorem mismatch_canon (b g : Nat) (diff : BitVec 32) (persistent : Bool) (blame : Nat) (s : State)  (hm : memOk s.mem = true) : memOk (mismatch b g diff persistent blame s).mem = true := by
  simp only [mismatch]; repeat' split
  all_goals simp_all

@[simp] theorem mmaMismatch_mem (b g : Nat) (persistent : Bool) (s : State)  : (mmaMismatch b g persistent s).mem = s.mem := by
  simp only [mmaMismatch]; repeat' split
  all_goals first
    | rfl
    | (simp only [modCore_mem]
       rw [foldS_mem _ (fun z s => by simp)]; simp)
    | (rw [foldS_mem _ (fun z s => by repeat' split
                                      all_goals simp)]; simp)

@[simp] theorem residueHit_mem (b g : Nat) (onPartner : Bool) (s : State)  : (residueHit b g onPartner s).mem = s.mem := by
  unfold residueHit; repeat' split
  all_goals simp [*]

@[simp] theorem structError_canon (die : Nat) (core : Option Nat) (ctx : Word) (s : State)  (hm : memOk s.mem = true) : memOk (structError die core ctx s).mem = true := by
  unfold structError; repeat' split
  all_goals simp [*]

@[simp] theorem wrongReg_mem (b g : Nat) (vector : Bool) (ix : Nat) (v : Word) (found : Bool) (s : State)  : (wrongReg b g vector ix v found s).mem = s.mem := by
  unfold wrongReg; split <;> simp [*]

@[simp] theorem parityError_mem (die a n : Nat) (ctx : Option Word) (core : Option Nat) (s : State)  : (parityError die a n ctx core s).mem = s.mem := by
  simp [parityError]

@[simp] theorem issueLane_canon (c l : Nat) (s : State)  (hm : memOk s.mem = true) : memOk (issueLane c l s).mem = true := by
  unfold issueLane; split <;> simp [*]

@[simp] theorem act_canon (a : Act) (s : State)  (hm : memOk s.mem = true) : memOk (act a s).mem = true := by
  cases a with
  | ret b g => exact outState_canon _ _ (fun _ h hs => execMemoryReturn_canon b g _ _ h hs) hm
  | copy b g => exact outState_canon _ _ (fun _ h hs => execCopyComplete_canon b g _ _ h hs) hm
  | gath b g => exact outState_canon _ _ (fun _ h hs => execGatherComplete_canon b g _ _ h hs) hm
  | mma b g => exact outState_canon _ _ (fun _ h hs => execMmaComplete_canon b g _ _ h hs) hm
  | pref b g => exact outState_canon _ _ (fun _ h hs => execPrefDeadline_canon b g _ _ h hs) hm
  | bound b g => exact outState_canon _ _ (fun _ h hs => execActiveReadyBound_canon b g _ _ h hs) hm
  | pend b g => exact outState_canon _ _ (fun _ h hs => execPendingReadyBound_canon b g _ _ h hs) hm
  | rdv b g => exact outState_canon _ _ (fun _ h hs => execRendezvousWatchdog_canon b g _ _ h hs) hm
  | bar b id => exact outState_canon _ _ (fun _ h hs => execBarrierWatchdog_canon b id _ _ h hs) hm
  | wake c => exact outState_canon _ _ (fun _ h hs => execSleepWake_canon c _ _ h hs) hm
  | quar c => exact outState_canon _ _ (fun _ h hs => execQuarantineTimeout_canon c _ _ h hs) hm
  | start n => exact outState_canon _ _ (fun _ h hs => execInstStart_canon n _ _ h hs) hm
  | node n k => exact outState_canon _ _ (fun _ h hs => execNodeDispatch_canon n k _ _ h hs) hm
  | place k => exact outState_canon _ _ (fun _ h hs => execTroupePlace_canon k _ _ h hs) hm
  | back b g => exact outState_canon _ _ (fun _ h hs => execGroupRestore_canon b g _ _ h hs) hm
  | save b => exact outState_canon _ _ (fun _ h hs => execBlockSave_canon b _ _ h hs) hm
  | move b c => exact outState_canon _ _ (fun _ h hs => execBlockRelocate_canon b c _ _ h hs) hm
  | trap hp => exact outState_canon _ _ (fun _ h hs => execTrapEntryWrite_canon hp _ _ h hs) hm
  | flush hp => exact outState_canon _ _ (fun _ h hs => execFlushComplete_canon hp _ _ h hs) hm
  | record hp => exact outState_canon _ _ (fun _ h hs => execCompletionRecordWrite_canon hp _ _ h hs) hm
  | inval hp => exact outState_canon _ _ (fun _ h hs => execInvalidateComplete_canon hp _ _ h hs) hm
  | late ctx => exact outState_canon _ _ (fun _ h hs => execPreemptTimeout_canon ctx _ _ h hs) hm
  | flit p => exact outState_canon _ _ (fun _ h hs => execFlitSend_canon p _ _ h hs) hm
  | promote ctx va => exact outState_canon _ _ (fun _ h hs => execMigrationPromote_canon ctx va _ _ h hs) hm
  | switch k => exact outState_canon _ _ (fun _ h hs => execPageSwitch_canon k _ _ h hs) hm
  | refill c q => exact outState_canon _ _ (fun _ h hs => execQueueWindowRefill_canon c q _ _ h hs) hm
  | cont k q => exact outState_canon _ _ (fun _ h hs => execContinuationEnqueue_canon k q _ _ h hs) hm
  | drain k b => exact outState_canon _ _ (fun _ h hs => execBankDrainComplete_canon k b _ _ h hs) hm
  | replay j => exact outState_canon _ _ (fun _ h hs => execAssayReplay_canon j _ _ h hs) hm
  | compare j => exact outState_canon _ _ (fun _ h hs => execAssayCompare_canon j _ _ h hs) hm
  | third j => exact outState_canon _ _ (fun _ h hs => execAssayThirdRun_canon j _ _ h hs) hm
  | expire j => exact outState_canon _ _ (fun _ h hs => execAssayBoundExpiry_canon j _ _ h hs) hm
  | collEnd c => exact outState_canon _ _ (fun _ h hs => execCollectiveTimeout_canon c _ _ h hs) hm
  | collAlone c => exact outState_canon _ _ (fun _ h hs => execCollectiveComplete_canon c [] [] _ _ h hs) hm
  | issue c l => exact issueLane_canon c l s hm
  | mail => exact performMail_canon s hm
  | tick => rw [show (act .tick s) = advanceTime 1 s from rfl, advanceTime_mem]; exact hm
  | meet b g => rw [show (act (.meet b g) s) = rendezvous s b g from rfl, rendezvous_mem]; exact hm
  | collTell c => exact collTell_canon s c hm
  | ack p => exact outState_canon _ _ (fun _ h hs => execAckTimeout_canon p _ _ h hs) hm
  | retrain p => exact outState_canon _ _ (fun _ h hs => execRetrainTimeout_canon p _ _ h hs) hm
  | stall p vc => exact outState_canon _ _ (fun _ h hs => execCreditStall_canon p vc _ _ h hs) hm
  | unit c k => exact outState_canon _ _ (fun _ h hs => execMatrixUnitReset_canon c k _ _ h hs) hm
  | refresh d => rw [show (act (.refresh d) s) = refreshDie d s from rfl, refreshDie_mem]; exact hm
  | patrol k => rw [show (act (.patrol k) s) = patrolRound k s from rfl, patrolRound_mem]; exact hm
  | foreman k =>
    show memOk (modCluster (outState (execForemanEvaluate k s) s) k.val _).mem = true
    rw [modCluster_mem]; exact outState_canon _ _ (fun _ h hs => execForemanEvaluate_canon k _ _ h hs) hm
  | collBad c => exact collCast_canon s c 3 hm
  | energy =>
    show memOk (modSh (outState (execEnergyMeter s) s) _).mem = true
    rw [modSh_mem]; exact outState_canon _ _ (fun _ h hs => execEnergyMeter_canon _ _ h hs) hm
  | volt x =>
    show memOk (modReg (outState (execUndervoltInterval x s) s) x.val _).mem = true
    rw [modReg_mem]; exact outState_canon _ _ (fun _ h hs => execUndervoltInterval_canon x _ _ h hs) hm

/-- A step of the device's own keeps the canonical form of the memory. -/
theorem ownStep_canon (s : State) (hm : memOk s.mem = true) : memOk (ownStep s).mem = true := by
  have hs : memOk (settleAll s).mem = true := by simp [hm]
  unfold ownStep
  split
  · split
    · split
      · exact hm
      · exact performMail_canon s hm
    · exact outState_canon _ _ (fun _ h hs => execBringUp_canon _ _ h hs) hm
  · dsimp only
    split
    · exact act_canon _ _ hs
    · exact act_canon _ _ (by simp [hm])
    · exact act_canon _ _ (by simp [hm])

@[simp] theorem mailFirst_canon (e : Instr) (s : State)  (hm : memOk s.mem = true) : memOk (mailFirst e s).mem = true := by
  unfold mailFirst; split <;> simp [*]

end Sys2Proof.Laws
end

