-- ==== Sys2Proof/Laws/MemOps.lean ====
section
/-! SUPPORT. What a load, a store and an atomic leave when every access of their path is served. -/

namespace Sys2Proof.Laws
open Sys2Proof.Machine

/-! Ranks. -/

theorem maskList_sorted (m : BitVec 32) : (maskList m).Pairwise (· < ·) := List.Pairwise.filter _ List.pairwise_lt_range

theorem filter_below (l : List Nat) (h : l.Pairwise (· < ·)) (j : Nat) (hj : j < l.length) :
    (l.filter (fun u => u < l.getD j 0)).length = j := by
  induction l generalizing j with
  | nil => simp at hj
  | cons a l ih =>
    have hp := List.pairwise_cons.1 h
    cases j with
    | zero =>
      have : (a :: l).filter (fun u => u < a) = [] := by
        rw [List.filter_eq_nil_iff]
        intro u hu
        rcases List.mem_cons.1 hu with rfl | hu
        · simp
        · have := hp.1 u hu; simp; omega
      simpa using this
    | succ j =>
      have hj' : j < l.length := by simpa using hj
      have hm : l.getD j 0 ∈ l := by simp [List.getD, List.getElem?_eq_getElem hj']
      have := hp.1 _ hm
      simp only [List.getD_cons_succ]
      rw [List.filter_cons_of_pos (by simpa using this), List.length_cons, ih hp.2 j hj']

theorem rankOf_getD {s : State} {p : Pass} (hp : pass? s = some p) {j : Nat} (hj : j < p.L.length) : rankOf p (p.L.getD j 0) = j := by
  obtain ⟨_, hL, _⟩ := pass?_some hp
  exact filter_below p.L (by rw [hL]; exact maskList_sorted _) j hj

theorem range_getD (l : List Nat) : (List.range l.length).map (fun j => l.getD j 0) = l := by
  apply List.ext_getElem?
  intro k
  by_cases hk : k < l.length
  · simp [hk]
  · simp [List.getElem?_eq_none (Nat.le_of_not_lt hk)]; omega

/-! What a clear pass knows of its instruction. -/

theorem wf_of_clear {i : Instr} {s : State} {p : Pass} (h : Clear i s p) : i.wf = true := by
  obtain ⟨t, ht⟩ := List.exists_mem_of_ne_nil _ (pass?_some h.1).2.2
  have := h.2 t ht
  unfold condAt fieldCond at this
  cases hw : i.wf with
  | true => rfl
  | false => simp [hw] at this

/-- A switch-capable instruction that executes reads no `prv` (R172). -/
theorem noPrv_of_clear {i : Instr} {s : State} {p : Pass} (h : Clear i s p) (ho : opSwitch (opcode i) = true) : readsPrv i = false := by
  have hw := wf_of_clear h
  unfold Instr.wf Shape.prvOk at hw
  unfold readsPrv
  cases hc : (shape i).regSources.contains .prv with
  | false => rfl
  | true => rw [hc, ho] at hw; simp at hw

/-! Results that return later. -/

theorem setReg_e (t : Nat) (r : PReg) (ws : List Word) (y : Group) (e : GEng) : setReg t r ws { y with e := e } = { setReg t r ws y with e := e } := by
  induction ws generalizing r y with
  | nil => rfl
  | cons w ws ih =>
    cases r with
    | v r => exact ih (.v (r + 1)) { y with r := { y.r with v := wset y.r.v (32 * r + t) w } }
    | s r => exact ih (.s (r + 1)) { y with r := { y.r with s := wset y.r.s r w } }

theorem writeOp_e (P : Group) (n : Bool) (d : Dst) (t : Nat) (ws : List Word) (push : Word) (y : Group) (e : GEng) :
    writeOp P n d t ws push { y with e := e } = { writeOp P n d t ws push y with e := e } := by
  unfold writeOp
  have hp : pushLatch t push { y with e := e } = { pushLatch t push y with e := e } := rfl
  rw [hp]
  cases n with
  | true => rfl
  | false =>
    cases dstReg P d with
    | none => rfl
    | some r => exact setReg_e t r ws _ e

theorem foldWrite_e (P : Group) (n : Bool) (d : Dst) (ws : List Word) (push : Word) (ts : List Nat) (y : Group) (e : GEng) :
    ts.foldl (fun y t => writeOp P n d t ws push y) { y with e := e } = { ts.foldl (fun y t => writeOp P n d t ws push y) y with e := e } := by
  induction ts generalizing y with
  | nil => rfl
  | cons t ts ih => simp only [List.foldl_cons, writeOp_e, ih]

theorem advance_e (ts : List Nat) (y : Group) (e : GEng) : advance ts { y with e := e } = { advance ts y with e := e } := by
  induction ts generalizing y with
  | nil => rfl
  | cons t ts ih => exact ih (modThr t (fun x => { x with pc := x.pc + 4 }) y)

theorem pendLoad_e (k : List Nat × List Nat) (y : Group) :
    ∃ e : GEng, pendLoad k y = { y with e := e } ∧ e = { y.e with vpend := e.vpend, spend := e.spend, returns := e.returns } := by
  unfold pendLoad
  split
  · exact ⟨y.e, rfl, rfl⟩
  · exact ⟨_, rfl, rfl⟩

/-- A group's engine side but for the pending marks. -/
theorem foldPend {α : Type} (P : Group) (d : Dst) (ds : α → List Nat) (ws : α → List Word) (k : α → List Nat × List Nat) (l : List α) (y : Group) :
    ∃ e : GEng, l.foldl (fun y v => pendLoad (k v) ((ds v).foldl (fun y t => writeOp P false d t (ws v) ((ws v).headD 0) y) y)) y =
      { l.foldl (fun y v => (ds v).foldl (fun y t => writeOp P false d t (ws v) ((ws v).headD 0) y) y) y with e := e } ∧
      e = { y.e with vpend := e.vpend, spend := e.spend, returns := e.returns } := by
  have he : ∀ (ts : List Nat) (w : List Word) (y : Group), (ts.foldl (fun y t => writeOp P false d t w (w.headD 0) y) y).e = y.e := by
    intro ts w y
    have := foldWrite_e P false d w (w.headD 0) ts y y.e
    have h2 : ({ y with e := y.e } : Group) = y := rfl
    rw [h2] at this
    rw [this]
  induction l generalizing y with
  | nil => exact ⟨y.e, rfl, rfl⟩
  | cons v l ih =>
    simp only [List.foldl_cons]
    obtain ⟨e1, h1, h2⟩ := pendLoad_e (k v) ((ds v).foldl (fun y t => writeOp P false d t (ws v) ((ws v).headD 0) y) y)
    rw [h1]
    obtain ⟨e2, h3, h4⟩ := ih { (ds v).foldl (fun y t => writeOp P false d t (ws v) ((ws v).headD 0) y) y with e := e1 }
    refine ⟨e2, ?_, ?_⟩
    · rw [h3]
      have key : ∀ (l : List α) (y : Group) (e : GEng),
          l.foldl (fun y v => (ds v).foldl (fun y t => writeOp P false d t (ws v) ((ws v).headD 0) y) y) { y with e := e } =
          { l.foldl (fun y v => (ds v).foldl (fun y t => writeOp P false d t (ws v) ((ws v).headD 0) y) y) y with e := e } := by
        intro l
        induction l with
        | nil => intro y e; rfl
        | cons v l ih => intro y e; rw [List.foldl_cons, List.foldl_cons, foldWrite_e, ih]
      rw [key]
    · rw [h4, h2, he]

/-- The results of a path's accesses: each active thread receives those of its access. -/
theorem results_writes {i : Instr} {s : State} {p : Pass} (hp : pass? s = some p) (hx : i.xclass ≠ .whole) (P : Group) (d : Dst)
    (W : Nat → List Word) (val : Nat → List Byte × Option Nat) (hW : ∀ k, k < (accThreads i p).length → loadWords i (val k).1 = W k) (y : Group) :
    ((List.range (accThreads i p).length).map (fun j => ((accThreads i p).getD j 0, val j))).foldl
      (fun y v => (accDests i p v.1).foldl (fun y t => writeOp P false d t (loadWords i v.2.1) ((loadWords i v.2.1).headD 0) y) y) y =
    writes P false d (fun u => W (accIx i p u)) (fun u => (W (accIx i p u)).headD 0) p.L y := by
  obtain ⟨_, hL, hne⟩ := pass?_some hp
  cases hc : i.xclass with
  | whole => exact absurd hc hx
  | uniform =>
    have h1 : accThreads i p = [p.low] := by simp [accThreads, hc]
    have h2 : ∀ t, accDests i p t = p.L := by intro t; simp [accDests, hc]
    have h3 : ∀ t, accIx i p t = 0 := by intro t; simp [accIx, hc]
    rw [h1] at hW ⊢
    have := hW 0 (by simp)
    simp only [h2, h3, List.length_singleton, List.foldl_map]
    show p.L.foldl _ y = _
    rw [this]
    rfl
  | perThread =>
    have h1 : accThreads i p = p.L := by simp [accThreads, hc]
    have h2 : ∀ t, accDests i p t = [t] := by intro t; simp [accDests, hc]
    have h3 : ∀ t, accIx i p t = rankOf p t := by intro t; simp [accIx, hc]
    rw [h1] at hW ⊢
    simp only [h2, h3, List.foldl_map, List.foldl_cons, List.foldl_nil]
    unfold writes
    conv => rhs; rw [← range_getD p.L]
    rw [List.foldl_map]
    have : ∀ l : List Nat, (∀ j ∈ l, j < p.L.length) → ∀ y : Group,
        l.foldl (fun y j => writeOp P false d (p.L.getD j 0) (loadWords i (val j).1) ((loadWords i (val j).1).headD 0) y) y =
        l.foldl (fun y j => writeOp P false d (p.L.getD j 0) (W (rankOf p (p.L.getD j 0))) ((W (rankOf p (p.L.getD j 0))).headD 0) y) y := by
      intro l
      induction l with
      | nil => intro _ y; rfl
      | cons j l ih =>
        intro hl y
        have hj := hl j (by simp)
        simp only [List.foldl_cons]
        rw [rankOf_getD hp hj, hW j hj]
        exact ih (fun k hk => hl k (List.mem_cons_of_mem _ hk)) _
    exact this _ (fun j hj => List.mem_range.1 hj) y

/-! Loads. -/

theorem leNat_replicate (n : Nat) : leNat (List.replicate n (0 : Byte)) = 0 := by
  induction n with
  | zero => rfl
  | succ n ih => rw [List.replicate_succ, leNat, ih]; rfl

theorem leNat_lt (l : List Byte) : leNat l < 2 ^ (8 * l.length) := by
  induction l with
  | nil => simp [leNat]
  | cons b r ih =>
    have := b.isLt
    simp only [leNat, List.length_cons]
    rw [show 8 * (r.length + 1) = 8 + 8 * r.length by omega, Nat.pow_add]
    generalize 2 ^ (8 * r.length) = z at *
    omega

theorem viewTimes_settled {s : State} {y : Group} {a n : Nat} (h : ∀ j, j < n → ∀ w ∈ s.hist, w.loc ≠ a + j) :
    ∃ t, viewTimes s y a n = [t] := by
  have hw : ∀ x ∈ locs a n, writesAt s x = [] := by
    intro x hx
    unfold locs at hx
    obtain ⟨j, hj, rfl⟩ := List.mem_map.1 hx
    unfold writesAt
    rw [List.filter_eq_nil_iff]
    intro w hw
    have := h j (List.mem_range.1 hj) w hw
    simpa using this
  have hws : ∀ lo : Nat, (locs a n).flatMap (fun x => (writesAt s x).filter (fun w => lo ≤ w.stamp && returnable s y w)) = [] := by
    intro lo
    rw [List.flatMap_eq_nil_iff]
    intro x hx
    rw [hw x hx]; rfl
  unfold viewTimes
  simp only [hws]
  split
  · exact ⟨none, rfl⟩
  · exact ⟨_, rfl⟩

theorem wholeTimes_settled {s : State} {y : Group} {a n : Nat} (h : ∀ j, j < n → ∀ w ∈ s.hist, w.loc ≠ a + j) :
    ∃ t, wholeTimes s y a n = [t] := by
  obtain ⟨t, ht⟩ := viewTimes_settled (y := y) h
  refine ⟨t, ?_⟩
  unfold wholeTimes
  rw [ht]
  simp only [List.filter_cons, List.filter_nil]
  split <;> simp_all

/-- A plain load of settled memory returns what stands there, and what it makes stable is that. -/
theorem plainLoad_settled {s : State} {b g : Nat} {y : Group} (hg : s.grp? b g = some y) {a n : Nat}
    (h : ∀ j, j < n → (∀ w ∈ s.hist, w.loc ≠ a + j) ∧ ∀ v, tget? y.c.stable (a + j) = some v → v = mget s.mem (a + j)) :
    (plainLoad s b g a n).1 = mgetN s.mem a n ∧
    ∃ z, (plainLoad s b g a n).2.grp? b g = some z ∧
      ∀ x v, tget? z.c.stable x = some v → tget? y.c.stable x = some v ∨ v = mget s.mem x := by
  obtain ⟨t, ht⟩ := wholeTimes_settled (y := y) (fun j hj => (h j hj).1)
  have hval : ∀ x ∈ locs a n, ∀ T, (valueAt s y T x).1 = mget s.mem x ∧ (bankValue s x).1 = mget s.mem x := by
    intro x hx T
    unfold locs at hx
    obtain ⟨j, hj, rfl⟩ := List.mem_map.1 hx
    have hw : writesAt s (a + j) = [] := by
      unfold writesAt
      rw [List.filter_eq_nil_iff]
      intro w hw
      have := (h j (List.mem_range.1 hj)).1 w hw
      simpa using this
    unfold valueAt bankValue
    rw [hw]
    exact ⟨rfl, rfl⟩
  have hgot : ∀ x ∈ locs a n, (match tget? y.c.stable x with
      | some v => (x, v, 0, tget y.c.floor x 0)
      | none => let r := match t with | some T => valueAt s y T x | none => bankValue s x
                (x, r.1, r.2.1, r.2.2)).2.1 = mget s.mem x := by
    intro x hx
    cases hs : tget? y.c.stable x with
    | some v =>
      unfold locs at hx
      obtain ⟨j, hj, rfl⟩ := List.mem_map.1 hx
      exact (h j (List.mem_range.1 hj)).2 v hs
    | none =>
      cases t with
      | some T => exact (hval x hx T).1
      | none => exact (hval x hx 0).2
  have hN : ∀ (n a : Nat), (locs a n).map (fun x => mget s.mem x) = mgetN s.mem a n := by
    intro n
    induction n with
    | zero => intro a; rfl
    | succ n ih =>
      intro a
      have : locs a (n + 1) = a :: locs (a + 1) n := by
        unfold locs
        rw [List.range_succ_eq_map, List.map_cons, List.map_map]
        simp only [Nat.add_zero, List.cons.injEq, true_and]
        apply List.map_congr_left
        intro k _
        show a + (k + 1) = a + 1 + k
        omega
      rw [this, List.map_cons, ih]; rfl
  unfold plainLoad
  rw [hg]
  simp only [ht, chooseFrom]
  refine ⟨?_, ?_⟩
  · unfold gotAt
    rw [List.map_map, ← hN]
    exact List.map_congr_left hgot
  · refine ⟨_, by rw [grp?_modGrp_same, hg]; rfl, ?_⟩
    -- every entry the fold makes stable is memory's
    have key : ∀ (l : List (Nat × Byte × Nat × Nat)) (c : Cons), (∀ x ∈ l, x.2.1 = mget s.mem x.1) →
        ∀ x v, tget? (l.foldl (fun (c : Cons) (x : Nat × Byte × Nat × Nat) =>
          { c with
            stable := tset c.stable x.1 x.2.1
            floor := if tget c.floor x.1 0 < x.2.2.2 then tset c.floor x.1 x.2.2.2 else c.floor
            obs := if x.2.2.1 = 0 ∨ x.2.2.1 = y.uid then c.obs else tmax c.obs [(x.2.2.1, x.2.2.2)] }) c).stable x = some v →
        tget? c.stable x = some v ∨ v = mget s.mem x := by
      intro l
      induction l with
      | nil => intro c _ x v hv; exact Or.inl hv
      | cons e l ih =>
        intro c hl x v hv
        rcases ih _ (fun x hx => hl x (List.mem_cons_of_mem _ hx)) x v hv with h1 | h1
        · simp only [tget?_tset] at h1
          split at h1
          · rename_i e1
            cases h1
            exact Or.inr (by rw [hl e (by simp), e1])
          · exact Or.inl h1
        · exact Or.inr h1
    apply key
    intro x hx
    obtain ⟨q, hq, rfl⟩ := List.mem_map.1 hx
    have h1 := hgot q hq
    cases hs : tget? y.c.stable q with
    | some v => rw [hs] at h1; exact h1
    | none => rw [hs] at h1; exact h1

/-- The Assayer's journal after the accesses of a path. -/
theorem frame_journal {s : State} {b g : Nat} {y : Group} (h : s.grp? b g = some y) (mask : BitVec 32) (vals : List (List Byte)) :
    ∃ z, AccessFrame s (journal s b g mask vals) b g y z ∧ z.c = y.c ∧ z.r = y.r ∧ (journal s b g mask vals).mem = s.mem ∧
      (journal s b g mask vals).hist = s.hist ∧ (journal s b g mask vals).stamp = s.stamp ∧
      (journal s b g mask vals).poison = s.poison ∧ (journal s b g mask vals).clusters = s.clusters := by
  unfold journal
  rw [h]
  simp only
  split
  · exact ⟨y, frame_refl h, rfl, rfl, rfl, rfl, rfl, rfl, rfl⟩
  · split
    · unfold unassayable
      rw [h]
      simp only
      split
      · have h1 := frame_modGrp h (fun y => { y with a := { y.a with unassayable := true } }) rfl
        refine ⟨{ y with a := { y.a with unassayable := true } }, frame_trans h1 ⟨?_, ?_, fun _ _ _ => rfl, fun _ x hx => ⟨x, hx, rfl⟩, fun _ => rfl, rfl⟩, rfl, rfl, by simp [modSh], by simp [modSh], by simp [modSh], by simp [modSh], by simp [modSh]⟩
        · rfl
        · have hsh : ∀ (s : State) (f : Shared → Shared), (modSh s f).grp? b g = s.grp? b g := fun _ _ => rfl
          rw [hsh]; exact h1.grp
      · exact ⟨y, frame_refl h, rfl, rfl, rfl, rfl, rfl, rfl, rfl⟩
    · exact ⟨_, frame_modGrp h _ rfl, rfl, rfl, by simp, by simp, by simp, by simp, by simp⟩

theorem frame_keepImm {s : State} {b g : Nat} {y : Group} (h : s.grp? b g = some y) (l : List (Nat × List Byte)) :
    ∃ z, AccessFrame s (keepImm s b g l) b g y z ∧ z.c = y.c ∧ z.r = y.r ∧ (keepImm s b g l).mem = s.mem ∧
      (keepImm s b g l).hist = s.hist ∧ (keepImm s b g l).stamp = s.stamp ∧
      (keepImm s b g l).poison = s.poison ∧ (keepImm s b g l).clusters = s.clusters := by
  unfold keepImm
  split
  · exact ⟨y, frame_refl h, rfl, rfl, rfl, rfl, rfl, rfl, rfl⟩
  · refine ⟨_, frame_modGrp h _ ?_, ?_, ?_, by simp, by simp, by simp, by simp, by simp⟩
    all_goals (split <;> rfl)

/-- What is journalled with nothing late has no place to remember (R71). -/
theorem itemPlaces_none {items : List (Nat × List Byte × Bool)} (h : ∀ z ∈ items, z.2.2 = false) (a k : Nat) : itemPlaces a k items = [] := by
  induction items generalizing k with
  | nil => rfl
  | cons z r ih => simp [itemPlaces, h z (by simp), ih (fun w hw => h w (by simp [hw]))]

theorem frame_journalItems {s : State} {b g : Nat} {y : Group} (h : s.grp? b g = some y) (up : Bool) (i : Instr) (pc : Word)
    {items : List (Nat × List Byte × Bool)} (hi : ∀ z ∈ items, z.2.2 = false) :
    ∃ z, AccessFrame s (journalItems s b g up i pc items) b g y z ∧ z.c = y.c ∧ z.r = y.r ∧ (journalItems s b g up i pc items).mem = s.mem ∧
      (journalItems s b g up i pc items).hist = s.hist ∧ (journalItems s b g up i pc items).stamp = s.stamp ∧
      (journalItems s b g up i pc items).poison = s.poison ∧ (journalItems s b g up i pc items).clusters = s.clusters := by
  unfold journalItems
  rw [h]
  dsimp only
  split
  · unfold journalEntry
    rw [h]
    dsimp only
    split
    · exact ⟨y, frame_refl h, rfl, rfl, rfl, rfl, rfl, rfl, rfl⟩
    · simp only [itemPlaces_none hi, notePlaces, List.isEmpty_nil, if_true]
      exact frame_journal h _ _
  · split
    · exact ⟨y, frame_refl h, rfl, rfl, rfl, rfl, rfl, rfl, rfl⟩
    · exact ⟨_, frame_modGrp h _ rfl, rfl, rfl, by simp, by simp, by simp, by simp, by simp⟩

theorem frame_journalPath {s : State} {p : Pass} {y : Group} (h : s.grp? p.b p.g = some y) (i : Instr) (vals : List (Nat × List Byte × Option Nat)) (n : Nat) :
    ∃ z, AccessFrame s (journalPath s p i vals [] n) p.b p.g y z ∧ z.c = y.c ∧ z.r = y.r ∧ (journalPath s p i vals [] n).mem = s.mem ∧
      (journalPath s p i vals [] n).hist = s.hist ∧ (journalPath s p i vals [] n).stamp = s.stamp ∧
      (journalPath s p i vals [] n).poison = s.poison ∧ (journalPath s p i vals [] n).clusters = s.clusters := by
  unfold journalPath
  simp only [List.map_nil, List.isEmpty_nil, if_true]
  obtain ⟨z, hz, c1, c2, c3, c4, c5, c6, c7⟩ := frame_keepImm h (vals.filterMap (fun v => v.2.2.map (fun a => (a, v.2.1))))
  generalize keepImm s p.b p.g (vals.filterMap (fun v => v.2.2.map (fun a => (a, v.2.1)))) = u at *
  obtain ⟨x, hx, d1, d2, d3, d4, d5, d6, d7⟩ := frame_journalItems hz.grp p.upper i p.pc
    (items := (vals.filter (fun v => v.2.2.isNone)).map (fun v => (v.1, v.2.1, false)))
    (fun z hz => by obtain ⟨_, _, rfl⟩ := List.mem_map.1 hz; rfl)
  exact ⟨x, frame_trans hz hx, d1.trans c1, d2.trans c2, d3.trans c3, d4.trans c4, d5.trans c5, d6.trans c6, d7.trans c7⟩

theorem frame_countBytes {s : State} {b g : Nat} {y : Group} (h : s.grp? b g = some y) (ctx : Word) (sp : Space) (n : Nat) :
    AccessFrame s (countBytes ctx sp n s) b g y y ∧ (countBytes ctx sp n s).mem = s.mem ∧ (countBytes ctx sp n s).hist = s.hist ∧ (countBytes ctx sp n s).stamp = s.stamp ∧
      (countBytes ctx sp n s).poison = s.poison ∧ (countBytes ctx sp n s).clusters = s.clusters := by
  unfold countBytes note
  repeat' split
  all_goals exact ⟨⟨rfl, h, fun _ _ _ => rfl, fun _ x hx => ⟨x, hx, rfl⟩, fun _ => rfl, rfl⟩, rfl, rfl, rfl, rfl, rfl⟩

/-- Where every access was served none is journalled later. -/
theorem late_none {α : Type} (l : List Nat) (V : Nat → α) :
    l.filter (fun t => !((List.range l.length).map (fun j => (l.getD j 0, V j))).any (fun v => v.1 == t)) = [] := by
  rw [List.filter_eq_nil_iff]
  intro t ht
  obtain ⟨j, hj, rfl⟩ := List.mem_iff_getElem.1 ht
  simp only [List.any_map, Bool.not_eq_true, Bool.not_eq_false', List.any_eq_true, List.mem_range, Function.comp]
  exact ⟨j, hj, by simp [List.getD_eq_getElem?_getD, hj]⟩

/-- The flags of a path's accesses. -/
theorem flags_fold (m : Mem) (h : Nat → Hit) (k : Nat) (f : BitVec 9) (hr : m.kind.reads = true) :
    (List.range k).foldl (fun f j => f ||| accFlag m (h j)) f =
      f ||| (if ∃ j, j < k ∧ (h j).lapsed = true then 8 else 0) |||
        (if ∃ j, j < k ∧ (h j).lapsed = false ∧ (h j).alt = true ∧ (m.kind = .load ∧ m.space ≠ .win ∨ m.kind = .ldu) then 16 else 0) := by
  induction k with
  | zero => simp
  | succ k ih =>
    rw [List.range_succ, List.foldl_append, ih]
    simp only [List.foldl_cons, List.foldl_nil]
    have e1 : (∃ j, j < k + 1 ∧ (h j).lapsed = true) ↔ (∃ j, j < k ∧ (h j).lapsed = true) ∨ (h k).lapsed = true := by
      constructor
      · rintro ⟨j, hj, hl⟩
        rcases Nat.lt_succ_iff_lt_or_eq.1 hj with hj | rfl
        · exact Or.inl ⟨j, hj, hl⟩
        · exact Or.inr hl
      · rintro (⟨j, hj, hl⟩ | hl)
        · exact ⟨j, by omega, hl⟩
        · exact ⟨k, by omega, hl⟩
    have e2 : (∃ j, j < k + 1 ∧ (h j).lapsed = false ∧ (h j).alt = true ∧ (m.kind = .load ∧ m.space ≠ .win ∨ m.kind = .ldu)) ↔
        (∃ j, j < k ∧ (h j).lapsed = false ∧ (h j).alt = true ∧ (m.kind = .load ∧ m.space ≠ .win ∨ m.kind = .ldu)) ∨
        ((h k).lapsed = false ∧ (h k).alt = true ∧ (m.kind = .load ∧ m.space ≠ .win ∨ m.kind = .ldu)) := by
      constructor
      · rintro ⟨j, hj, hl⟩
        rcases Nat.lt_succ_iff_lt_or_eq.1 hj with hj | rfl
        · exact Or.inl ⟨j, hj, hl⟩
        · exact Or.inr hl
      · rintro (⟨j, hj, hl⟩ | hl)
        · exact ⟨j, by omega, hl⟩
        · exact ⟨k, by omega, hl⟩
    have hor : ∀ (P Q : Prop) [Decidable P] [Decidable Q] [Decidable (P ∨ Q)] (c : BitVec 9),
        (if P ∨ Q then c else 0) = (if P then c else 0) ||| (if Q then c else 0) := by
      intro P Q _ _ _ c
      by_cases hP : P <;> by_cases hQ : Q <;> simp [hP, hQ]
    have ek : accFlag m (h k) = (if (h k).lapsed = true then 8 else 0) |||
        (if (h k).lapsed = false ∧ (h k).alt = true ∧ (m.kind = .load ∧ m.space ≠ .win ∨ m.kind = .ldu) then 16 else 0) := by
      unfold accFlag
      cases hl : (h k).lapsed with
      | true => simp [hr]
      | false =>
        cases ha : (h k).alt <;> by_cases hk : m.kind = .load <;> by_cases hu : m.kind = .ldu <;> by_cases hw : m.space = .win <;> simp [hk, hw, hu]
    rw [ek]
    simp only [e1, e2, hor]
    generalize (if ∃ j, j < k ∧ (h j).lapsed = true then (8 : BitVec 9) else 0) = A
    generalize (if ∃ j, j < k ∧ (h j).lapsed = false ∧ (h j).alt = true ∧ (m.kind = .load ∧ m.space ≠ .win ∨ m.kind = .ldu) then (16 : BitVec 9) else 0) = B
    generalize (if (h k).lapsed = true then (8 : BitVec 9) else 0) = C
    generalize (if (h k).lapsed = false ∧ (h k).alt = true ∧ (m.kind = .load ∧ m.space ≠ .win ∨ m.kind = .ldu) then (16 : BitVec 9) else 0) = D
    apply BitVec.eq_of_getLsbD_eq
    intro n _
    simp only [BitVec.getLsbD_or]
    cases f.getLsbD n <;> cases A.getLsbD n <;> cases B.getLsbD n <;> cases C.getLsbD n <;> cases D.getLsbD n <;> rfl

theorem leNat_leBytes (n x : Nat) : leNat (leBytes n x) = x % 2 ^ (8 * n) := by
  induction n generalizing x with
  | zero => simp [leBytes, leNat, Nat.mod_one]
  | succ n ih =>
    simp only [leBytes, leNat, ih, BitVec.toNat_ofNat]
    rw [show 8 * (n + 1) = 8 + 8 * n by omega, Nat.pow_add, Nat.mod_mul]

/-- What a load of settled memory returns, its place among the path's accesses aside. -/
theorem load_vals {i : Instr} {q : MemI} {p : Pass} {s : State} {h : Nat → Hit} (hs : Served i q p s h) (hg : s.grp? p.b p.g = some p.G)
    (hk : q.m.kind = .load ∨ q.m.kind = .ldu) (hset : q.m.kind = .load → q.m.space ≠ .win → Settled i q.m.n p s h) (k : Nat)
    (hkl : k < (accThreads i p).length) :
    leNat (accVal i q p s h k) = if (h k).lapsed then 0 else leNat (mgetN s.mem (h k).loc q.m.n) := by
  have hdig : ∀ t s', turnOf i q p t s' = s' := by
    intro t s'; unfold turnOf digestAccess; rcases hk with hk | hk <;> rw [hk]
  have hwr : q.m.kind.writes = false := by rcases hk with hk | hk <;> rw [hk] <;> rfl
  -- the stable entries of the group stay memory's
  have inv : ∀ k, k ≤ (accThreads i p).length → q.m.kind = .load → q.m.space ≠ .win →
      ∃ z, (before i q p s k).grp? p.b p.g = some z ∧
        ∀ x v, tget? z.c.stable x = some v → tget? p.G.c.stable x = some v ∨ v = mget s.mem x := by
    intro k
    induction k with
    | zero => intro _ _ _; exact ⟨p.G, hg, fun x v hv => Or.inl hv⟩
    | succ k ih =>
      intro hkl hload hwin
      obtain ⟨z, hz, hst⟩ := ih (by omega) hload hwin
      obtain ⟨z', hf, _, _, hsame, _, _⟩ := accRun_done hs hg k (by omega)
      obtain ⟨hh, _, _, _, hmem⟩ := hsame hwr
      have hstep := accRun_step hs (k := k) (by omega)
      have hb : before i q p s (k + 1) = (accRun i q p s (k + 1)).2 := rfl
      rw [hb, hstep]
      simp only [hdig]
      unfold perform
      by_cases hl : (h k).lapsed = true
      · simp only [hl, if_true]
        have : q.m.kind.reads = true := by rw [hload]; rfl
        simp only [this, if_true]
        exact ⟨setSticky .lapsed z, by rw [grp?_modGrp_same, hz]; rfl, hst⟩
      · simp only [hl, hload]
        have hwin' : (q.m.space == Space.win) = false := by simpa using hwin
        simp only [hwin', Bool.false_eq_true, if_false]
        have ht := frame_touchMig hz (h k).home MKind.load.writes
        have e : (touchMig (before i q p s k) (h k).home MKind.load.writes).mem = s.mem ∧
            (touchMig (before i q p s k) (h k).home MKind.load.writes).hist = s.hist := by
          rw [← hmem, ← hh]; cases (h k).home <;> exact ⟨rfl, rfl⟩
        have hpl := plainLoad_settled ht.grp (a := (h k).loc) (n := q.m.n) (fun j hj => by
          have hse := hset hload hwin k (by omega) (by simpa using hl) j hj
          rw [e.2, e.1]
          refine ⟨hse.1, fun v hv => ?_⟩
          rcases hst _ _ hv with h1 | h1
          · exact hse.2 v h1
          · exact h1)
        obtain ⟨_, z2, hz2, hst2⟩ := hpl
        rw [e.1] at hst2
        have fin : ∀ x v, tget? z2.c.stable x = some v → tget? p.G.c.stable x = some v ∨ v = mget s.mem x := by
          intro x v hv
          rcases hst2 x v hv with h1 | h1
          · exact hst x v h1
          · exact Or.inr h1
        split
        · exact ⟨setSticky .altused z2, by rw [grp?_modGrp_same, hz2]; rfl, fin⟩
        · exact ⟨z2, hz2, fin⟩
  obtain ⟨z', hf, _, _, hsame, _, _⟩ := accRun_done hs hg k (by omega)
  obtain ⟨hh, _, _, _, hmem⟩ := hsame hwr
  unfold accVal
  simp only [hdig]
  unfold perform
  by_cases hl : (h k).lapsed = true
  · simp only [hl, if_true]; exact leNat_replicate _
  · simp only [hl, Bool.false_eq_true, if_false]
    have e : (touchMig (before i q p s k) (h k).home q.m.kind.writes).mem = s.mem ∧
        (touchMig (before i q p s k) (h k).home q.m.kind.writes).hist = s.hist := by
      rw [← hmem, ← hh]; cases (h k).home <;> exact ⟨rfl, rfl⟩
    have ht := frame_touchMig hf.grp (h k).home q.m.kind.writes
    rcases hk with hload | hldu
    · rw [hload] at e ht ⊢
      simp only
      by_cases hw : q.m.space = .win
      · simp only [hw, BEq.rfl, if_true]; unfold winLoad; rw [e.1]
      · have hwin' : (q.m.space == Space.win) = false := by simpa using hw
        simp only [hwin', Bool.false_eq_true, if_false]
        obtain ⟨z, hz, hst⟩ := inv k (by omega) hload hw
        have hzz : z = z' := by have := hf.grp; rw [hz] at this; exact Option.some.inj this
        subst hzz
        have hpl := plainLoad_settled ht.grp (a := (h k).loc) (n := q.m.n) (fun j hj => by
          have hse := hset hload hw k hkl (by simpa using hl) j hj
          rw [e.2, e.1]
          refine ⟨hse.1, fun v hv => ?_⟩
          rcases hst _ _ hv with h1 | h1
          · exact hse.2 v h1
          · exact h1)
        rw [hpl.1, e.1]
    · rw [hldu] at e ht ⊢
      simp only
      obtain ⟨_, _, _, h1, _⟩ := frame_atomicAt ht.grp (h k).loc q.m.n (fun _ => none)
      rw [h1, leNat_leBytes, e.1]
      have := leNat_lt (mgetN s.mem (h k).loc q.m.n)
      rw [mgetN_length] at this
      exact Nat.mod_eq_of_lt this

/-- A load instruction. -/
theorem loadOp_of {i : Instr} {d : Dst} {m : Mem} {signed plain : Bool} (hmo : memOf i = some m) (he : ∀ s, exec i s = loadI i d s)
    (hk : m.kind = .load ∨ m.kind = .ldu) (hp : plain = (m.kind == .load && m.space != .win)) (ho : opSwitch (opcode i) = true)
    (hx : i.xclass ≠ .whole) (hN : i.noWrite = false)
    (hv : ∀ l, l.length = m.n → loadWords i l = natWords (ceilDiv m.n 4) (loadNum signed m.n (leNat l))) (hn : 1 ≤ ceilDiv m.n 4) :
    LoadOp i d m signed plain := by
  intro s p h hc hfs hs hset
  obtain ⟨hg, hL, hne⟩ := pass?_some hc.1
  have hrd : m.kind.reads = true := by rcases hk with hk | hk <;> rw [hk] <;> rfl
  have hwr : m.kind.writes = false := by rcases hk with hk | hk <;> rw [hk] <;> rfl
  generalize hq : ({ m := m, d := d, data := fun _ _ => [], cmp := fun _ _ => [] } : MemI) = q at hs
  have hqm : q.m = m := by rw [← hq]
  have hqd : q.d = d := by rw [← hq]
  have hex : exec i s = .next (memEff i q p s) := by
    rw [he]
    unfold loadI
    rw [hmo]
    simp only
    rw [hq]
    unfold runMem
    rw [hfs]
    exact runPass_clear hc rfl _
  obtain ⟨z, hf, hr, hl, hsame, _, hlen⟩ := accRun_done hs hg (accThreads i p).length (Nat.le_refl _)
  rw [hqm] at hsame hlen hr
  obtain ⟨w1, w2, w3, w4, w5⟩ := hsame hwr
  have hfull : (accThreads i p).foldl (fun r t => accessOne i q p t r) ([], s) = accRun i q p s (accThreads i p).length := by
    unfold accRun; rw [List.take_length]
  have hwait : (accThreads i p).any (fun t => look p s q.m t == .wait) = false := by
    rw [List.any_eq_false]
    intro t ht
    simpa using hs.1 t ht
  obtain ⟨sp, hsp⟩ : ∃ sp, sp = (accRun i q p s (accThreads i p).length).1.flatMap (fun v => (accDests i p v.1).map (fun t => (t, v.2))) := ⟨_, rfl⟩
  obtain ⟨im, him⟩ : ∃ im : Nat → Option Nat, im = fun j => if (h j).imm then some (q.m.ea p ((accThreads i p).getD j 0)) else none := ⟨_, rfl⟩
  obtain ⟨x, hjf, hjc, hjr, j1, j2, j3, j4, j5⟩ := frame_journalPath hf.grp i sp m.n
  obtain ⟨cf, cn0, cn1, cn2, cn3, cn4⟩ := frame_countBytes hjf.grp p.B.ctx m.space ((accRun i q p s (accThreads i p).length).1.length * m.n)
  have hvals := fun k hkl => load_vals hs hg (by rw [hqm]; exact hk) (fun a b => by
    rw [hqm] at a b ⊢
    exact hset (by rw [hp, a]; simpa using b)) k hkl
  rw [hqm] at hvals
  let val : Nat → Nat := fun u => if (h (accIx i p u)).lapsed then 0 else loadNum signed m.n (leNat (mgetN s.mem (h (accIx i p u)).loc m.n))
  let V : Nat → Nat := fun k => if (h k).lapsed then 0 else loadNum signed m.n (leNat (mgetN s.mem (h k).loc m.n))
  have hW : ∀ k, k < (accThreads i p).length → loadWords i (accVal i q p s h k) = natWords (ceilDiv m.n 4) (V k) := by
    intro k hkl
    rw [hv _ (hlen hrd k hkl), hvals k hkl]
    congr 1
    simp only [V]
    split
    · unfold loadNum
      split
      · rename_i hh; simp at hh
      · rfl
    · rfl
  have hlist : (accRun i q p s (accThreads i p).length).1 =
      (List.range (accThreads i p).length).map (fun j => ((accThreads i p).getD j 0, (fun j => (accVal i q p s h j, im j)) j)) := by rw [hl, him]
  have hres := results_writes hc.1 hx p.P d (fun k => natWords (ceilDiv m.n 4) (V k)) (fun j => (accVal i q p s h j, im j)) hW x
  obtain ⟨e, hpe, hee⟩ := foldPend p.P d (fun v : Nat × List Byte × Option Nat => accDests i p v.1) (fun v => loadWords i v.2.1)
    (fun v => pendKeys (dstReg p.P d) (loadWords i v.2.1).length (accDests i p v.1))
    ((List.range (accThreads i p).length).map (fun j => ((accThreads i p).getD j 0, (accVal i q p s h j, im j)))) x
  rw [hres] at hpe
  have hpush : ∀ u, (natWords (ceilDiv m.n 4) (V (accIx i p u))).headD 0 = BitVec.ofNat 32 (val u) := by
    intro u
    obtain ⟨c, hcn⟩ := Nat.exists_eq_add_of_le' hn
    rw [hcn]; rfl
  have hw0 : writes p.P false d (fun u => natWords (ceilDiv m.n 4) (V (accIx i p u))) (fun u => (natWords (ceilDiv m.n 4) (V (accIx i p u))).headD 0) p.L x =
      writes p.P i.noWrite d (fun u => natWords (ceilDiv m.n 4) (val u)) (fun u => BitVec.ofNat 32 (val u)) p.L x := by
    rw [hN]; congr 1; funext u; exact hpush u
  have hprv := noPrv_of_clear hc ho
  have key := done_of_writes (i := i) (p := p) (x := x) (d := d) (len := ceilDiv m.n 4) (val := val) (dz := false) hL rfl hne
    (x.r.tail, x.r.tailOpen, x.r.resume) (by simp [chainAfter, hprv])
  have hwd := (writes_done p.P i.noWrite d (ceilDiv m.n 4) (fun u => natWords (ceilDiv m.n 4) (val u)) (fun u => BitVec.ofNat 32 (val u))
    (fun _ => natWords_length _ _) p.L (by rw [hL]; exact maskList_nodup _) (by intro t ht; rw [hL] at ht; exact maskList_lt ht) x).2.1
  have hst : ∀ W : Group, setStickyIf false .divz W = W := fun _ => rfl
  rw [hst] at key
  have htl : ({ (writes p.P i.noWrite d (fun u => natWords (ceilDiv m.n 4) (val u)) (fun u => BitVec.ofNat 32 (val u)) p.L x) with
      r := { (writes p.P i.noWrite d (fun u => natWords (ceilDiv m.n 4) (val u)) (fun u => BitVec.ofNat 32 (val u)) p.L x).r with
        tail := x.r.tail, tailOpen := x.r.tailOpen, resume := x.r.resume } } : Group) =
      writes p.P i.noWrite d (fun u => natWords (ceilDiv m.n 4) (val u)) (fun u => BitVec.ofNat 32 (val u)) p.L x := by
    generalize writes p.P i.noWrite d (fun u => natWords (ceilDiv m.n 4) (val u)) (fun u => BitVec.ofNat 32 (val u)) p.L x = W at hwd ⊢
    rw [hwd]
  rw [htl] at key
  have hframe := frame_trans (frame_trans hf hjf) cf
  have hlate : (accThreads i p).filter (fun t => !(accRun i q p s (accThreads i p).length).1.any (fun v => v.1 == t)) = [] := by
    rw [hlist]; exact late_none _ _
  refine ⟨_, countBytes p.B.ctx m.space ((accRun i q p s (accThreads i p).length).1.length * m.n)
      (journalPath (before i q p s (accThreads i p).length) p i sp [] m.n), x,
    advance p.L { writes p.P i.noWrite d (fun u => natWords (ceilDiv m.n 4) (val u)) (fun u => BitVec.ofNat 32 (val u)) p.L x with e := e },
    advance p.L (writes p.P i.noWrite d (fun u => natWords (ceilDiv m.n 4) (val u)) (fun u => BitVec.ofNat 32 (val u)) p.L x),
    hex, hframe, ?_, cn0.trans (j1.trans w5), cn1.trans (j2.trans w1), cn2.trans (j3.trans w2), cn3.trans (j4.trans w3),
    cn4.trans (j5.trans w4), key, ?_, ?_⟩
  · unfold memEff
    simp only [hwait, Bool.false_eq_true, if_false, hfull, hlate, List.flatMap_nil]
    rw [hqm, hqd, hrd]
    have hat : (m.kind == .atomic) = false := by rcases hk with hk | hk <;> rw [hk] <;> rfl
    simp only [hat, Bool.false_eq_true, if_false, if_true]
    have hx2 : (countBytes p.B.ctx m.space ((accRun i q p s (accThreads i p).length).1.length * m.n)
      (journalPath (accRun i q p s (accThreads i p).length).2 p i sp [] m.n)).grp? p.b p.g = some x := hframe.grp
    rw [← hsp, modGrp_const hx2]
    congr 1
    funext _
    rw [hlist, hpe, hw0]
  · rw [advance_e]
    have : (advance p.L (writes p.P i.noWrite d (fun u => natWords (ceilDiv m.n 4) (val u)) (fun u => BitVec.ofNat 32 (val u)) p.L x)).e = x.e := by
      rw [advance_frame, hwd]
    rw [this]
    exact congrArg (fun e' => ({ advance p.L (writes p.P i.noWrite d (fun u => natWords (ceilDiv m.n 4) (val u)) (fun u => BitVec.ofNat 32 (val u)) p.L x) with e := e' } : Group)) hee
  · rw [hjr, hr]
    show (List.range _).foldl _ p.G.r.sticky = _
    rw [flags_fold m h _ _ hrd]
    congr 1
    have : ∀ j, ((h j).lapsed = false ∧ (h j).alt = true ∧ (m.kind = .load ∧ m.space ≠ .win ∨ m.kind = .ldu)) ↔ ((h j).lapsed = false ∧ (h j).alt = true ∧ (plain = true ∨ m.kind = .ldu)) := by
      intro j
      rw [hp]
      simp [Bool.and_eq_true]
    simp only [this]

/-! Stores. -/

theorem mgetN_msetN_apart (m : List Host.Cell) (a b n : Nat) (bs : List Byte) (h : b + bs.length ≤ a ∨ a + n ≤ b) :
    mgetN (msetN m b bs) a n = mgetN m a n := by
  induction n generalizing a with
  | zero => rfl
  | succ n ih =>
    simp only [mgetN]
    rw [mget_msetN_out bs m b a (by omega), ih (a + 1) (by omega)]

theorem storeBytes_length (n : Nat) (ws : List Word) : (storeBytes n ws).length = n := leBytes_length n _

/-- A store instruction. -/
theorem storeOp_of {i : Instr} {e : Src} {m : Mem} (hmo : memOf i = some m) (he : ∀ s, exec i s = storeI i e s) (hk : m.kind = .store) :
    StoreOp i e m := by
  intro s p h hc hfs hs
  obtain ⟨hg, hL, hne⟩ := pass?_some hc.1
  generalize hq : ({ m := m, d := .discard, data := fun p t => srcWords p t e (ceilDiv m.n 4) 0, cmp := fun _ _ => [] } : MemI) = q at hs
  have hqm : q.m = m := by rw [← hq]
  have hqd : ∀ t, q.data p t = srcWords p t e (ceilDiv m.n 4) 0 := by intro t; rw [← hq]
  have hex : exec i s = .next (memEff i q p s) := by
    rw [he]; unfold storeI; rw [hmo]; simp only; rw [hq]; unfold runMem; rw [hfs]; exact runPass_clear hc rfl _
  have hrd : m.kind.reads = false := by rw [hk]; rfl
  obtain ⟨z, hf, hr, _, _, hmem, _⟩ := accRun_done hs hg (accThreads i p).length (Nat.le_refl _)
  rw [hqm] at hmem hr
  have hfull : (accThreads i p).foldl (fun r t => accessOne i q p t r) ([], s) = accRun i q p s (accThreads i p).length := by
    unfold accRun; rw [List.take_length]
  have hwait : (accThreads i p).any (fun t => look p s q.m t == .wait) = false := by
    rw [List.any_eq_false]
    intro t ht
    simpa using hs.1 t ht
  have hstep : ∀ j, j < (accThreads i p).length → (before i q p s (j + 1)).mem =
      if (h j).lapsed then (before i q p s j).mem
      else msetN (before i q p s j).mem (h j).loc (storeBytes m.n (srcWords p ((accThreads i p).getD j 0) e (ceilDiv m.n 4) 0)) := by
    intro j hj
    rw [hmem j hj, hqd]
    unfold accMem
    rw [hk]
  have hfl : (List.range (accThreads i p).length).foldl (fun f j => f ||| accFlag m (h j)) p.G.r.sticky = p.G.r.sticky := by
    have : ∀ (l : List Nat) (f : BitVec 9), l.foldl (fun f j => f ||| accFlag m (h j)) f = f := by
      intro l
      induction l with
      | nil => intro f; rfl
      | cons j l ih =>
        intro f
        have : accFlag m (h j) = 0 := by unfold accFlag; rw [hk]; cases (h j).lapsed <;> simp [MKind.reads]
        simp only [List.foldl_cons, this]
        rw [ih]; simp
    exact this _ _
  rw [hfl] at hr
  obtain ⟨cf, cn0, _⟩ := frame_countBytes hf.grp p.B.ctx m.space ((accRun i q p s (accThreads i p).length).1.length * m.n)
  have hmt : memEff i q p s = modGrp (countBytes p.B.ctx m.space ((accRun i q p s (accThreads i p).length).1.length * m.n)
      (before i q p s (accThreads i p).length)) p.b p.g (fun _ => advance p.L z) := by
    unfold memEff
    simp only [hwait, Bool.false_eq_true, if_false, hfull]
    rw [hqm, hrd]
    have hat : (m.kind == .atomic) = false := by rw [hk]; rfl
    simp only [hat, Bool.false_eq_true, if_false]
    exact modGrp_const cf.grp _
  have hgo : ∀ z : Group, ThrDone p z (fun _ c => { c with pc := c.pc + 4 }) (advance p.L z) := by
    intro z
    have hn : p.L.Nodup := by rw [hL]; exact maskList_nodup _
    refine ⟨fun t ht => ?_, fun t ht => ?_, advance_frame _ _⟩
    · rw [advance_thr _ hn, if_pos ht]
    · rw [advance_thr _ hn, if_neg ht]
  refine ⟨memEff i q p s, countBytes p.B.ctx m.space ((accRun i q p s (accThreads i p).length).1.length * m.n)
      (before i q p s (accThreads i p).length), z, advance p.L z, hex, frame_trans hf cf, hmt, by rw [hr], hgo z, ?_, ?_⟩
  · intro a ha
    rw [hmt, modGrp_mem, cn0]
    have : ∀ k, k ≤ (accThreads i p).length → mget (before i q p s k).mem a = mget s.mem a := by
      intro k
      induction k with
      | zero => intro _; rfl
      | succ k ih =>
        intro hkl
        rw [hstep k (by omega)]
        split
        · exact ih (by omega)
        · rename_i hl
          rw [mget_msetN_out _ _ _ _ (by
            rw [storeBytes_length]
            rcases ha k (by omega) with h1 | h1
            · exact absurd h1 hl
            · exact h1)]
          exact ih (by omega)
    exact this _ (Nat.le_refl _)
  · intro k hkl hlap hlater
    rw [hmt, modGrp_mem, cn0]
    have : ∀ j, k + 1 ≤ j → j ≤ (accThreads i p).length → mgetN (before i q p s j).mem (h k).loc m.n =
        leBytes m.n (srcNat p ((accThreads i p).getD k 0) e (ceilDiv m.n 4) 0) := by
      intro j hkj
      obtain ⟨c, rfl⟩ := Nat.exists_eq_add_of_le hkj
      induction c with
      | zero =>
        intro _
        rw [Nat.add_zero, hstep k hkl, hlap]
        simp only [Bool.false_eq_true, if_false]
        have h2 := mgetN_msetN_same (storeBytes m.n (srcWords p ((accThreads i p).getD k 0) e (ceilDiv m.n 4) 0)) (before i q p s k).mem (h k).loc
        rw [storeBytes_length] at h2
        exact h2
      | succ c ih =>
        intro hjl
        rw [show k + 1 + (c + 1) = (k + 1 + c) + 1 from rfl, hstep (k + 1 + c) (by omega)]
        split
        · exact ih (by omega) (by omega)
        · rename_i hl
          rw [mgetN_msetN_apart _ _ _ _ _ (by
            rw [storeBytes_length]
            rcases hlater (k + 1 + c) (by omega) (by omega) with h1 | h1
            · exact absurd h1 hl
            · exact h1)]
          exact ih (by omega) (by omega)
    exact this _ (by omega) (Nat.le_refl _)

/-! Atomics. -/

theorem regionFold {L : List Nat} (hn : L.Nodup) (now vw sw : Nat) (x : Group) :
    (∀ t, (L.foldl (fun y t => modThr t (regionNext now vw sw) y) x).thr[t]? =
      if t ∈ L then (x.thr[t]?).map (regionNext now vw sw) else x.thr[t]?) ∧
    L.foldl (fun y t => modThr t (regionNext now vw sw) y) x = { x with thr := (L.foldl (fun y t => modThr t (regionNext now vw sw) y) x).thr } := by
  induction L generalizing x with
  | nil => exact ⟨fun t => by simp, rfl⟩
  | cons a L ih =>
    have ha := (List.nodup_cons.1 hn).1
    obtain ⟨h1, h2⟩ := ih (List.nodup_cons.1 hn).2 (modThr a (regionNext now vw sw) x)
    refine ⟨fun t => ?_, ?_⟩
    · show (L.foldl _ (modThr a _ x)).thr[t]? = _
      rw [h1 t, modThr_thr]
      by_cases ht : t = a
      · subst ht; simp [ha]
      · simp [ht]
    · show L.foldl _ (modThr a _ x) = _
      rw [h2]; rfl

end Sys2Proof.Laws
end

