-- ==== Sys2Proof/Tests/Slice0.lean ====
section
/-! SUPPORT. Tests: words of the encoding tables, ill-formed terms, worked results of the spec, and for each statement states and
operands that meet its hypotheses together. Expected values are the spec's. -/

namespace Sys2Proof.Tests

/- One theorem after another: each waits for the kernel, and together they would need more threads than a machine has. -/
set_option Elab.async false

open Sys2Proof Sys2Proof.Machine

/-! Small states: a program word at the one group of a loaded block, a selected path, and registers. -/

/-- A loaded block whose group is at word `w`. -/
def atWord (w : Nat) : State := State.reset.withFetchWord 32 w

/-- The path of the threads in `m` is selected. -/
def picked (m : BitVec 32) (s : State) : State :=
  { s with sel := some { blk := 0, grp := 0, mask := m, upper := false, pre := none, judged := false, cut := false } }

/-- Changes the group, its block, vector register `r` by thread, and scalar registers. -/
def grp (f : Group → Group) (s : State) : State := modGrp s 0 0 f
def blk (f : Block → Block) (s : State) : State := modBlk s 0 f
def vec (r : Nat) (l : List (Nat × Word)) : State → State :=
  grp (fun y => { y with r := { y.r with v := l.foldl (fun v c => wset v (32 * r + c.1) c.2) y.r.v } })
def sca (l : List (Nat × Word)) : State → State :=
  grp (fun y => { y with r := { y.r with s := l.foldl (fun v c => wset v c.1 c.2) y.r.s } })

/-- The pass of the selected path. -/
def thePass (s : State) : Pass :=
  let y := startGroup s (loadBlock s) 0 0 0
  (pass? s).getD { b := 0, g := 0, B := loadBlock s, G := y, P := y, L := [], mask := 0, upper := false, judged := false, cut := false }

/-- A pass is selected, and no thread of its path meets a condition. -/
def clear (i : Instr) (s : State) : Bool :=
  (pass? s).isSome && (thePass s).L.all (fun t => (condAt (thePass s) i (extraOf i (thePass s) s) t).isNone)

theorem pass_is (s : State) (h : (pass? s).isSome = true) : pass? s = some (thePass s) := by
  unfold thePass
  obtain ⟨p, hp⟩ := Option.isSome_iff_exists.1 h
  simp [hp]

theorem clear_is {i : Instr} {s : State} (h : clear i s = true) : Clear i s (thePass s) := by
  unfold clear at h
  rw [Bool.and_eq_true] at h
  exact ⟨pass_is s h.1, fun t ht => by simpa using List.all_eq_true.1 h.2 t ht⟩

/-- Threads 0 and 2; v4 and v5 name a place of memory for each, s4 and s5 one for both, and v6 and s6 an offset. -/
def s1 : State := picked 5 (vec 4 [(0, 0x2000), (2, 0x2080)] (vec 6 [(0, 0x40), (2, 0x80)] (sca [(4, 0x3000), (6, 0x40)] (atWord 0))))

/-- Every instruction of a list runs on `s`: a path is selected and no thread of it meets a condition. -/
def clears (s : State) (l : List Instr) : Bool := l.all (fun i => clear i s)

theorem clears_all {s : State} {l : List Instr} (h : clears s l = true) : ∀ i ∈ l, Clear i s (thePass s) :=
  fun i hi => clear_is (List.all_eq_true.1 h i hi)

/-! Decoding: every instruction's word, written from its row of the opcode table (R253, R256, R268 to R286). -/

def decodes (l : List (Word × Instr)) : Bool := l.all (fun c => match decode c.1 with | .ok i => i == c.2 | .error _ => false)

theorem test_decode_control_block : decodes [
    (0x00000000, .nop), (0x01FFFFFC, .bra (-4)), (0x02B0B1C1, .call true (.v 48) (.s 8) .rel), (0x0370B1C0, .ret (.s 8)),
    (0x0470B1C1, .jmpr (.s 8) .rel), (0x05D8FFFC, .brz true (.s 8) (-4)), (0x06D8FFFC, .brnz true (.s 8) (-4)),
    (0x07D8FFFC, .brlt true (.s 8) (-4)), (0x08D8FFFC, .brge true (.s 8) (-4)), (0x0970FFFC, .meet (-4)),
    (0x0A58FFFC, .repack (.s 8) (-4)), (0x0B58FFFC, .loop (.s 8) (-4)), (0x0C000000, .exit), (0x0D700505, .winb 5 5)] = true := by decide +kernel

theorem test_decode_integer_block : decodes [
    (0x10B0B083, .add true (.v 48) (.s 8) (.v 32) .i64), (0x11B0B083, .sub true (.v 48) (.s 8) (.v 32) .i64),
    (0x12B0B083, .mul true (.v 48) (.s 8) (.v 32) .i64), (0x13B0B083, .mad true (.v 48) (.s 8) (.v 32) .i64),
    (0x14B0B083, .div true (.v 48) (.s 8) (.v 32) .n64), (0x15B0B083, .rem true (.v 48) (.s 8) (.v 32) .n64),
    (0x16B0B083, .min true (.v 48) (.s 8) (.v 32) .n64), (0x17B0B083, .max true (.v 48) (.s 8) (.v 32) .n64),
    (0x18B0B1C2, .abs true (.v 48) (.s 8) .i64), (0x19B0B1C2, .neg true (.v 48) (.s 8) .i64),
    (0x1AB0B083, .cmp true (.v 48) (.s 8) (.v 32) .len), (0x1BB0B083, .cmpe true (.v 48) (.s 8) (.v 32) .ne64),
    (0x1CB0B081, .sel true (.v 48) (.s 8) (.v 32) .b64), (0x1DB0B083, .lea true (.v 48) (.s 8) (.v 32) .x16),
    (0x1EB0B083, .mulw true (.v 48) (.s 8) (.v 32) .hiN), (0x1FB0B081, .clamp true (.v 48) (.s 8) (.v 32) .n32)] = true := by decide +kernel

theorem test_decode_logic_block : decodes [
    (0x20B0B081, .and true (.v 48) (.s 8) (.v 32) .b64), (0x21B0B081, .or true (.v 48) (.s 8) (.v 32) .b64),
    (0x22B0B081, .xor true (.v 48) (.s 8) (.v 32) .b64), (0x23B0B081, .andn true (.v 48) (.s 8) (.v 32) .b64),
    (0x24B0B081, .orn true (.v 48) (.s 8) (.v 32) .b64), (0x25B0B081, .xnor true (.v 48) (.s 8) (.v 32) .b64),
    (0x26B0B081, .shl true (.v 48) (.s 8) (.v 32) .b64), (0x27B0B081, .shr true (.v 48) (.s 8) (.v 32) .b64),
    (0x28B0B081, .sar true (.v 48) (.s 8) (.v 32) .b64), (0x29B0B083, .rot true (.v 48) (.s 8) (.v 32) .r64),
    (0x2AB0B081, .extf true (.v 48) (.s 8) (.v 32) .i32), (0x2BB0B080, .depf true (.v 48) (.s 8) (.v 32)),
    (0x2CB0B1C1, .popc true (.v 48) (.s 8) .b64), (0x2DB0B1C1, .clz true (.v 48) (.s 8) .b64),
    (0x2EB0B1C1, .ctz true (.v 48) (.s 8) .b64), (0x2FB0B1C1, .brev true (.v 48) (.s 8) .b64)] = true := by decide +kernel

theorem test_decode_immediate_block : decodes [
    (0x30B0B1FC, .addi true (.v 48) (.s 8) (-4)), (0x31B0B1FC, .muli true (.v 48) (.s 8) (-4)),
    (0x32B0B1FC, .andi true (.v 48) (.s 8) (-4)), (0x33B0B1FC, .ori true (.v 48) (.s 8) (-4)),
    (0x34B0B1FC, .xori true (.v 48) (.s 8) (-4)), (0x35B0B1FC, .shli true (.v 48) (.s 8) (-4)),
    (0x36B0B1FC, .shri true (.v 48) (.s 8) (-4)), (0x37B0B1FC, .sari true (.v 48) (.s 8) (-4)),
    (0x38B0B1FC, .cmpieq true (.v 48) (.s 8) (-4)), (0x39B0B1FC, .cmpilt true (.v 48) (.s 8) (-4)),
    (0x3AB0B1FC, .cmpiltn true (.v 48) (.s 8) (-4)), (0x3BB0B1FC, .mini true (.v 48) (.s 8) (-4)),
    (0x3CB0FFFC, .ldk true (.v 48) (-4)), (0x3DB0FFFC, .ldkh true (.v 48) (-4)), (0x3EB0B1C2, .mov true (.v 48) (.s 8) .b128),
    (0x3FB0B081, .mort true (.v 48) (.s 8) (.v 32) .d3)] = true := by decide +kernel

theorem test_decode_through_time_block : decodes [
    (0x4070B1C0, .seedc (.s 8)), (0x41B0E1C0, .rdtail true (.v 48)), (0x42B029C3, .red true (.v 48) (.v 20) .or),
    (0x43B029C2, .redf true (.v 48) (.v 20) .max), (0x44B02951, .tshb true (.v 48) (.v 20) (.s 4) .seed),
    (0x45B02951, .tshf true (.v 48) (.v 20) (.s 4) .seed), (0x46B02950, .tbcst true (.v 48) (.v 20) (.s 4)),
    (0x47B029C3, .poll true (.v 48) (.v 20) .same), (0x48B029C3, .qswp true (.v 48) (.v 20) .b0),
    (0x49B029C3, .qred true (.v 48) (.v 20) .add), (0x4AB0E1C0, .help true (.v 48)),
    (0x4BB0B081, .cellh true (.v 48) (.s 8) (.v 32) .d3), (0x4CB0E1C1, .tmask true (.v 48) .live),
    (0x4DB029C1, .tpos true (.v 48) (.v 20) .inc)] = true := by decide +kernel

theorem test_decode_float_block : decodes [
    (0x50B0B083, .fadd true (.v 48) (.s 8) (.v 32) .rd), (0x51B0B083, .fsub true (.v 48) (.s 8) (.v 32) .rd),
    (0x52B0B083, .fmul true (.v 48) (.s 8) (.v 32) .rd), (0x53B0B083, .ffma true (.v 48) (.s 8) (.v 32) .rd),
    (0x54B0B080, .fmin true (.v 48) (.s 8) (.v 32)), (0x55B0B080, .fmax true (.v 48) (.s 8) (.v 32)),
    (0x56B0B083, .fcmp true (.v 48) (.s 8) (.v 32) .un), (0x57B0B081, .fsgn true (.v 48) (.s 8) (.v 32) .xor),
    (0x58B0B083, .pkadd true (.v 48) (.s 8) (.v 32) .bf16rz), (0x59B0B083, .pkmul true (.v 48) (.s 8) (.v 32) .bf16rz),
    (0x5AB0B083, .pkfma true (.v 48) (.s 8) (.v 32) .bf16rz), (0x5BB0B083, .fdiv true (.v 48) (.s 8) (.v 32) .rd),
    (0x5CB0B1C3, .fsqrt true (.v 48) (.s 8) .rd), (0x5DB0B1C3, .frnd true (.v 48) (.s 8) .rd),
    (0x5EB0B1C0, .fclass true (.v 48) (.s 8)), (0x5FB0B083, .fscl true (.v 48) (.s 8) (.v 32) .rd)] = true := by decide +kernel

theorem test_decode_special_and_double_block : decodes [
    (0x60B0B1C0, .frcp true (.v 48) (.s 8)), (0x61B0B1C0, .frsq true (.v 48) (.s 8)), (0x62B0B1C0, .fex2 true (.v 48) (.s 8)),
    (0x63B0B1C0, .flg2 true (.v 48) (.s 8)), (0x64B0B1C0, .fsin true (.v 48) (.s 8)), (0x65B0B1C0, .ftanh true (.v 48) (.s 8)),
    (0x66B0B083, .dadd true (.v 48) (.s 8) (.v 32) .rd), (0x67B0B083, .dsub true (.v 48) (.s 8) (.v 32) .rd),
    (0x68B0B083, .dmul true (.v 48) (.s 8) (.v 32) .rd), (0x69B0B083, .dfma true (.v 48) (.s 8) (.v 32) .rd),
    (0x6AB0B083, .ddiv true (.v 48) (.s 8) (.v 32) .rd), (0x6BB0B1C3, .dsqrt true (.v 48) (.s 8) .rd),
    (0x6CB0B081, .dmin true (.v 48) (.s 8) (.v 32) .max), (0x6DB0B083, .dcmp true (.v 48) (.s 8) (.v 32) .un)] = true := by decide +kernel

theorem test_decode_convert_block : decodes [
    (0x70B0B1F6, .cvt true (.v 48) (.s 8) .rd true .n32 .n32), (0x71B0B076, .cvtz true (.v 48) (.s 8) true .n32 .n32),
    (0x72B0B06D, .cvtu true (.v 48) (.s 8) true .n32 .n32), (0x73B0B1ED, .cvtd true (.v 48) (.s 8) .rd true .n64 .n64),
    (0x74B0B081, .pack true (.v 48) (.s 8) (.v 32) .hi), (0x75B0B1C3, .unpk true (.v 48) (.s 8) .e1s),
    (0x76B0B083, .pk8 true (.v 48) (.s 8) (.v 32) .e5m2sat), (0x77B0B081, .upk8 true (.v 48) (.s 8) (.v 32) .e5m2)] = true := by decide +kernel

theorem test_decode_device_memory_block : decodes [
    (0x8030B1FC, .ldb (.v 48) (.s 8) (-4)), (0x8130B1FC, .ldbs (.v 48) (.s 8) (-4)), (0x8230B1FC, .ldh (.v 48) (.s 8) (-4)),
    (0x8330B1FC, .ldhs (.v 48) (.s 8) (-4)), (0x8430B1FC, .ldw (.v 48) (.s 8) (-4)), (0x8530B1FC, .ldd (.v 48) (.s 8) (-4)),
    (0x8630B1FC, .ldq (.v 48) (.s 8) (-4)), (0x8740B1FC, .stb (.v 64) (.s 8) (-4)), (0x8840B1FC, .sth (.v 64) (.s 8) (-4)),
    (0x8940B1FC, .stw (.v 64) (.s 8) (-4)), (0x8A40B1FC, .std (.v 64) (.s 8) (-4)), (0x8B40B1FC, .stq (.v 64) (.s 8) (-4)),
    (0x8C30B083, .ldx (.v 48) (.s 8) (.v 32) .n16), (0x8D40B083, .stx (.v 64) (.s 8) (.v 32) .n16),
    (0x8E30B1FC, .ldu (.v 48) (.s 8) (-4)), (0x8F70B080, .pref (.s 8) (.v 32))] = true := by decide +kernel

theorem test_decode_local_memory_block : decodes [
    (0x9030B1FC, .lds (.v 48) (.s 8) (-4)), (0x9140B1FC, .sts (.v 64) (.s 8) (-4)),
    (0x9230B083, .ldsx (.v 48) (.s 8) (.v 32) .n16), (0x9340B083, .stsx (.v 64) (.s 8) (.v 32) .n16),
    (0x9430B1FC, .ldl (.v 48) (.s 8) (-4)), (0x9540B1FC, .stl (.v 64) (.s 8) (-4)),
    (0x9630B081, .ldlb (.v 48) (.s 8) (.v 32) .b128), (0x9740B081, .stlb (.v 64) (.s 8) (.v 32) .b128),
    (0x9830B083, .ldhw (.v 48) (.s 8) (.v 32) .n16), (0x9940B083, .sthw (.v 64) (.s 8) (.v 32) .n16),
    (0x9A70B151, .alloc (.s 8) (.s 4) .lay), (0x9B70B151, .free (.s 8) (.s 4) .lay), (0x9C70B151, .life (.s 8) (.s 4) .lay),
    (0x9D30B1C1, .expq (.v 48) (.s 8) .lay)] = true := by decide +kernel

theorem test_decode_atomic_block : decodes [
    (0xA030B081, .aadd (.v 48) (.s 8) (.v 32) .b64), (0xA130B081, .amin (.v 48) (.s 8) (.v 32) .i64),
    (0xA230B081, .aminn (.v 48) (.s 8) (.v 32) .n64), (0xA330B081, .amax (.v 48) (.s 8) (.v 32) .i64),
    (0xA430B081, .amaxn (.v 48) (.s 8) (.v 32) .n64), (0xA530B081, .aand (.v 48) (.s 8) (.v 32) .b64),
    (0xA630B081, .aor (.v 48) (.s 8) (.v 32) .b64), (0xA730B081, .axor (.v 48) (.s 8) (.v 32) .b64),
    (0xA830B081, .axch (.v 48) (.s 8) (.v 32) .b64), (0xA930B081, .acas (.v 48) (.s 8) (.v 32) .b64),
    (0xAA30B082, .afadd (.v 48) (.s 8) (.v 32) .bf16x2), (0xAB30B081, .afmin (.v 48) (.s 8) (.v 32) .max),
    (0xAC30B081, .ainc (.v 48) (.s 8) (.v 32) .dec), (0xAD30B081, .asadd (.v 48) (.s 8) (.v 32) .f32),
    (0xAE30B081, .asmin (.v 48) (.s 8) (.v 32) .n32), (0xAF30B081, .ascas (.v 48) (.s 8) (.v 32) .b64)] = true := by decide +kernel

theorem test_decode_ordering_block : decodes [
    (0xB070000A, .pub .fab), (0xB170000A, .acq .fab), (0xB2700000, .fence), (0xB3700115, .bar (some .dev) 5),
    (0xB4700115, .bara (some .dev) 5), (0xB5700115, .barw (some .dev) 5), (0xB670000A, .phase .fab), (0xB7700307, .wait .prom 7)] = true := by decide +kernel

theorem test_decode_engine_block : decodes [
    (0xC060B153, .mma (.s 16) (.s 8) (.s 4) .i8), (0xC160B153, .mmas (.s 16) (.s 8) (.s 4) .e5e5),
    (0xC260B153, .mmaf (.s 16) (.s 8) (.s 4) .e5e5), (0xC370B150, .gang (.s 8) (.s 4)), (0xC460B1C0, .gath (.s 16) (.s 8)),
    (0xC560B1C0, .cpy (.s 16) (.s 8)), (0xC660B1C0, .cpyt (.s 16) (.s 8)), (0xC760B1C3, .coll (.s 16) (.s 8) .bc),
    (0xC870E1C0, .accz), (0xC930E1C0, .mmaq (.v 48))] = true := by decide +kernel

theorem test_decode_queue_block : decodes [
    (0xD070B080, .qput (.s 8) (.v 32)), (0xD130B1C0, .qtakeQ (.v 48) (.s 8)), (0xD130E1C1, .qtakeStage (.v 48)),
    (0xD240B080, .qmput (.v 64) (.s 8) (.v 32)), (0xD370B1C0, .qrel (.s 8)), (0xD470B1C0, .spawn (.s 8)),
    (0xD570B00A, .join (.s 8) .fab), (0xD630B1C2, .qstat (.v 48) (.s 8) .free), (0xD770E1C0, .yieldI)] = true := by decide +kernel

theorem test_decode_system_block : decodes [
    (0xE070B1C0, .trap (.s 8)), (0xE070E1C1, .trapRet), (0xE070E1C2, .trapNext), (0xE170FFFC, .live (-4)),
    (0xE270FFFC, .region (-4)), (0xE330E1C1, .assay (.v 48) .off), (0xE4B0FFFC, .rdsr true (.v 48) (-4)),
    (0xE560FFFC, .wrsr (.s 16) (-4)), (0xE670FFFC, .bkpt (-4)), (0xE770B1C1, .dbgm (.s 8) .halt),
    (0xE870B153, .watch (.s 8) (.s 4) .clr), (0xE970B1C0, .sleep (.s 8)), (0xEA700003, .clas .l)] = true := by decide +kernel

/-! The words of the spec's worked examples. -/

theorem test_decode_worked_examples : decodes [
    (0x1401040C, .div false (.v 1) (.v 2) (.v 3) .i32), (0x09700005, .meet 5),
    (0x1001040D, .add false (.v 1) (.v 2) (.v 3) .i32sat), (0x1101040E, .sub false (.v 1) (.v 2) (.v 3) .n32sat),
    (0x2801040C, .sar false (.v 1) (.v 2) (.v 3) .b32), (0x2901040C, .rot false (.v 1) (.v 2) (.v 3) .l32),
    (0x2A01040D, .extf false (.v 1) (.v 2) (.v 3) .i32), (0x3F01040C, .mort false (.v 1) (.v 2) (.v 3) .d2),
    (0x3A0105FF, .cmpiltn false (.v 1) (.v 2) (-1)), (0x07030003, .brlt false (.v 3) 3),
    (0x30040601, .addi false (.v 4) (.v 3) 1), (0x01000002, .bra 2), (0x1104E00C, .sub false (.v 4) .z (.v 3) .i32),
    (0x12050810, .mul false (.v 5) (.v 4) (.v 4) .i32), (0xE770ABC0, .dbgm (.s 5) .post), (0xB7700000, .wait .copy 0),
    (0xD770E1C0, .yieldI), (0xE4540000, .rdsr false (.s 4) 0), (0xB3700071, .bar (some .blk) 1),
    (0xA0080410, .aadd (.v 8) (.v 2) (.v 4) .b32), (0x840605FC, .ldw (.v 6) (.v 2) (-4)), (0x89050408, .stw (.v 5) (.v 2) 8),
    (0xB0700008, .pub .dev), (0xB2700000, .fence), (0xE070ABC0, .trap (.s 5)), (0xE6700007, .bkpt 7),
    (0xE870AD61, .watch (.s 6) (.s 8) .w), (0xC370B168, .gang (.s 8) (.s 10)), (0xC870E1C0, .accz),
    (0xC054B978, .mma (.s 4) (.s 12) (.s 14) .bf16), (0xC556B1C0, .cpy (.s 6) (.s 8)), (0xD47005C0, .spawn (.v 2)),
    (0xD5700408, .join (.v 2) .dev), (0xD110A5C0, .qtakeQ (.v 16) (.s 2)), (0xD370A5C0, .qrel (.s 2)),
    (0xD655A5C2, .qstat (.s 5) (.s 2) .free), (0xE354E1C0, .assay (.s 4) .q), (0xE970ADC0, .sleep (.s 6)),
    (0x425109C0, .red false (.s 1) (.v 4) .add), (0x4A01E1C0, .help false (.v 1)), (0x4C51E1C0, .tmask false (.s 1) .act)] = true := by decide +kernel

/-- Words that no instruction has, and why (R253, R254, R256, R257, R259, R260). -/
def rejects (l : List (Word × Reject)) : Bool := l.all (fun c => match decode c.1 with | .ok _ => false | .error r => r == c.2)

theorem test_reject_words : rejects [
    (0xF0000000, .reservedOpcode), (0x0E000000, .reservedOpcode), (0x0F123456, .reservedOpcode), (0x00000001, .unusedField),
    (0x0370B000, .unusedField), (0x10B0EC80, .badSource), (0x10F1B080, .badDest), (0x18B0B1C3, .reservedM), (0x84B0B1C0, .badN),
    (0x70B0B1C7, .reservedField), (0xB070000B, .reservedField), (0xFFFFFFFF, .reservedOpcode)] = true := by decide +kernel

/-! Ill-formed terms: each check of the operand fields refuses one (R170, R172, R258, R338, R367, R387). -/

theorem test_ill_formed_fields : [
    Instr.add false (.v 2) .tix (.v 4) .i64, .seedc (.v 1), .red false (.s 1) (.s 2) .add, .red false (.v 1) .prv .add,
    .tshb false (.v 1) (.v 2) (.v 3) .z, .tbcst false (.s 1) (.v 2) (.s 3), .loop .z 4, .ldw (.v 1) .tix 0, .mma (.v 1) (.s 2) (.s 4) .bf16,
    .gang (.v 2) (.s 4), .gath (.s 2) (.v 4), .cpy (.s 2) .z, .qput (.v 1) (.v 16), .qput (.s 1) .z, .qtakeQ (.s 16) (.s 2),
    .qtakeQ .discard (.s 2), .trap (.v 1), .wrsr .tix 9, .dbgm (.b 0) .post, .watch (.v 2) (.s 4) .r, .sleep (.v 1)].all (fun i => !i.wf) = true := by
  decide +kernel

theorem test_ill_formed_classes : [
    Instr.add false (.s 1) (.v 2) .z .i32, .mov false (.s 1) .tix .b32, .fadd false (.s 1) .z (.b 0) .rn, .ldw (.s 1) (.v 2) 0,
    .cellh false (.s 1) (.v 2) .z .d2].all (fun i => !i.wf) = true := by decide +kernel

theorem test_ill_formed_prv : [
    Instr.brz false .prv 0, .ret .prv, .ldx (.v 1) (.v 2) .prv .b32, .sts .prv (.v 2) 0, .expq (.v 1) .prv .scr,
    .cellh false (.v 1) .prv .z .d2].all (fun i => !i.wf) = true := by decide +kernel

theorem test_well_formed_neighbours : [
    Instr.add false (.v 2) .z (.v 4) .i64, .seedc (.s 1), .red false (.s 1) (.v 2) .add, .loop (.s 1) 4, .qput .z (.s 0),
    .add false (.s 1) (.s 2) .z .i32, .call false (.v 1) .prv .abs, .add false (.v 1) .prv .tix .i32].all (fun i => i.wf) = true := by decide +kernel

/-! Results of the spec's worked examples (chapters of blocks 0x1_ to 0x7_): the word, v2, v3, what v1 holds after it, and DIVZ. -/

def rowState (a b : Word) : State := picked 1 (vec 2 [(0, a)] (vec 3 [(0, b)] (atWord 0)))

/-- The group after an instruction. -/
def after (i : Instr) (s : State) : Group := match exec i s with | .next t => (t.grp? 0 0).getD (thePass s).G | _ => (thePass s).G

def rowOk (c : Word × Word × Word × Word × Bool) : Bool :=
  match decode c.1 with
  | .error _ => false
  | .ok i =>
    let s := rowState c.2.1 c.2.2.1
    clear i s && wget (after i s).r.v 32 == c.2.2.2.1 && (after i s).r.sticky.getLsbD 0 == c.2.2.2.2

theorem test_integer_rows : [
    (0x1401040C, 0xFFFFFFF9, 2, 0xFFFFFFFD, false), (0x1501040C, 0xFFFFFFF9, 2, 0xFFFFFFFF, false), (0x1401040D, 5, 0, 0xFFFFFFFF, true),
    (0x1401040C, 0x80000000, 0xFFFFFFFF, 0x80000000, false), (0x1001040D, 0x7FFFFFFF, 1, 0x7FFFFFFF, false), (0x1101040E, 3, 5, 0, false),
    (0x2801040C, 0x80000000, 40, 0xFFFFFFFF, false), (0x2901040C, 0x80000001, 33, 3, false), (0x2A01040D, 0xF00, 0x408, 0xFFFFFFFF, false),
    (0x3F01040C, 3, 1, 7, false), (0x3A0105FF, 5, 0, 1, false), (0x4B01040C, 1, 0, 0x9E3645DF, false)].all rowOk = true := by decide +kernel

theorem test_float_rows : [
    (0x5001040C, 0x3F800000, 0x33800000, 0x3F800000, false), (0x5001040E, 0x3F800000, 0x33800000, 0x3F800001, false),
    (0x5101040F, 0x3F800000, 0x3F800000, 0x80000000, false), (0x5201040C, 0x7F800000, 0x80000000, 0x7FC00000, false),
    (0x5B01040C, 0xBF800000, 0, 0xFF800000, false), (0x5401040C, 0xFF800001, 0x40000000, 0x40000000, false),
    (0x5601040F, 0xFF800001, 0x40000000, 1, false), (0x5D0105C0, 0x40200000, 0, 0x40000000, false),
    (0x5F01040C, 0x3F800000, 0xFFFFFF6A, 0, false), (0x5F01040E, 0x3F800000, 0xFFFFFF6A, 1, false),
    (0x5E0105C0, 0x80000001, 0, 4, false), (0x5801040C, 0x7BFF3C00, 0x50003C00, 0x7C004000, false),
    (0x5801040E, 0x7BFF3C00, 0x50003C00, 0x7BFF4000, false), (0x70010418, 0x43F00000, 0, 0x7F, false), (0x70010458, 0x43F00000, 0, 0x7E, false),
    (0x700105A8, 0xC0200000, 0, 0xFFFFFFFD, false), (0x7701040C, 0x7F004038, 3, 0x7FC00000, false),
    (0x7701040C, 0x7F004038, 1, 0x40000000, false)].all rowOk = true := by decide +kernel

theorem test_odd_pair_and_format_code_are_illop :
    condAt (thePass (rowState 0 0)) (.dadd false (.v 1) (.v 4) (.v 6) .rn) (fun _ => none) 0 = some (.fault .illop 0x66010818 0) ∧
      (∀ i, decode 0x70010407 ≠ .ok i) := by
  refine ⟨by decide +kernel, fun i h => ?_⟩
  have : (match decode 0x70010407 with | .ok _ => true | .error _ => false) = false := by decide +kernel
  rw [h] at this
  cases this

/-- The path of six threads of the through-time chapter. -/
def sixState : State :=
  picked 0xED (vec 4 [(0, 3), (1, 7), (2, 0xFFFFFFFF), (4, 8), (5, 4), (6, 2)] (sca [(2, 1), (3, 2), (4, 5)]
    (grp (fun y => { y with r := { y.r with seed := 9 } }) (atWord 0))))

/-- v1 of the six threads, and s1, after a word. -/
def sixV (w : Word) : List Word := match decode w with | .ok i => [0, 2, 3, 5, 6, 7].map (fun t => wget (after i sixState).r.v (32 + t)) | _ => []
def sixS (w : Word) : Word := match decode w with | .ok i => wget (after i sixState).r.s 1 | _ => 0

theorem test_through_time_rows :
    sixS 0x425109C0 = 8 ∧ sixV 0x44010949 = [9, 3, 0xFFFFFFFF, 0, 4, 2] ∧ sixV 0x4501094C = [0, 4, 2, 0, 0, 0] ∧
    sixV 0x46010950 = [4, 4, 4, 4, 4, 4] ∧ sixS 0x475109C2 = 0x65 ∧ sixV 0x4D0109C0 = [0, 1, 2, 2, 3, 4] ∧
    sixV 0x480109C0 = [7, 0, 0xFFFFFFFF, 8, 0, 2] ∧ sixV 0x490109C3 = [9, 9, 9, 14, 14, 14] ∧ sixV 0x4A01E1C0 = [2, 2, 2, 1, 1, 1] ∧
    sixS 0x4C51E1C0 = 0xED := by decide +kernel

theorem test_quad_helpers_are_not_written : ∀ t ∈ [1, 4], wget (after (.qred false (.v 1) (.v 4) .add) sixState).r.v (32 + t) = 0 := by decide +kernel

/-! The hypotheses of the statements, met. Registers: every instruction of blocks 0x1_ to 0x7_ runs on `s1`, with vector and with
scalar operands (`RegOp`, `PathOp` and the statements of SEEDC and RDTAIL ask for `Clear` alone, with the mark of the tail). -/

theorem test_meets_register_instructions : ∀ i ∈ [
    Instr.add false (.v 16) (.v 4) (.v 6) .i32, .add false (.s 16) (.s 4) (.s 6) .i32, .sub false (.v 16) (.v 4) (.v 6) .i32,
    .sub false (.s 16) (.s 4) (.s 6) .i32, .mul false (.v 16) (.v 4) (.v 6) .i32, .mul false (.s 16) (.s 4) (.s 6) .i32,
    .mad false (.v 16) (.v 4) (.v 6) .i32, .mad false (.s 16) (.s 4) (.s 6) .i32, .div false (.v 16) (.v 4) (.v 6) .i32,
    .div false (.s 16) (.s 4) (.s 6) .i32, .rem false (.v 16) (.v 4) (.v 6) .i32, .rem false (.s 16) (.s 4) (.s 6) .i32,
    .min false (.v 16) (.v 4) (.v 6) .i32, .min false (.s 16) (.s 4) (.s 6) .i32, .max false (.v 16) (.v 4) (.v 6) .i32,
    .max false (.s 16) (.s 4) (.s 6) .i32, .abs false (.v 16) (.v 4) .i32, .abs false (.s 16) (.s 4) .i32,
    .neg false (.v 16) (.v 4) .i32, .neg false (.s 16) (.s 4) .i32, .cmp false (.v 16) (.v 4) (.v 6) .lt,
    .cmp false (.s 16) (.s 4) (.s 6) .lt, .cmpe false (.v 16) (.v 4) (.v 6) .eq, .cmpe false (.s 16) (.s 4) (.s 6) .eq,
    .sel false (.v 16) (.v 4) (.v 6) .b32, .sel false (.s 16) (.s 4) (.s 6) .b32, .lea false (.v 16) (.v 4) (.v 6) .x1,
    .lea false (.s 16) (.s 4) (.s 6) .x1, .mulw false (.v 16) (.v 4) (.v 6) .i64, .mulw false (.s 16) (.s 4) (.s 6) .i64,
    .clamp false (.v 16) (.v 4) (.v 6) .i32, .clamp false (.s 16) (.s 4) (.s 6) .i32, .and false (.v 16) (.v 4) (.v 6) .b32,
    .and false (.s 16) (.s 4) (.s 6) .b32, .or false (.v 16) (.v 4) (.v 6) .b32, .or false (.s 16) (.s 4) (.s 6) .b32,
    .xor false (.v 16) (.v 4) (.v 6) .b32, .xor false (.s 16) (.s 4) (.s 6) .b32, .andn false (.v 16) (.v 4) (.v 6) .b32,
    .andn false (.s 16) (.s 4) (.s 6) .b32, .orn false (.v 16) (.v 4) (.v 6) .b32, .orn false (.s 16) (.s 4) (.s 6) .b32,
    .xnor false (.v 16) (.v 4) (.v 6) .b32, .xnor false (.s 16) (.s 4) (.s 6) .b32, .shl false (.v 16) (.v 4) (.v 6) .b32,
    .shl false (.s 16) (.s 4) (.s 6) .b32, .shr false (.v 16) (.v 4) (.v 6) .b32, .shr false (.s 16) (.s 4) (.s 6) .b32,
    .sar false (.v 16) (.v 4) (.v 6) .b32, .sar false (.s 16) (.s 4) (.s 6) .b32, .rot false (.v 16) (.v 4) (.v 6) .l32,
    .rot false (.s 16) (.s 4) (.s 6) .l32, .extf false (.v 16) (.v 4) (.v 6) .n32, .extf false (.s 16) (.s 4) (.s 6) .n32,
    .depf false (.v 16) (.v 4) (.v 6), .depf false (.s 16) (.s 4) (.s 6), .popc false (.v 16) (.v 4) .b32,
    .popc false (.s 16) (.s 4) .b32, .clz false (.v 16) (.v 4) .b32, .clz false (.s 16) (.s 4) .b32,
    .ctz false (.v 16) (.v 4) .b32, .ctz false (.s 16) (.s 4) .b32, .brev false (.v 16) (.v 4) .b32,
    .brev false (.s 16) (.s 4) .b32, .addi false (.v 16) (.v 4) 4, .addi false (.s 16) (.s 4) 4, .muli false (.v 16) (.v 4) 4,
    .muli false (.s 16) (.s 4) 4, .andi false (.v 16) (.v 4) 4, .andi false (.s 16) (.s 4) 4, .ori false (.v 16) (.v 4) 4,
    .ori false (.s 16) (.s 4) 4, .xori false (.v 16) (.v 4) 4, .xori false (.s 16) (.s 4) 4, .shli false (.v 16) (.v 4) 4,
    .shli false (.s 16) (.s 4) 4, .shri false (.v 16) (.v 4) 4, .shri false (.s 16) (.s 4) 4, .sari false (.v 16) (.v 4) 4,
    .sari false (.s 16) (.s 4) 4, .cmpieq false (.v 16) (.v 4) 4, .cmpieq false (.s 16) (.s 4) 4, .cmpilt false (.v 16) (.v 4) 4,
    .cmpilt false (.s 16) (.s 4) 4, .cmpiltn false (.v 16) (.v 4) 4, .cmpiltn false (.s 16) (.s 4) 4,
    .mini false (.v 16) (.v 4) 4, .mini false (.s 16) (.s 4) 4, .ldk false (.v 16) 4, .ldk false (.s 16) 4, .ldkh false (.v 16) 4,
    .ldkh false (.s 16) 4, .mov false (.v 16) (.v 4) .b32, .mov false (.s 16) (.s 4) .b32, .mort false (.v 16) (.v 4) (.v 6) .d2,
    .mort false (.s 16) (.s 4) (.s 6) .d2, .seedc (.s 4), .rdtail false (.v 16), .rdtail false (.s 16),
    .red false (.v 16) (.v 4) .add, .redf false (.v 16) (.v 4) .add, .poll false (.v 16) (.v 4) .each,
    .qswp false (.v 16) (.v 4) .x, .qred false (.v 16) (.v 4) .fadd, .help false (.v 16), .cellh false (.v 16) (.v 4) (.v 6) .d2,
    .cellh false (.s 16) (.s 4) (.s 6) .d2, .tmask false (.v 16) .act, .tmask false (.s 16) .act, .tpos false (.v 16) (.v 4) .ex,
    .fadd false (.v 16) (.v 4) (.v 6) .rn, .fadd false (.s 16) (.s 4) (.s 6) .rn, .fsub false (.v 16) (.v 4) (.v 6) .rn,
    .fsub false (.s 16) (.s 4) (.s 6) .rn, .fmul false (.v 16) (.v 4) (.v 6) .rn, .fmul false (.s 16) (.s 4) (.s 6) .rn,
    .ffma false (.v 16) (.v 4) (.v 6) .rn, .ffma false (.s 16) (.s 4) (.s 6) .rn, .fmin false (.v 16) (.v 4) (.v 6),
    .fmin false (.s 16) (.s 4) (.s 6), .fmax false (.v 16) (.v 4) (.v 6), .fmax false (.s 16) (.s 4) (.s 6),
    .fcmp false (.v 16) (.v 4) (.v 6) .eq, .fcmp false (.s 16) (.s 4) (.s 6) .eq, .fsgn false (.v 16) (.v 4) (.v 6) .copy,
    .fsgn false (.s 16) (.s 4) (.s 6) .copy, .pkadd false (.v 16) (.v 4) (.v 6) .f16rn, .pkadd false (.s 16) (.s 4) (.s 6) .f16rn,
    .pkmul false (.v 16) (.v 4) (.v 6) .f16rn, .pkmul false (.s 16) (.s 4) (.s 6) .f16rn,
    .pkfma false (.v 16) (.v 4) (.v 6) .f16rn, .pkfma false (.s 16) (.s 4) (.s 6) .f16rn, .fdiv false (.v 16) (.v 4) (.v 6) .rn,
    .fdiv false (.s 16) (.s 4) (.s 6) .rn, .fsqrt false (.v 16) (.v 4) .rn, .fsqrt false (.s 16) (.s 4) .rn,
    .frnd false (.v 16) (.v 4) .rn, .frnd false (.s 16) (.s 4) .rn, .fclass false (.v 16) (.v 4), .fclass false (.s 16) (.s 4),
    .fscl false (.v 16) (.v 4) (.v 6) .rn, .fscl false (.s 16) (.s 4) (.s 6) .rn, .frcp false (.v 16) (.v 4),
    .frcp false (.s 16) (.s 4), .frsq false (.v 16) (.v 4), .frsq false (.s 16) (.s 4), .fex2 false (.v 16) (.v 4),
    .fex2 false (.s 16) (.s 4), .flg2 false (.v 16) (.v 4), .flg2 false (.s 16) (.s 4), .fsin false (.v 16) (.v 4),
    .fsin false (.s 16) (.s 4), .ftanh false (.v 16) (.v 4), .ftanh false (.s 16) (.s 4), .dadd false (.v 16) (.v 4) (.v 6) .rn,
    .dadd false (.s 16) (.s 4) (.s 6) .rn, .dsub false (.v 16) (.v 4) (.v 6) .rn, .dsub false (.s 16) (.s 4) (.s 6) .rn,
    .dmul false (.v 16) (.v 4) (.v 6) .rn, .dmul false (.s 16) (.s 4) (.s 6) .rn, .dfma false (.v 16) (.v 4) (.v 6) .rn,
    .dfma false (.s 16) (.s 4) (.s 6) .rn, .ddiv false (.v 16) (.v 4) (.v 6) .rn, .ddiv false (.s 16) (.s 4) (.s 6) .rn,
    .dsqrt false (.v 16) (.v 4) .rn, .dsqrt false (.s 16) (.s 4) .rn, .dmin false (.v 16) (.v 4) (.v 6) .min,
    .dmin false (.s 16) (.s 4) (.s 6) .min, .dcmp false (.v 16) (.v 4) (.v 6) .eq, .dcmp false (.s 16) (.s 4) (.s 6) .eq,
    .cvt false (.v 16) (.v 4) .rn false .f32 .f32, .cvt false (.s 16) (.s 4) .rn false .f32 .f32,
    .cvtz false (.v 16) (.v 4) false .f32 .f32, .cvtz false (.s 16) (.s 4) false .f32 .f32,
    .cvtu false (.v 16) (.v 4) false .i8 .i8, .cvtu false (.s 16) (.s 4) false .i8 .i8,
    .cvtd false (.v 16) (.v 4) .rn false .f32 .f32, .cvtd false (.s 16) (.s 4) .rn false .f32 .f32,
    .pack false (.v 16) (.v 4) (.v 6) .lo, .pack false (.s 16) (.s 4) (.s 6) .lo, .unpk false (.v 16) (.v 4) .e0,
    .unpk false (.s 16) (.s 4) .e0, .pk8 false (.v 16) (.v 4) (.v 6) .e4m3, .pk8 false (.s 16) (.s 4) (.s 6) .e4m3,
    .upk8 false (.v 16) (.v 4) (.v 6) .e4m3, .upk8 false (.s 16) (.s 4) (.s 6) .e4m3, .red false (.s 16) (.v 4) .add,
    .redf false (.s 16) (.v 4) .add, .tshb false (.v 16) (.v 4) (.s 6) .z, .tshf false (.v 16) (.v 4) (.s 6) .seed,
    .tbcst false (.v 16) (.v 4) (.s 6), .poll false (.s 16) (.v 4) .each], Clear i s1 (thePass s1) := clears_all (by decide +kernel)

theorem test_meets_tail_open :
    (Clear (.rdtail false (.v 1)) s1 (thePass s1) ∧ (thePass s1).P.r.tailOpen = false) ∨
    (Clear (.rdtail false (.v 1)) s1 (thePass s1) ∧ (thePass s1).P.r.tailOpen = true) := by
  cases h : (thePass s1).P.r.tailOpen
  · exact .inl ⟨clear_is (by decide +kernel), rfl⟩
  · exact .inr ⟨clear_is (by decide +kernel), rfl⟩

/-! Control. -/

theorem all_get {α : Type} {l : List α} {f : α × Nat → Bool} (h : l.zipIdx.all f = true) {k : Nat} {y : α} (hk : l[k]? = some y) :
    f (y, k) = true := List.all_eq_true.1 h _ (List.mem_zipIdx_iff_getElem?.2 hk)

/-- Another group of the same block, whose threads all live. -/
def twoGroups (s : State) : State :=
  blk (fun x => { x with h := { x.h with groups := 2 }, groups := x.groups ++ x.groups.map (fun y => { y with uid := 9, q := { y.q with lane := 1 } }) }) s

/-- Every thread of the group on one path. -/
def sAll : State := picked 0xFFFFFFFF (atWord 0)
def sTwo : State := twoGroups sAll

def othersRun (p : Pass) : Bool := p.B.groups.zipIdx.all (fun c => c.2 == p.g || !c.1.liveList.isEmpty || c.1.q.status == .exited)

theorem othersRun_is {p : Pass} (h : othersRun p = true) : OthersRun p := by
  intro k y hk hy
  have := all_get h hy
  simp only [Bool.or_eq_true, beq_iff_eq, Bool.not_eq_true', List.isEmpty_eq_false_iff] at this
  rcases this with (h1 | h2) | h3
  · exact absurd h1 hk
  · exact .inl h2
  · exact .inr h3

theorem test_meets_branches : ∀ i ∈ [
    Instr.nop, .bra (-4), .ret (.v 4), .ret (.s 4), .jmpr (.v 4) .rel, .jmpr (.s 4) .abs, .brz true (.v 4) 4, .brz false (.s 4) 4,
    .brnz true (.v 4) (-4), .brlt false (.v 6) 4, .brge false (.s 6) 4, .meet 0, .meet 4, .winb 1 1, .call false (.v 16) (.v 4) .rel,
    .call true (.s 16) (.s 4) .abs, .loop (.v 4) (-4), .loop (.s 4) (-4)], Clear i s1 (thePass s1) := clears_all (by decide +kernel)

theorem someStay_is {p : Pass} (t : Nat) (z : Thread) (h : t ∉ p.L ∧ t < 32 ∧ p.G.thr[t]? = some z ∧ z.live = true ∧ z.cont = none) :
    SomeStay p := ⟨t, z, h⟩

theorem test_meets_repack_waits :
    Clear (.repack (.s 4) 4) s1 (thePass s1) ∧ OthersRun (thePass s1) ∧ SomeStay (thePass s1) :=
  ⟨clear_is (by decide +kernel), othersRun_is (by decide +kernel),
    someStay_is 1 ((thePass s1).G.thr.getD 1 (startThread 0 0)) (by decide +kernel)⟩

/-- Without a map every thread is in its home group. -/
theorem mapOk_unpacked {x : Block} (h : x.map = []) : MapOk x := by
  intro u _ k hk
  simp only [homeOf, h, List.isEmpty_nil, if_true]
  exact ⟨hk, fun j _ e => e⟩

def allAt (p : Pass) : Bool := p.B.groups.zipIdx.all (fun c => c.1.thr.zipIdx.all (fun z =>
  !z.1.live || (z.1.pc == p.pc && (z.1.cont.isSome || (c.2 == p.g && p.L.contains z.2)))))

/-- One path holds the block; and a second group waits at the instruction already. -/
def sHere : State :=
  blk (fun x => { x with groups := x.groups.mapIdx (fun k y => if k = 1 then { y with thr := y.thr.map (fun z => { z with cont := some 8 }) } else y) }) sTwo

theorem test_meets_repack_continues : ∀ s ∈ [sAll, sHere],
    let p := thePass s
    Clear (.repack .z 4) s p ∧ MapOk p.B ∧ (∀ y ∈ p.B.groups, y.thr.length = 32) ∧
    (∀ (k : Nat) (y : Group) (u : Nat) (z : Thread), p.B.groups[k]? = some y → y.thr[u]? = some z → z.live = true →
      z.pc = p.pc ∧ (z.cont.isSome = true ∨ (k = p.g ∧ u ∈ p.L)) ∧ ∃ w, p.B.groups[homeOf p.B k u]? = some w ∧ w.q.status ≠ .exited) ∧
    (∃ (u : Nat) (z : Thread), u ∈ p.L ∧ p.G.thr[u]? = some z ∧ z.live = true) := by
  intro s hs
  have hd : ∀ s ∈ [sAll, sHere], clear (.repack .z 4) s = true ∧ (thePass s).B.map = [] ∧ (∀ y ∈ (thePass s).B.groups, y.thr.length = 32) ∧
      allAt (thePass s) = true ∧ (thePass s).B.groups.zipIdx.all (fun c => c.1.q.status != .exited) = true ∧
      (let z := (thePass s).G.thr.getD 3 (startThread 0 0); 3 ∈ (thePass s).L ∧ (thePass s).G.thr[3]? = some z ∧ z.live = true) := by decide +kernel
  obtain ⟨h1, h2, h3, h4, h5, h6⟩ := hd s hs
  refine ⟨clear_is h1, mapOk_unpacked h2, h3, ?_, 3, _, h6⟩
  intro k y u z hk hu hl
  have := all_get (all_get h4 hk) hu
  have h : z.pc = (thePass s).pc ∧ (z.cont.isSome = true ∨ (k = (thePass s).g ∧ u ∈ (thePass s).L)) := by simpa [hl] using this
  have he := all_get h5 hk
  exact ⟨h.1, h.2, y, by simpa [homeOf, h2] using hk, by simpa using he⟩

theorem test_meets_exit_of_a_path :
    Clear .exit s1 (thePass s1) ∧ OthersRun (thePass s1) ∧ SomeStay (thePass s1) ∧ (thePass s1).G.handler = none :=
  ⟨clear_is (by decide +kernel), othersRun_is (by decide +kernel),
    someStay_is 1 ((thePass s1).G.thr.getD 1 (startThread 0 0)) (by decide +kernel), by decide +kernel⟩

theorem test_meets_exit_of_a_group :
    let p := thePass sTwo
    Clear .exit sTwo p ∧ OthersRun p ∧ (∃ (k : Nat) (y : Group) (u : Nat) (z : Thread), k ≠ p.g ∧ p.B.groups[k]? = some y ∧ u < 32 ∧
      y.thr[u]? = some z ∧ z.live = true ∧ z.cont = none ∧ y.q.status ≠ .exited) ∧
    p.B.map = [] ∧ p.G.handler = none ∧ (∀ u, p.G.liveT u = true → u ∈ p.L) ∧ p.G.q.status ≠ .exited ∧ journaling p.G = false ∧
    p.G.log = [] ∧ engineQuiet p.G = true ∧ p.G.e.prom = 0 ∧ p.G.e.mma = none := by
  refine ⟨clear_is (by decide +kernel), othersRun_is (by decide +kernel),
    ⟨1, (thePass sTwo).B.groups.getD 1 (thePass sTwo).G, 0, (thePass sTwo).G.thr.getD 0 (startThread 0 0), by decide +kernel⟩,
    by decide +kernel, by decide +kernel, ?_, by decide +kernel⟩
  intro u hu
  have hl : (thePass sTwo).L = List.range 32 := by decide +kernel
  rw [hl, List.mem_range]
  have hn : (thePass sTwo).G.thr.length = 32 := by decide +kernel
  by_cases h : u < 32
  · exact h
  · simp [Group.liveT, List.getElem?_eq_none (by omega : (thePass sTwo).G.thr.length ≤ u)] at hu

/-! Memory. Bank 0 of cluster 0 is a layer bank of the context. -/

def layer (s : State) : State :=
  modCluster s 0 (fun c => { c with banks := [(0, { Bank.reset with mode := 1, owner := 0, nextMode := 1, nextOwner := 0 })] })
def sMem : State := layer s1

/-- Where no error lies hidden, the path finds none. -/
theorem find_nothing {s : State} (h : s.latent = []) (i : Instr) : findSel i s = s := by
  unfold findSel
  split
  · split
    · rfl
    · simp [findAll, h]
  · rfl

/-- The k-th access of the path reaches a place. -/
def place (i : Instr) (q : MemI) (s : State) (k : Nat) : Hit := match metAt i q (thePass s) s k with | .ok h => h | _ => { loc := 0 }

/-- Every access is served at once. -/
def served (i : Instr) (q : MemI) (s : State) : Bool :=
  (accThreads i (thePass s)).all (fun t => decide (look (thePass s) s q.m t ≠ .wait)) &&
  (List.range (accThreads i (thePass s)).length).all (fun k => match metAt i q (thePass s) s k with | .ok h => h.hold.isNone | _ => false)

theorem served_is {i : Instr} {q : MemI} {s : State} (h : served i q s = true) : Served i q (thePass s) s (place i q s) := by
  unfold served at h
  rw [Bool.and_eq_true] at h
  refine ⟨fun t ht => of_decide_eq_true (List.all_eq_true.1 h.1 t ht), fun k hk => ?_⟩
  have := List.all_eq_true.1 h.2 k (List.mem_range.2 hk)
  unfold place
  split at this
  · rename_i x hx
    rw [hx]
    exact ⟨rfl, by simpa using this⟩
  · cases this

/-- The hypotheses of `LoadOp`, with the access that R350 gives the instruction. -/
def LoadMeets (s : State) (c : Instr × Dst) : Prop := ∃ m h, memOf c.1 = some m ∧ Clear c.1 s (thePass s) ∧ findSel c.1 s = s ∧
  Served c.1 { m := m, d := c.2, data := fun _ _ => [], cmp := fun _ _ => [] } (thePass s) s h ∧ Settled c.1 m.n (thePass s) s h

/-- The hypotheses of `StoreOp`. -/
def StoreMeets (s : State) (c : Instr × Src) : Prop := ∃ m h, memOf c.1 = some m ∧ Clear c.1 s (thePass s) ∧ findSel c.1 s = s ∧
  Served c.1 { m := m, d := .discard, data := fun p t => srcWords p t c.2 (ceilDiv m.n 4) 0, cmp := fun _ _ => [] } (thePass s) s h

/-- The hypotheses of `AtomicOp`. -/
def AtomicMeets (s : State) (c : Instr × Dst × Src) : Prop := ∃ m h, memOf c.1 = some m ∧ Clear c.1 s (thePass s) ∧ findSel c.1 s = s ∧
  Served c.1 { m := m, d := c.2.1, data := fun p t => srcWords p t c.2.2 (ceilDiv m.n 4) 0,
               cmp := fun p t => (List.range (ceilDiv m.n 4)).map (dstWord p t c.2.1) } (thePass s) s h

def loads (s : State) (l : List (Instr × Dst)) : Bool := s.hist.isEmpty && (thePass s).G.c.stable.isEmpty && l.all (fun c =>
  match memOf c.1 with
  | none => false
  | some m => clear c.1 s && s.latent.isEmpty && served c.1 { m := m, d := c.2, data := fun _ _ => [], cmp := fun _ _ => [] } s)

theorem loads_meet {s : State} {l : List (Instr × Dst)} (h : loads s l = true) : ∀ c ∈ l, LoadMeets s c := by
  intro c hc
  unfold loads at h
  simp only [Bool.and_eq_true, List.isEmpty_iff] at h
  obtain ⟨⟨h1, h2⟩, h3⟩ := h
  have := List.all_eq_true.1 h3 c hc
  split at this
  · cases this
  · rename_i m hm
    rw [Bool.and_eq_true, Bool.and_eq_true] at this
    refine ⟨m, _, hm, clear_is this.1.1, find_nothing (List.isEmpty_iff.1 this.1.2) _, served_is this.2, fun _ _ _ j _ => ⟨?_, ?_⟩⟩
    · simp [h1]
    · simp [h2, tget?]

def stores (s : State) (l : List (Instr × Src)) : Bool := l.all (fun c => match memOf c.1 with
  | none => false
  | some m => clear c.1 s && s.latent.isEmpty &&
      served c.1 { m := m, d := .discard, data := fun p t => srcWords p t c.2 (ceilDiv m.n 4) 0, cmp := fun _ _ => [] } s)

theorem stores_meet {s : State} {l : List (Instr × Src)} (h : stores s l = true) : ∀ c ∈ l, StoreMeets s c := by
  intro c hc
  have := List.all_eq_true.1 h c hc
  split at this
  · cases this
  · rename_i m hm
    rw [Bool.and_eq_true, Bool.and_eq_true] at this
    exact ⟨m, _, hm, clear_is this.1.1, find_nothing (List.isEmpty_iff.1 this.1.2) _, served_is this.2⟩

def atomics (s : State) (l : List (Instr × Dst × Src)) : Bool := l.all (fun c => match memOf c.1 with
  | none => false
  | some m => clear c.1 s && s.latent.isEmpty &&
      served c.1 { m := m, d := c.2.1, data := fun p t => srcWords p t c.2.2 (ceilDiv m.n 4) 0,
                   cmp := fun p t => (List.range (ceilDiv m.n 4)).map (dstWord p t c.2.1) } s)

theorem atomics_meet {s : State} {l : List (Instr × Dst × Src)} (h : atomics s l = true) : ∀ c ∈ l, AtomicMeets s c := by
  intro c hc
  have := List.all_eq_true.1 h c hc
  split at this
  · cases this
  · rename_i m hm
    rw [Bool.and_eq_true, Bool.and_eq_true] at this
    exact ⟨m, _, hm, clear_is this.1.1, find_nothing (List.isEmpty_iff.1 this.1.2) _, served_is this.2⟩

theorem test_meets_device_loads : ∀ c ∈ ([
    (.ldb (.v 16) (.v 4) (-8), .v 16), (.ldb (.s 16) (.s 4) (-8), .s 16), (.ldbs (.v 16) (.v 4) (-8), .v 16),
    (.ldbs (.s 16) (.s 4) (-8), .s 16), (.ldh (.v 16) (.v 4) (-2), .v 16), (.ldh (.s 16) (.s 4) (-2), .s 16),
    (.ldhs (.v 16) (.v 4) (-2), .v 16), (.ldhs (.s 16) (.s 4) (-2), .s 16), (.ldw (.v 16) (.v 4) (-8), .v 16),
    (.ldw (.s 16) (.s 4) (-8), .s 16), (.ldd (.v 16) (.v 4) (-8), .v 16), (.ldd (.s 16) (.s 4) (-8), .s 16),
    (.ldq (.v 16) (.v 4) 16, .v 16), (.ldq (.s 16) (.s 4) 16, .s 16), (.ldx (.v 16) (.v 4) (.v 6) .b32, .v 16),
    (.ldx (.v 16) (.v 4) (.v 6) .b64, .v 16), (.ldx (.v 16) (.v 4) (.v 6) .b128, .v 16), (.ldx (.v 16) (.v 4) (.v 6) .n16, .v 16),
    (.ldx .discard (.s 4) (.s 6) .b32, .discard)] : List (Instr × Dst)), LoadMeets sMem c := loads_meet (by decide +kernel)

theorem test_meets_atomic_and_local_loads : ∀ c ∈ ([
    (.ldu (.v 16) (.v 4) 4, .v 16), (.ldu (.s 16) (.s 4) (-4), .s 16), (.lds (.v 16) (.v 4) 4, .v 16),
    (.lds (.s 16) (.s 4) (-4), .s 16), (.ldl (.v 16) (.v 4) 4, .v 16), (.ldl (.s 16) (.s 4) (-4), .s 16),
    (.ldsx (.v 16) (.v 4) (.v 6) .b32, .v 16), (.ldsx (.v 16) (.v 4) (.v 6) .b64, .v 16),
    (.ldsx (.v 16) (.v 4) (.v 6) .b128, .v 16), (.ldsx (.v 16) (.v 4) (.v 6) .n16, .v 16),
    (.ldlb (.v 16) (.v 4) (.v 6) .b64, .v 16), (.ldlb (.v 16) (.v 4) (.v 6) .b128, .v 16),
    (.ldhw (.v 16) (.v 4) (.v 6) .b32, .v 16), (.ldhw (.v 16) (.v 4) (.v 6) .b64, .v 16),
    (.ldhw (.v 16) (.v 4) (.v 6) .n8, .v 16), (.ldhw (.v 16) (.v 4) (.v 6) .n16, .v 16)] : List (Instr × Dst)), LoadMeets sMem c := loads_meet (by decide +kernel)

theorem test_meets_device_stores : ∀ c ∈ ([
    (.stb (.v 8) (.v 4) (-8), .v 8), (.stb (.s 8) (.s 4) (-8), .s 8), (.sth (.v 8) (.v 4) (-2), .v 8),
    (.sth (.s 8) (.s 4) (-2), .s 8), (.stw (.v 8) (.v 4) (-8), .v 8), (.stw (.s 8) (.s 4) (-8), .s 8),
    (.std (.v 8) (.v 4) (-8), .v 8), (.std (.s 8) (.s 4) (-8), .s 8), (.stq (.v 8) (.v 4) 16, .v 8),
    (.stq (.s 8) (.s 4) 16, .s 8), (.stx (.v 8) (.v 4) (.v 6) .b32, .v 8), (.stx (.v 8) (.v 4) (.v 6) .b64, .v 8),
    (.stx (.v 8) (.v 4) (.v 6) .b128, .v 8), (.stx (.v 8) (.v 4) (.v 6) .n16, .v 8)] : List (Instr × Src)), StoreMeets sMem c := stores_meet (by decide +kernel)

theorem test_meets_local_stores : ∀ c ∈ ([
    (.sts (.v 8) (.v 4) 4, .v 8), (.sts (.s 8) (.s 4) (-4), .s 8), (.stl (.v 8) (.v 4) 4, .v 8),
    (.stsx (.v 8) (.v 4) (.v 6) .b32, .v 8), (.stsx (.v 8) (.v 4) (.v 6) .b64, .v 8), (.stsx (.v 8) (.v 4) (.v 6) .b128, .v 8),
    (.stsx (.v 8) (.v 4) (.v 6) .n16, .v 8), (.stlb (.v 8) (.v 4) (.v 6) .b64, .v 8), (.stlb (.v 8) (.v 4) (.v 6) .b128, .v 8),
    (.sthw (.v 8) (.v 4) (.v 6) .b32, .v 8), (.sthw (.v 8) (.v 4) (.v 6) .b64, .v 8), (.sthw (.v 8) (.v 4) (.v 6) .n8, .v 8),
    (.sthw (.v 8) (.v 4) (.v 6) .n16, .v 8)] : List (Instr × Src)), StoreMeets sMem c := stores_meet (by decide +kernel)

theorem test_meets_atomics : ∀ c ∈ ([
    (.aadd (.v 16) (.v 4) (.v 8) .b32, .v 16, .v 8), (.aadd (.v 16) (.v 4) (.v 8) .b64, .v 16, .v 8),
    (.amin (.v 16) (.v 4) (.v 8) .i32, .v 16, .v 8), (.amin (.v 16) (.v 4) (.v 8) .i64, .v 16, .v 8),
    (.aminn (.v 16) (.v 4) (.v 8) .n32, .v 16, .v 8), (.aminn (.v 16) (.v 4) (.v 8) .n64, .v 16, .v 8),
    (.amax (.v 16) (.v 4) (.v 8) .i32, .v 16, .v 8), (.amax (.v 16) (.v 4) (.v 8) .i64, .v 16, .v 8),
    (.amaxn (.v 16) (.v 4) (.v 8) .n32, .v 16, .v 8), (.amaxn (.v 16) (.v 4) (.v 8) .n64, .v 16, .v 8),
    (.aand (.v 16) (.v 4) (.v 8) .b32, .v 16, .v 8), (.aand (.v 16) (.v 4) (.v 8) .b64, .v 16, .v 8),
    (.aor (.v 16) (.v 4) (.v 8) .b32, .v 16, .v 8), (.aor (.v 16) (.v 4) (.v 8) .b64, .v 16, .v 8),
    (.axor (.v 16) (.v 4) (.v 8) .b32, .v 16, .v 8), (.axor (.v 16) (.v 4) (.v 8) .b64, .v 16, .v 8),
    (.axch (.v 16) (.v 4) (.v 8) .b32, .v 16, .v 8), (.axch (.v 16) (.v 4) (.v 8) .b64, .v 16, .v 8),
    (.acas (.v 16) (.v 4) (.v 8) .b32, .v 16, .v 8), (.acas (.v 16) (.v 4) (.v 8) .b64, .v 16, .v 8),
    (.afadd (.v 16) (.v 4) (.v 8) .f32, .v 16, .v 8), (.afadd (.v 16) (.v 4) (.v 8) .f16x2, .v 16, .v 8),
    (.afadd (.v 16) (.v 4) (.v 8) .bf16x2, .v 16, .v 8), (.afmin (.v 16) (.v 4) (.v 8) .min, .v 16, .v 8),
    (.afmin (.v 16) (.v 4) (.v 8) .max, .v 16, .v 8), (.ainc (.v 16) (.v 4) (.v 8) .inc, .v 16, .v 8),
    (.ainc (.v 16) (.v 4) (.v 8) .dec, .v 16, .v 8), (.asadd (.v 16) (.v 4) (.v 8) .i32, .v 16, .v 8),
    (.asadd (.v 16) (.v 4) (.v 8) .f32, .v 16, .v 8), (.asmin (.v 16) (.v 4) (.v 8) .i32, .v 16, .v 8),
    (.asmin (.v 16) (.v 4) (.v 8) .n32, .v 16, .v 8), (.ascas (.v 16) (.v 4) (.v 8) .b32, .v 16, .v 8),
    (.ascas (.v 16) (.v 4) (.v 8) .b64, .v 16, .v 8), (.aadd .discard (.s 4) (.s 8) .b32, .discard, .s 8)] : List (Instr × Dst × Src)), AtomicMeets sMem c := atomics_meet (by decide +kernel)

/-! Lifetimes, queries, prefetches, ordering, barriers, phases. -/

/-- s4 names a granule, s6 and s7 one granule of class 1 for 5 units, s8 one granule of class 0. -/
def sLife : State := layer (picked 5 (sca [(4, 0x3000), (6, 0x10001), (7, 5), (8, 1)] (atWord 0)))

theorem test_meets_lifetimes :
    (∀ i ∈ [Instr.alloc (.s 4) (.s 6) .scr, .alloc (.s 4) (.s 6) .lay, .life (.s 4) (.s 6) .scr, .life (.s 4) (.s 6) .lay,
      .free (.s 4) (.s 8) .scr, .free (.s 4) (.s 8) .lay], Clear i sLife (thePass sLife)) ∧
    layerDrains sLife (clusterOf (thePass sLife).B.core) (granArg (thePass sLife) (.s 4) (.s 6)).a = false :=
  ⟨clears_all (by decide +kernel), by decide +kernel⟩

theorem test_meets_state_queries : ∀ i ∈ [
    Instr.expq (.v 1) (.v 4) .scr, .expq (.v 1) (.s 4) .lay, .mmaq (.s 1), .mmaq (.v 1), .qstat (.s 1) .z .occ, .qstat (.v 1) (.s 8) .free],
    Clear i sMem (thePass sMem) := clears_all (by decide +kernel)

/-- The 64 KiB page at 1 GiB lies in the first page of the second memory tier, and the tenant has a pool. -/
def farPage (s : State) : State :=
  { s with mem := msetN (msetN (msetN s.mem 0x800010 (leBytes 16 0x900001)) 0x900000 (leBytes 16 0xA00001)) 0xA00000 (leBytes 16 0x1000000101F)
           sh := { s.sh with migpool := [(0, 0x8000040000000000)] } }

/-- s4 and s5 name the page. -/
def sPref : State := farPage (picked 5 (sca [(4, 0x40000000)] (atWord 0)))
/-- Promotions are outstanding: one short of the limit, at it, and at the limit with a page that does not stay. -/
def outstanding (n : Nat) (s : State) : State := grp (fun y => { y with e := { y.e with prom := n } }) s

theorem test_meets_pref :
    (Clear (.pref (.v 4) (.v 6)) s1 (thePass s1) ∧ (thePass s1).G.e.prom ≠ 255 ∧
      (thePass s1).G.e.prom + ((prefPages (thePass s1) (.v 4) (.v 6)).filter (fun x => prefStays s1 (thePass s1).B.ctx x.1)).length ≤ 255) ∧
    (∀ n ∈ [0, 254], let s := outstanding n sPref
      clear (.pref (.s 4) .z) s = true ∧ prefPages (thePass s) (.s 4) .z = [(0x40000000, 0)] ∧
      prefStays s (thePass s).B.ctx 0x40000000 = true ∧ (thePass s).G.e.prom ≠ 255 ∧ (thePass s).G.e.prom + 1 ≤ 255) ∧
    (∀ s ∈ [outstanding 255 sPref, outstanding 255 s1], clear (.pref (.s 4) .z) s = true ∧ (thePass s).G.e.prom = 255) :=
  ⟨⟨clear_is (by decide +kernel), by decide +kernel⟩, by decide +kernel⟩

theorem test_meets_publish_acquire_and_fence : ∀ i ∈ [
    Instr.pub .thr, .pub .quad, .pub .grp, .pub .blk, .pub .core, .pub .trp, .pub .clu, .pub .die, .pub .dev, .pub .host, .pub .fab, .acq .thr,
    .acq .blk, .acq .fab, .fence], Clear i s1 (thePass s1) := clears_all (by decide +kernel)

def sWait : State := grp (fun y => { y with e := { y.e with copy := 3, gath := 1, coll := 2, prom := 255 } }) s1

theorem test_meets_wait :
    (∀ i ∈ [Instr.wait .copy 3, .wait .copy 2, .wait .gath 1, .wait .gath 0, .wait .coll 2, .wait .coll 1, .wait .prom 255, .wait .prom 254],
      Clear i sWait (thePass sWait)) ∧
    (thePass sWait).G.e.copy = 3 ∧ (thePass sWait).G.e.gath = 1 ∧ (thePass sWait).G.e.coll = 2 ∧ (thePass sWait).G.e.prom = 255 :=
  ⟨clears_all (by decide +kernel), by decide +kernel⟩

/-- Group 0 has arrived at barrier 1, which is open. -/
def sArrived : State := blk (fun x => { x with
  arr := [(32, { released := false, links := [] })], bars := [(1, { gen := 0, arrived := [0], links := [], hold := [], last := 0 })] }) sTwo

theorem test_meets_barrier_arrivals :
    (∀ i ∈ [Instr.bara (some .blk) 1, .bara none 1, .bar none 1, .barw none 1, .barw (some .dev) 1], Clear i sTwo (thePass sTwo)) ∧
    (thePass sTwo).B.map = [] ∧ homeMeets (thePass sTwo).B (thePass sTwo).pc (thePass sTwo).g = true ∧
    arrivedOpen (thePass sTwo).B 1 (thePass sTwo).g = false ∧
    (insertNat (barrierOf (thePass sTwo).B 1).arrived (thePass sTwo).g).length < (thePass sTwo).B.h.groups ∧
    (barrierOf (thePass sTwo).B 1).arrived.length < (thePass sTwo).B.h.groups := ⟨clears_all (by decide +kernel), by decide +kernel⟩

theorem test_meets_barrier_wait_after_arrival :
    let p := thePass sArrived
    Clear (.barw none 1) sArrived p ∧ p.B.map = [] ∧ homeMeets p.B p.pc p.g = true ∧ (barrierOf p.B 1).arrived.length < p.B.h.groups ∧
    arrivedOpen p.B 1 p.g = true := ⟨clear_is (by decide +kernel), by decide +kernel⟩

/-- The block is packed; group 0 waits at another barrier; group 1 has arrived at barrier 1, and waits there or has gone on. -/
def sPacked : State := blk (fun x => { x with map := (List.range 64).map (fun k => (k, k)) }) sTwo
def sElsewhereWaits : State := blk (fun x => { x with bwait := [(0, { id := 3, pub := none, whole := true })] }) sTwo
def sLast (w : List (Nat × BarWait)) : State := blk (fun x => { x with
  bwait := w, arr := [(33, { released := false, links := [] })], bars := [(1, { gen := 4, arrived := [1], links := [], hold := [], last := 0 })] }) sTwo
def waits1 : BarWait := { id := 1, pub := none, whole := true }

theorem test_meets_barrier_publish_and_packed :
    (Clear (.bar (some .blk) 1) sTwo (thePass sTwo) ∧ boundaryReady (thePass sTwo).B (thePass sTwo).g (thePass sTwo).pc = true) ∧
    (Clear (.bar (some .blk) 1) sElsewhereWaits (thePass sElsewhereWaits) ∧ (thePass sElsewhereWaits).B.map = [] ∧
      boundaryReady (thePass sElsewhereWaits).B (thePass sElsewhereWaits).g (thePass sElsewhereWaits).pc = false) ∧
    (Clear (.bar none 1) sPacked (thePass sPacked) ∧ (thePass sPacked).B.map ≠ [] ∧ 1 < (thePass sPacked).B.groups.length ∧
      homeMeets (thePass sPacked).B (thePass sPacked).pc 1 = true ∧ arrivedOpen (thePass sPacked).B 1 1 = false) :=
  ⟨⟨clear_is (by decide +kernel), by decide +kernel⟩, ⟨clear_is (by decide +kernel), by decide +kernel⟩,
    ⟨clear_is (by decide +kernel), by decide +kernel⟩⟩

theorem test_meets_barrier_release :
    (∀ i ∈ [Instr.bar none 1, .bara none 1, .bara (some .dev) 1, .bar (some .dev) 1], ∀ w ∈ [[], [(1, waits1)]], clear i (sLast w) = true) ∧
    (∀ w ∈ [[], [(1, waits1)]], let p := thePass (sLast w)
      p.B.map = [] ∧ homeMeets p.B p.pc p.g = true ∧ boundaryReady p.B p.g p.pc = true ∧ arrivedOpen p.B 1 p.g = false ∧ p.B.bwait = w ∧
      (p.B.bwait.map (·.1)).Nodup ∧ (∀ c ∈ p.B.bwait, c.2.id = 1 → c.2.pub = none) ∧ p.G.q.status ≠ .exited ∧ p.G.liveList ≠ [] ∧
      p.B.h.groups ≤ (insertNat (barrierOf p.B 1).arrived p.g).length ∧
      p.B.groups.zipIdx.any (fun z => z.2 == 1 && z.1.q.status != .exited && !z.1.liveList.isEmpty) = true) ∧
    (let x := { (thePass sPacked).B with bars := [(1, { gen := 4, arrived := [0, 1], links := [], hold := [], last := 0 })] }
     x.h.groups ≤ (barrierOf x 1).arrived.length ∧ (∀ c ∈ x.bwait, c.2.id = 1 → c.2.pub = none) ∧
     ∃ z ∈ (unpack x).groups, z.q.status ≠ .exited ∧ z.liveList ≠ []) := by decide +kernel

theorem test_meets_phase : ∀ sc ∈ [Scope.thr, .grp, .blk, .dev, .fab],
    Clear (.phase sc) sAll (thePass sAll) ∧ (thePass sAll).B.map = [] ∧ boundaryReady (thePass sAll).B (thePass sAll).g (thePass sAll).pc = true := by
  have h : ∀ i ∈ ([Scope.thr, .grp, .blk, .dev, .fab].map Instr.phase), Clear i sAll (thePass sAll) := clears_all (by decide +kernel)
  exact fun sc hs => ⟨h _ (List.mem_map_of_mem hs), by decide +kernel⟩

/-! Engines. -/

def gangs (l : List (Nat × Nat)) (s : State) : State :=
  grp (fun y => { y with e := { y.e with gang := some { members := l, accb := 0, rq := 0, cm := 0 } } }) s
def solo : Gang := { members := [(0, 0)], accb := 0, rq := 0, cm := 0 }
def flying : MmaFly :=
  { dst := some (.s 4), res := [(0, 7)], status := 0x107, endAt := 0, cycles := 4, steps := 1, stuck := none, pc := 64, away := [],
    mates := [(0, 0)], metAt := 0 }
def sGang : State := gangs [(0, 0)] sAll
def sFly : State := grp (fun y => { y with e := { y.e with mma := some flying } }) sGang
def sPair : State := gangs [(0, 0), (0, 1)] sTwo
/-- A gang of this group alone, with accumulators from v300. -/
def sWide : State := sca [(10, 0x12C00001)] sAll

theorem test_meets_gang_and_accz :
    Clear (.gang (.s 8) (.s 10)) sAll (thePass sAll) ∧ Clear (.gang (.s 8) (.s 10)) sWide (thePass sWide) ∧
    (Clear .accz sGang (thePass sGang) ∧ (thePass sGang).G.e.gang = some solo ∧ (thePass sGang).G.e.mma = none) ∧
    (Clear .accz sFly (thePass sFly) ∧ (thePass sFly).G.e.gang = some solo ∧ (thePass sFly).G.e.mma = some flying) :=
  ⟨clear_is (by decide +kernel), clear_is (by decide +kernel), ⟨clear_is (by decide +kernel), by decide +kernel⟩,
    ⟨clear_is (by decide +kernel), by decide +kernel⟩⟩

theorem live_at {y : Group} {w : Word} (hn : y.thr.length = 32) (h : (List.range 32).all (fun u => !y.liveT u || y.pcOf u == w) = true) :
    ∀ u, y.liveT u = true → y.pcOf u = w := by
  intro u hu
  by_cases hl : u < 32
  · simpa [hu] using List.all_eq_true.1 h u (List.mem_range.2 hl)
  · simp [Group.liveT, List.getElem?_eq_none (by omega : y.thr.length ≤ u)] at hu

theorem test_meets_mma : ∀ i ∈ [Instr.mma (.s 4) (.s 12) (.s 14) .bf16, .mma (.s 4) (.s 12) (.s 14) .i8, .mmas (.s 4) (.s 12) (.s 24) .e4e4,
      .mmaf (.s 4) (.s 12) (.s 14) .e5e5, .mmaf .discard (.s 12) (.s 14) .e4e5],
    Clear i sGang (thePass sGang) ∧ findSel i sGang = sGang ∧ (thePass sGang).P = (thePass sGang).G ∧ (thePass sGang).G.e.gang = some solo ∧
    solo.members.length = 1 ∧ (∃ c, mmaArgs (thePass sGang) i = some c ∧ mmaLook (thePass sGang) sGang c solo ≠ .wait) ∧
    (∀ u, (thePass sGang).G.liveT u = true → (thePass sGang).G.pcOf u = (thePass sGang).pc) ∧ (thePass sGang).G.e.mma = none := by
  intro i hi
  have hc : ∀ i ∈ [Instr.mma (.s 4) (.s 12) (.s 14) .bf16, .mma (.s 4) (.s 12) (.s 14) .i8, .mmas (.s 4) (.s 12) (.s 24) .e4e4,
      .mmaf (.s 4) (.s 12) (.s 14) .e5e5, .mmaf .discard (.s 12) (.s 14) .e4e5], Clear i sGang (thePass sGang) := clears_all (by decide +kernel)
  refine ⟨hc i hi, find_nothing (by decide +kernel) i, by decide +kernel, by decide +kernel, rfl, ?_,
    live_at (by decide +kernel) (by decide +kernel), by decide +kernel⟩
  have hw : [Instr.mma (.s 4) (.s 12) (.s 14) .bf16, .mma (.s 4) (.s 12) (.s 14) .i8, .mmas (.s 4) (.s 12) (.s 24) .e4e4,
      .mmaf (.s 4) (.s 12) (.s 14) .e5e5, .mmaf .discard (.s 12) (.s 14) .e4e5].all (fun i => match mmaArgs (thePass sGang) i with
        | some c => decide (mmaLook (thePass sGang) sGang c solo ≠ .wait) | none => false) = true := by decide +kernel
  have := List.all_eq_true.1 hw i hi
  split at this
  · rename_i c hc
    exact ⟨c, hc, of_decide_eq_true this⟩
  · cases this

theorem test_meets_mma_rendezvous :
    let p := thePass sPair
    let i : Instr := .mma (.s 4) (.s 12) (.s 14) .bf16
    ∃ x c, Clear i sPair p ∧ findSel i sPair = sPair ∧ p.G.e.gang = some x ∧ 1 < x.members.length ∧ mmaArgs p i = some c ∧
     (∀ u, p.G.liveT u = true → p.G.pcOf u = p.pc) ∧ p.G.e.mma = none ∧ mmaLook p sPair c x ≠ .wait ∧
     (∃ w ∈ x.members, w.1 = troupeRel p.B ∧ w.2 ≠ p.g ∧ ∃ y, p.B.groups[w.2]? = some y ∧ y.e.mmaWait = none) ∧
     (∀ k y, (k, y) ∈ sPair.blocks → y.inst = p.B.inst → y.node = p.B.node → y.troupe = p.B.troupe → troupeRel y = troupeRel p.B → k = p.b) := by
  refine ⟨{ members := [(0, 0), (0, 1)], accb := 0, rq := 0, cm := 0 },
    mmaD (mmaElt .bf16) (mmaElt .bf16) false (descWords (thePass sPair) (.s 12) 2) (descWords (thePass sPair) (.s 14) 2),
    clear_is (by decide +kernel), find_nothing (by decide +kernel) _, by decide +kernel, by decide +kernel, rfl,
    live_at (by decide +kernel) (by decide +kernel), by decide +kernel, by decide +kernel,
    ⟨(0, 1), by decide +kernel, by decide +kernel, by decide +kernel, (thePass sPair).B.groups.getD 1 (thePass sPair).G, by decide +kernel⟩, ?_⟩
  intro k y hk _ _ _ _
  have h : sPair.blocks.all (fun c => c.1 == (thePass sPair).b) = true := by decide +kernel
  simpa using List.all_eq_true.1 h _ hk

/-- The other member of the pair waits already. -/
def sLastMember : State := blk (fun x => { x with groups := x.groups.mapIdx (fun k y => if k = 1 then { y with e := { y.e with
  gang := some { members := [(0, 0), (0, 1)], accb := 0, rq := 0, cm := 0 },
  mmaWait := some { i := .mma (.s 4) (.s 12) (.s 14) .bf16, pc := 64, since := 0 } } } else y) }) sPair
/-- It, with this group waiting as well. -/
def sBothMet (i : Instr) : State := grp (fun y => { y with e := { y.e with
  mmaWait := some { i := i, pc := (thePass sLastMember).pc, since := coreEdge sLastMember (thePass sLastMember).B.core } } }) sLastMember
def lookOk : Look → Bool
  | .ok _ => true
  | _ => false

theorem test_meets_mma_last_member : ∀ i ∈ [Instr.mma (.s 4) (.s 12) (.s 14) .bf16, .mmas (.s 4) (.s 12) (.s 24) .e4e4, .mmaf (.s 4) (.s 12) (.s 14) .e5e5],
    let p := thePass sLastMember
    clear i sLastMember = true ∧ sLastMember.latent = [] ∧ p.G.e.gang = some { members := [(0, 0), (0, 1)], accb := 0, rq := 0, cm := 0 } ∧
    (mmaArgs p i).any (fun c => decide (mmaLook p sLastMember c { members := [(0, 0), (0, 1)], accb := 0, rq := 0, cm := 0 } ≠ .wait)) = true ∧
    (List.range 32).all (fun u => !p.G.liveT u || p.G.pcOf u == p.pc) = true ∧ p.G.e.mma = none ∧
    (let s1 := sBothMet i
     let ms := gangPlaces s1 p.b p.g
     ms = [(0, 0), (0, 1)] ∧ (∀ m ∈ ms, (memberArgs s1 m.1 m.2).any (fun z => lookOk (mmaLook z.1 s1 z.2.2.1 z.2.2.2)) = true)) := by decide +kernel

def sFull : State := grp (fun y => { y with e := { y.e with copy := 255, gath := 255 } }) s1
/-- s20 to s24 describe a gather of one 16-byte row. -/
def gathWords : List (Nat × Word) := [(20, 0), (21, 0x2000), (22, 0), (23, 0x1000), (24, 0x100001)]
def sGath : State := sca gathWords s1
def sGathFull : State := sca gathWords sFull

theorem test_meets_copies :
    (Clear (.cpy (.s 16) (.s 4)) s1 (thePass s1) ∧ (thePass s1).G.e.copy < 255 ∧
      copyLook (thePass s1) s1 (copyD false (descWords (thePass s1) (.s 4) 6)) ≠ .wait) ∧
    (Clear (.cpyt .discard (.s 4)) s1 (thePass s1) ∧ copyLook (thePass s1) s1 (copyD true (descWords (thePass s1) (.s 4) 8)) ≠ .wait) ∧
    (Clear (.cpy (.s 16) (.s 4)) sFull (thePass sFull) ∧ Clear (.cpyt .discard (.s 4)) sFull (thePass sFull) ∧ (thePass sFull).G.e.copy = 255) :=
  ⟨⟨clear_is (by decide +kernel), by decide +kernel⟩, ⟨clear_is (by decide +kernel), by decide +kernel⟩,
    ⟨clear_is (by decide +kernel), clear_is (by decide +kernel), by decide +kernel⟩⟩

theorem test_meets_a_bad_copy :
    let o : EngOp := { i := .cpy (.s 16) (.s 4), desc := [], dst := some (.s 16), sect := 0, pos := 0, poisoned := false, data := [], cid := 0,
                       susp := none, bad := true, fin := none, jat := none, part := 0 }
    let s := grp (fun y => { y with e := { y.e with ops := [o], copy := 1 } }) s1
    s.grp? 0 0 = some (thePass s).G ∧ (thePass s).G.e.ops.findIdx? isCopy = some 0 ∧ (thePass s).G.e.ops[0]? = some o ∧
    (thePass s).G.liveList ≠ [] ∧ (thePass s).G.q.rollback = false := by decide +kernel

/-- The row lies in a page that is not present. -/
def sGathAway : State := sca [(20, 0), (21, 0x40000000), (22, 0), (23, 0x1000), (24, 0x100001)] s1

theorem test_meets_gathers :
    let i : Instr := .gath (.s 16) (.s 20)
    (Clear i sGath (thePass sGath) ∧ findSel i sGath = sGath ∧ (thePass sGath).G.e.gath < 255 ∧
      ∃ h, gathLook (thePass sGath) sGath (gathD (descWords (thePass sGath) (.s 20) 5)) = .ok h) ∧
    (Clear i sGathAway (thePass sGathAway) ∧ findSel i sGathAway = sGathAway ∧ (thePass sGathAway).G.e.gath < 255 ∧
      gathLook (thePass sGathAway) sGathAway (gathD (descWords (thePass sGathAway) (.s 20) 5)) = .notPresent 0x40000000) ∧
    (Clear i sGathFull (thePass sGathFull) ∧ findSel i sGathFull = sGathFull ∧ (thePass sGathFull).G.e.gath = 255) :=
  ⟨⟨clear_is (by decide +kernel), find_nothing (by decide +kernel) _, by decide +kernel, { loc := 0 }, by decide +kernel⟩,
    ⟨clear_is (by decide +kernel), find_nothing (by decide +kernel) _, by decide +kernel⟩,
    ⟨clear_is (by decide +kernel), find_nothing (by decide +kernel) _, by decide +kernel⟩⟩

/-- Thread 1 of the group stands elsewhere. -/
def sApart : State := grp (modThr 1 (fun x => { x with pc := 8 })) s1

theorem test_meets_collective_starts :
    (Clear (.coll (.s 16) (.s 4) .ar) sAll (thePass sAll) ∧ (∀ u, (thePass sAll).G.liveT u = true → (thePass sAll).G.pcOf u = (thePass sAll).pc) ∧
      (thePass sAll).G.e.coll < 255) ∧
    (let s := grp (fun y => { y with e := { y.e with coll := 255 } }) sAll
     clear (.coll (.s 16) (.s 4) .ar) s = true ∧ (thePass s).G.e.coll = 255) ∧
    (Clear (.coll .discard (.s 4) .bc) sApart (thePass sApart) ∧ 1 < 32 ∧ (thePass sApart).G.liveT 1 = true ∧
      (thePass sApart).G.pcOf 1 ≠ (thePass sApart).pc) :=
  ⟨⟨clear_is (by decide +kernel), live_at (by decide +kernel) (by decide +kernel), by decide +kernel⟩,
    by decide +kernel, ⟨clear_is (by decide +kernel), by decide +kernel⟩⟩

/-! Queues and continuations. -/

def withQueue (q : Queue) (s : State) : State := modCluster s 0 (fun c => { c with queues := [(0, q)] })
/-- A queue of two slots of the context, with core 0 as its consumer. -/
def mine : Queue := { Queue.reset with en := true, cmask := 1 }
def record : WinRec := { ix := 0, data := List.replicate 64 1, bound := none, writers := [] }
def sQueue : State := withQueue mine s1
def sQueueFull : State := withQueue { mine with putix := 1 } s1
def one (s : State) : State := picked 1 s
def sWindow : State := one (withQueue { mine with windows := [(0, [record])] } s1)
def sBound : State := one (withQueue { mine with windows := [(0, [{ record with bound := some (0, 0, 0) }])] } s1)
def sEmpty : State := one sQueue

/-- The records fit exactly, and one too many. -/
theorem test_meets_queue_puts :
    (∀ i ∈ [Instr.qput .z (.v 16), .qmput (.v 1) .z (.v 16)], Clear i sQueue (thePass sQueue)) ∧
    (∀ i ∈ [Instr.qput .z (.v 16), .qmput (.v 1) .z (.v 16)], Clear i sQueueFull (thePass sQueueFull)) ∧
    (let q := queueOf (thePass sQueue) sQueue (queueNum (thePass sQueue) .z)
     (q.putix - q.freeix).toNat + (putRecords (thePass sQueue) (.v 16)).length ≤ queueSlots q) ∧
    (let q := queueOf (thePass sQueueFull) sQueueFull (queueNum (thePass sQueueFull) .z)
     queueSlots q < (q.putix - q.freeix).toNat + (putRecords (thePass sQueueFull) (.v 16)).length) :=
  ⟨clears_all (by decide +kernel), clears_all (by decide +kernel), by decide +kernel⟩

/-- Two records for the two threads of the path, after one that another thread holds; the same for a stage; none; a record to be delivered
again; and a ring with an index phase. -/
def rec2 : List WinRec :=
  [{ record with bound := some (0, 0, 7) }, { record with ix := 1 }, { record with ix := 2, data := List.replicate 64 2 }]
def sTwoTake : State := withQueue { mine with windows := [(0, rec2)] } s1
def sStageTake : State := modCore (withQueue { mine with stage := 3, windows := [(0, rec2)] } s1) 0 (fun c => { c with cstage := 3 })
def again (st : Bool) : Take := { t := 0, q := 0, ix := 5, data := List.replicate 64 3, again := true, stage := st }
def sAgain (st : Bool) : State := grp (fun y => { y with e := { y.e with takes := [again st] } }) sEmpty
def sIndexRing : State := grp (fun y => { y with q := { y.q with status := .active } }) (one (withQueue { mine with
  mode := true, putix := 1, slots := [(0, { data := List.replicate 64 4, writers := [], mask := 0, phase := phaseBit mine 0, free := false })] } s1))
def takeSel (st : Bool) (p : Pass) (s : State) : Option Nat :=
  if st then (if (s.core p.B.core).cstage.getLsbD 4 = true then none
    else (List.range 16).find? (fun n => let q := (s.cluster (clusterOf p.B.core)).queue n
      q.en && q.owner == p.B.ctx && q.stage == (s.core p.B.core).cstage.toNat % 16))
  else some ((srcWord p p.low .z 0 0).toNat % 16)

theorem test_meets_queue_takes :
    (∀ c ∈ [(Instr.qtakeQ (.v 16) .z, false, sTwoTake), (.qtakeStage (.v 16), true, sStageTake)],
      let s := c.2.2
      let p := thePass s
      let q := (s.cluster (clusterOf p.B.core)).queue 0
      let w := tget q.windows (p.B.core % 8) []
      let us := w.filter (fun r => r.bound.isNone)
      clear c.1 s = true ∧ takeSel c.2.1 p s = some 0 ∧ p.B.map = [] ∧ p.G.e.takes = [] ∧ q.mode = false ∧ (w.map (·.ix)).Nodup ∧
      p.L.length ≤ us.length ∧ (∀ r ∈ us, r.data.length = 64) ∧
      ∀ u ∈ p.L, ((q.windows.flatMap (·.2)).filter (fun r => r.bound == some (p.b, p.g, u))).length < 4) ∧
    (clear (.qtakeQ (.v 16) .z) sEmpty = true ∧ takeSel false (thePass sEmpty) sEmpty = some 0 ∧ (thePass sEmpty).G.e.takes = [] ∧
      ((sEmpty.cluster 0).queue 0).mode = false ∧ tget ((sEmpty.cluster 0).queue 0).windows 0 [] = []) ∧
    (clear (.qtakeStage (.v 16)) sEmpty = true ∧ takeSel true (thePass sEmpty) sEmpty = none ∧
      ∀ k ∈ (thePass sEmpty).G.e.takes, k.stage = true → k.again = false) ∧
    (∀ c ∈ [(Instr.qtakeQ (.v 16) .z, false), (.qtakeStage (.v 16), true)], let p := thePass (sAgain c.2)
      clear c.1 (sAgain c.2) = true ∧ p.L = [p.low] ∧ p.G.e.takes = [again c.2] ∧ p.low = 0 ∧
      (c.2 = false → takeSel false p (sAgain c.2) = some 0)) ∧
    (let p := thePass sIndexRing
     let q := (sIndexRing.cluster 0).queue 0
     clear (.qtakeQ (.v 16) .z) sIndexRing = true ∧ takeSel false p sIndexRing = some 0 ∧ p.L = [p.low] ∧ p.G.e.takes = [] ∧
     p.G.q.status = .active ∧ q.mode = true ∧ q.freeix ≠ q.putix ∧
     (tget? q.slots (slotIx q q.freeix)).any (fun r => r.phase == phaseBit q q.freeix && !r.free && r.data.length == 64) = true) := by decide +kernel

theorem test_meets_queue_releases :
    (Clear (.qrel .z) s1 (thePass s1) ∧
      ∀ (u : Nat) (n : Nat) (j : Nat) (l : List WinRec) (r : WinRec), u ∈ (thePass s1).L → (j, l) ∈ (queueOf (thePass s1) s1 n).windows → r ∈ l →
        r.bound ≠ some ((thePass s1).b, homeOf (thePass s1).B (thePass s1).g u, u)) ∧
    (Clear (.qrel .z) sBound (thePass sBound) ∧ (thePass sBound).L = [(thePass sBound).low] ∧ (thePass sBound).B.map = [] ∧
      ((sBound.cluster 0).queue 0).en = true ∧ ((sBound.cluster 0).queue 0).owner = (thePass sBound).B.ctx ∧
      ((sBound.cluster 0).queue 0).mode = false ∧ ((sBound.cluster 0).queue 0).windows = [(0, [{ record with bound := some (0, 0, 0) }])]) ∧
    Clear .yieldI s1 (thePass s1) := by
  refine ⟨⟨clear_is (by decide +kernel), ?_⟩, ⟨clear_is (by decide +kernel), by decide +kernel⟩, clear_is (by decide +kernel)⟩
  intro u n j l r _ hl
  have : (queueOf (thePass s1) s1 n).windows = [] := rfl
  rw [this] at hl
  cases hl

/-- s4 and s5 name a continuation whose count is `n`; on both threads 0 and 2, v4 and v5 do. -/
def sCont (n : Nat) : State := let s := one s1; { s with mem := msetN s.mem 0x3000 (leBytes 4 n) }
def sCont2 (n : Nat) : State := let s := vec 4 [(0, 0x3000), (2, 0x3000)] s1; { s with mem := msetN s.mem 0x3000 (leBytes 4 n) }

def contMeets (s : State) (i : Instr) (a : Src) (pub : Option Scope) : Bool :=
  let p := thePass s
  clear i s && s.latent.isEmpty && p.L.all (fun u => decide (contLook p s a u ≠ .wait)) &&
    (List.range p.L.length).all (fun k => decide (contMet i a pub p s k = .ok { loc := 0x3000 }))

theorem test_meets_continuations :
    (∀ n ∈ [0, 1, 2 ^ 32 - 2, 2 ^ 32 - 1], contMeets (sCont n) (.spawn (.s 4)) (.s 4) none = true ∧
      contMeets (sCont n) (.join (.s 4) .dev) (.s 4) (some .dev) = true ∧ leNat (mgetN (sCont n).mem 0x3000 4) = n) ∧
    (∀ n ∈ [1, 2], contMeets (sCont2 n) (.spawn (.v 4)) (.v 4) none = true ∧ contMeets (sCont2 n) (.join (.v 4) .dev) (.v 4) (some .dev) = true ∧
      (thePass (sCont2 n)).L.length = 2) := by decide +kernel

/-- The continuation's record of count 1 names queue 0 of cluster 0. -/
def sJoin (q : Queue) : State :=
  let s := one (withQueue q s1)
  { s with mem := msetN s.mem 0x3000 (leBytes 4 1 ++ [0, 0, 0, 0] ++ List.replicate 56 9) }

theorem test_meets_the_last_join : ∀ q ∈ [mine, { mine with putix := 2 }, { mine with contq := [([], [])] }],
    let s := sJoin q
    let p := thePass s
    let l := mgetN s.mem 0x3000 64
    contMeets s (.join (.s 4) .dev) (.s 4) (some .dev) = true ∧ p.L = [p.low] ∧ leNat (mgetN s.mem 0x3000 4) = 1 ∧
    leNat ((l.drop 4).take 1) % 16 = 0 ∧ leNat ((l.drop 5).take 1) = 0 ∧ (s.cluster 0).queue 0 = q ∧ q.en = true ∧ q.owner = p.B.ctx ∧
    (if q = mine then (q.putix - q.freeix).toNat < queueSlots q ∧ q.contq = [] else queueSlots q ≤ (q.putix - q.freeix).toNat ∨ q.contq ≠ []) := by
  decide +kernel

/-! Faults, the handler, tables, special registers, debugging. -/

/-- A kernel with a handler; inside it; under debug attach. -/
def handled (s : State) : State := blk (fun x => { x with h := { x.h with traph := 0x200 } }) s
def inHandler (s : State) : State := grp (fun y => { y with handler := some { mask := 5, pcoff := 0x40, rets := [] } }) (handled s)
def attached (s : State) : State := modDbg (blk (fun x => { x with opts := { x.opts with debug := true } }) s) .A (fun d => { d with en := true, ctx := 0 })
/-- Sector 0x2000 is poisoned, a watchpoint covers 0x3000, and granule 0 of scratch has expired. -/
def sFault : State := handled (grp (fun y => { y with d := { y.d with w0 := some { addr := 0x3000, size := 4, onR := true, onW := false } } })
  (blk (fun x => { x with grans := [(0, { cls := 1, start := 0, spanEnd := 0, expiry := 0, written := true, freed := false })] })
    { s1 with poison := [0x2000] }))

/-- One fault of each kind that an instruction can meet first at its path's lowest thread (but COMPARE and REPLAY), with AUX and ADDR. -/
def faults : List (Instr × FKind × Word × BitVec 64) := [
    (.trapRet, .illop, 0xE070E1C1, 0), (.reservedEncoding 0xF0000000, .illop, 0xF0000000, 0), (.dadd false (.v 1) (.v 4) (.v 6) .rn, .illop, 0x66010818, 0),
    (.bar none 15, .kdecl, 15, 0), (.lds (.v 16) (.v 4) 4, .kdecl, 0x2004, 0), (.ldd (.v 16) (.v 4) 4, .align, 0, 0x2000),
    (.ldl (.v 16) (.v 4) 4, .perm, 0, 0x8000000000002000), (.add false (.v 1) (.b 0) .z .i32, .latchLost, 0, 0),
    (.lds (.s 16) (.s 6) 0, .expired, 0, 0x4000000000000040), (.ldw (.v 16) (.v 4) 0, .poison, 0, 0x2000), (.ldw (.s 16) (.s 4) 0, .watch, 0, 0x3000),
    (.bkpt 7, .bkpt, 0, 0), (.trap (.s 4), .trap, 0, 0)]
def faultsOn (s : State) (l : List (Instr × FKind × Word × BitVec 64)) : Bool := l.all (fun c =>
  decide (opcode c.1 ≠ 256) && s.latent.isEmpty && (pass? s).isSome && !(thePass s).judged &&
  decide (condAt (thePass s) c.1 (extraOf c.1 (thePass s) s) (thePass s).low = some (.fault c.2.1 c.2.2.1 c.2.2.2)))

theorem faults_on {s : State} {l : List (Instr × FKind × Word × BitVec 64)} (h : faultsOn s l = true) : ∀ c ∈ l,
    opcode c.1 ≠ 256 ∧ findSel c.1 s = s ∧ pass? s = some (thePass s) ∧ (thePass s).judged = false ∧
    condAt (thePass s) c.1 (extraOf c.1 (thePass s) s) (thePass s).low = some (.fault c.2.1 c.2.2.1 c.2.2.2) := by
  intro c hc
  have := List.all_eq_true.1 h c hc
  simp only [Bool.and_eq_true, decide_eq_true_eq, Bool.not_eq_true', List.isEmpty_iff] at this
  obtain ⟨⟨⟨⟨h1, h2⟩, h3⟩, h4⟩, h5⟩ := this
  exact ⟨h1, find_nothing h2 _, pass_is s h3, h4, h5⟩

/-- The block declares 8 barriers and 8 KiB of scratch. -/
def sFault2 : State := blk (fun x => { x with h := { x.h with barriers := 8, scratch := 0x2000 } }) sFault

theorem test_meets_faults_with_a_handler :
    (∀ c ∈ faults, opcode c.1 ≠ 256 ∧ findSel c.1 sFault2 = sFault2 ∧ pass? sFault2 = some (thePass sFault2) ∧ (thePass sFault2).judged = false ∧
      condAt (thePass sFault2) c.1 (extraOf c.1 (thePass sFault2) sFault2) (thePass sFault2).low = some (.fault c.2.1 c.2.2.1 c.2.2.2)) ∧
    debugOn sFault2 (thePass sFault2).B = false ∧ (thePass sFault2).B.h.traph ≠ 0 ∧ (thePass sFault2).G.handler = none :=
  ⟨faults_on (by decide +kernel), by decide +kernel⟩

theorem test_meets_unhandled_faults :
    (∀ c ∈ ([(.ldd (.v 16) (.v 4) 4, .align, 0, 0x2000), (.trap (.s 4), .trap, 0, 0)] : List (Instr × FKind × Word × BitVec 64)),
      opcode c.1 ≠ 256 ∧ findSel c.1 s1 = s1 ∧ pass? s1 = some (thePass s1) ∧ (thePass s1).judged = false ∧
      condAt (thePass s1) c.1 (extraOf c.1 (thePass s1) s1) (thePass s1).low = some (.fault c.2.1 c.2.2.1 c.2.2.2)) ∧
    debugOn s1 (thePass s1).B = false ∧ (thePass s1).B.h.traph = 0 ∧
    (let s := inHandler s1
     (∀ c ∈ ([(.ldd (.v 16) (.v 4) 4, .align, 0, 0x2000), (.trap (.s 4), .trap, 0, 0)] : List (Instr × FKind × Word × BitVec 64)),
        opcode c.1 ≠ 256 ∧ findSel c.1 s = s ∧ pass? s = some (thePass s) ∧ (thePass s).judged = false ∧
        condAt (thePass s) c.1 (extraOf c.1 (thePass s) s) (thePass s).low = some (.fault c.2.1 c.2.2.1 c.2.2.2)) ∧
      debugOn s (thePass s).B = false ∧ (thePass s).G.handler ≠ none) :=
  ⟨faults_on (by decide +kernel), by decide +kernel, by decide +kernel, faults_on (by decide +kernel), by decide +kernel⟩

theorem test_meets_trap_bkpt_and_reserved :
    let s := handled s1
    let p := thePass s
    pass? s = some p ∧ p.judged = false ∧ fieldCond p (.trap (.s 4)) = none ∧ (∀ u ∈ p.L, latchCond p (.trap (.s 4)) u = none) ∧
    fieldCond p (.bkpt 7) = none ∧ p.P.d.skip ≠ some p.pc ∧ debugOn s p.B = false ∧ p.B.h.traph ≠ 0 ∧ p.G.handler = none :=
  ⟨pass_is _ (by decide +kernel), by decide +kernel⟩

theorem test_meets_breakpoint_under_debug :
    let s := attached s1
    let p := thePass s
    pass? s = some p ∧ p.judged = false ∧ fieldCond p (.bkpt 7) = none ∧ p.P.d.skip ≠ some p.pc ∧ debugOn s p.B = true ∧
    (s.port (ctxPort s p.B.ctx)).dbg.posts.length < 64 := ⟨pass_is _ (by decide +kernel), by decide +kernel⟩

/-- The handler's threads 0 and 2 are on the path; or thread 0 alone is. -/
theorem test_meets_handler_return :
    (Clear .trapNext (inHandler s1) (thePass (inHandler s1)) ∧ Clear .trapRet (inHandler s1) (thePass (inHandler s1)) ∧
      (thePass (inHandler s1)).G.handler = some { mask := 5, pcoff := 0x40, rets := [] } ∧
      (∀ u, u < 32 → (thePass (inHandler s1)).G.liveT u = true → (5#32).getLsbD u = true → u ∈ (thePass (inHandler s1)).L)) ∧
    (Clear .trapNext (inHandler (one s1)) (thePass (inHandler (one s1))) ∧ Clear .trapRet (inHandler (one s1)) (thePass (inHandler (one s1))) ∧
      (thePass (inHandler (one s1))).G.handler = some { mask := 5, pcoff := 0x40, rets := [] } ∧
      2 < 32 ∧ (thePass (inHandler (one s1))).G.liveT 2 = true ∧ (5#32).getLsbD 2 = true ∧ 2 ∉ (thePass (inHandler (one s1))).L) :=
  ⟨⟨clear_is (by decide +kernel), clear_is (by decide +kernel), by decide +kernel⟩,
    ⟨clear_is (by decide +kernel), clear_is (by decide +kernel), by decide +kernel⟩⟩

/-- Thread 2 has waited at its return, and thread 0 comes to its own. -/
def sLastReturn (next : Bool) : State :=
  grp (fun y => { y with handler := some { mask := 5, pcoff := 0x40, rets := [(2, next)] } }) (inHandler (one s1))

theorem test_meets_the_last_handler_return : ∀ b ∈ [true, false], ∀ i ∈ [Instr.trapNext, .trapRet],
    let p := thePass (sLastReturn b)
    clear i (sLastReturn b) = true ∧ p.G.handler = some { mask := 5, pcoff := 0x40, rets := [(2, b)] } ∧
    ∀ u ∈ List.range 32, p.G.liveT u = true → (5#32).getLsbD u = true → u ∈ p.L ∨ u = 2 := by decide +kernel

/-- The kernel has a liveness table and a region table of one entry each; that of the region begins at the group's place. -/
def sTab : State :=
  let s := blk (fun x => { x with h := { x.h with livetab := 0x200, regtab := 0x300, liveN := 1, regN := 1 } }) s1
  { s with mem := msetN s.mem 0x100300 (leBytes 4 64) }

theorem test_meets_tables_and_assay :
    (Clear (.live 0) sTab (thePass sTab) ∧ ∃ l, liveEntry (thePass sTab) sTab 0 = .bytes l) ∧
    (Clear (.region 0) sTab (thePass sTab) ∧ ∃ l, regionEntry (thePass sTab) sTab 0 = .bytes l) ∧
    Clear (.assay (.s 4) .q) s1 (thePass s1) ∧ Clear (.assay (.v 4) .off) s1 (thePass s1) :=
  ⟨⟨clear_is (by decide +kernel), List.replicate 128 0, by decide +kernel⟩,
    ⟨clear_is (by decide +kernel), [64, 0, 0, 0, 0, 0, 0, 0], by decide +kernel⟩, clear_is (by decide +kernel), clear_is (by decide +kernel)⟩

theorem test_meets_special_registers :
    (∀ i ∈ ([0, 4, 8, 9, 0xA, 0xC, 0x100, 0x101, 0x104, 0x105, 0x200, 0x23F, 0x240, 0x280, 0x29F].map (fun n => Instr.rdsr false (.v 1) n)) ++
        [Instr.rdsr true (.s 1) 0, .wrsr (.s 4) 9, .wrsr .phx 0x105, .wrsr .z 0x201], Clear i s1 (thePass s1)) ∧
    srHigh (0x201#16).toNat = true ∧ ownsQueue s1 (clusterOf (thePass s1).B.core) (thePass s1).B.ctx = false ∧
    (Clear (.wrsr (.s 4) 0x105) sQueue (thePass sQueue) ∧ ownsQueue sQueue (clusterOf (thePass sQueue).B.core) (thePass sQueue).B.ctx = true) :=
  ⟨clears_all (by decide +kernel), by decide +kernel, by decide +kernel, clear_is (by decide +kernel), by decide +kernel⟩

/-- A high word is staged; bank 0 belongs to the context, or drains for it. -/
def staged (n : Nat) (h : Word) (s : State) : State := grp (fun y => { y with r := { y.r with wlatch := some (n, h) } }) s
def withBank (b : Bank) (s : State) : State := modCluster s 0 (fun c => { c with banks := [(0, b)] })
def fifo (d : Bool) : Bank := { Bank.reset with mode := 2, owner := 0, drain := d, nextMode := 2, nextOwner := 0 }

theorem test_meets_cluster_registers :
    (∀ s ∈ [s1, sQueue], clear (.wrsr (.s 4) 0x240) s = true) ∧ ownsQueue s1 0 0 = false ∧ ownsQueue sQueue 0 0 = true ∧
    (∀ s ∈ [s1, staged 0x280 0x40000000 s1, staged 0x280 0xC0000000 s1, withBank (fifo true) s1],
      clear (.wrsr (.s 4) (BitVec.ofNat 16 (0x280 + 2 * (0 : Fin 16).val))) s = true) ∧
    (∀ s ∈ [withBank (fifo false) s1, withBank (fifo true) s1, s1, withBank (fifo false) sQueue],
      let s := staged 0x200 0x80000000 (grp (fun y => { y with q := { y.q with status := .active } }) s)
      clear (.wrsr (.s 4) (BitVec.ofNat 16 (0x200 + 2 * (0 : Fin 16).val))) s = true ∧ (thePass s).G.q.status = .active) ∧
    (let z := ((withBank (fifo true) s1).cluster 0).bank 0
     ((s1.cluster 0).queue 0).en = false ∧ z.drain = true ∧ z.nextMode = 2 ∧ z.nextOwner = (thePass s1).B.ctx) := by decide +kernel

def sSkip : State := grp (fun y => { y with d := { y.d with skip := some 64 } }) s1
/-- s8 asks for 16 bytes in slot 0, s9 clears slot 1, s6 and s7 name 0x40. -/
def sWatch : State := sca [(6, 0x40), (8, 8), (9, 1)] s1

theorem test_meets_debug_sleep_and_class :
    (∀ i ∈ [Instr.dbgm (.s 4) .post, .dbgm .z .halt, .sleep .z, .sleep (.s 4), .clas .q, .clas .l], Clear i s1 (thePass s1)) ∧
    debugOn s1 (thePass s1).B = false ∧ srcWord (thePass s1) (thePass s1).low .z 0 0 = 0 ∧ srcWord (thePass s1) (thePass s1).low (.s 4) 0 0 ≠ 0 ∧
    (∀ i ∈ [Instr.dbgm (.s 4) .post, .dbgm .z .halt], Clear i (attached s1) (thePass (attached s1))) ∧
    debugOn (attached s1) (thePass (attached s1)).B = true ∧
    ((attached s1).port (ctxPort (attached s1) (thePass (attached s1)).B.ctx)).dbg.posts.length < 64 ∧
    (∀ i ∈ [Instr.watch (.s 6) (.s 8) .r, .watch (.s 6) (.s 8) .w, .watch (.s 6) (.s 8) .rw, .watch .z (.s 9) .clr], Clear i sWatch (thePass sWatch)) ∧
    Clear (.bkpt 7) sSkip (thePass sSkip) :=
  ⟨clears_all (by decide +kernel), by decide +kernel, by decide +kernel, by decide +kernel, clears_all (by decide +kernel), by decide +kernel,
    by decide +kernel, clears_all (by decide +kernel), clear_is (by decide +kernel)⟩

/-! The host's requests and the device's own steps. -/

/-- Bring-up has failed; and an event answers. -/
def sFailed : State := { State.reset with boot := { State.reset.boot with failed := true } }

/-- A GETCLU of port A waits at the mailbox. -/
def sMail : State := { s1 with sh := { s1.sh with mail := [(.A, 0x100010011)] } }

/-- Up, or failed; a length beyond 4,096, and a port that is not the manager; room for a context; nothing waits, or a command does. -/
theorem test_meets_mailbox :
    s1.up = true ∧ (sFailed.up = false ∧ sFailed.boot.failed = true) ∧ 4096 < (4097#13).toNat ∧ s1.sh.mgr ≠ .B ∧ s1.ctxs.length < 4096 ∧
    (∀ s ∈ [s1, sFailed], s.sh.mail = []) ∧ (∃ c ∈ sMail.sh.mail, c.1 = .A) ∧ sMail.sh.mail = (.A, 0x100010011) :: [] ∧
    (0x100010011#64 &&& 0xE000FF00 = 0 ∧ (0x100010011#64).toNat % 256 = 0x11) ∧ (0x1000100FF#64).toNat % 256 = 0xFF ∧
    ((sMail.port .A).reg.urlen ≤ 4096 ∧ (sMail.port .A).reg.ustatus < 2 ^ 8) := by decide +kernel

theorem test_meets_manager_registers :
    (s1.up = true ∧ s1.sh.mgr ≠ .B) ∧ (s1.up = true ∧ s1.sh.mgr = .A) ∧ (∃ c ∈ s1.ctxs, c.2.tenant = (0 : Fin 16).val) ∧
    (¬∃ c ∈ s1.ctxs, c.2.tenant = (1 : Fin 16).val) := by decide +kernel

/-- Both trap rings are enabled. -/
def rings (s : State) : State := modTrap (modTrap s .A (fun r => { r with en := true })) .B (fun r => { r with en := true })

theorem test_meets_power :
    (State.reset.boot.done = false ∧ State.reset.boot.failed = false) ∧
    (sMem.up = true ∧ (sMem.reg (0 : Fin 4).val).on = true ∧ sMem.sh.railsOff = false ∧ (sMem.cluster 0).rail = 0 ∧
      (sMem.blk? 0).any (fun y => y.life == .resident) = true ∧ (∃ b ∈ (sMem.cluster 0).banks, b.2.mode ≠ 0 ∧ (sMem.ctx? b.2.owner).isSome = true)) ∧
    ((rings s1).sh.railsOff = false ∧ ∀ hp ∈ [HPort.A, .B], ((rings s1).port hp).trap.en = true ∧ ((rings s1).port hp).trap.held = [] ∧
      ringUsed ((rings s1).port hp).trap < ringSize ((rings s1).port hp).trap) := by decide +kernel

/-- An error lies at 0x2000; another in the first layer bank. -/
def sLatent : State := { s1 with latent := [0x2000, layLoc 0 0] }
/-- Core 0 has used `n` of its spare lanes; it has been quarantined for 200 us. -/
def sSpares (n : Nat) : State := modCore s1 0 (fun k => { k with spares := (List.range n).map (fun j => (j, 64 + j)) })
def sQuar : State := modCore { s1 with now := usTicks 200 } 0 (fun k => { k with quar := true })

/-- An assay job of core 0, whose tenant may use every cluster. -/
def job (r : Option (Nat × List Byte)) (d : Bool) : AJob :=
  { core := 0, tenant := 0, blkIdx := 0, grp := 0, phx := 0, ctx := 0, hdr := loadHdr, h := loadHeader, record := [], journal := [], imm := [], digest := [1],
    truth := [1], endAt := 0, replay := r, differs := d }
def withJob (j : AJob) (s : State) : State := { s with jobs := [(0, j)], sh := { s.sh with cluset := [(0, BitVec.allOnes 96)] } }
def later (n : Nat) (s : State) : State := { s with now := n }

theorem test_meets_reliability :
    (16 * 0x201 ∉ sLatent.latent ∧ 16 * 0x200 ∈ sLatent.latent) ∧
    (refreshes sLatent (4096 * 2) = false ∧ refreshes sLatent (4096 * (layLoc 0 0 / 4096)) = true ∧
      4096 * (layLoc 0 0 / 4096) + 16 * 0 ∈ sLatent.latent) ∧
    (s1.blk? 0).any (fun x => x.life == .resident) = true ∧
    (∀ n ∈ [0, 3, 4], 0 < 768 ∧ ((sSpares n).core (holder (sSpares n) 0)).enabled = true ∧ sparesUsed ((sSpares n).core (holder (sSpares n) 0)) = n) ∧
    ((sQuar.core 0).quar = true ∧ (sQuar.core 0).quarAt + usTicks 200 ≤ sQuar.now ∧ (∃ c ∈ residents sQuar, c.2.core = 0 ∧ c.2.preempt = false) ∧
      (sQuar.ctx? 0).isSome = true ∧ ∀ z ∈ residents sQuar, z.2.ctx = 0 → z.2.preempt = false) := by decide +kernel

/-- Its matrix unit has been stopped for 100 us. -/
def sStuck : State :=
  { grp (fun y => { y with e := { y.e with mma := some { flying with stuck := some 0 } } }) sGang with now := usTicks 100 }

theorem test_meets_matrix_unit_reset :
    ∃ b x, ∃ g : Nat, ∃ y : Group, ∃ f since, sStuck.blk? b = some x ∧ x.life = .resident ∧ x.core = 0 ∧ x.groups[g]? = some y ∧ y.e.mma = some f ∧
      partOf y.q.lane = (0 : Fin 4).val ∧ f.stuck = some since ∧ since + usTicks 100 ≤ sStuck.etm 0 :=
  ⟨0, (thePass sStuck).B, 0, (thePass sStuck).G, { flying with stuck := some 0 }, 0, by decide +kernel⟩

theorem test_meets_assay_jobs :
    (let s := withJob (job none false) s1
     tget? s.jobs 0 = some (job none false) ∧ s.now < (job none false).endAt + msTicks 50 ∧ assayCores s 0 [clusterOf 0] ≠ []) ∧
    (∀ d ∈ [[1], [2]], let j := job (some (8, d)) false
     tget? (withJob j s1).jobs 0 = some j ∧ (withJob j s1).now < j.endAt + msTicks 50 ∧ j.replay = some (8, d) ∧ j.differs = false) ∧
    (let j := job (some (8, [2])) true
     tget? (withJob j s1).jobs 0 = some j ∧ (withJob j s1).now < j.endAt + msTicks 50 ∧ j.differs = true ∧ clusterOf 8 ≠ clusterOf j.core ∧
     assayCores (withJob j s1) j.tenant [clusterOf j.core, clusterOf 8] ≠ []) ∧
    (∀ j ∈ [job none false, job (some (8, [1])) false, job (some (8, [2])) true],
      tget? (later (msTicks 50) (withJob j s1)).jobs 0 = some j ∧ j.endAt + msTicks 50 ≤ (later (msTicks 50) (withJob j s1)).now) := by
  decide +kernel

/-! Links. This device is number 5; port 0 and port 1 are up, and device 9 lies behind port 1. -/

def up1 : Link := { Link.reset with en := true, up := true }
def onLink (l : Link) (s : State) : State :=
  { s with links := [(0, l), (1, up1)], sh := { s.sh with devid := 5, rtab := [(0, 0xFFFFFFFF), (1, 0xFFFFFF1F)] } }
def sLink : State := onLink up1 s1
/-- Flits by type, hops, SEQ, ACK and destination. -/
def flit (ty hops seq ack dst : Nat) : List Byte :=
  sealFlit ([BitVec.ofNat 8 ty, BitVec.ofNat 8 hops] ++ leBytes 2 seq ++ leBytes 2 ack ++ [0x41, 0] ++ leBytes 2 dst)

/-- A sealed flit has a valid CRC (R46). -/
theorem sealed_valid (l : List Byte) : flitValid (sealFlit l) = true := by
  have hl : ((l ++ List.replicate 248 0).take 248).length = 248 := by
    rw [List.length_take, List.length_append, List.length_replicate]; omega
  have h1 : sealFlit l = (l ++ List.replicate 248 0).take 248 ++ leBytes 8 (crc64 ((l ++ List.replicate 248 0).take 248)).toNat := rfl
  rw [h1]
  generalize (l ++ List.replicate 248 0).take 248 = h at hl
  have h2 : (crc64 h).toNat % 2 ^ (8 * 8) = (crc64 h).toNat := Nat.mod_eq_of_lt (crc64 h).isLt
  have h3 : (leBytes 8 (crc64 h).toNat).take 8 = leBytes 8 (crc64 h).toNat := List.take_of_length_le (Nat.le_of_eq (Laws.leBytes_length 8 _))
  unfold flitValid fieldN
  rw [List.take_left' hl, List.drop_left' hl, List.length_append, hl, Laws.leBytes_length, h3, Laws.leNat_leBytes, h2]
  simp

theorem test_crc_of_the_check_string :
    crc64 [0x31, 0x32, 0x33, 0x34, 0x35, 0x36, 0x37, 0x38, 0x39] = 0x62EC59E3F1A4F00A := by decide +kernel

theorem flit_valid (ty hops seq ack dst : Nat) : flitValid (flit ty hops seq ack dst) = true := sealed_valid _

/-- Delivered, out of order, malformed; forwarded, spent, without a route; Idle; NAK; and a bad CRC. -/
theorem test_meets_flit_receipt :
    ((sLink.link 0).up = true ∧ (sLink.link 0).training = false ∧ sLink.sh.devid ≠ 0xFFF) ∧ flitValid [1, 2, 3] = false ∧
    (let f := flit 1 3 0 0 5
     flitValid f = true ∧ flitType f ≠ 0 ∧ flitType f ≠ 7 ∧ flitSeq f = (sLink.link 0).rxSeq + 1 ∧ flitOk f = true ∧ flitDst f = sLink.sh.devid.toNat) ∧
    (let f := flit 1 3 1 0 5
     flitValid f = true ∧ flitType f ≠ 0 ∧ flitType f ≠ 7 ∧ flitSeq f ≠ (sLink.link 0).rxSeq + 1) ∧
    (let f := flit 9 3 0 0 5
     flitValid f = true ∧ flitSeq f = (sLink.link 0).rxSeq + 1 ∧ flitOk f = false) ∧
    (∀ c ∈ [(9, 3), (9, 0), (7, 3)], flitValid (flit 2 c.2 0 0 c.1) = true) ∧
    (∀ c ∈ [(9, 3), (9, 0), (7, 3)], let f := flit 2 c.2 0 0 c.1
     flitSeq f = (sLink.link 0).rxSeq + 1 ∧ flitOk f = true ∧ flitDst f ≠ sLink.sh.devid.toNat ∧ flitHops f = c.2 ∧
     (tget sLink.sh.rtab (flitDst f / 8) 0xFFFFFFFF).toNat / 2 ^ (4 * (flitDst f % 8)) % 16 = if c.1 = 9 then 1 else 15) ∧
    (sLink.link 1).up = true ∧
    (flitValid (flit 0 0 0 0xFFFF 0) = true ∧ flitOk (flit 0 0 0 0xFFFF 0) = true ∧ flitType (flit 0 0 0 0xFFFF 0) = 0 ∧
      flitSeq (flit 0 0 0 0xFFFF 0) = (sLink.link 0).rxSeq + 1) ∧
    (∀ ty ∈ [0, 7], flitValid (flit ty 0 1 0xFFFF 0) = true) ∧
    (∀ ty ∈ [0, 7], flitType (flit ty 0 1 0xFFFF 0) = ty ∧ flitSeq (flit ty 0 1 0xFFFF 0) ≠ (sLink.link 0).rxSeq + 1) ∧
    (let f := flit 7 0 0 0xFFFF 0
     flitValid f = true ∧ flitOk f = true ∧ flitType f = 7 ∧ flitSeq f = (sLink.link 0).rxSeq + 1 ∧ flitAck f = (sLink.link 0).ackd ∧ (sLink.link 0).noProg < 8) ∧
    (let l := { up1 with replay := [flit 1 3 0 0 9] }
     l.replay[0]? = some (flit 1 3 0 0 9) ∧ (flit 1 3 0 0 9).length = 256) :=
  ⟨by decide +kernel, by decide +kernel, ⟨flit_valid .., by decide +kernel⟩, ⟨flit_valid .., by decide +kernel⟩, ⟨flit_valid .., by decide +kernel⟩,
    fun _ _ => flit_valid .., by decide +kernel, by decide +kernel, ⟨flit_valid .., by decide +kernel⟩, fun _ _ => flit_valid .., by decide +kernel,
    ⟨flit_valid .., by decide +kernel⟩, ⟨rfl, by decide +kernel⟩⟩

def sSend : State := onLink { up1 with sendq := [(none, flit 1 3 0 0 9)], credits := [(0, 1)] } s1
def sStall : State := later (msTicks 1) (onLink { up1 with sendq := [(some 1, flit 1 3 0 0 9)], starve := [(0, 0)] } s1)
def sStarved : State := later 5 sStall
def sOwed : State := onLink { up1 with owed := [(0, 1)] } s1

theorem test_meets_flit_sending :
    ((sSend.link 0).sendq = (none, flit 1 3 0 0 9) :: [] ∧ (sSend.link 0).up = true ∧ (sSend.link 0).training = false ∧ (sSend.link 0).replay.length < 512 ∧
      (flit 1 3 0 0 9).length = 256 ∧ flitVc (flitType (flit 1 3 0 0 9)) = some 0 ∧
      0 < tget (sSend.link 0).credits 0 0 ∧ sSend.sh.devid ≠ 0xFFF) ∧
    ((sOwed.link 0).up = true ∧ (sOwed.link 0).training = false ∧ (sOwed.link 0).sendq = [] ∧ ∃ c ∈ (sOwed.link 0).owed, 0 < c.2) ∧
    (let q := (tget sLink.sh.rtab (9 / 8) 0xFFFFFFFF).toNat / 2 ^ (4 * (9 % 8)) % 16
     5 < 8 ∧ 9 < 4096 ∧ ([1, 2] : List Byte).length ≤ 232 ∧ q < 12 ∧ (sLink.link q).up = true) :=
  ⟨⟨rfl, by decide +kernel⟩, by decide +kernel, by decide +kernel⟩

theorem test_meets_port_events :
    (∀ n ∈ [0, 7, 8], ∀ now ∈ [0, usTicks 1], let s := later now (onLink { up1 with replay := [[1]], noProg := n } s1)
      (s.link 0).up = true ∧ (s.link 0).training = false ∧ (s.link 0).replay ≠ [] ∧ (s.link 0).noProg = n ∧
      if now = 0 then s.now < (s.link 0).ackAt + usTicks 1 else (s.link 0).ackAt + usTicks 1 ≤ s.now) ∧
    (∀ n ∈ [0, 1, 2], ∀ now ∈ [0, usTicks 100], let s := later now (onLink { up1 with training := true, retrains := n } s1)
      (s.link 0).up = true ∧ (s.link 0).training = true ∧ (s.link 0).retrains = n ∧
      if now = 0 then s.now < (s.link 0).trainAt + usTicks 100 else (s.link 0).trainAt + usTicks 100 ≤ s.now) ∧
    ((sStall.link 0).up = true ∧ tget? (sStall.link 0).starve (0 : Fin 4).val = some 0 ∧ 0 + msTicks 1 ≤ sStall.now) ∧
    ((sStarved.link 0).up = true ∧ tget? (sStarved.link 0).starve (0 : Fin 4).val = some 0 ∧ sStarved.now < 0 + msTicks 1) ∧
    (s1.up = true ∧ s1.sh.mgr = .A ∧ (s1.link 0).en = false) ∧
    (∀ u ∈ [true, false], ((onLink { up1 with training := true, up := u } s1).link 0).training = true) := by decide +kernel

/-! Collectives: communicator 1 holds this device and device 9; s20 to s25 describe an all-reduce of one word from 0x2000 to 0x3000. -/

/-- The state after an instruction. -/
def ran (i : Instr) (s : State) : State := match exec i s with | .next t => t | _ => s

def sComm : State :=
  { (sca [(20, 0x2000), (22, 0x3000), (24, 1), (25, 0x1000000)] sAll) with
    comms := [(1, { ids := [5, 9], seq := 7, heard := [] })], sh := { s1.sh with devid := 5 } }
def sColl : State := ran (.coll (.s 16) (.s 20) .ar) sComm
def noColl : Coll :=
  { comm := 0, seq := 0, blk := 0, grp := 0, uid := 0, op := .ar, root := 0, red := 0, fmt := 0, n := 0, src := 0, dst := 0, bad := true,
    susp := none, since := 0, told := false, fin := none }
def theColl : Coll := tget sColl.colls 0 noColl
def collGrp : Group := (sColl.grp? 0 0).getD (thePass s1).G
def collBlk : Block := (sColl.blk? 0).getD (thePass s1).B
def noOp : EngOp :=
  { i := .nop, desc := [], dst := none, sect := 0, pos := 0, poisoned := false, data := [], cid := 0, susp := none, bad := false, fin := none,
    jat := none, part := 0 }
def collOp : EngOp := collGrp.e.ops.headD noOp

theorem coll_of (n : Nat) : CollOf (later n sColl) 0 theColl collBlk collGrp collOp :=
  ⟨show tget? sColl.colls 0 = some theColl by decide +kernel, show sColl.blk? 0 = some collBlk by decide +kernel,
    by decide +kernel, by decide +kernel, by decide +kernel, by decide +kernel, by decide +kernel,
    show ∀ q ∈ collGrp.e.ops, isColl q = true → q.cid ≠ 0 → ∀ d, tget? sColl.colls q.cid = some d → d.fin = none from
      fun q hq _ hn => absurd (of_decide_eq_true (List.all_eq_true.1 (by decide +kernel : collGrp.e.ops.all (fun q => decide (q.cid = 0)) = true) q hq)) hn,
    fun r => by have h : collOp.dst = some (.s 16) := by decide +kernel
                simp [h], by decide +kernel⟩

/-- A second collective of the group, which the first one keeps waiting. -/
def sBehind : State := ran (.coll (.s 17) (.s 20) .ar) (picked 0xFFFFFFFF (grp (fun y => { y with thr := y.thr.map (fun z => { z with pc := 64 }) }) sColl))

theorem test_meets_collective_behind_another :
    (tget? sBehind.colls 1).any (fun c => decide (c.fin = none) && (sBehind.grp? c.blk c.grp).any (fun y => decide (y.uid = c.uid) &&
      (y.e.ops.find? isColl).any (fun q => decide (q.cid ≠ 1)))) = true := by decide +kernel

theorem test_meets_collective_start_with_a_communicator :
    Clear (.coll (.s 16) (.s 20) .ar) sComm (thePass sComm) ∧ tget? sComm.comms 1 = some { ids := [5, 9], seq := 7, heard := [] } ∧
    (srcWord (thePass sComm) (thePass sComm).low (.s 20) 5 0).toNat / 2 ^ 24 = 1 := ⟨clear_is (by decide +kernel), by decide +kernel⟩

theorem test_meets_collective_completion :
    CollOf sColl 0 theColl collBlk collGrp collOp ∧ theColl.bad = false ∧ theColl.susp = none ∧ collBlk.life = .resident ∧
    ∃ k p xs, sColl.ctx? collBlk.ctx = some k ∧ engPass sColl theColl.blk theColl.grp = some p ∧
      (let i := collRank sColl theColl
       let n := collSize theColl.fmt * theColl.n
       let own := engRun sColl p .dev theColl.src.toNat n n []
       own.1 = .ok [] false ∧ contributions theColl (collIds sColl theColl).length i own.2.1 [[1, 0, 0, 0]] [[]] = some xs ∧
       collCheck own.2.2 k theColl (collResult theColl (collIds sColl theColl).length i xs).length = .ok) := by
  refine ⟨coll_of sColl.now, by decide +kernel, by decide +kernel, by decide +kernel, loadCtx,
    { b := 0, g := 0, B := collBlk, G := unwatched collGrp, P := engEyes collGrp, L := [], mask := 0, upper := false, judged := true, cut := false },
    [[(0, false), (0, false), (0, false), (0, false)], [(1, false), (0, false), (0, false), (0, false)]], by decide +kernel, ?_, by decide +kernel⟩
  have h1 : sColl.blk? 0 = some collBlk := by decide +kernel
  have h2 : collBlk.groups[0]? = some collGrp := by decide +kernel
  have h3 : theColl.blk = 0 := by decide +kernel
  have h4 : theColl.grp = 0 := by decide +kernel
  simp only [engPass, h1, h2, h3, h4]

theorem test_meets_collective_abort_and_timeout :
    CollOf (later 0 sColl) 0 theColl collBlk collGrp collOp ∧ (∀ c ∈ [1, 5], 1 ≤ (BitVec.ofNat 4 c).toNat ∧ (BitVec.ofNat 4 c).toNat ≤ 5) ∧
    ((0#4).toNat = 0 ∧ 5 < (6#4).toNat) ∧
    (CollOf (later (msTicks 50) sColl) 0 theColl collBlk collGrp collOp ∧ theColl.since + msTicks 50 ≤ (later (msTicks 50) sColl).now) ∧
    (tget? sColl.colls 0 = some theColl ∧ sColl.now < theColl.since + msTicks 50) :=
  ⟨coll_of 0, by decide +kernel, by decide +kernel, ⟨coll_of _, by decide +kernel⟩, by decide +kernel⟩

/-! The host's windows. -/

def sTrapped : State := modTrap s1 .A (fun r => { r with open1 := [(0, 0, 0)], wix := 1 })

theorem test_meets_bar_a :
    s1.up = true ∧ ((3 ≠ 4 ∧ 3 ≠ 8) ∨ (0 : BitVec 26).toNat % 3 ≠ 0) ∧ (2 : BitVec 26).toNat % 4 ≠ 0 ∧
    ((4 : BitVec 26).toNat % 4 = 0 ∧ regAt 0xFF00 = none) ∧
    (regAt 0x40 = some .subseq ∧ BReg.wide .subseq = false) ∧
    (regAt 0x48 = some .crbase ∧ BReg.wide .crbase = true ∧ regAt (0x48 + 4) = some .crbase) ∧
    (regAt 0 = some .trigger ∧ BReg.action .trigger = true) ∧
    ((s1.port .A).trap.open1 = []) ∧
    ((sTrapped.port .A).trap.open1 = [(0, 0, 0)] ∧ (1 : Word) ≠ 0 ∧ ((1 : Word) - 0).toNat < 2 ^ 31 ∧
      (sTrapped.blk? 0).any (fun x => (sTrapped.ctx? x.ctx).isSome) = true) ∧
    (regAt 0x5FFFF0 = none ∧ s1.sh.mgr = .A) := by decide +kernel

/-- BAR C of port A begins where no memory is; and the sector at 0x2000 is poisoned. -/
def sUnbacked : State := modHost s1 .A (fun h => { h with apbase0 := 3072 })
def sPoisoned : State := { s1 with poison := [0x2000] }

theorem test_meets_bar_b_and_bar_c :
    s1.up = true ∧ s1.latent = [] ∧ s1.hist = [] ∧ (0x3FFFFC : BitVec 22).toNat + 4 ≤ 2 ^ 22 ∧
    (∀ c ∈ [((0x3FFFFFFF8 : BitVec 42), 8, true), (0x3FFFFFFFC, 8, false), (0x400000000, 1, false)],
      decide (c.1.toNat + c.2.1 ≤ 2 ^ (30 + (s1.port .A).reg.barC0)) = c.2.2) ∧
    (sUnbacked.up = true ∧ sUnbacked.latent = [] ∧ (sUnbacked.port .A).reg.barC0 = 4 ∧
      0x30000000000 ≤ (sUnbacked.port .A).reg.apbase0.toNat * 2 ^ 30 + (0 : BitVec 42).toNat) ∧
    (let pa := (s1.port .A).reg.apbase0.toNat * 2 ^ 30 + (0x2000 : BitVec 42).toNat
     pa % 8 = 0 ∧ pa < 0x30000000000 ∧ poisoned s1 pa 8 = false ∧ sPoisoned.latent = [] ∧ poisoned sPoisoned pa 8 = true ∧ (pa + 4) % 8 ≠ 0) := by
  decide +kernel

/-! Submissions. The window of port A holds a graph of one node at 0 and nothing at 0x1000. -/

def node (k b : BitVec 64) : GNode := { khdr := k, pred := 0, blocks := b, opts := loadOpts, args := List.replicate 16 0 }
def graph1 : Graph := { ctx := 0, nodes := [node loadHdr 0] }
/-- A header of a kernel with one group (R100). -/
def headerBytes : List Byte := leBytes 4 0x04100010 ++ leBytes 4 0x00000101 ++ leBytes 4 0x1000 ++ leBytes 4 0 ++ leBytes 4 64 ++ List.replicate 44 0
def sLoad : State :=
  { s1 with mem := msetN (msetN (msetN (msetN s1.mem (winLoc 0) (leBytes 4 1 ++ leBytes 4 1)) (winLoc 64) (leBytes 8 loadHdr.toNat)) 0x100000 headerBytes)
              0x100000 headerBytes
            sh := { s1.sh with tenants := [(0, 0x80000000)], cluset := [(0, BitVec.allOnes 96)] } }
def hasGraph (s : State) : State := modSub s .A (fun q => { q with graphs := [(3, graph1)], open1 := [0] })
def inst1 (p : List (Nat × Word)) (st : Bool) (ns : List GNode) : Inst :=
  { port := .A, ctx := 0, sseq := 0, graph := 3, order := true, nodes := ns, patch := p, seq := 0, started := st, disp := ns.map (fun _ => false),
    ret := ns.map (fun _ => false), status := 0, clocks := [], prev := none, prevClock := [] }
def withInst (i : Inst) (s : State) : State := { (hasGraph s) with insts := [(0, i)] }
def sKilled : State := { sLoad with ctxs := sLoad.ctxs.map (fun c => (c.1, { c.2 with killed := true })) }
def sUnbound : State := { sLoad with sh := { sLoad.sh with tenants := [] } }

theorem test_meets_submissions :
    (sLoad.up = true ∧ (sLoad.port .A).sub.subseq ≠ 1) ∧ (sLoad.up = true ∧ (sLoad.port .A).sub.subseq = 0) ∧
    (∃ c ∈ (withInst (inst1 [] false graph1.nodes) sLoad).insts, c.2.port = .A ∧ c.2.graph = 3) ∧
    (∀ c ∈ sLoad.insts, ¬(c.2.port = .A ∧ c.2.graph = 3)) ∧
    tget? (sLoad.port .A).sub.graphs 3 = none ∧ tget? ((hasGraph sLoad).port .A).sub.graphs 3 = some graph1 ∧
    parseGraph sLoad .A (16 * 0x100) = none ∧ parseGraph sLoad .A (16 * 0) = some graph1 ∧
    (sKilled.ctx? graph1.ctx).any (·.killed) = true ∧
    (sLoad.ctx? graph1.ctx).any (fun c => !c.killed && c.port == .A) = true ∧
    (∃ n ∈ graph1.nodes, tenantBound sUnbound .A n.opts.tenant = false) ∧ (∀ n ∈ graph1.nodes, tenantBound sLoad .A n.opts.tenant = true) ∧
    (sLoad.insts.filter (fun c => c.2.port == .A)).length < 65536 ∧ State.reset.up = false := by decide +kernel

/-- A patch list of one entry at 0x1000 of the window: a good one, one beyond the graph, one with a reserved bit; and 1025 entries. -/
def sPatch (n : Nat) (e : BitVec 64) : State :=
  { sLoad with mem := msetN sLoad.mem (winLoc 0x1000) (leBytes 4 n ++ List.replicate 12 0 ++ leBytes 8 e.toNat) }
def patchBad (s : State) : Bool :=
  let l := winLoc (halfOff .A (16 * (0x100 : BitVec 18).toNat))
  let n := leNat (mgetN s.mem l 4)
  let ent (k : Nat) : Nat := leNat (mgetN s.mem (l + 16 + 8 * k) 8)
  1024 < n || leNat (mgetN s.mem (l + 4) 12) != 0 || 2 ^ 22 < 16 * (0x100 : BitVec 18).toNat + 16 + 8 * n ||
    (List.range n).any (fun k => ent k / 2 ^ 16 % 2 ^ 16 != 0 || 16 * graph1.nodes.length ≤ ent k % 2 ^ 16)

/-- Port A has as many instances as it can hold. -/
def sFullPort : State := { (hasGraph sLoad) with insts := List.replicate 65536 (0, inst1 [] false []) }

theorem test_meets_launches :
    (∀ c ∈ [(1, 0x0000000700000005#64, false), (1, 0x10#64, true), (1, 0x10000#64, true), (1025, 0#64, true)], patchBad (sPatch c.1 c.2.1) = c.2.2) ∧
    ((hasGraph sKilled).up = true ∧ tget? ((hasGraph sKilled).port .A).sub.graphs 3 = some graph1 ∧ (sKilled.ctx? graph1.ctx).any (·.killed) = true) ∧
    ((hasGraph sLoad).ctx? graph1.ctx).any (fun c => !c.killed) = true ∧
    (sFullPort.up = true ∧ tget? (sFullPort.port .A).sub.graphs 3 = some graph1 ∧ (sFullPort.ctx? graph1.ctx).any (fun c => !c.killed) = true) ∧
    65536 ≤ (sFullPort.insts.filter (fun c => c.2.port == .A)).length := by
  refine ⟨by decide +kernel, by decide +kernel, by decide +kernel, by decide +kernel, Nat.le_of_eq ?_⟩
  rw [show sFullPort.insts = List.replicate 65536 (0, inst1 [] false []) from rfl,
    List.filter_eq_self.2 (fun c hc => by rw [List.eq_of_mem_replicate hc]; rfl), List.length_replicate]

/-- No patch; a patched argument. -/
theorem test_meets_instance_start : ∀ p ∈ [[], [(5, (7 : Word))]],
    let i := inst1 p false graph1.nodes
    let s := withInst i sLoad
    instStartable s 0 = true ∧ tget? s.insts 0 = some i ∧ tget? (s.port i.port).sub.graphs i.graph = some graph1 ∧ instStartable s 1 = false := by
  decide +kernel

/-- A node whose kernel has a header, and one whose has none. -/
theorem test_meets_node_dispatch : ∀ c ∈ [(node loadHdr 1, true), (node 0x200000 1, false)],
    let i := inst1 [] true [c.1]
    let s := withInst i sLoad
    tget? s.insts 0 = some i ∧ nodeReady s i 0 = true ∧ i.nodes[0]? = some c.1 ∧ s.ctx? i.ctx = some loadCtx ∧ s.latent = [] ∧
    (readHeader s loadCtx c.1.khdr).isSome = c.2 ∧ c.1.blocks.getLsbD 63 = false ∧ (∀ d ∈ i.disp, d = false) := by decide +kernel

/-- A node whose block count lies in memory: 5, 0, poisoned, and in a page that is not present. -/
def sCount (n : Nat) (po : List Nat) : State := { sLoad with mem := msetN sLoad.mem 0x4000 (leBytes 4 n), poison := po }
def counted (va : BitVec 64) : GNode := node loadHdr (0x8000000000000000 ||| va)
/-- Whether the count has a place: whether it is poisoned, and whether it is zero. -/
def countAt (s : State) (va : BitVec 64) : Option (Bool × Bool) :=
  match access s loadCtx .read va with
  | .ok pa _ => some (poisoned s pa 4, leNat ((locs pa 4).map (publishedByte s)) == 0)
  | _ => none

theorem test_meets_counted_dispatch : ∀ c ∈ [(sCount 5 [], (0x4000 : BitVec 64), some (false, false)), (sCount 0 [], 0x4000, some (false, true)),
      (sCount 5 [0x4000], 0x4000, some (true, false)), (sLoad, 0x40000000, none)],
    let i := inst1 [] true [counted c.2.1]
    let s := withInst i c.1
    tget? s.insts 0 = some i ∧ nodeReady s i 0 = true ∧ i.nodes[0]? = some (counted c.2.1) ∧ s.ctx? i.ctx = some loadCtx ∧ s.latent = [] ∧
    (readHeader s loadCtx (counted c.2.1).khdr).isSome = true ∧ (counted c.2.1).blocks.getLsbD 63 = true ∧
    nodeReady s { i with started := false } 0 = false ∧ (counted c.2.1).countVa = c.2.1 ∧ countAt s c.2.1 = c.2.2 := by decide +kernel

/-- Flush commands of 32 bytes. -/
def flush1 (d : Nat) (da : BitVec 64) (n : Nat) (ctx : Word) : Flush :=
  { sseq := 0, ctx := ctx, daddr := da, haddr := 0x1000, dir := d, len := n, order := true, stamp := 0 }
def withFlush (f : Flush) (s : State) : State := modSub s .A (fun q => { q with flushes := [f], open1 := [0] })
def flushBad (f : Flush) : Bool := f.daddr.toNat % 16 != 0 || f.haddr.toNat % 16 != 0 || f.len % 16 != 0 || !canonical f.daddr || 2 ≤ f.dir
/-- The first GiB may not be written, and the second is not present. -/
def sReadOnly : State := { s1 with mem := msetN s1.mem 0x800000 (leBytes 16 0x17) }

theorem test_meets_flush_commands :
    (s1.up = true ∧ (s1.port .A).sub.subseq = (s1.port .A).sub.fl0.setWidth 32) ∧
    (let s := modSub s1 .A (fun q => { q with subseq := 5 })
     s.up = true ∧ (s.port .A).sub.subseq ≠ (s.port .A).sub.fl0.setWidth 32) := by decide +kernel

theorem test_meets_flushes :
    (∀ f ∈ [flush1 0 0x2000 32 0, flush1 1 0x2000 32 0, flush1 2 0x2000 32 0, flush1 0 0x2008 32 0, flush1 0 0x2000 0 0, flush1 0 0x2000 32 9],
      ((withFlush f s1).port .A).sub.flushes = f :: [] ∧ (f.order = true → ((withFlush f s1).port .A).sub.open1.head? = some f.sseq)) ∧
    (∀ f ∈ [flush1 2 0x2000 32 0, flush1 0 0x2008 32 0, flush1 0 0x2000 20 0, flush1 0 0x0100000000000000 16 0], flushBad f = true) ∧
    (flushBad (flush1 0 0x2000 32 9) = false ∧ s1.ctx? 9 = none) ∧
    (flushBad (flush1 0 0x2000 0 0) = false ∧ s1.ctx? 0 = some loadCtx ∧ loadCtx.killed = false) ∧
    (∀ d ∈ [0, 1], let f := flush1 d 0x2FFE0 32 0
     flushBad f = false ∧ f.len ≠ 0 ∧ f.daddr.toNat % 2 ^ 16 + f.len ≤ 2 ^ 16 ∧ f.haddr.toNat + f.len ≤ 2 ^ 64 ∧ 0x2FFE0 + f.len ≤ 2 ^ 42 ∧
     0x2FFE0 % 16 = 0 ∧ (match access s1 loadCtx (if f.dir = 0 then .read else .flush) f.daddr with | .ok pa _ => pa | _ => 0) = 0x2FFE0 ∧
     s1.latent = [] ∧ s1.hist = [] ∧ (s1.port .A).sub.hosterr = none ∧ (∀ m ∈ s1.migs, m.transit = false)) ∧
    access s1 loadCtx .read 0x40000000 = .notPresent ∧ access sReadOnly loadCtx .flush 0x2000 = .perm ∧
    access { s1 with poison := [0x800000] } loadCtx .read 0x2000 = .poisoned := by decide +kernel

def comp (n : Word) : CompRec := { cseq := n, sseq := 0, kind := 0, status := 0, graph := 0, bytes := 0, time := 0, stamp := 0 }
def heldEntry : Held := { own := true, grp := some (0, 0), bytes := List.replicate 64 1 }

theorem test_meets_records :
    (let s := modSub s1 .A (fun q => { q with waiting := [comp 0] })
     (s.port .A).sub.replaying = [] ∧ (s.port .A).sub.waiting = comp 0 :: [] ∧
     ((s.port .A).sub.cmpseq + 1 - (s.port .A).sub.crd).toNat < 2 ^ (max 4 (s.port .A).sub.crcfg.toNat) ∧ (s.port .A).sub.kept.length < 256) ∧
    (let s := modSub s1 .A (fun q => { q with replaying := [comp 0] })
     (s.port .A).sub.replaying = comp 0 :: [] ∧ ((comp 0).cseq - (s.port .A).sub.crd).toNat < 2 ^ (max 4 (s.port .A).sub.crcfg.toNat)) ∧
    (let s := modSub s1 .A (fun q => { q with waiting := [comp 0], cmpseq := 255 })
     (s.port .A).sub.replaying = [] ∧ (s.port .A).sub.waiting = comp 0 :: [] ∧
     2 ^ (max 4 (s.port .A).sub.crcfg.toNat) ≤ ((s.port .A).sub.cmpseq + 1 - (s.port .A).sub.crd).toNat) ∧
    (let s := modTrap s1 .A (fun r => { r with en := true, held := [heldEntry] })
     let u := (s.port .A).trap
     u.en = true ∧ u.held = heldEntry :: [] ∧ (u.wix - u.rix).toNat < ringSize u ∧ heldEntry.bytes.length = 64 ∧
     u.base.toNat + 64 * ringSize u ≤ backedEnd ∧ heldEntry.grp = some (0, 0)) := by decide +kernel

/-! Debugging. -/

def arg (b : Word) (r : BitVec 9) : DbgArg := { thread := 0, group := 0, reg := r, skip := false, block := b }
def sAttached : State := attached s1
def sHalted : State := grp (fun y => { y with q := { y.q with status := .halted true } }) sAttached
/-- Attached to a context that has nothing resident; and to none. -/
def sElsewhere : State := modDbg sAttached .A (fun d => { d with ctx := 7 })
def sEnabled : State := modDbg sLoad .A (fun d => { d with en := true })

theorem test_meets_debug_attachment :
    (s1.up = true ∧ (s1.port .A).dbg.en = false) ∧
    (sEnabled.up = true ∧ (sEnabled.port .A).dbg.en = true ∧ (∃ c ∈ sEnabled.ctxs, c.1 = 0 ∧ c.2.port = .A ∧ tenantBound sEnabled .A c.2.tenant = true) ∧
      (sEnabled.port .A).dbg.ctx = 0xFFFFFFFF) ∧
    (sHalted.up = true ∧ (sHalted.port .A).dbg.en = true ∧ (sHalted.port .A).dbg.ctx = 0 ∧
      (∃ b ∈ residents sHalted, b.2.ctx = 0 ∧ ∃ y ∈ b.2.groups, y.q.status = .halted true)) ∧
    (let s := blk (fun x => { x with life := .saved }) sHalted
     (s.port .A).dbg.ctx = 0 ∧ (s.blk? 0).any (fun x => x.life == .saved && x.ctx == 0 && x.groups.any (fun y => y.q.status == .halted true)) = true) := by
  decide +kernel

theorem test_meets_debug_commands :
    (sEnabled.up = true ∧ ((sEnabled.port .A).dbg.en = false ∨ (sEnabled.port .A).dbg.ctx = 0xFFFFFFFF)) ∧
    (sElsewhere.up = true ∧ (sElsewhere.port .A).dbg.en = true ∧ (sElsewhere.port .A).dbg.ctx ≠ 0xFFFFFFFF ∧
      (∀ z ∈ residents sElsewhere, ¬(z.2.ctx = (sElsewhere.port .A).dbg.ctx ∧ BitVec.ofNat 32 z.2.idx = (arg 0 0).block ∧ z.2.opts.debug = true))) ∧
    (∀ s ∈ [sAttached, sHalted], s.up = true ∧ (s.port .A).dbg.en = true ∧ (s.port .A).dbg.ctx ≠ 0xFFFFFFFF ∧
      dbgBlock s (s.port .A).dbg.ctx (arg 0 0) = some (0, (thePass s).B) ∧ s.blk? 0 = some (thePass s).B ∧
      (thePass s).B.groups[(arg 0 0).group.val]? = some (thePass s).G ∧ (thePass s).G.q.status ≠ .exited) ∧
    (thePass sAttached).G.q.status = .pending ∧ (thePass sHalted).G.q.status = .halted true ∧
    ((thePass sHalted).B.h.vregs ≤ (arg 0 0x1FF).reg.toNat + 1 ∧ (thePass sHalted).B.h.sregs ≤ (arg 0 192).reg.toNat ∧
      (arg 0 0).reg.toNat < (thePass sHalted).B.h.vregs ∧ (arg 0 191).reg.toNat < (thePass sHalted).B.h.sregs) ∧
    (blk (fun x => { x with h := { x.h with vregs := 16 } }) sHalted |> thePass).B.h.vregs ≤ (arg 0 16).reg.toNat ∧
    (∃ z ∈ residents sAttached, z.2.ctx = (sAttached.port .A).dbg.ctx ∧ z.2.opts.debug = true) ∧ (arg 0xFFFFFFFF 0).block = 0xFFFFFFFF := by decide +kernel

/-! Translation, page faults, promotion, kill. -/

def pfault : PFault := { token := 1, ctx := 0, page := 0x50000, acc := 0, core := 0, lane := 0 }
/-- The group waits for the page, whose fault the host has consumed. -/
def sPage : State := grp (fun y => { y with q := { y.q with status := .parked (.page 1) false } }) { s1 with pfaults := [pfault], nextToken := 2 }
def sInvBusy : State := modHost s1 .A (fun h => { h with invbusy := true })

theorem test_meets_translation :
    (sInvBusy.up = true ∧ (sInvBusy.port .A).reg.invbusy = true) ∧
    (s1.up = true ∧ (s1.port .A).reg.invbusy = false ∧ (s1.ctx? (s1.port .A).reg.invctx).any (fun c => c.port == .A) = true) ∧
    ((modHost s1 .A (fun h => { h with invctx := 9 })).ctx? 9 = none) ∧
    (sPage.up = true ∧ sPage.pfaults.find? (fun f => f.token == 1) = some pfault ∧ ctxPort sPage pfault.ctx = .A ∧
      (∀ h ∈ (sPage.port .A).trap.held, ¬(h.bytes.take 1 = [2] ∧ fieldN h.bytes 40 4 = pfault.token.toNat)) ∧
      (∀ f ∈ sPage.pfaults, f.token ≠ 2) ∧
      sPage.pfaults.find? (fun f => f.ctx == (sPage.port .A).trap.rctx && f.page == ((0x51234 : BitVec 57).signExtend 64 &&& ~~~0xFFFF#64)) = some pfault) := by
  decide +kernel

def mig1 (h f : Nat) : Mig :=
  { tenant := 0, ctx := 0, vpage := 0x40000000, home := h, frame := f, transit := true, used := 0, dirty := false, held := [] }
def sMoving : State := { sPref with migs := [mig1 0x10000000000 0x20000] }

/-- A store of the block to 0x40000010 is held while its page moves; the whole context, or that page, is being invalidated. -/
def sInvHeld (w : Option Nat) : State :=
  modHost { sPref with migs := [{ mig1 0x10000000000 0x20000 with held := [(0, 0,
    { i := .stw (.v 8) (.v 4) 0, pc := 64, token := 0, acc := 1, page := 0x40000000, dst := none, woken := false,
      thr := [{ g := 0, t := 0, addr := 0x40000010, data := [7], cmp := [], jat := none }], also := [] })] }] } .A
    (fun h => { h with invbusy := true, invof := (0, w) })
def invWaits (s : State) : Bool :=
  let w := (s.port .A).reg.invof
  s.migs.any (fun m => m.held.any (fun h => (s.blk? h.1).any (fun x => x.ctx == w.1) &&
    (match w.2 with | some page => h.2.2.thr.any (fun a => a.addr.toNat / 2 ^ 16 % 2 ^ 41 == page) | none => true)))

theorem test_meets_invalidation_ends :
    invWaits (sInvHeld none) = true ∧ invWaits (sInvHeld (some 0x4000)) = true ∧ invWaits (sInvHeld (some 0x4001)) = false ∧
    invWaits sInvBusy = false := by decide +kernel

theorem test_meets_promotion_and_switch :
    sPref.latent = [] ∧ (∃ c home f, promotable sPref 0 0x40000000 = some (c, home) ∧ freeFrame sPref c.tenant = some f) ∧
    (sMoving.memCanon ∧ sMoving.migs[0]? = some (mig1 0x10000000000 0x20000) ∧ (mig1 0x10000000000 0x20000).transit = true ∧
      (mig1 0x10000000000 0x20000).held = [] ∧ sMoving.latent = [] ∧ 0x10000000000 + 2 ^ 16 ≤ 2 ^ 42 ∧ 0x20000 + 2 ^ 16 ≤ 2 ^ 42 ∧
      0x20000 + 2 ^ 16 ≤ 0x10000000000) := by
  refine ⟨by decide +kernel, ?_, show memOk sMoving.mem = true by decide +kernel, by decide +kernel⟩
  have h1 : ((promotable sPref 0 0x40000000).bind (fun c => freeFrame sPref c.1.tenant)).isSome = true := by decide +kernel
  obtain ⟨f, hf⟩ := Option.isSome_iff_exists.1 h1
  obtain ⟨c, hc, hd⟩ := Option.bind_eq_some_iff.1 hf
  exact ⟨c.1, c.2, f, hc, hd⟩

theorem test_meets_pref_deadline :
    let s := grp (fun y => { y with e := { y.e with prom := 1, prefs := [{ page := 0x40000000, deadline := 0, counted := true, waited := false, copyWaited := false }] } }) s1
    s.blk? 0 = some (thePass s).B ∧ (thePass s).B.life = .resident ∧ (thePass s).B.groups[0]? = some (thePass s).G ∧ (thePass s).G.liveList ≠ [] := by
  decide +kernel

/-- A logged store whose page is back at 0x2000, and a logged load of a page that is still absent. -/
def logged (i : Instr) (a : BitVec 64) : LogEntry :=
  { i := i, pc := 64, token := 1, acc := 1, page := a, dst := none, woken := true, thr := [{ g := 0, t := 0, addr := a, data := [7], cmp := [], jat := none }],
    also := [] }
def withLog (e : LogEntry) (s : State) : State := grp (fun y => { y with log := [e], q := { y.q with status := .pending } }) s
def logOk (s : State) (e : LogEntry) : Bool :=
  match latePass s 0 0 with
  | none => false
  | some p => p.B.life == .resident && decide (s.grp? 0 0 = some (thePass s).G) && decide ((thePass s).G.log = [e]) && e.woken && decide (e.acc ≠ 3) &&
      decide (e.thr.length = 1) && (memOf e.i).isSome && s.latent.isEmpty && !(thePass s).G.liveList.isEmpty && !(thePass s).G.q.rollback
def redo (s : State) (e : LogEntry) : Look :=
  match latePass s 0 0, e.thr with | some p, [x] => redoLook s p e x | _, _ => .wait

theorem test_meets_reissue :
    (let e := logged (.stw (.v 8) (.v 4) 0) 0x2000
     logOk (withLog e s1) e = true ∧ redo (withLog e s1) e = .ok { loc := 0x2000 }) ∧
    (let e := logged (.ldw (.v 16) (.v 4) 0) 0x50000000
     logOk (withLog e s1) e = true ∧ redo (withLog e s1) e = .notPresent 0x50000000 ∧ (thePass (withLog e s1)).G.q.status = .pending) := by
  decide +kernel

theorem test_meets_kill :
    s1.up = true ∧ s1.ctx? 9 = none ∧ (sKilled.up = true ∧ (sKilled.ctx? 0).any (fun c => c.port == .A && c.killed) = true) ∧
    (s1.ctx? 0).any (fun c => c.port == .A && !c.killed) = true := by decide +kernel

/-! Blocks. The tenant has cluster 0. -/

def sOne : State := { sLoad with sh := { sLoad.sh with cluset := [(0, 1)] } }
def sReady : State := blk (fun x => { x with life := .ready, groups := [] }) sOne
def sStopped : State := grp (fun y => { y with q := { y.q with status := .stopped none } }) (blk (fun x => { x with preempt := true }) sOne)
def sSaved (f : Nat) : State := blk (fun x => { x with life := .saved, form := f }) sOne
/-- Group 0 is saved whole. -/
def sWhole : State := grp (fun y => { y with q := { y.q with status := .pending } }) (blk (fun x => { x with wholeSaved := [0] }) sOne)
/-- Core 0 is disabled and core 3 stands ready. -/
def sDisabled : State := modCore sStopped 0 (fun k => { k with enabled := false })

theorem test_meets_placement :
    (s1.up = true ∧ (∀ t ∈ List.range 16, headTroupe s1 t = none)) ∧
    (sReady.up = true ∧ (serviceOrder sReady 0).head? = some 0 ∧ (∃ c ∈ sReady.blocks, headTroupe sReady 0 = some c ∧ c.2.life = .ready ∧
      mates sReady c.2 = [c]) ∧ (sReady.blk? 0).any (fun x => (placeTroupe sReady 0 x).isSome) = true) := by decide +kernel

theorem test_meets_saves_and_restores :
    (canReturn sWhole 0 0).isSome = true ∧ (sWhole.grp? 0 0).isSome = true ∧ sWhole.latent = [] ∧
    (sWhole.blk? 0).any (fun x => !poisoned sWhole (x.slot + groupFrameOff { x with groups := x.groups.map (setStatus .pending) } 0)
      (128 * x.h.vregs + 4 * x.h.sregs)) = true ∧
    (canSave sStopped 0 = true ∧ (sStopped.blk? 0).any (fun x => x.slot + 64 ≤ backedEnd) = true) ∧
    (∀ f ∈ [3, 4], ((sSaved f).blk? 0).any (fun x => x.life == .saved && waiting (sSaved f) x && decide (mates (sSaved f) x = [(0, x)]) &&
      (placeTroupe (sSaved f) x.opts.tenant x).isSome && x.form == f) = true) := by decide +kernel

/-- The block has a request of device time 0 pending, behind one that has met its end. -/
def sAsked : State :=
  later (usTicks 200) { sStopped with ctxs := sStopped.ctxs.map (fun c => (c.1, { c.2 with preq := [(0, [9]), (0, [0])] })) }

theorem test_meets_preemption :
    (s1.up = true ∧ s1.ctx? 9 = none) ∧
    ((sReady.ctx? 0).any (fun c => c.port == .A) = true ∧ (∀ z ∈ residents sReady, z.2.ctx ≠ 0)) ∧
    ((s1.ctx? 0).any (fun c => c.port == .A) = true ∧ (s1.blk? 0).any (fun x => x.life == .resident && x.ctx == 0) = true) ∧
    ((sAsked.ctx? 0).any (fun c => decide (c.preq[1]? = some (0, [0]) ∧ ∀ q ∈ c.preq.take 1, sAsked.now < q.1 + usTicks 200 ∨ reqPending sAsked q = false)) = true ∧
      0 + usTicks 200 ≤ sAsked.now ∧ reqPending sAsked (0, [0]) = true) := by decide +kernel

/-! Cores, completions, watchdogs, queues and banks. -/

/-- The group is ready since cycle 0, and core 0 counts 4096. -/
def sLong (st : Status) : State :=
  grp (fun y => { y with q := { y.q with status := st, ready := some 0, forced := false } }) (modCore s1 0 (fun k => { k with cyc := 4096 }))
def sWin : State := modCore s1 0 (fun k => { k with win := some { cls := .n, endAt := 0 } })
/-- The group sleeps until ETM 0; and the returns of a read of v8 are to come. -/
def sSleep : State := grp (fun y => { y with q := { y.q with status := .parked (.sleep 0) false } }) s1
def sReturn : State := grp (fun y => { y with e := { y.e with vpend := [256], returns := [([256], [])] } }) s1

def engOp (i : Instr) (f : Option Nat) : EngOp :=
  { i := i, desc := [0, 0, 4096, 0, 16, 0x1400], dst := some (.s 16), sect := 0, pos := 0, poisoned := false, data := [], cid := 0, susp := none,
    bad := false, fin := f, jat := none, part := 0 }
def withOp (o : EngOp) : State := grp (fun y => { y with e := { y.e with ops := [o], copy := 1, gath := 1 } }) s1
def copying (f : Option Nat) : EngOp := engOp (.cpy (.s 16) (.s 4)) f
def gathering : EngOp := engOp (.gath (.s 16) (.s 20)) (some 0)

theorem test_meets_issue_bounds_and_wakes :
    (∀ st ∈ [Status.active, .pending], (sLong st).blk? 0 = some (thePass (sLong st)).B ∧ (thePass (sLong st)).B.life = .resident ∧
      (thePass (sLong st)).B.groups[0]? = some (thePass (sLong st)).G ∧ (thePass (sLong st)).G.q.forced = false ∧
      (thePass (sLong st)).G.q.ready = some 0 ∧ 0 + 4096 ≤ (sLong st).cyc (thePass (sLong st)).B.core ∧ (thePass (sLong st)).G.q.status = st) ∧
    ((sWin.core 0).win = some { cls := .n, endAt := 0 } ∧ 0 ≤ sWin.cyc 0) ∧
    (sSleep.blk? 0 = some (thePass sSleep).B ∧ (thePass sSleep).B.life = .resident ∧ (thePass sSleep).B.core = 0 ∧
      (thePass sSleep).B.groups[0]? = some (thePass sSleep).G ∧ (thePass sSleep).G.q.status = .parked (.sleep 0) false ∧ 0 ≤ sSleep.etm 0) ∧
    (sReturn.grp? 0 0 = some (thePass sReturn).G ∧ (thePass sReturn).G.e.returns = ([256], []) :: []) := by decide +kernel

theorem test_meets_completions :
    (sFly.blk? 0 = some (thePass sFly).B ∧ (thePass sFly).B.groups[0]? = some (thePass sFly).G ∧ (thePass sFly).G.e.mma = some flying ∧
      flying.endAt ≤ sFly.cyc (thePass sFly).B.core ∧ flying.stuck = none ∧ (thePass sFly).B.opts.paired = false ∧ (thePass sFly).G.liveList ≠ []) ∧
    (∀ f ∈ [{ flying with endAt := 4 }, { flying with stuck := some 0 }],
      let s := grp (fun y => { y with e := { y.e with mma := some f } }) sGang
      s.blk? 0 = some (thePass s).B ∧ (thePass s).B.groups[0]? = some (thePass s).G ∧ (thePass s).G.e.mma = some f ∧
      (s.cyc (thePass s).B.core < f.endAt ∨ f.stuck ≠ none)) ∧
    (∀ o ∈ [copying (some 0), copying (some 2), gathering],
      (withOp o).grp? 0 0 = some (thePass (withOp o)).G ∧ ((transfer (withOp o) 0 0 0).grp? 0 0).any (fun y => y.e.ops[0]? == some o &&
        !y.liveList.isEmpty && !y.q.rollback) = true ∧ o.fin.isSome = true ∧ o.dst = some (.s 16) ∧ (thePass (withOp o)).G.log = []) ∧
    (∀ f ∈ [some 0, some 2], (thePass (withOp (copying f))).G.e.ops.findIdx? isCopy = some 0) ∧
    (thePass (withOp gathering)).G.e.ops.findIdx? isGath = some 0 := by decide +kernel

theorem eng_is {s : State} {b g : Nat} (d : Pass) (h : (engPass s b g).isSome = true) : engPass s b g = some ((engPass s b g).getD d) := by
  obtain ⟨p, hp⟩ := Option.isSome_iff_exists.1 h
  simp [hp]

theorem test_meets_a_copy_in_scratch :
    let s := withOp (copying none)
    let o := copying none
    let c := copyD false o.desc
    ∃ p, engPass s 0 0 = some p ∧ s.grp? 0 0 = some (thePass s).G ∧ (thePass s).G.e.ops = o :: [] ∧ o.fin = none ∧ o.susp = none ∧ o.bad = false ∧
      o.pos = 0 ∧ o.part = 0 ∧ o.poisoned = false ∧ (thePass s).G.liveList ≠ [] ∧ (thePass s).G.q.rollback = false ∧ s.hist = [] ∧ s.latent = [] ∧ s.poison = [] ∧
      c.ssp = .scr ∧ c.dsp = .scr ∧ c.len = 16 ∧ c.mcast = false ∧ granAt s p .scr c.src = .live ∧ granAt s p .scr c.dst = .live ∧
      (thePass s).G.c.stable = [] := 
  ⟨(engPass (withOp (copying none)) 0 0).getD (thePass s1), eng_is _ (by decide +kernel), by decide +kernel⟩

/-- Group 0 of two has waited at barrier 1, and at a matrix operation with group 1, for a millisecond. -/
def sBarLate : State := later (msTicks 200) (blk (fun x => { x with
  arr := [(32, { released := false, links := [] })], bars := [(1, { gen := 0, arrived := [0], links := [], hold := [], last := 0 })],
  bwait := [(0, { id := 1, pub := none, whole := false })] }) sTwo)
def sRdvLate : State := later (msTicks 200) (grp (fun y => { y with e := { y.e with
  mmaWait := some { i := .mma (.s 4) (.s 12) (.s 14) .bf16, pc := 64, since := 0 } } }) sPair)

theorem test_meets_watchdogs :
    (sBarLate.blk? 0 = some (thePass sBarLate).B ∧ barLate sBarLate 0 1 = true ∧
      (sBarLate.ctx? (thePass sBarLate).B.ctx).any (fun c => !c.killed) = true) ∧
    (sRdvLate.blk? 0 = some (thePass sRdvLate).B ∧ rdvLate sRdvLate 0 0 = true ∧
      (sRdvLate.ctx? (thePass sRdvLate).B.ctx).any (fun c => !c.killed) = true) := by decide +kernel

/-- Queue 0 of stage 0 is full and queue 1 of stage 1 is empty; cores 0 to 7 stand at stage 1. -/
def sForeman : State :=
  (List.range 8).foldl (fun s c => modCore s c (fun k => { k with cstage := 1 })) (modCluster (later (usTicks 50) s1) 0 (fun c => { c with
    fmEn := true, queues := [(0, { mine with putix := 2 }), (1, { mine with stage := 1 })] }))

theorem test_meets_foreman :
    (s1.cluster (0 : Fin 96).val).fmEn = false ∧
    (let x := sForeman.cluster (0 : Fin 96).val
     x.fmEn = true ∧ fullest x ((List.range 16).filter (fun q => (x.queue q).en && atLeast16 (x.queue q) x.fmHi)) = some 0 ∧
     lowestStage x ((List.range 16).filter (fun st => st != (x.queue 0).stage && stageLow x st && decide (2 ≤ (stageCores sForeman 0 st).length))) = some 1 ∧
     ((stageCores sForeman 0 1).filter (fun c => match (sForeman.core c).moved with
        | some t => decide (t + usTicks x.fmHold ≤ sForeman.now) | none => true)).getLast? = some 7) := by decide +kernel

/-- One record stands in the queue; a continuation waits to enter it; a bank drains. -/
def sRecord : State := withQueue { mine with putix := 1, slots := [(0, { data := List.replicate 64 1, writers := [], mask := 1, phase := false, free := false })] } s1
def sContq : State := withQueue { mine with contq := [(List.replicate 64 2, [])] } s1
def sDrain : State := modCluster s1 0 (fun c => { c with banks := [(0, { Bank.reset with mode := 1, owner := 0, drain := true })] })

theorem test_meets_queue_and_bank_events :
    (let q := (sRecord.cluster (clusterOf 0)).queue (0 : Fin 16).val
     q.en = true ∧ q.mode = false ∧ tget q.windows (0 % 8) [] = [] ∧ 0 < (q.putix - q.freeix).toNat ∧
     (tget? q.slots (q.freeix.toNat % 2 ^ (q.size + 1))).any (fun z => z.mask.getLsbD (0 % 8)) = true) ∧
    (let q := (sContq.cluster (0 : Fin 96).val).queue (0 : Fin 16).val
     q.en = true ∧ (q.putix - q.freeix).toNat < 2 ^ (q.size + 1) ∧ q.contq = (List.replicate 64 2, []) :: []) ∧
    ((sDrain.cluster (0 : Fin 96).val).bank (0 : Fin 16).val).drain = true := by decide +kernel

theorem test_meets_relocation : 1 ∈ relocateTo sDisabled 0 := by decide +kernel

/-! Steps. The group of the loaded block is at BRA 2; every step starts from memory in its canonical form and answers. -/

def sRun : State := atWord 0x01000002
def sSet : State := settleAll sRun
def runSpot : Spot := (pick sSet 0 0).getD { b := 0, g := 0, x := loadBlock sRun, y := startGroup sRun (loadBlock sRun) 0 0 0 }
def runPaths : List Path := (planOf sSet runSpot.x runSpot.g runSpot.y).paths
def noLeaf : Leaf := { pa := 0, size := 0, r := false, w := false, x := false, imm := false, apl := 0, tier := 0, alt := none }
/-- The place of the word, and the leaf that maps it. -/
def runAt (c : Context) (a : Path) : Nat × Leaf := match access sSet c .fetch (fetchVa runSpot.x a.pc) with | .ok pa n => (pa, n) | _ => (0, noLeaf)

theorem get_is {α : Type} {o : Option α} (d : α) (h : o.isSome = true) : o = some (o.getD d) := by
  obtain ⟨p, rfl⟩ := Option.isSome_iff_exists.1 h
  rfl

theorem test_meets_a_step :
    ∃ (o : Act) (r : List Act) (k l : Nat) (w : State) (z : Spot) (a : Path) (c : Context) (pa : Nat) (n : Leaf),
      sRun.inputs = [] ∧ sRun.boot.done = true ∧ due (settleAll sRun) = [] ∧ issueActs (settleAll sRun) = o :: r ∧
      chooseFrom (settleAll sRun) o (o :: r) = (.issue k l, w) ∧ pick w k l = some z ∧ w.latent = [] ∧
      w.blk? z.b = some z.x ∧ z.x.groups[z.g]? = some z.y ∧ (∀ e ∈ z.y.log, e.woken = false) ∧
      (planOf w z.x z.g z.y).paths = [a] ∧ w.ctx? z.x.ctx = some c ∧ access w c .fetch (fetchVa z.x a.pc) = .ok pa n ∧
      poisoned w pa 4 = false ∧ decode (BitVec.ofNat 32 (leNat (mgetN w.mem pa 4))) = .ok (.bra 2) := by
  have hp : runPaths.length = 1 := by decide +kernel
  obtain ⟨a, ha⟩ := List.length_eq_one_iff.1 hp
  have hc : (sSet.ctx? runSpot.x.ctx).isSome = true := by decide +kernel
  obtain ⟨c, hc⟩ := Option.isSome_iff_exists.1 hc
  have hk : (match sSet.ctx? runSpot.x.ctx, runPaths with
    | some c, a :: _ => (match access sSet c .fetch (fetchVa runSpot.x a.pc) with | .ok _ _ => true | _ => false) && !poisoned sSet (runAt c a).1 4 &&
        (match decode (BitVec.ofNat 32 (leNat (mgetN sSet.mem (runAt c a).1 4))) with | .ok i => i == .bra 2 | .error _ => false)
    | _, _ => false) = true := by decide +kernel
  rw [hc, ha] at hk
  simp only [Bool.and_eq_true, Bool.not_eq_true'] at hk
  refine ⟨.issue 0 0, [], 0, 0, sSet, runSpot, a, c, (runAt c a).1, (runAt c a).2, by decide +kernel, by decide +kernel, by decide +kernel,
    by decide +kernel, rfl, get_is _ (by decide +kernel), by decide +kernel, by decide +kernel, by decide +kernel, by decide +kernel, ha, hc, ?_, hk.1.2, ?_⟩
  · have := hk.1.1
    unfold runAt
    split at this
    · rename_i h; simp [h]
    · cases this
  · have := hk.2
    split at this
    · rename_i h; rw [h]; exact congrArg _ (by simpa using this)
    · cases this

theorem test_meets_canonical_memory : sRun.memCanon ∧ ∃ t, step sRun = .next t := by
  refine ⟨show memOk sRun.mem = true by decide +kernel, ?_⟩
  have : (match step sRun with | .next _ => true | _ => false) = true := by decide +kernel
  split at this
  · exact ⟨_, by assumption⟩
  · cases this

end Sys2Proof.Tests
end

section
/-! The reset column of the register maps: the parts of the state at reset, then what each register reads there. -/

namespace Sys2Proof.Proofs
open Sys2Proof.Machine

/-! The parts at reset: no table of `State.reset` lists an entry, so each part stands at its own reset value. -/

@[simp] theorem port_reset (hp : HPort) : State.reset.port hp = Port.reset := by cases hp <;> rfl

@[simp] theorem link_reset (p : Nat) : State.reset.link p = Link.reset := rfl

@[simp] theorem reg_reset (x : Nat) : State.reset.reg x = Regulator.reset := rfl

@[simp] theorem cluster_reset (k : Nat) : State.reset.cluster k = Cluster.reset k := rfl

/-- R39: a core counts from the later of two times, both 0 at reset. -/
@[simp] theorem core_reset (c : Nat) : State.reset.core c = Core.reset c := rfl

@[simp] theorem bank_reset (k b : Nat) : (Cluster.reset k).bank b = Bank.reset := rfl

@[simp] theorem queue_reset (k q : Nat) : (Cluster.reset k).queue q = Queue.reset := rfl

/-- R39: no cycle of a core has ended at reset, and none is in progress. -/
theorem coreClock_reset (c : Nat) : coreClock (Core.reset c) 0 = (0, 0) := by
  have hclock : coreClock (Core.reset c) 0 = runClock (Core.reset c) 0 0 0 := rfl
  simp [hclock, runClock]

theorem cyc_reset (c : Nat) : State.reset.cyc c = 0 :=
  congrArg Prod.fst (coreClock_reset c)

/-- R39, R40: ETM is a part of the device time, which is 0 at reset. -/
theorem etm_reset (c : Nat) : State.reset.etm c = 0 := by
  have hnow : State.reset.now = 0 := rfl
  simp [State.etm, hnow]

/-! The registers of BAR A at reset. -/

/-- Both ports read alike at reset: at neither has a register been written, or is a command in progress or a block resident. -/
theorem regValue_reset_port (hp : HPort) (r : BReg) : regValue State.reset hp r = regValue State.reset .A r := by
  cases hp <;> rfl

/-- R76, R80, R84, R88, R89, R95, R157, R209, R403: the registers without an index that read zero at reset. -/
theorem regValue_reset_zero (hp : HPort) :
    ∀ r ∈ [BReg.loadstat, .subseq, .crbase, .crd, .crstat, .invctx, .invstat, .trbase, .trwix, .trrix, .trstat, .trrctx, .dbgctl,
      .dbgstat, .dbgdata, .dbgres, .apbase0, .apbase1, .ussstat, .assaycnt, .partctl], regValue State.reset hp r = 0 := by
  simp only [regValue_reset_port hp]
  decide

/-- R403: no post is queued at reset, so each word of the post at the head reads zero. -/
theorem regValue_reset_dbgrec (hp : HPort) (k : Nat) : regValue State.reset hp (.dbgrec k) = 0 := by
  have hposts : Port.reset.dbg.posts = [] := rfl
  simp [regValue, hposts, fieldN, leNat]

/-- R53: a link is down at reset, with no error and no replay. -/
theorem regValue_reset_lnkstat (hp : HPort) (p : Nat) : regValue State.reset hp (.lnkstat p) = 0 := by
  simp [regValue, lnkstatValue, Link.reset, bit]

/-- R35: UVCTL at reset: off, at its nominal voltage, with INTERVAL 10 and CELIM 4. -/
theorem regValue_reset_uvctl (hp : HPort) (x : Nat) :
    regValue State.reset hp (.uvctl x) = (420 + (Config.nomv x).val) * 2 ^ 20 + 0xA04 := by
  simp [regValue, uvctlValue, Regulator.reset, bit, Nat.add_assoc]

/-- R35: the voltage field ends below bit 30 (the fuses give at most 700 mV), so that EN reads 0. -/
theorem regValue_reset_uvctl_off (hp : HPort) (x : Nat) : regValue State.reset hp (.uvctl x) / 2 ^ 31 = 0 := by
  have hfuse := (Config.nomv x).isLt
  rw [regValue_reset_uvctl]
  omega

theorem regValue_reset_uvctl_low (hp : HPort) (x : Nat) : regValue State.reset hp (.uvctl x) % 2 ^ 20 = 0xA04 := by
  rw [regValue_reset_uvctl, Nat.mul_add_mod_of_lt (by decide)]

/-! Clusters. -/

/-- R25: two dies of twelve clusters share a regulator. -/
theorem rail_reset (k : Nat) : (Cluster.reset k).rail = k / 12 / 2 := (Nat.div_div_eq_div_mul k 12 2).symm

/-! The statement, part by part. -/

/-- R120: a queue at reset. -/
theorem queue_reset_fields (k q : Nat) :
    let x := (Cluster.reset k).queue q
    x.en = false ∧ x.mode = false ∧ x.bank = 0 ∧ x.off = 0 ∧ x.size = 0 ∧ x.cmask = 0 ∧ x.stage = 0 ∧ x.owner = 0 ∧ x.putix = 0 ∧
      x.freeix = 0 := by
  simp [Queue.reset]

/-- Settles O58, part by part: no table lists an entry at reset, so each register reads its part's reset value. Only the voltage
in UVCTL comes from the fuses, and its bound keeps it out of the fields that the map gives. -/
theorem resetValues : Obligations.reset_values := by
  refine ⟨rfl, rfl, fun hp => ?ports, fun c => ?cores, fun k _ => ?clusters⟩
  case ports =>
    refine ⟨regValue_reset_zero hp, ?_, ?_, ?_, ?_, ?_, ?_, ?_, ?_, fun k => ?_⟩
    iterate 8 · rw [regValue_reset_port]; decide
    exact ⟨regValue_reset_dbgrec hp k, rfl, rfl, regValue_reset_lnkstat hp k, rfl, rfl, rfl, rfl, rfl, regValue_reset_uvctl_off hp k,
      regValue_reset_uvctl_low hp k⟩
  case cores =>
    rw [core_reset]
    exact ⟨rfl, rfl, rfl, rfl, cyc_reset c, etm_reset c, fun _ => rfl⟩
  case clusters =>
    simp only [cluster_reset, bank_reset]
    exact ⟨rail_reset k, rfl, rfl, rfl, rfl, fun _ => ⟨rfl, rfl, rfl⟩, queue_reset_fields k⟩

end Sys2Proof.Proofs
end

section
/-! Tables and memory written by folds, and folds that bring something about: what the power events do part after part. -/

namespace Sys2Proof.Proofs
open Sys2Proof.Machine Sys2Proof.Laws

/-- A table after the entries of some keys have been set, each to a value of its own. -/
theorem tget?_foldl_tset {α : Type} (f : Nat → α) (l : List Nat) (t : Table α) (i : Nat) :
    tget? (l.foldl (fun t k => tset t k (f k)) t) i = if i ∈ l then some (f i) else tget? t i := by
  induction l generalizing t with
  | nil => simp
  | cons k r ih =>
    rw [List.foldl_cons, ih, tget?_tset]
    by_cases hk : i = k <;> simp [hk]

/-- A table after the entry of each key of a list without repeats has been changed. -/
theorem tget_foldl_tset_tget {α : Type} (f : Nat → α → α) (d : α) {l : List Nat} (hl : l.Nodup) (t : Table α) (i : Nat) :
    tget (l.foldl (fun t k => tset t k (f k (tget t k d))) t) i d = if i ∈ l then f i (tget t i d) else tget t i d := by
  induction l generalizing t with
  | nil => simp
  | cons k r ih =>
    obtain ⟨hk, hr⟩ := List.nodup_cons.1 hl
    rw [List.foldl_cons, ih hr]
    by_cases hi : i = k
    · subst hi; simp [hk]
    · simp [hi, tget_tset_ne]

/-- A table after its values have been changed in place, those of some keys alone. -/
theorem tget?_map {α : Type} (p : Nat → Bool) (f : Nat → α → α) (t : Table α) (i : Nat) :
    tget? (t.map (fun c => if p c.1 then (c.1, f c.1 c.2) else c)) i = (tget? t i).map (fun v => if p i then f i v else v) := by
  induction t with
  | nil => rfl
  | cons c r ih =>
    obtain ⟨k, v⟩ := c
    by_cases hi : i = k
    · subst hi; by_cases hp : p i <;> simp [tget?, hp]
    · by_cases hp : p k <;> simp [tget?, hp, hi, ih]

theorem mem_of_tget? {α : Type} {t : Table α} {i : Nat} {v : α} (h : tget? t i = some v) : (i, v) ∈ t := by
  induction t with
  | nil => cases h
  | cons c r ih =>
    obtain ⟨k, w⟩ := c
    by_cases hi : i = k
    · simp_all [tget?]
    · simp only [tget?, hi, if_false] at h
      exact List.mem_cons_of_mem _ (ih h)

/-- A memory of which the locations with a property have been kept. -/
theorem mget_filter (p : Nat → Bool) (m : List Host.Cell) (a : Nat) :
    mget (m.filter (fun c => p c.1)) a = if p a then mget m a else 0 := by
  unfold mget tget
  induction m with
  | nil => simp [tget?]
  | cons c r ih =>
    obtain ⟨k, v⟩ := c
    by_cases ha : a = k
    · subst ha; by_cases hp : p a <;> simp_all [tget?]
    · by_cases hp : p k <;> simpa [tget?, hp, ha] using ih

theorem mget_mzero (m : List Host.Cell) (b n a : Nat) : mget (mzero m b n) a = if b ≤ a ∧ a < b + n then 0 else mget m a := by
  rw [mzero, mget_filter (fun x => x < b || b + n ≤ x)]
  by_cases h : b ≤ a ∧ a < b + n
  · rw [if_neg, if_pos h]
    simp only [Bool.or_eq_true, decide_eq_true_eq]
    omega
  · rw [if_pos, if_neg h]
    simp only [Bool.or_eq_true, decide_eq_true_eq]
    omega

/-- A fold brings about what one of its steps brings about and every step keeps. -/
theorem foldS_reaches {α σ : Type} (Q P : σ → Prop) (f : α → σ → σ) (hQ : ∀ x s, Q s → Q (f x s)) (hP : ∀ x s, P s → P (f x s))
    {a : α} (hf : ∀ s, Q s → P (f a s)) {l : List α} (ha : a ∈ l) (s : σ) (hs : Q s) : P (foldS f l s) := by
  induction l generalizing s with
  | nil => cases ha
  | cons x r ih =>
    rcases List.mem_cons.1 ha with rfl | ha
    · exact foldS_keeps P f hP r _ (hf s hs)
    · exact ih ha _ (hQ x s hs)

end Sys2Proof.Proofs
end

section
/-! Bring-up (R23, R86), the voltage step (R33) and the metering (R43). -/

namespace Sys2Proof.Proofs
open Sys2Proof.Machine Sys2Proof.Laws

/-! A hash has bytes, so that an image runs once it has started. -/

theorem shaH_ne_nil : shaH ≠ [] := by
  have htwo : 2 ∈ primes := List.mem_filter.2 ⟨List.mem_range.2 (by decide), by decide⟩
  intro h
  cases hp : primes with
  | nil => simp [hp] at htwo
  | cons p r => simp [shaH, hp] at h

theorem shaBlock_ne_nil {h : List (BitVec 64)} (hh : h ≠ []) (blk : List Byte) : shaBlock h blk ≠ [] := by
  simp [shaBlock, hh]

theorem shaBlocks_ne_nil (n : Nat) {h : List (BitVec 64)} (hh : h ≠ []) (l : List Byte) : shaBlocks n h l ≠ [] := by
  induction n generalizing h l with
  | zero => exact hh
  | succ n ih => exact ih (shaBlock_ne_nil hh _) _

theorem sha512_ne_nil (m : List Byte) : sha512 m ≠ [] := by
  intro h
  have hnone := List.flatMap_eq_nil_iff.1 h
  obtain ⟨x, hx⟩ := List.exists_mem_of_ne_nil _ (shaBlocks_ne_nil _ shaH_ne_nil _)
  simpa [beBytes, leBytes] using hnone x hx

/-! Bring-up. -/

/-- R23 step 1, R86: both images run or verify. -/
def imagesRun (b : Boot) : Prop :=
  (b.usHash ≠ [] ∨ imageOk b.usImg 0 b.usMin = true) ∧ (b.cpHash ≠ [] ∨ imageOk b.cpImg 1 b.cpMin = true)

/-- R86: each image that does not run yet starts where it verifies. -/
def startUs (b : Boot) : Boot := if b.usHash.isEmpty && imageOk b.usImg 0 b.usMin then startImage 0 b.usImg b else b
def startCp (b : Boot) : Boot := if b.cpHash.isEmpty && imageOk b.cpImg 1 b.cpMin then startImage 1 b.cpImg b else b

theorem usHash_startUs (b : Boot) : (startUs b).usHash = [] ↔ ¬(b.usHash ≠ [] ∨ imageOk b.usImg 0 b.usMin = true) := by
  cases hh : b.usHash <;> cases hi : imageOk b.usImg 0 b.usMin <;> simp [startUs, startImage, hh, hi, sha512_ne_nil]

theorem cpHash_startCp (b : Boot) : (startCp b).cpHash = [] ↔ ¬(b.cpHash ≠ [] ∨ imageOk b.cpImg 1 b.cpMin = true) := by
  cases hh : b.cpHash <;> cases hi : imageOk b.cpImg 1 b.cpMin <;> simp [startCp, startImage, hh, hi, sha512_ne_nil]

/-- The start of one image leaves what bring-up reads of the other, and the count of boots. -/
theorem startUs_frame (b : Boot) : ∃ v h, startUs b = { b with usVer := v, usHash := h } := by
  unfold startUs
  split
  · exact ⟨_, _, rfl⟩
  · exact ⟨_, _, rfl⟩

theorem startCp_frame (b : Boot) : ∃ v h, startCp b = { b with cpVer := v, cpHash := h } := by
  unfold startCp
  split
  · exact ⟨_, _, rfl⟩
  · exact ⟨_, _, rfl⟩

/-- The bring-up attempt, by what runs after the start of each image. -/
theorem tryBoot_eq (s : State) : tryBoot s =
    if (startUs s.boot).usHash = [] then failBoot { s with boot := startUs s.boot }
    else if (startCp (startUs s.boot)).cpHash = [] then failBoot { s with boot := startCp (startUs s.boot) }
    else finishBoot { s with boot := startCp (startUs s.boot) } := by
  have hus : (if s.boot.usHash.isEmpty && imageOk s.boot.usImg 0 s.boot.usMin then { s with boot := startImage 0 s.boot.usImg s.boot } else s)
      = { s with boot := startUs s.boot } := by unfold startUs; split <;> rfl
  simp only [tryBoot, hus, startCp]
  by_cases hc : ((startUs s.boot).cpHash.isEmpty && imageOk (startUs s.boot).cpImg 1 (startUs s.boot).cpMin) = true
  · simp only [if_pos hc, List.isEmpty_iff]
  · simp only [if_neg hc, List.isEmpty_iff]

theorem tryBoot_finishes {s : State} (h : imagesRun s.boot) : ∃ b, b.count = s.boot.count ∧ tryBoot s = finishBoot { s with boot := b } := by
  obtain ⟨hus, hcp⟩ := h
  obtain ⟨v, m, hb⟩ := startUs_frame s.boot
  obtain ⟨w, n, hc⟩ := startCp_frame (startUs s.boot)
  refine ⟨startCp (startUs s.boot), by rw [hc, hb], ?_⟩
  rw [tryBoot_eq, if_neg (mt (usHash_startUs s.boot).1 (not_not_intro hus)), if_neg (by rw [cpHash_startCp, hb]; exact not_not_intro hcp)]

theorem tryBoot_fails {s : State} (h : ¬imagesRun s.boot) : ∃ b, b.done = s.boot.done ∧ tryBoot s = failBoot { s with boot := b } := by
  obtain ⟨v, m, hb⟩ := startUs_frame s.boot
  obtain ⟨w, n, hc⟩ := startCp_frame (startUs s.boot)
  rw [tryBoot_eq]
  by_cases hus : (startUs s.boot).usHash = []
  · exact ⟨startUs s.boot, by rw [hb], if_pos hus⟩
  · have hcp : (startCp (startUs s.boot)).cpHash = [] := by
      rw [cpHash_startCp, hb]
      exact fun hcp => h ⟨Classical.not_not.1 (mt (usHash_startUs s.boot).2 hus), hcp⟩
    exact ⟨startCp (startUs s.boot), by rw [hc, hb], by rw [if_neg hus, if_pos hcp]⟩

/-- R23 steps 2 to 6: what a completed bring-up leaves. -/
theorem finishBoot_meets (s : State) :
    let t := finishBoot s
    t.boot.done = true ∧ t.boot.failed = false ∧ (∀ hp, (t.port hp).reg.bootfail = false) ∧ t.boot.upAt = s.now ∧
      t.boot.count = s.boot.count + 1 ∧ t.poison = [] ∧ ∀ a, mget t.mem a = if 2 ^ 66 ≤ a ∧ a < 2 ^ 68 then mget s.mem a else 0 := by
  refine ⟨rfl, rfl, fun hp => by cases hp <;> rfl, rfl, rfl, rfl, fun a => ?_⟩
  have hmem : (finishBoot s).mem = s.mem.filter (fun c => 2 ^ 66 ≤ c.1 && c.1 < 2 ^ 68) := rfl
  rw [hmem, mget_filter (fun x => 2 ^ 66 ≤ x && x < 2 ^ 68)]
  simp only [Bool.and_eq_true, decide_eq_true_eq]

/-- R23, R77: a failed bring-up is noted at both ports. -/
theorem failBoot_meets (s : State) :
    let t := failBoot s
    t.boot.done = s.boot.done ∧ t.boot.failed = true ∧ ∀ hp, (t.port hp).reg.bootfail = true :=
  ⟨rfl, rfl, fun hp => by cases hp <;> rfl⟩

/-- R23: bring-up completes where both images run or verify, and clears everything but host memory. -/
theorem execBringUp_meets (s : State) (hdone : s.boot.done = false) (hfailed : s.boot.failed = false) :
    ∃ t, execBringUp s = .next t ∧ (t.boot.done = true ↔ imagesRun s.boot) ∧ (t.boot.failed = true ↔ ¬imagesRun s.boot) ∧
      (∀ hp, (t.port hp).reg.bootfail = t.boot.failed) ∧
      (t.boot.done = true → t.boot.upAt = s.now ∧ t.boot.count = s.boot.count + 1 ∧ t.poison = [] ∧
        ∀ a, mget t.mem a = if 2 ^ 66 ≤ a ∧ a < 2 ^ 68 then mget s.mem a else 0) := by
  refine ⟨tryBoot s, by simp [execBringUp, hdone, hfailed], ?_⟩
  by_cases h : imagesRun s.boot
  · obtain ⟨b, hcount, ht⟩ := tryBoot_finishes h
    obtain ⟨hd, hf, hport, hrest⟩ := finishBoot_meets { s with boot := b }
    rw [← ht] at hd hf hport hrest
    rw [hcount] at hrest
    exact ⟨by simp [hd, h], by simp [hf, h], by simpa [hf] using hport, fun _ => hrest⟩
  · obtain ⟨b, hb, ht⟩ := tryBoot_fails h
    obtain ⟨hd, hf, hport⟩ := failBoot_meets { s with boot := b }
    rw [← ht] at hd hf hport
    rw [hb, hdone] at hd
    exact ⟨by simp [hd, h], by simp [hf, h], by simpa [hf] using hport, by simp [hd]⟩

/-! The voltage controller. -/

/-- R32: a rail runs undervolted where it alone serves its clusters and every block on them allows it. -/
theorem uvHolds_iff (s : State) (x : Nat) : uvHolds s x = true ↔
    (s.reg x).uvEn = true ∧ (s.reg x).shared = false ∧
      ∀ c ∈ residents s, (s.cluster (clusterOf c.2.core)).rail = x → c.2.opts.underv = true := by
  simp [uvHolds, and_assoc, Classical.or_iff_not_imp_left]

/-- R33: the step after one of the controller's intervals. -/
def nextStep (s : State) (x : Nat) : Nat :=
  if uvHolds s x = false then 0
  else if (s.reg x).celim.toNat < (s.reg x).ceCount then (s.reg x).step - 1
  else if (s.reg x).step < 12 then (s.reg x).step + 1 else (s.reg x).step

theorem execUndervoltInterval_eq (x : Fin 4) (s : State) :
    execUndervoltInterval x s = .next (modReg s x.val (fun r => { r with step := nextStep s x.val, ceCount := 0 })) := by
  cases hu : uvHolds s x.val <;> by_cases hc : (s.reg x.val).celim.toNat < (s.reg x.val).ceCount <;>
    simp [execUndervoltInterval, modReg, nextStep, hu, hc, Nat.not_le.2, Nat.not_lt.1]

theorem nextStep_meets (s : State) (x : Nat) :
    if ¬((s.reg x).uvEn = true ∧ (s.reg x).shared = false ∧
      ∀ c ∈ residents s, (s.cluster (clusterOf c.2.core)).rail = x → c.2.opts.underv = true)
    then nextStep s x = 0
    else if (s.reg x).celim.toNat < (s.reg x).ceCount then nextStep s x = (s.reg x).step - 1
    else nextStep s x = if (s.reg x).step < 12 then (s.reg x).step + 1 else (s.reg x).step := by
  simp only [← uvHolds_iff, nextStep]
  cases uvHolds s x
  · rfl
  · by_cases hc : (s.reg x).celim.toNat < (s.reg x).ceCount <;> simp [hc]

/-! Metering. -/

/-- R42: an account saturates. -/
theorem toNat_charge (n : BitVec 64) (e : Nat) :
    (charge n (BitVec.ofNat 64 (Nat.min (2 ^ 64 - 1) e))).toNat = min (2 ^ 64 - 1) (n.toNat + e) := by
  have hn := n.isLt
  have he : (BitVec.ofNat 64 (Nat.min (2 ^ 64 - 1) e)).toNat = min (2 ^ 64 - 1) e :=
    Nat.mod_eq_of_lt (Nat.lt_of_le_of_lt (Nat.min_le_left _ _) (by decide))
  unfold charge
  rw [he]
  split
  · change 2 ^ 64 - 1 = _; omega
  · rw [BitVec.toNat_add, he]; omega

/-- R43: an account other than the house's is charged for its own use alone. -/
theorem energyOf_eq_zero {s : State} {k : Nat} (hk : k < 16) (hu : ∀ u, u < 102 → tget s.meter (32 * u + k) 0 = 0) : energyOf s k = 0 := by
  have hshares := List.foldlRecOn (motive := (· = 0)) (List.range 102) (fun n u =>
    let v := tget s.meter (32 * u + k) 0
    if v = 0 then n else n + Config.energy u s.now * v / usedAll s u) rfl
    (fun n hn u hmem => by simp [hu u (List.mem_range.1 hmem), hn])
  rw [energyOf, if_neg (Nat.ne_of_lt hk)]
  exact hshares

/-- R42, R43: the accounts after the metering. -/
def metered (s : State) : Table (BitVec 64) :=
  (List.range 17).foldl (fun t a => tset t a (charge (tget t a 0) (BitVec.ofNat 64 (Nat.min (2 ^ 64 - 1) (energyOf s a))))) s.sh.enacct

theorem execEnergyMeter_eq (s : State) : execEnergyMeter s = .next { s with meter := [], sh := { s.sh with enacct := metered s } } := by
  simp only [execEnergyMeter, modSh, metered]

theorem toNat_metered (s : State) {k : Nat} (hk : k < 17) :
    (tget (metered s) k 0).toNat = min (2 ^ 64 - 1) ((tget s.sh.enacct k 0).toNat + energyOf s k) := by
  rw [metered, tget_foldl_tset_tget (fun a n => charge n (BitVec.ofNat 64 (Nat.min (2 ^ 64 - 1) (energyOf s a)))) 0 List.nodup_range,
    if_pos (List.mem_range.2 hk), toNat_charge]

/-- R43: the metering changes the meter and the accounts alone. -/
theorem execEnergyMeter_meets (s : State) :
    ∃ t, execEnergyMeter s = .next t ∧ t = { s with meter := [], sh := { s.sh with enacct := t.sh.enacct } } ∧
      ∀ k, k < 17 → (tget t.sh.enacct k 0).toNat = min (2 ^ 64 - 1) ((tget s.sh.enacct k 0).toNat + energyOf s k) ∧
        (k < 16 → (∀ u, u < 102 → tget s.meter (32 * u + k) 0 = 0) → energyOf s k = 0) := by
  have haccts := fun k hk => toNat_metered (k := k) s hk
  have hmeter := execEnergyMeter_eq s
  -- named, so that no unfolding of the accounts is tried
  generalize metered s = l at haccts hmeter
  exact ⟨_, hmeter, rfl, fun k hk => ⟨haccts k hk, energyOf_eq_zero⟩⟩

end Sys2Proof.Proofs
end

section
/-! The clock of a core into which filler is injected (R30, R36, R39): a cycle in progress only grows, so that it is still in progress. -/

namespace Sys2Proof.Proofs
open Sys2Proof.Machine Sys2Proof.Laws

/-- R36: what one work adds to the length of the cycle that begins at CYC `n`. -/
def flightTicks (n m : Nat) (x : TClass × Nat × Nat) : Nat := if x.2.1 ≤ n ∧ n < x.2.2 then Nat.max m (classTicks x.1) else m

theorem cycleTicks_eq (k : Core) (n : Nat) : cycleTicks k n = k.tail.foldl (flightTicks n) (if k.gath then 5 else 4) := rfl

theorem le_foldl_flightTicks (n : Nat) (l : List (TClass × Nat × Nat)) (m : Nat) : m ≤ l.foldl (flightTicks n) m := by
  refine foldl_keeps (m ≤ ·) (flightTicks n) (fun v x hv => ?_) l m (Nat.le_refl m)
  unfold flightTicks
  split
  · exact Nat.le_trans hv (Nat.le_max_left ..)
  · exact hv

/-- Work that has ended by CYC `n` makes no cycle longer. -/
theorem foldl_flightTicks_ended {n : Nat} {l : List (TClass × Nat × Nat)} (h : ∀ x ∈ l, x.2.2 ≤ n) (m : Nat) : l.foldl (flightTicks n) m = m :=
  List.foldlRecOn (motive := (· = m)) l (flightTicks n) rfl
    (fun v hv x hx => by rw [flightTicks, if_neg (by have := h x hx; omega), hv])

theorem le_tailEnd {l : List (TClass × Nat × Nat)} {x : TClass × Nat × Nat} (hx : x ∈ l) : x.2.2 ≤ tailEnd l := by
  obtain ⟨a, b, rfl⟩ := List.append_of_mem hx
  rw [tailEnd, List.foldl_append, List.foldl_cons]
  exact foldl_keeps (x.2.2 ≤ ·) (fun m y => Nat.max m y.2.2) (fun v y hv => Nat.le_trans hv (Nat.le_max_left ..)) b _ (Nat.le_max_right ..)

theorem cycleTicks_of_tailEnd_le {k : Core} {n : Nat} (h : tailEnd k.tail ≤ n) : cycleTicks k n = if k.gath then 5 else 4 :=
  foldl_flightTicks_ended (fun _ hx => Nat.le_trans (le_tailEnd hx) h) _

/-- R39: the ticks into a cycle are fewer than its length. -/
theorem runClock_snd_lt (k : Core) (fuel n t : Nat) : (runClock k fuel n t).2 < cycleTicks k (runClock k fuel n t).1 := by
  induction fuel generalizing n t with
  | zero =>
    refine Nat.lt_of_lt_of_le (Nat.mod_lt t ?_) (le_foldl_flightTicks _ k.tail _)
    split <;> decide
  | succ fuel ih =>
    rw [runClock]
    split
    · assumption
    · exact ih ..

theorem runClock_snd_le (k : Core) (fuel n t : Nat) : (runClock k fuel n t).2 ≤ t := by
  induction fuel generalizing n t with
  | zero => exact Nat.mod_le ..
  | succ fuel ih =>
    rw [runClock]
    split
    · exact Nat.le_refl t
    · exact Nat.le_trans (ih ..) (Nat.sub_le ..)

/-- R39: within the first cycle since the counter was brought up, the clock stands at that cycle. -/
theorem coreClock_of_lt {k : Core} {now : Nat} (h : now - k.sync < cycleTicks k k.cyc) : coreClock k now = (k.cyc, now - k.sync) := by
  rw [coreClock]
  cases hf : tailEnd k.tail - k.cyc with
  | zero =>
    rw [cycleTicks_of_tailEnd_le (Nat.le_of_sub_eq_zero hf)] at h
    simp only [runClock, Nat.div_eq_of_lt h, Nat.mod_eq_of_lt h, Nat.add_zero]
  | succ fuel => rw [runClock, if_pos h]

/-- R37: new work leaves the cycle in progress at least as long as it was: what has left flight did not lengthen it. -/
theorem cycleTicks_le_addTail (now : Nat) (cls : TClass) (n : Nat) (k : Core) :
    cycleTicks k (coreClock k now).1 ≤ cycleTicks (addTail now cls n k) (coreClock k now).1 := by
  let c := (coreClock k now).1
  have hfilter : (k.tail.filter (fun x => decide (c < x.2.2))).foldl (flightTicks c) (if k.gath then 5 else 4) = cycleTicks k c := by
    rw [List.foldl_filter, cycleTicks_eq]
    congr 1
    funext m x
    by_cases hx : c < x.2.2 <;> simp [flightTicks, hx]
  calc cycleTicks k c = _ := hfilter.symm
    _ ≤ _ := le_foldl_flightTicks c [(cls, c + 0, c + n)] _
    _ = cycleTicks (addTail now cls n k) c := (List.foldl_append ..).symm

/-- R36, R39: work put into flight leaves the clock of its core where it stands. -/
theorem coreClock_addTail (now : Nat) (cls : TClass) (n : Nat) (k : Core) : coreClock (addTail now cls n k) now = coreClock k now := by
  have hticks : (coreClock k now).2 ≤ now := Nat.le_trans (runClock_snd_le ..) (Nat.sub_le ..)
  have hsync : now - (addTail now cls n k).sync = (coreClock k now).2 := Nat.sub_sub_self hticks
  have hlt : now - (addTail now cls n k).sync < cycleTicks (addTail now cls n k) (coreClock k now).1 :=
    hsync ▸ Nat.lt_of_lt_of_le (runClock_snd_lt ..) (cycleTicks_le_addTail now cls n k)
  rw [coreClock_of_lt hlt, hsync]
  rfl

/-- R43: a note of use changes the meter alone. -/
theorem note_eq (kind acct n : Nat) (s : State) : ∃ m, note kind acct n s = { s with meter := m } := by
  unfold note
  split
  · exact ⟨_, rfl⟩
  · exact ⟨_, rfl⟩

/-- R30: the cores on which filler of class N runs for `n` cycles. -/
def fillCores (s : State) (cs : List Nat) (n : Nat) : Table Core := cs.foldl (fun t c => tset t c (addTail s.now .n n (s.core c))) s.cores

theorem execBallastInjection_eq (x : Fin 4) (s : State) :
    ∃ cs n m, execBallastInjection x s = .next { s with cores := fillCores s cs n, free := s.free + 1, meter := m } := by
  let cs := ((railClusters s x.val).flatMap (fun k => (List.range 8).map (fun j => 8 * k + j))).foldl insertNat
    ((s.cores.map (·.1)).filter (fun c => (s.cluster (clusterOf c)).rail == x.val))
  obtain ⟨m, hm⟩ := note_eq 101 (s.reg x.val).gone 1 { s with free := s.free + 1, cores := fillCores s cs (Config.choice s.free) }
  exact ⟨cs, _, m, congrArg Host.Outcome.next hm⟩

/-- A core is filled, or as it was. -/
theorem core_filled (s : State) (cs : List Nat) (n m c : Nat) (meter : Table Nat) :
    State.core { s with cores := fillCores s cs n, free := m, meter := meter } c = if c ∈ cs then addTail s.now .n n (s.core c) else s.core c := by
  change (tget? (fillCores s cs n) c).getD _ = _
  rw [fillCores, tget?_foldl_tset (fun c => addTail s.now .n n (s.core c))]
  split
  · rfl
  · rfl

/-- R30: ballast leaves every clock where it is. -/
theorem execBallastInjection_meets (x : Fin 4) (s : State) :
    ∃ t, execBallastInjection x s = .next t ∧ t = { s with cores := t.cores, free := s.free + 1, meter := t.meter } ∧
      ∀ c, t.cyc c = s.cyc c ∧ t.etm c = s.etm c ∧
        t.core c = { s.core c with tail := (t.core c).tail, cyc := (t.core c).cyc, sync := (t.core c).sync } := by
  obtain ⟨cs, n, m, ht⟩ := execBallastInjection_eq x s
  refine ⟨_, ht, rfl, fun c => ?_⟩
  rw [State.cyc, State.etm, core_filled]
  split
  · rw [coreClock_addTail]
    exact ⟨rfl, rfl, rfl⟩
  · exact ⟨rfl, rfl, rfl⟩

end Sys2Proof.Proofs
end

section
/-! Clusters that lose power (R22, R28): what goes with them, and what parking the groups of a stranded context leaves. -/

namespace Sys2Proof.Proofs
open Sys2Proof.Machine Sys2Proof.Laws

theorem clusterOf_lt (c : Nat) : clusterOf c < 96 := by
  unfold clusterOf
  omega

theorem mem_railClusters {s : State} {x k : Nat} : k ∈ railClusters s x ↔ k < 96 ∧ (s.cluster k).rail = x := by
  simp [railClusters]

/-- R28: the owner of a LAYER-mode or FIFO-mode bank of a lost cluster held it. -/
theorem mem_bankHolders {s : State} {ks : List Nat} {k : Nat} {b : Nat × Bank} (hk : k ∈ ks) (hb : b ∈ (s.cluster k).banks)
    (hmode : b.2.mode ≠ 0) : b.2.owner ∈ bankHolders s ks := by
  refine List.mem_eraseDups.2 (List.mem_flatMap.2 ⟨k, hk, List.mem_filterMap.2 ⟨b, hb, ?_⟩⟩)
  rw [if_pos (bne_iff_ne.2 hmode)]

/-! Memory and blocks: three folds, over the clusters, the groups and the blocks that are lost. -/

/-- R28: the blocks resident on some clusters. -/
def lostBlocks (s : State) (ks : List Nat) : List Nat := ((residents s).filter (fun c => ks.contains (clusterOf c.2.core))).map (·.1)

theorem mem_lostBlocks {s : State} {ks : List Nat} {b : Nat} {y : Block} (hb : s.blk? b = some y) (hlife : y.life = .resident)
    (hks : clusterOf y.core ∈ ks) : b ∈ lostBlocks s ks :=
  List.mem_map.2 ⟨(b, y), List.mem_filter.2 ⟨List.mem_filter.2 ⟨mem_of_tget? hb, by simp [hlife]⟩, by simpa using hks⟩, rfl⟩

/-- R28 step 1: the tiers of the clusters are cleared. -/
def clearTiers (s : State) (ks : List Nat) : State :=
  foldS (fun k s => clearRange s (layLoc k 0) (2 ^ 26)) (ks.filter (fun k => (tget? s.clusters k).isSome)) s

/-- R28 step 4: a lost block leaves its scratch and is to be resumed from its phase records. -/
def endBlock (b : Nat) (s : State) : State := modBlk (clearRange s (scrLoc b 0) (2 ^ 23)) b loseBlock

/-- R28: memory and blocks after the loss, with the writes of the operations of some groups dropped. -/
def endLost (s : State) (ks uids : List Nat) : State :=
  foldS endBlock (lostBlocks s ks) (foldS (fun u s => dropWrites s u) uids (clearTiers s ks))

/-- Everything but memory and the blocks. -/
def besideLoss (s : State) : State := { s with mem := [], hist := [], poison := [], latent := [], blocks := [] }

theorem besideLoss_endBlock (b : Nat) (s : State) : besideLoss (endBlock b s) = besideLoss s := by
  unfold endBlock modBlk
  split
  · rfl
  · rfl

theorem besideLoss_endLost (s : State) (ks uids : List Nat) : besideLoss (endLost s ks uids) = besideLoss s :=
  calc besideLoss (endLost s ks uids) = _ := foldS_same besideLoss endBlock besideLoss_endBlock _ _
    _ = _ := foldS_same besideLoss (fun u s => dropWrites s u) (fun _ _ => rfl) _ _
    _ = _ := foldS_same besideLoss (fun k s => clearRange s (layLoc k 0) (2 ^ 26)) (fun _ _ => rfl) _ _

/-- R28: the clusters after the loss, and the cores. -/
def lostClusterTable (s : State) (ks : List Nat) : Table Cluster := ks.foldl (fun t k => tset t k (clusterLost s.now k (s.cluster k))) s.clusters
def lostCoreTable (s : State) (ks : List Nat) : Table Core :=
  s.cores.map (fun c => if ks.contains (clusterOf c.1) then (c.1, coreLost s.now c.1 c.2) else c)

/-- The loss of clusters, part by part of the device. -/
theorem loseClusters_eq (s : State) (ks : List Nat) : ∃ uids hist poison latent migs, loseClusters s ks =
    { s with
      mem := (endLost s ks uids).mem, blocks := (endLost s ks uids).blocks, clusters := lostClusterTable s ks, cores := lostCoreTable s ks,
      hist := hist, poison := poison, latent := latent, migs := migs } := by
  let uids := (lostBlocks s ks).flatMap (fun b => match (clearTiers s ks).blk? b with | some x => x.groups.map (·.uid) | none => [])
  let e := endLost s ks uids
  have hrest : e = { besideLoss e with mem := e.mem, hist := e.hist, poison := e.poison, latent := e.latent, blocks := e.blocks } := rfl
  rw [besideLoss_endLost] at hrest
  have hloss : ∃ migs latent, loseClusters s ks =
      { e with clusters := lostClusterTable e ks, cores := lostCoreTable e ks, migs := migs, latent := latent } := ⟨_, _, rfl⟩
  obtain ⟨migs, latent, hloss⟩ := hloss
  have hclusters : lostClusterTable e ks = lostClusterTable s ks := by rw [hrest]; rfl
  have hcores : lostCoreTable e ks = lostCoreTable s ks := by rw [hrest]; rfl
  refine ⟨uids, e.hist, e.poison, latent, migs, ?_⟩
  rw [hloss, hclusters, hcores, hrest]
  rfl

section
variable (s : State) (ks : List Nat)

@[simp] theorem loseClusters_now : (loseClusters s ks).now = s.now := by obtain ⟨_, _, _, _, _, h⟩ := loseClusters_eq s ks; rw [h]
@[simp] theorem loseClusters_regs : (loseClusters s ks).regs = s.regs := by obtain ⟨_, _, _, _, _, h⟩ := loseClusters_eq s ks; rw [h]
@[simp] theorem loseClusters_ctxs : (loseClusters s ks).ctxs = s.ctxs := by obtain ⟨_, _, _, _, _, h⟩ := loseClusters_eq s ks; rw [h]
@[simp] theorem loseClusters_portA : (loseClusters s ks).portA = s.portA := by obtain ⟨_, _, _, _, _, h⟩ := loseClusters_eq s ks; rw [h]
@[simp] theorem loseClusters_portB : (loseClusters s ks).portB = s.portB := by obtain ⟨_, _, _, _, _, h⟩ := loseClusters_eq s ks; rw [h]
@[simp] theorem loseClusters_clusters : (loseClusters s ks).clusters = lostClusterTable s ks := by
  obtain ⟨_, _, _, _, _, h⟩ := loseClusters_eq s ks; rw [h]
@[simp] theorem loseClusters_cores : (loseClusters s ks).cores = lostCoreTable s ks := by
  obtain ⟨_, _, _, _, _, h⟩ := loseClusters_eq s ks; rw [h]

/-- R28: a lost cluster starts anew; every other cluster is as it was. -/
theorem cluster_loseClusters (k : Nat) :
    (loseClusters s ks).cluster k = if k ∈ ks then clusterLost s.now k (s.cluster k) else s.cluster k := by
  rw [State.cluster, tget, loseClusters_clusters, lostClusterTable, tget?_foldl_tset (fun k => clusterLost s.now k (s.cluster k))]
  split
  · rfl
  · rfl

end

/-- R28, R39: the counters of a core count from now. -/
def countsFromNow (s : State) (c : Nat) : Prop :=
  s.now ≤ (s.core c).t0 ∧ s.now ≤ (s.core c).sync ∧ (s.core c).cyc = 0 ∧ (s.core c).tail = []

theorem clocks_of_countsFromNow {s : State} {c : Nat} (h : countsFromNow s c) : s.etm c = 0 ∧ s.cyc c = 0 := by
  obtain ⟨ht0, hsync, hcyc, htail⟩ := h
  have hclock : coreClock (s.core c) s.now = (0, 0) := by
    have hzero : s.now - (s.core c).sync = 0 := Nat.sub_eq_zero_of_le hsync
    simp [coreClock, htail, hcyc, hzero, tailEnd, runClock]
  refine ⟨?_, congrArg Prod.fst hclock⟩
  rw [State.etm, hclock]
  exact Nat.sub_eq_zero_of_le ht0

/-- R28 step 1: CYC and ETM of a core on a lost cluster start anew, whether or not a table lists the core. -/
theorem countsFromNow_loseClusters (s : State) {ks : List Nat} {c : Nat} (hc : clusterOf c ∈ ks) : countsFromNow (loseClusters s ks) c := by
  unfold countsFromNow
  have hcore := tget?_map (fun c => ks.contains (clusterOf c)) (coreLost s.now) s.cores c
  have hup : s.now ≤ coreUp (loseClusters s ks) c := by
    rw [coreUp, cluster_loseClusters, if_pos hc]
    exact Nat.le_max_right ..
  rw [State.core, tget, loseClusters_cores, lostCoreTable, hcore, loseClusters_now]
  cases tget? s.cores c with
  | none => exact ⟨hup, hup, rfl, rfl⟩
  | some k =>
    rw [Option.map_some, if_pos (List.contains_iff_mem.2 hc)]
    exact ⟨Nat.le_refl _, Nat.le_refl _, rfl, rfl⟩

/-- A range of memory reads zero. -/
def zeroFrom (a n : Nat) (s : State) : Prop := ∀ x, a ≤ x → x < a + n → mget s.mem x = 0

theorem zeroFrom_clearRange (a n : Nat) (s : State) : zeroFrom a n (clearRange s a n) := by
  intro x ha hn
  rw [clearRange, mget_mzero, if_pos ⟨ha, hn⟩]

theorem zeroFrom_clearRange_of {a n : Nat} {s : State} (h : zeroFrom a n s) (b m : Nat) : zeroFrom a n (clearRange s b m) := by
  intro x ha hn
  rw [clearRange, mget_mzero]
  split
  · rfl
  · exact h x ha hn

/-- R28 step 1: the tier of a cluster that was in use reads zero. -/
theorem zeroFrom_loseClusters (s : State) {ks : List Nat} {k : Nat} (hk : k ∈ ks) (hlisted : tget? s.clusters k ≠ none) :
    zeroFrom (layLoc k 0) (2 ^ 26) (loseClusters s ks) := by
  obtain ⟨uids, _, _, _, _, hloss⟩ := loseClusters_eq s ks
  have htiers : zeroFrom (layLoc k 0) (2 ^ 26) (clearTiers s ks) :=
    foldS_reaches (fun _ => True) (zeroFrom (layLoc k 0) (2 ^ 26)) (fun k s => clearRange s (layLoc k 0) (2 ^ 26))
      (fun _ _ _ => trivial) (fun j _ h => zeroFrom_clearRange_of h (layLoc j 0) (2 ^ 26)) (fun t _ => zeroFrom_clearRange _ _ t)
      (List.mem_filter.2 ⟨hk, Option.isSome_iff_ne_none.2 hlisted⟩) s trivial
  have hdrop := foldS_keeps (zeroFrom (layLoc k 0) (2 ^ 26)) (fun u s => dropWrites s u) (fun _ _ h => h) uids _ htiers
  have hend : zeroFrom (layLoc k 0) (2 ^ 26) (endLost s ks uids) :=
    foldS_keeps (zeroFrom (layLoc k 0) (2 ^ 26)) endBlock (fun b t h => by
      intro a
      rw [endBlock, modBlk_mem]
      exact zeroFrom_clearRange_of h (scrLoc b 0) (2 ^ 23) a) _ _ hdrop
  rw [hloss]
  exact hend

/-- R28 step 4: the block is to be resumed from its phase records. -/
def toResume (b : Nat) (s : State) : Prop := ∃ z, s.blk? b = some z ∧ z.life = .saved ∧ z.form = 4

theorem blk?_endBlock (b k : Nat) (s : State) : (endBlock b s).blk? k = if k = b then (s.blk? b).map loseBlock else s.blk? k :=
  blk?_modBlk ..

theorem isSome_blk?_endBlock (b k : Nat) (s : State) : ((endBlock b s).blk? k).isSome = (s.blk? k).isSome := by
  rw [blk?_endBlock]
  split
  · next hk => rw [hk, Option.isSome_map]
  · rfl

theorem toResume_endBlock {b : Nat} {s : State} (h : (s.blk? b).isSome) : toResume b (endBlock b s) := by
  obtain ⟨y, hy⟩ := Option.isSome_iff_exists.1 h
  exact ⟨loseBlock y, by rw [blk?_endBlock, if_pos rfl, hy, Option.map_some], rfl, rfl⟩

/-- A block that is to be resumed stays so as any block is lost. -/
theorem toResume_endBlock_of {b : Nat} {s : State} (h : toResume b s) (k : Nat) : toResume b (endBlock k s) := by
  obtain ⟨z, hz, hsaved⟩ := h
  by_cases hk : b = k
  · subst hk
    exact toResume_endBlock (by rw [hz]; rfl)
  · exact ⟨z, by rw [blk?_endBlock, if_neg hk, hz], hsaved⟩

theorem toResume_loseClusters {s : State} {ks : List Nat} {b : Nat} {y : Block} (hb : s.blk? b = some y) (hlife : y.life = .resident)
    (hks : clusterOf y.core ∈ ks) : toResume b (loseClusters s ks) := by
  obtain ⟨uids, _, _, _, _, hloss⟩ := loseClusters_eq s ks
  have hstart : ((foldS (fun u s => dropWrites s u) uids (clearTiers s ks)).blk? b).isSome := by
    rw [foldS_same (fun s => s.blk? b) (fun u s => dropWrites s u) (fun _ _ => rfl), clearTiers,
      foldS_same (fun s => s.blk? b) (fun k s => clearRange s (layLoc k 0) (2 ^ 26)) (fun _ _ => rfl), hb]
    rfl
  have hend : toResume b (endLost s ks uids) :=
    foldS_reaches (fun s => (s.blk? b).isSome) (toResume b) endBlock
      (fun k t h => by rw [isSome_blk?_endBlock]; exact h) (fun k t h => toResume_endBlock_of h k) (fun t h => toResume_endBlock h)
      (mem_lostBlocks hb hlife hks) _ hstart
  rw [hloss]
  exact hend

/-! What parking leaves. -/

/-- What parking a group leaves of the device, of core `c` and of block `b`. -/
def besideParks (c b : Nat) (s : State) :=
  (s.now, s.mem, s.clusters, s.regs, ((s.core c).t0, (s.core c).sync, (s.core c).cyc, (s.core c).tail), (s.blk? b).map (fun x => (x.life, x.form)))

theorem core_setCore_ne (s : State) {c j : Nat} (h : j ≠ c) (k : Core) : (setCore s c k).core j = s.core j := tget_tset_ne _ _ _ _ _ h

theorem besideParks_leaveLane (c b : Nat) (s : State) (k g : Nat) : besideParks c b (leaveLane s k g) = besideParks c b s := by
  unfold leaveLane
  split
  · rfl
  · next x _ =>
    split
    · by_cases hc : c = x.core
      · subst hc
        simp only [besideParks, modCore, core_setCore]
        rfl
      · simp only [besideParks, modCore, core_setCore_ne _ hc]
        rfl
    · rfl

theorem besideParks_modGrp (c b : Nat) (s : State) (k g : Nat) (f : Group → Group) : besideParks c b (modGrp s k g f) = besideParks c b s := by
  have hcore : (modGrp s k g f).core c = s.core c := by simp [State.core, coreUp, State.cluster]
  have hblk : ((modGrp s k g f).blk? b).map (fun x => (x.life, x.form)) = (s.blk? b).map (fun x => (x.life, x.form)) := by
    by_cases hk : b = k
    · subst hk; rw [blk?_modGrp, Option.map_map]; rfl
    · rw [blk?_modGrp_ne _ _ _ _ _ hk]
  simp only [besideParks, hcore, hblk, modGrp_now, modGrp_mem, modGrp_clusters, modGrp_regs]

theorem besideParks_park (c b : Nat) (s : State) (k g : Nat) (key : ParkKey) : besideParks c b (park s k g key) = besideParks c b s := by
  unfold park
  split
  · rfl
  · rw [besideParks_modGrp, besideParks_leaveLane]

/-- R28 step 5: what every park leaves is as the mark on the context left it. -/
theorem strand_same {β : Type} (μ : State → β) (hpark : ∀ t k g, μ (park t k g .rail) = μ t) (s : State) (w : Word) :
    μ (strand s w) = μ (modCtx s w (fun c => { c with unrecoverable := true })) := by
  unfold strand
  exact foldS_same μ _ (fun (z : Nat × Block) t => foldS_same μ _ (fun (y : Nat × Group) t => hpark t z.1 y.1) _ t) _ _

theorem besideParks_modCtx (c b : Nat) (s : State) (w : Word) (f : Context → Context) : besideParks c b (modCtx s w f) = besideParks c b s := by
  unfold modCtx
  split
  · rfl
  · rfl

theorem besideParks_strand (c b : Nat) (s : State) (w : Word) : besideParks c b (strand s w) = besideParks c b s :=
  (strand_same _ (fun t k g => besideParks_park c b t k g .rail) s w).trans (besideParks_modCtx ..)

theorem besideParks_railEntry (c b : Nat) (s : State) (x : Nat) (w : Word) (u : Bool) :
    besideParks c b (railEntry s x w u) = besideParks c b s := by
  unfold railEntry
  split
  · rfl
  · next y _ =>
    split
    · rfl
    · cases y.port <;> rfl

/-! Contexts. -/

theorem leaveLane_ctxs (s : State) (b g : Nat) : (leaveLane s b g).ctxs = s.ctxs := by
  unfold leaveLane
  split
  · rfl
  · split <;> rfl

theorem park_ctxs (s : State) (b g : Nat) (key : ParkKey) : (park s b g key).ctxs = s.ctxs := by
  unfold park
  split
  · rfl
  · rw [modGrp_ctxs, leaveLane_ctxs]

theorem railEntry_ctxs (s : State) (x : Nat) (w : Word) (u : Bool) : (railEntry s x w u).ctxs = s.ctxs := by
  unfold railEntry
  split
  · rfl
  · split
    · rfl
    · exact modTrap_ctxs ..

theorem ctx?_modCtx_ne (s : State) {c w : Word} (h : w ≠ c) (f : Context → Context) : (modCtx s c f).ctx? w = s.ctx? w := by
  unfold modCtx
  split
  · exact tget?_tset_ne _ _ _ _ (mt BitVec.eq_of_toNat_eq h)
  · rfl

/-- R28 step 5: a stranded context is marked; every other context is as it was. -/
theorem ctx?_strand (s : State) (h w : Word) :
    (strand s h).ctx? w = (s.ctx? w).map (fun c => if w = h then { c with unrecoverable := true } else c) := by
  have hparks : (strand s h).ctx? w = (modCtx s h (fun c => { c with unrecoverable := true })).ctx? w :=
    congrArg (tget? · w.toNat) (strand_same State.ctxs (fun t k g => park_ctxs t k g .rail) s h)
  rw [hparks]
  by_cases hw : w = h
  · subst hw; simp
  · simp [ctx?_modCtx_ne s hw, hw]

/-- R28 step 5: the context is not resumed. -/
def stranded (w : Word) (s : State) : Prop := ∃ d, s.ctx? w = some d ∧ d.unrecoverable = true

theorem stranded_foldS {l : List Word} {w : Word} (hw : w ∈ l) (s : State) (hs : (s.ctx? w).isSome) :
    stranded w (foldS (fun h s => strand s h) l s) := by
  refine foldS_reaches (fun s => (s.ctx? w).isSome) (stranded w) _ (fun h t ht => ?_) (fun h t ht => ?_) (fun t ht => ?_) hw s hs
  · simpa [ctx?_strand] using ht
  · obtain ⟨d, hd, hu⟩ := ht
    refine ⟨_, by rw [ctx?_strand, hd]; rfl, ?_⟩
    split
    · rfl
    · exact hu
  · obtain ⟨d, hd⟩ := Option.isSome_iff_exists.1 ht
    exact ⟨{ d with unrecoverable := true }, by rw [ctx?_strand, hd, Option.map_some, if_pos rfl], rfl⟩

/-! A rail is shut. -/

/-- R28: its regulator is off, and its clusters are lost. -/
def railLost (s : State) (x : Nat) : State :=
  loseClusters (modReg s x (fun r => { r with on := false, shut := true, step := 0 })) (railClusters s x)

/-- R28: after the loss the trap entries are posted and the stranded contexts park. -/
theorem shutRail_eq (s : State) (x : Nat) : ∃ l : List Nat, ∃ u : Nat → Bool, shutRail s x =
    foldS (fun h s => strand s h) (bankHolders s (railClusters s x))
      (foldS (fun n s => railEntry s x (BitVec.ofNat 32 n) (u n)) l (railLost s x)) := ⟨_, _, rfl⟩

theorem besideParks_shutRail (c b : Nat) (s : State) (x : Nat) : besideParks c b (shutRail s x) = besideParks c b (railLost s x) := by
  obtain ⟨l, u, h⟩ := shutRail_eq s x
  rw [h, foldS_same (besideParks c b) _ (fun h t => besideParks_strand c b t h),
    foldS_same (besideParks c b) _ (fun n t => besideParks_railEntry c b t x _ _)]

theorem stranded_shutRail {s : State} {x : Nat} {w : Word} (hw : w ∈ bankHolders s (railClusters s x)) (hs : (s.ctx? w).isSome) :
    stranded w (shutRail s x) := by
  obtain ⟨l, u, h⟩ := shutRail_eq s x
  rw [h]
  refine stranded_foldS hw _ ?_
  have hctxs : (railLost s x).ctxs = s.ctxs := loseClusters_ctxs ..
  rw [State.ctx?, foldS_same State.ctxs _ (fun n t => railEntry_ctxs t x _ _), hctxs]
  exact hs

section
variable (s : State) (x : Nat)

theorem reg_shutRail : (shutRail s x).reg x = { s.reg x with on := false, shut := true, step := 0 } := by
  have hregs : (shutRail s x).regs = (railLost s x).regs := congrArg (·.2.2.2.1) (besideParks_shutRail 0 0 s x)
  rw [State.reg, hregs, railLost, loseClusters_regs]
  exact reg_modReg ..

theorem cluster_shutRail (k : Nat) :
    (shutRail s x).cluster k = if k ∈ railClusters s x then clusterLost s.now k (s.cluster k) else s.cluster k := by
  have hclusters : (shutRail s x).clusters = (railLost s x).clusters := congrArg (·.2.2.1) (besideParks_shutRail 0 0 s x)
  rw [State.cluster, hclusters]
  exact cluster_loseClusters ..

theorem mem_shutRail : (shutRail s x).mem = (railLost s x).mem := congrArg (·.2.1) (besideParks_shutRail 0 0 s x)

variable {s x}

theorem clocks_shutRail {c : Nat} (hc : clusterOf c ∈ railClusters s x) : (shutRail s x).etm c = 0 ∧ (shutRail s x).cyc c = 0 := by
  have hkept := besideParks_shutRail c 0 s x
  obtain ⟨ht0, hsync, hcyc, htail⟩ := countsFromNow_loseClusters (modReg s x (fun r => { r with on := false, shut := true, step := 0 })) hc
  simp only [besideParks, Prod.mk.injEq] at hkept
  obtain ⟨hnow, _, _, _, ⟨et0, esync, ecyc, etail⟩, _⟩ := hkept
  refine clocks_of_countsFromNow ⟨?_, ?_, ecyc.trans hcyc, etail.trans htail⟩
  · rw [hnow, et0]; exact ht0
  · rw [hnow, esync]; exact hsync

theorem toResume_shutRail {b : Nat} {y : Block} (hb : s.blk? b = some y) (hlife : y.life = .resident)
    (hks : clusterOf y.core ∈ railClusters s x) : toResume b (shutRail s x) := by
  have hkept : ((shutRail s x).blk? b).map (fun z => (z.life, z.form)) = ((railLost s x).blk? b).map (fun z => (z.life, z.form)) :=
    congrArg (·.2.2.2.2.2) (besideParks_shutRail 0 b s x)
  obtain ⟨z, hz, hsaved, hform⟩ : toResume b (railLost s x) :=
    toResume_loseClusters (s := modReg s x (fun r => { r with on := false, shut := true, step := 0 })) hb hlife hks
  rw [hz, Option.map_some, Option.map_eq_some_iff] at hkept
  obtain ⟨w, hw, hlf⟩ := hkept
  obtain ⟨hl, hf⟩ := Prod.mk.inj hlf
  exact ⟨w, hw, hl.trans hsaved, hf.trans hform⟩

end

/-- R27, R28: a shut rail loses its clusters' tiers, clocks and blocks, strands the holders of their banks, and leaves every other cluster. -/
theorem shutRail_meets (s : State) (x : Nat) :
    let t := shutRail s x
    (t.reg x).on = false ∧ (t.reg x).shut = true ∧ (t.reg x).step = 0 ∧
    (∀ k, (k < 96 ∧ (s.cluster k).rail = x → (t.cluster k).banks = [] ∧ (t.cluster k).grans = [] ∧ (t.cluster k).queues = [] ∧
        (t.cluster k).rail = x ∧ (∀ c, clusterOf c = k → t.etm c = 0 ∧ t.cyc c = 0) ∧
        (tget? s.clusters k ≠ none → ∀ a, layLoc k 0 ≤ a → a < layLoc k 0 + 2 ^ 26 → mget t.mem a = 0)) ∧
      ((s.cluster k).rail ≠ x → t.cluster k = s.cluster k)) ∧
    (∀ b y, s.blk? b = some y → y.life = .resident → (s.cluster (clusterOf y.core)).rail = x → toResume b t) ∧
    (∀ k b c, k < 96 → (s.cluster k).rail = x → b ∈ (s.cluster k).banks → b.2.mode ≠ 0 → s.ctx? b.2.owner = some c →
      stranded b.2.owner t) := by
  have hreg := reg_shutRail s x
  refine ⟨congrArg Regulator.on hreg, congrArg Regulator.shut hreg, congrArg Regulator.step hreg,
    fun k => ⟨fun hk => ?_, fun hk => ?_⟩, fun b y hb hlife hrail => ?_,
    fun k b c hk hrail hb hmode hctx => ?_⟩
  · have hmem := mem_railClusters.2 hk
    rw [cluster_shutRail, if_pos hmem, mem_shutRail]
    exact ⟨rfl, rfl, rfl, hk.2, fun c hc => clocks_shutRail (hc ▸ hmem), zeroFrom_loseClusters (modReg s x _) hmem⟩
  · rw [cluster_shutRail, if_neg (fun hmem => hk (mem_railClusters.1 hmem).2)]
  · exact toResume_shutRail hb hlife (mem_railClusters.2 ⟨clusterOf_lt _, hrail⟩)
  · exact stranded_shutRail (mem_bankHolders (mem_railClusters.2 ⟨hk, hrail⟩) hb hmode) (by simp [hctx])

/-! Thermal shutdown. -/

/-- R158: an entry at the end of a trap ring's queue. -/
def queued (h : Held) (r : TrapRing) : TrapRing :=
  let full := !r.en || ringSize r ≤ ringUsed r + r.held.length
  if full && !h.own && 256 ≤ (r.held.filter (fun x => !x.own)).length then { r with ovf := true, drop := true }
  else { r with ovf := r.ovf || full, held := r.held ++ [h] }

theorem trap_postBoth (s : State) (hp : HPort) (bytes : List Byte) :
    ((postBoth s bytes).port hp).trap = queued { own := false, grp := none, bytes := bytes } (s.port hp).trap := by cases hp <;> rfl

/-- R158: a ring that is enabled and has room keeps the entry. -/
theorem held_queued {r : TrapRing} (h : Held) (hen : r.en = true) (hroom : ringUsed r + r.held.length < ringSize r) :
    (queued h r).held = r.held ++ [h] := by
  simp [queued, hen, Nat.not_le.2 hroom]

/-- R22, R159: the entry of KIND 0x09, with the die and its temperature in its detail. -/
def thermalEntry (s : State) (die : Fin 8) (temp : BitVec 16) : List Byte :=
  entryBytes 9 2 die.val 0xFF 0xFF 0xFF 0xFF 0xFF 0 s.now 0xFFFFFFFF 0 ([BitVec.ofNat 8 die.val, 0] ++ leBytes 2 temp.toNat)

theorem execThermalShutdown_eq (die : Fin 8) (temp : BitVec 16) (s : State) (hon : s.sh.railsOff = false) :
    ∃ ks, (∀ c ∈ residents s, clusterOf c.2.core ∈ ks) ∧ execThermalShutdown die temp s =
      .next (modSh (loseClusters (postBoth s (thermalEntry s die temp)) ks) (fun h => { h with railsOff := true })) := by
  let t := postBoth s (thermalEntry s die temp)
  refine ⟨(List.range 96).filter (fun k => (tget? t.clusters k).isSome || (residents t).any (fun c => clusterOf c.2.core == k) ||
    t.cores.any (fun c => clusterOf c.1 == k)), fun c hc => List.mem_filter.2 ⟨List.mem_range.2 (clusterOf_lt _), ?_⟩, ?_⟩
  · have hany : (residents t).any (fun z => clusterOf z.2.core == clusterOf c.2.core) = true := List.any_eq_true.2 ⟨c, hc, by simp⟩
    rw [hany, Bool.or_true, Bool.true_or]
  · simp only [execThermalShutdown, hon]
    rfl

/-- R22: a thermal shutdown loses every resident block, and posts its entry at both ports. -/
theorem execThermalShutdown_meets (die : Fin 8) (temp : BitVec 16) (s : State) (hon : s.sh.railsOff = false) :
    ∃ t, execThermalShutdown die temp s = .next t ∧ t.sh.railsOff = true ∧
      (∀ b y, s.blk? b = some y → y.life = .resident → toResume b t) ∧
      ∀ hp, (s.port hp).trap.en = true → (s.port hp).trap.held = [] → ringUsed (s.port hp).trap < ringSize (s.port hp).trap →
        (t.port hp).trap.held = [{ own := false, grp := none, bytes := thermalEntry s die temp }] := by
  obtain ⟨ks, hks, ht⟩ := execThermalShutdown_eq die temp s hon
  refine ⟨_, ht, rfl, fun b y hb hlife => ?_, fun hp hen hheld hroom => ?_⟩
  · exact toResume_loseClusters (s := postBoth s (thermalEntry s die temp)) hb hlife
      (hks (b, y) (List.mem_filter.2 ⟨mem_of_tget? hb, by simp [hlife]⟩))
  · have hport : (loseClusters (postBoth s (thermalEntry s die temp)) ks).port hp = (postBoth s (thermalEntry s die temp)).port hp := by
      cases hp
      · exact loseClusters_portA ..
      · exact loseClusters_portB ..
    change ((loseClusters (postBoth s (thermalEntry s die temp)) ks).port hp).trap.held = _
    rw [hport, trap_postBoth, held_queued _ hen (by rw [hheld]; exact hroom), hheld]
    rfl

end Sys2Proof.Proofs
end

section
/-! The power events of R22, R23, R28, R30, R33 and R43, together. -/

namespace Sys2Proof.Proofs
open Sys2Proof.Machine Sys2Proof.Laws

/-- Settles O43, event by event. A rail's loss turns on two facts: what is lost is swept out by three folds that touch memory and blocks
alone, and the parking of stranded contexts that follows leaves clocks, tiers and the blocks' form as the loss left them. Ballast turns
on the clock: new work only lengthens the cycle in progress, so that the core still stands in it. -/
theorem powerEvents : Obligations.power_events := by
  refine ⟨execBringUp_meets, fun _ _ => ⟨rfl, rfl⟩, ?rail, ?thermal, ?ballast, ?step, ?meter⟩
  case rail =>
    intro x s hup hon hoff
    have hshut : execRailShutdown x s = .next (shutRail s x.val) := by simp [execRailShutdown, hup, hon, hoff]
    exact ⟨_, hshut, shutRail_meets s x.val⟩
  case thermal =>
    intro die temp s hon
    obtain ⟨t, ht, hrails, hblocks, hports⟩ := execThermalShutdown_meets die temp s hon
    exact ⟨t, ht, hrails, hblocks, fun hp hen hheld hroom => ⟨_, hports hp hen hheld hroom, rfl, rfl⟩⟩
  case ballast =>
    intro x s
    exact execBallastInjection_meets x s
  case step =>
    intro x s
    exact ⟨nextStep s x.val, execUndervoltInterval_eq x s, nextStep_meets s x.val⟩
  case meter =>
    intro s
    exact execEnergyMeter_meets s

end Sys2Proof.Proofs
end

section
/-! Errors that patrol and refresh find (R61, R65, R192): a sector in which an error is found is marked poison and hides none any
more; besides, only the record of it is written. -/

namespace Sys2Proof.Proofs
open Sys2Proof.Machine Sys2Proof.Laws

/-! What a record, and the finding of an error, change. -/

theorem postBoth_eq (s : State) (bytes : List Byte) : ∃ a b, postBoth s bytes = { s with portA := a, portB := b } := ⟨_, _, rfl⟩

theorem postRecord_eq (s : State) (ctx : Option Word) (mk : Nat → Word → List Byte) :
    ∃ a b, postRecord s ctx mk = { s with portA := a, portB := b } := by
  unfold postRecord
  split
  · split
    · next x _ =>
      split
      · exact ⟨_, _, rfl⟩
      · cases x.port <;> exact ⟨_, _, rfl⟩
    · exact postBoth_eq ..
  · exact postBoth_eq ..

theorem underTrip_eq (s : State) (loc : Nat) : ∃ r, (underTrip s loc).2 = { s with regs := r } := by
  unfold underTrip
  split
  · exact ⟨_, rfl⟩
  · unfold tripRail
    split <;> exact ⟨_, rfl⟩

theorem reportPage_eq (s : State) (loc : Nat) : ∃ r, (reportPage s loc).2 = { s with reported := r } := by
  simp only [reportPage]
  split
  · split <;> exact ⟨_, rfl⟩
  · exact ⟨_, rfl⟩

/-- R61: the sector of the error is poisoned, and the error no longer lies hidden in it. -/
theorem findErrorFor_eq (s : State) (loc sev time : Nat) (ctx : Option Word) (own : Nat) : ∃ regs reported a b,
    findErrorFor s loc sev time ctx own = { s with
      poison := insertNat s.poison (sectorOf loc), latent := s.latent.filter (· != sectorOf loc),
      regs := regs, reported := reported, portA := a, portB := b } := by
  let u := setPoison { s with latent := s.latent.filter (· != sectorOf loc) } [sectorOf loc]
  obtain ⟨regs, hregs⟩ := underTrip_eq u loc
  obtain ⟨reported, hreported⟩ := reportPage_eq { u with regs := regs } loc
  simp only [findErrorFor, u] at hregs hreported ⊢
  rw [hregs, hreported]
  split
  · exact ⟨_, _, _, _, rfl⟩
  · split
    · obtain ⟨a, b, hpost⟩ := postRecord_eq _ _ _
      exact ⟨_, _, _, _, hpost⟩
    · exact ⟨_, _, _, _, rfl⟩

/-- What the finding of errors leaves as it was. -/
def besideFinds (s : State) := (s.mem, s.clusters, s.blocks)

theorem besideFinds_findErrors (s : State) (a n sev time : Nat) (ctx : Option Word) :
    besideFinds (findErrors s a n sev time ctx) = besideFinds s := by
  unfold findErrors
  split
  · rfl
  · refine foldS_same besideFinds _ (fun x t => ?_) _ _
    split
    · obtain ⟨_, _, _, _, h⟩ := findErrorFor_eq t x sev time ctx 16
      rw [findError, h]
      rfl
    · rfl

/-! The sectors of a run. -/

theorem sectorOf_mul (k : Nat) : sectorOf (16 * k) = 16 * k := by
  unfold sectorOf
  omega

theorem sectorsOf_mul (k n : Nat) (hn : 0 < n) : sectorsOf (16 * k) (16 * n) = (List.range n).map (fun j => 16 * k + 16 * j) := by
  have hlast : sectorOf (16 * k + 16 * n - 1) = 16 * (k + n - 1) := by
    unfold sectorOf
    omega
  have hcount : (16 * (k + n - 1) - 16 * k) / 16 + 1 = n := by omega
  rw [sectorsOf, if_neg (by omega), hlast, sectorOf_mul, hcount]

theorem mem_insertNat {l : List Nat} {x y : Nat} : y ∈ insertNat l x ↔ y = x ∨ y ∈ l := by
  induction l with
  | nil => simp [insertNat]
  | cons z r ih =>
    unfold insertNat
    split
    · simp_all
    · split
      · simp
      · rw [List.mem_cons, ih, List.mem_cons]
        exact or_left_comm

/-- No error is hidden in the sector, and it is poison where there was one. -/
def sectorFound (x : Nat) (was : Prop) (s : State) : Prop := x ∉ s.latent ∧ (was → x ∈ s.poison)

theorem sectorFound_findError {x : Nat} (hx : sectorOf x = x) (was : Prop) (s : State) (sev time : Nat) (ctx : Option Word) :
    sectorFound x was (findError s x sev time ctx) := by
  obtain ⟨_, _, _, _, h⟩ := findErrorFor_eq s x sev time ctx 16
  rw [findError, h, hx]
  exact ⟨by simp, fun _ => mem_insertNat.2 (.inl rfl)⟩

/-- A further error found leaves each sector found, or as it was. -/
theorem findError_keeps {x : Nat} {was : Prop} {s : State} (y sev time : Nat) (ctx : Option Word) :
    (sectorFound x was s → sectorFound x was (findError s y sev time ctx)) ∧
      (x ∈ s.latent ∨ sectorFound x was s → x ∈ (findError s y sev time ctx).latent ∨ sectorFound x was (findError s y sev time ctx)) := by
  obtain ⟨_, _, _, _, h⟩ := findErrorFor_eq s y sev time ctx 16
  have hfound : sectorFound x was s → sectorFound x was (findError s y sev time ctx) := by
    rintro ⟨hlatent, hpoison⟩
    rw [findError, h]
    exact ⟨fun hm => hlatent (List.mem_filter.1 hm).1, fun hw => mem_insertNat.2 (.inr (hpoison hw))⟩
  refine ⟨hfound, fun hs => ?_⟩
  rcases hs with hlatent | hs
  · by_cases hxy : x = sectorOf y
    · refine .inr ?_
      rw [findError, h]
      exact ⟨by simp [hxy], fun _ => mem_insertNat.2 (.inl hxy)⟩
    · refine .inl ?_
      rw [findError, h]
      exact List.mem_filter.2 ⟨hlatent, by simpa using hxy⟩
  · exact .inr (hfound hs)

/-- R61: a run that is read gives up the errors in each of its sectors. -/
theorem sectorFound_findErrors (s : State) {a n x : Nat} (hx : x ∈ sectorsOf a n) (hsector : sectorOf x = x) (sev time : Nat) (ctx : Option Word) :
    sectorFound x (x ∈ s.latent) (findErrors s a n sev time ctx) := by
  unfold findErrors
  split
  · next hnone =>
    have hx : x ∉ s.latent := by simp [List.isEmpty_iff.1 hnone]
    exact ⟨hx, fun h => absurd h hx⟩
  · refine foldS_reaches (fun t => x ∈ t.latent ∨ sectorFound x (x ∈ s.latent) t) (sectorFound x (x ∈ s.latent)) _
      (fun y t h => ?_) (fun y t h => ?_) (fun t h => ?_) hx s ?_
    · split
      · exact (findError_keeps y sev time ctx).2 h
      · exact h
    · split
      · exact (findError_keeps y sev time ctx).1 h
      · exact h
    · split
      · exact sectorFound_findError hsector ..
      · next hnot => exact h.resolve_left (by simpa using hnot)
    · exact (Decidable.em (x ∈ s.latent)).imp_right (fun h => ⟨h, fun h' => absurd h' h⟩)

/-! Patrol and refresh. -/

/-- R65: a sector without an error is left as it is. -/
theorem execPatrolScrub_clean {k : Nat} {s : State} (h : 16 * k ∉ s.latent) : execPatrolScrub k s = .next s := by
  have hsectors : sectorsOf (16 * k) 16 = [16 * k] := sectorsOf_mul k 1 Nat.one_pos
  unfold execPatrolScrub findErrors
  split
  · rfl
  · rw [hsectors]
    simp [foldS, h]

/-- R65, R61: patrol poisons a sector where it finds an error. -/
theorem execPatrolScrub_finds {k : Nat} {s : State} (h : 16 * k ∈ s.latent) :
    ∃ t, execPatrolScrub k s = .next t ∧ t.mem = s.mem ∧ t.blocks = s.blocks ∧ 16 * k ∈ t.poison ∧ 16 * k ∉ t.latent := by
  have hk : 16 * k ∈ sectorsOf (16 * k) (16 * 1) := by
    rw [sectorsOf_mul k 1 Nat.one_pos]
    simp
  obtain ⟨hlatent, hpoison⟩ := sectorFound_findErrors s hk (sectorOf_mul k) 0 s.now none
  have hbeside := besideFinds_findErrors s (16 * k) 16 0 s.now none
  exact ⟨_, rfl, congrArg (·.1) hbeside, congrArg (·.2.2) hbeside, hpoison h, hlatent⟩

/-- R192: a granule that is not refreshed is left as it is. -/
theorem execRefresh_idle {n : Nat} {s : State} (h : refreshes s (4096 * n) = false) : execRefresh n s = .next s := by
  simp [execRefresh, h]

/-- R192, R65: refresh poisons the sectors of the granule where it finds an error. -/
theorem execRefresh_finds {n : Nat} {s : State} (h : refreshes s (4096 * n) = true) :
    ∃ t, execRefresh n s = .next t ∧ t.mem = s.mem ∧ t.clusters = s.clusters ∧ t.blocks = s.blocks ∧
      ∀ j, j < 256 → 4096 * n + 16 * j ∉ t.latent ∧ (4096 * n + 16 * j ∈ s.latent → 4096 * n + 16 * j ∈ t.poison) := by
  have hexec : execRefresh n s = .next (findErrors s (4096 * n) 4096 0 s.now none) := by simp [execRefresh, h]
  have hbeside := besideFinds_findErrors s (4096 * n) 4096 0 s.now none
  refine ⟨_, hexec, congrArg (·.1) hbeside, congrArg (·.2.1) hbeside, congrArg (·.2.2) hbeside, fun j hj => ?_⟩
  have hgranule : 4096 * n = 16 * (256 * n) := by omega
  have hsector : 4096 * n + 16 * j = 16 * (256 * n + j) := by omega
  refine sectorFound_findErrors s ?_ (hsector ▸ sectorOf_mul _) 0 s.now none
  rw [hgranule, sectorsOf_mul (256 * n) 256 (by omega)]
  exact List.mem_map.2 ⟨j, List.mem_range.2 hj, rfl⟩

/-- R190, R192: what the Lamplighter refreshes of a block's scratch. -/
theorem refreshes_scrLoc {b o : Nat} {x : Block} {s : State} (hb : s.blk? b = some x) (hlife : x.life = .resident) (ho : o < 2 ^ 23) :
    refreshes s (scrLoc b o) = true ↔ (scrGran x o).freed = false ∧ (tget s.sh.hot (placeOf s (scrLoc b o)).die false = true ∨
      (scrGran x o).cls = 0 ∨ ((scrGran x o).cls = 3 ∧ (s.etm x.core : Int) < (scrGran x o).spanEnd)) := by
  have hscr : 2 ^ 68 ≤ scrLoc b o := by unfold scrLoc; omega
  have hblock : (scrLoc b o - 2 ^ 68) / 2 ^ 23 = b := by unfold scrLoc; omega
  have hoffset : (scrLoc b o - 2 ^ 68) % 2 ^ 23 = o := by unfold scrLoc; omega
  unfold refreshes
  rw [if_pos hscr, hblock, hoffset, hb]
  simp [hlife, granRefreshes, or_assoc]

end Sys2Proof.Proofs
end

section
/-! Cores and lanes taken out of service (R14, R64, R67, R69): what changes of the core, and that nothing else does but for the
groups that restart. -/

namespace Sys2Proof.Proofs
open Sys2Proof.Machine Sys2Proof.Laws

/-! Single changes. -/

theorem core_modCore_ne (s : State) {c k : Nat} (h : k ≠ c) (f : Core → Core) : (modCore s c f).core k = s.core k := core_setCore_ne s h _

theorem modBlk_eq (s : State) (b : Nat) (f : Block → Block) : ∃ blocks, modBlk s b f = { s with blocks := blocks } := by
  unfold modBlk
  split <;> exact ⟨_, rfl⟩

theorem modGrp_eq (s : State) (b g : Nat) (f : Group → Group) : ∃ blocks, modGrp s b g f = { s with blocks := blocks } := modBlk_eq ..

theorem core_modGrp (s : State) (b g : Nat) (f : Group → Group) (c : Nat) : (modGrp s b g f).core c = s.core c := by
  obtain ⟨_, h⟩ := modGrp_eq s b g f
  rw [h]
  rfl

theorem unassayable_eq (s : State) (b g : Nat) : ∃ sh blocks, unassayable s b g = { s with sh := sh, blocks := blocks } := by
  unfold unassayable
  split
  · exact ⟨_, _, rfl⟩
  · split
    · obtain ⟨blocks, h⟩ := modGrp_eq s b g (fun y => { y with a := { y.a with unassayable := true } })
      exact ⟨_, blocks, by rw [h]; rfl⟩
    · exact ⟨_, _, rfl⟩

theorem rollbackNow_eq (s : State) (b g : Nat) : ∃ sh blocks migs, rollbackNow s b g = { s with sh := sh, blocks := blocks, migs := migs } := by
  unfold rollbackNow
  split
  · exact ⟨_, _, _, rfl⟩
  · extract_lets live ticks s1 win s2 s3
    obtain ⟨sh, blocks1, h1⟩ : ∃ sh blocks, s1 = { s with sh := sh, blocks := blocks } := by
      unfold s1
      split
      · exact unassayable_eq ..
      · exact ⟨_, _, rfl⟩
    obtain ⟨blocks2, h2⟩ : ∃ blocks, s2 = { s1 with blocks := blocks } := modGrp_eq ..
    obtain ⟨blocks3, h3⟩ := modBlk_eq s3 b _
    exact ⟨sh, blocks3, _, h3.trans (by unfold s3; rw [h2, h1])⟩

/-- R156: a rollback changes blocks, what a migration holds of the group, and a count of the Assayer. -/
theorem rollback_eq (s : State) (b g : Nat) : ∃ sh blocks migs, rollback s b g = { s with sh := sh, blocks := blocks, migs := migs } := by
  unfold rollback
  split
  · exact ⟨_, _, _, rfl⟩
  · split
    · exact rollbackNow_eq ..
    · obtain ⟨blocks, h⟩ := modGrp_eq s b g _
      exact ⟨_, blocks, _, h⟩

theorem core_rollback (s : State) (b g c : Nat) : (rollback s b g).core c = s.core c := by
  obtain ⟨_, _, _, h⟩ := rollback_eq s b g
  rw [h]
  rfl

theorem core_coreRecord (s : State) (kind sev unit c lane k : Nat) : (coreRecord s kind sev unit c lane).core k = s.core k := rfl

/-- R67: the groups of a retired lane restart; their core stays as it was. -/
theorem core_restart (l : List (Nat × Nat)) (s : State) (c : Nat) :
    (foldS (fun (z : Nat × Nat) s => rollback s z.1 z.2) l s).core c = s.core c :=
  foldS_same (fun t => t.core c) _ (fun z t => core_rollback t z.1 z.2 c) l s

@[simp] theorem coreRecord_blocks (s : State) (kind sev unit c lane : Nat) : (coreRecord s kind sev unit c lane).blocks = s.blocks := rfl

/-! A core is taken out of service. -/

/-- The granules of a cluster that are timed anew keep the start of its cores' clocks. -/
theorem core_modCluster_rebase (s : State) (k a b j c : Nat) : (modCluster s k (rebaseGrans a b j)).core c = s.core c := by
  have hup : coreUp (modCluster s k (rebaseGrans a b j)) c = coreUp s c := by
    by_cases hk : clusterOf c = k
    · subst hk
      simp only [coreUp, cluster_modCluster]
      rfl
    · unfold coreUp State.cluster modCluster setCluster
      rw [tget_tset_ne _ _ _ _ _ hk]
  unfold State.core
  rw [hup]
  rfl

/-- R69, R14: the core is disabled, and of the others only a reserve core that takes its number changes. -/
theorem core_replaceCore (s : State) {c k : Nat} (hk : k ≠ c + 768) :
    (replaceCore s c).core k = if k = c then { s.core c with enabled := false } else s.core k := by
  have hoff : (modCore s c (fun x => { x with enabled := false })).core k = if k = c then { s.core c with enabled := false } else s.core k := by
    by_cases h : k = c
    · subst h; simp
    · rw [core_modCore_ne s h, if_neg h]
  unfold replaceCore
  split
  · next hdisabled =>
    split
    · next h =>
      subst h
      have henabled : (s.core k).enabled = false := by simpa using hdisabled
      rw [← henabled]
    · rfl
  · dsimp only
    split
    · exact hoff
    · rw [core_coreRecord, core_modCluster_rebase]
      exact (core_setCore_ne _ hk _).trans hoff

theorem replaceCore_blocks (s : State) (c : Nat) : (replaceCore s c).blocks = s.blocks := by
  unfold replaceCore
  split
  · rfl
  · dsimp only
    split <;> simp

/-! A lane is retired. -/

/-- R67, R135: a group moved onto a spare leaves its core but for the count of ages. -/
theorem core_newAge (s : State) (c b g : Nat) : (newAge s c b g).core c = { s.core c with ages := (s.core c).ages + 1 } := by
  unfold newAge
  rw [core_modGrp]
  exact core_modCore ..

/-- R67: one of four spares takes the lane's place. -/
theorem core_retireLane_spare {s : State} {c : Nat} (lane : Nat) (h : sparesUsed (s.core c) < 4) : ∃ n, (retireLane s c lane).core c =
    { s.core c with spares := tset (s.core c).spares lane (64 + sparesUsed (s.core c)), ages := n } := by
  unfold retireLane retireFor
  simp only [if_pos h, Bool.false_eq_true, if_false]
  rw [core_restart]
  refine foldS_keeps (fun t : State => ∃ n, t.core c =
    { s.core c with spares := tset (s.core c).spares lane (64 + sparesUsed (s.core c)), ages := n }) _ (fun z t ht => ?_) _ _ ?_
  · obtain ⟨n, hn⟩ := ht
    exact ⟨n + 1, by rw [core_newAge, hn]⟩
  · exact ⟨(s.core c).ages, core_modCore ..⟩

/-- R67, R69: a fifth failure is the core's. -/
theorem core_retireLane_core {s : State} {c : Nat} (lane : Nat) (h : 4 ≤ sparesUsed (s.core c)) :
    (retireLane s c lane).core c = { s.core c with enabled := false } := by
  unfold retireLane retireFor
  simp only [if_neg (Nat.not_lt.2 h), Bool.false_eq_true, if_false]
  rw [core_restart, core_replaceCore s (by omega), if_pos rfl]

/-- R64: a residue failure is remembered by the lane or spare that has the lane's number. -/
theorem core_countResidue (s : State) (c lane : Nat) : (countResidue s c lane none).core c =
    { s.core c with resid := tset (s.core c).resid (physLane (s.core c) lane) (s.etm c) } := core_modCore ..

/-- R67, R64: a lane that fails its test has its failure recorded and is retired. -/
theorem execInFieldTest_fails {core : Nat} (lane : Fin 64) {s : State} (hcore : core < 768) (hon : (s.core (holder s core)).enabled = true) :
    ∃ t, execInFieldTest core lane true s = .next t ∧
      let c := holder s core
      let p := tget (s.core c).spares lane.val lane.val
      tget? (t.core c).resid p = some (s.etm c) ∧ t.mem = s.mem ∧
      (sparesUsed (s.core c) < 4 → tget? (t.core c).spares lane.val = some (64 + sparesUsed (s.core c)) ∧ (t.core c).enabled = true) ∧
      (4 ≤ sparesUsed (s.core c) → (t.core c).enabled = false) := by
  have hexec : execInFieldTest core lane true s =
      .next (retireLane (countResidue s (holder s core) lane.val none) (holder s core) lane.val) := by simp [execInFieldTest, hcore, hon]
  refine ⟨_, hexec, ?_⟩
  generalize holder s core = c at hon ⊢
  have hused : sparesUsed ((countResidue s c lane.val none).core c) = sparesUsed (s.core c) := by rw [core_countResidue]; rfl
  have hresid : tget? ((countResidue s c lane.val none).core c).resid (tget (s.core c).spares lane.val lane.val) = some (s.etm c) := by
    rw [core_countResidue]
    exact tget?_tset_same ..
  dsimp only
  rw [retireLane_mem, countResidue_mem]
  by_cases hspare : sparesUsed (s.core c) < 4
  · obtain ⟨n, ht⟩ := core_retireLane_spare lane.val (hused.symm ▸ hspare)
    rw [ht, hused]
    exact ⟨hresid, rfl, fun _ => ⟨tget?_tset_same .., by rw [core_countResidue]; exact hon⟩, fun h => absurd hspare (Nat.not_lt.2 h)⟩
  · rw [core_retireLane_core lane.val (hused.symm ▸ Nat.not_lt.1 hspare)]
    exact ⟨hresid, rfl, fun h => absurd h hspare, fun _ => rfl⟩

/-! Blocks leave a quarantined core. -/

/-- R75: a block is to leave its core at its next point. -/
def toLeave (x : Block) : Block := { x with relocate := true }

/-- R75: blocks marked one after another. -/
def markAll (l : List Nat) (s : State) : State := foldS (fun b s => modBlk s b toLeave) l s

theorem blk?_markAll (l : List Nat) (s : State) (b : Nat) :
    (markAll l s).blk? b = if b ∈ l then (s.blk? b).map toLeave else s.blk? b := by
  unfold markAll
  induction l generalizing s with
  | nil => simp [foldS]
  | cons k r ih =>
    rw [foldS, ih, blk?_modBlk]
    by_cases hk : b = k
    · subst hk
      have htwice : toLeave ∘ toLeave = toLeave := rfl
      by_cases hr : b ∈ r <;> simp [hr, htwice]
    · simp [hk]

theorem markAll_eq (l : List Nat) (s : State) : markAll l s = { s with blocks := (markAll l s).blocks } := by
  refine foldS_keeps (fun t => t = { s with blocks := t.blocks }) _ (fun b t ht => ?_) l s rfl
  obtain ⟨_, h⟩ := modBlk_eq t b toLeave
  rw [h, ht]

/-- R75: the blocks on a core. -/
def blocksOf (s : State) (core : Nat) : List Nat := ((residents s).filter (fun b => b.2.core == core)).map (·.1)

theorem mem_blocksOf {s : State} {core b : Nat} : b ∈ blocksOf s core ↔ ∃ c ∈ residents s, c.1 = b ∧ c.2.core = core := by
  simp only [blocksOf, List.mem_map, List.mem_filter, beq_iff_eq]
  exact exists_congr fun c => ⟨fun ⟨⟨hc, hcore⟩, hb⟩ => ⟨hc, hb, hcore⟩, fun ⟨hc, hb, hcore⟩ => ⟨⟨hc, hcore⟩, hb⟩⟩

theorem mem_residents {s : State} {b : Nat} {x : Block} (hb : s.blk? b = some x) (hlife : x.life = .resident) : (b, x) ∈ residents s :=
  List.mem_filter.2 ⟨mem_of_tget? hb, by simp [hlife]⟩

/-- R75: 200 µs after its quarantine the blocks of a core are to leave it, and nothing else changes. -/
theorem execQuarantineTimeout_meets {core : Nat} {s : State} (hquar : (s.core core).quar = true)
    (hlate : (s.core core).quarAt + usTicks 200 ≤ s.now) (hstays : ∃ c ∈ residents s, c.2.core = core ∧ c.2.relocate = false) :
    ∃ t, execQuarantineTimeout core s = .next t ∧
      (∀ b x, s.blk? b = some x → x.life = .resident → x.core = core → t.blk? b = some { x with relocate := true }) ∧
      (∀ b, (∀ c ∈ residents s, c.1 = b → c.2.core ≠ core) → t.blk? b = s.blk? b) ∧ t = { s with blocks := t.blocks } := by
  have hquarLate : quarLate s core = true := by
    obtain ⟨c, hc, hcore, hrelocate⟩ := hstays
    have hany : (residents s).any (fun b => b.2.core == core && !b.2.relocate) = true :=
      List.any_eq_true.2 ⟨c, hc, by simp [hcore, hrelocate]⟩
    simp [quarLate, hquar, hlate, hany]
  have hexec : execQuarantineTimeout core s = .next (markAll (blocksOf s core) s) := by
    rw [execQuarantineTimeout, if_pos hquarLate]
    rfl
  refine ⟨_, hexec, fun b x hb hlife hcore => ?_, fun b hb => ?_, markAll_eq _ _⟩
  · rw [blk?_markAll, if_pos (mem_blocksOf.2 ⟨(b, x), mem_residents hb hlife, rfl, hcore⟩), hb]
    rfl
  · rw [blk?_markAll, if_neg]
    intro hm
    obtain ⟨c, hc, hcb, hcore⟩ := mem_blocksOf.1 hm
    exact hb c hc hcb hcore

end Sys2Proof.Proofs
end

section
/-! A matrix unit is reset (R166): the operations in flight on it are abandoned with the accumulators as they were. -/

namespace Sys2Proof.Proofs
open Sys2Proof.Machine Sys2Proof.Laws

/-! What a group shows of its matrix operation: the operation in flight, the registers, and STICKY. -/

def matrixView (s : State) (b g : Nat) : Option (Option MmaFly × Table Word × Table Word × BitVec 9) :=
  (s.grp? b g).map (fun z => (z.e.mma, z.r.v, z.r.s, z.r.sticky))

theorem grp?_of_blk? {s : State} {b g : Nat} {x : Block} (hb : s.blk? b = some x) : s.grp? b g = x.groups[g]? := by
  unfold State.grp?
  rw [hb]

theorem matrixView_of_blocks {s t : State} (h : t.blocks = s.blocks) (b g : Nat) : matrixView t b g = matrixView s b g := by
  unfold matrixView State.grp? State.blk?
  rw [h]

/-- A change that keeps what a group shows of its matrix operation, on every group. -/
theorem matrixView_modGrp (s : State) (k j : Nat) {f : Group → Group}
    (hf : ∀ z, ((f z).e.mma, (f z).r.v, (f z).r.s, (f z).r.sticky) = (z.e.mma, z.r.v, z.r.s, z.r.sticky)) (b g : Nat) :
    matrixView (modGrp s k j f) b g = matrixView s b g := by
  unfold matrixView
  rw [grp?_modGrp]
  split
  · next h =>
    obtain ⟨rfl, rfl⟩ := h
    rw [Option.map_map]
    exact congrArg (fun m => Option.map m _) (funext hf)
  · rfl

theorem matrixView_modGrp_ne (s : State) {k j b g : Nat} (h : ¬(b = k ∧ g = j)) (f : Group → Group) :
    matrixView (modGrp s k j f) b g = matrixView s b g := by
  unfold matrixView
  rw [grp?_modGrp, if_neg h]

/-- A change of a block that keeps its groups. -/
theorem matrixView_modBlk (s : State) (k : Nat) {f : Block → Block} (hf : ∀ x, (f x).groups = x.groups) (b g : Nat) :
    matrixView (modBlk s k f) b g = matrixView s b g := by
  unfold matrixView State.grp?
  rw [blk?_modBlk]
  by_cases hb : b = k
  · subst hb
    cases s.blk? b with
    | none => simp
    | some x => simp [hf]
  · rw [if_neg hb]

theorem matrixView_unassayable (s : State) (k j b g : Nat) : matrixView (unassayable s k j) b g = matrixView s b g := by
  unfold unassayable
  split
  · rfl
  · split
    · rw [matrixView_of_blocks (modSh_blocks ..)]
      exact matrixView_modGrp s k j (by intro _; rfl) b g
    · rfl

/-- R156: a rollback keeps registers, STICKY and an operation in flight. -/
theorem matrixView_rollback (s : State) (k j b g : Nat) : matrixView (rollback s k j) b g = matrixView s b g := by
  unfold rollback
  split
  · rfl
  · split
    · unfold rollbackNow
      split
      · rfl
      · extract_lets live ticks s1 win s2 s3
        have hcount : matrixView s1 b g = matrixView s b g := by
          unfold s1
          split
          · exact matrixView_unassayable ..
          · rfl
        rw [matrixView_modBlk, ← hcount]
        · exact (matrixView_of_blocks (s := s2) rfl b g).trans (matrixView_modGrp s1 k j (by intro _; rfl) b g)
        · intro x
          split
          · split <;> rfl
          · rfl
    · exact matrixView_modGrp s k j (by intro _; rfl) b g

theorem matrixView_unpendAway (k : Nat) (l : List (Nat × Nat × Word)) (s : State) (b g : Nat) :
    matrixView (unpendAway k l s) b g = matrixView s b g :=
  foldS_same (fun t => matrixView t b g) (fun (z : Nat × Nat × Word) t => modGrp t k z.1 (unpend ([z.2.1], [])))
    (fun z t => matrixView_modGrp t k z.1 (by intro _; rfl) b g) l s

/-- R166: the operation is dropped, and MXRESET set. -/
theorem matrixView_mmaAbandon_same {s : State} {b g : Nat} {f : MmaFly} {v w : Table Word} {st : BitVec 9}
    (h : matrixView s b g = some (some f, v, w, st)) : matrixView (mmaAbandon s b g) b g = some (none, v, w, st ||| 0x40) := by
  obtain ⟨y, hy, hyv⟩ := Option.map_eq_some_iff.1 h
  obtain ⟨hf, rfl, rfl, rfl⟩ : y.e.mma = some f ∧ y.r.v = v ∧ y.r.s = w ∧ y.r.sticky = st := by simpa using hyv
  have hdrop : ((setSticky .mxreset (dropFly f y)).e.mma, (setSticky .mxreset (dropFly f y)).r.v, (setSticky .mxreset (dropFly f y)).r.s,
      (setSticky .mxreset (dropFly f y)).r.sticky) = (none, y.r.v, y.r.s, y.r.sticky ||| 0x40) := by
    unfold dropFly
    split <;> rfl
  have hy' : matrixView (modGrp s b g (fun y => setSticky .mxreset (dropFly f y))) b g = some (none, y.r.v, y.r.s, y.r.sticky ||| 0x40) := by
    rw [matrixView, grp?_modGrp_same, hy, ← hdrop]
    rfl
  unfold mmaAbandon
  simp only [hy, hf]
  rw [matrixView_rollback, matrixView_unpendAway, hy']

/-- R166: the registers of every other group, and an operation in flight there, stay. -/
theorem matrixView_mmaAbandon_ne (s : State) {k j b g : Nat} (h : ¬(b = k ∧ g = j)) :
    matrixView (mmaAbandon s k j) b g = matrixView s b g := by
  unfold mmaAbandon
  split
  · rfl
  · split
    · rw [matrixView_rollback, matrixView_unpendAway, matrixView_modGrp_ne s h]
    · exact matrixView_rollback ..

/-- R166: a group without an operation in flight only restarts. -/
theorem matrixView_mmaAbandon_idle {s : State} {b g : Nat} {z : Table Word × Table Word × BitVec 9} (h : matrixView s b g = some (none, z)) :
    matrixView (mmaAbandon s b g) b g = some (none, z) := by
  obtain ⟨y, hy, hyv⟩ := Option.map_eq_some_iff.1 h
  have hidle : y.e.mma = none := congrArg (·.1) hyv
  unfold mmaAbandon
  simp only [hy, hidle]
  rw [matrixView_rollback, h]

/-- R166: of the groups that are abandoned, one with an operation in flight has lost it, with MXRESET set. -/
theorem matrixView_foldS_mmaAbandon {s : State} {b g : Nat} {f : MmaFly} {v w : Table Word} {st : BitVec 9}
    (h : matrixView s b g = some (some f, v, w, st)) {ms : List (Nat × Nat)} (hm : (b, g) ∈ ms) :
    matrixView (foldS (fun m s => mmaAbandon s m.1 m.2) ms s) b g = some (none, v, w, st ||| 0x40) := by
  have hdone : ∀ (m : Nat × Nat) t, matrixView t b g = some (none, v, w, st ||| 0x40) →
      matrixView (mmaAbandon t m.1 m.2) b g = some (none, v, w, st ||| 0x40) := by
    intro m t ht
    by_cases hbg : b = m.1 ∧ g = m.2
    · obtain ⟨rfl, rfl⟩ := hbg
      exact matrixView_mmaAbandon_idle ht
    · rw [matrixView_mmaAbandon_ne t hbg, ht]
  refine foldS_reaches
    (fun t => matrixView t b g = some (some f, v, w, st) ∨ matrixView t b g = some (none, v, w, st ||| 0x40))
    (fun t => matrixView t b g = some (none, v, w, st ||| 0x40)) _ (fun m t ht => ?_) hdone (fun t ht => ?_) hm s (.inl h)
  · rcases ht with ht | ht
    · by_cases hbg : b = m.1 ∧ g = m.2
      · obtain ⟨rfl, rfl⟩ := hbg
        exact .inr (matrixView_mmaAbandon_same ht)
      · exact .inl (by rw [matrixView_mmaAbandon_ne t hbg, ht])
    · exact .inr (hdone m t ht)
  · rcases ht with ht | ht
    · exact matrixView_mmaAbandon_same ht
    · exact hdone (b, g) t ht

/-! Which groups have an operation in flight on the unit. -/

theorem mem_lmapIx {α β : Type} {f : Nat → α → β} {l : List α} {i g : Nat} {x : α} (h : l[g]? = some x) : f (i + g) x ∈ lmapIx i f l := by
  induction l generalizing i g with
  | nil => simp at h
  | cons a r ih =>
    cases g with
    | zero =>
      obtain rfl : a = x := by simpa using h
      exact List.mem_cons_self
    | succ g =>
      have hr : f (i + 1 + g) x ∈ lmapIx (i + 1) f r := ih (by simpa using h)
      rw [Nat.add_assoc, Nat.add_comm 1] at hr
      exact List.mem_cons_of_mem _ hr

/-- R166: groups are put in the order of their ends. -/
def byEnd (l : List (Nat × Nat × Nat)) (z : Nat × Nat × Nat) : List (Nat × Nat × Nat) :=
  (l.filter (fun w => w.1 ≤ z.1)) ++ z :: l.filter (fun w => z.1 < w.1)

theorem mem_byEnd {l : List (Nat × Nat × Nat)} {z w : Nat × Nat × Nat} : w ∈ byEnd l z ↔ w = z ∨ w ∈ l := by
  simp only [byEnd, List.mem_append, List.mem_cons, List.mem_filter, decide_eq_true_eq]
  constructor
  · rintro (⟨hw, _⟩ | rfl | ⟨hw, _⟩)
    · exact .inr hw
    · exact .inl rfl
    · exact .inr hw
  · rintro (rfl | hw)
    · exact .inr (.inl rfl)
    · rcases Nat.lt_or_ge z.1 w.1 with hlater | hsooner
      · exact .inr (.inr ⟨hw, hlater⟩)
      · exact .inl ⟨hw, hsooner⟩

theorem mem_foldl_byEnd {l acc : List (Nat × Nat × Nat)} {w : Nat × Nat × Nat} : w ∈ l.foldl byEnd acc ↔ w ∈ l ∨ w ∈ acc := by
  induction l generalizing acc with
  | nil => simp
  | cons z r ih =>
    rw [List.foldl_cons, ih, mem_byEnd, List.mem_cons, or_left_comm, or_assoc]

theorem mem_unitGroups {s : State} {core part b g : Nat} {x : Block} {y : Group} {f : MmaFly} (hb : s.blk? b = some x) (hlife : x.life = .resident)
    (hcore : x.core = core) (hg : x.groups[g]? = some y) (hf : y.e.mma = some f) (hpart : partOf y.q.lane = part) :
    (f.endAt, b, g) ∈ unitGroups s core part := by
  refine mem_foldl_byEnd.2 (.inl (List.mem_flatMap.2 ⟨(b, x), mem_residents hb hlife, ?_⟩))
  have hin := mem_lmapIx (f := fun g (y : Group) => (b, g, y)) (i := 0) hg
  rw [Nat.zero_add] at hin
  rw [if_pos hcore]
  exact List.mem_filterMap.2 ⟨_, hin, by simp [hf, hpart]⟩

theorem mem_gangFlying {s : State} {l : List (Nat × Nat × Nat)} {e b g : Nat} (h : (e, b, g) ∈ l) : (b, g) ∈ gangFlying s l :=
  List.mem_eraseDups.2 (List.mem_flatMap.2 ⟨_, h, List.mem_cons_self⟩)

/-! The entries of a trap ring that wait: further ones only join them. -/

theorem port_setPort_ne (s : State) {hp q : HPort} (h : q ≠ hp) (x : Port) : (setPort s hp x).port q = s.port q := by
  cases hp <;> cases q
  · exact absurd rfl h
  · rfl
  · rfl
  · exact absurd rfl h

theorem held_postTrap (s : State) (hp q : HPort) (h : Held) : (s.port q).trap.held <+: ((postTrap s hp h).port q).trap.held := by
  unfold postTrap modTrap modPort
  by_cases hq : q = hp
  · subst hq
    rw [port_setPort]
    dsimp only
    split
    · exact List.prefix_refl _
    · exact List.prefix_append ..
  · exact ⟨[], by rw [port_setPort_ne s hq, List.append_nil]⟩

theorem held_coreRecord (s : State) (kind sev unit c lane : Nat) (q : HPort) :
    (s.port q).trap.held <+: ((coreRecord s kind sev unit c lane).port q).trap.held := (held_postTrap ..).trans (held_postTrap ..)

theorem held_replaceCore (s : State) (c : Nat) (q : HPort) : (s.port q).trap.held <+: ((replaceCore s c).port q).trap.held := by
  unfold replaceCore
  split
  · exact List.prefix_refl _
  · dsimp only
    split
    · refine List.IsPrefix.trans ⟨[], ?_⟩ (held_coreRecord ..)
      cases q <;> simp [State.port]
    · refine List.IsPrefix.trans ⟨[], ?_⟩ (held_coreRecord ..)
      cases q <;> simp [State.port]

/-- R158: an entry of a context is never discarded. -/
theorem held_postTrap_own (s : State) (hp : HPort) (bytes : List Byte) :
    ((postTrap s hp { own := true, grp := none, bytes := bytes }).port hp).trap.held =
      (s.port hp).trap.held ++ [{ own := true, grp := none, bytes := bytes }] := by
  unfold postTrap modTrap
  simp

/-! The reset. -/

/-- R166: the unit has stopped for 100 µs when one of its groups has. -/
theorem unitStuck_of {s : State} {core part b g e : Nat} {y : Group} {f : MmaFly} {since : Nat} (hin : (e, b, g) ∈ unitGroups s core part)
    (hy : s.grp? b g = some y) (hf : y.e.mma = some f) (hstuck : f.stuck = some since) (hlate : since + usTicks 100 ≤ s.etm core) :
    unitStuck s core part = true :=
  List.any_eq_true.2 ⟨_, hin, by simp [hy, hf, hstuck, hlate]⟩

/-- R166: the resets of the unit are counted, and every group of its gangs is taken off it. -/
def unitCleared (s : State) (core part : Nat) (times : List Nat) : State :=
  foldS (fun (m : Nat × Nat) s => mmaAbandon s m.1 m.2) (gangFlying s (unitGroups s core part))
    (modCore s core (fun k => { k with mxResets := tset k.mxResets part times }))

/-- R166: an entry is posted when the unit has been cleared; a third reset within 10 ms replaces the core. -/
def unitReset (s : State) (core part : Nat) (times : List Nat) (hp : HPort) (bytes : List Byte) : State :=
  let t := postTrap (unitCleared s core part times) hp { own := true, grp := none, bytes := bytes }
  if 3 ≤ times.length then replaceCore t core else t

theorem execMatrixUnitReset_eq {s : State} {core : Nat} {part : Fin 4} (hstuck : unitStuck s core part.val = true) :
    ∃ times hp bytes, bytes.take 2 = [5, 0] ∧ execMatrixUnitReset core part s = .next (unitReset s core part.val times hp bytes) := by
  have hsome : ∃ z r, unitGroups s core part.val = z :: r := by
    obtain ⟨z, hz, _⟩ := List.any_eq_true.1 hstuck
    exact List.exists_cons_of_ne_nil (List.ne_nil_of_mem hz)
  obtain ⟨z, r, hl⟩ := hsome
  unfold execMatrixUnitReset unitReset unitCleared
  simp only [hstuck, if_true, hl]
  exact ⟨_, _, _, rfl, rfl⟩

theorem port_modGrp (s : State) (k j : Nat) (f : Group → Group) (hp : HPort) : (modGrp s k j f).port hp = s.port hp := by
  cases hp <;> simp [State.port]

theorem port_rollback (s : State) (k j : Nat) (hp : HPort) : (rollback s k j).port hp = s.port hp := by
  obtain ⟨_, _, _, h⟩ := rollback_eq s k j
  rw [h]
  rfl

theorem port_mmaAbandon (s : State) (k j : Nat) (hp : HPort) : (mmaAbandon s k j).port hp = s.port hp := by
  unfold mmaAbandon
  split
  · rfl
  · split
    · rw [port_rollback, unpendAway, foldS_same (fun t : State => t.port hp) _ (fun c t => port_modGrp ..), port_modGrp]
    · exact port_rollback ..

theorem port_unitCleared (s : State) (core part : Nat) (times : List Nat) (hp : HPort) : (unitCleared s core part times).port hp = s.port hp := by
  unfold unitCleared
  rw [foldS_same (fun t : State => t.port hp) _ (fun m t => port_mmaAbandon ..)]
  rfl

/-- R166: the entry joins those that wait at the port, before those of a core replaced. -/
theorem held_unitReset (s : State) (core part : Nat) (times : List Nat) (hp : HPort) (bytes : List Byte) :
    ∃ e r, ((unitReset s core part times hp bytes).port hp).trap.held = (s.port hp).trap.held ++ e :: r ∧ e.bytes = bytes := by
  have hpost := held_postTrap_own (unitCleared s core part times) hp bytes
  rw [port_unitCleared] at hpost
  unfold unitReset
  dsimp only
  split
  · obtain ⟨r, hr⟩ := held_replaceCore (postTrap (unitCleared s core part times) hp { own := true, grp := none, bytes := bytes }) core hp
    exact ⟨_, r, by rw [← hr, hpost, List.append_assoc]; rfl, rfl⟩
  · exact ⟨_, [], hpost, rfl⟩

theorem unitReset_mem (s : State) (core part : Nat) (times : List Nat) (hp : HPort) (bytes : List Byte) :
    (unitReset s core part times hp bytes).mem = s.mem := by
  simp [unitReset, unitCleared]

theorem unitReset_blocks (s : State) (core part : Nat) (times : List Nat) (hp : HPort) (bytes : List Byte) :
    (unitReset s core part times hp bytes).blocks = (unitCleared s core part times).blocks := by
  have hpost : (postTrap (unitCleared s core part times) hp { own := true, grp := none, bytes := bytes }).blocks =
      (unitCleared s core part times).blocks := by simp [postTrap, modTrap]
  unfold unitReset
  dsimp only
  split
  · rw [replaceCore_blocks, hpost]
  · exact hpost

/-- R166: each operation in flight on the unit is gone, the registers of its group are as they were, and MXRESET is set. -/
theorem matrixView_unitReset {s : State} {core part b g e : Nat} {f : MmaFly} {v w : Table Word} {st : BitVec 9}
    (h : matrixView s b g = some (some f, v, w, st)) (hin : (e, b, g) ∈ unitGroups s core part) (times : List Nat) (hp : HPort) (bytes : List Byte) :
    matrixView (unitReset s core part times hp bytes) b g = some (none, v, w, st ||| 0x40) := by
  rw [matrixView_of_blocks (unitReset_blocks ..)]
  refine matrixView_foldS_mmaAbandon (f := f) ?_ (mem_gangFlying hin)
  rw [matrixView_of_blocks (modCore_blocks ..), h]

/-- R166: a matrix unit that stopped 100 µs ago is reset. -/
theorem execMatrixUnitReset_meets {core : Nat} {part : Fin 4} {s : State}
    (hstuck : ∃ b x, ∃ g : Nat, ∃ y : Group, ∃ f since, s.blk? b = some x ∧ x.life = .resident ∧ x.core = core ∧ x.groups[g]? = some y ∧
      y.e.mma = some f ∧ partOf y.q.lane = part.val ∧ f.stuck = some since ∧ since + usTicks 100 ≤ s.etm core) :
    ∃ t, execMatrixUnitReset core part s = .next t ∧ t.mem = s.mem ∧
      (∃ hp e r, (t.port hp).trap.held = (s.port hp).trap.held ++ e :: r ∧ e.bytes.take 2 = [5, 0]) ∧
      ∀ b x (g : Nat) (y : Group) f, s.blk? b = some x → x.life = .resident → x.core = core → x.groups[g]? = some y → y.e.mma = some f →
        partOf y.q.lane = part.val →
        ∃ z, t.grp? b g = some z ∧ z.e.mma = none ∧ z.r.v = y.r.v ∧ z.r.s = y.r.s ∧ z.r.sticky = y.r.sticky ||| 0x40 := by
  obtain ⟨b, x, g, y, f, since, hb, hlife, hcore, hg, hf, hpart, hsince, hlate⟩ := hstuck
  obtain ⟨times, hp, bytes, hbytes, hexec⟩ := execMatrixUnitReset_eq
    (unitStuck_of (mem_unitGroups hb hlife hcore hg hf hpart) ((grp?_of_blk? hb).trans hg) hf hsince hlate)
  obtain ⟨e, r, hheld, he⟩ := held_unitReset s core part.val times hp bytes
  refine ⟨_, hexec, unitReset_mem .., ⟨hp, e, r, hheld, he ▸ hbytes⟩, fun b x g y f hb hlife hcore hg hf hpart => ?_⟩
  have hview : matrixView s b g = some (some f, y.r.v, y.r.s, y.r.sticky) := by
    rw [matrixView, grp?_of_blk? hb, hg, ← hf]
    rfl
  obtain ⟨z, hz, hzv⟩ := Option.map_eq_some_iff.1 (matrixView_unitReset hview (mem_unitGroups hb hlife hcore hg hf hpart) times hp bytes)
  simp only [Prod.mk.injEq] at hzv
  exact ⟨z, hz, hzv⟩

end Sys2Proof.Proofs
end

section
/-! The Assayer's jobs (R74, R75): which core a run takes and which digest it gives, and what a resolution does to the scores. -/

namespace Sys2Proof.Proofs
open Sys2Proof.Machine Sys2Proof.Laws

/-! A free choice and a run. -/

theorem chooseFrom_eq {α : Type} (s : State) (d : α) (l : List α) : ∃ n, (chooseFrom s d l).2 = { s with free := n } := by
  match l with
  | [] => exact ⟨_, rfl⟩
  | [_] => exact ⟨_, rfl⟩
  | _ :: _ :: _ => exact ⟨_, rfl⟩

theorem chooseFrom_mem {α : Type} (s : State) (d : α) {l : List α} (h : l ≠ []) : (chooseFrom s d l).1 ∈ l := by
  match l with
  | [] => exact absurd rfl h
  | [x] => exact List.mem_cons_self
  | x :: y :: r =>
    have hlt : Config.choice s.free % ((y :: r).length + 1) < (x :: y :: r).length := Nat.mod_lt _ (Nat.succ_pos _)
    change (x :: y :: r).getD (Config.choice s.free % ((y :: r).length + 1)) d ∈ _
    rw [List.getD_eq_getElem?_getD, List.getElem?_eq_getElem hlt]
    exact List.getElem_mem hlt

/-- R74, R75: a core that a run may take is in service and of none of the clusters of the runs before. -/
theorem of_mem_assayCores {s : State} {tenant c : Nat} {ks : List Nat} (h : c ∈ assayCores s tenant ks) :
    coreTakes s c = true ∧ clusterOf c ∉ ks := by
  unfold assayCores at h
  extract_lets all far at h
  have hall : c ∈ all := by
    split at h
    · exact h
    · exact (List.mem_filter.1 h).1
  have htakes : (coreTakes s c = true ∧ clusterOf c ∉ ks) ∧ hasSlot s c = true := by simpa using (List.mem_filter.1 hall).2
  exact htakes.1

theorem assayRun_eq (s : State) (c : Nat) (j : AJob) : ∃ n silent, (assayRun s c j).2 = { s with free := n, silent := silent } := by
  unfold assayRun
  split
  · exact ⟨_, _, rfl⟩
  · split
    · dsimp only
      split <;> exact ⟨_, _, rfl⟩
    · exact ⟨_, _, rfl⟩

/-- R74, R62: a run that no error strikes, from pages that stand as they were, gives the right digest. -/
theorem assayRun_truth {s : State} {c : Nat} {j : AJob} (hsilent : c ∉ s.silent) (hstale : immStale s j = false) :
    (assayRun s c j).1 = j.truth := by
  simp [assayRun, hsilent, hstale]

/-! What a page holds rests on memory, poison, contexts and migrations alone. -/

section
variable {s t : State} (hmem : t.mem = s.mem) (hpoison : t.poison = s.poison) (hmigs : t.migs = s.migs)

include hmem hpoison in
theorem walkFrom_congr (va n table : Nat) : walkFrom t va n table = walkFrom s va n table := by
  induction n generalizing table with
  | zero => rfl
  | succ n ih =>
    have hentry : ∀ a, entryAt t a = entryAt s a := fun a => by unfold entryAt; rw [hmem]
    simp only [walkFrom, hentry, hpoison, ih]

include hmem hpoison hmigs in
theorem access_congr (c : Context) (n : Need) (va : BitVec 64) : access t c n va = access s c n va := by
  have hwalk : walk t c va = walk s c va := by simp only [walk, walkFrom_congr hmem hpoison]
  have hmig : ∀ l, migFor t c l = migFor s c l := fun l => by unfold migFor migOf; rw [hmigs]
  unfold access
  rw [hwalk]
  simp only [hmig]

include hmem hpoison hmigs in
theorem immStale_congr (hctxs : t.ctxs = s.ctxs) (j : AJob) : immStale t j = immStale s j := by
  have hctx : t.ctx? j.ctx = s.ctx? j.ctx := by unfold State.ctx?; rw [hctxs]
  unfold immStale poisoned
  rw [hctx]
  simp only [access_congr hmem hpoison hmigs, hpoison, hmem]

end

/-! A job that runs again. -/

/-- R74, R43: the state in which a run begins: a core has been chosen, and the run is metered. -/
theorem note_chooseFrom_eq (s : State) (cs : List Nat) (tenant n : Nat) :
    ∃ free meter, note 99 tenant n (chooseFrom s 0 cs).2 = { s with free := free, meter := meter } := by
  obtain ⟨free, hfree⟩ := chooseFrom_eq s 0 cs
  obtain ⟨meter, hmeter⟩ := note_eq 99 tenant n { s with free := free }
  exact ⟨free, meter, by rw [hfree, hmeter]⟩

/-- R74, R75: a run on one of some cores: its core, its digest and what it leaves. -/
theorem assayRun_chosen (s : State) {cs : List Nat} (hcs : cs ≠ []) (tenant n : Nat) (j : AJob) :
    ∃ c ∈ cs, ∃ d free meter silent, (chooseFrom s 0 cs).1 = c ∧
      assayRun (note 99 tenant n (chooseFrom s 0 cs).2) c j = (d, { s with free := free, meter := meter, silent := silent }) ∧
      (c ∉ s.silent → immStale s j = false → d = j.truth) := by
  obtain ⟨free, meter, hstart⟩ := note_chooseFrom_eq s cs tenant n
  obtain ⟨free', silent, hrun⟩ := assayRun_eq { s with free := free, meter := meter } (chooseFrom s 0 cs).1 j
  refine ⟨_, chooseFrom_mem s 0 hcs, _, free', meter, silent, rfl, by rw [hstart]; exact Prod.ext rfl hrun, fun hsilent hstale => ?_⟩
  have hstale' : immStale { s with free := free, meter := meter } j = false :=
    (immStale_congr (by rfl) (by rfl) (by rfl) (by rfl) j).trans hstale
  exact assayRun_truth hsilent hstale'

/-- R74: a replay takes a core of another cluster. -/
theorem execAssayReplay_meets {n : Nat} {j : AJob} {s : State} (hj : tget? s.jobs n = some j) (hin : s.now < j.endAt + msTicks 50)
    (hreplay : j.replay = none) (hcs : assayCores s j.tenant [clusterOf j.core] ≠ []) :
    ∃ t c d, execAssayReplay n s = .next t ∧ tget? t.jobs n = some { j with replay := some (c, d) } ∧ coreTakes s c = true ∧
      clusterOf c ≠ clusterOf j.core ∧ (c ∉ s.silent → immStale s j = false → d = j.truth) ∧ t.mem = s.mem ∧ t.blocks = s.blocks := by
  obtain ⟨c, hc, d, free, meter, silent, hchosen, hrun, htruth⟩ := assayRun_chosen s hcs j.tenant (j.record.length + j.journal.length) j
  obtain ⟨htakes, hcluster⟩ := of_mem_assayCores hc
  have hexec : execAssayReplay n s =
      .next (setJob { s with free := free, meter := meter, silent := silent } n { j with replay := some (c, d) }) := by
    simp [execAssayReplay, hj, hreplay, inBound, hin, hcs, hchosen, hrun]
  exact ⟨_, c, d, hexec, tget?_tset_same .., htakes, by simpa using hcluster, htruth, rfl, rfl⟩

/-! Scores. -/

/-- R75: the score of a core. -/
def scoreOf (s : State) (c : Nat) : Nat := (s.core c).score

theorem scoreOf_modCore (s : State) (c : Nat) {f : Core → Core} (hf : ∀ k, (f k).score = k.score) (k : Nat) :
    scoreOf (modCore s c f) k = scoreOf s k := by
  unfold scoreOf
  by_cases hk : k = c
  · subst hk
    rw [core_modCore, hf]
  · rw [core_modCore_ne s hk]

theorem scoreOf_addPoints_same (s : State) (c n : Nat) : scoreOf (addPoints s c n) c = min 1023 (scoreOf s c + n) :=
  congrArg Core.score (core_modCore ..)

theorem scoreOf_addPoints_ne (s : State) {c k : Nat} (h : k ≠ c) (n : Nat) : scoreOf (addPoints s c n) k = scoreOf s k :=
  congrArg Core.score (core_modCore_ne s h _)

theorem scoreOf_addPass_ne (s : State) {c k : Nat} (h : k ≠ c) : scoreOf (addPass s c) k = scoreOf s k :=
  congrArg Core.score (core_modCore_ne s h _)

/-- R69, R75: a quarantine takes a core out of service with its score; only a reserve core that takes its number starts anew. -/
theorem scoreOf_quarantine (s : State) {c k : Nat} (h : k ≠ c + 768) : scoreOf (quarantine s c) k = scoreOf s k := by
  unfold quarantine
  dsimp only
  split
  · rfl
  · have hmarked := scoreOf_modCore s c (f := fun x => { x with quar := true, quarAt := s.now }) (fun _ => rfl) k
    unfold scoreOf at hmarked ⊢
    rw [core_replaceCore _ h, ← hmarked]
    split
    · next hk => subst hk; rfl
    · rfl

theorem assayRecord_eq (s : State) (j : AJob) (r : Nat × List Byte) (third : Option Nat) (outcome : Nat) :
    ∃ a b, assayRecord s j r third outcome = { s with portA := a, portB := b } := by
  unfold assayRecord
  exact postRecord_eq ..

theorem scoreOf_assayRecord (s : State) (j : AJob) (r : Nat × List Byte) (third : Option Nat) (outcome k : Nat) :
    scoreOf (assayRecord s j r third outcome) k = scoreOf s k := by
  obtain ⟨_, _, h⟩ := assayRecord_eq s j r third outcome
  rw [h]
  rfl

theorem scoreOf_endJob (s : State) (n : Nat) (j : AJob) (k : Nat) : scoreOf (endJob s n j) k = scoreOf s k :=
  scoreOf_modCore s (j.core % 768) (f := fun x => { x with ring := x.ring - (j.record.length + j.journal.length) }) (fun _ => rfl) k

theorem jobs_endJob (s : State) (n : Nat) (j : AJob) : tget? (endJob s n j).jobs n = none := by
  change tget? (tdel s.jobs n) n = none
  rw [tget?_tdel, if_pos rfl]

/-- R14: cores of different clusters are different, and so is a reserve core that takes the other's number. -/
theorem apart_of_clusterOf {c k : Nat} (h : clusterOf c ≠ clusterOf k) : c ≠ k ∧ c ≠ k + 768 := by
  unfold clusterOf at h
  omega

/-! A mismatch is resolved. -/

/-- R75: when the points have been given, the record is written, the cores are judged and the job ends. -/
def settleJob (s : State) (n : Nat) (j : AJob) (r : Nat × List Byte) (third : Option Nat) (outcome : Nat) : State :=
  endJob (quarantine (quarantine (assayRecord s j r third outcome) j.core) r.1) n j

theorem scoreOf_settleJob (s : State) (n : Nat) {j : AJob} {r : Nat × List Byte} (third : Option Nat) (outcome : Nat) {k : Nat}
    (hcore : k ≠ j.core + 768) (hreplay : k ≠ r.1 + 768) : scoreOf (settleJob s n j r third outcome) k = scoreOf s k := by
  rw [settleJob, scoreOf_endJob, scoreOf_quarantine _ hreplay, scoreOf_quarantine _ hcore, scoreOf_assayRecord]

section
variable (s : State) (n : Nat) {j : AJob} {r : Nat × List Byte}

/-- R75: the third run sides with the phase, and the core of the replay is charged. -/
theorem resolveAssay_phase {t : Nat × List Byte} (h : t.2 = j.digest) : resolveAssay s n j r (some t) =
    settleJob (addPass (addPass (addPoints s r.1 256) j.core) t.1) n j r (some t.1) 2 := by
  simp [resolveAssay, settleJob, h]

/-- R75: the third run sides with the replay, and the core of the phase is charged. -/
theorem resolveAssay_replay {t : Nat × List Byte} (h : t.2 ≠ j.digest) (h' : t.2 = r.2) : resolveAssay s n j r (some t) =
    settleJob (addPass (addPass (addPoints s j.core 256) r.1) t.1) n j r (some t.1) 1 := by
  have hne : ¬(r.2 = j.digest) := h' ▸ h
  simp [resolveAssay, settleJob, h', hne]

/-- R75: the third run sides with neither, and both are charged. -/
theorem resolveAssay_neither {t : Nat × List Byte} (h : t.2 ≠ j.digest) (h' : t.2 ≠ r.2) : resolveAssay s n j r (some t) =
    settleJob (addPoints (addPoints s j.core 128) r.1 128) n j r (some t.1) 3 := by
  simp [resolveAssay, settleJob, h, h']

theorem resolveAssay_unresolved : resolveAssay s n j r none = settleJob (addPoints (addPoints s j.core 128) r.1 128) n j r none 3 := rfl

theorem jobs_resolveAssay (third : Option (Nat × List Byte)) : tget? (resolveAssay s n j r third).jobs n = none := jobs_endJob ..

variable (hapart : clusterOf r.1 ≠ clusterOf j.core)

include hapart in
/-- R75: both cores of an unresolved mismatch are charged half. -/
theorem scoreOf_bothCharged (third : Option Nat) :
    scoreOf (settleJob (addPoints (addPoints s j.core 128) r.1 128) n j r third 3) j.core = min 1023 (scoreOf s j.core + 128) ∧
      scoreOf (settleJob (addPoints (addPoints s j.core 128) r.1 128) n j r third 3) r.1 = min 1023 (scoreOf s r.1 + 128) := by
  obtain ⟨hne, hreserve⟩ := apart_of_clusterOf hapart
  obtain ⟨hne', hreserve'⟩ := apart_of_clusterOf hapart.symm
  constructor
  · rw [scoreOf_settleJob _ _ _ _ (by omega) hreserve', scoreOf_addPoints_ne _ hne', scoreOf_addPoints_same]
  · rw [scoreOf_settleJob _ _ _ _ hreserve (by omega), scoreOf_addPoints_same, scoreOf_addPoints_ne _ hne]

include hapart in
/-- R75: whom a third run on a core of a third cluster charges. -/
theorem scoreOf_resolveAssay {c : Nat} (d : List Byte) (hcore : clusterOf c ≠ clusterOf j.core) (hreplay : clusterOf c ≠ clusterOf r.1) :
    (d = j.digest → scoreOf (resolveAssay s n j r (some (c, d))) r.1 = min 1023 (scoreOf s r.1 + 256)) ∧
      (d ≠ j.digest → d = r.2 → scoreOf (resolveAssay s n j r (some (c, d))) j.core = min 1023 (scoreOf s j.core + 256)) ∧
      (d ≠ j.digest → d ≠ r.2 → scoreOf (resolveAssay s n j r (some (c, d))) j.core = min 1023 (scoreOf s j.core + 128) ∧
        scoreOf (resolveAssay s n j r (some (c, d))) r.1 = min 1023 (scoreOf s r.1 + 128)) := by
  obtain ⟨hne, hreserve⟩ := apart_of_clusterOf hapart
  obtain ⟨hne', hreserve'⟩ := apart_of_clusterOf hapart.symm
  refine ⟨fun h => ?_, fun h h' => ?_, fun h h' => ?_⟩
  · rw [resolveAssay_phase s n h, scoreOf_settleJob _ _ _ _ hreserve (by omega), scoreOf_addPass_ne _ (apart_of_clusterOf hreplay.symm).1,
      scoreOf_addPass_ne _ hne, scoreOf_addPoints_same]
  · rw [resolveAssay_replay s n h h', scoreOf_settleJob _ _ _ _ (by omega) hreserve', scoreOf_addPass_ne _ (apart_of_clusterOf hcore.symm).1,
      scoreOf_addPass_ne _ hne', scoreOf_addPoints_same]
  · rw [resolveAssay_neither s n h h']
    exact scoreOf_bothCharged s n hapart _

end

/-! Comparison, third run and expiry. -/

/-- R74, R75: the counters of the Assayer stop at all ones. -/
theorem sat16_eq (x : BitVec 16) : sat16 x = if x = 0xFFFF then 0xFFFF else x + 1 := by
  unfold sat16
  split
  · assumption
  · rfl

/-- R75: a match ends the job. -/
theorem execAssayCompare_match {n : Nat} {j : AJob} {s : State} {r : Nat × List Byte} (hj : tget? s.jobs n = some j)
    (hin : s.now < j.endAt + msTicks 50) (hr : j.replay = some r) (hfirst : j.differs = false) (heq : r.2 = j.digest) :
    ∃ t, execAssayCompare n s = .next t ∧ t.mem = s.mem ∧ t.blocks = s.blocks ∧ tget? t.jobs n = none ∧ t.sh.cntMatch = sat16 s.sh.cntMatch := by
  let u := addPass (addPass (modSh s (fun h => { h with cntMatch := sat16 h.cntMatch })) j.core) r.1
  have hexec : execAssayCompare n s = .next (endJob (if u.sh.logmatch then assayRecord u j r none 0 else u) n j) := by
    simp [execAssayCompare, hj, hr, hfirst, inBound, hin, heq, u]
  obtain ⟨a, b, hrecord⟩ : ∃ a b, (if u.sh.logmatch then assayRecord u j r none 0 else u) = { u with portA := a, portB := b } := by
    split
    · exact assayRecord_eq ..
    · exact ⟨_, _, rfl⟩
  rw [hrecord] at hexec
  exact ⟨_, hexec, by simp [u], by simp [endJob, addPass, u], jobs_endJob .., by simp [endJob, addPass, u, modSh]⟩

/-- R75: a mismatch is counted, and a third run is due. -/
theorem execAssayCompare_mismatch {n : Nat} {j : AJob} {s : State} {r : Nat × List Byte} (hj : tget? s.jobs n = some j)
    (hin : s.now < j.endAt + msTicks 50) (hr : j.replay = some r) (hfirst : j.differs = false) (hne : r.2 ≠ j.digest) :
    ∃ t, execAssayCompare n s = .next t ∧ t.mem = s.mem ∧ t.blocks = s.blocks ∧ tget? t.jobs n = some { j with differs := true } ∧
      t.sh.cntMismatch = sat16 s.sh.cntMismatch := by
  have hexec : execAssayCompare n s =
      .next (setJob (modSh s (fun h => { h with cntMismatch := sat16 h.cntMismatch })) n { j with differs := true }) := by
    simp [execAssayCompare, hj, hr, hfirst, inBound, hin, hne]
  exact ⟨_, hexec, by simp, by simp [setJob], tget?_tset_same .., rfl⟩

/-- R75: a third run takes a core of a third cluster, and resolves the mismatch. -/
theorem execAssayThirdRun_meets {n : Nat} {j : AJob} {s : State} {r : Nat × List Byte} (hj : tget? s.jobs n = some j)
    (hin : s.now < j.endAt + msTicks 50) (hr : j.replay = some r) (hdiffers : j.differs = true) (hapart : clusterOf r.1 ≠ clusterOf j.core)
    (hcs : assayCores s j.tenant [clusterOf j.core, clusterOf r.1] ≠ []) :
    ∃ t c d, execAssayThirdRun n s = .next t ∧ tget? t.jobs n = none ∧ clusterOf c ≠ clusterOf j.core ∧ clusterOf c ≠ clusterOf r.1 ∧
      t.mem = s.mem ∧
      (d = j.digest → scoreOf t r.1 = min 1023 (scoreOf s r.1 + 256)) ∧
      (d ≠ j.digest → d = r.2 → scoreOf t j.core = min 1023 (scoreOf s j.core + 256)) ∧
      (d ≠ j.digest → d ≠ r.2 → scoreOf t j.core = min 1023 (scoreOf s j.core + 128) ∧ scoreOf t r.1 = min 1023 (scoreOf s r.1 + 128)) := by
  obtain ⟨c, hc, d, free, meter, silent, hchosen, hrun, -⟩ := assayRun_chosen s hcs j.tenant (j.record.length + j.journal.length) j
  obtain ⟨hcore, hreplay⟩ : clusterOf c ≠ clusterOf j.core ∧ clusterOf c ≠ clusterOf r.1 := by simpa using (of_mem_assayCores hc).2
  have hexec : execAssayThirdRun n s =
      .next (resolveAssay { s with free := free, meter := meter, silent := silent } n j r (some (c, d))) := by
    simp [execAssayThirdRun, hj, hr, hdiffers, inBound, hin, hcs, hchosen, hrun]
  exact ⟨_, c, d, hexec, jobs_resolveAssay .., hcore, hreplay, resolveAssay_mem .., scoreOf_resolveAssay _ n hapart d hcore hreplay⟩

/-- R74: a phase that was not compared in time is skipped. -/
theorem execAssayBoundExpiry_skips {n : Nat} {j : AJob} {s : State} (hj : tget? s.jobs n = some j) (hlate : j.endAt + msTicks 50 ≤ s.now)
    (hopen : j.replay = none ∨ j.differs = false) : execAssayBoundExpiry n s = .next (endJob (countSkipped s) n j) := by
  have hbound : inBound s j = false := decide_eq_false (Nat.not_lt.2 hlate)
  unfold execAssayBoundExpiry
  simp only [hj, hbound, Bool.false_eq_true, if_false]
  cases hr : j.replay with
  | none => rfl
  | some r => simp [hopen.resolve_left (by simp [hr])]

/-- R75: a mismatch without a third run in time is unresolved. -/
theorem execAssayBoundExpiry_unresolved {n : Nat} {j : AJob} {s : State} {r : Nat × List Byte} (hj : tget? s.jobs n = some j)
    (hlate : j.endAt + msTicks 50 ≤ s.now) (hr : j.replay = some r) (hdiffers : j.differs = true) :
    execAssayBoundExpiry n s = .next (resolveAssay s n j r none) := by
  have hbound : inBound s j = false := decide_eq_false (Nat.not_lt.2 hlate)
  simp [execAssayBoundExpiry, hj, hbound, hr, hdiffers]

/-- R74, R75: 50 ms after its phase a job ends. -/
theorem execAssayBoundExpiry_meets {n : Nat} {j : AJob} {s : State} (hj : tget? s.jobs n = some j) (hlate : j.endAt + msTicks 50 ≤ s.now) :
    ∃ t, execAssayBoundExpiry n s = .next t ∧ tget? t.jobs n = none ∧ t.mem = s.mem ∧
      (j.replay = none ∨ j.differs = false → t.sh.cntSkipped = if s.sh.cntSkipped = 0xFFFF then 0xFFFF else s.sh.cntSkipped + 1) ∧
      (∀ r, j.replay = some r → j.differs = true → clusterOf r.1 ≠ clusterOf j.core →
        scoreOf t j.core = min 1023 (scoreOf s j.core + 128) ∧ scoreOf t r.1 = min 1023 (scoreOf s r.1 + 128)) := by
  by_cases hopen : j.replay = none ∨ j.differs = false
  · refine ⟨_, execAssayBoundExpiry_skips hj hlate hopen, jobs_endJob .., by simp, fun _ => sat16_eq _, fun r hr hdiffers _ => ?_⟩
    simp [hr, hdiffers] at hopen
  · obtain ⟨hreplay, hdiffers⟩ := not_or.1 hopen
    obtain ⟨r, hr⟩ := Option.ne_none_iff_exists'.1 hreplay
    refine ⟨_, execAssayBoundExpiry_unresolved hj hlate hr (by simpa using hdiffers), jobs_resolveAssay .., resolveAssay_mem ..,
      fun h => absurd h hopen, fun r' hr' _ hapart => ?_⟩
    obtain rfl : r = r' := Option.some.inj (hr.symm.trans hr')
    rw [resolveAssay_unresolved]
    exact scoreOf_bothCharged s n hapart none

end Sys2Proof.Proofs
end

section
/-! Patrol, refresh, in-field tests, quarantine, matrix unit resets and the Assayer (R61, R64, R65, R67, R74, R75, R166, R192), together. -/

namespace Sys2Proof.Proofs
open Sys2Proof.Machine Sys2Proof.Laws

/-- Settles O44, event by event. Patrol and refresh turn on what finding an error changes, and on each sector of a run being found once it
has been read. A matrix unit reset turns on what a group shows of its operation, which a rollback keeps. The Assayer turns on the cores of
the three runs being of different clusters: then points, passes and the reserve cores that a quarantine brings in leave each other's scores
alone. -/
theorem reliabilityEvents : Obligations.reliability_events := by
  refine ⟨fun _ _ => ⟨execPatrolScrub_clean, execPatrolScrub_finds⟩, fun _ _ => ⟨execRefresh_idle, execRefresh_finds⟩,
    fun _ _ _ _ => refreshes_scrLoc, fun _ _ _ => rfl, fun _ lane _ => execInFieldTest_fails lane, fun _ _ => execQuarantineTimeout_meets,
    fun _ _ _ => execMatrixUnitReset_meets, ?assay, fun _ _ _ => execAssayBoundExpiry_meets⟩
  case assay =>
    intro n j s hj hin
    refine ⟨execAssayReplay_meets hj hin, fun r hr hfirst => ?_, fun r => execAssayThirdRun_meets hj hin⟩
    by_cases heq : r.2 = j.digest
    · obtain ⟨t, hexec, hmem, hblocks, hjobs, hcount⟩ := execAssayCompare_match hj hin hr hfirst heq
      exact ⟨t, hexec, hmem, hblocks, by rw [if_pos heq]; exact ⟨hjobs, hcount.trans (sat16_eq _)⟩⟩
    · obtain ⟨t, hexec, hmem, hblocks, hjobs, hcount⟩ := execAssayCompare_mismatch hj hin hr hfirst heq
      exact ⟨t, hexec, hmem, hblocks, by rw [if_neg heq]; exact ⟨hjobs, hcount.trans (sat16_eq _)⟩⟩

end Sys2Proof.Proofs
end

section
/-! Instruction words as passes, and what a precise fault of the first thread of a path commits (R147): nothing. -/

namespace Sys2Proof.Proofs
open Sys2Proof.Machine Sys2Proof.Laws

/-- Every instruction word runs one pass, whose conditions are those of `extraOf`. The words of the second group first find the errors in what
they read. -/
theorem exec_eq_runPass (i : Instr) (hword : opcode i ≠ 256) :
    ∃ eff, ∀ s, findSel i s = s → exec i s = runPass i (extraOf i) eff s := by
  cases i with
  | nop | bra | call | ret | jmpr | brz | brnz | brlt | brge | meet | repack | loop | exit | winb | add | sub | mul | mad | div | rem | min
    | max | abs | neg | cmp | cmpe | sel | lea | mulw | clamp | and | or | xor | andn | orn | xnor | shl | shr | sar | rot | extf | depf |
    popc | clz | ctz | brev | addi | muli | andi | ori | xori | shli | shri | sari | cmpieq | cmpilt | cmpiltn | mini | ldk | ldkh | mov |
    mort | seedc | rdtail | red | redf | tshb | tshf | tbcst | poll | qswp | qred | help | cellh | tmask | tpos | fadd | fsub | fmul | ffma
    | fmin | fmax | fcmp | fsgn | pkadd | pkmul | pkfma | fdiv | fsqrt | frnd | fclass | fscl | frcp | frsq | fex2 | flg2 | fsin | ftanh |
    dadd | dsub | dmul | dfma | ddiv | dsqrt | dmin | dcmp | cvt | cvtz | cvtu | cvtd | pack | unpk | pk8 | upk8 | pref | alloc | free |
    life | expq | pub | acq | fence | bar | bara | barw | phase | wait | gang | cpy | cpyt | coll | accz | mmaq | qput | qtakeQ | qtakeStage
    | qmput | qrel | qstat | yieldI | trap | trapRet | trapNext | live | region | assay | rdsr | wrsr | bkpt | dbgm | watch | sleep | clas |
    reservedEncoding =>
    exact ⟨_, fun _ _ => rfl⟩
  | ldb | ldbs | ldh | ldhs | ldw | ldd | ldq | stb | sth | stw | std | stq | ldx | stx | ldu | lds | sts | ldsx | stsx | ldl | stl | ldlb |
    stlb | ldhw | sthw | aadd | amin | aminn | amax | amaxn | aand | aor | axor | axch | acas | afadd | afmin | ainc | asadd | asmin | ascas
    | mma | mmas | mmaf | gath | spawn | join =>
    exact ⟨_, fun _ hs => congrArg (runPass _ _ _) hs⟩
  | _ => exact absurd rfl hword

/-! The first thread of a path. -/

/-- The selected pass stands in its block. -/
theorem blk?_of_pass? {s : State} {p : Pass} (h : pass? s = some p) : s.blk? p.b = some p.B ∧ p.B.groups[p.g]? = some p.G := by
  unfold pass? at h
  split at h
  · cases h
  · split at h
    · cases h
    · next x hx =>
      split at h
      · cases h
      · next y hy =>
        split at h
        · cases h
          exact ⟨hx, hy⟩
        · cases h

/-- The lowest thread of a path begins its list, and the others lie above it. -/
theorem path_cons {s : State} {p : Pass} (h : pass? s = some p) : ∃ r, p.L = p.low :: r ∧ ∀ t ∈ r, p.low < t := by
  obtain ⟨-, hmask, hne⟩ := pass?_some h
  obtain ⟨a, r, hL⟩ := List.exists_cons_of_ne_nil hne
  have hlow : p.low = a := by rw [Pass.low, hL]; rfl
  have hsorted := maskList_sorted p.mask
  rw [← hmask, hL, List.pairwise_cons] at hsorted
  rw [hlow]
  exact ⟨r, hL, hsorted.1⟩

theorem filter_below_low {s : State} {p : Pass} (h : pass? s = some p) : p.L.filter (· < p.low) = [] := by
  obtain ⟨r, hL, habove⟩ := path_cons h
  rw [List.filter_eq_nil_iff, hL]
  intro t ht
  rcases List.mem_cons.1 ht with rfl | ht
  · simp
  · simpa using Nat.le_of_lt (habove t ht)

/-- R147: a fault of the path's first thread is what judging the path gives. -/
theorem judge_low {i : Instr} {s : State} {p : Pass} {e : Nat → Option Cond} {k : FKind} {aux : Word} {addr : BitVec 64} (h : pass? s = some p)
    (hfault : condAt p i e p.low = some (.fault k aux addr)) :
    judge p i e = .fault k p.low (listMask (p.L.filter (fun t => sameKind k (condAt p i e t)))) aux addr := by
  obtain ⟨r, hL, -⟩ := path_cons h
  have hfind : p.L.find? (fun t => (condAt p i e t).isSome) = some p.low := by simp [hL, hfault]
  unfold judge
  simp only [hfind, hfault]

/-! What goes on beside the instruction. -/

/-- `t` is `s` with group `y` in the path's place, but for what is kept beside an instruction that does not commit: the Assayer's record of the
phase and its counts, TCODE (R388), and the chain-resume state (R173). -/
structure Uncommitted (s : State) (p : Pass) (t : State) (y : Group) : Prop where
  state : ∃ sh blocks, t = { s with sh := sh, blocks := blocks }
  block : ∃ groups, t.blk? p.b = some { p.B with groups := groups } ∧ groups[p.g]? = some y
  group : ∃ a tcode resume, y = { p.G with a := a, r := { p.G.r with tcode := tcode, resume := resume } }

namespace Uncommitted

variable {s t : State} {p : Pass} {y : Group}

theorem refl (h : pass? s = some p) : Uncommitted s p s p.G :=
  ⟨⟨_, _, rfl⟩, ⟨_, (blk?_of_pass? h).1, (blk?_of_pass? h).2⟩, ⟨_, _, _, rfl⟩⟩

/-- A change of the group in what is kept beside the instruction. -/
theorem of_modGrp (h : Uncommitted s p t y) {f : Group → Group} {a : AssayG} {tcode : Word} {resume : List Resume}
    (hf : f y = { y with a := a, r := { y.r with tcode := tcode, resume := resume } }) : Uncommitted s p (modGrp t p.b p.g f) (f y) := by
  obtain ⟨⟨sh, blocks, hstate⟩, ⟨groups, hblock, hgroup⟩, ⟨_, _, _, hy⟩⟩ := h
  obtain ⟨blocks', hmod⟩ := modGrp_eq t p.b p.g f
  refine ⟨⟨sh, blocks', by rw [hmod, hstate]⟩, ⟨lmod groups p.g f, by rw [blk?_modGrp, hblock]; rfl, by rw [getElem?_lmod, hgroup]; simp⟩,
    ⟨a, tcode, resume, by rw [hf, hy]⟩⟩

theorem of_modSh (h : Uncommitted s p t y) (f : Shared → Shared) : Uncommitted s p (modSh t f) y := by
  obtain ⟨⟨sh, blocks, hstate⟩, hblock, hgroup⟩ := h
  exact ⟨⟨f sh, blocks, by rw [hstate]; rfl⟩, hblock, hgroup⟩

theorem grp?_eq (h : Uncommitted s p t y) : t.grp? p.b p.g = some y := by
  obtain ⟨groups, hblock, hgroup⟩ := h.block
  rw [grp?_of_blk? hblock, hgroup]

theorem of_unassayable (h : Uncommitted s p t y) : ∃ z, Uncommitted s p (unassayable t p.b p.g) z := by
  unfold unassayable
  rw [h.grp?_eq]
  dsimp only
  split
  · exact ⟨_, (h.of_modGrp rfl).of_modSh _⟩
  · exact ⟨y, h⟩

end Uncommitted

variable {s : State} {p : Pass}

/-- R147, R173: no slot of the path lies below its first thread; a path that reads `prv` keeps the value its chain starts from. -/
theorem commitBelow_low (h : pass? s = some p) (i : Instr) (eff : Pass → State → State) : commitBelow i eff p p.low true s =
    if readsPrv i then modGrp s p.b p.g (fun y => { y with r := { y.r with
      resume := y.r.resume ++ [{ pc := p.pc, val := chainStart p, fresh := true }] } })
    else s := by
  obtain ⟨r, hL, -⟩ := path_cons h
  have hsome : (0 == p.L.length) = false := by simp [hL]
  unfold commitBelow
  cases i.xclass <;> simp [filter_below_low h, hsome]

theorem uncommitted_commitBelow (h : pass? s = some p) (i : Instr) (eff : Pass → State → State) :
    ∃ y, Uncommitted s p (commitBelow i eff p p.low true s) y := by
  rw [commitBelow_low h]
  split
  · exact ⟨_, (Uncommitted.refl h).of_modGrp rfl⟩
  · exact ⟨_, Uncommitted.refl h⟩

/-- R388, R394: what TRAP and BKPT do before their fault. -/
theorem uncommitted_faultPre {t : State} {y : Group} (h : Uncommitted s p t y) (i : Instr) (k : FKind) :
    ∃ z, Uncommitted s p (faultPre i k p t) z := by
  obtain ⟨z, hz⟩ := h.of_unassayable
  unfold faultPre
  split
  · exact ⟨_, hz.of_modGrp rfl⟩
  · exact ⟨z, hz⟩
  · exact ⟨y, h⟩

/-- R147: where the first thread of its path meets a fault, an instruction word takes it in a state in which nothing of the word has committed. -/
theorem exec_takes_fault {i : Instr} {k : FKind} {aux : Word} {addr : BitVec 64} (hword : opcode i ≠ 256) (hfind : findSel i s = s)
    (hp : pass? s = some p) (hjudged : p.judged = false) (hfault : condAt p i (extraOf i p s) p.low = some (.fault k aux addr)) :
    ∃ t y, Uncommitted s p t y ∧ exec i s = .next (takeFault t p.b p.g k p.low p.upper p.pc
      (listMask (p.L.filter (fun u => sameKind k (condAt p i (extraOf i p s) u)))) aux addr (postVal p i p.low) p.low) := by
  obtain ⟨eff, hexec⟩ := exec_eq_runPass i hword
  obtain ⟨y, hy⟩ := uncommitted_commitBelow hp i eff
  obtain ⟨z, hz⟩ := uncommitted_faultPre (hy.of_modGrp (f := freshResume) rfl) i k
  refine ⟨_, z, hz, ?_⟩
  rw [hexec s hfind]
  unfold runPass
  simp only [hp, hjudged, judge_low hp hfault, Bool.false_eq_true, if_false]

end Sys2Proof.Proofs
end

section
/-! Taking a precise fault (R147 to R151): what the group that enters its handler and the group that parks are left with. -/

namespace Sys2Proof.Proofs
open Sys2Proof.Machine Sys2Proof.Laws

/-! Single operations. -/

theorem getElem?_lmapIx {α β : Type} (f : Nat → α → β) (l : List α) (i k : Nat) : (lmapIx i f l)[k]? = (l[k]?).map (f (i + k)) := by
  induction l generalizing i k with
  | nil => rfl
  | cons x r ih =>
    cases k with
    | zero => rfl
    | succ k => simp [lmapIx, ih, show i + 1 + k = i + (k + 1) by omega]

theorem emptyLatches_thr (y : Group) (u : Nat) :
    (emptyLatches y).thr[u]? = (y.thr[u]?).map (fun z => { z with latch := [], event := true }) := by
  simp [emptyLatches, modAllThr]

theorem pcOf_emptyLatches (y : Group) (u : Nat) : (emptyLatches y).pcOf u = y.pcOf u := by
  unfold Group.pcOf
  rw [emptyLatches_thr]
  cases y.thr[u]? <;> rfl

/-- R150: the threads of MASK go to the handler, the others stay, and every latch stack is emptied. -/
theorem enterHandler_thr (traph pc : Word) (mask : BitVec 32) (y : Group) {u : Nat} {z : Thread} (h : y.thr[u]? = some z) :
    (enterHandler traph pc mask y).thr[u]? =
      some { z with pc := if mask.getLsbD u then traph else z.pc, latch := [], event := true } := by
  unfold enterHandler
  rw [emptyLatches_thr, getElem?_lmapIx, h, Nat.zero_add]
  dsimp only [Option.map_some]
  split <;> rfl

theorem leaveLane_eq (s : State) (b g : Nat) : ∃ cores, leaveLane s b g = { s with cores := cores } := by
  unfold leaveLane
  split
  · exact ⟨_, rfl⟩
  · split <;> exact ⟨_, rfl⟩

theorem grp?_leaveLane (s : State) (b g k j : Nat) : (leaveLane s b g).grp? k j = s.grp? k j := by
  obtain ⟨_, h⟩ := leaveLane_eq s b g
  rw [h]
  rfl

theorem port_leaveLane (s : State) (b g : Nat) (hp : HPort) : (leaveLane s b g).port hp = s.port hp := by
  obtain ⟨_, h⟩ := leaveLane_eq s b g
  rw [h]
  rfl

/-- R142, R152: a group that parks. -/
theorem grp?_park {s : State} {b g : Nat} {y : Group} (hy : s.grp? b g = some y) (key : ParkKey) :
    ∃ o, (park s b g key).grp? b g = some (emptyLatches (setStatus (.parked key o) y)) := by
  obtain ⟨x, hx, -⟩ := blk?_of_grp? hy
  unfold park
  rw [hx]
  exact ⟨_, by rw [grp?_modGrp_same, grp?_leaveLane, hy]; rfl⟩

theorem port_park (s : State) (b g : Nat) (key : ParkKey) (hp : HPort) : (park s b g key).port hp = s.port hp := by
  unfold park
  split
  · rfl
  · rw [port_modGrp, port_leaveLane]

theorem grp?_postTrap (s : State) (hp : HPort) (h : Held) (b g : Nat) : (postTrap s hp h).grp? b g = s.grp? b g := by cases hp <;> rfl

/-- R158: an entry of a group waits for room, behind those that wait already. -/
theorem held_postTrap_of_own (s : State) (hp : HPort) {h : Held} (hown : h.own = true) :
    ((postTrap s hp h).port hp).trap.held = (s.port hp).trap.held ++ [h] := by
  unfold postTrap modTrap
  simp [hown]

/-! The frame, and the entry that carries it. -/

theorem wordsBytes_length (l : List Word) : (wordsBytes l).length = 4 * l.length := by
  induction l with
  | nil => rfl
  | cons w r ih => simp only [wordsBytes, List.length_append, leBytes_length, ih, List.length_cons]; omega

/-- R66, R159: DETAIL is the second half of an entry. -/
theorem entryBytes_detail (kind sev die unit cluster core lane owner addr time : Nat) (ctx aux : Word) {detail : List Byte}
    (h : detail.length = 32) : (entryBytes kind sev die unit cluster core lane owner addr time ctx aux detail).drop 32 = detail := by
  unfold entryBytes
  rw [List.drop_left' (by simp [leBytes_length]), List.take_left' h]

theorem lo32_eq (a : BitVec 64) : lo32 a = BitVec.ofNat 32 a.toNat := rfl

theorem hi32_eq (a : BitVec 64) : hi32 a = BitVec.ofNat 32 (a.toNat / 2 ^ 32) := by
  apply BitVec.eq_of_toNat_eq
  simp [hi32, Nat.shiftRight_eq_div_pow]

/-! What the device shows to a fault is as it was before the instruction. -/

namespace Uncommitted

variable {s t : State} {p : Pass} {y : Group}

theorem mem_eq (h : Uncommitted s p t y) : t.mem = s.mem := by
  obtain ⟨_, _, hstate⟩ := h.state
  rw [hstate]

theorem port_eq (h : Uncommitted s p t y) (hp : HPort) : t.port hp = s.port hp := by
  obtain ⟨_, _, hstate⟩ := h.state
  rw [hstate]
  rfl

theorem ctxPort_eq (h : Uncommitted s p t y) (c : Word) : ctxPort t c = ctxPort s c := by
  obtain ⟨_, _, hstate⟩ := h.state
  rw [hstate]
  rfl

theorem handler_eq (h : Uncommitted s p t y) : y.handler = p.G.handler := by
  obtain ⟨_, _, _, hgroup⟩ := h.group
  rw [hgroup]

theorem debugOn_eq (h : Uncommitted s p t y) (groups : List Group) : debugOn t { p.B with groups := groups } = debugOn s p.B := by
  obtain ⟨_, _, hstate⟩ := h.state
  rw [hstate]
  rfl

end Uncommitted

section
variable {s t : State} {p : Pass} {y : Group} {k : FKind} {mask : BitVec 32} {aux : Word} {addr : BitVec 64} {val : Word} {low : Nat}

/-- R148: the frame of a fault of the path's first thread. -/
def lowFrame (p : Pass) (k : FKind) (mask : BitVec 32) (aux : Word) (addr : BitVec 64) : List Word :=
  frameWords k p.low p.upper p.G.handler.isSome p.pc mask aux addr

/-- R148, R173: the group with the frame of its fault; a REPLAY ends the chain-resume state. -/
def framed (k : FKind) (frame : List Word) (y : Group) : Group :=
  { y with r := { y.r with frame := frame, resume := if k == .replay then [] else y.r.resume } }

theorem Uncommitted.framed_eq (h : Uncommitted s p t y) (frame : List Word) : ∃ a tcode resume, framed k frame y =
    { p.G with a := a, r := { p.G.r with tcode := tcode, resume := resume, frame := frame } } := by
  obtain ⟨a, tcode, _, hgroup⟩ := h.group
  exact ⟨a, tcode, _, by rw [hgroup]; rfl⟩

theorem Uncommitted.grp?_framed (h : Uncommitted s p t y) (frame : List Word) :
    (modGrp t p.b p.g (framed k frame)).grp? p.b p.g = some (framed k frame y) := by
  rw [grp?_modGrp_same, h.grp?_eq]
  rfl

theorem debugOn_modGrp (s : State) (b g : Nat) (f : Group → Group) (x : Block) : debugOn (modGrp s b g f) x = debugOn s x := by
  obtain ⟨_, h⟩ := modGrp_eq s b g f
  rw [h]
  rfl

theorem ctxPort_modGrp (s : State) (b g : Nat) (f : Group → Group) (c : Word) : ctxPort (modGrp s b g f) c = ctxPort s c := by
  obtain ⟨_, h⟩ := modGrp_eq s b g f
  rw [h]
  rfl

/-! With a handler. -/

/-- R150: a group with a handler, and not in it, enters it. -/
theorem takeFault_enters (h : Uncommitted s p t y) (hreplay : k ≠ .replay) (hdebug : k = .bkpt ∨ k = .watch → debugOn s p.B = false)
    (htraph : p.B.h.traph ≠ 0) (hhandler : p.G.handler = none) :
    takeFault t p.b p.g k p.low p.upper p.pc mask aux addr val low =
      modGrp (leaveLane (modGrp t p.b p.g (framed k (lowFrame p k mask aux addr))) p.b p.g) p.b p.g (enterHandler p.B.h.traph p.pc mask) := by
  obtain ⟨groups, hblock, hgroup⟩ := h.block
  have hhalt : ((k == .bkpt || k == .watch) && debugOn t { p.B with groups := groups }) = false := by
    rw [h.debugOn_eq]
    by_cases hk : k = .bkpt ∨ k = .watch
    · simp [hdebug hk]
    · simpa using fun h' => absurd h' hk
  have hunhandled : (k == .replay || p.B.h.traph == 0 || y.handler.isSome) = false := by
    rw [beq_eq_false_iff_ne.2 htraph, h.handler_eq, hhandler]
    simp [hreplay]
  unfold takeFault
  simp only [hblock, hgroup, debugOn_modGrp, hhalt, hunhandled, Bool.false_eq_true, if_false]
  rw [h.handler_eq]
  rfl

theorem handled_takeFault (h : Uncommitted s p t y) (hreplay : k ≠ .replay) (hdebug : k = .bkpt ∨ k = .watch → debugOn s p.B = false)
    (htraph : p.B.h.traph ≠ 0) (hhandler : p.G.handler = none) :
    Handled s (takeFault t p.b p.g k p.low p.upper p.pc mask aux addr val low) p k mask aux addr := by
  obtain ⟨a, tcode, resume, hframed⟩ := h.framed_eq (k := k) (lowFrame p k mask aux addr)
  rw [takeFault_enters h hreplay hdebug htraph hhandler]
  refine ⟨enterHandler p.B.h.traph p.pc mask (framed k (lowFrame p k mask aux addr) y), ?_, ?_, ?_⟩
  · rw [grp?_modGrp_same, grp?_leaveLane, h.grp?_framed]
    rfl
  · simp [h.mem_eq]
  · rw [hframed]
    refine ⟨rfl, rfl, rfl, rfl, rfl, rfl, rfl, ?_, rfl, fun u z hz => enterHandler_thr _ _ _ _ hz⟩
    show lowFrame p k mask aux addr = _
    simp [lowFrame, frameWords, hhandler, lo32_eq, hi32_eq, bit]

/-! Without one, or inside it. -/

/-- R151, R159: the entry of an unhandled fault. -/
def faultEntry (s : State) (x : Block) (lane : Nat) (frame : List Word) : List Byte :=
  entryBytes 1 1 (dieOf x.core) 5 (clusterOf x.core) (x.core % 8) lane (ctxTenant s x.ctx) 0 (s.etm x.core) x.ctx 0 (wordsBytes frame)

/-- R151: without a handler, or inside it, the entry is posted and the group parks under it. -/
theorem takeFault_parks (h : Uncommitted s p t y) (hdebug : debugOn s p.B = false) (hnone : p.B.h.traph = 0 ∨ p.G.handler ≠ none) :
    ∃ l, l.take 1 = [1] ∧ l.drop 32 = wordsBytes (lowFrame p k mask aux addr) ∧
      takeFault t p.b p.g k p.low p.upper p.pc mask aux addr val low =
        park (postTrap (modGrp t p.b p.g (framed k (lowFrame p k mask aux addr))) (ctxPort s p.B.ctx)
          { own := true, grp := some (p.b, p.g), bytes := l }) p.b p.g (.entry (ctxPort s p.B.ctx) 0) := by
  obtain ⟨groups, hblock, hgroup⟩ := h.block
  have hhalt : debugOn t { p.B with groups := groups } = false := by rw [h.debugOn_eq, hdebug]
  have hunhandled : (k == .replay || p.B.h.traph == 0 || y.handler.isSome) = true := by
    rcases hnone with hnone | hnone
    · simp [hnone]
    · simp [h.handler_eq, Option.isSome_iff_ne_none, hnone]
  let w := modGrp t p.b p.g (framed k (lowFrame p k mask aux addr))
  refine ⟨faultEntry w p.B y.q.lane (lowFrame p k mask aux addr), rfl,
    entryBytes_detail _ _ _ _ _ _ _ _ _ _ _ _ (by rw [wordsBytes_length]; rfl), ?_⟩
  unfold takeFault
  simp only [hblock, hgroup, debugOn_modGrp, hhalt, hunhandled, Bool.and_false, Bool.false_eq_true, if_false, if_true]
  unfold unhandled
  simp only [debugOn_modGrp, hhalt, ctxPort_modGrp, h.ctxPort_eq, Bool.false_eq_true, if_false]
  rw [h.handler_eq]
  rfl

/-- The frame's first word (R148), whose NEST is set inside the handler. -/
theorem lowFrame_head : (lowFrame p k mask aux addr).getD 0 0 = BitVec.ofNat 32 (kindCode k + 2 ^ 8 * p.low +
    2 ^ 16 * (if p.upper then 1 else 0) + 2 ^ 24 * (if p.G.handler = none then 0 else 1)) := by
  unfold lowFrame
  cases p.G.handler <;> rfl

/-- R151: the parked group has its frame, and everything else as it was; its entry joins those that wait. -/
theorem parked_takeFault (h : Uncommitted s p t y) (hdebug : debugOn s p.B = false) (hnone : p.B.h.traph = 0 ∨ p.G.handler ≠ none) :
    let u := takeFault t p.b p.g k p.low p.upper p.pc mask aux addr val low
    ∃ z o l, u.grp? p.b p.g = some z ∧ u.mem = s.mem ∧ z.r.v = p.G.r.v ∧ z.r.s = p.G.r.s ∧
      z.q.status = .parked (.entry (ctxPort s p.B.ctx) 0) o ∧ (∀ t, z.pcOf t = p.G.pcOf t) ∧
      z.r.frame.getD 0 0 = BitVec.ofNat 32 (kindCode k + 2 ^ 8 * p.low + 2 ^ 16 * (if p.upper then 1 else 0) +
        2 ^ 24 * (if p.G.handler = none then 0 else 1)) ∧
      (u.port (ctxPort s p.B.ctx)).trap.held = (s.port (ctxPort s p.B.ctx)).trap.held ++ [{ own := true, grp := some (p.b, p.g), bytes := l }] ∧
      l.take 1 = [1] ∧ l.drop 32 = wordsBytes z.r.frame := by
  obtain ⟨l, hkind, hdetail, htake⟩ := takeFault_parks (k := k) (mask := mask) (aux := aux) (addr := addr) (val := val) (low := low) h hdebug hnone
  obtain ⟨a, tcode, resume, hframed⟩ := h.framed_eq (k := k) (lowFrame p k mask aux addr)
  rw [htake]
  obtain ⟨o, hparked⟩ := grp?_park ((grp?_postTrap _ (ctxPort s p.B.ctx) { own := true, grp := some (p.b, p.g), bytes := l } ..).trans
    (h.grp?_framed (lowFrame p k mask aux addr))) (.entry (ctxPort s p.B.ctx) 0)
  rw [hframed] at hparked
  refine ⟨_, o, l, hparked, ?_, rfl, rfl, rfl, fun t => pcOf_emptyLatches _ t, lowFrame_head, ?_, hkind, hdetail⟩
  · simp [h.mem_eq]
  · rw [port_park, held_postTrap_of_own _ _ rfl, port_modGrp, h.port_eq]

end
end Sys2Proof.Proofs
end

section
/-! A precise fault of the first thread of a path, with a handler (R147 to R150) and without one (R151). -/

namespace Sys2Proof.Proofs
open Sys2Proof.Machine Sys2Proof.Laws

/-- Settles O32: whatever the word, it takes its fault in a state in which nothing of it has committed, and from there the group enters the
handler. -/
theorem faultsEnterTheHandler : Obligations.faults_enter_the_handler := by
  intro i s p k aux addr hword hfind hp hjudged hfault hreplay hdebug htraph hhandler
  obtain ⟨t, y, hbefore, hexec⟩ := exec_takes_fault hword hfind hp hjudged hfault
  exact ⟨_, hexec, handled_takeFault hbefore hreplay hdebug htraph hhandler⟩

/-- Settles O34: the fault is taken in the same state, and there the group parks; its entry is one of a group, which a full ring does not
discard, and carries the frame as DETAIL. -/
theorem unhandledFaultParks : Obligations.unhandled_fault_parks := by
  intro i s p k aux addr hword hfind hp hjudged hfault hdebug hnone
  obtain ⟨t, y, hbefore, hexec⟩ := exec_takes_fault hword hfind hp hjudged hfault
  obtain ⟨z, o, l, hparked⟩ := parked_takeFault hbefore hdebug hnone
  exact ⟨_, z, o, l, hexec, hparked⟩

end Sys2Proof.Proofs
end

section
/-! Invalidations (R209): a port starts one for a context of its own, and it ends once no access translated before it is held. -/

namespace Sys2Proof.Proofs
open Sys2Proof.Machine Sys2Proof.Laws

theorem ownCtx_iff {s : State} {hp : HPort} {ctx : Word} : ownCtx s hp ctx = true ↔ ∃ c, s.ctx? ctx = some c ∧ c.port = hp := by
  unfold ownCtx
  cases s.ctx? ctx <;> simp

theorem invBlocked_iff {s : State} {hp : HPort} :
    invBlocked s hp = true ↔
      ∃ m ∈ s.migs, ∃ h ∈ m.held, (∃ x, s.blk? h.1 = some x ∧ x.ctx = (s.port hp).reg.invof.1) ∧
        ∀ page, (s.port hp).reg.invof.2 = some page → ∃ a ∈ h.2.2.thr, a.addr.toNat / 2 ^ 16 % 2 ^ 41 = page := by
  unfold invBlocked
  refine List.any_eq_true.trans (exists_congr fun m => and_congr_right fun _ =>
    List.any_eq_true.trans (exists_congr fun h => and_congr_right fun _ => Bool.and_eq_true_iff.trans (and_congr ?_ ?_)))
  · cases s.blk? h.1 <;> simp
  · cases (s.port hp).reg.invof.2 <;> simp

/-- R209: an invalidation that is refused, and one that starts. -/
theorem invalidations_meet (hp : HPort) (va : BitVec 57) (s : State) (hup : s.up = true) :
    let own := ∃ c, s.ctx? (s.port hp).reg.invctx = some c ∧ c.port = hp
    let t := modHost s hp (fun h => { h with denied := true })
    let u (page : Option Nat) : State := modHost s hp (fun h => { h with invbusy := true, invof := (h.invctx, page) })
    ((s.port hp).reg.invbusy = true ∨ ¬own → exec (.invalidateAll hp) s = .next t ∧ exec (.invalidatePage hp va) s = .next t) ∧
    ((s.port hp).reg.invbusy = false → own → exec (.invalidateAll hp) s = .next (u none) ∧
      exec (.invalidatePage hp va) s = .next (u (some (va.toNat / 2 ^ 16)))) := by
  intro own t u
  have hall : exec (.invalidateAll hp) s = .next (invalidate s hp none) := rfl
  have hpage : exec (.invalidatePage hp va) s = .next (invalidate s hp (some (va.toNat / 2 ^ 16))) := rfl
  rw [hall, hpage]
  constructor
  · intro h
    have hdenied : ∀ page, invalidate s hp page = t := by
      intro page
      have hrefused : ((s.port hp).reg.invbusy || !ownCtx s hp (s.port hp).reg.invctx) = true := by
        rcases h with h | h
        · simp [h]
        · simp [mt ownCtx_iff.1 h]
      simp only [invalidate, hup, hrefused]
      rfl
    simp [hdenied]
  · intro hbusy hown
    have hstarts : ∀ page, invalidate s hp page = u page := by
      intro page
      simp only [invalidate, hup, hbusy, ownCtx_iff.2 hown]
      rfl
    simp [hstarts]

/-- R209: an invalidation ends once no access translated before it is held. -/
theorem invalidateComplete_meets (hp : HPort) (s : State) :
    let w := (s.port hp).reg.invof
    let waits := ∃ m ∈ s.migs, ∃ h ∈ m.held, (∃ x, s.blk? h.1 = some x ∧ x.ctx = w.1) ∧
      ∀ page, w.2 = some page → ∃ a ∈ h.2.2.thr, a.addr.toNat / 2 ^ 16 % 2 ^ 41 = page
    (waits → exec (.invalidateComplete hp) s = .next s) ∧
    (¬waits → exec (.invalidateComplete hp) s = .next (modHost s hp (fun h => { h with invbusy := false }))) := by
  have hexec : exec (.invalidateComplete hp) s =
      .next (if invBlocked s hp then s else modHost s hp (fun h => { h with invbusy := false })) := rfl
  rw [hexec]
  exact ⟨fun h => by rw [if_pos (invBlocked_iff.2 h)], fun h => by rw [if_neg (mt invBlocked_iff.1 h)]⟩

end Sys2Proof.Proofs
end

section
/-! Waking (R143): what a wake leaves of every group, and which groups it makes pending. -/

namespace Sys2Proof.Proofs
open Sys2Proof.Machine Sys2Proof.Laws

/-- A table after each of its values has been changed. -/
theorem tget?_mapVal {α : Type} (f : α → α) (t : Table α) (i : Nat) : tget? (t.map (fun c => (c.1, f c.2))) i = (tget? t i).map f := by
  simpa using tget?_map (fun _ => true) (fun _ => f) t i

/-- R143: what waking leaves of a group: registers, log and engine operations; it may turn pending, and one that waits may move to or from
the overflow entry. -/
structure Roused (y z : Group) : Prop where
  r : z.r = y.r
  log : z.log = y.log
  e : z.e = y.e
  status : z.q.status = y.q.status ∨ z.q.status = .pending ∨ ∃ k o o', y.q.status = .parked k o ∧ z.q.status = .parked k o'

theorem Roused.refl (y : Group) : Roused y y := ⟨rfl, rfl, rfl, .inl rfl⟩

theorem Roused.trans {x y z : Group} (h : Roused x y) (h' : Roused y z) : Roused x z := by
  refine ⟨h'.r.trans h.r, h'.log.trans h.log, h'.e.trans h.e, ?_⟩
  rcases h'.status with heq | hpending | ⟨k, o, o', hy, hz⟩
  · rw [heq]; exact h.status
  · exact .inr (.inl hpending)
  · rcases h.status with hsame | hpending | ⟨k', o₁, o₂, hx, hy'⟩
    · exact .inr (.inr ⟨k, o, o', hsame ▸ hy, hz⟩)
    · cases hpending.symm.trans hy
    · cases hy'.symm.trans hy
      exact .inr (.inr ⟨k, o₁, o', hx, hz⟩)

theorem roused_pending (y : Group) : Roused y (setStatus .pending y) := ⟨rfl, rfl, rfl, .inr (.inl rfl)⟩

theorem roused_parked {y : Group} {k : ParkKey} {o : Bool} (h : y.q.status = .parked k o) (o' : Bool) :
    Roused y (emptyLatches (setStatus (.parked k o') y)) := ⟨rfl, rfl, rfl, .inr (.inr ⟨k, o, o', h, rfl⟩)⟩

theorem Roused.pending {y z : Group} (h : Roused y z) (hy : y.q.status = .pending) : z.q.status = .pending := by
  rcases h.status with heq | hpending | ⟨k, o, o', hparked, _⟩
  · exact heq.trans hy
  · exact hpending
  · cases hy.symm.trans hparked

/-- Every block keeps its life and its core, and waking alone has touched its groups. -/
def RousedIn (s t : State) : Prop :=
  ∀ b x, s.blk? b = some x → ∃ w, t.blk? b = some w ∧ w.life = x.life ∧ w.core = x.core ∧
    ∀ (g : Nat) (y : Group), x.groups[g]? = some y → ∃ z, w.groups[g]? = some z ∧ Roused y z

theorem RousedIn.refl (s : State) : RousedIn s s := fun _ x hx => ⟨x, hx, rfl, rfl, fun _ y hy => ⟨y, hy, .refl y⟩⟩

theorem RousedIn.trans {s t u : State} (h : RousedIn s t) (h' : RousedIn t u) : RousedIn s u := by
  intro b x hx
  obtain ⟨w, hw, hlife, hcore, hgroups⟩ := h b x hx
  obtain ⟨v, hv, hlife', hcore', hgroups'⟩ := h' b w hw
  refine ⟨v, hv, hlife'.trans hlife, hcore'.trans hcore, fun g y hy => ?_⟩
  obtain ⟨z, hz, hyz⟩ := hgroups g y hy
  obtain ⟨z', hz', hzz'⟩ := hgroups' g z hz
  exact ⟨z', hz', hyz.trans hzz'⟩

theorem rousedIn_map {s t : State} (f : Block → Group → Group) (hf : ∀ x y, Roused y (f x y))
    (ht : ∀ b, t.blk? b = (s.blk? b).map (fun x => { x with groups := x.groups.map (f x) })) : RousedIn s t := by
  intro b x hx
  have hw : t.blk? b = some { x with groups := x.groups.map (f x) } := by rw [ht, hx, Option.map_some]
  exact ⟨_, hw, rfl, rfl, fun g y hy => ⟨f x y, by simp [hy], hf x y⟩⟩

theorem rousedIn_modGrp {s : State} {b g : Nat} {y : Group} (hy : s.grp? b g = some y) {f : Group → Group} (hf : Roused y (f y)) :
    RousedIn s (modGrp s b g f) := by
  intro k x hx
  by_cases hk : k = b
  · subst hk
    have hw : (modGrp s k g f).blk? k = some { x with groups := lmod x.groups g f } := by rw [blk?_modGrp, hx, Option.map_some]
    refine ⟨_, hw, rfl, rfl, fun j z hz => ?_⟩
    by_cases hj : j = g
    · subst hj
      cases (grp?_of_blk? hx).symm.trans hy |>.symm.trans hz
      exact ⟨f y, by simp [getElem?_lmod, hz], hf⟩
    · exact ⟨z, by simp [getElem?_lmod, hj, hz], .refl z⟩
  · exact ⟨x, by rw [blk?_modGrp_ne _ _ _ _ _ hk, hx], rfl, rfl, fun _ z hz => ⟨z, hz, .refl z⟩⟩

theorem rousedIn_of_blocks {s t : State} (h : t.blocks = s.blocks) : RousedIn s t := by
  have hblk : ∀ b, t.blk? b = s.blk? b := fun b => by unfold State.blk?; rw [h]
  exact fun b x hx => ⟨x, by rw [hblk, hx], rfl, rfl, fun _ y hy => ⟨y, hy, .refl y⟩⟩

theorem leaveLane_blocks (s : State) (b g : Nat) : (leaveLane s b g).blocks = s.blocks := by
  obtain ⟨_, h⟩ := leaveLane_eq s b g
  rw [h]

theorem rousedIn_park {s : State} {b g : Nat} {y : Group} {k : ParkKey} {o : Bool} (hy : s.grp? b g = some y)
    (hparked : y.q.status = .parked k o) : RousedIn s (park s b g k) := by
  unfold park
  split
  · exact .refl s
  · exact (rousedIn_of_blocks (leaveLane_blocks s b g)).trans
      (rousedIn_modGrp ((grp?_leaveLane s b g b g).trans hy) (roused_parked hparked _))

/-- R142: a group under its overflow entry parks again. -/
def repark (z : Nat × Nat) (s : State) : State :=
  match s.grp? z.1 z.2 with
  | some y => (match y.q.status with | .parked k true => park s z.1 z.2 k | _ => s)
  | none => s

theorem rousedIn_repark (z : Nat × Nat) (s : State) : RousedIn s (repark z s) := by
  unfold repark
  split
  · next y hy =>
    split
    · next k hparked => exact rousedIn_park hy hparked
    · exact .refl s
  · exact .refl s

/-- The groups of every block changed in place, by what their block is. -/
def mapGroups (s : State) (f : Block → Group → Group) : State :=
  { s with blocks := s.blocks.map (fun z => (z.1, { z.2 with groups := z.2.groups.map (f z.2) })) }

theorem blk?_mapGroups (s : State) (f : Block → Group → Group) (b : Nat) :
    (mapGroups s f).blk? b = (s.blk? b).map (fun x => { x with groups := x.groups.map (f x) }) :=
  tget?_mapVal (fun x : Block => { x with groups := x.groups.map (f x) }) s.blocks b

/-- R143: the group waits for what has come. -/
def waitsFor (p : ParkKey → Bool) (y : Group) : Bool := match y.q.status with | .parked k _ => p k | _ => false

/-- R143: the group is parked under the overflow entry, and sleeps no longer. -/
def overflown (etm : Nat) (y : Group) : Bool :=
  (match y.q.status with | .parked _ o => o | _ => false) && !(match y.q.status with | .parked (.sleep d) _ => decide (etm < d) | _ => false)

/-- R143: what a wake on a core does to a group of a block. -/
def rouse (c etm : Nat) (p : ParkKey → Bool) (x : Block) (y : Group) : Group :=
  if x.life = .resident ∧ x.core = c ∧ (waitsFor p y || overflown etm y) = true then setStatus .pending y else y

theorem roused_rouse (c etm : Nat) (p : ParkKey → Bool) (x : Block) (y : Group) : Roused y (rouse c etm p x y) := by
  unfold rouse
  split
  · exact roused_pending y
  · exact .refl y

theorem mapGroups_rouse (s : State) (c etm : Nat) (p : ParkKey → Bool) :
    { s with blocks := s.blocks.map (fun z => if (z.2.life == .resident && z.2.core == c) = true then
      (z.1, { z.2 with groups := z.2.groups.map (fun y => if (waitsFor p y || overflown etm y) = true then setStatus .pending y else y) })
      else (z.1, z.2)) } = mapGroups s (rouse c etm p) := by
  refine congrArg (fun l => { s with blocks := l }) (List.map_congr_left fun z _ => ?_)
  by_cases hz : z.2.life = .resident ∧ z.2.core = c
  · simp [rouse, hz.1, hz.2]
  · have hid : rouse c etm p z.2 = id := funext fun y => if_neg fun h => hz ⟨h.1, h.2.1⟩
    rw [if_neg (by simpa using hz), hid, List.map_id]

/-- R143: some group of the core waits for what has come. -/
def anyWaits (s : State) (c : Nat) (p : ParkKey → Bool) : Bool :=
  (residents s).any (fun z => z.2.core == c && z.2.groups.any (waitsFor p))

theorem wakeCore_eq (s : State) (c : Nat) (p : ParkKey → Bool) : ∃ l, wakeCore s c p =
    if (!anyWaits s c p) = true then s else foldS repark l (mapGroups s (rouse c (s.etm c) p)) := by
  rw [← mapGroups_rouse]
  exact ⟨_, rfl⟩

theorem rousedIn_wakeCore (s : State) (c : Nat) (p : ParkKey → Bool) : RousedIn s (wakeCore s c p) := by
  obtain ⟨l, h⟩ := wakeCore_eq s c p
  rw [h]
  split
  · exact .refl s
  · exact foldS_keeps (RousedIn s) repark (fun z t ht => ht.trans (rousedIn_repark z t)) l _
      (rousedIn_map _ (roused_rouse c (s.etm c) p) (blk?_mapGroups s _))

theorem rousedIn_wakeAll (s : State) (p : ParkKey → Bool) : RousedIn s (wakeAll s p) :=
  foldS_keeps (RousedIn s) _ (fun c t ht => ht.trans (rousedIn_wakeCore t c p)) _ s (.refl s)

/-- A group of a resident block of core `c` waits for a key, or is pending. -/
def waitsOrPends (b g c : Nat) (key : ParkKey) (s : State) : Prop :=
  ∃ x y, s.blk? b = some x ∧ x.life = .resident ∧ x.core = c ∧ x.groups[g]? = some y ∧
    (y.q.status = .pending ∨ ∃ o, y.q.status = .parked key o)

/-- The group is pending. -/
def pends (b g : Nat) (s : State) : Prop := ∃ x y, s.blk? b = some x ∧ x.groups[g]? = some y ∧ y.q.status = .pending

theorem waitsOrPends_of_rousedIn {b g c : Nat} {key : ParkKey} {s t : State} (h : RousedIn s t) (hs : waitsOrPends b g c key s) :
    waitsOrPends b g c key t := by
  obtain ⟨x, y, hx, hlife, hcore, hy, hstatus⟩ := hs
  obtain ⟨w, hw, hlife', hcore', hgroups⟩ := h b x hx
  obtain ⟨z, hz, hyz⟩ := hgroups g y hy
  refine ⟨w, z, hw, hlife'.trans hlife, hcore'.trans hcore, hz, ?_⟩
  rcases hstatus with hpending | ⟨o, hparked⟩
  · exact .inl (hyz.pending hpending)
  · rcases hyz.status with hsame | hpending | ⟨k, o₁, o₂, hy', hz'⟩
    · exact .inr ⟨o, hsame.trans hparked⟩
    · exact .inl hpending
    · cases hy'.symm.trans hparked
      exact .inr ⟨o₂, hz'⟩

theorem pends_of_rousedIn {b g : Nat} {s t : State} (h : RousedIn s t) (hs : pends b g s) : pends b g t := by
  obtain ⟨x, y, hx, hy, hpending⟩ := hs
  obtain ⟨w, hw, -, -, hgroups⟩ := h b x hx
  obtain ⟨z, hz, hyz⟩ := hgroups g y hy
  exact ⟨w, z, hw, hz, hyz.pending hpending⟩

/-- R143: after the wake of a core each of its groups whose key matches is pending. -/
theorem pends_wakeCore {b g c : Nat} {key : ParkKey} {s : State} {p : ParkKey → Bool} (hp : p key = true) (hs : waitsOrPends b g c key s) :
    pends b g (wakeCore s c p) := by
  obtain ⟨x, y, hx, hlife, hcore, hy, hpending | ⟨o, hparked⟩⟩ := hs
  · exact pends_of_rousedIn (rousedIn_wakeCore s c p) ⟨x, y, hx, hy, hpending⟩
  · have hwaits : waitsFor p y = true := by simpa [waitsFor, hparked] using hp
    have hany : anyWaits s c p = true :=
      List.any_eq_true.2 ⟨(b, x), mem_residents hx hlife,
        Bool.and_eq_true_iff.2 ⟨beq_iff_eq.2 hcore, List.any_eq_true.2 ⟨y, List.mem_of_getElem? hy, hwaits⟩⟩⟩
    obtain ⟨l, h⟩ := wakeCore_eq s c p
    rw [h, if_neg (by simp [hany])]
    refine foldS_keeps (pends b g) repark (fun z t ht => pends_of_rousedIn (rousedIn_repark z t) ht) l _ ?_
    refine ⟨_, rouse c (s.etm c) p x y, by rw [blk?_mapGroups, hx]; rfl, by simp [hy], ?_⟩
    rw [rouse, if_pos ⟨hlife, hcore, by simp [hwaits]⟩]
    rfl

/-- R143: the wake of its own core reaches the group, and those of the other cores keep it waiting or pending. -/
theorem pends_wakeAll {b g : Nat} {x : Block} {y : Group} {s : State} {p : ParkKey → Bool} {key : ParkKey} {o : Bool} (hp : p key = true)
    (hx : s.blk? b = some x) (hlife : x.life = .resident) (hy : x.groups[g]? = some y) (hparked : y.q.status = .parked key o) :
    pends b g (wakeAll s p) :=
  foldS_reaches (waitsOrPends b g x.core key) (pends b g) (fun c s => wakeCore s c p)
    (fun c t ht => waitsOrPends_of_rousedIn (rousedIn_wakeCore t c p) ht) (fun c t ht => pends_of_rousedIn (rousedIn_wakeCore t c p) ht)
    (fun _ ht => pends_wakeCore hp ht) (List.mem_eraseDups.2 (List.mem_map.2 ⟨(b, x), mem_residents hx hlife, rfl⟩)) s
    ⟨x, y, hx, hlife, rfl, hy, .inr ⟨o, hparked⟩⟩

end Sys2Proof.Proofs
end

section
/-! The replay of a page fault (R154, R143): the fault is gone, and what waited for its token goes on. -/

namespace Sys2Proof.Proofs
open Sys2Proof.Machine Sys2Proof.Laws

theorem faultWaits_iff {s : State} {hp : HPort} {k : Word} :
    faultWaits s hp k = true ↔ ∃ h ∈ (s.port hp).trap.held, h.bytes.take 1 = [2] ∧ fieldN h.bytes 40 4 = k.toNat := by
  have hkind : ∀ l : List Byte, fieldN l 0 1 = 2 ↔ l.take 1 = [2] := by
    intro l
    cases l with
    | nil => simp [fieldN, leNat]
    | cons a r => simp [fieldN, leNat, ← BitVec.toNat_inj]
  unfold faultWaits
  simp only [List.any_eq_true, Bool.and_eq_true, beq_iff_eq, hkind]

/-- R154: the entry of the fault has been written, and its context belongs to the port. -/
def replayable (s : State) (hp : HPort) (f : PFault) : Prop :=
  ctxPort s f.ctx = hp ∧ ∀ h ∈ (s.port hp).trap.held, ¬(h.bytes.take 1 = [2] ∧ fieldN h.bytes 40 4 = f.token.toNat)

/-- R154, R143: what the replay of the page fault with a token leaves. -/
def Woken (s : State) (k : Word) (t : State) : Prop :=
  t.mem = s.mem ∧ (∀ f ∈ t.pfaults, f.token ≠ k) ∧ (∀ f ∈ s.pfaults, f.token ≠ k → f ∈ t.pfaults) ∧
    ∀ b x (g : Nat) (y : Group), s.blk? b = some x → x.groups[g]? = some y → ∃ z, t.grp? b g = some z ∧ z.r = y.r ∧
      (∀ e ∈ z.log, e.token = k → e.woken = true) ∧ (∀ o ∈ z.e.ops, o.susp ≠ some k) ∧
      ∀ o, x.life = .resident → y.q.status = .parked (.page k) o → z.q.status = .pending

/-- R154: the fault is gone, and what its token held up goes on. -/
def released (s : State) (f : PFault) : State :=
  { mapGroups s (fun _ => wakeToken f.token) with
    pfaults := s.pfaults.filter (fun p => p.token != f.token)
    colls := s.colls.map (fun c => (c.1, if c.2.susp == some f.token then { c.2 with susp := none } else c.2)) }

/-- R143: the key of a group that waits for the page of a token. -/
def onPage (k : Word) (p : ParkKey) : Bool := match p with | .page t => t == k | _ => false

/-- R154: a replay wakes in the state that the fault has left. -/
theorem replayFault_eq {s : State} {hp : HPort} {f : PFault} (h : replayable s hp f) :
    replayFault s hp f = wakeAll (released s f) (onPage f.token) := by
  obtain ⟨hport, hheld⟩ := h
  have hwritten : faultWaits s hp f.token = false := by
    rw [← Bool.not_eq_true, faultWaits_iff]
    exact fun ⟨h, hh, hentry⟩ => hheld h hh hentry
  unfold replayFault
  rw [if_neg (by simp [hport, hwritten])]
  rfl

theorem park_pfaults (s : State) (b g : Nat) (key : ParkKey) : (park s b g key).pfaults = s.pfaults := by
  unfold park
  split
  · rfl
  · obtain ⟨_, h⟩ := leaveLane_eq s b g
    rw [modGrp_pfaults, h]

theorem repark_pfaults (z : Nat × Nat) (s : State) : (repark z s).pfaults = s.pfaults := by
  unfold repark
  split
  · split
    · exact park_pfaults ..
    · rfl
  · rfl

theorem wakeCore_pfaults (s : State) (c : Nat) (p : ParkKey → Bool) : (wakeCore s c p).pfaults = s.pfaults := by
  obtain ⟨l, h⟩ := wakeCore_eq s c p
  rw [h]
  split
  · rfl
  · exact foldS_same State.pfaults repark repark_pfaults l _

theorem wakeAll_pfaults (s : State) (p : ParkKey → Bool) : (wakeAll s p).pfaults = s.pfaults :=
  foldS_same State.pfaults _ (fun c t => wakeCore_pfaults t c p) _ s

theorem log_wakeToken {k : Word} {y : Group} {e : LogEntry} (he : e ∈ (wakeToken k y).log) (hk : e.token = k) : e.woken = true := by
  obtain ⟨d, -, rfl⟩ := List.mem_map.1 he
  by_cases hd : d.token = k
  · simp [hd]
  · simp [hd] at hk

theorem ops_wakeToken {k : Word} {y : Group} {o : EngOp} (ho : o ∈ (wakeToken k y).e.ops) : o.susp ≠ some k := by
  obtain ⟨d, -, rfl⟩ := List.mem_map.1 ho
  by_cases hd : d.susp = some k
  · simp [hd]
  · simp [hd]

/-- The tokens are cleared on every group before it is woken, and waking changes neither log nor operations. -/
theorem woken_replayFault {s : State} {hp : HPort} {f : PFault} (h : replayable s hp f) : Woken s f.token (replayFault s hp f) := by
  rw [replayFault_eq h]
  refine ⟨wakeAll_mem .., fun p hp => ?_, fun p hp hne => ?_, fun b x g y hx hy => ?_⟩
  · rw [wakeAll_pfaults] at hp
    simpa using (List.mem_filter.1 hp).2
  · rw [wakeAll_pfaults]
    exact List.mem_filter.2 ⟨hp, by simpa using hne⟩
  · have hreleased : (released s f).blk? b = some { x with groups := x.groups.map (wakeToken f.token) } := by
      have hmap := blk?_mapGroups s (fun _ => wakeToken f.token) b
      rw [hx] at hmap
      exact hmap
    have hy' : (x.groups.map (wakeToken f.token))[g]? = some (wakeToken f.token y) := by rw [List.getElem?_map, hy]; rfl
    obtain ⟨w, hw, -, -, hgroups⟩ := rousedIn_wakeAll (released s f) (onPage f.token) b _ hreleased
    obtain ⟨z, hz, hroused⟩ := hgroups g _ hy'
    refine ⟨z, (grp?_of_blk? hw).trans hz, hroused.r, fun e he => ?_, fun o ho => ?_, fun o hlife hparked => ?_⟩
    · exact log_wakeToken (hroused.log ▸ he)
    · exact ops_wakeToken (hroused.e ▸ ho)
    · obtain ⟨w', z', hw', hz', hpending⟩ := pends_wakeAll (p := onPage f.token) (by simp [onPage]) hreleased hlife hy' hparked
      cases hw.symm.trans hw'
      cases hz.symm.trans hz'
      exact hpending

/-- R154: replays by token and by page. -/
theorem replays_meet (hp : HPort) (s : State) (hup : s.up = true) :
    (∀ k f, s.pfaults.find? (fun f => f.token == k) = some f → replayable s hp f → ∃ t, exec (.replayByToken hp k) s = .next t ∧ Woken s k t) ∧
    (∀ k, (∀ f ∈ s.pfaults, f.token ≠ k) → exec (.replayByToken hp k) s = .next s) ∧
    (∀ (va : BitVec 57) f, s.pfaults.find? (fun f => f.ctx == (s.port hp).trap.rctx && f.page == (va.signExtend 64 &&& ~~~0xFFFF#64)) = some f →
      replayable s hp f → ∃ t, exec (.replayByPage hp va) s = .next t ∧ Woken s f.token t) := by
  have htoken : ∀ k, exec (.replayByToken hp k) s = execReplayByToken hp k s := fun _ => rfl
  have hpage : ∀ va, exec (.replayByPage hp va) s = execReplayByPage hp va s := fun _ => rfl
  refine ⟨fun k f hf h => ⟨replayFault s hp f, ?_, ?_⟩, fun k hk => ?_, fun va f hf h => ⟨replayFault s hp f, ?_, woken_replayFault h⟩⟩
  · simp [htoken, execReplayByToken, hup, hf]
  · have hk : f.token = k := by simpa using List.find?_some hf
    exact hk ▸ woken_replayFault h
  · have hnone : s.pfaults.find? (fun f => f.token == k) = none := List.find?_eq_none.2 (by simpa using hk)
    simp [htoken, execReplayByToken, hup, hnone]
  · simp only [hpage, execReplayByPage, hup, pageVa, pageOf, hf, Bool.not_true, Bool.false_eq_true, if_false]

end Sys2Proof.Proofs
end

section
/-! Migration (R214 to R216): promotions, late PREFs, and the switch of a page. -/

namespace Sys2Proof.Proofs
open Sys2Proof.Machine Sys2Proof.Laws

/-! Where no sector hides an error, nothing is found. -/

theorem findErrors_of_latent {s : State} (h : s.latent = []) (a n sev time : Nat) (ctx : Option Word) : findErrors s a n sev time ctx = s := by
  simp [findErrors, h]

theorem findWalk_of_latent {s : State} (h : s.latent = []) (c : Context) (va : BitVec 64) (time : Nat) (ctx : Word) :
    findWalk s c va time ctx = s := by
  simp [findWalk, h]

/-! Promotion. -/

theorem frame_ne_of_freeFrame {s : State} {tenant f : Nat} (h : freeFrame s tenant = some f) : ∀ m ∈ s.migs, m.tenant = tenant → m.frame ≠ f := by
  intro m hm htenant hframe
  have hfree := List.find?_some h
  have hused : f ∈ (s.migs.filter (fun m => m.tenant == tenant)).map (·.frame) :=
    List.mem_map.2 ⟨m, List.mem_filter.2 ⟨hm, by simp [htenant]⟩, hframe⟩
  simp only [Bool.not_eq_true', List.contains_eq_mem, decide_eq_false_iff_not] at hfree
  exact hfree hused

/-- R214: a promotion starts the copy to the lowest free frame of the pool (log entry 27). -/
theorem promotion_meets (ctx : Word) (va : BitVec 64) (s : State) (c : Context) (home f : Nat) (hlatent : s.latent = [])
    (hable : promotable s ctx va = some (c, home)) (hfree : freeFrame s c.tenant = some f) :
    let m : Mig := { tenant := c.tenant, ctx := ctx, vpage := va &&& ~~~0xFFFF#64, home := home, frame := f, transit := true,
                     used := s.now, dirty := false, held := [] }
    exec (.migrationPromote ctx va) s = .next { s with migs := s.migs ++ [m] } ∧ (∀ z ∈ s.migs, z.tenant = c.tenant → z.frame ≠ f) := by
  have hexec : exec (.migrationPromote ctx va) s = execMigrationPromote ctx va s := rfl
  refine ⟨?_, frame_ne_of_freeFrame hfree⟩
  simp only [hexec, execMigrationPromote, hable, findWalk_of_latent hlatent, hfree, Option.isSome_some, if_true, pageOf]

/-! Late PREFs. -/

/-- R308: a group with live threads stays. -/
theorem finishGroup_of_live {s : State} {b g : Nat} {y : Group} (hy : s.grp? b g = some y) (hlive : y.liveList ≠ []) : finishGroup s b g = s := by
  obtain ⟨x, hx, hgroup⟩ := blk?_of_grp? hy
  unfold finishGroup
  simp only [hx, hgroup]
  rw [if_neg (by simp [hlive])]

theorem finishGroup_modGrp {s : State} {b g : Nat} {y : Group} (hy : s.grp? b g = some y) {f : Group → Group} (hlive : (f y).liveList ≠ []) :
    finishGroup (modGrp s b g f) b g = modGrp s b g f :=
  finishGroup_of_live (by rw [grp?_modGrp_same, hy, Option.map_some]) hlive

/-- R216: PREFs whose deadline has passed end, but for those that an access has waited on. -/
theorem prefDeadline_meets (b : Nat) (x : Block) (g : Nat) (y : Group) (s : State) (hx : s.blk? b = some x) (hlife : x.life = .resident)
    (hy : x.groups[g]? = some y) (hlive : y.liveList ≠ []) :
    exec (.prefDeadline b g) s = .next (modGrp s b g (fun y =>
      let late (r : Pref) : Bool := decide (r.deadline ≤ s.etm x.core)
      let e := { y.e with prom := y.e.prom - (y.e.prefs.filter (fun r => late r && r.counted)).length,
                          prefs := (y.e.prefs.filter (fun r => !late r || r.waited || r.copyWaited)).map (fun r => if late r then { r with counted := false } else r) }
      { y with e := e })) := by
  have hexec : exec (.prefDeadline b g) s = execPrefDeadline b g s := rfl
  have hgrp : s.grp? b g = some y := (grp?_of_blk? hx).trans hy
  have hresident : (x.life != .resident) = false := by simp [hlife]
  simp only [hexec, execPrefDeadline, hx, hresident, Bool.false_eq_true, if_false]
  exact congrArg _ (finishGroup_modGrp hgrp hlive)

/-! The switch of a page. -/

theorem tget?_eq_none {α : Type} {t : Table α} {i : Nat} (h : ∀ c ∈ t, c.1 ≠ i) : tget? t i = none := by
  induction t with
  | nil => rfl
  | cons c r ih =>
    obtain ⟨hc, hr⟩ := List.forall_mem_cons.1 h
    rw [tget?, if_neg (Ne.symm hc), ih hr]

/-- Cells written from `b` on, each at the place that it has from `a` on. -/
theorem mget_foldl_shift {a b : Nat} {l : List Host.Cell} (hl : tsorted l = true) (ha : ∀ c ∈ l, a ≤ c.1) (m : List Host.Cell) (x : Nat) :
    mget (l.foldl (fun m c => mset m (c.1 - a + b) c.2) m) x = if b ≤ x then (tget? l (x - b + a)).getD (mget m x) else mget m x := by
  induction l generalizing m with
  | nil => simp [tget?]
  | cons c r ih =>
    obtain ⟨k, v⟩ := c
    obtain ⟨habove, hr⟩ := (tsorted_cons k v r).1 hl
    obtain ⟨hk, har⟩ := List.forall_mem_cons.1 ha
    rw [List.foldl_cons, ih hr har, mget_mset, tget?]
    dsimp only at hk ⊢
    by_cases hx : x = k - a + b
    · have hkx : x - b + a = k := by omega
      have hnone : tget? r k = none := tget?_eq_none fun c hc => Nat.ne_of_gt (habove c hc)
      have hbx : b ≤ x := by omega
      rw [if_pos hbx, if_pos hbx, if_pos hx, if_pos hkx, hkx, hnone]
      rfl
    · by_cases hbx : b ≤ x
      · have hkx : x - b + a ≠ k := by omega
        rw [if_pos hbx, if_pos hbx, if_neg hx, if_neg hkx]
      · rw [if_neg hbx, if_neg hbx, if_neg hx]

theorem mgetN_congr {m m' : List Host.Cell} {a b n : Nat} (h : ∀ j, j < n → mget m (a + j) = mget m' (b + j)) : mgetN m a n = mgetN m' b n := by
  induction n generalizing a b with
  | zero => rfl
  | succ n ih =>
    have htail : mgetN m (a + 1) n = mgetN m' (b + 1) n := ih fun j hj => by
      have := h (j + 1) (by omega)
      rwa [show a + 1 + j = a + (j + 1) by omega, show b + 1 + j = b + (j + 1) by omega]
    rw [mgetN, mgetN, htail]
    exact congrArg (· :: _) (h 0 (Nat.succ_pos n))

/-- R214, R215: memory after a page has moved from `a` to `b`. -/
theorem mget_movePage {s : State} (hmem : s.memCanon) (a b x : Nat) :
    mget (movePage s a b).mem x = if b ≤ x ∧ x < b + 2 ^ 16 then mget s.mem (x - b + a) else mget s.mem x := by
  have hsorted : tsorted (s.mem.filter (fun c => a ≤ c.1 && c.1 < a + 2 ^ 16)) = true :=
    tsorted_filter _ _ ((memOk_iff s.mem).1 hmem).1
  have hrange : ∀ c ∈ s.mem.filter (fun c => a ≤ c.1 && c.1 < a + 2 ^ 16), a ≤ c.1 ∧ c.1 < a + 2 ^ 16 := by
    intro c hc
    simpa using (List.mem_filter.1 hc).2
  have hmove : (movePage s a b).mem =
      (s.mem.filter (fun c => a ≤ c.1 && c.1 < a + 2 ^ 16)).foldl (fun m c => mset m (c.1 - a + b) c.2) (mzero s.mem b (2 ^ 16)) := rfl
  rw [hmove, mget_foldl_shift hsorted (fun c hc => (hrange c hc).1), mget_mzero]
  by_cases hx : b ≤ x ∧ x < b + 2 ^ 16
  · have hin : (decide (a ≤ x - b + a) && decide (x - b + a < a + 2 ^ 16)) = true := by simp; omega
    have hcell := mget_filter (fun k => a ≤ k && k < a + 2 ^ 16) s.mem (x - b + a)
    rw [if_pos hin] at hcell
    rw [if_pos hx.1, if_pos hx, if_pos hx, ← hcell]
    rfl
  · rw [if_neg hx, if_neg hx]
    split
    · rw [tget?_eq_none fun c hc hkey => ?_]
      · rfl
      · have := hrange c hc
        omega
    · rfl

theorem migs_ite {c : Prop} [Decidable c] {s t : State} {l : List Mig} (hs : s.migs = l) (ht : t.migs = l) : (if c then s else t).migs = l := by
  split <;> assumption

theorem publish_migs (s : State) (b g : Nat) (sc : Scope) : (publish s b g sc).migs = s.migs := by
  unfold publish
  repeat' split
  all_goals rfl

theorem publishNode_migs (s : State) (n node : Nat) (sc : Scope) : (publishNode s n node sc).migs = s.migs := by
  unfold publishNode
  refine foldS_same State.migs _ (fun c t => ?_) _ s
  split
  · exact foldS_same State.migs _ (fun g u => publish_migs u c.1 g sc) _ t
  · rfl

theorem finishInst_migs (s : State) (n : Nat) : (finishInst s n).migs = s.migs := by
  unfold finishInst
  split
  · rfl
  · refine migs_ite rfl ?_
    dsimp only
    rw [reportDone, modSub_migs]
    exact (modCtx_migs ..).trans (foldS_same State.migs _ (fun k t => publishNode_migs t n k .host) _ s)

theorem finishNode_migs (s : State) (n node : Nat) : (finishNode s n node).migs = s.migs := by
  unfold finishNode
  split
  · rfl
  · split
    · rw [finishInst_migs, modInst_migs, publishNode_migs]
    · rfl

/-- The pages in transit, and memory below the coherent window, are as they were. -/
def sameBelow (s t : State) : Prop := t.migs = s.migs ∧ ∀ a, a < 2 ^ 42 → mget t.mem a = mget s.mem a

theorem sameBelow.trans {s t u : State} (h : sameBelow s t) (h' : sameBelow t u) : sameBelow s u :=
  ⟨h'.1.trans h.1, fun a ha => (h'.2 a ha).trans (h.2 a ha)⟩

theorem sameBelow_of_eq {s t : State} (hmigs : t.migs = s.migs) (hmem : t.mem = s.mem) : sameBelow s t := ⟨hmigs, fun a _ => by rw [hmem]⟩

theorem sameBelow_clearScratch (s : State) (b : Nat) : sameBelow s (clearRange s (scrLoc b 0) (2 ^ 23)) := by
  refine ⟨rfl, fun a ha => ?_⟩
  rw [clearRange, mget_mzero, if_neg]
  unfold scrLoc
  omega

/-- R119, R308: a group that leaves clears no memory but the scratch of its block. -/
theorem sameBelow_finishGroup (s : State) (b g : Nat) : sameBelow s (finishGroup s b g) := by
  have hleft : sameBelow s (modGrp (leaveLane s b g) b g (setStatus .exited)) := by
    refine sameBelow_of_eq ?_ (by simp)
    obtain ⟨_, h⟩ := leaveLane_eq s b g
    rw [modGrp_migs, h]
  unfold finishGroup
  split
  · exact sameBelow_of_eq rfl rfl
  · split
    · exact sameBelow_of_eq rfl rfl
    · split
      · dsimp only
        split
        · exact hleft
        · split
          · refine (hleft.trans (sameBelow_clearScratch _ b)).trans (sameBelow_of_eq ?_ ?_)
            · rw [finishNode_migs, modBlk_migs]
            · rw [finishNode_mem, modBlk_mem]
          · exact hleft
      · exact sameBelow_of_eq rfl rfl

theorem sameBelow_finishBlock (s : State) (b : Nat) : sameBelow s (finishBlock s b) := by
  unfold finishBlock
  split
  · exact sameBelow_of_eq rfl rfl
  · exact foldS_keeps (sameBelow s) _ (fun g t ht => ht.trans (sameBelow_finishGroup t b g)) _ s (sameBelow_of_eq rfl rfl)

/-- R215: the switch of a page, of which nothing is held, moves its bytes; the PREFs on it end, and what then leaves its block touches no
page. -/
theorem pageSwitch_meets (k : Nat) (m : Mig) (s : State) (hmem : s.memCanon) (hm : s.migs[k]? = some m) (htransit : m.transit = true)
    (hheld : m.held = []) (hlatent : s.latent = []) (hframe : m.frame + 2 ^ 16 ≤ 2 ^ 42) : ∃ t, exec (.pageSwitch k) s = .next t ∧
      mgetN t.mem m.frame (2 ^ 16) = mgetN s.mem m.home (2 ^ 16) ∧
      (∀ a, a < 2 ^ 42 → a < m.frame ∨ m.frame + 2 ^ 16 ≤ a → mget t.mem a = mget s.mem a) ∧
      t.migs = s.migs.map (fun z => if z.home = m.home then { z with transit := false, used := s.now, held := [] } else z) := by
  let u : State := switchPrefs { movePage s m.home m.frame with
    migs := s.migs.map (fun z => if z.home = m.home then { z with transit := false, used := s.now, held := [] } else z) } m.home
  have hexec : exec (.pageSwitch k) s = .next (foldS (fun (c : Nat × Block) s => finishBlock s c.1) (residents u) u) := by
    have hrow : exec (.pageSwitch k) s = execPageSwitch k s := rfl
    simp only [hrow, execPageSwitch, hm, htransit, findErrors_of_latent hlatent, performHeld, hheld, foldS, Bool.not_true, Bool.false_eq_true, if_false]
    rfl
  obtain ⟨hmigs, hbelow⟩ := foldS_keeps (sameBelow u) (fun (c : Nat × Block) s => finishBlock s c.1)
    (fun c t ht => ht.trans (sameBelow_finishBlock t c.1)) (residents u) u (sameBelow_of_eq rfl rfl)
  have hmoved : ∀ a, a < 2 ^ 42 → mget (foldS (fun (c : Nat × Block) s => finishBlock s c.1) (residents u) u).mem a =
      if m.frame ≤ a ∧ a < m.frame + 2 ^ 16 then mget s.mem (a - m.frame + m.home) else mget s.mem a := fun a ha =>
    (hbelow a ha).trans (mget_movePage hmem m.home m.frame a)
  refine ⟨_, hexec, mgetN_congr fun j hj => ?_, fun a ha hout => ?_, hmigs⟩
  · rw [hmoved _ (by omega), if_pos (by omega), Nat.add_sub_cancel_left, Nat.add_comm]
  · rw [hmoved a ha, if_neg (by omega)]

end Sys2Proof.Proofs
end

section
/-! A logged access that is re-issued (R143, R153, R154): it is served where its page now is, or waits for the page again. -/

namespace Sys2Proof.Proofs
open Sys2Proof.Machine Sys2Proof.Laws

/-- What a late access leaves of its group: threads, log and scheduling. -/
def lateView (s : State) (b g : Nat) : Option (List Thread × List LogEntry × GSched) := (s.grp? b g).map (fun y => (y.thr, y.log, y.q))

theorem lateView_modGrp (s : State) (k j : Nat) {f : Group → Group} (hf : ∀ z, ((f z).thr, (f z).log, (f z).q) = (z.thr, z.log, z.q)) (b g : Nat) :
    lateView (modGrp s k j f) b g = lateView s b g := by
  unfold lateView
  rw [grp?_modGrp]
  split
  · next h =>
    obtain ⟨rfl, rfl⟩ := h
    rw [Option.map_map]
    exact congrArg (fun m => Option.map m _) (funext hf)
  · rfl

theorem lateView_of_frame {s t : State} {b g : Nat} {y z : Group} (hy : s.grp? b g = some y) (h : AccessFrame s t b g y z) :
    lateView t b g = lateView s b g := by
  unfold lateView
  rw [h.grp, hy, h.view]
  rfl

theorem lateView_fillEntry (s : State) (k j : Nat) (at0 : Option (Nat × Nat)) (bs : List Byte) (b g : Nat) :
    lateView (fillEntry s k j at0 bs) b g = lateView s b g := by
  unfold fillEntry
  split
  · rfl
  · exact lateView_modGrp s k j (fun z => by split <;> rfl) b g

theorem lateView_lateJournal (s : State) (k j : Nat) (e : LogEntry) (x : LogThr) (bs : List Byte) (b g : Nat) :
    lateView (lateJournal s k j e x none bs) b g = lateView s b g :=
  foldS_same (lateView · b g) _ (fun _ t => lateView_fillEntry t k j _ bs b g) _ s

theorem setReg_lateView (t : Nat) (r : PReg) (ws : List Word) (y : Group) :
    ((setReg t r ws y).thr, (setReg t r ws y).log, (setReg t r ws y).q) = (y.thr, y.log, y.q) := by
  induction ws generalizing r y with
  | nil => rfl
  | cons w ws ih => cases r <;> exact ih _ _

theorem lateView_lateWrite (s : State) (k : Nat) (e : LogEntry) (x : LogThr) (ws : List Word) (b g : Nat) :
    lateView (lateWrite s k e x ws) b g = lateView s b g := by
  unfold lateWrite
  split
  · rfl
  · next r _ =>
    dsimp only
    split
    · rfl
    · exact foldS_same (lateView · b g) _ (fun h t => lateView_modGrp t k _ (fun y => setReg_lateView h.2 r ws y) b g) _ s

/-- R215, R153: a late access of a memory instruction changes memory as the access itself would. -/
theorem lateAccess_meets {s : State} {b g : Nat} {e : LogEntry} {m : Mem} (hm : memOf e.i = some m) {y : Group} (hy : s.grp? b g = some y)
    (x : LogThr) {h : Hit} (himm : h.imm = false) :
    lateView (lateAccess s b g e x h) b g = lateView s b g ∧ (lateAccess s b g e x h).mem = accMem e.i m h x.data x.cmp s.mem := by
  obtain ⟨z, hperform, -, hmem, -⟩ := frame_perform hy e.i m x.addr.toNat h x.data x.cmp
  obtain ⟨k, hk, -⟩ := blk?_of_grp? hy
  obtain ⟨hcount, hcountMem, -⟩ := frame_countBytes hperform.grp k.ctx m.space m.n
  have hview := lateView_of_frame hy (frame_trans hperform hcount)
  rw [hmem] at hcountMem
  unfold lateAccess
  split
  · next hi => rw [hi] at hm; cases hm
  · next hi => rw [hi] at hm; cases hm
  · simp only [hm, hk, himm, Bool.false_eq_true, if_false]
    split
    · exact ⟨(lateView_lateWrite ..).trans ((lateView_lateJournal ..).trans hview), by rw [lateWrite_mem, lateJournal_mem, hcountMem]⟩
    · exact ⟨hview, hcountMem⟩

theorem liveList_congr {y z : Group} (h : z.thr = y.thr) : z.liveList = y.liveList := by
  unfold Group.liveList Group.liveT
  rw [h]

theorem afterEngine_of_live {s : State} {b g : Nat} {y : Group} (hy : s.grp? b g = some y) (hrollback : y.q.rollback = false)
    (hlive : y.liveList ≠ []) : afterEngine s b g = s := by
  simp [afterEngine, hy, hrollback, finishGroup_of_live hy hlive]

theorem latePass_block {s : State} {b g : Nat} {p : Pass} (hp : latePass s b g = some p) : s.blk? b = some p.B := by
  unfold latePass engPass at hp
  split at hp
  · cases hp
  · next k hk =>
    split at hp
    · cases hp
    · cases hp
      exact hk

theorem grp?_pageFault (s : State) (b g acc : Nat) (va : BitVec 64) (k j : Nat) : (pageFault s b g acc va).2.grp? k j = s.grp? k j := by
  unfold pageFault
  split
  · rfl
  · split
    · rfl
    · exact grp?_postTrap ..

/-- R154: the oldest entry leaves the log. -/
def dropOldest (y : Group) : Group := { y with log := y.log.tail }

/-- R154: the entry waits for the page of the fault. -/
def waitFor (e : LogEntry) (x : LogThr) (k : Word) (y : Group) : Group :=
  { y with log := lmod y.log 0 (fun z => { e with thr := z.thr.filter (fun w => x.t == w.t), token := k, woken := false }) }

theorem lateErrors_of_latent {s : State} (h : s.latent = []) (p : Pass) (m : Mem) (x : LogThr) : lateErrors s p m x = s := by
  simp [lateErrors, findFor, h]

theorem thrNow_oldest {s : State} {b g : Nat} {y : Group} {e : LogEntry} {r : List LogEntry} {x : LogThr} (hy : s.grp? b g = some y)
    (hlog : y.log = e :: r) (hthr : e.thr = [x]) : thrNow s b g 0 x = x := by
  simp [thrNow, hy, hlog, hthr]

section
variable {s : State} {p : Pass} {b g : Nat} {y : Group} {e : LogEntry} {r : List LogEntry} {x : LogThr} {m : Mem}
variable (hp : latePass s b g = some p) (hy : s.grp? b g = some y) (hlog : y.log = e :: r) (hacc : e.acc ≠ 3) (hthr : e.thr = [x])
  (hm : memOf e.i = some m) (hlatent : s.latent = [])

include hp hy hlog in
theorem exec_loggedReissue (hlife : p.B.life = .resident) (hwoken : e.woken = true) :
    exec (.loggedReissue b g) s = .next (reissue s b g 0 e y) := by
  have hexec : exec (.loggedReissue b g) s = execLoggedReissue b g s := rfl
  have hx := latePass_block hp
  have hgroup : p.B.groups[g]? = some y := (grp?_of_blk? hx).symm.trans hy
  have holdest : y.log.findIdx? (·.woken) = some 0 ∧ y.log.find? (·.woken) = some e := by simp [hlog, List.findIdx?_cons, hwoken]
  simp [hexec, execLoggedReissue, hx, hgroup, holdest, hlife]

include hp hy hlog hacc hthr hm hlatent in
/-- R154: the one thread of the entry is served, and the entry leaves the log. -/
theorem reissue_served {h : Hit} (hlook : redoLook s p e x = .ok h) (hhold : h.hold = none) :
    reissue s b g 0 e y = afterEngine (modGrp (lateAccess s b g e x h) b g dropOldest) b g := by
  have hredo : redoOne b g 0 e x { s := s, left := [], token := e.token, woken := e.woken, bad := none } =
      { s := lateAccess s b g e x h, left := [], token := e.token, woken := e.woken, bad := none } := by
    simp [redoOne, thrNow_oldest hy hlog hthr, hp, hm, lateErrors_of_latent hlatent, hlook, hhold]
  have hback : putBack 0 e { s := lateAccess s b g e x h, left := [], token := e.token, woken := e.woken, bad := none } =
      dropOldest := by
    funext y
    simp [putBack, dropOldest]
  simp [reissue, hacc, hthr, foldS, hredo, hback]

include hp hy hlog hacc hthr hm hlatent in
/-- R154: the page is absent again, so the entry waits for a further fault and the group parks. -/
theorem reissue_absent {q : BitVec 64} (hlook : redoLook s p e x = .notPresent q) (hstatus : y.q.status = .pending ∨ y.q.status = .active) :
    reissue s b g 0 e y =
      park (modGrp (pageFault s b g e.acc x.addr).2 b g (waitFor e x (pageFault s b g e.acc x.addr).1)) b g
        (.page (pageFault s b g e.acc x.addr).1) := by
  have hredo : redoOne b g 0 e x { s := s, left := [], token := e.token, woken := e.woken, bad := none } =
      { s := (pageFault s b g e.acc x.addr).2, left := [x], token := (pageFault s b g e.acc x.addr).1, woken := false, bad := none } := by
    simp [redoOne, thrNow_oldest hy hlog hthr, hp, hm, lateErrors_of_latent hlatent, hlook]
  have hback : putBack 0 e { s := (pageFault s b g e.acc x.addr).2, left := [x], token := (pageFault s b g e.acc x.addr).1, woken := false, bad := none } =
      waitFor e x (pageFault s b g e.acc x.addr).1 := by
    funext y
    simp [putBack, waitFor]
  simp [reissue, hacc, hthr, foldS, hredo, hback, hstatus.symm]

include hp hy hlog hacc hthr hm hlatent in
theorem served_meets (hlife : p.B.life = .resident) (hwoken : e.woken = true) (hlive : y.liveList ≠ []) (hrollback : y.q.rollback = false) {h : Hit}
    (hlook : redoLook s p e x = .ok h) (hhold : h.hold = none) (himm : h.imm = false) :
    ∃ t z, exec (.loggedReissue b g) s = .next t ∧ t.grp? b g = some z ∧ z.log = r ∧
      t.mem = (lateAccess s b g e x h).mem ∧ z.thr = y.thr ∧
      (m.kind = .store → m.space ≠ .win → h.lapsed = false → t.mem = msetN s.mem h.loc (storeBytes m.n x.data)) := by
  obtain ⟨hview, hmem⟩ := lateAccess_meets hm hy x himm
  simp only [lateView, hy, Option.map_some, Option.map_eq_some_iff, Prod.mk.injEq] at hview
  obtain ⟨w, hw, hwthr, hwlog, hwq⟩ := hview
  have hz : (modGrp (lateAccess s b g e x h) b g dropOldest).grp? b g = some (dropOldest w) := by rw [grp?_modGrp_same, hw, Option.map_some]
  have hwlive : (dropOldest w).liveList ≠ [] := by rwa [liveList_congr (y := y) (z := dropOldest w) hwthr]
  have hend := afterEngine_of_live hz (hwq ▸ hrollback) hwlive
  have hexec := exec_loggedReissue hp hy hlog hlife hwoken
  rw [reissue_served hp hy hlog hacc hthr hm hlatent hlook hhold, hend] at hexec
  refine ⟨_, dropOldest w, hexec, hz, ?_, modGrp_mem .., hwthr, fun hstore _ hlapsed => ?_⟩
  · rw [dropOldest, hwlog, hlog, List.tail_cons]
  · rw [modGrp_mem, hmem]
    simp [accMem, hstore, hlapsed]

include hp hy hlog hacc hthr hm hlatent in
theorem absent_meets (hlife : p.B.life = .resident) (hwoken : e.woken = true) {q : BitVec 64} (hlook : redoLook s p e x = .notPresent q)
    (hstatus : y.q.status = .pending ∨ y.q.status = .active) : ∃ t z o, exec (.loggedReissue b g) s = .next t ∧
      t.grp? b g = some z ∧ t.mem = s.mem ∧ z.r = y.r ∧
      z.q.status = .parked (.page (pageFault s b g e.acc x.addr).1) o ∧
      z.log = { e with thr := [x], token := (pageFault s b g e.acc x.addr).1, woken := false } :: r := by
  have hw : (modGrp (pageFault s b g e.acc x.addr).2 b g (waitFor e x (pageFault s b g e.acc x.addr).1)).grp? b g =
      some (waitFor e x (pageFault s b g e.acc x.addr).1 y) := by
    rw [grp?_modGrp_same, grp?_pageFault, hy, Option.map_some]
  obtain ⟨o, hz⟩ := grp?_park hw (.page (pageFault s b g e.acc x.addr).1)
  have hexec := exec_loggedReissue hp hy hlog hlife hwoken
  rw [reissue_absent hp hy hlog hacc hthr hm hlatent hlook hstatus] at hexec
  refine ⟨_, _, o, hexec, hz, ?_, rfl, rfl, ?_⟩
  · rw [park_mem, modGrp_mem, pageFault_mem]
  · simp [emptyLatches, modAllThr, setStatus, waitFor, hlog, lmod, hthr]

end

end Sys2Proof.Proofs
end

section
/-! The kill of a context (R165): what it takes, part by part. -/

namespace Sys2Proof.Proofs
open Sys2Proof.Machine Sys2Proof.Laws

/-! Collectives. -/

theorem collSpread_eq (s : State) (kind cause : Nat) (c : Coll) : ∃ links, (collSpread s kind cause c).2 = { s with links := links } := by
  unfold collSpread
  refine foldl_keeps (fun z : Bool × State => ∃ links, z.2 = { s with links := links }) _ (fun z d hz => ?_) _ _ ⟨_, rfl⟩
  obtain ⟨links, hz⟩ := hz
  dsimp only
  rw [hz]
  unfold originate
  dsimp only
  split
  · exact ⟨_, rfl⟩
  · exact ⟨_, rfl⟩

theorem collPoison_eq (s : State) (c : Coll) : ∃ poison, (collPoison s c).2 = { s with poison := poison } := by
  unfold collPoison
  dsimp only
  repeat' split
  all_goals exact ⟨_, rfl⟩

/-- What a context holds beside its collectives. -/
def holdings (s : State) := (s.ctxs, s.insts, s.blocks, s.pfaults, s.clusters)

theorem holdings_collSpread (s : State) (kind cause : Nat) (c : Coll) : holdings (collSpread s kind cause c).2 = holdings s := by
  obtain ⟨_, h⟩ := collSpread_eq s kind cause c
  rw [h]
  rfl

theorem holdings_collPoison (s : State) (c : Coll) : holdings (collPoison s c).2 = holdings s := by
  obtain ⟨_, h⟩ := collPoison_eq s c
  rw [h]
  rfl

/-- R59: the end of the collectives of a context takes nothing else from anyone. -/
theorem holdings_killColls (s : State) (ctx : Word) : holdings (killColls s ctx) = holdings s := by
  refine foldS_same holdings _ (fun c t => ?_) s.colls s
  split
  · next x _ =>
    split
    · refine Eq.trans (b := holdings (if c.2.fin.isSome then (collSpread t 1 1 c.2).2 else (collPoison (collSpread t 1 1 c.2).2 c.2).2)) rfl ?_
      split
      · exact holdings_collSpread ..
      · rw [holdings_collPoison, holdings_collSpread]
    · rfl
  · rfl

/-! Blocks. -/

/-- The blocks of a context. -/
def blocksIn (s : State) (ctx : Word) : List Nat := (s.blocks.filter (fun c => c.2.ctx == ctx)).map (·.1)

theorem mem_blocksIn {s : State} {ctx : Word} {b : Nat} {x : Block} (hx : s.blk? b = some x) (hctx : x.ctx = ctx) : b ∈ blocksIn s ctx :=
  List.mem_map.2 ⟨(b, x), List.mem_filter.2 ⟨mem_of_tget? hx, by simp [hctx]⟩, rfl⟩

/-- R165: the scratch of the blocks of a context is cleared. -/
def sweep (s : State) (ctx : Word) : State := foldS (fun b s => clearRange s (scrLoc b 0) (2 ^ 23)) (blocksIn s ctx) s

theorem holdings_sweep (s : State) (ctx : Word) : holdings (sweep s ctx) = holdings s :=
  foldS_same holdings (fun b s => clearRange s (scrLoc b 0) (2 ^ 23)) (fun _ _ => rfl) _ s

theorem zeroFrom_sweep {s : State} {ctx : Word} {b : Nat} {x : Block} (hx : s.blk? b = some x) (hctx : x.ctx = ctx) :
    zeroFrom (scrLoc b 0) (2 ^ 23) (sweep s ctx) :=
  foldS_reaches (fun _ => True) (zeroFrom (scrLoc b 0) (2 ^ 23)) _ (fun _ _ _ => trivial)
    (fun k _ h => zeroFrom_clearRange_of h (scrLoc k 0) (2 ^ 23)) (fun t _ => zeroFrom_clearRange _ _ t) (mem_blocksIn hx hctx) s trivial

/-! Launches that have not completed. -/

theorem waiting_reportDone (s : State) (hp q : HPort) (r : CompRec) :
    (s.port q).sub.waiting <+: ((reportDone s hp r).port q).sub.waiting := by
  unfold reportDone modSub modPort
  by_cases hq : q = hp
  · subst hq
    rw [port_setPort]
    exact List.prefix_append ..
  · exact ⟨[], by rw [port_setPort_ne s hq, List.append_nil]⟩

/-- R98: the launch stands reported at its port, as killed. -/
def reportedKilled (i : Inst) (s : State) : Prop := ∃ r ∈ (s.port i.port).sub.waiting, r.sseq = i.sseq ∧ r.kind = 0 ∧ r.status = 7

/-- R98, R165: a launch of a killed context is reported. -/
def reportKilled (ctx : Word) (c : Nat × Inst) (s : State) : State :=
  if c.2.ctx == ctx then
    reportDone s c.2.port { cseq := 0, sseq := c.2.sseq, kind := 0, status := 7, graph := c.2.graph, bytes := 0, time := s.now, stamp := 0 }
  else s

theorem killInsts_eq (s : State) (ctx : Word) : killInsts s ctx =
    { foldS (reportKilled ctx) s.insts s with insts := (foldS (reportKilled ctx) s.insts s).insts.filter (fun c => c.2.ctx != ctx) } := rfl

/-- What a report leaves as it was. -/
def besideReports (s : State) := (holdings s, s.mem)

theorem besideReports_reportKilled (ctx : Word) (c : Nat × Inst) (s : State) : besideReports (reportKilled ctx c s) = besideReports s := by
  unfold reportKilled
  split
  · cases c.2.port <;> rfl
  · rfl

theorem killInsts_frame (s : State) (ctx : Word) :
    (killInsts s ctx).ctxs = s.ctxs ∧ (killInsts s ctx).blocks = s.blocks ∧ (killInsts s ctx).pfaults = s.pfaults ∧
      (killInsts s ctx).clusters = s.clusters ∧ (killInsts s ctx).mem = s.mem := by
  have h := foldS_same besideReports _ (besideReports_reportKilled ctx) s.insts s
  simp only [besideReports, holdings, Prod.mk.injEq] at h
  obtain ⟨⟨hctxs, -, hblocks, hpfaults, hclusters⟩, hmem⟩ := h
  rw [killInsts_eq]
  exact ⟨hctxs, hblocks, hpfaults, hclusters, hmem⟩

theorem reportedKilled_killInsts {s : State} {n : Nat} {i : Inst} (hi : (n, i) ∈ s.insts) : reportedKilled i (killInsts s i.ctx) := by
  refine foldS_reaches (fun _ => True) (reportedKilled i) (reportKilled i.ctx) (fun _ _ _ => trivial) (fun c t ht => ?_) (fun t _ => ?_) hi s trivial
  · obtain ⟨r, hr, hrep⟩ := ht
    unfold reportKilled
    split
    · exact ⟨r, (waiting_reportDone t c.2.port i.port _).subset hr, hrep⟩
    · exact ⟨r, hr, hrep⟩
  · refine ⟨{ cseq := 0, sseq := i.sseq, kind := 0, status := 7, graph := i.graph, bytes := 0, time := t.now, stamp := 0 }, ?_, rfl, rfl, rfl⟩
    simp [reportKilled, reportDone, modSub]

/-! Queues and banks. -/

theorem cluster_endTiers (s : State) (ctx : Word) (k : Nat) :
    (endTiers s ctx).cluster k = endCluster s.now ctx (s.cluster k) := by
  unfold State.cluster endTiers tget
  rw [tget?_mapVal (endCluster s.now ctx)]
  cases tget? s.clusters k <;> rfl

/-- R124: no queue of the context stays enabled. -/
theorem owner_endCluster_queue {now : Nat} {ctx : Word} {x : Cluster} {n : Nat} {q : Queue}
    (hq : tget? (endCluster now ctx x).queues n = some q) (hen : q.en = true) : q.owner ≠ ctx := by
  rw [endCluster, tget?_mapVal (closeQueue ctx)] at hq
  obtain ⟨p, -, rfl⟩ := Option.map_eq_some_iff.1 hq
  unfold closeQueue at hen ⊢
  split at hen
  · cases hen
  · next hopen =>
    rw [if_neg hopen]
    simpa [hen] using hopen

/-- R197: no bank of the context stays outside a drain. -/
theorem owner_endCluster_bank {now : Nat} {ctx : Word} {x : Cluster} {n : Nat} {b : Bank}
    (hb : tget? (endCluster now ctx x).banks n = some b) (hdrain : b.drain = false) (hmode : b.mode ≠ 0) : b.owner ≠ ctx := by
  rw [endCluster, tget?_mapVal (drainBank now ctx)] at hb
  obtain ⟨k, -, rfl⟩ := Option.map_eq_some_iff.1 hb
  unfold drainBank at hdrain hmode ⊢
  split at hdrain
  · cases hdrain
  · next hheld =>
    rw [if_neg hheld] at hmode ⊢
    have hused : k.mode ≠ 0#2 := hmode
    simpa [hdrain, hused] using hheld

/-! The kill. -/

/-- R165: the context is marked, and nothing more is asked of it. -/
def markKilled (c : Context) : Context := { c with killed := true, preq := [], lastInst := none, lastClock := [] }

/-- R165: its collectives have ended, and its blocks are gone. -/
def freed (s : State) (ctx : Word) : State := freeBlocks (killColls (modCtx s ctx markKilled) ctx) ctx

/-- R165, R167: queues and banks, page faults and waiting entries of a context are given up. -/
def closeAll (s : State) (ctx : Word) : State :=
  dropEntries (dropEntries { endTiers s ctx with pfaults := s.pfaults.filter (fun p => p.ctx != ctx) } ctx .A) ctx .B

theorem closeAll_frame (s : State) (ctx : Word) :
    (closeAll s ctx).ctxs = s.ctxs ∧ (closeAll s ctx).insts = s.insts ∧ (closeAll s ctx).blocks = s.blocks ∧
      (closeAll s ctx).pfaults = s.pfaults.filter (fun p => p.ctx != ctx) ∧ (closeAll s ctx).clusters = (endTiers s ctx).clusters ∧
      (closeAll s ctx).mem = s.mem := ⟨rfl, rfl, rfl, rfl, rfl, rfl⟩

/-- The state in which the launches of a killed context complete. -/
def ended (s : State) (ctx : Word) : State := closeAll (freed s ctx) ctx

theorem kill_eq {s : State} {ctx : Word} {c : Context} (hc : s.ctx? ctx = some c) (halive : c.killed = false) :
    kill s ctx = killInsts (ended s ctx) ctx := by
  simp only [kill, hc, halive]
  rfl

theorem tget?_filter_of {α : Type} {p : Nat × α → Bool} {t : Table α} {i : Nat} {v : α} (h : tget? t i = some v) (hp : p (i, v) = true) :
    tget? (t.filter p) i = some v := by
  induction t with
  | nil => cases h
  | cons c r ih =>
    obtain ⟨k, w⟩ := c
    by_cases hi : i = k
    · subst hi
      rw [tget?, if_pos rfl] at h
      cases h
      simp [hp, tget?]
    · rw [tget?, if_neg hi] at h
      by_cases hk : p (k, w) = true <;> simp [hk, tget?, hi, ih h]

theorem freed_meets (s : State) (ctx : Word) :
    (freed s ctx).ctxs = (modCtx s ctx markKilled).ctxs ∧ (freed s ctx).insts = s.insts ∧
    (freed s ctx).blocks = s.blocks.filter (fun c => c.2.ctx != ctx) ∧ (freed s ctx).pfaults = s.pfaults ∧ (freed s ctx).clusters = s.clusters ∧
    ∀ b x, s.blk? b = some x → x.ctx = ctx → zeroFrom (scrLoc b 0) (2 ^ 23) (freed s ctx) := by
  have hcolls : holdings (killColls (modCtx s ctx markKilled) ctx) =
      ((modCtx s ctx markKilled).ctxs, s.insts, s.blocks, s.pfaults, s.clusters) := by
    rw [holdings_killColls]
    simp [holdings]
  have hsweep := (holdings_sweep (killColls (modCtx s ctx markKilled) ctx) ctx).trans hcolls
  simp only [holdings, Prod.mk.injEq] at hcolls hsweep
  obtain ⟨hctxs, hinsts, hblocks, hpfaults, hclusters⟩ := hsweep
  refine ⟨hctxs, hinsts, congrArg (List.filter _) hblocks, hpfaults, hclusters, fun b x hx hctx => ?_⟩
  obtain ⟨-, -, hkept, -⟩ := hcolls
  exact zeroFrom_sweep ((congrArg (tget? · b) hkept).trans hx) hctx

/-- R165: what the kill has taken when the launches of the context complete. -/
theorem ended_meets {s : State} {ctx : Word} {c : Context} (hc : s.ctx? ctx = some c) :
    (ended s ctx).ctx? ctx = some (markKilled c) ∧
    (ended s ctx).insts = s.insts ∧ (ended s ctx).blocks = s.blocks.filter (fun c => c.2.ctx != ctx) ∧
    (ended s ctx).pfaults = s.pfaults.filter (fun p => p.ctx != ctx) ∧
    (∃ now, ∀ k, (ended s ctx).cluster k = endCluster now ctx (s.cluster k)) ∧
    ∀ b x, s.blk? b = some x → x.ctx = ctx → zeroFrom (scrLoc b 0) (2 ^ 23) (ended s ctx) := by
  obtain ⟨hctxs, hinsts, hblocks, hpfaults, hclusters, hzero⟩ := freed_meets s ctx
  obtain ⟨ectxs, einsts, eblocks, epfaults, eclusters, emem⟩ := closeAll_frame (freed s ctx) ctx
  refine ⟨?_, einsts.trans hinsts, eblocks.trans hblocks, epfaults.trans (congrArg (List.filter _) hpfaults), ⟨(freed s ctx).now, fun k => ?_⟩,
    fun b x hx hctx a hlo hhi => (congrArg (mget · a) emem).trans (hzero b x hx hctx a hlo hhi)⟩
  · refine (congrArg (tget? · ctx.toNat) (ectxs.trans hctxs)).trans ((ctx?_modCtx ..).trans ?_)
    rw [hc, Option.map_some]
  · have hbefore : (freed s ctx).cluster k = s.cluster k := congrArg (tget · k (Cluster.reset k)) hclusters
    rw [← hbefore, ← cluster_endTiers]
    exact congrArg (tget · k (Cluster.reset k)) eclusters

/-- R165: a kill that is refused, one of a context killed already, and one that takes effect. -/
theorem ctxKill_meets (hp : HPort) (ctx : Word) (s : State) (hup : s.up = true) :
    ((∀ c, s.ctx? ctx = some c → c.port ≠ hp) → exec (.ctxKill hp ctx) s = .next (modHost s hp (fun h => { h with denied := true }))) ∧
    (∀ c, s.ctx? ctx = some c → c.port = hp → c.killed = true → exec (.ctxKill hp ctx) s = .next s) ∧
    (∀ c, s.ctx? ctx = some c → c.port = hp → c.killed = false → ∃ t d, exec (.ctxKill hp ctx) s = .next t ∧
      t.ctx? ctx = some d ∧ d.killed = true ∧ (∀ z ∈ t.blocks, z.2.ctx ≠ ctx) ∧ (∀ z ∈ t.insts, z.2.ctx ≠ ctx) ∧ (∀ f ∈ t.pfaults, f.ctx ≠ ctx) ∧
      (∀ n i, (n, i) ∈ s.insts → i.ctx = ctx → ∃ r ∈ (t.port i.port).sub.waiting, r.sseq = i.sseq ∧ r.kind = 0 ∧ r.status = 7) ∧
      (∀ k n q, tget? (t.cluster k).queues n = some q → q.en = true → q.owner ≠ ctx) ∧
      (∀ k n b, tget? (t.cluster k).banks n = some b → b.drain = false → b.mode ≠ 0 → b.owner ≠ ctx) ∧
      (∀ b x, s.blk? b = some x → x.ctx = ctx → ∀ a, scrLoc b 0 ≤ a → a < scrLoc b 0 + 2 ^ 23 → mget t.mem a = 0) ∧
      (∀ b x, s.blk? b = some x → x.ctx ≠ ctx → t.blk? b = some x)) := by
  have hexec : exec (.ctxKill hp ctx) s = .next (if ownCtx s hp ctx = true then kill s ctx else denied s hp) := by
    have hrow : exec (.ctxKill hp ctx) s = execCtxKill hp ctx s := rfl
    simp [hrow, execCtxKill, hup]
  rw [hexec]
  refine ⟨fun hother => ?_, fun c hc hport hkilled => ?_, fun c hc hport halive => ?_⟩
  · rw [if_neg (mt ownCtx_iff.1 fun ⟨c, hc, hport⟩ => hother c hc hport)]
    rfl
  · rw [if_pos (ownCtx_iff.2 ⟨c, hc, hport⟩)]
    simp [kill, hc, hkilled]
  · rw [if_pos (ownCtx_iff.2 ⟨c, hc, hport⟩), kill_eq hc halive]
    obtain ⟨hctx, hinsts, hblocks, hpfaults, ⟨now, hcluster⟩, hzero⟩ := ended_meets hc
    obtain ⟨tctxs, tblocks, tpfaults, tclusters, tmem⟩ := killInsts_frame (ended s ctx) ctx
    have htcluster : ∀ k, (killInsts (ended s ctx) ctx).cluster k = endCluster now ctx (s.cluster k) := fun k => by
      rw [← hcluster]
      exact congrArg (tget · k (Cluster.reset k)) tclusters
    refine ⟨_, _, rfl, (congrArg (tget? · ctx.toNat) tctxs).trans hctx, rfl, fun z hz => ?_, fun z hz => ?_, fun f hf => ?_,
      fun n i hi hictx => ?_, fun k n q hq hen => ?_, fun k n b hb hdrain hmode => ?_, fun b x hx hxctx => ?_, fun b x hx hxctx => ?_⟩
    · rw [tblocks, hblocks] at hz
      simpa using (List.mem_filter.1 hz).2
    · rw [killInsts_eq] at hz
      simpa using (List.mem_filter.1 hz).2
    · rw [tpfaults, hpfaults] at hf
      simpa using (List.mem_filter.1 hf).2
    · subst hictx
      exact reportedKilled_killInsts (hinsts ▸ hi)
    · rw [htcluster] at hq
      exact owner_endCluster_queue hq hen
    · rw [htcluster] at hb
      exact owner_endCluster_bank hb hdrain hmode
    · rw [tmem]
      exact hzero b x hx hxctx
    · unfold State.blk?
      rw [tblocks, hblocks]
      exact tget?_filter_of hx (by simpa using hxctx)

end Sys2Proof.Proofs
end

section
/-! Invalidations, replays, promotions, page switches, late PREFs, re-issued accesses and kills, together. -/

namespace Sys2Proof.Proofs
open Sys2Proof.Machine Sys2Proof.Laws

/-- Settles O52, event by event. A replay turns on the wake of one core reaching every group that waits there, whatever the wakes of the other
cores park again; the switch of a page on where each byte of the page is written; a re-issue on what its access leaves of its group; a kill on
its parts, each of which takes one holding of the context and leaves the rest. -/
theorem translationAndKillEvents : Obligations.translation_and_kill_events :=
  ⟨invalidations_meet, invalidateComplete_meets, replays_meet, promotion_meets,
    fun k m s hmem hm htransit hheld hlatent _ hframe _ => pageSwitch_meets k m s hmem hm htransit hheld hlatent hframe, prefDeadline_meets,
    fun _ _ _ _ _ _ _ _ _ hp hlife hy hlog hwoken hacc hthr hm hlatent hlive hrollback =>
      ⟨fun _ hlook hhold himm => served_meets hp hy hlog hacc hthr hm hlatent hlife hwoken hlive hrollback hlook hhold himm,
        fun _ hlook hstatus => absent_meets hp hy hlog hacc hthr hm hlatent hlife hwoken hlook hstatus⟩,
    ctxKill_meets⟩

end Sys2Proof.Proofs
end
